-- ==== Sys2Proof/Word.lean ====
section
/-! DEFINITION. The word types of the NZ-720 and their plainest arithmetic (R1, R2, R7, R9). -/

namespace Sys2Proof

/-- A byte (R1). -/
abbrev Byte := BitVec 8
/-- A 32-bit word: an instruction word, a lane of a vector register. -/
abbrev Word := BitVec 32
/-- A 64-bit word: a scalar register, an address. -/
abbrev DWord := BitVec 64
/-- A lane mask: lane L at bit L (R7). -/
abbrev Mask := BitVec 128

/-- One lane of a mask (R7). -/
def Mask.lane (m : Mask) (l : Nat) : Bool := m.getLsbD l

/-- A mask from its two scalars: the lower-numbered register holds lanes 0-63 (R7). -/
def Mask.ofPair (lo hi : DWord) : Mask := hi ++ lo

/-- Lanes 0-63 of a mask. -/
def Mask.lo (m : Mask) : DWord := m.extractLsb' 0 64

/-- Lanes 64-127 of a mask. -/
def Mask.hi (m : Mask) : DWord := m.extractLsb' 64 64

end Sys2Proof
end

