-- ==== Sys2Proof/Config.lean ====
section
/-! DEFINITION. What an implementation fixes: the sizes the manual gives, and the constants it leaves to the
implementation. -/

namespace Sys2Proof.Config

/-- Lanes of a group (R16). -/
def lanes : Nat := 128
/-- Compute cores of the package (R11). -/
def cores : Nat := 192
/-- Group slots of a core (R16). -/
def slotsPerCore : Nat := 64
/-- Scratchpad bytes of a core (R13). -/
def scratchBytes : Nat := 1048576
/-- Vector register file bytes of a core (R13). -/
def vregFileBytes : Nat := 1048576
/-- Tile file bytes of a core (R13). -/
def tileFileBytes : Nat := 2097152
/-- Barrier slots of a core (R18). -/
def barrierSlots : Nat := 256
/-- Tape table entries of a core (R23). -/
def tapeEntries : Nat := 256
/-- The largest value of a group's counter (R21). -/
def counterMax : Nat := 63
/-- Graphs a core runs at once (R265). -/
def graphsPerCore : Nat := 16
/-- Step tables a die runs at once (R334). -/
def tablesPerDie : Nat := 16
/-- Hardware queues (R346). -/
def queues : Nat := 1024
/-- Staith service cores of the I/O die (R10). -/
def staithCores : Nat := 16
/-- Worker cores of the firmware complex (R10). -/
def workers : Nat := 8
/-- Ticks of pod time in a microsecond (R4). -/
def ticksPerUs : Nat := 4000
/-- Ticks of the 8 µs resend interval (R262, R322). -/
def resendTicks : Nat := 32000
/-- Unacknowledged requests of a core at one home (R262). -/
def homeRequests : Nat := 64
/-- Resends before TIMEOUT (R262, R322). -/
def resends : Nat := 8
/-- Idle clocks of the forward-progress monitor (R374). -/
def idleClocks : Nat := 65536

/-- A 2 MiB block that lies in the HBM of die 0, by its number. The manual gives no map of addresses but has firmware find room there
(R346), so some block does. DESIGN CHOICE, log 7. -/
opaque hbmBlock : Fin 2147483648

/-- Whether the implementation's address map gives an address to host memory reached through CXL. DESIGN CHOICE, log 7. -/
opaque hostMap (pa : Nat) : Bool

/-- The compute die whose stacks hold a device physical address in the implementation's map. The manual gives no map of physical addresses
to dies (R12 says only that each address has one owner). DESIGN CHOICE, log 7. -/
opaque stackDie (pa : Nat) : Fin 4

/-- Whether a physical address is host memory reached through CXL. -/
def hostMemory (pa : Nat) : Bool := pa / 2097152 != hbmBlock.val && hostMap pa

/-- The owner of a physical address: the die of its stacks, die 0 for host memory (R12). -/
def ownerDie (pa : Nat) : Fin 4 := if pa / 2097152 = hbmBlock.val ∨ hostMemory pa then 0 else stackDie pa

/-- Whether a physical address lies in the HBM of a die. -/
def inHbm (die pa : Nat) : Bool := (ownerDie pa).val == die && !hostMemory pa

/-- Whether every byte of a run lies in the HBM of a die. -/
def inHbmRun (die pa : Nat) : Nat → Bool
  | 0 => true
  | n + 1 => inHbm die (pa + n) && inHbmRun die pa n

/-- Of a window's accesses, those that missed in the memory-side caches, whose contents the manual does not give (R389): a free value for
each window's end, by pod time, launch and range. DESIGN CHOICE, log 11. -/
opaque windowMisses (pt launch range : Nat) : Fin (2 ^ 20 + 1)

/-- The Ed25519 signature that the package's identity key makes of some bytes; the key is in fuses (R397). DESIGN CHOICE, log 21. -/
opaque identitySign (bytes : List (BitVec 8)) : List (BitVec 8)

/-- The ordering domain that firmware gives the job of a DET launch, less 1 (R325). The manual does not say which, so nothing is
known of it. DESIGN CHOICE, log 37. -/
opaque detDomain (job : Nat) : Fin 15

/-- The CAUSE that the fault record of a launch halted by a lock-step mismatch names: the manual gives none (R398). DESIGN CHOICE,
log 43. -/
opaque lockstepCause : BitVec 8

end Sys2Proof.Config
end

