-- ==== Sys2Proof/Syntax.lean ====
section
/-! DEFINITION. The instruction words of the compute cores as records of their format's fields (R56-R70), SUBMIT (R77), and
the part's events (spec/opcode_table.json): one constructor of Instr per row of the table. The operands of an event row
are what the manual leaves to time, to firmware, to the host or to the links: which group, operation, queue or packet the
event concerns, and the values the outside supplies. -/

namespace Sys2Proof

/-- The trailing 64-bit literal, where the word carries one (R56, R61). -/
abbrev Lit := Option DWord

/-- Format S2 (R62). -/
structure S2 where
  sd : BitVec 8 := 0
  sa : BitVec 8 := 0
  md : BitVec 4 := 0
  lit : Lit := none
deriving DecidableEq, Repr

/-- Format SI without a literal (R63). -/
structure SI where
  sd : BitVec 8 := 0
  imm : BitVec 16 := 0
deriving DecidableEq, Repr

/-- Format SI with the literal: SLI with LEN 10 (R63, R189). -/
structure SIL where
  sd : BitVec 8 := 0
  imm : BitVec 16 := 0
  lit : DWord := 0
deriving DecidableEq, Repr

/-- Format SB (R64). -/
structure SB where
  cond : BitVec 4 := 0
  off : BitVec 20 := 0
deriving DecidableEq, Repr

/-- Format W (R66). -/
structure WF where
  ld : BitVec 6 := 63
  st : BitVec 6 := 63
  tile : BitVec 6 := 63
  coll : BitVec 6 := 63
deriving DecidableEq, Repr

/-- Format SX (R67). -/
structure SX where
  sd : BitVec 8 := 0
  md : BitVec 8 := 0
  sa : BitVec 8 := 0
  sb : BitVec 8 := 0
  sc : BitVec 8 := 0
  md2 : BitVec 8 := 0
  imm : BitVec 32 := 0
  lit : Lit := none
deriving DecidableEq, Repr

/-- Format VX (R68). -/
structure VX where
  ty : BitVec 4 := 0
  ret : BitVec 2 := 0
  md : BitVec 10 := 0
  vd : BitVec 9 := 0
  va : BitVec 9 := 0
  vb : BitVec 9 := 0
  md2 : BitVec 5 := 0
  vc : BitVec 9 := 0
  sp : BitVec 8 := 255
  imm : BitVec 15 := 0
  lit : Lit := none
deriving DecidableEq, Repr

/-- Format TX (R69). -/
structure TX where
  td : BitVec 4 := 0
  ta : BitVec 4 := 0
  tb : BitVec 4 := 0
  tc : BitVec 4 := 0
  sa : BitVec 8 := 0
  sb : BitVec 8 := 0
  sc : BitVec 8 := 0
  md : BitVec 8 := 0
  imm : BitVec 32 := 0
  lit : Lit := none
deriving DecidableEq, Repr

/-- Format CX (R70). -/
structure CX where
  xr : BitVec 3 := 0
  scope : BitVec 3 := 0
  ord : BitVec 2 := 0
  md : BitVec 8 := 0
  vd : BitVec 9 := 0
  va : BitVec 9 := 0
  vb : BitVec 9 := 0
  md2 : BitVec 5 := 0
  sa : BitVec 8 := 0
  sb : BitVec 8 := 0
  sc : BitVec 8 := 0
  sd : BitVec 8 := 0
  lit : Lit := none
deriving DecidableEq, Repr

/-- Format QX (R70). -/
structure QX where
  xr : BitVec 3 := 0
  scope : BitVec 3 := 0
  ord : BitVec 2 := 0
  md : BitVec 8 := 0
  sa : BitVec 8 := 0
  sb : BitVec 8 := 0
  sc : BitVec 8 := 0
  sd : BitVec 8 := 0
  imm : BitVec 32 := 0
  lit : Lit := none
deriving DecidableEq, Repr

/-- The R-type fields of SUBMIT (R77). -/
structure RT where
  rd : BitVec 5 := 0
  rs1 : BitVec 5 := 0
  rs2 : BitVec 5 := 0
deriving DecidableEq, Repr

/-- What a remote packet does at its destination (R328, R329); a byte carried as poisoned is so marked (R254). -/
inductive RemoteAct where
  | store (bytes : List (Byte × Bool))
  | add (addend : DWord)
deriving DecidableEq, Repr

/-- A remote packet of the collective engines (R314, R317, R322, R328, R329). `src` is package << 2 | die. -/
structure RemotePacket where
  src : Nat
  dest : Nat
  ordered : Bool
  domain : Nat
  stamp : BitVec 48
  reqId : BitVec 16
  job : BitVec 32
  ocpm : Bool
  addr : DWord
  rel : Bool
  scope : BitVec 3
  acks : List (BitVec 16)   -- replies whose receipt the source acknowledges with this packet (R322, log 39)
  act : RemoteAct
deriving DecidableEq, Repr

/-- A destination's answer to a remote packet (R322, R337). -/
inductive Reply where
  | ok
  | poison
  | overflow
  | refused
  | fault (cause : BitVec 8)
deriving DecidableEq, Repr

/-- How a host access goes (R399, R409): a read or a write through CXL.mem, or a read of BAR 0. -/
inductive HostAccess where
  | read (pa : Nat) (n : Nat)
  | write (pa : Nat) (bytes : List Byte)
  | bar0 (off : Nat) (n : Nat)
deriving DecidableEq, Repr

/-- Firmware's outcome of copying one migration unit (R390, R391); a copy that reads uncorrectable data finds it at a page of the unit and
an offset there. -/
inductive MigrationOutcome where
  | copied
  | faulted
  | poisoned (page : Nat) (off : Nat)
deriving DecidableEq, Repr

/-- Where an uncorrectable error strikes (R407, R408). -/
inductive EccTarget where
  | mem (pa : Nat)
  | scratch (launch : Nat) (wg : Nat) (off : Nat)
  | tile (group : Nat) (off : Nat)
  | skCell (pa : Nat) (versionLost : Bool)
  | groupState (group : Nat)
  | queueState (q : Nat)
deriving DecidableEq, Repr

/-- An image of the boot chain (R396): its number, version and digest, and whether its digest and its signature pass their checks. -/
structure BootImage where
  number : BitVec 32
  version : BitVec 32
  digest : List Byte
  digestOk : Bool
  signatureOk : Bool
deriving DecidableEq, Repr

/-- What a boot finds and firmware chooses: the three images; where it puts its tables (R346, R400) and the context pool (R365); the remap
table of the logical cores (R376); the drain budget in µs (R365) and the stall period in µs (R323); the doorbell pages of the virtual
functions (R399); and for each Relnov port the far end that training finds, none when it fails (R410). -/
structure BootChoice where
  lockstepImage : BootImage
  workerImage : BootImage
  staithImage : BootImage
  qtbase : DWord
  asidtab : DWord
  nqhdr : DWord
  evhdr : DWord
  attreport : DWord
  logaddr : DWord
  porttab : DWord
  poolBase : DWord
  poolSize : Nat
  pkgnum : BitVec 16
  remap : List Nat
  drainBudget : Nat
  stallUs : Nat
  fnPages : List (Nat × List Nat)
  ports : List (Option DWord)
  clocks : List DWord
deriving DecidableEq, Repr

/-- A packet on a port: 0-15 an input port, 16-19 a local die (R321). -/
structure PortPacket where
  port : Nat
  packet : RemotePacket
deriving DecidableEq, Repr

/-- A source to be excluded, and the port it lies behind (R324). -/
structure PortSource where
  port : Nat
  src : Nat
deriving DecidableEq, Repr

/-- A doorbell page as a host function reaches it (R350, R399). -/
structure Doorbell where
  fn : Nat
  page : Nat
deriving DecidableEq, Repr

/-- Where firmware moves a unit to: its frame, and the bramble area of a page with SK (R269, R390). -/
structure NewPlace where
  frame : DWord
  bramble : DWord
deriving DecidableEq, Repr

/-- The two halves of an attestation: the request of a host function, and firmware's answer (R397). -/
inductive Attestation where
  | request (fn : Nat)
  | answer
deriving DecidableEq, Repr

/-- A limit that a host function writes to PWRLIM (R400, R404). -/
structure LimitWrite where
  fn : Nat
  limit : BitVec 32
deriving DecidableEq, Repr

/-- Where in the information block a host function writes (R400). -/
structure InfoPlace where
  fn : Nat
  off : Nat
deriving DecidableEq, Repr

/-- How many errors were corrected, and where (R401, R407). -/
structure Corrections where
  n : Nat
  pa : Nat
deriving DecidableEq, Repr

/-- An event as its source raises it (R401). -/
structure EventRec where
  pt : DWord
  cause : BitVec 8
  srckind : BitVec 8
  launch : BitVec 32
  src : DWord
  arg0 : DWord
  arg1 : DWord
deriving DecidableEq, Repr

/-- The instructions and events of the part, one constructor per row of spec/opcode_table.json. -/
inductive Instr where
  -- MAJ 0x00 (R235)
  | nop (f : S2) | endg (f : S2) | trap (f : S2) | rft (f : S2) | yield (f : S2) | clkr (f : S2)
  | idr (f : S2) | sysr (f : S2) | sysw (f : S2) | fence (f : S2) | ret (f : S2) | jmp (f : S2)
  -- MAJ 0x01
  | wait (f : WF)
  -- MAJ 0x02 (R187)
  | sadd (f : S2) | ssub (f : S2) | smul (f : S2) | smulh (f : S2) | sand (f : S2) | sor (f : S2)
  | sxor (f : S2) | sandn (f : S2) | sshl (f : S2) | sshr (f : S2) | ssra (f : S2) | smin (f : S2)
  | smax (f : S2) | smov (f : S2) | spopc (f : S2) | sclz (f : S2)
  -- MAJ 0x03-0x06
  | saddi (f : SI) | sli (f : SI) | sliLit (f : SIL) | brc (f : SB) | call (f : SB)
  -- MAJ 0x07
  | scmp (f : SX) | ssel (f : SX) | sbfx (f : SX) | sbfi (f : SX)
  -- MAJ 0x08
  | sld (f : SX) | sst (f : SX) | slda (f : SX)
  -- MAJ 0x09
  | msplit (f : SX) | mopen (f : SX) | marrive (f : SX) | mjoin (f : SX) | mmov (f : SX) | mpopc (f : SX)
  -- MAJ 0x0A
  | palset (f : SX) | palget (f : SX) | fpcset (f : SX) | fpcget (f : SX)
  -- MAJ 0x0B
  | fork (f : SX) | vfork (f : SX) | join (f : SX) | taskend (f : SX) | launch (f : SX)
  -- MAJ 0x0C
  | waitw (f : SX) | bara (f : SX) | barw (f : SX) | baraw (f : SX)
  -- MAJ 0x14
  | vadd (f : VX) | vsub (f : VX) | vmul (f : VX) | vmulh (f : VX) | vmad (f : VX) | vabs (f : VX)
  | vmin (f : VX) | vmax (f : VX)
  -- MAJ 0x15
  | vand (f : VX) | vor (f : VX) | vxor (f : VX) | vandn (f : VX) | vshl (f : VX) | vshr (f : VX)
  | vsra (f : VX) | vpopc (f : VX) | vclz (f : VX) | vbfx (f : VX) | vbfi (f : VX)
  -- MAJ 0x16
  | vcmp (f : VX) | vsel (f : VX) | vmov (f : VX) | vlane (f : VX) | vins (f : VX)
  -- MAJ 0x17
  | vfadd (f : VX) | vfsub (f : VX) | vfmul (f : VX) | vfma (f : VX) | vfdiv (f : VX) | vfsqrt (f : VX)
  | vfmin (f : VX) | vfmax (f : VX) | vfrcpa (f : VX) | vfrsqa (f : VX)
  -- MAJ 0x18
  | vfcmp (f : VX) | vfclass (f : VX) | vfrnd (f : VX) | vfcvt (f : VX)
  -- MAJ 0x19
  | vshuf (f : VX) | vbcast (f : VX) | vred (f : VX) | vscan (f : VX)
  -- MAJ 0x1A
  | vld (f : VX) | vst (f : VX) | vldx (f : VX) | vstx (f : VX) | vatom (f : VX)
  -- MAJ 0x1B
  | vslice (f : VX) | vrand (f : VX)
  -- MAJ 0x28-0x2A
  | tcfg (f : TX) | tzero (f : TX) | tmov (f : TX) | tflgGet (f : TX) | tflgSet (f : TX)
  | tld (f : TX) | tldw (f : TX) | tst (f : TX)
  | tmma (f : TX) | tcomb (f : TX) | tcvt (f : TX) | tadd (f : TX)
  -- MAJ 0x2E-0x31
  | xset (f : CX) | xinv (f : CX) | grun (f : CX) | gsig (f : CX) | cfence (f : CX)
  | cpy (f : CX) | cpyx (f : CX) | cpyf (f : CX)
  | fat (f : CX) | fred (f : CX)
  | skget (f : CX) | skput (f : CX) | skrec (f : CX)
  -- MAJ 0x36
  | rst (f : QX) | rsig (f : QX) | rwait (f : QX) | crun (f : QX) | cbar (f : QX) | ptime (f : QX)
  -- the Staith service cores (R77, R353)
  | submit (f : RT)
  -- events of the control engine
  | operandLogTimeout (group : Nat)
  | partitionIssueSelect (core : Nat) (part : Nat)
  | timedHeartbeatTick (core : Nat)
  | logicalHeartbeatTick (group : Nat)
  | waitwRecheck (group : Nat)
  | rwaitRecheck (group : Nat)
  -- events of the engines
  | copyOpComplete (op : Nat)
  | tileOpComplete (op : Nat)
  | collOpComplete (op : Nat) (reply : Option Reply)
  | farAtomicAtHome (op : Nat) (cell : Nat)
  | farAtomicResend (op : Nat) (cell : Nat)
  | skGetAtHome (op : Nat) (cell : Nat)
  | skPutAtHome (op : Nat) (lane : Nat)
  | skReconcileAtHome (op : Nat) (cell : Nat)
  | graphNodeStart (graph : Nat) (node : Nat)
  | graphNodeFinish (graph : Nat) (node : Nat)
  | graphLaunchRetry (graph : Nat) (node : Nat)
  | graphTimeout (graph : Nat)
  | stepNop (table : Nat)
  | stepPut (table : Nat)
  | stepSig (table : Nat)
  | stepWait (table : Nat)
  | stepDone (table : Nat)
  | crunTimeout (table : Nat)
  | beacon (die : Nat) (port : Nat) (domain : Nat)
  | orderedPacketArrival (port : Nat) (domain : Nat) (watermark : BitVec 48) (packet : Option RemotePacket)
  | orderedDelivery (domain : Nat)
  | unorderedDelivery (arrival : PortPacket)
  | remoteResend (op : Nat) (reqId : Nat)
  | watermarkStall (domain : Nat)
  | sourceExclusion (what : PortSource)
  | podBarrierArrival (package : Nat) (job : BitVec 32) (bar : Nat) (count : Nat) (root : Nat) (agree : Bool)
  | podBarrierRelease (job : BitVec 32) (bar : Nat) (ok : Bool)
  | podSyncChange (podstate : BitVec 8)
  -- events of the front end
  | tail (door : Doorbell) (off : Nat) (size : Nat) (value : DWord)
  | reconcilePass
  | queueDeactivation (q : Nat)
  | workerQueueSelect (worker : Nat)
  | sliceExpiry (worker : Nat)
  | nopPacket (worker : Nat)
  | launchPacket (worker : Nat)
  | writePacket (worker : Nat)
  | signalPacket (worker : Nat)
  | wrsigPacket (worker : Nat)
  | waitsigPacket (worker : Nat)
  | graphPacket (worker : Nat)
  | fencePacket (worker : Nat)
  | leaseHold (worker : Nat)
  | leaseDrop (worker : Nat)
  | copyPacket (worker : Nat)
  | leaseWalkRetry (q : Nat)
  | launchEnd (launch : Nat)
  | workgroupPlace
  | workgroupResume (launch : Nat) (wg : Nat)
  | preemptChoice (launch : Nat) (wg : Nat)
  | save (launch : Nat) (wg : Nat) (pa : Nat)
  | flush (launch : Nat) (wg : Nat)
  | drainTimeout (launch : Nat) (wg : Nat)
  | forwardProgressSave (core : Nat)
  | quantumEnd (group : Nat)
  | detCommit (launch : Nat)
  | notifyWindowClose (launch : Nat) (range : Nat) (misses : Nat) (majdie : Nat)
  | notifyRdidxWrite (rdidx : BitVec 32)
  | notifyEnable (automig : Bool)
  | migrationUnit (asid : Nat) (va : DWord) (place : NewPlace) (outcome : MigrationOutcome)
  | hostSkAccess (fn : Nat) (access : HostAccess)
  | hostFunctionFreeze (fn : Nat) (addr : DWord)
  | functionLevelReset (fn : Nat)
  | ioDieReset (choice : BootChoice)
  | attestationRequest (half : Attestation)
  | lockstep
  | pwrlimWrite (write : LimitWrite)
  | infoBlockWrite (place : InfoPlace) (bytes : List Byte)
  | telemetryRefresh (pwr : BitVec 32) (tjmax : BitVec 16) (clk : BitVec 16)
  | thermal (tj : BitVec 16)
  | linkTraining (port : Nat) (trained : Bool) (farEnd : DWord)
  | eccCorrected (errors : Corrections)
  | eccUncorrectable (target : EccTarget)
  | scrubbing (pa : Nat)
  | hbmRowRepair (pa : Nat)
  | eventRecord (r : EventRec)
  | eventRingRoom (rdidx : BitVec 32)
  | waitsigRecheck (q : Nat)
  | hostCxlMemAccess (fn : Nat) (access : HostAccess)
  | notifyDisable
  | firmwareLaunchHalt (launch : Nat)
  | activeSetRemoval (port : Nat)
deriving DecidableEq, Repr

end Sys2Proof
end

