-- ==== Sys2Proof/Machine/Fields.lean ====
section
/-! DEFINITION. The checks of a decoded word in the order of R80: what each instruction's entry makes of each field of its
format. The fields of a word are a list of (field, value) pairs in the order of the format's table (R62-R70). -/

namespace Sys2Proof.Machine

/-- The fields of the formats. -/
inductive Fld where
  | sd | sa | sb | sc | md | md2 | imm | cond | ty | ret | vd | va | vb | vc | sp | td | ta | tb | tc | xr | scope | ord
deriving DecidableEq, Repr

/-- The code of a failing field (R80). -/
def Fld.code : Fld → Nat
  | .md => 3 | .md2 => 4 | .ty => 6
  | .vd => 7 | .va => 8 | .vb => 9 | .vc => 10
  | .sp => 11
  | .sd => 12 | .sa => 13 | .sb => 14 | .sc => 15
  | .td => 16 | .ta => 17 | .tb => 18 | .tc => 19
  | .xr => 20 | .scope => 21 | .ord => 22
  | .imm | .cond | .ret => 5

/-- Which trap a failing word raises. -/
inductive Bad where
  | illegal (code : Nat)
  | operand (code : Nat)
deriving DecidableEq, Repr

/-- What an instruction's entry makes of the fields of its format. -/
structure Use where
  used : List Fld := []             -- fields this form uses; MOD and MOD2 by their bits
  mods : Nat := 0                   -- MOD bits the entry defines
  mods2 : Nat := 0                  -- MOD2 bits the entry defines
  modCode : Nat := 3                -- 5 for NOP (R199)
  modIll : Bool := false            -- MOD holds a code the entry calls ILLEGAL
  dests : List Fld := []
  rmw : List Fld := []              -- destinations whose old value is read too
  pairs : List Fld := []
  quads : List Fld := []
  lits : List Fld := []             -- fields that may name the literal
  nums : List Fld := []             -- fields that hold a number (R235)
  types : Nat := 0                  -- TYPE codes the entry lists, as a mask
  scopes : Nat := 255
  ords : Nat := 15
  counts : List (Fld × Nat) := []   -- vector registers a field names, where not one
  reserved : List (Fld × Bool) := []  -- further reserved values: ILLEGAL, code 5
  wrong : List (Fld × Bool) := []   -- further forbidden values: OPERAND with the field's code
  combo : Bool := false             -- a forbidden combination: OPERAND, code 23

/-- Whether a bit of a mask is set. -/
def inMask (mask v : Nat) : Bool := mask.testBit v

/-- Whether a field is one of the 9-bit operand indices. -/
def Fld.isVec : Fld → Bool
  | .vd | .va | .vb | .vc => true
  | _ => false

/-- Whether a field is one of the 8-bit scalar fields. -/
def Fld.isScalar : Fld → Bool
  | .sd | .sa | .sb | .sc => true
  | _ => false

/-- R80 step 4 for one field: reserved and unused values (R78). -/
def badReserved (u : Use) (p : Fld × Nat) : Option Bad :=
  match p.1 with
  | .md => if p.2 &&& u.mods ≠ p.2 then some (.illegal u.modCode) else if u.modIll then some (.illegal 3) else none
  | .md2 => if p.2 &&& u.mods2 ≠ p.2 then some (.illegal 4) else none
  | .cond => if 6 < p.2 then some (.illegal 5) else none
  | f => if f ∉ u.used ∧ p.2 ≠ 0 then some (.illegal 5) else if (f, true) ∈ u.reserved then some (.illegal 5) else none

/-- Whether a field's value names the literal. -/
def namesLit (p : Fld × Nat) : Bool :=
  (p.1.isScalar && p.2 == 255) || (p.1.isVec && p.2 == 511)

/-- Whether a form reads a field: a used field that holds no plain number, and a destination only where its old value counts. -/
def Use.reads (u : Use) (f : Fld) : Bool :=
  decide (f ∈ u.used) && decide (f ∉ u.nums) && (decide (f ∉ u.dests) || decide (f ∈ u.rmw))

/-- R80 step 5: the literal rule (R61). A read field that names the literal and may not is for step 6. -/
def badLiteral (u : Use) (lit : Bool) (fs : List (Fld × Nat)) : Option Bad :=
  match fs.find? (fun p => u.reads p.1 && namesLit p) with
  | none => if lit then some (.illegal 0) else none
  | some p => if lit then none else some (.operand p.1.code)

/-- A scalar field's value (R60). -/
def badScalar (u : Use) (f : Fld) (v : Nat) : Bool :=
  if f ∈ u.nums then false
  else if 160 ≤ v ∧ v ≤ 254 then true
  else if v = 255 then decide (f ∈ u.dests) || decide (f ∉ u.lits)
  else if f ∈ u.quads then v % 4 != 0 || decide (148 < v)
  else if f ∈ u.pairs then v % 2 != 0
  else false

/-- The registers a 9-bit field names. -/
def Use.count (u : Use) (f : Fld) : Nat :=
  match u.counts.find? (fun p => p.1 == f) with
  | some p => p.2
  | none => 1

/-- An operand index's value (R71, R73). -/
def badVector (u : Use) (vregs : Nat) (f : Fld) (v : Nat) : Bool :=
  if v < 384 then v % u.count f != 0 || decide (vregs < v + u.count f)
  else if v = 448 then false
  else if f ∈ u.dests then true
  else if 477 ≤ v ∧ v ≤ 510 then true
  else v == 511 && decide (f ∉ u.lits)

/-- R80 step 6 for one field: operand values (R79). -/
def badOperand (u : Use) (vregs : Nat) (p : Fld × Nat) : Option Bad :=
  if p.1 ∉ u.used ∧ p.1 ≠ .md ∧ p.1 ≠ .md2 then none
  else if (p.1, true) ∈ u.wrong then some (.operand p.1.code)
  else
    let bad :=
      if p.1.isScalar then badScalar u p.1 p.2
      else if p.1.isVec then badVector u vregs p.1 p.2
      else match p.1 with
        | .ty => !inMask u.types p.2
        | .scope => !inMask u.scopes p.2
        | .ord => !inMask u.ords p.2
        | .sp => !(p.2 == 255 || (decide (p.2 ≤ 158) && p.2 % 2 == 0))
        | _ => false
    if bad then some (.operand p.1.code) else none

/-- The checks of R80 from step 4 on: the first failure. R80 orders the values of the format's fields and does not say where the
instruction-specific combination (code 23) stands among them: it comes after them all (DESIGN CHOICE, log 95). -/
def checkUse (u : Use) (vregs : Nat) (lit : Bool) (fs : List (Fld × Nat)) : Option Bad :=
  match fs.findSome? (badReserved u) with
  | some b => some b
  | none =>
    match badLiteral u lit fs with
    | some b => some b
    | none =>
      match fs.findSome? (badOperand u vregs) with
      | some b => some b
      | none => if u.combo then some (.operand 23) else none

/-! ## The fields of each format in table order -/

/-- R62. -/
def s2Fields (f : S2) : List (Fld × Nat) := [(.sd, f.sd.toNat), (.sa, f.sa.toNat), (.md, f.md.toNat)]
/-- R63. -/
def siFields (f : SI) : List (Fld × Nat) := [(.sd, f.sd.toNat), (.imm, f.imm.toNat)]
/-- R63 with the literal of SLI. -/
def silFields (f : SIL) : List (Fld × Nat) := [(.sd, f.sd.toNat), (.imm, f.imm.toNat)]
/-- R64. -/
def sbFields (f : SB) : List (Fld × Nat) := [(.cond, f.cond.toNat)]
/-- R67. -/
def sxFields (f : SX) : List (Fld × Nat) :=
  [(.sd, f.sd.toNat), (.md, f.md.toNat), (.sa, f.sa.toNat), (.sb, f.sb.toNat), (.sc, f.sc.toNat), (.md2, f.md2.toNat),
   (.imm, f.imm.toNat)]
/-- R68. -/
def vxFields (f : VX) : List (Fld × Nat) :=
  [(.ty, f.ty.toNat), (.ret, f.ret.toNat), (.md, f.md.toNat), (.vd, f.vd.toNat), (.va, f.va.toNat), (.vb, f.vb.toNat),
   (.md2, f.md2.toNat), (.vc, f.vc.toNat), (.sp, f.sp.toNat), (.imm, f.imm.toNat)]
/-- R69. -/
def txFields (f : TX) : List (Fld × Nat) :=
  [(.td, f.td.toNat), (.ta, f.ta.toNat), (.tb, f.tb.toNat), (.tc, f.tc.toNat), (.sa, f.sa.toNat), (.sb, f.sb.toNat),
   (.sc, f.sc.toNat), (.md, f.md.toNat), (.imm, f.imm.toNat)]
/-- R70. -/
def cxFields (f : CX) : List (Fld × Nat) :=
  [(.xr, f.xr.toNat), (.scope, f.scope.toNat), (.ord, f.ord.toNat), (.md, f.md.toNat), (.vd, f.vd.toNat),
   (.va, f.va.toNat), (.vb, f.vb.toNat), (.md2, f.md2.toNat), (.sa, f.sa.toNat), (.sb, f.sb.toNat), (.sc, f.sc.toNat),
   (.sd, f.sd.toNat)]
/-- R70. -/
def qxFields (f : QX) : List (Fld × Nat) :=
  [(.xr, f.xr.toNat), (.scope, f.scope.toNat), (.ord, f.ord.toNat), (.md, f.md.toNat), (.sa, f.sa.toNat),
   (.sb, f.sb.toNat), (.sc, f.sc.toNat), (.sd, f.sd.toNat), (.imm, f.imm.toNat)]

/-! ## TYPE codes (R75) -/

/-- I32, N32, I64, N64, I8, N8. -/
def intTypes : Nat := 0x30F
/-- F16, BF16, F32, F64. -/
def fltTypes : Nat := 0x0F0
/-- All twelve. -/
def allTypes : Nat := 0xFFF
/-- Whether a TYPE code is 64 bits wide: I64, N64, F64. -/
def wideType (t : Nat) : Bool := t == 2 || t == 3 || t == 7
/-- Whether a TYPE code is a floating-point type. -/
def floatType (t : Nat) : Bool := (decide (4 ≤ t) && decide (t ≤ 7)) || t == 10 || t == 11
/-- The registers an operand of a TYPE takes. -/
def regsOf (t : Nat) : Nat := if wideType t then 2 else 1

/-- Whether an operand index is uniform: a broadcast scalar, zero, an inline constant or the literal (R141). -/
def uniformIdx (v : Nat) : Bool := (decide (384 ≤ v) && decide (v ≤ 463)) || v == 511

/-- A field of a BitVec as a number. -/
abbrev bits {n : Nat} (b : BitVec n) (lo len : Nat) : Nat := (b.extractLsb' lo len).toNat

/-! ## What each instruction makes of its fields -/

/-- MAJ 0x02 (R187): whether .U is legal, and whether SD's old value is read. -/
def useArith (unsignedOk readsD : Bool) : Use :=
  { used := [.sd, .sa], mods := if unsignedOk then 3 else 2, dests := [.sd], rmw := if readsD then [.sd] else [], lits := [.sa] }

/-- A VX instruction whose operands `srcs` and VD are of TYPE (R144, R149). -/
def useVec (f : VX) (types : Nat) (srcs : List Fld) : Use :=
  { used := [.ty, .ret, .vd, .sp] ++ srcs, dests := [.vd], lits := srcs, types := types,
    counts := (Fld.vd :: srcs).map (fun x => (x, regsOf f.ty.toNat)) }

/-- The scope and ordering fields of a thread access in MOD2 of SX (R193, R229). -/
def wrongOrd2 (f : SX) (ords : Nat) : List (Fld × Bool) := [(.md2, !inMask ords (bits f.md2 3 2))]

/-- MAJ 0x1A (R158, R159, R162). -/
def useLane (f : VX) (uniform : Bool) (ords : Nat) (store : Bool) : Use :=
  { used := [.ty, .ret, .va, .sp, .imm] ++ (if store then [.vb] else [.vd]), mods := 0x1F, types := allTypes,
    dests := [.vd], lits := [.va, .vb],
    counts := [(.vd, regsOf f.ty.toNat), (.vb, regsOf f.ty.toNat)],
    wrong := [(.md, !inMask ords (bits f.md 3 2)), (.va, uniform && !uniformIdx f.va.toNat)] }

/-- The operations of VATOM (R162) legal under a TYPE. -/
def atomTypes (aop : Nat) : Nat :=
  if aop = 9 then 0x40 else if aop = 10 then 0x80 else if aop = 11 then 0x0A else 0x0F

/-- The fork fields shared by FORK and VFORK (R211). -/
def forkN (f : SX) : Nat := bits f.md 1 3

/-- A barrier instruction (R229, R231, R233). With .N the bits IMM32[31:4] are zero: R229 says no more, and a nonzero one is taken as a nonzero
value of an unused field, ILLEGAL with code 5 (DESIGN CHOICE, log 79). -/
def useBar (f : SX) (tok : Bool) : Use :=
  let n := f.md.getLsbD 0
  { used := [.imm] ++ (if n then [] else [.sa]) ++ (if tok then [.sb] else [.sd]), mods := 1, mods2 := 7,
    dests := [.sd], lits := [.sa, .sb], reserved := [(.imm, n && decide (15 < f.imm.toNat))],
    wrong := [(.md2, if n then !inMask 0x3C (bits f.md2 0 3) else bits f.md2 0 3 != 1)] }

/-- A TX instruction (R296). -/
def useTile (used : List Fld) : Use := { used := used, lits := [.sa, .sb, .sc] }

/-- A CX instruction: REC with SD, or SD unused (R251). -/
def useCX (f : CX) (used : List Fld) (mods : Nat) (ords : Nat) : Use :=
  { used := [.xr, .scope, .ord] ++ used ++ (if f.md2.getLsbD 0 then [.sd] else []), mods := mods, mods2 := 1, ords := ords,
    lits := [.sa, .sb, .sc, .sd, .va, .vb] }

/-- A QX instruction: REC with SD, or SD unused (R326). -/
def useQX (f : QX) (used : List Fld) (mods scopes ords : Nat) : Use :=
  { used := [.scope, .ord] ++ used ++ (if f.md.getLsbD 2 then [.sd] else []), mods := mods ||| 4, scopes := scopes,
    ords := ords, lits := [.sa, .sb, .sc, .sd] }

/-- FAT and FRED (R260): cell width and CAS fix the registers VB and VD name. -/
def useFar (f : CX) (fat : Bool) : Use :=
  let aop := bits f.md 0 4
  let d := f.md.getLsbD 4
  let k := if d then 2 else 1
  let kb := if aop = 8 then 2 * k else k
  { useCX f ([.va, .sb] ++ (if fat then [.vd] else []) ++ (if aop = 11 then [] else [.vb])
      ++ (if aop = 11 ∨ aop = 12 then [.sc] else [])) 0x3F 15 with
    modIll := decide (12 < aop), dests := [.vd], counts := [(.vd, k), (.vb, kb)],
    wrong := [(.vb, aop == 8 && decide (384 ≤ f.vb.toNat))],
    combo := (aop == 9 && d) || (aop == 10 && !d) }

/-- The use of each instruction's fields; `none` for what is no word of a compute core. PALGET and FPCGET take the MOD[0] that R203's header
leaves defined for all four and ignore it (DESIGN CHOICE, log 80). A nonzero reserved IMM15[14:4] of VSLICE is ILLEGAL with code 5 (DESIGN
CHOICE, log 79). -/
def useOf (vregs : Nat) : Instr → Option (Use × Bool × List (Fld × Nat))
  | .nop f => some ({ modCode := 5 }, f.lit.isSome, s2Fields f)
  | .endg f | .yield f | .ret f => some ({}, f.lit.isSome, s2Fields f)
  | .trap f => some ({ used := [.sa], lits := [.sa] }, f.lit.isSome, s2Fields f)
  | .rft f => some ({ mods := 1 }, f.lit.isSome, s2Fields f)
  | .clkr f => some ({ used := [.sd], dests := [.sd] }, f.lit.isSome, s2Fields f)
  | .idr f => some ({ used := [.sd], dests := [.sd], mods := 15, modIll := decide (6 < f.md.toNat) }, f.lit.isSome, s2Fields f)
  | .sysr f => some ({ used := [.sd, .sa], dests := [.sd], nums := [.sa], wrong := [(.sa, decide (13 < f.sa.toNat))] },
      f.lit.isSome, s2Fields f)
  | .sysw f => some ({ used := [.sd, .sa], nums := [.sd], lits := [.sa], wrong := [(.sd, decide (13 < f.sd.toNat))] },
      f.lit.isSome, s2Fields f)
  | .fence f => some ({ used := [.sa], mods := 3, nums := [.sa], wrong := [(.sa, decide (7 < f.sa.toNat))] },
      f.lit.isSome, s2Fields f)
  | .jmp f => some ({ used := [.sa], mods := 1, lits := [.sa] }, f.lit.isSome, s2Fields f)
  | .wait _ => some ({}, false, [])
  | .sadd f | .ssub f | .smul f | .sand f | .sor f | .sxor f | .sandn f | .sshl f | .sshr f | .ssra f =>
    some (useArith false true, f.lit.isSome, s2Fields f)
  | .smov f | .spopc f | .sclz f => some (useArith false false, f.lit.isSome, s2Fields f)
  | .smulh f | .smin f | .smax f => some (useArith true true, f.lit.isSome, s2Fields f)
  | .saddi f | .sli f => some ({ used := [.sd, .imm], dests := [.sd] }, false, siFields f)
  | .sliLit f => some ({ used := [.sd, .imm], dests := [.sd], reserved := [(.imm, f.imm != 0)] }, false, silFields f)
  | .brc f | .call f => some ({}, false, sbFields f)
  | .scmp f => some ({ used := [.sa, .sb], mods := 15, modIll := decide (5 < bits f.md 0 3), lits := [.sa, .sb] },
      f.lit.isSome, sxFields f)
  | .ssel f => some ({ used := [.sd, .sa, .sb], dests := [.sd], lits := [.sa, .sb] }, f.lit.isSome, sxFields f)
  | .sbfx f => some (
      { used := [.sd, .sa] ++ (if f.md.getLsbD 1 then [.sb] else [.imm]), mods := 3, dests := [.sd], lits := [.sa, .sb],
        combo := !f.md.getLsbD 1 && bits f.imm 16 16 != 0 }, f.lit.isSome, sxFields f)
  | .sbfi f => some (
      { used := [.sd, .sa] ++ (if f.md.getLsbD 1 then [.sb] else [.imm]), mods := 2, dests := [.sd], rmw := [.sd], lits := [.sa, .sb],
        combo := !f.md.getLsbD 1 && bits f.imm 16 16 != 0 }, f.lit.isSome, sxFields f)
  | .sld f => some ({ used := [.sd, .sa, .imm], mods := 7, mods2 := 31, dests := [.sd], lits := [.sa],
                      wrong := wrongOrd2 f 3 }, f.lit.isSome, sxFields f)
  | .sst f => some ({ used := [.sa, .sb, .imm], mods := 3, mods2 := 31, lits := [.sa, .sb],
                      wrong := wrongOrd2 f 5 }, f.lit.isSome, sxFields f)
  | .slda f =>
    let aop := bits f.md 4 4
    let w := bits f.md 0 2
    some ({ used := [.sd, .sa, .imm] ++ (if aop = 11 then [] else [.sb]) ++ (if aop = 8 ∨ aop = 11 ∨ aop = 12 then [.sc] else []),
            mods := 0xF7, modIll := decide (12 < aop), mods2 := 31, dests := [.sd], lits := [.sa, .sb, .sc],
            wrong := [(.md, decide (w < 2))], combo := (aop == 9 && w != 2) || (aop == 10 && w != 3) },
          f.lit.isSome, sxFields f)
  | .msplit f => some ({ used := [.sd, .sa], dests := [.sd], pairs := [.sd, .sa], wrong := [(.sd, f.sd == 158)] },
      f.lit.isSome, sxFields f)
  | .mopen f => some ({ used := [.sd, .imm], dests := [.sd], quads := [.sd], combo := f.imm == 0 || decide (255 < f.imm.toNat) },
      f.lit.isSome, sxFields f)
  | .marrive f | .mjoin f => some ({ used := [.sd], dests := [.sd], rmw := [.sd], quads := [.sd] }, f.lit.isSome, sxFields f)
  | .mmov f => some ({ used := [.sd, .sa], mods := 3, dests := [.sd], rmw := if bits f.md 0 2 = 0 then [] else [.sd], pairs := [.sd, .sa] }, f.lit.isSome, sxFields f)
  | .mpopc f => some ({ used := [.sd, .sa], dests := [.sd], pairs := [.sa] }, f.lit.isSome, sxFields f)
  | .palset f | .fpcset f => some ({ used := [.sa] ++ (if f.md.getLsbD 0 then [.sb] else []), mods := 1, lits := [.sa, .sb] },
      f.lit.isSome, sxFields f)
  | .palget f | .fpcget f => some ({ used := [.sd], mods := 1, dests := [.sd] }, f.lit.isSome, sxFields f)
  | .fork f =>
    some ({ used := [.sb, .imm] ++ (if forkN f = 0 then [] else [.sa]), mods := 15, lits := [.sb],
            wrong := [(.md, forkN f == 7), (.sa, decide (160 < f.sa.toNat + forkN f))] }, f.lit.isSome, sxFields f)
  | .vfork f =>
    some ({ used := [.sd, .sb, .imm], mods := 15, mods2 := 255, dests := [.sd], lits := [.sb],
            wrong := [(.md, forkN f == 7),
                      (.md2, (forkN f == 0 && f.md2 != 0) || decide (vregs < 2 * f.md2.toNat + 2 * forkN f))] }, f.lit.isSome, sxFields f)
  | .join f => some ({ used := (if f.md.getLsbD 0 then [] else [.sd]), mods := 1, dests := [.sd],
                       wrong := [(.sd, decide (149 < f.sd.toNat))] }, f.lit.isSome, sxFields f)
  | .taskend f => some ({ used := (if f.md.getLsbD 0 then [.sa] else []), mods := 1, lits := [.sa] }, f.lit.isSome, sxFields f)
  | .launch f => some ({ used := [.sd, .sa, .sb], dests := [.sd], lits := [.sa, .sb] }, f.lit.isSome, sxFields f)
  | .waitw f => some ({ used := [.sd, .sa, .sb, .imm], mods := 31, modIll := decide (3 < bits f.md 0 3), mods2 := 31,
                        dests := [.sd], lits := [.sa, .sb], wrong := wrongOrd2 f 3 }, f.lit.isSome, sxFields f)
  | .bara f | .baraw f => some (useBar f false, f.lit.isSome, sxFields f)
  | .barw f => some (useBar f true, f.lit.isSome, sxFields f)
  | .vadd f | .vsub f | .vmul f | .vmulh f | .vmin f | .vmax f | .vand f | .vor f | .vxor f | .vandn f | .vshl f
  | .vshr f | .vsra f | .vbfx f => some (useVec f intTypes [.va, .vb], f.lit.isSome, vxFields f)
  | .vmad f | .vbfi f => some (useVec f intTypes [.va, .vb, .vc], f.lit.isSome, vxFields f)
  | .vabs f => some (useVec f 0x105 [.va], f.lit.isSome, vxFields f)
  | .vpopc f | .vclz f => some (useVec f intTypes [.va], f.lit.isSome, vxFields f)
  | .vcmp f => some (
      { useVec f intTypes [.va, .vb] with used := [.ty, .ret, .va, .vb, .sp], mods := 7, modIll := decide (5 < bits f.md 0 3) },
      f.lit.isSome, vxFields f)
  | .vsel f => some (useVec f allTypes [.va, .vb], f.lit.isSome, vxFields f)
  | .vmov f => some (useVec f allTypes [.va], f.lit.isSome, vxFields f)
  | .vlane f =>
    let u := useVec f allTypes ([.va, .vb] ++ (if f.md.getLsbD 0 then [.vc] else []))
    some ({ u with mods := 1, counts := (.vb, 1) :: u.counts, wrong := [(.vb, !uniformIdx f.vb.toNat)] }, f.lit.isSome, vxFields f)
  | .vins f =>
    let u := useVec f allTypes [.va, .vb]
    some ({ u with counts := (.vb, 1) :: u.counts, wrong := [(.vb, !uniformIdx f.vb.toNat)] }, f.lit.isSome, vxFields f)
  | .vfadd f | .vfsub f | .vfmul f | .vfdiv f | .vfmin f | .vfmax f => some (useVec f fltTypes [.va, .vb], f.lit.isSome, vxFields f)
  | .vfma f => some (useVec f fltTypes [.va, .vb, .vc], f.lit.isSome, vxFields f)
  | .vfsqrt f | .vfrcpa f | .vfrsqa f => some (useVec f fltTypes [.va], f.lit.isSome, vxFields f)
  | .vfcmp f => some (
      { useVec f fltTypes [.va, .vb] with used := [.ty, .ret, .va, .vb, .sp], mods := 15, modIll := decide (11 < f.md.toNat) },
      f.lit.isSome, vxFields f)
  | .vfclass f =>
    let u := useVec f 0xCF0 [.va]
    some ({ u with counts := (.vd, 1) :: u.counts }, f.lit.isSome, vxFields f)
  | .vfrnd f => some ({ useVec f fltTypes [.va] with mods := 0x78, modIll := decide (4 < bits f.md 4 3) }, f.lit.isSome, vxFields f)
  | .vfcvt f =>
    let u := useVec f allTypes [.va]
    some ({ u with mods := 0x7F, modIll := decide (4 < bits f.md 4 3), counts := (.va, regsOf (bits f.md 0 4)) :: u.counts,
                   wrong := [(.md, decide (11 < bits f.md 0 4))] }, f.lit.isSome, vxFields f)
  | .vshuf f =>
    let u := useVec f allTypes [.va, .vb]
    some ({ u with mods := 1, counts := (.vb, 1) :: u.counts }, f.lit.isSome, vxFields f)
  | .vbcast f =>
    let u := useVec f allTypes [.va, .vb]
    some ({ u with counts := (.vb, 1) :: u.counts, wrong := [(.vb, !uniformIdx f.vb.toNat)] }, f.lit.isSome, vxFields f)
  | .vred f => some (
      { useVec f (intTypes ||| fltTypes) [.va] with
        mods := 7, modIll := decide (5 < bits f.md 0 3),
        wrong := [(.md, floatType f.ty.toNat && decide (2 < bits f.md 0 3))] }, f.lit.isSome, vxFields f)
  | .vscan f => some (
      { useVec f (intTypes ||| fltTypes) [.va] with
        mods := 15, modIll := decide (5 < bits f.md 0 3),
        wrong := [(.md, floatType f.ty.toNat && decide (2 < bits f.md 0 3))] }, f.lit.isSome, vxFields f)
  | .vld f => some (useLane f true 3 false, f.lit.isSome, vxFields f)
  | .vst f => some (useLane f true 5 true, f.lit.isSome, vxFields f)
  | .vldx f => some (useLane f false 3 false, f.lit.isSome, vxFields f)
  | .vstx f => some (useLane f false 5 true, f.lit.isSome, vxFields f)
  | .vatom f =>
    let aop := bits f.md 5 4
    let k := regsOf f.ty.toNat
    some ({ used := [.ty, .ret, .vd, .va, .sp, .imm] ++ (if aop = 11 then [] else [.vb])
              ++ (if aop = 8 ∨ aop = 11 ∨ aop = 12 then [.vc] else []),
            mods := 0x1FF, modIll := decide (12 < aop), types := atomTypes aop, dests := [.vd], lits := [.va, .vb, .vc],
            counts := [(.vd, k), (.vb, k), (.vc, k)] }, f.lit.isSome, vxFields f)
  | .vslice f => some (
      { used := [.ty, .ret, .vd, .va, .vb, .sp, .imm], types := 0x80, dests := [.vd], lits := [.va, .vb], counts := [(.va, 2)],
        reserved := [(.imm, bits f.imm 4 11 != 0)], combo := bits f.imm 0 4 == 0 || decide (8 < bits f.imm 0 4) },
      f.lit.isSome, vxFields f)
  | .vrand f => some (
      { used := [.ty, .ret, .vd, .va, .vb, .sp], types := 2, dests := [.vd], lits := [.va, .vb], counts := [(.vd, 4), (.va, 4)],
        wrong := [(.vd, decide (384 ≤ f.vd.toNat)), (.va, decide (384 ≤ f.va.toNat)), (.vb, !uniformIdx f.vb.toNat)] },
      f.lit.isSome, vxFields f)
  | .tcfg f => some (useTile [.td, .sa], f.lit.isSome, txFields f)
  | .tzero f => some (useTile [.td], f.lit.isSome, txFields f)
  | .tmov f => some (useTile [.td, .ta], f.lit.isSome, txFields f)
  | .tflgGet f => some ({ used := [.sa], mods := 3, modIll := f.md != 0, dests := [.sa] }, f.lit.isSome, txFields f)
  | .tflgSet f => some ({ used := [.sa, .sb], mods := 3, modIll := f.md != 1, lits := [.sa, .sb] }, f.lit.isSome, txFields f)
  | .tld f => some (useTile [.td, .sa, .sb, .imm], f.lit.isSome, txFields f)
  | .tldw f => some (useTile [.td, .sa, .sb, .sc, .imm], f.lit.isSome, txFields f)
  | .tst f => some (useTile [.ta, .sa, .sb, .imm], f.lit.isSome, txFields f)
  | .tmma f => some ({ useTile [.td, .ta, .tb] with mods := 1 }, f.lit.isSome, txFields f)
  | .tcomb f => some (useTile [.td, .ta, .imm], f.lit.isSome, txFields f)
  | .tcvt f => some (useTile [.ta, .sa, .sb, .sc, .imm], f.lit.isSome, txFields f)
  | .tadd f => some (useTile [.td, .ta, .tb], f.lit.isSome, txFields f)
  | .xset f => some ({ used := [.xr, .scope, .ord, .sa, .sb, .sd], dests := [.sd], lits := [.sa, .sb], scopes := 1, ords := 1 },
      f.lit.isSome, cxFields f)
  | .xinv f => some ({ used := [.xr, .scope, .ord], scopes := 1, ords := 1 }, f.lit.isSome, cxFields f)
  | .grun f => some (useCX f [.sa, .sb, .sc] 0 1, f.lit.isSome, cxFields f)
  | .gsig f => some (useCX f [.sa, .sb] 0 5, f.lit.isSome, cxFields f)
  | .cfence f => some ({ used := [.scope] }, f.lit.isSome, cxFields f)
  | .cpy f =>
    let u := useCX f ([.sa, .sb, .sc] ++ (if f.md.getLsbD 2 then [.va] else [])) 7 15
    some ({ u with used := if bits f.md 0 2 = 2 then u.used.erase .xr else u.used, modIll := bits f.md 0 2 == 3,
                   wrong := [(.va, !uniformIdx f.va.toNat)] }, f.lit.isSome, cxFields f)
  | .cpyx f =>
    let u := useCX f [.va, .sa, .sb] 0x1F 15
    some ({ u with used := if bits f.md 0 2 = 2 then u.used.erase .xr else u.used, modIll := bits f.md 0 2 == 3 },
      f.lit.isSome, cxFields f)
  | .cpyf f =>
    let u := useCX f [.sa, .sb, .sc] 1 5
    some ({ u with used := if f.md.getLsbD 0 then u.used else u.used.erase .xr }, f.lit.isSome, cxFields f)
  | .fat f => some (useFar f true, f.lit.isSome, cxFields f)
  | .fred f => some (useFar f false, f.lit.isSome, cxFields f)
  | .skget f => some (useCX f [.va, .sa, .sb] 0 3, f.lit.isSome, cxFields f)
  | .skput f =>
    some ({ useCX f [.va, .vb, .sb] 1 5 with
            counts := [(.vb, if f.md.getLsbD 0 then 2 else 4)], wrong := [(.vb, decide (384 ≤ f.vb.toNat))] },
          f.lit.isSome, cxFields f)
  | .skrec f =>
    let op := bits f.md 0 4
    some ({ useCX f [.va, .sb] 0x1F 15 with
            modIll := decide (7 < op), combo := f.md.getLsbD 4 && op != 1 && op != 2 }, f.lit.isSome, cxFields f)
  | .rst f => some ({ useQX f [.sa, .sb, .sc, .imm] 3 0xC0 5 with combo := decide (511 < f.imm.toNat) }, f.lit.isSome, qxFields f)
  | .rsig f => some (useQX f [.sa, .sb, .sc] 3 0xC0 5, f.lit.isSome, qxFields f)
  | .rwait f => some ({ used := [.xr, .scope, .ord, .sa, .sb, .sd, .imm], dests := [.sd], lits := [.sa, .sb], ords := 3 },
      f.lit.isSome, qxFields f)
  | .crun f =>
    let u := useQX f [.sa, .sb, .sc] 0 0xC0 1
    some ({ u with used := .xr :: u.used }, f.lit.isSome, qxFields f)
  | .cbar f => some (
      { useQX f ([.imm] ++ (if f.scope = 5 then [] else [.sb, .sc])) 0 0x60 1 with combo := decide (15 < f.imm.toNat) },
      f.lit.isSome, qxFields f)
  | .ptime f => some ({ used := [.scope, .ord, .sd], dests := [.sd], scopes := 1, ords := 1 }, f.lit.isSome, qxFields f)
  | _ => none

/-- The first check of R80 that a word's instruction fails under `vregs` declared registers. -/
def check (vregs : Nat) (i : Instr) : Option Bad :=
  match useOf vregs i with
  | some (u, lit, fs) => checkUse u vregs lit fs
  | none => none

end Sys2Proof.Machine
end

