-- ==== Sys2Proof/WellFormed.lean ====
section
/-! DEFINITION. Well-formed instructions: the words that pass every check of R80 under a group's declared register count. -/

namespace Sys2Proof

/-- Whether a constructor is an instruction word of a compute core. -/
def Instr.isWord (i : Instr) : Bool := (Machine.useOf 384 i).isSome

/-- A word that passes every check of R80 under `vregs` declared registers. -/
def Instr.wellFormed (vregs : Nat) (i : Instr) : Bool := i.isWord && decide (Machine.check vregs i = none)

end Sys2Proof
end

