-- ==== Sys2Proof/Decode.lean ====
section
/-! DEFINITION. Decoding and encoding: the formats' words (R56-R70), the opcode map (R76), the check order of R80, SUBMIT
(R77), and the encoder, written from the same tables. -/

namespace Sys2Proof

/-- Why a word is no instruction: ILLEGAL or OPERAND with its TVAL (R80), or words are missing. -/
inductive Reject where
  | illegal (tval : DWord)
  | operand (tval : DWord)
  | short
deriving DecidableEq, Repr

/-- TVAL of a decoding trap: word 0 and the code of the failing field (R80). -/
def decodeTval (w0 : Word) (code : Nat) : DWord := (BitVec.ofNat 32 code) ++ w0

/-- A failing check as a rejection. -/
def rejectBad (w0 : Word) : Machine.Bad → Reject
  | .illegal c => .illegal (decodeTval w0 c)
  | .operand c => .operand (decodeTval w0 c)

/-- The literal, low word first (R56). -/
def literalOf (lo hi : Word) : DWord := hi ++ lo

/-- Instruction words by LEN (R56). -/
def lenWords (w0 : Word) : Nat :=
  if w0.extractLsb' 30 2 = 0 then 1 else if w0.extractLsb' 30 2 = 3 then 5 else 3

/-! ## The fields of each format -/

/-- R62. -/
def parseS2 (w0 : Word) (lit : Lit) : S2 :=
  { sd := w0.extractLsb' 12 8, sa := w0.extractLsb' 4 8, md := w0.extractLsb' 0 4, lit := lit }
/-- R63. -/
def parseSI (w0 : Word) : SI := { sd := w0.extractLsb' 16 8, imm := w0.extractLsb' 0 16 }
/-- R63. -/
def parseSIL (w0 : Word) (lit : DWord) : SIL := { sd := w0.extractLsb' 16 8, imm := w0.extractLsb' 0 16, lit := lit }
/-- R64. -/
def parseSB (w0 : Word) : SB := { cond := w0.extractLsb' 20 4, off := w0.extractLsb' 0 20 }
/-- R66. -/
def parseWF (w0 : Word) : WF :=
  { ld := w0.extractLsb' 18 6, st := w0.extractLsb' 12 6, tile := w0.extractLsb' 6 6, coll := w0.extractLsb' 0 6 }
/-- R67. -/
def parseSX (w0 w1 w2 : Word) (lit : Lit) : SX :=
  { sd := w0.extractLsb' 8 8, md := w0.extractLsb' 0 8, sa := w1.extractLsb' 24 8, sb := w1.extractLsb' 16 8,
    sc := w1.extractLsb' 8 8, md2 := w1.extractLsb' 0 8, imm := w2, lit := lit }
/-- R68. -/
def parseVX (w0 w1 w2 : Word) (lit : Lit) : VX :=
  { ty := w0.extractLsb' 12 4, ret := w0.extractLsb' 10 2, md := w0.extractLsb' 0 10, vd := w1.extractLsb' 23 9,
    va := w1.extractLsb' 14 9, vb := w1.extractLsb' 5 9, md2 := w1.extractLsb' 0 5, vc := w2.extractLsb' 23 9,
    sp := w2.extractLsb' 15 8, imm := w2.extractLsb' 0 15, lit := lit }
/-- R69. -/
def parseTX (w0 w1 w2 : Word) (lit : Lit) : TX :=
  { td := w0.extractLsb' 12 4, ta := w0.extractLsb' 8 4, tb := w0.extractLsb' 4 4, tc := w0.extractLsb' 0 4,
    sa := w1.extractLsb' 24 8, sb := w1.extractLsb' 16 8, sc := w1.extractLsb' 8 8, md := w1.extractLsb' 0 8, imm := w2,
    lit := lit }
/-- R70. -/
def parseCX (w0 w1 w2 : Word) (lit : Lit) : CX :=
  { xr := w0.extractLsb' 13 3, scope := w0.extractLsb' 10 3, ord := w0.extractLsb' 8 2, md := w0.extractLsb' 0 8,
    vd := w1.extractLsb' 23 9, va := w1.extractLsb' 14 9, vb := w1.extractLsb' 5 9, md2 := w1.extractLsb' 0 5,
    sa := w2.extractLsb' 24 8, sb := w2.extractLsb' 16 8, sc := w2.extractLsb' 8 8, sd := w2.extractLsb' 0 8, lit := lit }
/-- R70. -/
def parseQX (w0 w1 w2 : Word) (lit : Lit) : QX :=
  { xr := w0.extractLsb' 13 3, scope := w0.extractLsb' 10 3, ord := w0.extractLsb' 8 2, md := w0.extractLsb' 0 8,
    sa := w1.extractLsb' 24 8, sb := w1.extractLsb' 16 8, sc := w1.extractLsb' 8 8, sd := w1.extractLsb' 0 8, imm := w2,
    lit := lit }

/-! ## The opcode map (R76) -/

/-- TFLG: .GET is op 0; every other op is checked as .SET is (R296). -/
def tflgOf (f : TX) : Instr := if f.md.extractLsb' 0 2 = 0 then .tflgGet f else .tflgSet f

/-- MAJ 0x00: FN in the order of R76. -/
def ops00 : List (S2 → Instr) :=
  [.nop, .endg, .trap, .rft, .yield, .clkr, .idr, .sysr, .sysw, .fence, .ret, .jmp]
/-- MAJ 0x02: FN in the order of R76. -/
def ops02 : List (S2 → Instr) :=
  [.sadd, .ssub, .smul, .smulh, .sand, .sor, .sxor, .sandn, .sshl, .sshr, .ssra, .smin, .smax, .smov, .spopc, .sclz]
/-- MAJ 0x07. -/
def ops07 : List (SX → Instr) :=
  [.scmp, .ssel, .sbfx, .sbfi]
/-- MAJ 0x08. -/
def ops08 : List (SX → Instr) :=
  [.sld, .sst, .slda]
/-- MAJ 0x09. -/
def ops09 : List (SX → Instr) :=
  [.msplit, .mopen, .marrive, .mjoin, .mmov, .mpopc]
/-- MAJ 0x0A. -/
def ops0A : List (SX → Instr) :=
  [.palset, .palget, .fpcset, .fpcget]
/-- MAJ 0x0B. -/
def ops0B : List (SX → Instr) :=
  [.fork, .vfork, .join, .taskend, .launch]
/-- MAJ 0x0C. -/
def ops0C : List (SX → Instr) :=
  [.waitw, .bara, .barw, .baraw]
/-- MAJ 0x14. -/
def ops14 : List (VX → Instr) :=
  [.vadd, .vsub, .vmul, .vmulh, .vmad, .vabs, .vmin, .vmax]
/-- MAJ 0x15. -/
def ops15 : List (VX → Instr) :=
  [.vand, .vor, .vxor, .vandn, .vshl, .vshr, .vsra, .vpopc, .vclz, .vbfx, .vbfi]
/-- MAJ 0x16. -/
def ops16 : List (VX → Instr) :=
  [.vcmp, .vsel, .vmov, .vlane, .vins]
/-- MAJ 0x17. -/
def ops17 : List (VX → Instr) :=
  [.vfadd, .vfsub, .vfmul, .vfma, .vfdiv, .vfsqrt, .vfmin, .vfmax, .vfrcpa, .vfrsqa]
/-- MAJ 0x18. -/
def ops18 : List (VX → Instr) :=
  [.vfcmp, .vfclass, .vfrnd, .vfcvt]
/-- MAJ 0x19. -/
def ops19 : List (VX → Instr) :=
  [.vshuf, .vbcast, .vred, .vscan]
/-- MAJ 0x1A. -/
def ops1A : List (VX → Instr) :=
  [.vld, .vst, .vldx, .vstx, .vatom]
/-- MAJ 0x1B. -/
def ops1B : List (VX → Instr) :=
  [.vslice, .vrand]
/-- MAJ 0x28. -/
def ops28 : List (TX → Instr) :=
  [.tcfg, .tzero, .tmov, tflgOf]
/-- MAJ 0x29. -/
def ops29 : List (TX → Instr) :=
  [.tld, .tldw, .tst]
/-- MAJ 0x2A. -/
def ops2A : List (TX → Instr) :=
  [.tmma, .tcomb, .tcvt, .tadd]
/-- MAJ 0x2E. -/
def ops2E : List (CX → Instr) :=
  [.xset, .xinv, .grun, .gsig, .cfence]
/-- MAJ 0x2F. -/
def ops2F : List (CX → Instr) :=
  [.cpy, .cpyx, .cpyf]
/-- MAJ 0x30. -/
def ops30 : List (CX → Instr) :=
  [.fat, .fred]
/-- MAJ 0x31. -/
def ops31 : List (CX → Instr) :=
  [.skget, .skput, .skrec]
/-- MAJ 0x36. -/
def ops36 : List (QX → Instr) :=
  [.rst, .rsig, .rwait, .crun, .cbar, .ptime]

/-- The functions of a S2 major. -/
def s2Ops (maj : BitVec 6) : Option (List (S2 → Instr)) :=
  if maj = 0x00 then some ops00
  else if maj = 0x02 then some ops02
  else none

/-- The functions of a SX major. -/
def sxOps (maj : BitVec 6) : Option (List (SX → Instr)) :=
  if maj = 0x07 then some ops07
  else if maj = 0x08 then some ops08
  else if maj = 0x09 then some ops09
  else if maj = 0x0A then some ops0A
  else if maj = 0x0B then some ops0B
  else if maj = 0x0C then some ops0C
  else none

/-- The functions of a VX major. -/
def vxOps (maj : BitVec 6) : Option (List (VX → Instr)) :=
  if maj = 0x14 then some ops14
  else if maj = 0x15 then some ops15
  else if maj = 0x16 then some ops16
  else if maj = 0x17 then some ops17
  else if maj = 0x18 then some ops18
  else if maj = 0x19 then some ops19
  else if maj = 0x1A then some ops1A
  else if maj = 0x1B then some ops1B
  else none

/-- The functions of a TX major. -/
def txOps (maj : BitVec 6) : Option (List (TX → Instr)) :=
  if maj = 0x28 then some ops28
  else if maj = 0x29 then some ops29
  else if maj = 0x2A then some ops2A
  else none

/-- The functions of a CX major. -/
def cxOps (maj : BitVec 6) : Option (List (CX → Instr)) :=
  if maj = 0x2E then some ops2E
  else if maj = 0x2F then some ops2F
  else if maj = 0x30 then some ops30
  else if maj = 0x31 then some ops31
  else none

/-- The functions of a QX major. -/
def qxOps (maj : BitVec 6) : Option (List (QX → Instr)) :=
  if maj = 0x36 then some ops36
  else none

/-! ## Decoding -/

/-- R80 from step 4 on. -/
def accept (vregs : Nat) (w0 : Word) (i : Instr) : Except Reject Instr :=
  match Machine.check vregs i with
  | none => .ok i
  | some b => .error (rejectBad w0 b)

/-- A word of the S2 format: FN, LEN, literal, checks. -/
def decodeS2 (vregs : Nat) (w0 : Word) (rest : List Word) (ops : List (S2 → Instr)) : Except Reject Instr :=
  match ops[(w0.extractLsb' 20 4).toNat]? with
  | none => .error (.illegal (decodeTval w0 2))
  | some c =>
    if w0.extractLsb' 30 2 = 0 then accept vregs w0 (c (parseS2 w0 none))
    else if w0.extractLsb' 30 2 = 2 then
      match rest with
      | l :: h :: _ => accept vregs w0 (c (parseS2 w0 (some (literalOf l h))))
      | _ => .error .short
    else .error (.illegal (decodeTval w0 0))

/-- A word of a 96-bit format: FN, LEN, further words, literal, checks. -/
def decodeWide {F : Type} (vregs : Nat) (w0 : Word) (rest : List Word) (ops : List (F → Instr))
    (parse : Word → Word → Word → Lit → F) : Except Reject Instr :=
  match ops[(w0.extractLsb' 16 8).toNat]? with
  | none => .error (.illegal (decodeTval w0 2))
  | some c =>
    if w0.extractLsb' 30 2 = 1 then
      match rest with
      | w1 :: w2 :: _ => accept vregs w0 (c (parse w0 w1 w2 none))
      | _ => .error .short
    else if w0.extractLsb' 30 2 = 3 then
      match rest with
      | w1 :: w2 :: l :: h :: _ => accept vregs w0 (c (parse w0 w1 w2 (some (literalOf l h))))
      | _ => .error .short
    else .error (.illegal (decodeTval w0 0))

/-- A word of the formats SI, SB and W, whose majors have no FN. -/
def decodeNarrow (vregs : Nat) (w0 : Word) (rest : List Word) : Except Reject Instr :=
  let maj := w0.extractLsb' 24 6
  let len := w0.extractLsb' 30 2
  if len = 0 then
    if maj = 0x01 then accept vregs w0 (.wait (parseWF w0))
    else if maj = 0x03 then accept vregs w0 (.saddi (parseSI w0))
    else if maj = 0x04 then accept vregs w0 (.sli (parseSI w0))
    else if maj = 0x05 then accept vregs w0 (.brc (parseSB w0))
    else if maj = 0x06 then accept vregs w0 (.call (parseSB w0))
    else .error (.illegal (decodeTval w0 1))
  else if len = 2 ∧ maj = 0x04 then
    match rest with
    | l :: h :: _ => accept vregs w0 (.sliLit (parseSIL w0 (literalOf l h)))
    | _ => .error .short
  else .error (.illegal (decodeTval w0 0))

/-- The instruction at the start of a run of words, under `vregs` declared registers (R56-R81). -/
def decode (vregs : Nat) (ws : List Word) : Except Reject Instr :=
  match ws with
  | [] => .error .short
  | w0 :: rest =>
    let maj := w0.extractLsb' 24 6
    if 0x01 ≤ maj ∧ maj ≤ 0x06 ∧ maj ≠ 0x02 then decodeNarrow vregs w0 rest
    else match s2Ops maj with
    | some ops => decodeS2 vregs w0 rest ops
    | none => match sxOps maj with
    | some ops => decodeWide vregs w0 rest ops parseSX
    | none => match vxOps maj with
    | some ops => decodeWide vregs w0 rest ops parseVX
    | none => match txOps maj with
    | some ops => decodeWide vregs w0 rest ops parseTX
    | none => match cxOps maj with
    | some ops => decodeWide vregs w0 rest ops parseCX
    | none => match qxOps maj with
    | some ops => decodeWide vregs w0 rest ops parseQX
    | none => .error (.illegal (decodeTval w0 1))

/-- Words from bytes, little-endian (R1). -/
def wordsOfBytes : List Byte → List Word
  | b0 :: b1 :: b2 :: b3 :: t => (b3 ++ b2 ++ b1 ++ b0 : BitVec 32) :: wordsOfBytes t
  | _ => []

/-- Decoding of bytes as memory holds them. -/
def decodeBytes (vregs : Nat) (bs : List Byte) : Except Reject Instr := decode vregs (wordsOfBytes bs)

/-- SUBMIT on a Staith core (R77): its fields, or nothing when the word is another custom-0 or no custom-0 word. -/
def decodeSubmit (w : Word) : Option RT :=
  if w.extractLsb' 0 7 = 0x0B ∧ w.extractLsb' 12 3 = 0 ∧ w.extractLsb' 25 7 = 0 then
    some { rd := w.extractLsb' 7 5, rs1 := w.extractLsb' 15 5, rs2 := w.extractLsb' 20 5 }
  else none

/-- The words of an instruction of the opcode table: bit 0 of `w` is the least significant bit of the first word. -/
def tableWords (nbits w : Nat) : List Word :=
  let v := w % 2 ^ nbits
  [BitVec.ofNat 32 v, BitVec.ofNat 32 (v / 2 ^ 32), BitVec.ofNat 32 (v / 2 ^ 64), BitVec.ofNat 32 (v / 2 ^ 96),
   BitVec.ofNat 32 (v / 2 ^ 128)]

/-- The instruction the decoder reads from a word of the opcode table: a compute core's, or else SUBMIT. -/
def decodeTableWord (nbits w : Nat) : Option Instr :=
  match decode 384 (tableWords nbits w) with
  | .ok i => some i
  | .error _ => (decodeSubmit (BitVec.ofNat 32 (w % 2 ^ nbits))).map Instr.submit

/-! ## Encoding -/

/-- The words of a literal. -/
def encLit : Lit → List Word
  | none => []
  | some v => [v.extractLsb' 0 32, v.extractLsb' 32 32]

/-- LEN of a 32-bit format. -/
def len0 (lit : Lit) : BitVec 2 := if lit.isSome then 2 else 0
/-- LEN of a 96-bit format. -/
def len1 (lit : Lit) : BitVec 2 := if lit.isSome then 3 else 1

/-- R62. -/
def encS2 (maj : BitVec 6) (fn : BitVec 4) (f : S2) : List Word :=
  (len0 f.lit ++ maj ++ fn ++ f.sd ++ f.sa ++ f.md : BitVec 32) :: encLit f.lit
/-- R63. -/
def encSI (maj : BitVec 6) (f : SI) : List Word := [((0 : BitVec 2) ++ maj ++ f.sd ++ f.imm : BitVec 32)]
/-- R63, R189. -/
def encSIL (maj : BitVec 6) (f : SIL) : List Word :=
  ((2 : BitVec 2) ++ maj ++ f.sd ++ f.imm : BitVec 32) :: encLit (some f.lit)
/-- R64. -/
def encSB (maj : BitVec 6) (f : SB) : List Word := [((0 : BitVec 2) ++ maj ++ f.cond ++ f.off : BitVec 32)]
/-- R66. -/
def encWF (maj : BitVec 6) (f : WF) : List Word :=
  [((0 : BitVec 2) ++ maj ++ f.ld ++ f.st ++ f.tile ++ f.coll : BitVec 32)]
/-- R67. -/
def encSX (maj : BitVec 6) (fn : BitVec 8) (f : SX) : List Word :=
  (len1 f.lit ++ maj ++ fn ++ f.sd ++ f.md : BitVec 32) :: (f.sa ++ f.sb ++ f.sc ++ f.md2 : BitVec 32) :: f.imm ::
    encLit f.lit
/-- R68. -/
def encVX (maj : BitVec 6) (fn : BitVec 8) (f : VX) : List Word :=
  (len1 f.lit ++ maj ++ fn ++ f.ty ++ f.ret ++ f.md : BitVec 32) :: (f.vd ++ f.va ++ f.vb ++ f.md2 : BitVec 32) ::
    (f.vc ++ f.sp ++ f.imm : BitVec 32) :: encLit f.lit
/-- R69. -/
def encTX (maj : BitVec 6) (fn : BitVec 8) (f : TX) : List Word :=
  (len1 f.lit ++ maj ++ fn ++ f.td ++ f.ta ++ f.tb ++ f.tc : BitVec 32) :: (f.sa ++ f.sb ++ f.sc ++ f.md : BitVec 32) ::
    f.imm :: encLit f.lit
/-- R70. -/
def encCX (maj : BitVec 6) (fn : BitVec 8) (f : CX) : List Word :=
  (len1 f.lit ++ maj ++ fn ++ f.xr ++ f.scope ++ f.ord ++ f.md : BitVec 32) ::
    (f.vd ++ f.va ++ f.vb ++ f.md2 : BitVec 32) :: (f.sa ++ f.sb ++ f.sc ++ f.sd : BitVec 32) :: encLit f.lit
/-- R70. -/
def encQX (maj : BitVec 6) (fn : BitVec 8) (f : QX) : List Word :=
  (len1 f.lit ++ maj ++ fn ++ f.xr ++ f.scope ++ f.ord ++ f.md : BitVec 32) ::
    (f.sa ++ f.sb ++ f.sc ++ f.sd : BitVec 32) :: f.imm :: encLit f.lit

/-- The words of an instruction (R56-R77); none for an event. -/
def encode : Instr → List Word
  | .nop f => encS2 0x00 0 f
  | .endg f => encS2 0x00 1 f
  | .trap f => encS2 0x00 2 f
  | .rft f => encS2 0x00 3 f
  | .yield f => encS2 0x00 4 f
  | .clkr f => encS2 0x00 5 f
  | .idr f => encS2 0x00 6 f
  | .sysr f => encS2 0x00 7 f
  | .sysw f => encS2 0x00 8 f
  | .fence f => encS2 0x00 9 f
  | .ret f => encS2 0x00 10 f
  | .jmp f => encS2 0x00 11 f
  | .sadd f => encS2 0x02 0 f
  | .ssub f => encS2 0x02 1 f
  | .smul f => encS2 0x02 2 f
  | .smulh f => encS2 0x02 3 f
  | .sand f => encS2 0x02 4 f
  | .sor f => encS2 0x02 5 f
  | .sxor f => encS2 0x02 6 f
  | .sandn f => encS2 0x02 7 f
  | .sshl f => encS2 0x02 8 f
  | .sshr f => encS2 0x02 9 f
  | .ssra f => encS2 0x02 10 f
  | .smin f => encS2 0x02 11 f
  | .smax f => encS2 0x02 12 f
  | .smov f => encS2 0x02 13 f
  | .spopc f => encS2 0x02 14 f
  | .sclz f => encS2 0x02 15 f
  | .scmp f => encSX 0x07 0 f
  | .ssel f => encSX 0x07 1 f
  | .sbfx f => encSX 0x07 2 f
  | .sbfi f => encSX 0x07 3 f
  | .sld f => encSX 0x08 0 f
  | .sst f => encSX 0x08 1 f
  | .slda f => encSX 0x08 2 f
  | .msplit f => encSX 0x09 0 f
  | .mopen f => encSX 0x09 1 f
  | .marrive f => encSX 0x09 2 f
  | .mjoin f => encSX 0x09 3 f
  | .mmov f => encSX 0x09 4 f
  | .mpopc f => encSX 0x09 5 f
  | .palset f => encSX 0x0A 0 f
  | .palget f => encSX 0x0A 1 f
  | .fpcset f => encSX 0x0A 2 f
  | .fpcget f => encSX 0x0A 3 f
  | .fork f => encSX 0x0B 0 f
  | .vfork f => encSX 0x0B 1 f
  | .join f => encSX 0x0B 2 f
  | .taskend f => encSX 0x0B 3 f
  | .launch f => encSX 0x0B 4 f
  | .waitw f => encSX 0x0C 0 f
  | .bara f => encSX 0x0C 1 f
  | .barw f => encSX 0x0C 2 f
  | .baraw f => encSX 0x0C 3 f
  | .vadd f => encVX 0x14 0 f
  | .vsub f => encVX 0x14 1 f
  | .vmul f => encVX 0x14 2 f
  | .vmulh f => encVX 0x14 3 f
  | .vmad f => encVX 0x14 4 f
  | .vabs f => encVX 0x14 5 f
  | .vmin f => encVX 0x14 6 f
  | .vmax f => encVX 0x14 7 f
  | .vand f => encVX 0x15 0 f
  | .vor f => encVX 0x15 1 f
  | .vxor f => encVX 0x15 2 f
  | .vandn f => encVX 0x15 3 f
  | .vshl f => encVX 0x15 4 f
  | .vshr f => encVX 0x15 5 f
  | .vsra f => encVX 0x15 6 f
  | .vpopc f => encVX 0x15 7 f
  | .vclz f => encVX 0x15 8 f
  | .vbfx f => encVX 0x15 9 f
  | .vbfi f => encVX 0x15 10 f
  | .vcmp f => encVX 0x16 0 f
  | .vsel f => encVX 0x16 1 f
  | .vmov f => encVX 0x16 2 f
  | .vlane f => encVX 0x16 3 f
  | .vins f => encVX 0x16 4 f
  | .vfadd f => encVX 0x17 0 f
  | .vfsub f => encVX 0x17 1 f
  | .vfmul f => encVX 0x17 2 f
  | .vfma f => encVX 0x17 3 f
  | .vfdiv f => encVX 0x17 4 f
  | .vfsqrt f => encVX 0x17 5 f
  | .vfmin f => encVX 0x17 6 f
  | .vfmax f => encVX 0x17 7 f
  | .vfrcpa f => encVX 0x17 8 f
  | .vfrsqa f => encVX 0x17 9 f
  | .vfcmp f => encVX 0x18 0 f
  | .vfclass f => encVX 0x18 1 f
  | .vfrnd f => encVX 0x18 2 f
  | .vfcvt f => encVX 0x18 3 f
  | .vshuf f => encVX 0x19 0 f
  | .vbcast f => encVX 0x19 1 f
  | .vred f => encVX 0x19 2 f
  | .vscan f => encVX 0x19 3 f
  | .vld f => encVX 0x1A 0 f
  | .vst f => encVX 0x1A 1 f
  | .vldx f => encVX 0x1A 2 f
  | .vstx f => encVX 0x1A 3 f
  | .vatom f => encVX 0x1A 4 f
  | .vslice f => encVX 0x1B 0 f
  | .vrand f => encVX 0x1B 1 f
  | .tcfg f => encTX 0x28 0 f
  | .tzero f => encTX 0x28 1 f
  | .tmov f => encTX 0x28 2 f
  | .tflgGet f => encTX 0x28 3 f
  | .tflgSet f => encTX 0x28 3 f
  | .tld f => encTX 0x29 0 f
  | .tldw f => encTX 0x29 1 f
  | .tst f => encTX 0x29 2 f
  | .tmma f => encTX 0x2A 0 f
  | .tcomb f => encTX 0x2A 1 f
  | .tcvt f => encTX 0x2A 2 f
  | .tadd f => encTX 0x2A 3 f
  | .xset f => encCX 0x2E 0 f
  | .xinv f => encCX 0x2E 1 f
  | .grun f => encCX 0x2E 2 f
  | .gsig f => encCX 0x2E 3 f
  | .cfence f => encCX 0x2E 4 f
  | .cpy f => encCX 0x2F 0 f
  | .cpyx f => encCX 0x2F 1 f
  | .cpyf f => encCX 0x2F 2 f
  | .fat f => encCX 0x30 0 f
  | .fred f => encCX 0x30 1 f
  | .skget f => encCX 0x31 0 f
  | .skput f => encCX 0x31 1 f
  | .skrec f => encCX 0x31 2 f
  | .rst f => encQX 0x36 0 f
  | .rsig f => encQX 0x36 1 f
  | .rwait f => encQX 0x36 2 f
  | .crun f => encQX 0x36 3 f
  | .cbar f => encQX 0x36 4 f
  | .ptime f => encQX 0x36 5 f
  | .wait f => encWF 0x01 f
  | .saddi f => encSI 0x03 f
  | .sli f => encSI 0x04 f
  | .sliLit f => encSIL 0x04 f
  | .brc f => encSB 0x05 f
  | .call f => encSB 0x06 f
  | .submit f => [((0 : BitVec 7) ++ f.rs2 ++ f.rs1 ++ (0 : BitVec 3) ++ f.rd ++ (0x0B : BitVec 7) : BitVec 32)]
  | .operandLogTimeout _ => []
  | .partitionIssueSelect _ _ => []
  | .timedHeartbeatTick _ => []
  | .logicalHeartbeatTick _ => []
  | .waitwRecheck _ => []
  | .rwaitRecheck _ => []
  | .copyOpComplete _ => []
  | .tileOpComplete _ => []
  | .collOpComplete _ _ => []
  | .farAtomicAtHome _ _ => []
  | .farAtomicResend _ _ => []
  | .skGetAtHome _ _ => []
  | .skPutAtHome _ _ => []
  | .skReconcileAtHome _ _ => []
  | .graphNodeStart _ _ => []
  | .graphNodeFinish _ _ => []
  | .graphLaunchRetry _ _ => []
  | .graphTimeout _ => []
  | .stepNop _ => []
  | .stepPut _ => []
  | .stepSig _ => []
  | .stepWait _ => []
  | .stepDone _ => []
  | .crunTimeout _ => []
  | .beacon _ _ _ => []
  | .orderedPacketArrival _ _ _ _ => []
  | .orderedDelivery _ => []
  | .unorderedDelivery _ => []
  | .remoteResend _ _ => []
  | .watermarkStall _ => []
  | .sourceExclusion _ => []
  | .podBarrierArrival _ _ _ _ _ _ => []
  | .podBarrierRelease _ _ _ => []
  | .podSyncChange _ => []
  | .tail _ _ _ _ => []
  | .reconcilePass => []
  | .queueDeactivation _ => []
  | .workerQueueSelect _ => []
  | .sliceExpiry _ => []
  | .nopPacket _ => []
  | .launchPacket _ => []
  | .writePacket _ => []
  | .signalPacket _ => []
  | .wrsigPacket _ => []
  | .waitsigPacket _ => []
  | .graphPacket _ => []
  | .fencePacket _ => []
  | .leaseHold _ => []
  | .leaseDrop _ => []
  | .copyPacket _ => []
  | .leaseWalkRetry _ => []
  | .launchEnd _ => []
  | .workgroupPlace => []
  | .workgroupResume _ _ => []
  | .preemptChoice _ _ => []
  | .save _ _ _ => []
  | .flush _ _ => []
  | .drainTimeout _ _ => []
  | .forwardProgressSave _ => []
  | .quantumEnd _ => []
  | .detCommit _ => []
  | .notifyWindowClose _ _ _ _ => []
  | .notifyRdidxWrite _ => []
  | .notifyEnable _ => []
  | .migrationUnit _ _ _ _ => []
  | .hostSkAccess _ _ => []
  | .hostFunctionFreeze _ _ => []
  | .functionLevelReset _ => []
  | .ioDieReset _ => []
  | .attestationRequest _ => []
  | .lockstep => []
  | .pwrlimWrite _ => []
  | .infoBlockWrite _ _ => []
  | .telemetryRefresh _ _ _ => []
  | .thermal _ => []
  | .linkTraining _ _ _ => []
  | .eccCorrected _ => []
  | .eccUncorrectable _ => []
  | .scrubbing _ => []
  | .hbmRowRepair _ => []
  | .eventRecord _ => []
  | .eventRingRoom _ => []
  | .waitsigRecheck _ => []
  | .hostCxlMemAccess _ _ => []
  | .notifyDisable => []
  | .firmwareLaunchHalt _ => []
  | .activeSetRemoval _ => []

end Sys2Proof
end

