-- ==== Sys2Proof/Machine/Tbl.lean ====
section
/-! DEFINITION. Tables with Nat keys as lists of pairs whose keys rise strictly; and sparse maps, which are such tables
without an entry that equals what an unlisted key reads as. Every table and every memory of State is one of these. -/

namespace Sys2Proof.Machine

/-- A table: a list of (key, value) pairs, keys strictly rising. -/
abbrev Tbl (α : Type) := List (Nat × α)

/-- The value at a key, if the table lists it. -/
def tget {α : Type} : Tbl α → Nat → Option α
  | [], _ => none
  | (k, v) :: t, q => if k = q then some v else tget t q

/-- The table with the value `v` at key `q`. -/
def tput {α : Type} : Tbl α → Nat → α → Tbl α
  | [], q, v => [(q, v)]
  | (k, w) :: t, q, v =>
    if q < k then (q, v) :: (k, w) :: t
    else if q = k then (q, v) :: t
    else (k, w) :: tput t q v

/-- The table without the key `q`. -/
def tdel {α : Type} : Tbl α → Nat → Tbl α
  | [], _ => []
  | (k, w) :: t, q => if k = q then tdel t q else (k, w) :: tdel t q

/-- The canonical form of a table: keys strictly rising. -/
def tblWf {α : Type} : Tbl α → Bool
  | [] => true
  | [_] => true
  | (k, _) :: (q, v) :: t => decide (k < q) && tblWf ((q, v) :: t)

/-- Reading a sparse map whose unlisted keys read as `d`. -/
def mget {α : Type} (d : α) (t : Tbl α) (q : Nat) : α := (tget t q).getD d

/-- Writing a sparse map: writing the default removes the entry. -/
def mset {α : Type} [DecidableEq α] (d : α) (t : Tbl α) (q : Nat) (v : α) : Tbl α :=
  if v = d then tdel t q else tput t q v

/-- The canonical form of a sparse map: a table no entry of which is the default. -/
def mapWf {α : Type} [DecidableEq α] (d : α) (t : Tbl α) : Bool :=
  tblWf t && t.all (fun p => decide (p.2 ≠ d))

/-- Writing a run of consecutive keys. -/
def msetRun {α : Type} [DecidableEq α] (d : α) (t : Tbl α) (q : Nat) : List α → Tbl α
  | [] => t
  | v :: vs => msetRun d (mset d t q v) (q + 1) vs

/-- Reading a run of consecutive keys. -/
def mgetRun {α : Type} (d : α) (t : Tbl α) (q : Nat) : Nat → List α
  | 0 => []
  | n + 1 => mget d t q :: mgetRun d t (q + 1) n

end Sys2Proof.Machine
end

