-- ==== Sys2Proof/Machine/Bits.lean ====
section
/-! DEFINITION. Byte order (R1), sign extension (R2), bit counts, and small operations on lists of lanes. -/

namespace Sys2Proof.Machine

/-- The `n` bytes of a value, little-endian (R1). -/
def bytesOf (n v : Nat) : List Byte := (List.range n).map (fun k => BitVec.ofNat 8 (v / 2 ^ (8 * k)))

/-- The value of little-endian bytes (R1). -/
def ofBytes : List Byte → Nat
  | [] => 0
  | b :: bs => b.toNat + 256 * ofBytes bs

/-- The low `w` bits of a number read as a two's-complement integer: sext(x, w). -/
def sextI (w x : Nat) : Int :=
  let m := x % 2 ^ w
  if 2 ^ w ≤ 2 * m ∧ m ≠ 0 then (m : Int) - (2 ^ w : Nat) else m

/-- An integer modulo 2^64 as a doubleword. -/
def dword (x : Int) : DWord := BitVec.ofInt 64 x

/-- The number of set bits among the low `w` bits. -/
def popcount : Nat → Nat → Nat
  | 0, _ => 0
  | w + 1, x => (x % 2) + popcount w (x / 2)

/-- The number of significant bits of a number. -/
def bitLen (x : Nat) : Nat := if x = 0 then 0 else Nat.log2 x + 1

/-- Leading zeros among the low `w` bits. -/
def clz (w x : Nat) : Nat := w - bitLen (x % 2 ^ w)

/-- The lanes 0-127. -/
def laneIds : List Nat := List.range Config.lanes

/-- A mask as a list of lanes. -/
def maskLanes (m : Mask) : List Bool := laneIds.map (fun l => m.getLsbD l)

/-- A list of lanes as a mask. -/
def lanesMask (bs : List Bool) : Mask :=
  BitVec.ofNat 128 (bs.foldr (fun b a => (if b then 1 else 0) + 2 * a) 0)

/-- The set lanes of a mask, ascending. -/
def activeLanes (m : Mask) : List Nat := laneIds.filter (fun l => m.getLsbD l)

/-- The lowest lane of a mask, 255 when there is none (R266 LANE). -/
def lowestLane (m : Mask) : Nat := (activeLanes m).headD 255

/-- An address rounded down to a multiple. -/
def alignDown (a k : Nat) : Nat := a / k * k

/-- The smallest number of a list, if any. -/
def minList : List Nat → Option Nat
  | [] => none
  | x :: xs => some (xs.foldl min x)

/-- The list with its element at position `n` replaced. -/
def setAt {α : Type} : List α → Nat → α → List α
  | [], _, _ => []
  | _ :: xs, 0, v => v :: xs
  | x :: xs, n + 1, v => x :: setAt xs n v

end Sys2Proof.Machine
end

