-- ==== Sys2Proof/Machine/Flags.lean ====
section
/-! DEFINITION. Number formats, exact values, rounding and the floating-point flags (R121-R138). Floating-point arithmetic is
exact on dyadic numbers and rounds once. -/

namespace Sys2Proof.Machine

/-! ## Flags -/

/-- Flags in TVAL order (R135): IV DZ OF UF NX in bits 4..0. -/
abbrev Flags := BitVec 5

def fNX : Flags := 0x01
def fUF : Flags := 0x02
def fOF : Flags := 0x04
def fDZ : Flags := 0x08
def fIV : Flags := 0x10

/-- rev5 (R135): NX is FPC[6] and IV FPC[2]. -/
def rev5 (f : Flags) : BitVec 5 :=
  (f.extractLsb' 0 1 ++ f.extractLsb' 1 1 ++ f.extractLsb' 2 1 ++ f.extractLsb' 3 1 ++ f.extractLsb' 4 1 : BitVec 5)

/-- FPC.EN in TVAL order (R133, R135). -/
def fpcEnables (fpc : Word) : Flags := rev5 (fpc.extractLsb' 7 5)

/-- FPC with flags raised (R135). -/
def fpcRaise (fpc : Word) (f : Flags) : Word := fpc ||| ((rev5 f).setWidth 32 <<< 2)

/-! ## Formats (R123) -/

/-- A floating-point format: width, fraction bits, bias, exponent bits; whether it has infinities. -/
structure FFmt where
  width : Nat
  e : Nat
  f : Nat
  bias : Nat
  hasInf : Bool
deriving DecidableEq, Repr

def f64 : FFmt := ⟨64, 11, 52, 1023, true⟩
def f32 : FFmt := ⟨32, 8, 23, 127, true⟩
def f16 : FFmt := ⟨16, 5, 10, 15, true⟩
def bf16 : FFmt := ⟨16, 8, 7, 127, true⟩
def e4m3 : FFmt := ⟨8, 4, 3, 7, false⟩
def e5m2 : FFmt := ⟨8, 5, 2, 15, true⟩

/-- The format of a floating-point TYPE code (R75). -/
def fmtOf (t : Nat) : FFmt :=
  if t = 4 then f16 else if t = 5 then bf16 else if t = 6 then f32 else if t = 7 then f64 else if t = 10 then e4m3 else e5m2

/-- The width of a TYPE code in bits (R75, R121, R123). -/
def typeBits (t : Nat) : Nat :=
  if t = 2 ∨ t = 3 ∨ t = 7 then 64 else if t = 4 ∨ t = 5 then 16 else if 8 ≤ t then 8 else 32

/-- The canonical NaN (R123). -/
def canonNaN (k : FFmt) : Nat := if k.hasInf then (2 ^ k.e - 1) * 2 ^ k.f + 2 ^ (k.f - 1) else 0x7F

/-- Bits of the largest finite magnitude (R123). -/
def maxFinite (k : FFmt) : Nat := if k.hasInf then (2 ^ k.e - 1) * 2 ^ k.f - 1 else 0x7E

/-- Bits with a sign. -/
def withSign (k : FFmt) (neg : Bool) (b : Nat) : Nat := if neg then b + 2 ^ (k.width - 1) else b

/-- Bits of an infinity; E4M3 has none and gives its largest finite magnitude (R72, R137). -/
def infBits (k : FFmt) (neg : Bool) : Nat :=
  withSign k neg (if k.hasInf then (2 ^ k.e - 1) * 2 ^ k.f else maxFinite k)

/-- A decoded value (R124): NaN, infinity, or (-1)^neg × m × 2^ex. -/
inductive FVal where
  | nan (snan : Bool)
  | inf (neg : Bool)
  | fin (neg : Bool) (m : Nat) (ex : Int)
deriving DecidableEq, Repr

/-- Decoding of bits (R124). -/
def decodeF (k : FFmt) (b : Nat) : FVal :=
  let neg := b.testBit (k.width - 1)
  let ee := b / 2 ^ k.f % 2 ^ k.e
  let ff := b % 2 ^ k.f
  if k.hasInf ∧ ee = 2 ^ k.e - 1 then
    if ff = 0 then .inf neg else .nan (!ff.testBit (k.f - 1))
  else if !k.hasInf ∧ b % 2 ^ (k.width - 1) = 0x7F then .nan false
  else if ee = 0 then .fin neg ff (1 - (k.bias : Int) - k.f)
  else .fin neg (2 ^ k.f + ff) ((ee : Int) - k.bias - k.f)

/-- Whether bits are a NaN. -/
def isNaN (k : FFmt) (b : Nat) : Bool := decodeF k b == .nan true || decodeF k b == .nan false
/-- Whether bits are a signalling NaN. -/
def isSNaN (k : FFmt) (b : Nat) : Bool := decodeF k b == .nan true

/-! ## Rounding (R129-R131) -/

/-- Rounding modes of FPC.RM (R129). -/
inductive RM where
  | rne | rtz | rup | rdn
deriving DecidableEq, Repr

/-- FPC.RM. -/
def rmOf (b : Nat) : RM := if b = 0 then .rne else if b = 1 then .rtz else if b = 2 then .rup else .rdn

/-- m × 2^ex rounded to a multiple of 2^q: the multiple's count, and whether anything was dropped. -/
def roundTo (rm : RM) (neg : Bool) (m : Nat) (ex q : Int) : Nat × Bool :=
  if q ≤ ex then (m * 2 ^ (ex - q).toNat, false)
  else
    let d := (q - ex).toNat
    let t := m / 2 ^ d
    let r := m % 2 ^ d
    let up := match rm with
      | .rne => decide (2 ^ d < 2 * r) || (2 * r == 2 ^ d && t % 2 == 1)
      | .rtz => false
      | .rup => !neg && r != 0
      | .rdn => neg && r != 0
    (if up then t + 1 else t, r != 0)

/-- Whether n × 2^q exceeds the largest finite magnitude. -/
def exceedsMax (k : FFmt) (n : Nat) (q : Int) : Bool :=
  match decodeF k (maxFinite k) with
  | .fin _ m ex => if ex ≤ q then decide (m < n * 2 ^ (q - ex).toNat) else decide (m * 2 ^ (ex - q).toNat < n)
  | _ => false

/-- The exponent of the smallest quantum of a format. -/
def minQuantum (k : FFmt) : Int := 1 - (k.bias : Int) - k.f

/-- Bits of n × 2^q where q is the quantum of the format's binade and n < 2^(f+1) or n = 2^(f+1). -/
def packMag (k : FFmt) (n : Nat) (q : Int) : Nat :=
  if n < 2 ^ k.f then n
  else if n = 2 ^ (k.f + 1) then ((q - minQuantum k + 2).toNat) * 2 ^ k.f
  else (q - minQuantum k + 1).toNat * 2 ^ k.f + (n - 2 ^ k.f)

/-- Delivered bits of an overflow (R130). -/
def overflowBits (k : FFmt) (rm : RM) (neg sat : Bool) : Nat :=
  let toInf := match rm with
    | .rne => true
    | .rtz => false
    | .rup => !neg
    | .rdn => neg
  if !toInf then withSign k neg (maxFinite k)
  else if k.width = 8 ∧ sat then withSign k neg (maxFinite k)
  else if k.hasInf then infBits k neg
  else canonNaN k

/-- Whether a nonzero m × 2^ex is tiny (R131). -/
def isTiny (k : FFmt) (rm : RM) (neg : Bool) (m : Nat) (ex : Int) : Bool :=
  let q := ex + (bitLen m : Int) - 1 - k.f
  let n := (roundTo rm neg m ex q).1
  -- n × 2^q < 2^(1 - bias)
  let lim := 1 - (k.bias : Int)
  if q ≤ lim then decide (n < 2 ^ (lim - q).toNat) else false

/-- Rounding a finite exact value to a format (R129-R131): bits and flags. A zero keeps the sign given. -/
def roundF (k : FFmt) (rm : RM) (sat : Bool) (neg : Bool) (m : Nat) (ex : Int) : Nat × Flags :=
  if m = 0 then (withSign k neg 0, 0)
  else
    let q0 := ex + (bitLen m : Int) - 1 - k.f
    let u := roundTo rm neg m ex q0
    if exceedsMax k u.1 q0 then (overflowBits k rm neg sat, fOF ||| fNX)
    else
      let q := max q0 (minQuantum k)
      let r := roundTo rm neg m ex q
      (withSign k neg (packMag k r.1 q),
        if r.2 then (if isTiny k rm neg m ex then fNX ||| fUF else fNX) else 0)

/-! ## Arithmetic (R149) -/

/-- The sum of two dyadic numbers: sign, magnitude, exponent; the sign of an exact zero by the rounding mode. -/
def addDyadic (rm : RM) (na : Bool) (ma : Nat) (ea : Int) (nb : Bool) (mb : Nat) (eb : Int) : Bool × Nat × Int :=
  let e := min ea eb
  let a : Int := (ma * 2 ^ (ea - e).toNat : Nat)
  let b : Int := (mb * 2 ^ (eb - e).toNat : Nat)
  let s := (if na then -a else a) + (if nb then -b else b)
  if s = 0 then (if na = nb then na else rm == .rdn, 0, e) else (decide (s < 0), s.natAbs, e)

/-- IV when some operand signals. -/
def ivIf (b : Bool) : Flags := if b then fIV else 0

/-- a + b (R134, R149). -/
def addF (k : FFmt) (rm : RM) (sat : Bool) (a b : FVal) : Nat × Flags :=
  match a, b with
  | .nan x, .nan y => (canonNaN k, ivIf (x || y))
  | .nan x, _ => (canonNaN k, ivIf x)
  | _, .nan y => (canonNaN k, ivIf y)
  | .inf x, .inf y => if x = y then (infBits k x, 0) else (canonNaN k, fIV)
  | .inf x, _ => (infBits k x, 0)
  | _, .inf y => (infBits k y, 0)
  | .fin na ma ea, .fin nb mb eb =>
    let s := addDyadic rm na ma ea nb mb eb
    roundF k rm sat s.1 s.2.1 s.2.2

/-- The negated value. -/
def negF : FVal → FVal
  | .nan s => .nan s
  | .inf n => .inf (!n)
  | .fin n m e => .fin (!n) m e

/-- The exact product: NaN with IV for 0 × ∞. -/
def mulExact (a b : FVal) : FVal × Flags :=
  match a, b with
  | .nan x, .nan y => (.nan false, ivIf (x || y))
  | .nan x, _ => (.nan false, ivIf x)
  | _, .nan y => (.nan false, ivIf y)
  | .inf x, .inf y => (.inf (x != y), 0)
  | .inf x, .fin nb mb _ => if mb = 0 then (.nan false, fIV) else (.inf (x != nb), 0)
  | .fin na ma _, .inf y => if ma = 0 then (.nan false, fIV) else (.inf (na != y), 0)
  | .fin na ma ea, .fin nb mb eb => (.fin (na != nb) (ma * mb) (ea + eb), 0)

/-- An exact value rounded into a format. -/
def packF (k : FFmt) (rm : RM) (sat : Bool) : FVal → Nat × Flags
  | .nan s => (canonNaN k, ivIf s)
  | .inf n => (infBits k n, 0)
  | .fin n m e => roundF k rm sat n m e

/-- a × b. -/
def mulF (k : FFmt) (rm : RM) (a b : FVal) : Nat × Flags :=
  let p := mulExact a b
  let r := packF k rm false p.1
  (r.1, p.2 ||| r.2)

/-- a × b + c, rounded once. 0 × ∞ is invalid whatever c is (R134). -/
def fmaF (k : FFmt) (rm : RM) (a b c : FVal) : Nat × Flags :=
  let p := mulExact a b
  let r := addF k rm false p.1 c
  (r.1, p.2 ||| r.2)

/-- a / b. -/
def divF (k : FFmt) (rm : RM) (a b : FVal) : Nat × Flags :=
  match a, b with
  | .nan x, .nan y => (canonNaN k, ivIf (x || y))
  | .nan x, _ => (canonNaN k, ivIf x)
  | _, .nan y => (canonNaN k, ivIf y)
  | .inf _, .inf _ => (canonNaN k, fIV)
  | .inf x, .fin nb _ _ => (infBits k (x != nb), 0)
  | .fin na _ _, .inf y => (withSign k (na != y) 0, 0)
  | .fin na ma ea, .fin nb mb eb =>
    if mb = 0 then
      if ma = 0 then (canonNaN k, fIV) else (infBits k (na != nb), fDZ)
    else
      let sh := k.f + 4 + bitLen mb
      let q := ma * 2 ^ sh / mb
      let sticky := if ma * 2 ^ sh % mb = 0 then 0 else 1
      roundF k rm false (na != nb) (2 * q + sticky) (ea - eb - sh - 1)

/-- The integer square root by bits from the top. -/
def isqrtGo (n : Nat) : Nat → Nat → Nat
  | 0, r => r
  | i + 1, r => if (r + 2 ^ i) * (r + 2 ^ i) ≤ n then isqrtGo n i (r + 2 ^ i) else isqrtGo n i r

/-- floor(sqrt n). -/
def isqrt (n : Nat) : Nat := isqrtGo n (bitLen n / 2 + 1) 0

/-- √(m × 2^ex) with `p` guard bits and a sticky bit: a magnitude and an exponent. -/
def sqrtDyadic (p : Nat) (m : Nat) (ex : Int) : Nat × Int :=
  let odd := ex % 2 != 0
  let m1 := if odd then 2 * m else m
  let e1 := if odd then ex - 1 else ex
  let n := m1 * 2 ^ (2 * p)
  let r := isqrt n
  (2 * r + (if r * r = n then 0 else 1), e1 / 2 - p - 1)

/-- √a (R149). -/
def sqrtF (k : FFmt) (rm : RM) (a : FVal) : Nat × Flags :=
  match a with
  | .nan s => (canonNaN k, ivIf s)
  | .inf n => if n then (canonNaN k, fIV) else (infBits k false, 0)
  | .fin n m ex =>
    if m = 0 then (withSign k n 0, 0)
    else if n then (canonNaN k, fIV)
    else
      let r := sqrtDyadic (k.f + 4) m ex
      roundF k rm false false r.1 r.2

/-! ## Comparison -/

/-- The order of two dyadic numbers as an integer difference's sign. -/
def cmpDyadic (na : Bool) (ma : Nat) (ea : Int) (nb : Bool) (mb : Nat) (eb : Int) : Int :=
  let e := min ea eb
  let a : Int := (ma * 2 ^ (ea - e).toNat : Nat)
  let b : Int := (mb * 2 ^ (eb - e).toNat : Nat)
  (if na then -a else a) - (if nb then -b else b)

/-- The order of two values that are not NaN: negative, zero or positive. -/
def cmpF : FVal → FVal → Int
  | .inf x, .inf y => if x = y then 0 else if x then -1 else 1
  | .inf x, _ => if x then -1 else 1
  | _, .inf y => if y then 1 else -1
  | .fin na ma ea, .fin nb mb eb => cmpDyadic na ma ea nb mb eb
  | _, _ => 0

/-- Whether a value is a NaN. -/
def FVal.isNaN : FVal → Bool
  | .nan _ => true
  | _ => false

/-- Whether a value is a signalling NaN. -/
def FVal.isSig : FVal → Bool
  | .nan s => s
  | _ => false

/-- Whether a value's sign is negative. -/
def FVal.negative : FVal → Bool
  | .nan _ => false
  | .inf n => n
  | .fin n _ _ => n

/-- VFMIN and VFMAX (R150): -0 below +0; one quiet NaN gives the other operand. -/
def minMaxF (k : FFmt) (wantMax : Bool) (ab bb : Nat) : Nat × Flags :=
  let a := decodeF k ab
  let b := decodeF k bb
  if a.isSig || b.isSig then (canonNaN k, fIV)
  else if a.isNaN && b.isNaN then (canonNaN k, 0)
  else if a.isNaN then (bb, 0)
  else if b.isNaN then (ab, 0)
  else
    let c := cmpF a b
    let aLess := decide (c < 0) || (c == 0 && a.negative)
    (if aLess == wantMax then bb else ab, 0)

/-! ## Conversions and rounding to integral values -/

/-- A float converted to a format (R132, R155). -/
def cvtFF (src dst : FFmt) (rm : RM) (sat : Bool) (b : Nat) : Nat × Flags :=
  match decodeF src b with
  | .nan s => (canonNaN dst, ivIf s)
  | .inf n =>
    if dst.hasInf then (infBits dst n, 0)
    else if sat then (withSign dst n (maxFinite dst), fOF) else (canonNaN dst, fOF)
  | .fin n m e => roundF dst rm sat n m e

/-- An integer converted to a format. -/
def cvtIF (dst : FFmt) (rm : RM) (sat : Bool) (x : Int) : Nat × Flags :=
  roundF dst rm sat (decide (x < 0)) x.natAbs 0

/-- A float converted to an integer of `w` bits (R132). -/
def cvtFI (src : FFmt) (rm : RM) (signed : Bool) (w : Nat) (b : Nat) : Nat × Flags :=
  let hi : Int := if signed then 2 ^ (w - 1) - 1 else 2 ^ w - 1
  let lo : Int := if signed then -(2 ^ (w - 1)) else 0
  let enc (x : Int) : Nat := (x % (2 ^ w : Nat)).toNat
  match decodeF src b with
  | .nan _ => (0, fIV)
  | .inf n => (enc (if n then lo else hi), fIV)
  | .fin n m e =>
    let r := roundTo rm n m e 0
    let x : Int := if n then -(r.1 : Int) else r.1
    if hi < x then (enc hi, fIV)
    else if x < lo then (enc lo, fIV)
    else (enc x, if r.2 then fNX else 0)

/-- VFRND (R154): an integral value in the same format; NX only when `exact` and the value changes. -/
def rndF (k : FFmt) (rm : RM) (exact : Bool) (b : Nat) : Nat × Flags :=
  match decodeF k b with
  | .nan s => (canonNaN k, ivIf s)
  | .inf n => (infBits k n, 0)
  | .fin n m e =>
    let r := roundTo rm n m e 0
    ((roundF k rm false n r.1 0).1, if exact && r.2 then fNX else 0)

/-- VFCLASS (R153): the bit of the class. -/
def classF (k : FFmt) (b : Nat) : Nat :=
  match decodeF k b with
  | .nan s => if s then 8 else 9
  | .inf n => if n then 0 else 7
  | .fin n m _ =>
    if m = 0 then (if n then 3 else 4)
    else if m < 2 ^ k.f then (if n then 2 else 5)
    else (if n then 1 else 6)

/-! ## The approximations (R151) -/

/-- An approximation to p significand bits rounded toward zero, then to the format toward zero. -/
def approxF (k : FFmt) (neg : Bool) (m : Nat) (ex : Int) : Nat × Flags :=
  let p := min 12 (k.f + 1)
  let q0 := ex + (bitLen m : Int) - p
  let n := (roundTo .rtz neg m ex q0).1
  let qf := q0 + (bitLen n : Int) - 1 - k.f
  if exceedsMax k (roundTo .rtz neg n q0 qf).1 qf then (withSign k neg (maxFinite k), fOF)
  else
    let q := max qf (minQuantum k)
    let r := roundTo .rtz neg n q0 q
    (withSign k neg (packMag k r.1 q), if r.2 && isTiny k .rtz neg n q0 then fUF else 0)

/-- VFRCPA. -/
def rcpaF (k : FFmt) (a : FVal) : Nat × Flags :=
  match a with
  | .nan s => (canonNaN k, ivIf s)
  | .inf n => (withSign k n 0, 0)
  | .fin n m ex =>
    if m = 0 then (infBits k n, fDZ)
    else
      let sh := 16 + bitLen m
      let q := 2 ^ sh / m
      approxF k n (2 * q + (if 2 ^ sh % m = 0 then 0 else 1)) (-ex - sh - 1)

/-- VFRSQA. -/
def rsqaF (k : FFmt) (a : FVal) : Nat × Flags :=
  match a with
  | .nan s => (canonNaN k, ivIf s)
  | .inf n => if n then (canonNaN k, fIV) else (withSign k false 0, 0)
  | .fin n m ex =>
    if m = 0 then (infBits k n, fDZ)
    else if n then (canonNaN k, fIV)
    else
      -- 1/√(m 2^ex) = √(2^-ex / m): a quotient with ample bits, then its root
      let sh := 64 + 2 * bitLen m
      let q := 2 ^ sh / m
      let r := sqrtDyadic 0 q (-ex - sh)
      let exact := decide (2 ^ sh % m = 0) && r.1 % 2 == 0
      approxF k false (r.1 / 2 * 2 + (if exact then 0 else 1)) r.2

/-! ## Round to nearest even for the folds and the tile engine (R138, R303) -/

/-- rne32 or rne64 of a + b on bits: the atomic adds of R138. -/
def atomAddF (k : FFmt) (a b : Nat) : Nat := (addF k .rne false (decodeF k a) (decodeF k b)).1

/-! ## Compares (R152) -/

/-- VFCMP's predicate: the outcome and IV. -/
def cmpPredF (pred : Nat) (a b : FVal) : Bool × Flags :=
  let un := a.isNaN || b.isNaN
  let sig := a.isSig || b.isSig
  let c := cmpF a b
  let ordered (r : Bool) (quiet : Bool) : Bool × Flags := (!un && r, ivIf (sig || (un && !quiet)))
  if pred = 0 then ordered (c == 0) true
  else if pred = 1 then (un || c != 0, ivIf sig)
  else if pred = 2 then ordered (decide (c < 0)) false
  else if pred = 3 then ordered (decide (c ≤ 0)) false
  else if pred = 4 then ordered (decide (0 < c)) false
  else if pred = 5 then ordered (decide (0 ≤ c)) false
  else if pred = 6 then (un, ivIf sig)
  else if pred = 7 then (!un, ivIf sig)
  else if pred = 8 then ordered (decide (c < 0)) true
  else if pred = 9 then ordered (decide (c ≤ 0)) true
  else if pred = 10 then ordered (decide (0 < c)) true
  else ordered (decide (0 ≤ c)) true

end Sys2Proof.Machine
end

