-- ==== Sys2Proof/Machine/State.lean ====
section
/-! DEFINITION. The state of one NZ-720 package as plain data: everything the manual gives the machine, and three fields of the
model's own (`agenda`, `cur`, `opNo`). Each field names the rule that gives it. -/

namespace Sys2Proof.Machine

/-- A sparse byte memory: the canonical list of cells whose unlisted addresses read as zero (log 3). -/
abbrev Bytes := List Host.Cell

/-- A set of keys held as a sparse map: poison marks and the like. -/
abbrev Marks := Tbl Bool

/-- A vector register: lane L at position L (R173). -/
abbrev VReg := List Word

/-- A vector register whose lanes are all zero. -/
def VReg.zero : VReg := List.replicate Config.lanes 0

/-! ## The group -/

/-- A translation register (R250). -/
structure XReg where
  valid : Bool
  vbase : DWord
  length : Nat
  limit : Nat
deriving DecidableEq, Repr

/-- A translation register at group start (R173). -/
def XReg.invalid : XReg := ⟨false, 0, 0, 0⟩

/-- An operation outstanding on a counter (R19), whether it is complete but held behind an earlier one (R228), and the PC a
complete tile operation will report (R295). -/
structure Pend where
  op : Nat
  done : Bool
  report : Option DWord
deriving DecidableEq, Repr

/-- What a parked group waits for. -/
inductive Park where
  | wait (ld st tile coll : Nat)                  -- R227
  | waitw                                          -- R230
  | join                                           -- R222
  | drain                                          -- ENDG and TASKEND: ld and tile (R200, R223)
  | barWord (off : Nat) (token : Word)             -- R232
  | barNamed (scope : Nat) (b : Nat) (token : Word) -- R233
  | rwait                                          -- R330
  | commit                                         -- a DET group until the commit of its quantum (R172, R206, R378)
deriving DecidableEq, Repr

/-- Whether a group issues (R238, R240, R246). -/
inductive GStatus where
  | run
  | parked (p : Park)
  | stalled
  | frozen
deriving DecidableEq, Repr

/-- An entry of the operand log: the address of a scratchpad access not yet performed (R241). -/
structure LogEntry where
  pc : DWord
  inst : Instr
deriving DecidableEq, Repr

/-- The operand log (R241, R243). -/
structure OperandLog where
  entries : List LogEntry
  resume : DWord
  independent : Nat        -- independent instructions retired past the log
  tval : DWord             -- lowest failing offset of entry 0
  tlane : Mask             -- failing lanes of entry 0
deriving DecidableEq, Repr

/-- An empty operand log (R173). -/
def OperandLog.empty : OperandLog := ⟨[], 0, 0, 0, 0⟩

/-- The special registers of R182. -/
structure Special where
  tpc : DWord
  tcause : BitVec 8
  tval : DWord
  texec : Mask
  tlane : Mask
  fsp : BitVec 21
  fbase : BitVec 21
  flim : BitVec 21
  tdepth : BitVec 8
  hbcnt : DWord
  ric : DWord
  pjoin : BitVec 40
deriving DecidableEq, Repr

/-- The special registers at the start of a launched group (R182). -/
def Special.start : Special := ⟨0, 0, 0, 0, 0, 0, 0, 0, 0, 0, 0, 0⟩

/-- The frame a task was promoted from (R210, R223): the owner's launch and workgroup, the frame's offset there, and
the frame's locality. -/
structure TaskLink where
  wg : Nat
  frame : Nat
  global : Bool
deriving DecidableEq, Repr

/-- An engine operation's counter (R19). -/
inductive Ctr where
  | ld | st | tile | coll
deriving DecidableEq, Repr

/-- A lane's request of a far atomic (R260): cell address offset, operand and compare value or bound. -/
structure FarLane where
  lane : Nat
  off : Nat
  v : DWord
  c : DWord
deriving DecidableEq, Repr

/-- A lane's sibling write (R278): cell offset, value and token; no token when blind. -/
structure SkLane where
  lane : Nat
  off : Nat
  v : DWord
  token : Option DWord
deriving DecidableEq, Repr

/-- A direction of CPY and CPYX (R256). -/
inductive Dir where
  | inn | out | onchip
deriving DecidableEq, Repr

/-- What a tile operation captured at issue: tile controls by value (R290). -/
inductive TileAct where
  | tcfg
  | tzero (d : DWord)
  | tmov (d a : DWord)
  | tflgGet (sd : Nat)
  | tflgSet (v m : Word)
  | tld (d : DWord) (base : Nat) (stride : Nat)
  | tldw (d : DWord) (base : Nat) (stride : Nat) (scale : Nat)
  | tst (a : DWord) (base : Nat) (stride : Nat)
  | tmma (d a b : DWord) (zero : Bool)
  | tcomb (d a : DWord) (k : Nat) (c0 : Nat)
  | tcvt (a : DWord) (dst : Nat) (rows : Nat) (cols : Nat) (stride : Nat)
  | tadd (d a b : DWord)
deriving DecidableEq, Repr

/-- What an engine operation does when it is performed, with the operands captured at issue (R252, R256-R261, R265,
R276-R279, R328-R336). -/
inductive OpAct where
  | cpy (dir : Dir) (x : XReg) (sa : Nat) (sb : DWord) (rowb rows sstr : Nat) (gstr : Int)
  | cpyx (dir : Dir) (x : XReg) (w : Nat) (sa : Nat) (sb : DWord) (idx : List (Nat × Nat))
  | cpyf (x : Option XReg) (sa : DWord) (pattern : DWord) (n : Nat)
  | far (x : XReg) (aop : Nat) (wide signed : Bool) (sb : DWord) (vd : Option Nat) (lanes : List FarLane)
  | skget (x : XReg) (sa : Nat) (lanes : List SkLane)
  | skput (x : XReg) (lanes : List SkLane)
  | skrec (x : XReg) (op : Nat) (signed : Bool) (lanes : List SkLane)
  | grun (x : XReg) (off : Nat) (nodes : Nat) (limit : Nat)
  | gsig (x : XReg) (off : Nat) (node : Nat)
  | remote (p : RemotePacket) (src : Nat) (n : Nat)
  | crun (x : XReg) (off : Nat) (count : Nat) (limit : Nat)
  | cbar (pod : Bool) (b : Nat) (count : Nat) (root : Nat)
  | taskend (link : TaskLink) (result : Option DWord)
  | tile (t : TileAct) (pal : DWord) (ten : Word) (wr : List Nat) (rd : List Nat)
deriving DecidableEq, Repr

/-- An engine operation in flight (R19-R22, R253, R266). -/
structure EngineOp where
  group : Nat
  gidx : Nat
  launch : Nat
  wg : Nat
  core : Nat
  tag : Word
  pc : DWord
  ctr : Option Ctr
  scope : BitVec 3
  ord : BitVec 2
  record : Option Nat
  act : OpAct
  seen : Nat              -- statuses met so far, a bit each (R253)
  cause : BitVec 8        -- cause of a FAULT
  lane : Nat              -- lowest failing lane, 255 without lanes
  addr : DWord            -- failing address
  cells : List Nat        -- cells already performed at their homes
  cellSeen : Tbl Nat      -- statuses that each cell of a far or sibling operation met at its last performance (R262, R282)
  vals : List (Nat × DWord)   -- old values of far-atomic lanes, by lane (R261)
  fence : Nat             -- operations of the group numbered below are ordered before this one (R268)
  performed : Bool
  exited : Bool
  deferred : Bool         -- captured in a DET quantum, not yet issued at its commit (R378)
  quantum : Option Nat    -- commit at which a DET operation was issued (R380)
  seq : Nat               -- its place in the order of issue; in a DET launch, in commit order (R285, R380)
  src : Option (Bytes × Marks)  -- the scratchpad as it was read when its workgroup left the core (R368, R372)
  lost : Bool             -- its workgroup has been flushed since (R373)
deriving DecidableEq, Repr

/-- A group (R173). `id` is its ID in a DET launch: logical core × 64 + slot (R377). -/
structure Group where
  launch : Nat
  wg : Nat
  gidx : Nat
  id : Nat
  part : Nat
  vbase : Nat
  tbase : Nat
  pc : DWord
  sregs : Tbl DWord
  scc : Bool
  vregs : Tbl VReg
  pal : DWord
  fpc : Word
  xregs : Tbl XReg
  tc : Tbl DWord
  tiles : Bytes
  tpoison : Marks
  tflags : Word
  ld : List Pend
  st : List Pend
  tile : List Pend
  coll : List Pend
  handler : Bool
  tickHeld : Bool
  tickDue : Bool                   -- its RIC has become a multiple of H and the logical tick is still to come (R220)
  log : OperandLog
  sp : Special
  status : GStatus
  barw : Option (Word × Option Nat)  -- token of a BARAW that has arrived, and the word's offset while it is known (R232, R370)
  urg : Nat
  waited : Nat
  hold : Option (Nat × List Nat)
  task : Option TaskLink
  promo : Tbl (Nat × Nat)          -- promoted frame -> the running task: its host workgroup and slot index (R210)
  reports : List DWord             -- PCs of tile operations that left the counter and are not yet reported (R295)
  born : DWord                     -- core clock when it became resident where it is (R220)
  parkPt : DWord
  parkClk : DWord                  -- core clock when it parked (R230)
  since : Option DWord             -- when the RWAIT under way was first issued (R330)
  lastRetire : DWord               -- core clock of the last retirement other than YIELD (R374)
  lastIssue : DWord                -- core clock of the last instruction issued (R241)
  detCount : Nat
  detEnded : Bool
  detBuf : List (Nat × List (Byte × Bool))
  detOps : List Nat
  fence : Nat
  candidates : List (Nat × Nat)    -- frame and HBCNT of the ticks of a DET quantum (R379)
  late : List (Bool × Nat × List (Byte × Bool))  -- writes into its registers (false) and tiles (true) during a DET quantum (R380)
deriving DecidableEq, Repr

/-- An entry of a core's tape table: a byte range of the core's scratchpad held by an operation (R23). -/
structure TapeEntry where
  op : Nat
  lo : Nat
  hi : Nat
  write : Bool
  tileOf : Option Nat
  own : Option Nat        -- in a DET launch, the only group it stops: its operation is not yet issued at a commit (R378, R380)
deriving DecidableEq, Repr

/-! ## Launches and workgroups -/

/-- The fields of a kernel descriptor that a launch uses (R112, R113). -/
structure Kernel where
  det : Bool
  idemp : Bool
  pinned : Bool
  joinchk : Bool
  entry : DWord
  handler : DWord
  groups : Nat
  spare : Nat
  vregs : Nat
  barriers : Nat
  maxdepth : Nat
  logical : Bool
  hbperiod : Nat
  quantum : Nat
  tilebytes : Nat
  scratch : Nat
  kargs : Nat
  codesize : Nat
  expected : Nat
deriving DecidableEq, Repr

/-- An entry of a range list (R115). -/
structure LRange where
  base : DWord
  len : Nat
  access : Nat
  cls : Nat
  die : Nat
  quad : Nat
deriving DecidableEq, Repr

/-- A leaf of a page table as a lease copies it (R382, R384). -/
structure Leaf where
  va : Nat
  size : Nat
  pa : Nat
  r : Bool
  w : Bool
  x : Bool
  type : Nat
  sk : Bool
  bramble : Nat
deriving DecidableEq, Repr

/-- One instance of a named barrier (R233): its scope, number and instance, phase and arrivals by (workgroup, group
index). -/
structure BarInst where
  scope : Nat
  b : Nat
  inst : Nat
  phase : Word
  arrivals : List (Nat × Nat)
deriving DecidableEq, Repr

/-- One collective barrier of a launch (R336): whether an arrival of its current phase is of POD scope, its phase, and the operations
that arrived in the current phase with their groups. -/
structure CBarInst where
  pod : Bool
  b : Nat
  phase : Word
  arrivals : List (Nat × Nat × Nat)
  waiting : List Nat
  count : Nat
  root : Nat
  agree : Bool
deriving DecidableEq, Repr

/-- What a group of a DET launch that has ended leaves for the commit of its quantum (R200, R378): its ID, its workgroup, the stores it
buffered and the operations it captured. -/
structure Left where
  id : Nat
  key : Nat
  buf : List (Nat × List (Byte × Bool))
  ops : List Nat
deriving DecidableEq, Repr

/-- How a launch stands (R240, R266, R355); `granting` while its lease is delayed (R383). -/
inductive LStatus where
  | granting | running | halted | ended
deriving DecidableEq, Repr

/-- A launch (R354, R355, R384). -/
structure Launch where
  q : Nat
  asid : Nat
  prio : Nat
  job : Word
  kern : Kernel
  gx : Nat
  gy : Nat
  gz : Nat
  sigva : DWord
  sigadd : DWord
  faultva : DWord
  kargva : DWord
  ranges : List LRange
  leaves : List Leaf
  codeLeaves : List Leaf
  kargLeaves : List Leaf
  code : Bytes
  nextWg : Nat
  status : LStatus
  faulted : Bool
  faultCount : Word
  bars : List BarInst
  cbars : List CBarInst
  quantum : Nat
  queued : List Nat
  waitFrom : DWord        -- since when its next workgroup waits (R364)
  left : List Left        -- of groups that ended in a DET launch's current quantum
  shown : Option (Bytes × Marks)  -- memory and its poison as the last commit of a DET launch left them (R330, R380)
  carried : List (Nat × Nat)      -- collective operations put off to the next quantum, by logical core (R325)
  domain : Nat                    -- its ordering domain: of a DET pod job 1-15, else 0 (R325)
deriving DecidableEq, Repr

/-- Where a workgroup stands (R362, R365, R368). -/
inductive WgStatus where
  | resident
  | draining (since : DWord) (fixed : Bool)
  | saving
  | flushing
  | saved
  | flushed
  | ended
deriving DecidableEq, Repr

/-- A WAITW that is parked: its group's slot index, the 8-byte unit it watches, and whether a write to it has been performed (R230). -/
structure Watch where
  gidx : Nat
  unit : Nat
  hit : Bool
deriving DecidableEq, Repr

/-- A workgroup that has been placed (R18, R158, R361, R365, R366); `retired` is R of R365. `lcore` and `lslots` are the logical core
and the slots by index that a DET launch's workgroup holds there (R376, R377); in another launch `lcore` is the package core. `fresh`: it has
its logical core, and has stood on no package core yet. `held`: the tape entries of its operations while it is saved, at offsets of its
scratchpad, `own` and `tileOf` naming groups by index. -/
structure Workgroup where
  launch : Nat
  idx : Nat
  x : Nat
  y : Nat
  z : Nat
  core : Nat
  lcore : Nat
  lslots : List (Nat × Nat)
  slot0 : Nat                         -- workgroup slot: the core slot of its first group when it was placed (R217)
  status : WgStatus
  sbase : Nat
  scratch : Bytes
  spoison : Marks
  shown : Option (Bytes × Marks)      -- scratchpad as the last commit of a DET launch left it (R380)
  watch : List Watch
  slots : List Nat                    -- core slots held: of launched groups still running, then the spare slots
  spareBase : List (Nat × Nat)        -- register and tile bases of the spare slots
  placed : List (Nat × Nat × Nat)     -- core slot, register and tile base that each launched group was placed with
  spareHeld : Bool
  exported : Bool
  drainHad : List Nat                 -- core slots it held when its drain began (R364)
  fresh : Bool
  held : List TapeEntry
  placedAt : DWord
  stayed : Nat                        -- ticks of its earlier residencies (R365)
  order : Nat
  retired : Nat
  saved : Tbl Group                   -- by slot index
  recSize : Nat                       -- bytes of the context pool its record takes (R369)
  recAt : Option Nat                  -- where its record lies
  waitFrom : DWord
deriving DecidableEq, Repr

/-! ## Cores -/

/-- A core (R220, R23, R262, R266). -/
structure Core where
  clk : DWord
  tape : List TapeEntry
  tag : Word
  reqId : BitVec 16       -- the next request identifier to try (R262)
  ticked : DWord          -- the last clock whose timed ticks have been given (R220)
  picked : List (Nat × Nat)   -- partitions and the groups, by key, that they have picked in the current clock (R246)
deriving DecidableEq, Repr

/-- A core at core reset: the clock counter runs from zero (R220), the tape table is empty. -/
def Core.init : Core := ⟨0, [], 0, 0, 0, []⟩

/-- A request of a core to a cell's home that is not yet acknowledged (R262, R282): its identifier, the operation and the cell (of SKPUT
the lane), when it was first sent, how often it was sent again, and, once the home has applied it, the reply in the home's cache. -/
structure FarReq where
  core : Nat
  home : Nat
  id : BitVec 16
  op : Nat
  cell : Nat
  sent : DWord
  resends : Nat
  reply : Option (Nat × List (Nat × DWord))   -- statuses met, and the lanes' old values
deriving DecidableEq, Repr

/-! ## Sibling cells -/

/-- A sibling: value, dot and poison (R271, R408). -/
structure Sibling where
  v : DWord
  g : BitVec 16
  s : BitVec 24
  poison : Bool
deriving DecidableEq, Repr

/-- The state of a sibling-keeping cell at its home (R271). -/
structure SkCell where
  g : BitVec 16
  ctr : BitVec 24
  pmax : BitVec 24
  sibs : List Sibling
deriving DecidableEq, Repr

/-! ## Graphs and step tables -/

/-- Who started a graph (R265, R356): an engine operation, or a queue with its completion signal. -/
inductive GraphOwner where
  | op (no : Nat)
  | queue (q : Nat) (sigva : DWord) (sigadd : DWord)
deriving DecidableEq, Repr

/-- A node of a graph under way (R263-R265): its 64 bytes as read at its start, the statuses it met, and whether its action
is done; a node that is malformed or that cannot be read releases no successor. -/
structure NodeRun where
  bytes : List Byte
  sound : Bool
  seen : Nat
  cause : BitVec 8
  addr : DWord
  acted : Bool
deriving DecidableEq, Repr

/-- A graph in flight (R263-R265): the window of addresses its nodes lie in, node 0's address, whether its first nodes have
been found, the nodes that are to start in their order, and the nodes under way. `closed` when its owner has been told of a
fault already. -/
structure GraphRun where
  owner : GraphOwner
  launch : Option Nat
  asid : Nat
  core : Nat
  x : XReg
  base : DWord
  nodes : Nat
  scope : BitVec 3
  start : DWord
  limit : Nat
  begun : Bool
  ready : List Nat
  running : Tbl NodeRun
  doneCount : Nat
  seen : Nat
  cause : BitVec 8
  addr : DWord
  node : Nat
  closed : Bool
  late : Bool             -- its own time limit has passed (R265, R359)
deriving DecidableEq, Repr

/-- Who started a step table (R334, R335). -/
inductive TableOwner where
  | op (no : Nat)
  | node (graph : Nat) (node : Nat)
deriving DecidableEq, Repr

/-- A step table in flight (R332-R335): the step it has reached and its 64 bytes once it runs, the bytes of a PUT already
sent, the packets of the step not yet acknowledged, and whether the step's work is complete. -/
structure TableRun where
  owner : TableOwner
  launch : Option Nat
  asid : Nat
  die : Nat
  x : Option XReg
  base : DWord
  count : Nat
  cur : Nat
  started : Bool
  entry : List Byte
  sound : Bool
  sentBytes : Nat
  waiting : List Nat
  complete : Bool
  stepSeen : Nat          -- statuses the current step met (R332)
  sentIn : Nat            -- quantum of the last packet of a DET launch's table
  seen : Nat
  cause : BitVec 8
  addr : DWord
  scope : BitVec 3
  start : DWord
  limit : Nat
deriving DecidableEq, Repr

/-! ## The collective engines -/

/-- A packet not yet acknowledged (R322): who waits for it, when it was last sent, how often it was sent again. -/
structure Unacked where
  p : RemotePacket
  op : Option Nat
  table : Option Nat
  sentAt : DWord
  resends : Nat
  held : Bool             -- not injected: the package is not synchronised (R316)
  order : Nat             -- position among the packets sent
deriving DecidableEq, Repr

/-- An ordered delivery point of one domain (R321-R324). Ports 0-15 are input ports, 16-19 local dies. -/
structure DPoint where
  portW : Tbl (BitVec 48)
  waiting : List RemotePacket
  lastW : BitVec 48
  advanced : DWord
  waitSince : DWord
  stallTold : Bool
deriving DecidableEq, Repr

/-- A POD barrier phase at its root (R336): the arrivals as (package, count, root, agreeing). -/
structure PodBar where
  job : Word
  b : Nat
  arrivals : List (Nat × Nat × Nat × Bool)
deriving DecidableEq, Repr

/-- The collective engines and delivery points of the package (R314-R337). -/
structure Coll where
  lastStamp : Tbl (BitVec 48)      -- per die * 16 + domain
  nextReq : Tbl (BitVec 16)        -- per die
  sentW : Tbl (BitVec 48)          -- per port * 16 + domain
  unacked : Tbl Unacked            -- by src * 65536 + request identifier
  points : Tbl DPoint              -- per domain
  replies : List (Nat × Nat × BitVec 16 × Reply)   -- by delivery point (16 for unordered packets) and source (R322)
  excluded : List Nat
  active : List Nat
  podBars : List PodBar
  arrivalsOut : List (Nat × Word × Nat × Nat × Bool)   -- POD arrivals sent to another root package
  releasesOut : List (Nat × Word × Nat × Bool)         -- POD releases sent to other packages
  stallTicks : Nat
  sends : Nat                      -- packets sent so far
deriving DecidableEq, Repr

/-! ## The front end -/

/-- What the front end keeps of a queue (R346-R359). -/
structure Queue where
  known : Bool            -- the front end has read the descriptor (R348)
  qstate : BitVec 8
  lastseq : BitVec 16
  discards : BitVec 32
  rdidx : BitVec 32
  wridx : BitVec 32
  stepc : BitVec 32
  bytec : DWord
  lastlaunch : BitVec 32
  qfcode : BitVec 8
  qfpt : DWord
  qfarg : DWord
  leases : Tbl (List Leaf)
  packet : Option (List Byte)        -- the packet under way, as it was read (R352)
  holding : Option (List LRange)     -- the range list of a LEASE HOLD that is delayed (R383, R386)
  waitFrom : Option DWord  -- since when the packet at RDIDX waits (R356, R383)
  sliceFrom : DWord       -- when a worker took the queue (R363)
  granting : Option Nat   -- the launch whose lease is delayed (R383)
deriving DecidableEq, Repr

/-- A queue as firmware leaves it at I/O-die reset (R348). -/
def Queue.init : Queue :=
  { known := false, qstate := 0, lastseq := 0, discards := 0, rdidx := 0, wridx := 0, stepc := 0, bytec := 0, lastlaunch := 0, qfcode := 0,
    qfpt := 0, qfarg := 0, leases := [], packet := none, holding := none, waitFrom := none, sliceFrom := 0, granting := none }

/-- A core on which victims make room for a waiting workgroup (R364, R374): the workgroup that waits, its PRIO, and the
victims. -/
structure Reserve where
  core : Nat
  launch : Nat
  wg : Nat
  prio : Nat
  victims : List Nat
deriving DecidableEq, Repr

/-- The front end (R362-R374). -/
structure FrontEnd where
  queues : Tbl Queue
  workers : Tbl Nat         -- worker -> queue it serves
  lastServed : Tbl Nat      -- per PRIO, the queue number last served (R363)
  nextLaunch : Word         -- the last identifier assigned (R355)
  placeOrder : Nat          -- placements so far, to tell the most recent (R364)
  drainBudget : Nat         -- µs (R365)
  poolBase : Nat
  poolSize : Nat
  poolUsed : Nat
  remap : Tbl Nat           -- DET logical core -> package core (R376)
  fnPages : Tbl (List Nat)  -- doorbell pages of each virtual function (R399)
  reserve : List Reserve
  stopped : Bool            -- after a lock-step mismatch (R398) or a thermal stop (R405)
deriving DecidableEq, Repr

/-- A unit of migration (R390): the die it goes to, whether its hold is taken, the copies that have failed, whether its
migration is over but for its entry, which has no room yet (R389), and whether its pages have moved. -/
structure MigUnit where
  asid : Nat
  va : Nat
  die : Nat
  held : Bool
  tries : Nat
  done : Bool
  moved : Bool
deriving DecidableEq, Repr

/-- Accesses of the host to an old frame that go to the new one: until the MIGRATED entry at index `note` is consumed (R390). -/
structure Redirect where
  old : Nat
  new : Nat
  size : Nat
  note : Option Nat
deriving DecidableEq, Repr

/-- A range's window of counted accesses (R389): how many, and how many of them the cores of each die issued. -/
structure Window where
  launch : Nat
  range : Nat
  count : Nat
  dies : List Nat
deriving DecidableEq, Repr

/-- Residency, notification and migration (R386-R391). -/
structure Residency where
  windows : List Window
  full : List (Nat × Nat × Nat)             -- windows of 2^20 accesses not yet judged: launch, range, MAJDIE (R389)
  pending : List (Nat × Nat × List Byte)   -- held MISS reports by launch and range
  kept : List (Nat × List Byte)             -- MIGRATED, MIGFAIL and WAITMAP entries not yet written, with their address space
  told : List (Nat × Nat)                   -- WAITMAP entries written: queue and page (R383)
  units : List MigUnit
  redirects : List Redirect
deriving DecidableEq, Repr

/-! ## The package -/

/-- The information block (R400) and boot state (R396). -/
structure Info where
  bootstate : BitVec 8
  podstate : BitVec 8
  pkgnum : BitVec 16
  qtbase : DWord
  asidtab : DWord
  nqhdr : DWord
  evhdr : DWord
  pwrlim : BitVec 32
  pwr : BitVec 32
  tjmax : BitVec 16
  clkmhz : BitVec 16
  corrected : DWord
  attnonce : List Byte
  attctl : BitVec 32
  attreport : DWord
  logaddr : DWord
  porttab : DWord
  bootlog : List Byte
  eccWindow : Nat           -- corrections in the current second (R407)
  eccSince : DWord
deriving DecidableEq, Repr

/-- A Staith service core as far as SUBMIT needs it (R77, R353); the rest PRESUMED from RISC-V, log 5. -/
structure Hart where
  pc : DWord
  regs : Tbl DWord
  asid : Nat
  mtvec : DWord
  mepc : DWord
  mcause : DWord
  mtval : DWord
  mode : BitVec 2         -- privilege mode: 3 machine, 1 supervisor, 0 user
  mstatus : DWord
  medeleg : DWord
  stvec : DWord
  sepc : DWord
  scause : DWord
  stval : DWord
deriving DecidableEq, Repr

/-- A Staith core at reset: machine mode, its other registers zero (log 5). -/
def Hart.init : Hart :=
  { pc := 0, regs := [], asid := 0, mtvec := 0, mepc := 0, mcause := 0, mtval := 0, mode := 3, mstatus := 0, medeleg := 0, stvec := 0,
    sepc := 0, scause := 0, stval := 0 }

/-- Who issues at the next step. -/
inductive Issuer where
  | group (k : Nat)
  | hart (h : Nat)
deriving DecidableEq, Repr

/-- An agenda entry: clocks and pod-time ticks that pass before the event, and the event (log 1, log 4). -/
structure Agenda where
  clocks : Nat
  ticks : Nat
  what : Instr
deriving DecidableEq, Repr

/-- An RWAIT that is parked: its group, the 128-byte line it watches, and whether a write to it has been performed (R330). -/
structure LineWatch where
  group : Nat
  line : Nat
  hit : Bool
deriving DecidableEq, Repr

/-- The whole package. -/
structure State where
  pt : DWord                     -- pod time (R33)
  info : Info
  mem : Bytes                    -- device and host memory by physical address (R12, R382)
  mpoison : Marks                -- poisoned 8-byte words of memory, by address / 8 (R254, R407)
  sk : Tbl SkCell                -- sibling cells by address / 8 (R271)
  cores : Tbl Core               -- by package core number (R11)
  launches : Tbl Launch          -- by launch identifier (R355)
  wgs : Tbl Workgroup            -- by launch identifier * 2^64 + linear index
  groups : Tbl Group             -- by package core number * 64 + group slot (R377)
  ops : Tbl EngineOp             -- operations in flight by operation number
  graphs : Tbl GraphRun
  tables : Tbl TableRun
  reqs : List FarReq             -- requests to homes not yet acknowledged, with the homes' reply caches (R262)
  coll : Coll
  fe : FrontEnd
  res : Residency
  evHeld : List EventRec         -- event records held while the ring is full (R402)
  frozenFns : List Nat           -- frozen host functions (R403)
  hostData : List (Byte × Bool)  -- what the host's last read returned, poison with it (R399, R409)
  harts : Tbl Hart
  lines : List LineWatch         -- lines that parked RWAITs watch (R330)
  agenda : List Agenda           -- the model's own: events that come next (log 1)
  cur : Option Issuer            -- the model's own: who issues next
  opNo : Nat                     -- the model's own: operation, graph and table numbers used
deriving DecidableEq, Repr

/-- Why a step can stop with a fault. -/
inductive Fault where
  /-- Raised by every meaning of a compute-core instruction when no group issues (`cur` names none that is resident
  with its workgroup and launch). No hardware does this: an instruction is run only by a group. Safe. -/
  | noIssuer
deriving DecidableEq, Repr

/-- Why a step can be refused. -/
inductive Refusal where
  /-- Raised by an arm of exec whose instruction has no meaning yet. Safe. -/
  | notModelled (mnemonic : String)
  /-- Raised by step when a Staith hart fetches a RISC-V instruction outside custom-0: the manual gives only SUBMIT of
  the Staith cores' instruction set (R77). Safe. -/
  | riscvBase
  /-- Raised by step when the agenda names an instruction word instead of an event: an instruction runs only by being
  fetched. Safe. -/
  | notAnEvent
deriving DecidableEq, Repr

/-- The information block right after I/O-die reset: booting; fields the boot sets are zero (log 12). -/
def Info.init : Info :=
  { bootstate := 0, podstate := 0, pkgnum := 0, qtbase := 0, asidtab := 0, nqhdr := 0, evhdr := 0, pwrlim := 2000, pwr := 0,
    tjmax := 0, clkmhz := 2500, corrected := 0, attnonce := [], attctl := 0, attreport := 0, logaddr := 0, porttab := 0,
    bootlog := [], eccWindow := 0, eccSince := 0 }

/-- The collective engines after reset. -/
def Coll.init : Coll :=
  { lastStamp := [], nextReq := [], sentW := [], unacked := [], points := [], replies := [], excluded := [], active := [],
    podBars := [], arrivalsOut := [], releasesOut := [], stallTicks := 100 * Config.ticksPerUs, sends := 0 }

/-- The front end after reset: every queue inactive and IDLE (R348), the drain budget at its default (R365). -/
def FrontEnd.init : FrontEnd :=
  { queues := [], workers := [], lastServed := [], nextLaunch := 0, placeOrder := 0, drainBudget := 50, poolBase := 0,
    poolSize := 0, poolUsed := 0, remap := [], fnPages := [], reserve := [], stopped := false }

/-- The package right after I/O-die reset, before its boot chain has run (R396): pod time zero (R33), nothing resident,
nothing written to memory. -/
def State.reset : State :=
  { pt := 0, info := Info.init, mem := [], mpoison := [], sk := [], cores := [], launches := [], wgs := [], groups := [],
    ops := [], graphs := [], tables := [], reqs := [], coll := Coll.init, fe := FrontEnd.init,
    res := ⟨[], [], [], [], [], [], []⟩, evHeld := [], frozenFns := [], hostData := [], harts := [], lines := [], agenda := [], cur := none, opNo := 0 }

end Sys2Proof.Machine
end

