-- ==== Sys2Proof/Machine/Mem.lean ====
section
/-! DEFINITION. Device and host memory by physical address, its poison marks, and the page tables (R382, R384). -/

namespace Sys2Proof.Machine

/-- The canonical form of a byte memory: addresses rising, no entry equal to the zero an unlisted address reads as. -/
abbrev memWf (m : Bytes) : Bool := mapWf (0 : Byte) m

/-- One byte of memory; an unlisted address reads as zero (log 3). -/
def memByte (s : State) (pa : Nat) : Byte := mget 0 s.mem pa

/-- `n` bytes of memory. -/
def memBytes (s : State) (pa n : Nat) : List Byte := mgetRun 0 s.mem pa n

/-- A little-endian number of `n` bytes in memory. -/
def memNat (s : State) (pa n : Nat) : Nat := ofBytes (memBytes s pa n)

/-- Clearing the poison of the 8-byte words that a write of `n` bytes at `a` covers whole (R407), and no other. -/
def clearWhole (p : Marks) (a n : Nat) : Marks :=
  p.filter (fun e => !(decide (a ≤ 8 * e.1) && decide (8 * e.1 + 8 ≤ a + n)))

/-- The watched lines after a write of `n` bytes at `pa` (R330). -/
def hitLines (ls : List LineWatch) (pa n : Nat) : List LineWatch :=
  ls.map (fun l => { l with hit := l.hit || (decide (128 * l.line < pa + n) && decide (pa < 128 * l.line + 128)) })

/-- Writing bytes to memory; words covered whole are fresh (R407). -/
def memWrite (s : State) (pa : Nat) (bs : List Byte) : State :=
  { s with mem := msetRun 0 s.mem pa bs, mpoison := clearWhole s.mpoison pa bs.length, lines := hitLines s.lines pa bs.length }

/-- Writing a little-endian number of `n` bytes. -/
def memPut (s : State) (pa n v : Nat) : State := memWrite s pa (bytesOf n v)

/-- Whether some byte of a range lies in a poisoned word. -/
def poisonIn (p : Marks) (a n : Nat) : Bool :=
  n != 0 && p.any (fun e => e.2 && decide (8 * e.1 < a + n) && decide (a < 8 * e.1 + 8))

/-- Setting or clearing the poison mark of one word. -/
def markWord (p : Marks) (word : Nat) (b : Bool) : Marks := mset false p word b

/-! ## Page tables (R382) -/

/-- The entries of a table and the bytes a leaf of its level maps; a leaf is legal at levels 0 to 2. -/
def levelEntries (lvl : Nat) : Nat := if lvl = 0 then 32 else 512

/-- log2 of the bytes an entry of a level covers. -/
def levelShift (lvl : Nat) : Nat :=
  if lvl = 0 then 16 else if lvl = 1 then 21 else if lvl = 2 then 30 else if lvl = 3 then 39 else 48

/-- Whether a 64-bit address is a sign-extended 57-bit one. -/
def canonical57 (va : Nat) : Bool := decide (va < 2 ^ 56) || decide (2 ^ 64 - 2 ^ 56 ≤ va ∧ va < 2 ^ 64)

/-- Whether a page-table entry is sound at its level (R382). -/
def entrySound (lvl e bramble : Nat) : Bool :=
  let leaf := e.testBit 1
  let reservedZero := e / 2 ^ 52 == 0 && e / 2 ^ 8 % 16 == 0
  e.testBit 0 && reservedZero &&
    (if leaf then
      decide (lvl ≤ 2) && (!e.testBit 7 || (e / 32 % 4 == 0 && bramble / 2 ^ 52 == 0)) &&
        (e / 2 ^ 12 * 2 ^ 12) % 2 ^ levelShift lvl == 0
     else lvl != 0 && e / 4 % 64 == 0)

/-- The walk from a table down the levels: the leaf that maps the address, if every entry met is sound. -/
def walkFrom (s : State) (va : Nat) : Nat → Nat → Option Leaf
  | fuel, tbl =>
    match fuel with
    | 0 => none
    | lvl + 1 =>
      let i := va / 2 ^ levelShift lvl % levelEntries lvl
      let e := memNat s (tbl + 8 * i) 8
      let br := memNat s (tbl + 8 * levelEntries lvl + 8 * i) 8
      if !entrySound lvl e br then none
      else
        let pa := e / 2 ^ 12 * 2 ^ 12
        if e.testBit 1 then
          some { va := va / 2 ^ levelShift lvl * 2 ^ levelShift lvl, size := 2 ^ levelShift lvl, pa := pa,
                 r := e.testBit 2, w := e.testBit 3, x := e.testBit 4, type := e / 32 % 4, sk := e.testBit 7,
                 bramble := br }
        else walkFrom s va lvl pa

/-- The leaf that maps an address in an address space, as its page table stands (R382, R400 ASIDTAB). -/
def walk (s : State) (asid va : Nat) : Option Leaf :=
  let root := memNat s (s.info.asidtab.toNat + 8 * asid) 8
  if !canonical57 va || !root.testBit 0 then none
  else walkFrom s va 5 (root / 2 ^ 12 % 2 ^ 40 * 2 ^ 12)

/-- The 8-byte words of a table of `n` at an address that hold a listed byte: all that are not zero. -/
def listedWords (m : Bytes) (lo n : Nat) : List Nat :=
  m.foldl (fun t c => if lo ≤ c.1 ∧ c.1 < lo + 8 * n ∧ !t.contains ((c.1 - lo) / 8) then (c.1 - lo) / 8 :: t else t) []

/-- Whether some sound leaf below a table maps a frame that holds a physical address as sibling-keeping. -/
def skUnder (s : State) (pa : Nat) : Nat → Nat → Bool
  | 0, _ => false
  | lvl + 1, tbl => (listedWords s.mem tbl (levelEntries lvl)).any (fun i =>
      let e := memNat s (tbl + 8 * i) 8
      let next := e / 2 ^ 12 % 2 ^ 40 * 2 ^ 12
      entrySound lvl e (memNat s (tbl + 8 * levelEntries lvl + 8 * i) 8) &&
        (if e.testBit 1 then e.testBit 7 && decide (next ≤ pa) && decide (pa < next + 2 ^ levelShift lvl) else skUnder s pa lvl next))

/-- Whether a physical address lies on a page that some address space has set SK on (R269, R382). -/
def skAt (s : State) (pa : Nat) : Bool :=
  (listedWords s.mem s.info.asidtab.toNat 65536).any (fun a =>
    let root := memNat s (s.info.asidtab.toNat + 8 * a) 8
    root.testBit 0 && skUnder s pa 5 (root / 2 ^ 12 % 2 ^ 40 * 2 ^ 12))

/-- The leaf of a list that covers an address. -/
def findLeaf (ls : List Leaf) (va : Nat) : Option Leaf :=
  ls.find? (fun l => decide (l.va ≤ va) && decide (va < l.va + l.size))

/-- The physical address of an address within a leaf. -/
def leafPa (l : Leaf) (va : Nat) : Nat := l.pa + (va - l.va)

/-- The pages that cover [va, va + n), by walking each in turn: every page's address with what the walk found. -/
def walkRange (s : State) (asid : Nat) : Nat → Nat → Nat → List (Nat × Option Leaf)
  | 0, _, _ => []
  | fuel + 1, va, n =>
    if n = 0 then []
    else match walk s asid va with
      | some l =>
        let step := l.va + l.size - va
        (l.va, some l) :: (if n ≤ step then [] else walkRange s asid fuel (va + step) (n - step))
      | none =>
        let base := alignDown va 65536
        let step := base + 65536 - va
        (base, none) :: (if n ≤ step then [] else walkRange s asid fuel (va + step) (n - step))

/-- The pages that cover a range. -/
def rangePages (s : State) (asid va n : Nat) : List (Nat × Option Leaf) := walkRange s asid (n / 65536 + 2) va n

end Sys2Proof.Machine
end

