-- ==== Sys2Proof/Machine/Home.lean ====
section
/-! DEFINITION. What memory's homes do: plain reads and writes with poison (R254, R407) and sibling-keeping cells
(R269-R281), and the read-modify-write operations shared by SLDA, VATOM, FAT and FRED (R162, R195, R260). -/

namespace Sys2Proof.Machine

/-- A byte and whether it is carried as poisoned (R254). -/
abbrev PByte := Byte × Bool

/-- Statuses met, a bit each (R253, R254): 0 OK, 1 POISON, 2 SIBLINGS, 3 OVERFLOW, 4 FAULT. -/
abbrev Seen := Nat

def seenOK : Seen := 1
def seenPOISON : Seen := 2
def seenSIBLINGS : Seen := 4
def seenOVERFLOW : Seen := 8
def seenFAULT : Seen := 16

/-- The status of the highest rank among those met: FAULT, POISON, OVERFLOW, SIBLINGS, OK (R254). -/
def statusOf (seen : Seen) : Nat :=
  if seen.testBit 4 then 4 else if seen.testBit 1 then 1 else if seen.testBit 3 then 3 else if seen.testBit 2 then 2 else 0

/-- The statuses of one element: OK when it met no other (R253). -/
def elemSeen (seen : Seen) : Seen := if seen / 2 = 0 then seenOK else seen / 2 * 2

/-! ## Sibling-keeping cells -/

/-- A cell at its home; a cell nothing has written through sibling operations holds one sibling, its 8 bytes as they
stand (R270). The first 8 bytes in memory are always sibling 0's. -/
def readCell (s : State) (cell : Nat) : SkCell :=
  (tget s.sk cell).getD
    ⟨0, 0, 0, [⟨BitVec.ofNat 64 (memNat s (8 * cell) 8), 0, 0, mget false s.mpoison cell⟩]⟩

/-- Writing a cell's state; its memory word is sibling 0 (R275). -/
def putCell (s : State) (cell : Nat) (c : SkCell) : State :=
  let x := c.sibs.headD ⟨0, 0, 0, false⟩
  let s1 := memPut s (8 * cell) 8 x.v.toNat
  { s1 with sk := tput s1.sk cell c, mpoison := markWord s1.mpoison cell x.poison }

/-- advance() of R274. -/
def cellAdvance (c : SkCell) : SkCell :=
  { c with sibs := c.sibs.map (fun x => if x.g = c.g - 1 then { x with g := c.g, s := 0 } else x),
           pmax := c.ctr, g := c.g + 1, ctr := 0 }

/-- Adding a sibling with a fresh stamp: the end of R273 and R279. -/
def cellAdd (c : SkCell) (v : DWord) (poison : Bool) : SkCell :=
  let c := if c.ctr = BitVec.allOnes 24 then cellAdvance c else c
  { c with ctr := c.ctr + 1, sibs := c.sibs ++ [⟨v, c.g, c.ctr + 1, poison⟩] }

/-- Whether a token supersedes a sibling (R273). -/
def superseded (c : SkCell) (token : Option DWord) (x : Sibling) : Bool :=
  match token with
  | none => false
  | some t =>
    let g : BitVec 16 := t.extractLsb' 48 16
    let st : BitVec 24 := t.extractLsb' 24 24
    let p : BitVec 24 := t.extractLsb' 0 24
    if g ≠ c.g ∧ g ≠ c.g - 1 then false
    else (x.g == g && decide (x.s ≤ st)) || (x.g == g - 1 && decide (x.s ≤ p))

/-- A write at the home (R273): the new cell, or nothing when it is refused. -/
def cellWrite (c : SkCell) (v : DWord) (poison : Bool) (token : Option DWord) : Option SkCell :=
  let keep := c.sibs.filter (fun x => !superseded c token x)
  if 4 < keep.length + 1 then none else some (cellAdd { c with sibs := keep } v poison)

/-- The fold of R279 over the sibling values in dot order. -/
def recFold (op : Nat) (signed : Bool) : List DWord → DWord
  | [] => 0
  | v :: vs =>
    let lt (a b : DWord) : Bool := if signed then decide (a.toInt < b.toInt) else decide (a.toNat < b.toNat)
    if op = 0 then vs.foldl (· + ·) v
    else if op = 1 then vs.foldl (fun a b => if lt b a then b else a) v
    else if op = 2 then vs.foldl (fun a b => if lt a b then b else a) v
    else if op = 3 then vs.foldl (· &&& ·) v
    else if op = 4 then vs.foldl (· ||| ·) v
    else if op = 5 then vs.foldl (· ^^^ ·) v
    else if op = 6 then v
    else vs.foldl (fun _ b => b) v

/-- A reconcile (R279, R408): the new cell and the statuses met. A poisoned sibling gives POISON where it is the only one too, of which R279's
steps say nothing (DEDUCED, log 111). -/
def cellReconcile (c : SkCell) (op : Nat) (signed : Bool) : SkCell × Seen :=
  if c.sibs.any (fun x => x.poison) then (c, seenPOISON)
  else if c.sibs.length ≤ 1 then (c, seenOK)
  else (cellAdd { c with sibs := [] } (recFold op signed (c.sibs.map (fun x => x.v))) false, seenOK)

/-- The context token of a cell (R272). -/
def cellToken (c : SkCell) : DWord := (c.g ++ c.ctr ++ c.pmax : BitVec 64)

/-! ## Queue descriptors (R346-R348) -/

/-- The software's fields of a descriptor as memory holds them. -/
structure QDesc where
  rbase : Nat
  logsize : Nat
  prio : Nat
  active : Bool
  submit : Bool
  slice : Nat
  asid : Nat
  wrmir : Nat
deriving DecidableEq, Repr

/-- The address of descriptor q. -/
def qAddr (s : State) (q : Nat) : Nat := s.info.qtbase.toNat + 128 * q

/-- A descriptor's software fields; one with a reserved field nonzero or a field out of range is inactive (R347). -/
def qDesc (s : State) (q : Nat) : QDesc :=
  let a := qAddr s q
  let rbase := memNat s a 8
  let logsize := memNat s (a + 8) 1
  let prio := memNat s (a + 9) 1
  let ctl := memNat s (a + 10) 1
  let slice := memNat s (a + 12) 4
  let sound := prio / 16 == 0 && ctl / 4 == 0 && memNat s (a + 53) 3 == 0 && memNat s (a + 72) 56 == 0 &&
    decide (2 ≤ logsize) && decide (logsize ≤ 16) && decide (1 ≤ slice) && decide (slice ≤ 2 ^ 20) &&
    rbase % (64 * 2 ^ logsize) == 0 && rbase % 4096 == 0
  { rbase := rbase, logsize := logsize, prio := prio, active := decide (q < Config.queues) && ctl.testBit 0 && sound,
    submit := ctl.testBit 1, slice := slice, asid := memNat s (a + 16) 2, wrmir := memNat s (a + 32) 4 }

/-- Whether the front end has a packet of a queue under way: one it has read and neither completed nor faulted (R348). -/
def underWay (x : Queue) : Bool := x.qstate != 3 && (x.packet.isSome || x.stepc != 0 || x.bytec != 0 || x.waitFrom.isSome)

/-- Software's write of `n` bytes at an address has set ACTIVE of a queue that the front end keeps as active: it reads the whole descriptor
at the next submission or reconcile pass, as after any activation (R348). A packet under way is finished first. -/
def activated (before after : State) (a n : Nat) : State :=
  let base := before.info.qtbase.toNat
  let q := (a - base) / 128
  match tget after.fe.queues q with
  | some x =>
    if base ≤ a ∧ a < base + 128 * (q + 1) ∧ 0 < n ∧ x.known ∧ !underWay x ∧ !(qDesc before q).active ∧ (qDesc after q).active then
      { after with fe := { after.fe with
          queues := tput after.fe.queues q { x with known := false, packet := none },
          workers := after.fe.workers.filter (fun p => p.2 != q) } }
    else after
  | none => after

/-! ## Plain accesses -/

/-- The runs of bytes that lie in one 8-byte word. -/
def chunks (pa : Nat) : List PByte → List (Nat × List PByte)
  | [] => []
  | d :: ds =>
    match chunks (pa + 1) ds with
    | (a, c) :: t => if a / 8 = pa / 8 then (pa, d :: c) :: t else (pa, [d]) :: (a, c) :: t
    | [] => [(pa, [d])]

/-- A plain read of `n` bytes on a page as one element: the bytes with their poison, and the statuses met (R254, R281). -/
def homeRead (s : State) (sk : Bool) (pa n : Nat) : List PByte × Seen :=
  let bs := (List.range n).map (fun k => (memByte s (pa + k), mget false s.mpoison ((pa + k) / 8)))
  let cells := (List.range n).map (fun k => (pa + k) / 8)
  (bs, elemSeen ((if bs.any (fun b => b.2) then seenPOISON else 0) |||
       (if sk && cells.any (fun c => decide (1 < (readCell s c).sibs.length)) then seenSIBLINGS else 0)))

/-- Whether a launch's lease holds a leaf that maps a physical address as sibling-keeping: a write of its page table has no effect on it
(R384). -/
def leasedSk (s : State) (pa : Nat) : Bool :=
  s.launches.any (fun p => p.2.leaves.any (fun f => f.sk && decide (f.pa ≤ pa) && decide (pa < f.pa + f.size)))

/-- Whether a page is sibling-keeping for whoever accesses it: by a page table as it stands, or by a lease. -/
def skHeld (s : State) (pa : Nat) : Bool := skAt s pa || leasedSk s pa

/-- The sibling state of cells after a write: a cell of a page that ceases to be sibling-keeping keeps sibling 0 alone, its word in memory, and one
of a page that becomes so starts with one sibling (R270, R275). An entry cleared of V, its SK left set, ends it too (DEDUCED, log 45). -/
def keptCells (before after : State) : Tbl SkCell := after.sk.filter (fun e => skHeld before (8 * e.1) && skHeld after (8 * e.1))

/-- One run within a word written on a page without SK: poison travels with the bytes; a whole clean word is fresh. Such a
word keeps no sibling state, a write of a page table may clear SK (R270, log 45), and one of a queue descriptor may set ACTIVE (R348). -/
def writePlain (s : State) (a : Nat) (c : List PByte) : State :=
  let s0 := memWrite { s with sk := tdel s.sk (a / 8) } a (c.map (fun b => b.1))
  let s1 := { s0 with sk := keptCells s s0 }
  activated s (if c.any (fun b => b.2) then { s1 with mpoison := markWord s1.mpoison (a / 8) true } else s1) a c.length

/-- One run within a cell written on a page with SK: a blind write of the whole cell, or TYPE (R281). -/
def writeSk (s : State) (a : Nat) (c : List PByte) : State × Seen :=
  if c.length ≠ 8 then (s, seenFAULT)
  else
    match cellWrite (readCell s (a / 8)) (BitVec.ofNat 64 (ofBytes (c.map (fun b => b.1)))) (c.any (fun b => b.2)) none with
    | none => (s, seenOVERFLOW)
    | some k => (putCell s (a / 8) k, seenOK)

/-- A plain write on a page (R254, R281). FAULT here is cause TYPE. -/
def homeWrite (s : State) (sk : Bool) (pa : Nat) (ds : List PByte) : State × Seen :=
  (chunks pa ds).foldl
    (fun p ac => if sk then let r := writeSk p.1 ac.1 ac.2; (r.1, p.2 ||| r.2) else (writePlain p.1 ac.1 ac.2, p.2 ||| seenOK))
    (s, 0)

/-- Clean bytes. -/
def clean (bs : List Byte) : List PByte := bs.map (fun b => (b, false))

/-! ## Read-modify-writes (R162) -/

/-- The new value of an atomic of `w` bits; `v` is the operand, `c` the compare value or bound. -/
def atomNew (aop w : Nat) (signed : Bool) (old v c : Nat) : Nat :=
  let rd (x : Nat) : Int := if signed then sextI w x else (x % 2 ^ w : Nat)
  let wr (x : Int) : Nat := (x % (2 ^ w : Nat)).toNat
  let lo : Int := if signed then -(2 ^ (w - 1)) else 0
  let hi : Int := if signed then 2 ^ (w - 1) - 1 else 2 ^ w - 1
  if aop = 0 then (old + v) % 2 ^ w
  else if aop = 1 then (old + 2 ^ w - v % 2 ^ w) % 2 ^ w
  else if aop = 2 then (if rd v < rd old then v else old)
  else if aop = 3 then (if rd old < rd v then v else old)
  else if aop = 4 then old &&& v
  else if aop = 5 then old ||| v
  else if aop = 6 then old ^^^ v
  else if aop = 7 then v
  else if aop = 8 then (if old = c then v else old)
  else if aop = 9 then atomAddF f32 old v
  else if aop = 10 then atomAddF f64 old v
  else if aop = 11 then (if rd c ≤ rd old then 0 else (old + 1) % 2 ^ w)
  else (if rd c ≤ rd old then old else wr (min (max lo (min hi (rd old + rd v))) (rd c)))

end Sys2Proof.Machine
end

