-- ==== Sys2Proof/Machine/Events.lean ====
section
/-! DEFINITION. The event ring and its records (R401, R402), rings in memory (R387), and the launch's fault record and halt
(R240, R266). -/

namespace Sys2Proof.Machine

/-! ## Rings with a 64-byte header (R387, R401) -/

/-- NCTL.ENABLE. -/
def ringEnabled (s : State) (hdr : Nat) : Bool := (memNat s (hdr + 9) 1).testBit 0

/-- WRIDX - RDIDX equals 2^LOGSIZE modulo 2^32. -/
def ringFull (s : State) (hdr : Nat) : Bool :=
  (memNat s (hdr + 16) 4 + 2 ^ 32 - memNat s (hdr + 20) 4) % 2 ^ 32 == 2 ^ memNat s (hdr + 8) 1

/-- Writing one entry and then WRIDX. -/
def ringPut (s : State) (hdr : Nat) (entry : List Byte) : State :=
  let wr := memNat s (hdr + 16) 4
  let slot := memNat s hdr 8 + entry.length * (wr % 2 ^ memNat s (hdr + 8) 1)
  memPut (memWrite s slot entry) (hdr + 16) 4 (wr + 1)

/-- Adding one to a 4-byte counter of a header. -/
def ringBump (s : State) (hdr off : Nat) : State := memPut s (hdr + off) 4 (memNat s (hdr + off) 4 + 1)

/-! ## Event records (R401, R402) -/

/-- The 64 bytes of an event record. -/
def eventBytes (r : EventRec) : List Byte :=
  bytesOf 8 r.pt.toNat ++ [r.cause, r.srckind] ++ bytesOf 2 0 ++ bytesOf 4 r.launch.toNat ++ bytesOf 8 r.src.toNat ++
    bytesOf 8 r.arg0.toNat ++ bytesOf 8 r.arg1.toNat ++ bytesOf 24 0

/-- The arbiter receives a record: written, held when the ring is full, or counted in OVERFLOW (R402). With ENABLE clear
nothing is written (DEDUCED, log 14), nor by a package whose boot has failed (R396). -/
def raiseEvent (s : State) (r : EventRec) : State :=
  let hdr := s.info.evhdr.toNat
  if s.info.bootstate = 2 || !ringEnabled s hdr then s
  else if s.evHeld = [] ∧ !ringFull s hdr then ringPut s hdr (eventBytes r)
  else if s.evHeld.length < 256 then
    memPut { s with evHeld := s.evHeld ++ [r] } (hdr + 28) 4 (s.evHeld.length + 1)
  else ringBump s hdr 24

/-- Held records are written in their order as room appears (R402). -/
def drainEvents : Nat → State → State
  | 0, s => s
  | n + 1, s =>
    match s.evHeld with
    | [] => s
    | r :: t =>
      let hdr := s.info.evhdr.toNat
      if !ringEnabled s hdr || ringFull s hdr then s
      else drainEvents n (memPut (ringPut { s with evHeld := t } hdr (eventBytes r)) (hdr + 28) 4 t.length)

/-- An event record made now. -/
def eventNow (s : State) (cause srckind : Nat) (launch src arg0 arg1 : Nat) : EventRec :=
  { pt := s.pt, cause := BitVec.ofNat 8 cause, srckind := BitVec.ofNat 8 srckind, launch := BitVec.ofNat 32 launch,
    src := BitVec.ofNat 64 src, arg0 := BitVec.ofNat 64 arg0, arg1 := BitVec.ofNat 64 arg1 }

/-! ## Counted accesses (R389) -/

/-- The first byte that a run of bytes asks of each 128-byte line it meets. -/
def lineStarts (va n : Nat) : List Nat :=
  (List.range ((va + n + 127) / 128 - va / 128)).map (fun j => if j = 0 then va else 128 * (va / 128 + j))

/-- The lowest die with the most accesses. -/
def majDie (dies : List Nat) : Nat := (List.range 4).foldl (fun b d => if dies.getD b 0 < dies.getD d 0 then d else b) 0

/-- One line request of a launch at an address, issued by the cores of a die or by none, counted for the lowest range that holds it; with
2^20 of them the window closes and counting restarts. -/
def countLine (s : State) (lid : Nat) (die : Option Nat) (va : Nat) : State :=
  match tget s.launches lid with
  | none => s
  | some l =>
    match (List.range l.ranges.length).find? (fun i => match l.ranges[i]? with
      | some r => decide (r.base.toNat ≤ va) && decide (va < r.base.toNat + r.len)
      | none => false) with
    | none => s
    | some i =>
      let w := (s.res.windows.find? (fun w => w.launch == lid && w.range == i)).getD ⟨lid, i, 0, [0, 0, 0, 0]⟩
      let rest := s.res.windows.filter (fun w => !(w.launch == lid && w.range == i))
      let dies := match die with
        | some d => setAt w.dies d (w.dies.getD d 0 + 1)
        | none => w.dies
      if w.count + 1 < 2 ^ 20 then { s with res := { s.res with windows := { w with count := w.count + 1, dies := dies } :: rest } }
      else { s with res := { s.res with windows := rest, full := s.res.full ++ [(lid, i, majDie dies)] } }

/-- The line requests of a run of bytes. -/
def countLines (s : State) (lid : Nat) (die : Option Nat) (va n : Nat) : State :=
  (lineStarts va n).foldl (fun s a => countLine s lid die a) s

/-! ## The fault record and the halt of a launch (R240, R266) -/

/-- What a fault record says (R266). -/
structure FaultInfo where
  cause : Nat
  exited : Bool
  status : Nat
  core : Nat
  slot : Nat
  lane : Nat
  x : Nat
  y : Nat
  z : Nat
  pc : Nat
  addr : Nat
  tag : Nat
deriving DecidableEq, Repr

/-- The 64 bytes of a fault record (R266). -/
def faultBytes (pt : DWord) (lid : Nat) (f : FaultInfo) : List Byte :=
  bytesOf 8 pt.toNat ++ bytesOf 1 f.cause ++ bytesOf 1 ((if f.exited then 1 else 0) + 2) ++ bytesOf 1 f.status ++
    bytesOf 1 0 ++ bytesOf 4 lid ++ bytesOf 2 f.core ++ bytesOf 1 f.slot ++ bytesOf 1 f.lane ++ bytesOf 4 f.x ++
    bytesOf 4 f.y ++ bytesOf 4 f.z ++ bytesOf 8 f.pc ++ bytesOf 8 f.addr ++ bytesOf 4 f.tag ++ bytesOf 4 0 ++ bytesOf 8 0

/-- The front end writes bytes for a launch at a virtual address of an address space, when its page exists and may be written; the access is
counted (R389). -/
def vaWrite (s : State) (lid asid va : Nat) (bs : List Byte) : State :=
  match walk s asid va with
  | some l => if l.w then countLines (homeWrite s l.sk (leafPa l va) (clean bs)).1 lid none va bs.length else s
  | none => s

/-- A fault of a launch: the first is recorded in full, a later one counts (R266). The record lies where the LAUNCH packet
says; with FAULTVA 0 there is none (R355). -/
def recordFault (s : State) (lid : Nat) (f : FaultInfo) : State :=
  match tget s.launches lid with
  | none => s
  | some l =>
    if l.faulted then
      let n := l.faultCount + 1
      let s1 := { s with launches := tput s.launches lid { l with faultCount := n } }
      if l.faultva = 0 then s1 else vaWrite s1 lid l.asid (l.faultva.toNat + 52) (bytesOf 4 n.toNat)
    else
      let s1 := { s with launches := tput s.launches lid { l with faulted := true } }
      if l.faultva = 0 then s1 else vaWrite s1 lid l.asid l.faultva.toNat (faultBytes s.pt lid f)

/-- Freezing every group of a launch (R266). -/
def freezeGroups (gs : Tbl Group) (lid : Nat) : Tbl Group :=
  gs.map (fun p => if p.2.launch = lid then (p.1, { p.2 with status := .frozen }) else p)

/-- Halting a launch: issue stops in all its groups, which are frozen (R266). -/
def haltLaunch (s : State) (lid : Nat) : State :=
  match tget s.launches lid with
  | none => s
  | some l =>
    let l' := if l.status = .running ∨ l.status = .granting then { l with status := .halted } else l
    { s with launches := tput s.launches lid l', groups := freezeGroups s.groups lid }

/-- SRC of a fault's event record: of the collective engines the local die of the delivery points' numbering, else package core and group
(R401, R410). -/
def faultSrc (f : FaultInfo) (srckind : Nat) : Nat := if srckind = 2 then 16 + f.core / 48 else f.core * 64 + f.slot

/-- A fault that halts: the record, the event record of its source, the halt. -/
def faultAndHalt (s : State) (lid : Nat) (f : FaultInfo) (srckind arg0 arg1 : Nat) : State :=
  let first := match tget s.launches lid with
    | some l => !l.faulted
    | none => false
  let s1 := haltLaunch (recordFault s lid f) lid
  if first then raiseEvent s1 (eventNow s f.cause srckind lid (faultSrc f srckind) arg0 arg1) else s1

end Sys2Proof.Machine
end

