-- ==== Sys2Proof/Machine/Ops.lean ====
section
/-! DEFINITION. The shared operations of a group's instructions: who issues, registers, scratchpad access and its checks
(R160, R194), retiring, taking a trap and returning from one (R238-R242), the operand log (R241), and issue itself. -/

namespace Sys2Proof.Machine

/-! ## Causes (R244) -/

def cILLEGAL : Nat := 0x01
def cOPERAND : Nat := 0x02
def cPRIV : Nat := 0x03
def cBOUNDS : Nat := 0x04
def cALIGN : Nat := 0x05
def cTAPE : Nat := 0x06
def cPOISON : Nat := 0x07
def cFP : Nat := 0x08
def cJOIN : Nat := 0x09
def cTRAPI : Nat := 0x0A
def cFRAME : Nat := 0x0B
def cSHAPE : Nat := 0x0C
def cLEASE : Nat := 0x20
def cTYPE : Nat := 0x21
def cREMOTE : Nat := 0x22
def cSTALL : Nat := 0x23
def cUNCORR : Nat := 0x24
def cTIMEOUT : Nat := 0x25

/-! ## Tables of the package -/

/-- The key of a workgroup: launch identifier and linear index. -/
def wgKey (launch idx : Nat) : Nat := launch * 2 ^ 64 + idx

/-- The workgroup key of a group. -/
def gWg (g : Group) : Nat := wgKey g.launch g.wg

/-- The core of a group's key, and its slot there. -/
def coreOf (k : Nat) : Nat := k / Config.slotsPerCore
/-- The slot of a group's key on its core. -/
def slotOf (k : Nat) : Nat := k % Config.slotsPerCore

/-- A core; a core nothing has touched is as at reset. -/
def getCore (s : State) (n : Nat) : Core := (tget s.cores n).getD Core.init

def putCore (s : State) (n : Nat) (c : Core) : State := { s with cores := tput s.cores n c }
def putGroup (s : State) (k : Nat) (g : Group) : State := { s with groups := tput s.groups k g }
def putWg (s : State) (key : Nat) (w : Workgroup) : State := { s with wgs := tput s.wgs key w }
def putLaunch (s : State) (lid : Nat) (l : Launch) : State := { s with launches := tput s.launches lid l }
def putOp (s : State) (n : Nat) (o : EngineOp) : State := { s with ops := tput s.ops n o }

/-- An event that comes next: at the head of the agenda. -/
def pushNow (s : State) (i : Instr) : State := { s with agenda := ⟨0, 0, i⟩ :: s.agenda }

/-! ## The issuing group -/

/-- An issuing group with its workgroup, its launch, the instruction and the instruction's length in bytes. -/
structure Ctx where
  k : Nat
  g : Group
  w : Workgroup
  l : Launch
  inst : Instr
  len : Nat
deriving DecidableEq, Repr

/-- Bytes of an instruction (R56). -/
def instBytes (i : Instr) : Nat := 4 * (encode i).length

/-- A resident group with its workgroup and launch. -/
def groupCtx (s : State) (k : Nat) (i : Instr) : Option Ctx :=
  match tget s.groups k with
  | none => none
  | some g =>
    match tget s.wgs (gWg g), tget s.launches g.launch with
    | some w, some l => some ⟨k, g, w, l, i, instBytes i⟩
    | _, _ => none

/-- The issuing group. -/
def ctxOf (s : State) (i : Instr) : Option Ctx :=
  match s.cur with
  | some (.group k) => groupCtx s k i
  | _ => none

/-- Whether the launch is deterministic (R113 DT). -/
def Ctx.det (c : Ctx) : Bool := c.l.kern.det

/-- Whether a launch is deterministic. -/
def launchDet (s : State) (lid : Nat) : Bool :=
  match tget s.launches lid with
  | some l => l.kern.det
  | none => false

/-! ## Scalar registers (R60, R173, R176) -/

/-- Scalar register n. -/
def sreg (g : Group) (n : Nat) : DWord := mget 0 g.sregs n
/-- Writing scalar register n. -/
def setS (g : Group) (n : Nat) (v : DWord) : Group := { g with sregs := mset 0 g.sregs n v }
/-- The pair sN:sN+1 as a mask (R7). -/
def spair (g : Group) (n : Nat) : Mask := Mask.ofPair (sreg g n) (sreg g (n + 1))
/-- Writing a pair. -/
def setPair (g : Group) (n : Nat) (m : Mask) : Group := setS (setS g n m.lo) (n + 1) m.hi
/-- EXEC (R176). -/
def execMask (g : Group) : Mask := spair g 158
/-- VCC. -/
def vccMask (g : Group) : Mask := spair g 156
/-- A scalar source: a register, or the literal (R60). -/
def sval (g : Group) (lit : Lit) (f : BitVec 8) : DWord := if f = 255 then lit.getD 0 else sreg g f.toNat

/-! ## Translation registers, tile controls, vector registers -/

/-- Translation register n. -/
def xreg (g : Group) (n : Nat) : XReg := mget XReg.invalid g.xregs n
/-- Writing translation register n. -/
def setX (g : Group) (n : Nat) (x : XReg) : Group := { g with xregs := mset XReg.invalid g.xregs n x }
/-- Tile control n. -/
def tctl (g : Group) (n : Nat) : DWord := mget 0 g.tc n
/-- Vector register n. -/
def vreg (g : Group) (n : Nat) : VReg := mget VReg.zero g.vregs n
/-- Writing vector register n. -/
def setV (g : Group) (n : Nat) (v : VReg) : Group := { g with vregs := mset VReg.zero g.vregs n v }

/-! ## Scratchpad -/

/-- The allocation's size (R112 SCRATCH). -/
def Ctx.size (c : Ctx) : Nat := c.l.kern.scratch

/-- A byte of the newest uncommitted store that covers an offset (R206, R380). -/
def detByte : List (Nat × List PByte) → Nat → Option PByte
  | [], _ => none
  | (o, bs) :: t, a =>
    match detByte t a with
    | some b => some b
    | none => if o ≤ a ∧ a < o + bs.length then bs[a - o]? else none

/-- The poison mark of an 8-byte word after one more store (R160, R254). -/
def markAfter (word : Nat) (p : Bool) (st : Nat × List PByte) : Bool :=
  if (List.range 8).any (fun j => let a := 8 * word + j
      decide (st.1 ≤ a) && (match st.2[a - st.1]? with
        | some b => b.2
        | none => false)) then true
  else if st.1 ≤ 8 * word ∧ 8 * word + 8 ≤ st.1 + st.2.length then false
  else p

/-- The scratchpad and its poison as the groups of a workgroup see them: in a DET launch, during a quantum, as the last commit left
them (R380). -/
def seenScratch (w : Workgroup) : Bytes × Marks := w.shown.getD (w.scratch, w.spoison)

/-- Whether a word of scratchpad is poisoned as a group sees it: its own uncommitted stores count. -/
def wordPoison (w : Workgroup) (g : Group) (word : Nat) : Bool :=
  g.detBuf.foldl (markAfter word) (mget false (seenScratch w).2 word)

/-- One byte of a workgroup's scratchpad as one of its groups reads it: its own uncommitted stores first. -/
def scratchByte (w : Workgroup) (g : Group) (a : Nat) : PByte :=
  (match detByte g.detBuf a with
    | some b => b.1
    | none => mget 0 (seenScratch w).1 a, wordPoison w g (a / 8))

/-- Reading a workgroup's scratchpad through the state. -/
def scratchRead (s : State) (g : Group) (a n : Nat) : List PByte :=
  match tget s.wgs (gWg g) with
  | some w => (List.range n).map (fun j => scratchByte w g (a + j))
  | none => []

/-- A little-endian number in scratchpad. -/
def scratchNat (s : State) (g : Group) (a n : Nat) : Nat := ofBytes ((scratchRead s g a n).map (fun b => b.1))

/-- The watched units after a write of `n` bytes at offset `a` (R230). -/
def hitUnits (ws : List Watch) (a n : Nat) : List Watch :=
  ws.map (fun x => { x with hit := x.hit || (decide (8 * x.unit < a + n) && decide (a < 8 * x.unit + 8)) })

/-- Writing a workgroup's scratchpad: a whole 8-byte word written is fresh (R160). -/
def wgWrite (w : Workgroup) (a : Nat) (bs : List Byte) : Workgroup :=
  { w with scratch := msetRun 0 w.scratch a bs, spoison := clearWhole w.spoison a bs.length, watch := hitUnits w.watch a bs.length }

/-- Writing scratchpad bytes that may be poisoned (R254): a word that receives a poisoned byte is marked. -/
def wgWriteP (w : Workgroup) (a : Nat) (ds : List PByte) : Workgroup :=
  (chunks a ds).foldl
    (fun w ac =>
      let w1 := wgWrite w ac.1 (ac.2.map (fun b => b.1))
      if ac.2.any (fun b => b.2) then { w1 with spoison := markWord w1.spoison (ac.1 / 8) true } else w1) w

/-- Writing scratchpad in the state, at once. -/
def scratchPut (s : State) (key a : Nat) (bs : List Byte) : State :=
  match tget s.wgs key with
  | some w => putWg s key (wgWrite w a bs)
  | none => s

/-- A thread store of a group: at once, or in a DET launch into the group's buffer until the commit (R206). -/
def threadStore (s : State) (g : Group) (det : Bool) (a : Nat) (bs : List Byte) : State × Group :=
  if det then (s, { g with detBuf := g.detBuf ++ [(a, clean bs)] }) else (scratchPut s (gWg g) a bs, g)

/-- A thread access of one lane, or of the scalar thread: lane, offset, width. -/
structure Acc where
  lane : Nat
  off : Int
  w : Nat
deriving DecidableEq, Repr

/-- Whether a tape entry stops a thread access of [lo, hi) (R24). -/
def tapeStops (e : TapeEntry) (lo hi : Nat) (write : Bool) : Bool :=
  (e.write || write) && decide (e.lo < hi) && decide (lo < e.hi)

/-- Whether a tape entry stops an access of group `k`; entries of the group's own tile operations are passed over by a tile access of
it (R24, R292). In a DET launch an entry of an operation not yet issued at a commit, and one of a tile operation, stops only its own group
(R380; DEDUCED, log 84). -/
def tapeMeets (k lo hi : Nat) (write tile : Bool) (e : TapeEntry) : Bool :=
  tapeStops e lo hi write && !(tile && e.tileOf == some k) && (e.own.isNone || e.own == some k)

/-- Whether an access of group `k` meets the tape table. -/
def tapeHit (core : Core) (k lo hi : Nat) (write tile : Bool) : Bool := core.tape.any (tapeMeets k lo hi write tile)

/-- A failed check: cause, TVAL and failing lanes. -/
structure Miss where
  cause : Nat
  tval : DWord
  lanes : Mask
deriving DecidableEq, Repr

/-- The accesses that fail one check, as a miss. -/
def missOf (cause : Nat) (vector : Bool) (bad : List Acc) : Option Miss :=
  match bad with
  | [] => none
  | a :: _ => some ⟨cause, dword a.off, if vector then lanesMask (laneIds.map (fun l => bad.any (fun b => b.lane == l))) else 0⟩

/-- The checks of R160 in their order: ALIGN, SCRATCH_BOUNDS, TAPE, POISON. `bad` lists are in lane order, so TVAL is the
offset of the lowest failing lane. -/
def checkAcc (s : State) (c : Ctx) (vector read write : Bool) (accs : List Acc) : Option Miss :=
  let core := getCore s c.w.core
  let mal := accs.filter (fun a => a.off % (a.w : Int) != 0)
  let oob := accs.filter (fun a => decide (a.off < 0) || decide ((c.size : Int) < a.off + a.w))
  let lo (a : Acc) : Nat := c.w.sbase + a.off.toNat
  let hit := accs.filter (fun a => tapeHit core c.k (lo a) (lo a + a.w) write false)
  let bad (a : Acc) : Bool :=
    (read || decide (a.w < 8)) &&
      (List.range ((a.off.toNat + a.w - 1) / 8 + 1 - a.off.toNat / 8)).any (fun j => wordPoison c.w c.g (a.off.toNat / 8 + j))
  match missOf cALIGN vector mal with
  | some m => some m
  | none => match missOf cBOUNDS vector oob with
  | some m => some m
  | none => match missOf cTAPE vector hit with
  | some m => some m
  | none => missOf cPOISON vector (accs.filter bad)

/-! ## What an instruction comes to -/

/-- What an instruction comes to: the new group goes with the state. -/
inductive Eff where
  | next (s : State) (g : Group)                       -- retires; the next instruction in sequence follows
  | goto (s : State) (g : Group) (pc : DWord)          -- retires; control goes to pc
  | trap (m : Miss)                                    -- a precise cause (R238)
  | tape (m : Miss)                                    -- a tape hit of a logged kind (R241)
  | trapAt (m : Miss) (pc : DWord) (s : State) (g : Group) -- a precise cause with TPC = pc and a change of the group
  | park (s : State) (g : Group) (p : Park)
  | stall                                              -- waits at issue (R21, R26, R299)
  | recorded (cause : Nat) (addr : DWord)              -- a recorded cause at its instruction: frozen (R240)
  | gone (s : State)                                   -- the group has ended
deriving DecidableEq, Repr

/-- A scalar trap: no lanes. -/
def Eff.raise (cause : Nat) (tval : DWord) : Eff := .trap ⟨cause, tval, 0⟩

/-- OPERAND with a field code, raised by the instruction's entry (R80). -/
def operandTrap (c : Ctx) (code : Nat) : Eff :=
  .raise cOPERAND (decodeTval ((encode c.inst).headD 0) code)

/-- Nothing but the group changes. -/
def okG (s : State) (g : Group) : Eff := .next s g

/-! ## Retiring (R182 RIC, R220, R245, R378) -/

/-- Whether the instruction is YIELD (R236, R374). -/
def isYield : Instr → Bool
  | .yield _ => true
  | _ => false

/-- A retirement counted in the group. -/
def countRetired (s : State) (c : Ctx) (g : Group) : Group :=
  let n := g.detCount + 1
  { g with sp := { g.sp with ric := g.sp.ric + 1 }, urg := g.urg + 1,
           lastRetire := if isYield c.inst then g.lastRetire else (getCore s c.w.core).clk,
           lastIssue := (getCore s c.w.core).clk,
           waited := 0,
           detCount := if c.det then n else g.detCount,
           detEnded := g.detEnded || (c.det && decide (c.l.kern.quantum ≤ n)) }

/-- A retirement counted in its workgroup (R365). -/
def countWg (s : State) (g : Group) : State :=
  match tget s.wgs (gWg g) with
  | some w => putWg s (gWg g) { w with retired := w.retired + 1 }
  | none => s

/-- A logical heartbeat tick is due after a retirement that makes RIC a multiple of H (R220). -/
def logicalTick (s : State) (c : Ctx) (g : Group) : State :=
  if c.l.kern.logical && g.sp.ric.toNat % c.l.kern.hbperiod == 0 then putGroup s c.k { g with tickDue := true } else s

/-- An instruction retires and control goes to `pc`. -/
def retire (s : State) (c : Ctx) (g : Group) (pc : DWord) : State :=
  let g1 := { countRetired s c g with pc := pc, barw := none, since := none }
  let s1 := putGroup (countWg s g1) c.k g1
  logicalTick { s1 with cur := none } c g1

/-! ## Taking a trap (R238, R240) and returning from one (R239) -/

/-- Entering handler mode (R238); the trapping instruction runs anew after it, a BARAW that had arrived too (R232, R239, log 98). -/
def enterHandler (g : Group) (handler : DWord) (m : Miss) (tpc : DWord) : Group :=
  { g with
    sp := { g.sp with
      tpc := tpc, tcause := BitVec.ofNat 8 (m.cause + (if g.scc then 128 else 0)), tval := m.tval, texec := execMask g,
      tlane := m.lanes },
    handler := true, pc := handler, since := none, barw := none }

/-- What a fault record says of a resident group (R266). -/
def groupFault (s : State) (c : Ctx) (cause status lane : Nat) (pc addr : DWord) : FaultInfo :=
  { cause := cause, exited := false, status := status, core := c.w.core, slot := c.g.gidx, lane := lane, x := c.w.x,
    y := c.w.y, z := c.w.z, pc := pc.toNat, addr := addr.toNat, tag := (getCore s c.w.core).tag.toNat }

/-- The group is frozen and its launch halted (R240, R385). -/
def freezeHalt (s : State) (c : Ctx) (cause : Nat) (pc addr : DWord) (lane : Nat) : State :=
  let s1 := putGroup s c.k { c.g with status := .frozen }
  let s2 := faultAndHalt s1 c.g.launch (groupFault s c cause 0 lane pc addr) 0
    (if cause < 0x20 then pc.toNat else addr.toNat) 0
  { s2 with cur := none }

/-- A precise trap of the instruction at `pc` is taken into the handler with TPC `tpc`, or the group is frozen when it is in
handler mode or has no handler (R238, R240). -/
def takeTrapAt (s : State) (c : Ctx) (m : Miss) (pc tpc : DWord) : State :=
  if c.g.handler || c.l.kern.handler == 0 then
    freezeHalt s c m.cause pc m.tval (if m.lanes = 0 then 255 else lowestLane m.lanes)
  else { putGroup s c.k (enterHandler c.g c.l.kern.handler m tpc) with cur := none }

/-- A precise trap whose TPC is the trapping instruction's address (R238). -/
def takeTrap (s : State) (c : Ctx) (m : Miss) (tpc : DWord) : State := takeTrapAt s c m tpc tpc

/-- The TAPE trap of the operand log: TPC, TVAL and TLANE are entry 0's, and the resume address is the first instruction
not retired (R241). -/
def takeLogTrap (s : State) (c : Ctx) (g : Group) (resume : DWord) : State :=
  let g1 := { g with log := { g.log with resume := resume, independent := 0 } }
  takeTrap s { c with g := g1 } ⟨cTAPE, g.log.tval, g.log.tlane⟩ ((g.log.entries.map (fun e => e.pc)).headD g.pc)

/-- Settling what an instruction comes to, outside the operand log. -/
def settle (s : State) (c : Ctx) (e : Eff) : State :=
  match e with
  | .next s1 g1 => retire s1 c g1 (c.g.pc + BitVec.ofNat 64 c.len)
  | .goto s1 g1 pc => retire s1 c g1 pc
  | .trap m => takeTrap s c m c.g.pc
  | .tape m =>
    if c.g.handler then takeTrap s c m c.g.pc
    else
      { putGroup s c.k { c.g with
            log := ⟨[⟨c.g.pc, c.inst⟩], 0, 0, m.tval, m.lanes⟩, lastIssue := (getCore s c.w.core).clk, pc := c.g.pc + BitVec.ofNat 64 c.len }
        with cur := none }
  | .trapAt m pc s1 g1 => takeTrapAt s1 { c with g := g1 } m c.g.pc pc
  | .park s1 g1 p =>
    { putGroup s1 c.k { g1 with status := .parked p, parkPt := s.pt, parkClk := (getCore s c.w.core).clk } with cur := none }
  | .stall => { putGroup s c.k { c.g with status := .stalled } with cur := none }
  | .recorded cause addr => freezeHalt s c cause c.g.pc addr 255
  | .gone s1 => { s1 with cur := none }

/-! ## The operand log (R241) -/

/-- The eight kinds of access the log serves (R241). -/
def loggable : Instr → Bool
  | .sld _ | .sst _ | .slda _ | .vld _ | .vst _ | .vldx _ | .vstx _ | .vatom _ => true
  | _ => false

/-- The vector instructions, which are skipped when EXEC is zero (R81). -/
def isVector (i : Instr) : Bool :=
  match (encode i).head? with
  | none => false
  | some w =>
    let maj := (w.extractLsb' 24 6).toNat
    decide (0x14 ≤ maj) && decide (maj ≤ 0x1B)

/-- The consecutive numbers a field names. -/
def runOf (base n : Nat) : List Nat := (List.range n).map (fun k => base + k)

/-- Registers a field names: scalar n as n, vector n as 1000 + n. -/
def fieldRegs (u : Use) (p : Fld × Nat) : List Nat :=
  if p.1 ∉ u.used ∨ p.1 ∈ u.nums then []
  else if p.1.isScalar then
    if 160 ≤ p.2 then [] else runOf p.2 (if p.1 ∈ u.quads then 4 else if p.1 ∈ u.pairs then 2 else 1)
  else if p.1.isVec then
    if p.2 < 384 then runOf (1000 + p.2) (u.count p.1) else if p.2 < 448 then [p.2 - 384] else []
  else []

/-- The pair SP names, or the instruction's default (R68). -/
def spRegs (cmpSel : Bool) (v : Nat) : List Nat := if v = 255 then (if cmpSel then [156, 157] else [158, 159]) else [v, v + 1]

/-- Whether the instruction is MOPEN, which writes its quad and does not read it (R178). -/
def isMopen : Instr → Bool
  | .mopen _ => true
  | _ => false

/-- The registers an instruction reads that its fields or its predicate name. -/
def readRegs (i : Instr) : List Nat :=
  match useOf 384 i with
  | none => []
  | some (u, _, fs) =>
    let src (p : Fld × Nat) : Bool := p.1 ∉ u.dests ∨ (p.1 ∈ u.quads && !isMopen i)
    let base := (fs.filter src).flatMap (fieldRegs u)
    match i with
    | .sadd f | .ssub f | .smul f | .smulh f | .sand f | .sor f | .sxor f | .sandn f | .sshl f | .sshr f | .ssra f
    | .smin f | .smax f => f.sd.toNat :: base
    | .saddi f => f.sd.toNat :: base
    | .sbfi f => f.sd.toNat :: base
    | .mmov f => f.sd.toNat :: (f.sd.toNat + 1) :: base
    | .msplit _ | .marrive _ => 158 :: 159 :: base
    | .vsel f => spRegs true f.sp.toNat ++ [158, 159] ++ base
    | .vcmp _ | .vfcmp _ => [158, 159] ++ base
    | _ =>
      match fs.find? (fun p => p.1 == .sp) with
      | some p => spRegs false p.2 ++ [158, 159] ++ base
      | none => base

/-- The registers such an instruction writes. -/
def writeRegs (i : Instr) : List Nat :=
  match useOf 384 i with
  | none => []
  | some (u, _, fs) =>
    let base := (fs.filter (fun p => decide (p.1 ∈ u.dests))).flatMap (fieldRegs u)
    match i with
    | .msplit _ | .mjoin _ => 158 :: 159 :: base
    | .vcmp f | .vfcmp f => spRegs true f.sp.toNat ++ base
    | _ => base

/-- Whether two lists of registers share one. -/
def sharesReg (a b : List Nat) : Bool := a.any (fun r => b.contains r)

/-- The majors that are never independent (R241): engine instructions, 0x00, 0x01, 0x05, 0x06, 0x0B, 0x0C. -/
def freeMajor (i : Instr) : Bool :=
  match (encode i).head? with
  | none => false
  | some w =>
    let maj := (w.extractLsb' 24 6).toNat
    (decide (2 ≤ maj) && decide (maj ≤ 4)) || (decide (7 ≤ maj) && decide (maj ≤ 0x0A)) ||
      (decide (0x14 ≤ maj) && decide (maj ≤ 0x1B))

/-- Whether a younger instruction is independent of the logged accesses (R241). -/
def independentOf (log : OperandLog) (i : Instr) : Bool :=
  freeMajor i && !loggable i &&
    log.entries.all (fun e =>
      !sharesReg (readRegs i) (writeRegs e.inst) && !sharesReg (writeRegs i) (158 :: 159 :: (readRegs e.inst ++ writeRegs e.inst)))

/-! ## Issue -/

/-- Whether an instruction takes effect only after every earlier vector instruction has retired, while a vector access is logged (R185, R204;
DEDUCED, log 97). -/
def awaitsVector (log : OperandLog) (i : Instr) : Bool :=
  (match i with
    | .fpcset _ | .fpcget _ => true
    | _ => false) && log.entries.any (fun e => isVector e.inst)

/-- An instruction issued behind a logged access (R241). -/
def settleLogged (s : State) (c : Ctx) (e : Eff) : State :=
  if loggable c.inst then
    if c.g.log.entries.length < 4 then
      { putGroup s c.k { c.g with
          log := { c.g.log with entries := c.g.log.entries ++ [⟨c.g.pc, c.inst⟩] }, lastIssue := (getCore s c.w.core).clk,
          pc := c.g.pc + BitVec.ofNat 64 c.len } with cur := none }
    else { putGroup s c.k { c.g with status := .stalled } with cur := none }
  else if independentOf c.g.log c.inst then
    if awaitsVector c.g.log c.inst then { putGroup s c.k { c.g with status := .stalled } with cur := none } else
    match e with
    | .next s1 g1 =>
      let n := c.g.log.independent + 1
      let pc := c.g.pc + BitVec.ofNat 64 c.len
      let g2 := { g1 with log := { g1.log with independent := n } }
      let s2 := retire s1 c g2 pc
      if n < 8 then s2
      else match tget s2.groups c.k with
        | some g3 => takeLogTrap s2 { c with g := g3 } g3 pc
        | none => s2
    | _ => takeLogTrap s c c.g c.g.pc
  else takeLogTrap s c c.g c.g.pc

/-- The scalars that outstanding TFLG.GETs of a group will write (R299). -/
def pendingGets (s : State) (g : Group) : List Nat :=
  g.tile.filterMap (fun p =>
    match tget s.ops p.op with
    | some o =>
      match o.act with
      | .tile (.tflgGet sd) _ _ _ _ => if p.done then none else some sd
      | _ => none
    | none => none)

/-- The scalar registers an instruction reads that no field of it names: LINK, and EXEC and VCC where a condition, the active lanes of an
engine instruction or of VFORK depend on them; and FORK's arguments (R65, R176, R197, R211, R251). -/
def impliedRegs (i : Instr) : List Nat :=
  match i with
  | .ret _ => [155]
  | .brc f | .call f => if f.cond = 3 ∨ f.cond = 4 then [158, 159] else if f.cond = 5 ∨ f.cond = 6 then [156, 157] else []
  | .fork f => runOf f.sa.toNat (forkN f)
  | .vfork _ | .cpyx _ | .fat _ | .fred _ | .skget _ | .skput _ | .skrec _ => [158, 159]
  | _ => []

/-- The scalar registers an instruction writes that no destination field of it names: LINK, EXEC at a return from a trap, and JOIN's
arguments (R196, R197, R222, R239). -/
def impliedWrites (i : Instr) : List Nat :=
  match i with
  | .call _ => [155]
  | .jmp f => if f.md.getLsbD 0 then [155] else []
  | .rft _ => [158, 159]
  | .join f => if f.md.getLsbD 0 then [] else runOf f.sd.toNat 6
  | _ => []

/-- Whether the register scoreboard holds an instruction back: it reads or overwrites a scalar that an outstanding TFLG.GET will write (R185,
R299, log 44). -/
def scoreHeld (s : State) (c : Ctx) : Bool :=
  (pendingGets s c.g).any (fun sd => (readRegs c.inst ++ impliedRegs c.inst ++ writeRegs c.inst ++ impliedWrites c.inst).contains sd)

/-- Issue of an instruction by the current group: the scoreboard (R299), the zero-EXEC skip (R81), the operand log (R241),
and the effect. -/
def issue (i : Instr) (s : State) (body : Ctx → Eff) : Host.Outcome State Fault Refusal :=
  match ctxOf s i with
  | none => .fault .noIssuer
  | some c =>
    let e := if isVector i && execMask c.g == 0 then .next s c.g else body c
    if scoreHeld s c then .next (settle s c .stall)
    else if c.g.handler || c.g.log.entries.isEmpty then .next (settle s c e)
    else .next (settleLogged s c e)

end Sys2Proof.Machine
end

