-- ==== Sys2Proof/Machine/Operands.lean ====
section
/-! DEFINITION. Vector operands (R71-R73, R139-R141): operand indices, inline constants, lane specials, active lanes, and the
writing of vector results. A lane's element is a 64-bit value whose bits above the operand's width are zero. -/

namespace Sys2Proof.Machine

/-- The elements of the 128 lanes. -/
abbrev Lanes := List DWord

/-- The low `w` bits of a value (R71). -/
def lowBits (w : Nat) (v : DWord) : DWord := BitVec.ofNat 64 (v.toNat % 2 ^ w)

/-- Whether an integer TYPE code is signed (R121). -/
def signedType (t : Nat) : Bool := t == 0 || t == 2 || t == 8

/-- An inline constant's value at a type (R72). -/
def inlineConst (t idx : Nat) : DWord :=
  let w := typeBits t
  if floatType t then
    let k := fmtOf t
    let v (n : Bool) (m : Nat) (ex : Int) : Nat := (roundF k .rne false n m ex).1
    BitVec.ofNat 64 <|
      if idx = 449 then v false 1 0 else if idx = 450 then v false 2 0 else if idx = 451 then v false 3 0
      else if idx = 452 then v false 4 0 else if idx = 453 then v false 8 0 else if idx = 454 then v true 1 0
      else if idx = 455 then v true 2 0 else if idx = 456 then v false 1 (-1) else if idx = 457 then v false 1 (-2)
      else if idx = 458 then v false 1 (-3) else if idx = 459 then infBits k false else if idx = 460 then infBits k true
      else if idx = 461 then maxFinite k else if idx = 462 then withSign k true (maxFinite k) else canonNaN k
  else
    let c (x : Int) : DWord := BitVec.ofNat 64 (x % (2 ^ w : Nat)).toNat
    if idx = 449 then c 1 else if idx = 450 then c 2 else if idx = 451 then c 3 else if idx = 452 then c 4
    else if idx = 453 then c 8 else if idx = 454 then c (-1) else if idx = 455 then c (-2) else if idx = 456 then c 16
    else if idx = 457 then c 32 else if idx = 458 then c 64 else if idx = 459 then c 127 else if idx = 460 then c 128
    else if idx = 461 then (if signedType t then c (2 ^ (w - 1) - 1) else c (-1))
    else if idx = 462 then (if signedType t then c (2 ^ (w - 1)) else c 0)
    else c w

/-- A lane special's value in a lane (R73). -/
def laneSpecial (c : Ctx) (idx lane : Nat) : Nat :=
  if idx = 464 then lane
  else if idx = 465 then 128 * c.g.gidx + lane
  else if idx = 466 then c.g.gidx
  else if idx = 467 then c.l.kern.groups
  else if idx = 468 then c.w.x
  else if idx = 469 then c.w.y
  else if idx = 470 then c.w.z
  else if idx = 471 then c.l.gx
  else if idx = 472 then c.l.gy
  else if idx = 473 then c.l.gz
  else if idx = 474 then c.w.lcore
  else if idx = 475 then c.g.sp.tdepth.toNat
  else 2 ^ (lane % 32)

/-- Lane `l` of vector register `n`. -/
def vlane (g : Group) (n l : Nat) : Word := (vreg g n).getD l 0

/-- A vector register, or a pair of them, as elements of width `w` (R7, R121, R123). -/
def regLanes (g : Group) (n w : Nat) : Lanes :=
  laneIds.map (fun l =>
    if w = 64 then (vlane g (n + 1) l ++ vlane g n l : BitVec 64) else lowBits w ((vlane g n l).setWidth 64))

/-- One value in every lane. -/
def splat (v : DWord) : Lanes := List.replicate Config.lanes v

/-- The value of a uniform operand index (R141). -/
def uniformVal (g : Group) (lit : Lit) (idx t : Nat) : DWord :=
  if idx < 448 then lowBits (typeBits t) (sreg g (idx - 384))
  else if idx = 448 then 0
  else if idx < 464 then inlineConst t idx
  else lowBits (typeBits t) (lit.getD 0)

/-- A source operand read at a type in every lane (R71-R73). -/
def srcLanes (_s : State) (c : Ctx) (lit : Lit) (idx t : Nat) : Lanes :=
  if idx < 384 then regLanes c.g idx (typeBits t)
  else if 464 ≤ idx ∧ idx ≤ 476 then
    laneIds.map (fun l => lowBits (typeBits t) (BitVec.ofNat 64 (laneSpecial c idx l)))
  else splat (uniformVal c.g lit idx t)

/-- A predicate pair: EXEC alone when SP is 255 or 158, else EXEC and the pair (R68, R139). -/
def activeMask (g : Group) (sp : BitVec 8) : Mask :=
  if sp = 255 then execMask g else execMask g &&& spair g sp.toNat

/-- The pair SP names, or VCC: a compare's destination and VSEL's selector (R68, R146, R147). -/
def spOr (sp : BitVec 8) (dflt : Nat) : Nat := if sp = 255 then dflt else sp.toNat

/-- One vector register with the active lanes replaced (R140). -/
def mergeLanes (act : List Bool) (old new : List Word) : List Word :=
  laneIds.map (fun l => if act.getD l false then new.getD l 0 else old.getD l 0)

/-- Writing a result of width `w` in the active lanes: a register, or a pair for 64 bits; 448 discards it (R71, R140). -/
def writeLanes (g : Group) (vd w : Nat) (act : List Bool) (r : Lanes) : Group :=
  if 384 ≤ vd then g
  else
    let lo := r.map (fun x => (x.setWidth 32 : Word))
    let g1 := setV g vd (mergeLanes act (vreg g vd) lo)
    if w = 64 then
      setV g1 (vd + 1) (mergeLanes act (vreg g (vd + 1)) (r.map (fun x => (x.extractLsb' 32 32 : Word))))
    else g1

/-- An element read as an integer of its TYPE. -/
def elemInt (t : Nat) (x : DWord) : Int :=
  if signedType t then sextI (typeBits t) x.toNat else (x.toNat % 2 ^ typeBits t : Nat)

/-- An integer result modulo 2^width of its TYPE. -/
def elemOf (t : Nat) (x : Int) : DWord := BitVec.ofNat 64 (x % (2 ^ typeBits t : Nat)).toNat

end Sys2Proof.Machine
end

