-- ==== Sys2Proof/Machine/Barriers.lean ====
section
/-! DEFINITION. Named and collective barriers of a launch, urgency, and the end of a group and of its workgroup (R200, R224,
R232-R234, R245, R336). -/

namespace Sys2Proof.Machine

/-! ## Instances (R233) -/

/-- The instance of a scope in which a core lies: 2 CORE, 3 QUAD, 4 DIE, 5 PKG (R10, R11, R31). -/
def instOf (scope core : Nat) : Nat := if scope = 2 then core else if scope = 3 then core / 4 else if scope = 4 then core / 48 else 0

/-- The core a group is resident on, as barriers see it: the logical core. -/
def groupCore (s : State) (g : Group) : Option Nat :=
  match tget s.wgs (gWg g) with
  | some w => some w.lcore
  | none => none

/-- The expected count of an instance: the launch's launched groups resident there (R233). -/
def expectedCount (s : State) (lid scope inst : Nat) : Nat :=
  (s.groups.filter (fun p => p.2.launch == lid && p.2.task.isNone &&
    (match groupCore s p.2 with
      | some core => instOf scope core == inst
      | none => false))).length

/-- Resetting the urgency of every group of some workgroups (R232, R245). -/
def resetUrgency (s : State) (keys : List Nat) : State :=
  { s with groups := s.groups.map (fun p => if keys.contains (gWg p.2) then (p.1, { p.2 with urg := 0 }) else p) }

/-- The instance of a named barrier, as it stands; phase 0 when nothing has arrived since the launch started (R233). -/
def getBar (l : Launch) (scope b inst : Nat) : BarInst :=
  (l.bars.find? (fun x => x.scope == scope && x.b == b && x.inst == inst)).getD ⟨scope, b, inst, 0, []⟩

/-- Replacing an instance. -/
def putBar (l : Launch) (x : BarInst) : Launch :=
  { l with bars := x :: l.bars.filter (fun y => !(y.scope == x.scope && y.b == x.b && y.inst == x.inst)) }

/-- One instance completes its phase when it holds an arrival and the arrivals reach the expected count (R233). The workgroups that have
completed the phase, whose urgency R245 resets, are taken to be those with an arrival in it (DESIGN CHOICE, log 99). -/
def completeBar (s : State) (lid : Nat) (x : BarInst) : State :=
  match tget s.launches lid with
  | none => s
  | some l =>
    if x.arrivals ≠ [] ∧ expectedCount s lid x.scope x.inst ≤ x.arrivals.length then
      resetUrgency (putLaunch s lid (putBar l { x with phase := x.phase + 1, arrivals := [] }))
        (x.arrivals.map (fun a => wgKey lid a.1))
    else s

/-- Every named barrier of a launch that may now complete does. -/
def completeBars (s : State) (lid : Nat) : State :=
  match tget s.launches lid with
  | none => s
  | some l => l.bars.foldl (fun s x => completeBar s lid x) s

/-! ## Collective barriers (R336): local arrivals of a phase -/

/-- A collective barrier of a launch: one of 16, whatever the scope of its arrivals. -/
def getCBar (l : Launch) (b : Nat) : CBarInst := (l.cbars.find? (fun x => x.b == b)).getD ⟨false, b, 0, [], [], 0, 0, true⟩

/-- Replacing an instance. -/
def putCBar (l : Launch) (x : CBarInst) : Launch :=
  { l with cbars := x :: l.cbars.filter (fun y => y.b != x.b) }

/-- Marking operations as released: their barrier's phase is complete. -/
def markPerformed (s : State) (ns : List Nat) (cause : Nat) : State :=
  { s with ops := s.ops.map (fun p =>
      if ns.contains p.1 then
        (p.1, { p.2 with performed := true, seen := p.2.seen ||| (if cause = 0 then seenOK else seenFAULT),
                         cause := BitVec.ofNat 8 cause })
      else p) }

/-- Operations of a DET launch count from a commit. -/
def recount (s : State) (ns : List Nat) (k : Nat) : State :=
  { s with ops := s.ops.map (fun p => if ns.contains p.1 then (p.1, { p.2 with quantum := p.2.quantum.map (fun _ => k) }) else p) }

/-- The local arrivals of a phase are complete: at PKG scope the operations are released; at POD scope one arrival goes to
the root, marked when the package's own arrivals disagree; a further phase waits for the release (R336).
In a DET launch the operations of such a phase count from the commit that completes it (R380, log 85). Without a pod job the package is the only one
that takes part. -/
def completeCBar (s : State) (lid : Nat) (x : CBarInst) : State :=
  match tget s.launches lid with
  | none => s
  | some l =>
    if x.arrivals ≠ [] ∧ x.waiting = [] ∧ expectedCount s lid 5 0 ≤ x.arrivals.length then
      let ops := x.arrivals.map (fun a => a.2.2)
      if x.pod && l.job == 0 then
        markPerformed (putLaunch s lid (putCBar l { x with phase := x.phase + 1, arrivals := [] })) ops
          (if x.agree && x.root == s.info.pkgnum.toNat then 0 else 0x22)
      else if x.pod then
        let s1 := recount (putLaunch s lid (putCBar l { x with arrivals := [], waiting := x.waiting ++ ops })) ops l.quantum
        if x.root = s.info.pkgnum.toNat then
          pushNow s1 (.podBarrierArrival s.info.pkgnum.toNat l.job x.b x.count x.root x.agree)
        else
          { s1 with coll := { s1.coll with arrivalsOut := s1.coll.arrivalsOut ++ [(x.root, l.job, x.b, x.count, x.agree)] } }
      else
        markPerformed (putLaunch s lid (putCBar l { x with phase := x.phase + 1, arrivals := [] })) ops 0
    else s

/-- Every collective barrier of a launch that may now complete does. -/
def completeCBars (s : State) (lid : Nat) : State :=
  match tget s.launches lid with
  | none => s
  | some l => l.cbars.foldl (fun s x => completeCBar s lid x) s

/-! ## The end of a group and of its workgroup (R200, R224) -/

/-- Operations still in flight of a group that has ended carry the EXITED flag (R22); not those of a run that was flushed, whose issuer did
not end (R266, R373). -/
def markExited (ops : Tbl EngineOp) (g : Group) : Tbl EngineOp :=
  ops.map (fun p => if p.2.launch = g.launch ∧ p.2.wg = g.wg ∧ p.2.gidx = g.gidx ∧ !p.2.lost then (p.1, { p.2 with exited := true }) else p)

/-- Whether a workgroup still has a group, resident or saved, or a task whose result is not yet carried home. -/
def wgLive (s : State) (w : Workgroup) (key : Nat) : Bool :=
  s.groups.any (fun p => gWg p.2 == key) || !w.saved.isEmpty

/-- The workgroup ends when its last group has ended: scratchpad, barrier slots and spare slots are free (R224). -/
def endWg (s : State) (key : Nat) : State :=
  match tget s.wgs key with
  | none => s
  | some w => if wgLive s w key then s else putWg s key { w with status := .ended, spareHeld := false, slots := [] }

/-- The group's slot of its workgroup is free for another placement, unless it is a spare slot, which the workgroup keeps
(R18). -/
def freeSlot (s : State) (g : Group) (k : Nat) : State :=
  if g.task.isSome then s
  else match tget s.wgs (gWg g) with
    | none => s
    | some w => putWg s (gWg g) { w with slots := w.slots.filter (fun x => x != slotOf k) }

/-- What a group of a DET launch leaves for the commit of its quantum. -/
def leaveBehind (s : State) (g : Group) : State :=
  match tget s.launches g.launch with
  | some l => putLaunch s g.launch { l with left := l.left ++ [⟨g.id, gWg g, g.detBuf, g.detOps⟩] }
  | none => s

/-- A group ends: its slot, registers and tiles are free. Then barriers are looked at again, and its workgroup may end; in a DET launch
that follows at the commit of the quantum (log 83). -/
def endGroup (s : State) (k : Nat) (g : Group) : State :=
  let s1 := freeSlot { s with groups := tdel s.groups k, ops := markExited s.ops g } g k
  if launchDet s g.launch then leaveBehind s1 g
  else endWg (completeCBars (completeBars s1 g.launch) g.launch) (gWg g)

end Sys2Proof.Machine
end

