-- ==== Sys2Proof/Machine/Fetch.lean ====
section
/-! DEFINITION. Fetching: a group's words from its launch's code or through its pages (R57, R58, R198, R384), a Staith
hart's word, and what a failing fetch or decode comes to (R80, R198, R244). -/

namespace Sys2Proof.Machine

/-- Whether an address lies in a launch's code range (R58). -/
def inCode (l : Launch) (va : Nat) : Bool :=
  decide (l.kern.entry.toNat ≤ va) && decide (va < l.kern.entry.toNat + l.kern.codesize)

/-- A byte of code: of the launch's code range as it stood at the LAUNCH packet, or as it stands in memory (R58). -/
def codeByte (s : State) (l : Launch) (f : Leaf) (va : Nat) : Byte := if inCode l va then mget 0 l.code va else memByte s (leafPa f va)

/-- A word of code at an address: from the launch's code range as it stood at the LAUNCH packet (R58), or through a leaf
with X set (R198, R384); the bytes of a word at the range's end each as they lie. Outside the code range R58 lets a later write be seen or
not at each fetch; the fetch here always sees memory as it stands (DESIGN CHOICE, log 81). -/
def fetchWord (s : State) (l : Launch) (va : Nat) : Option Word :=
  if inCode l va && inCode l (va + 3) then
    some (BitVec.ofNat 32 (ofBytes (mgetRun 0 l.code va 4)))
  else
    match (match findLeaf l.codeLeaves va with
      | some f => some f
      | none => walk s l.asid va) with
    | none => none
    | some f => if f.x then some (BitVec.ofNat 32 (ofBytes ((List.range 4).map (fun j => codeByte s l f (va + j))))) else none

/-- `n` words from an address; the address of the first that cannot be fetched when one cannot. -/
def fetchRun (s : State) (l : Launch) (va : Nat) : Nat → Except Nat (List Word)
  | 0 => .ok []
  | n + 1 =>
    match fetchWord s l va with
    | none => .error va
    | some w =>
      match fetchRun s l ((va + 4) % 2 ^ 64) n with
      | .ok ws => .ok (w :: ws)
      | .error a => .error a

/-- The words of the instruction at an address (R56). All LEN words are fetched before word 0 is looked at further, so a further word that
cannot be fetched raises its ILLEGAL before one that word 0 alone decides: R80 and R198 give no order (DESIGN CHOICE, log 81). -/
def fetchWords (s : State) (l : Launch) (va : Nat) : Except Nat (List Word) :=
  match fetchWord s l va with
  | none => .error va
  | some w0 => fetchRun s l va (lenWords w0)

/-- What fetching comes to: an instruction to run, a state in which a trap has been taken, or a RISC-V instruction. -/
inductive Fetched where
  | run (i : Instr)
  | take (s : State)
  | base
deriving DecidableEq, Repr

/-- A trap at fetch or decode: behind a logged access the TAPE trap comes first (R241). -/
def fetchTrap (s : State) (c : Ctx) (cause : Nat) (tval tpc : DWord) : State :=
  if !c.g.handler && !c.g.log.entries.isEmpty then takeLogTrap s c c.g c.g.pc
  else takeTrap s c ⟨cause, tval, 0⟩ tpc

/-- The issuing group's next instruction; a group that has been frozen or stopped since it was picked does not issue. -/
def groupFetch (s : State) (k : Nat) : Fetched :=
  match groupCtx s k (.nop {}) with
  | none => .take { s with cur := none }
  | some c =>
    if c.g.status ≠ .run ∨ c.l.status ≠ .running then .take { s with cur := none }
    else match fetchWords s c.l c.g.pc.toNat with
    | .error a => .take (fetchTrap s c cILLEGAL 0 (BitVec.ofNat 64 a))
    | .ok ws =>
      match decode c.l.kern.vregs ws with
      | .ok i => .run i
      | .error (.illegal tval) => .take (fetchTrap s c cILLEGAL tval c.g.pc)
      | .error (.operand tval) => .take (fetchTrap s c cOPERAND tval c.g.pc)
      | .error .short => .take (fetchTrap s c cILLEGAL 0 c.g.pc)

/-! ## Staith harts (R77, R353, log 5) -/

/-- A hart; one nothing has touched is as at reset. -/
def getHart (s : State) (h : Nat) : Hart := (tget s.harts h).getD Hart.init

def putHart (s : State) (h : Nat) (x : Hart) : State := { s with harts := tput s.harts h x }

/-- A hart's status with an interrupt enable moved to its previous bit and a previous mode noted (PRESUMED from RISC-V, log 5). -/
def hartStatus (st : DWord) (ie pie ppLo ppLen : Nat) (mode : BitVec 2) : DWord :=
  let keep := st &&& ~~~(BitVec.ofNat 64 (2 ^ ie + 2 ^ pie + (2 ^ ppLen - 1) * 2 ^ ppLo))
  keep ||| BitVec.ofNat 64 ((if st.getLsbD ie then 2 ^ pie else 0) + (mode.toNat % 2 ^ ppLen) * 2 ^ ppLo)

/-- The illegal-instruction exception of a hart (R77; its registers PRESUMED from RISC-V, log 5): into supervisor mode where medeleg
delegates it from a lower mode, else into machine mode. -/
def hartIllegal (s : State) (h : Nat) (w : Word) : State :=
  let x := getHart s h
  { putHart s h (if x.mode ≠ 3 ∧ x.medeleg.getLsbD 2 then
      { x with sepc := x.pc, scause := 2, stval := w.setWidth 64, mstatus := hartStatus x.mstatus 1 5 8 1 x.mode, mode := 1,
               pc := x.stvec &&& ~~~(3 : DWord) }
    else
      { x with mepc := x.pc, mcause := 2, mtval := w.setWidth 64, mstatus := hartStatus x.mstatus 3 7 11 2 x.mode, mode := 3,
               pc := x.mtvec &&& ~~~(3 : DWord) }) with
    cur := none }

/-- A hart's next instruction: SUBMIT, another custom-0 word (illegal), or a word of RISC-V. -/
def hartFetch (s : State) (h : Nat) : Fetched :=
  let w := BitVec.ofNat 32 (memNat s (getHart s h).pc.toNat 4)
  match decodeSubmit w with
  | some f => .run (.submit f)
  | none => if w.extractLsb' 0 7 = 0x0B then .take (hartIllegal s h w) else .base

/-- The issuer's next instruction. -/
def fetched (s : State) (who : Issuer) : Fetched :=
  match who with
  | .group k => groupFetch s k
  | .hart h => if h < Config.staithCores then hartFetch s h else .take { s with cur := none }

/-! ## Time (log 4) -/

/-- A core after some clocks: with a new clock its partitions may pick anew (R220, R246). -/
def clockCore (clocks : Nat) (c : Core) : Core :=
  { c with clk := c.clk + BitVec.ofNat 64 clocks, picked := if clocks = 0 then c.picked else [] }

/-- Clocks pass on every core that has left reset, and ticks of pod time pass (R33, R220). -/
def passTime (s : State) (clocks ticks : Nat) : State :=
  { s with pt := s.pt + BitVec.ofNat 64 ticks, cores := s.cores.map (fun p => (p.1, clockCore clocks p.2)) }

/-- The agenda without its head, its time passed. -/
def popAgenda (s : State) (a : Agenda) (rest : List Agenda) : State := passTime { s with agenda := rest } a.clocks a.ticks

/-- Whether an instruction is an event: not a word of a compute core and not SUBMIT. -/
def isEvent (i : Instr) : Bool := (encode i).isEmpty

end Sys2Proof.Machine
end

