-- ==== Sys2Proof/Machine/Start.lean ====
section
/-! DEFINITION. A group at its start (R173, R182, R209), a workgroup at placement (R361), and a program placed where the next
step fetches it (log 8). -/

namespace Sys2Proof.Machine

/-- A group at the start of a launched group (R173): everything zero but EXEC all ones, PAL 0x1000 and the PC. -/
def groupStart (launch wg gidx id part vbase tbase : Nat) (pc : DWord) : Group :=
  { launch := launch, wg := wg, gidx := gidx, id := id, part := part, vbase := vbase, tbase := tbase, pc := pc,
    sregs := [(158, BitVec.allOnes 64), (159, BitVec.allOnes 64)], scc := false, vregs := [], pal := 0x1000, fpc := 0,
    xregs := [], tc := [], tiles := [], tpoison := [], tflags := 0, ld := [], st := [], tile := [], coll := [],
    handler := false, tickHeld := false, tickDue := false, log := OperandLog.empty, sp := Special.start, status := .run, barw := none,
    urg := 0, waited := 0, hold := none, task := none, promo := [], reports := [], born := 0, parkPt := 0, parkClk := 0, since := none,
    lastRetire := 0, lastIssue := 0, detCount := 0, detEnded := false, detBuf := [], detOps := [], fence := 0, candidates := [], late := [] }

/-- A workgroup as it is placed (R361): its scratchpad zeros until the argument block is copied. -/
def wgStart (launch idx x y z core lcore sbase : Nat) (slots : List Nat) (spareBase : List (Nat × Nat))
    (pt : DWord) (order : Nat) : Workgroup :=
  { launch := launch, idx := idx, x := x, y := y, z := z, core := core, lcore := lcore, lslots := [], slot0 := slots.headD 0,
    status := .resident, sbase := sbase, scratch := [], spoison := [], shown := none, watch := [], slots := slots,
    spareBase := spareBase, placed := [], spareHeld := true, exported := false, drainHad := [], fresh := false, held := [], placedAt := pt, stayed := 0, order := order, retired := 0, saved := [],
    recSize := 0, recAt := none, waitFrom := 0 }

/-- A kernel for a program that is placed from outside (log 8): one group, every register, no handler. -/
def probeKernel : Kernel :=
  { det := false, idemp := false, pinned := false, joinchk := false, entry := 0x1000000000, handler := 0, groups := 1,
    spare := 0, vregs := 384, barriers := 16, maxdepth := 0, logical := false, hbperiod := 62500, quantum := 0,
    tilebytes := 524288, scratch := 4096, kargs := 0, codesize := 20, expected := 0 }

/-- A launch of a kernel with nothing leased. -/
def bareLaunch (k : Kernel) (code : Bytes) : Launch :=
  { q := 0, asid := 0, prio := 0, job := 0, kern := k, gx := 1, gy := 1, gz := 1, sigva := 0, sigadd := 0, faultva := 0,
    kargva := 0, ranges := [], leaves := [], codeLeaves := [], kargLeaves := [], code := code, nextWg := 1,
    status := .running, faulted := false, faultCount := 0, bars := [], cbars := [], quantum := 0, queued := [], waitFrom := 0,
    left := [], shown := none, carried := [], domain := 0 }

/-- The bytes of words in memory order (R1). -/
def wordsBytes (ws : List Word) : List Byte := ws.flatMap (fun w => bytesOf 4 w.toNat)

/-- A program of a few words placed as launch 0's only group, which issues next (log 8). -/
def placeProgram (s : State) (ws : List Word) : State :=
  { s with
    launches := tput s.launches 0 (bareLaunch probeKernel (msetRun 0 [] probeKernel.entry.toNat (wordsBytes ws))),
    wgs := tput s.wgs (wgKey 0 0) (wgStart 0 0 0 0 0 0 0 0 [0] [] s.pt 0),
    groups := tput s.groups 0 (groupStart 0 0 0 0 0 0 0 probeKernel.entry),
    cores := tput s.cores 0 (getCore s 0), cur := some (.group 0) }

/-- Words placed where the issuing group fetches next, when its PC lies in its launch's code; else as a program of their
own. -/
def placeWords (s : State) (ws : List Word) : State :=
  match ctxOf s (.nop {}) with
  | some c =>
    let pc := c.g.pc.toNat
    let e := c.l.kern.entry.toNat
    if c.g.status = .run ∧ c.l.status = .running ∧ e ≤ pc ∧ pc + 4 * ws.length ≤ e + c.l.kern.codesize then
      { s with launches := tput s.launches c.g.launch { c.l with code := msetRun 0 c.l.code pc (wordsBytes ws) } }
    else placeProgram s ws
  | none => placeProgram s ws

/-- A SUBMIT placed at hart 0's pc, which issues next. -/
def placeSubmit (s : State) (w : Word) : State :=
  let s1 := memPut s (getHart s 0).pc.toNat 4 w.toNat
  { s1 with cur := some (.hart 0) }

/-- An instruction of the opcode table placed where the next step fetches it. -/
def placeTableWord (s : State) (nbits w : Nat) : State :=
  match decode 384 (tableWords nbits w) with
  | .ok _ => placeWords s (tableWords nbits w)
  | .error _ =>
    if (decodeSubmit (BitVec.ofNat 32 (w % 2 ^ nbits))).isSome then placeSubmit s (BitVec.ofNat 32 (w % 2 ^ nbits))
    else placeWords s (tableWords nbits w)

end Sys2Proof.Machine
end

