-- ==== Sys2Proof/Machine/Frames.lean ====
section
/-! DEFINITION. Latent frames, heartbeat ticks and promotion, and FORK, VFORK, JOIN, TASKEND (R207-R224, R378-R379). -/

namespace Sys2Proof.Machine

/-! ## The frame (R207) -/

/-- A frame's fields; `sound` says its reserved bits are zero. -/
structure Frame where
  argc : Nat
  depth : Nat
  done : Bool
  prom : Bool
  glob : Bool
  entryOff : Nat
  resOff : Nat
  joinOff : Nat
  sound : Bool
  args : List DWord
deriving DecidableEq, Repr

/-- The bits of dword 0 (R207). -/
def frameHead (argc depth lane : Nat) (lanes glob : Bool) (entryOff : Nat) : Nat :=
  argc * 2 ^ 56 + depth % 256 * 2 ^ 48 + lane * 2 ^ 40 + (if lanes then 2 ^ 33 else 0) + (if glob then 2 ^ 32 else 0) + entryOff

/-- The 64 bytes of a frame. -/
def frameBytes (head resOff joinOff : Nat) (args : List DWord) : List Byte :=
  bytesOf 8 head ++ bytesOf 8 (resOff * 2 ^ 20 + joinOff) ++
    ((List.range 6).flatMap (fun j => bytesOf 8 (args.getD j 0).toNat))

/-- A frame as a group's scratchpad holds it. -/
def readFrame (s : State) (g : Group) (off : Nat) : Frame :=
  let d0 := scratchNat s g off 8
  let d1 := scratchNat s g (off + 8) 8
  { argc := d0 / 2 ^ 56, depth := d0 / 2 ^ 48 % 256, done := d0.testBit 35, prom := d0.testBit 34, glob := d0.testBit 32,
    entryOff := d0 % 2 ^ 32, resOff := d1 / 2 ^ 20 % 2 ^ 20, joinOff := d1 % 2 ^ 20,
    sound := !d0.testBit 47 && d0 / 2 ^ 36 % 16 == 0 && d1 / 2 ^ 40 == 0,
    args := (List.range 6).map (fun j => BitVec.ofNat 64 (scratchNat s g (off + 16 + 8 * j) 8)) }

/-- An 8-byte word of the allocation at a multiple of 8 (R212). -/
def wordOk (size off : Nat) : Bool := off % 8 == 0 && decide (off + 8 ≤ size)

/-- The checks of R210. -/
def frameOk (l : Launch) (f : Frame) : Bool :=
  f.sound && decide (f.argc ≤ 6) && f.entryOff % 4 == 0 && decide (f.entryOff < l.kern.codesize) &&
    wordOk l.kern.scratch f.joinOff && wordOk l.kern.scratch f.resOff

/-- The frames on a group's stack, oldest first (R208). -/
def frameOffs (g : Group) : List Nat :=
  (List.range ((g.sp.fsp.toNat - g.sp.fbase.toNat) / 64)).map (fun k => g.sp.fbase.toNat + 64 * k)

/-! ## Slots for tasks (R217) -/

/-- The spare slots of a workgroup: the last of the slots it holds, with their register and tile bases. -/
def spareSlots (w : Workgroup) (spare : Nat) : List (Nat × Nat × Nat) :=
  if w.spareHeld then (w.slots.drop (w.slots.length - spare)).zip w.spareBase else []

/-- A spare slot of a workgroup that no task occupies: its index among the spare slots, core slot and bases. -/
def freeSpare (s : State) (w : Workgroup) (spare : Nat) : Option (Nat × Nat × Nat × Nat) :=
  let xs := (spareSlots w spare).zip (List.range spare)
  (xs.find? (fun x => (tget s.groups (w.core * Config.slotsPerCore + x.1.1)).isNone)).map
    (fun x => (x.2, x.1.1, x.1.2.1, x.1.2.2))

/-- Whether a workgroup offers its spare slots: resident; one that is draining, only to its own groups' frames (R217). At a DET launch's
commit every one that has not ended does: which of them are saved or drain then depends on timing, and no result may (R375, R381; log 83). -/
def offersTo (det : Bool) (w : Workgroup) (own : Bool) : Bool :=
  match w.status with
  | .resident => true
  | .draining _ _ => own || det
  | .ended => false
  | _ => det

/-- How near a core is to the owner's: the same core, quad, die, or another die (R217). -/
def coreTier (owner core : Nat) : Nat :=
  if core = owner then 1 else if core / 4 = owner / 4 then 2 else if core / 48 = owner / 48 then 3 else 4

/-- The workgroups searched in a tier: ascending core, in a DET launch logical core (R376), then ascending linear index (R217). -/
def tierWgs (s : State) (det : Bool) (own : Nat) (w0 : Workgroup) (tier : Nat) : List Workgroup :=
  let ws := (s.wgs.filter (fun p => p.1 != own && p.2.launch == w0.launch && offersTo det p.2 false &&
    coreTier w0.lcore p.2.lcore == tier)).map (fun p => p.2)
  (List.range Config.cores).flatMap (fun n => ws.filter (fun w => w.lcore == n))

/-- The slot a frame is promoted into: workgroup, index, core slot and bases (R217). -/
def findTaskSlot (s : State) (l : Launch) (own : Nat) (w0 : Workgroup) (glob : Bool) :
    Option (Workgroup × Nat × Nat × Nat × Nat) :=
  let cands := (if offersTo l.kern.det w0 true then [w0] else []) ++
    (if glob then [1, 2, 3, 4].flatMap (fun t => tierWgs s l.kern.det own w0 t) else [])
  cands.findSome? (fun w => (freeSpare s w l.kern.spare).map (fun x => (w, x)))

/-- The partition that holds the fewest resident groups of a core, the lowest on a tie (R17). -/
def choosePart (s : State) (core : Nat) : Nat :=
  let n (p : Nat) : Nat := (s.groups.filter (fun g => coreOf g.1 == core && g.2.part == p)).length
  (List.range 6).foldl (fun best p => if n p < n best then p else best) 0

/-- The package core a logical core is mapped to (R376). -/
def remapCore (s : State) (lcore : Nat) : Nat := (tget s.fe.remap lcore).getD lcore

/-! ## Promotion (R216-R219) -/

/-- The OCPM address of a scratchpad offset of a workgroup: CORE is a logical core (R27, R215). -/
def ocpmScratch (w : Workgroup) (off : Nat) : Nat :=
  (w.lcore / 48) * 2 ^ 38 + (w.lcore % 48) * 2 ^ 32 + (w.sbase + off)

/-- A group's ID on a logical core of a DET launch: logical core × 64 + slot (R377). -/
def groupId (w : Workgroup) (i : Nat) : Nat := w.lcore * Config.slotsPerCore + ((w.lslots.find? (fun p => p.1 == i)).map (fun p => p.2)).getD i

/-- The task of a frame (R173, R209, R218). -/
def taskGroup (l : Launch) (g : Group) (w0 w : Workgroup) (f : Frame) (off gidx part vbase tbase : Nat) : Group :=
  let t := groupStart g.launch w.idx gidx (groupId w gidx) part vbase tbase (l.kern.entry + BitVec.ofNat 64 f.entryOff)
  let t := (List.range 6).foldl (fun t j => setS t j (f.args.getD j 0)) t
  { t with sp := { t.sp with tdepth := BitVec.ofNat 8 f.depth, pjoin := BitVec.ofNat 40 (ocpmScratch w0 f.joinOff) },
           task := some ⟨g.wg, off, f.glob⟩ }

/-- Whether a frame of group `k` may be promoted but for a slot (R216). -/
def promotable (s : State) (k : Nat) (g : Group) (w : Workgroup) (l : Launch) (off : Nat) : Bool :=
  let f := readFrame s g off
  frameOk l f && !f.prom && decide (f.depth ≤ l.kern.maxdepth) &&
    !tapeHit (getCore s w.core) k (w.sbase + off) (w.sbase + off + 64) false false

/-- Promoting the frame at `off` of group `k` into the first slot its locality finds, if any (R218). The frame's word and the join word are read
as they stand, poisoned or not, and written whole, which makes them fresh (DESIGN CHOICE, log 105). -/
def promote (s : State) (k off : Nat) : Option State :=
  match groupCtx s k (.nop {}) with
  | none => none
  | some c =>
    if c.g.handler || !promotable s k c.g c.w c.l off then none
    else
      let f := readFrame s c.g off
      match findTaskSlot s c.l (gWg c.g) c.w f.glob with
      | none => none
      | some (w, i, slot, vb, tb) =>
        let s1 := scratchPut s (gWg c.g) f.joinOff (bytesOf 8 (scratchNat s c.g f.joinOff 8 + 1))
        let s2 := scratchPut s1 (gWg c.g) off (bytesOf 8 (scratchNat s1 c.g off 8 ||| 2 ^ 34))
        let tk := w.core * Config.slotsPerCore + slot
        let t := taskGroup c.l c.g c.w w f off (c.l.kern.groups + i) (choosePart s w.core) vb tb
        let t := { t with lastRetire := (getCore s w.core).clk, lastIssue := (getCore s w.core).clk, born := (getCore s w.core).clk }
        some (putGroup (putGroup s2 tk t) k { c.g with promo := tput c.g.promo off (w.idx, c.l.kern.groups + i) })

/-- The first frame of a list that can be promoted is (R216). -/
def promoteFirst (s : State) (k : Nat) : List Nat → State
  | [] => s
  | off :: offs =>
    match promote s k off with
    | some s1 => s1
    | none => promoteFirst s k offs

/-- A heartbeat tick reaches a group: held in handler mode (R221); in a DET launch it marks a candidate (R379); else the
oldest frame that can be is promoted (R216). -/
def deliverTick (s : State) (k : Nat) : State :=
  match groupCtx s k (.nop {}) with
  | none => s
  | some c =>
    let hb := c.g.sp.hbcnt + 1
    if c.g.handler then
      if c.g.tickHeld then putGroup s k { c.g with sp := { c.g.sp with hbcnt := hb } }
      else putGroup s k { c.g with tickHeld := true }
    else
      let g := { c.g with sp := { c.g.sp with hbcnt := hb } }
      let s1 := putGroup s k g
      if c.det then
        match (frameOffs g).find? (fun o => promotable s1 k g c.w c.l o && !g.candidates.any (fun x => x.1 == o)) with
        | some o => putGroup s1 k { g with candidates := g.candidates ++ [(o, hb.toNat)] }
        | none => s1
      else promoteFirst s1 k (frameOffs g)

/-- A list put in ascending order of a key, equal keys in their order. -/
def insertBy {α : Type} (key : α → Int) (x : α) : List α → List α
  | [] => [x]
  | y :: t => if key x < key y then x :: y :: t else y :: insertBy key x t

def sortBy {α : Type} (key : α → Int) (xs : List α) : List α := xs.foldl (fun t x => insertBy key x t) []

/-- The place of a group among those that a timed tick of its core reaches: workgroup slot, then group index (R217, log 93). -/
def tickOrder (s : State) (g : Group) : Int :=
  match tget s.wgs (gWg g) with
  | some w => w.slot0 * Config.slotsPerCore + g.gidx
  | none => g.gidx

/-- Groups of a core to which a timed tick is due at a count of its clock: of a timed launch whose H divides it (R220). One placed at that very
count receives none (DESIGN CHOICE, log 106). -/
def timedDue (s : State) (core clk : Nat) : List Nat :=
  (sortBy (fun p => tickOrder s p.2) (s.groups.filter (fun p => coreOf p.1 == core && p.2.status != .frozen && decide (p.2.born.toNat < clk) &&
    (match tget s.launches p.2.launch with
      | some l => !l.kern.logical && clk % l.kern.hbperiod == 0
      | none => false)))).map (fun p => p.1)

/-- The ticks of the next `n` counts of a core's clock that have had none. -/
def timedTicks : Nat → State → Nat → State
  | 0, s, _ => s
  | n + 1, s, core =>
    let c := getCore s core
    let t := c.ticked + 1
    timedTicks n ((timedDue s core t.toNat).foldl deliverTick (putCore s core { c with ticked := t })) core

/-- TIMED_HEARTBEAT_TICK: at each count of the core's clock since the last such event, every resident group of a timed launch for which the
count is a multiple of H receives a tick, once (R217, R220). -/
def execTimedHeartbeatTick (core : Nat) (s : State) : Host.Outcome State Fault Refusal :=
  let c := getCore s core
  .next (timedTicks (c.clk.toNat - c.ticked.toNat) s core)

/-- The logical tick that is due to a group reaches it (R220). -/
def giveTick (s : State) (group : Nat) : State :=
  match groupCtx s group (.nop {}) with
  | some c =>
    if c.l.kern.logical && c.g.tickDue && c.g.status != .frozen then
      deliverTick (putGroup s group { c.g with tickDue := false }) group else s
  | none => s

/-- LOGICAL_HEARTBEAT_TICK: the tick of a group of a logical launch after an instruction that makes its RIC a multiple of H; a parked group
receives none, and each RIC gives one (R220). -/
def execLogicalHeartbeatTick (group : Nat) (s : State) : Host.Outcome State Fault Refusal := .next (giveTick s group)

/-- The groups to which a logical tick is due, in the order in which those of one clock are served: core, workgroup slot, group index
(R217, log 93). -/
def logicalDue (s : State) : List Nat :=
  (sortBy (fun p => (coreOf p.1 : Int) * 4096 + tickOrder s p.2) (s.groups.filter (fun p => p.2.tickDue))).map (fun p => p.1)

/-! ## FORK and VFORK (R211-R214) -/

/-- The checks of R212 on the offsets operand: none when sound. `slots` result slots will be written. -/
def forkCheck (c : Ctx) (f : SX) (slots : Nat) : Option Eff :=
  let b := sval c.g f.lit f.sb
  let join := bits b 0 20
  let res := bits b 20 20
  let words := join :: (List.range slots).map (fun k => res + 8 * k)
  if bits b 40 24 ≠ 0 then some (operandTrap c 23)
  else if f.imm.toNat % 4 ≠ 0 ∨ c.l.kern.codesize ≤ f.imm.toNat then some (operandTrap c 23)
  else match words.find? (fun o => o % 8 != 0) with
    | some o => some (.raise cALIGN (BitVec.ofNat 64 o))
    | none => match words.find? (fun o => decide (c.size < o + 8)) with
      | some o => some (.raise cBOUNDS (BitVec.ofNat 64 o))
      | none => none

/-- A workgroup becomes exported when one of its groups pushes a G frame (R366). -/
def exportWg (s : State) (key : Nat) : State :=
  match tget s.wgs key with
  | some w => putWg s key { w with exported := true }
  | none => s

/-- Pushing frames at FSP: each is a relaxed thread store, checked against the tape table (R213). -/
def pushFrames (s : State) (c : Ctx) (f : SX) (frames : List (List Byte)) : Eff :=
  let fsp := c.g.sp.fsp.toNat
  let offs := (List.range frames.length).map (fun k => fsp + 64 * k)
  match offs.find? (fun o => tapeHit (getCore s c.w.core) c.k (c.w.sbase + o) (c.w.sbase + o + 64) true false) with
  | some o => .raise cTAPE (BitVec.ofNat 64 o)
  | none =>
    let r := (offs.zip frames).foldl (fun p x => threadStore p.1 p.2 c.det x.1 x.2) (s, c.g)
    let g := { r.2 with sp := { r.2.sp with fsp := BitVec.ofNat 21 (fsp + 64 * frames.length) }, scc := true }
    .next (if f.md.getLsbD 0 then exportWg r.1 (gWg c.g) else r.1) g

/-- FORK (R213). -/
def execFork (f : SX) (s : State) : Host.Outcome State Fault Refusal :=
  issue (.fork f) s (fun c =>
    match forkCheck c f 1 with
    | some e => e
    | none =>
      if c.g.sp.flim.toNat < c.g.sp.fsp.toNat + 64 then .next s { c.g with scc := false }
      else
        let b := sval c.g f.lit f.sb
        let n := forkN f
        let args := (List.range n).map (fun j => sreg c.g (f.sa.toNat + j))
        pushFrames s c f
          [frameBytes (frameHead n (c.g.sp.tdepth.toNat + 1) 0 false (f.md.getLsbD 0) f.imm.toNat) (bits b 20 20)
            (bits b 0 20) args])

/-- VFORK (R214). -/
def execVfork (f : SX) (s : State) : Host.Outcome State Fault Refusal :=
  issue (.vfork f) s (fun c =>
    let lanes := activeLanes (execMask c.g)
    match forkCheck c f lanes.length with
    | some e => e
    | none =>
      if lanes = [] then .next s { setS c.g f.sd.toNat 0 with scc := true }
      else if c.g.sp.flim.toNat < c.g.sp.fsp.toNat + 64 * lanes.length then
        .next s { setS c.g f.sd.toNat 0 with scc := false }
      else
        let b := sval c.g f.lit f.sb
        let n := forkN f
        let vals := (List.range n).map (fun j => regLanes c.g (2 * f.md2.toNat + 2 * j) 64)
        let frame (x : Nat × Nat) : List Byte :=
          frameBytes (frameHead n (c.g.sp.tdepth.toNat + 1) x.1 true (f.md.getLsbD 0) f.imm.toNat) (bits b 20 20 + 8 * x.2)
            (bits b 0 20) (vals.map (fun v => v.getD x.1 0))
        match pushFrames s c f ((lanes.zip (List.range lanes.length)).map frame) with
        | .next s1 g1 => .next s1 (setS g1 f.sd.toNat (BitVec.ofNat 64 lanes.length))
        | e => e)

/-! ## JOIN (R222) -/

/-- The arguments of a popped frame. -/
def takeArgs (g : Group) (f : SX) (fr : Frame) : Group :=
  if f.md.getLsbD 0 then g else (List.range 6).foldl (fun g j => setS g (f.sd.toNat + j) (fr.args.getD j 0)) g

/-- JOIN (R222): pops an unpromoted frame, or parks until the join word of a promoted one reads 0. In a DET launch a JOIN
that meets a candidate parks until the commit (R379). The read of the join word is a thread read too, checked as R24 and R160 state (DEDUCED, log 91). -/
def execJoin (f : SX) (s : State) : Host.Outcome State Fault Refusal :=
  issue (.join f) s (fun c =>
    let fsp := c.g.sp.fsp.toNat
    if c.g.sp.fsp = c.g.sp.fbase then .raise cFRAME (BitVec.ofNat 64 fsp)
    else
      let off := fsp - 64
      match checkAcc s c false true false [⟨0, off, 64⟩] with
      | some m => .trap m
      | none =>
        let fr := readFrame s c.g off
        let popped : Group := { c.g with sp := { c.g.sp with fsp := BitVec.ofNat 21 off } }
        if !frameOk c.l fr then .raise cFRAME (BitVec.ofNat 64 off)
        else if c.g.candidates.any (fun x => x.1 == off) then .park s c.g .join
        else if !fr.prom then .next s { takeArgs popped f fr with scc := true }
        else match checkAcc s c false true false [⟨0, fr.joinOff, 8⟩] with
          | some m => .trap m
          | none =>
            if scratchNat s c.g fr.joinOff 8 ≠ 0 then .park s c.g .join
            else .next s { popped with scc := false, promo := tdel popped.promo off })

/-! ## What a parked group waits for -/

/-- Whether a JOIN that parked may go on: the frame's join word reads 0, or the frame no longer reads as one it waits for
(R222). -/
def joinMet (s : State) (g : Group) : Bool :=
  match tget s.launches g.launch with
  | none => false
  | some l =>
    let fr := readFrame s g (g.sp.fsp.toNat - 64)
    !frameOk l fr || !fr.prom || scratchNat s g fr.joinOff 8 == 0

/-- Whether the condition a group parked for holds now. A WAITW or RWAIT looks again at its recheck event (R227, R230, R232,
R233, R330). -/
def parkHolds (s : State) (g : Group) : Bool :=
  match g.status with
  | .parked (.wait a b c d) =>
    decide (g.ld.length ≤ a) && decide (g.st.length ≤ b) && decide (g.tile.length ≤ c) && decide (g.coll.length ≤ d)
  | .parked .drain => g.ld.isEmpty && g.tile.isEmpty
  | .parked .join => joinMet s g
  | .parked (.barWord off tok) => scratchNat s g off 8 / 2 ^ 32 != tok.toNat
  | .parked (.barNamed scope b tok) =>
    (match tget s.wgs (gWg g), tget s.launches g.launch with
      | some w, some l => (getBar l scope b (instOf scope w.lcore)).phase != tok
      | _, _ => false)
  | _ => false

/-- Whether a parked group is ready, to run its instruction again; a DET group waits for a commit (R378). -/
def parkMet (s : State) (g : Group) : Bool := !launchDet s g.launch && parkHolds s g

/-! ## TASKEND (R223) -/

/-- The frame's owner no longer lists the task among those that run (R210). -/
def forgetTask (s : State) (key frame : Nat) : State :=
  { s with groups := s.groups.map (fun p => if gWg p.2 = key then (p.1, { p.2 with promo := tdel p.2.promo frame }) else p) }

/-- The checks of an L task's end, before anything of it is done: its frame's head is read, and the result slot, the frame's first word and the
join word are written as thread accesses (R24, R160, R223; DEDUCED, log 90). -/
def taskendCheck (s : State) (c : Ctx) (link : TaskLink) (result : Option DWord) : Option Miss :=
  let fr := readFrame s { c.g with wg := link.wg, detBuf := [] } link.frame
  match checkAcc s c false true false [⟨0, link.frame, 16⟩] with
  | some m => some m
  | none => match (if result.isSome then checkAcc s c false false true [⟨0, fr.resOff, 8⟩] else none) with
    | some m => some m
    | none => match checkAcc s c false true true [⟨0, link.frame, 8⟩] with
      | some m => some m
      | none => checkAcc s c false true true [⟨0, fr.joinOff, 8⟩]

/-- Ending an L task: the result, DONE, the join word, and the slot is free. -/
def taskendLocal (s : State) (c : Ctx) (link : TaskLink) (result : Option DWord) : State :=
  let key := wgKey c.g.launch link.wg
  let fr := readFrame s { c.g with wg := link.wg, detBuf := [] } link.frame
  let s1 := match result with
    | some v => scratchPut s key fr.resOff (bytesOf 8 v.toNat)
    | none => s
  let rd (s : State) (o : Nat) : Nat := match tget s.wgs key with
    | some w => ofBytes (mgetRun 0 w.scratch o 8)
    | none => 0
  let s2 := scratchPut s1 key link.frame (bytesOf 8 (rd s1 link.frame ||| 2 ^ 35))
  let s3 := scratchPut s2 key fr.joinOff (bytesOf 8 (rd s2 fr.joinOff + (2 ^ 64 - 1)))
  endGroup (countWg (forgetTask s3 key link.frame) c.g) c.k c.g

/-- Ending a G task: its last three writes travel as an outbound operation of the launch (R223), in a DET launch issued at the commit after
the task's other operations (R378). They are no engine operation issued: TAG is the core's count as it stands (DESIGN CHOICE, log 106). -/
def taskendGlobal (s : State) (c : Ctx) (link : TaskLink) (result : Option DWord) : State :=
  let core := getCore s c.w.core
  let op : EngineOp :=
    { group := c.k, gidx := c.g.gidx, launch := c.g.launch, wg := c.g.wg, core := c.w.core, tag := core.tag, pc := c.g.pc,
      ctr := none, scope := 5, ord := 2, record := none, act := .taskend link result, seen := 0, cause := 0, lane := 255,
      addr := 0, cells := [], cellSeen := [], vals := [], fence := c.g.fence, performed := false, exited := true,
      deferred := c.det, quantum := none, seq := s.opNo, src := none, lost := false }
  let s1 := putOp { s with opNo := s.opNo + 1 } s.opNo op
  endGroup (countWg (forgetTask s1 (wgKey c.g.launch link.wg) link.frame) c.g) c.k
    (if c.det then { c.g with detOps := c.g.detOps ++ [s.opNo] } else c.g)

/-- TASKEND past its wait. -/
def taskendDo (f : SX) (s : State) (c : Ctx) (link : TaskLink) : Eff :=
  let result := if f.md.getLsbD 0 then some (sval c.g f.lit f.sa) else none
  if link.global then .gone (taskendGlobal s c link result)
  else match taskendCheck s c link result with
    | some m => .trap m
    | none => .gone (taskendLocal s c link result)

/-- TASKEND (R223): in a DET launch its writes are made at the commit (R378). -/
def execTaskend (f : SX) (s : State) : Host.Outcome State Fault Refusal :=
  issue (.taskend f) s (fun c =>
    match c.g.task with
    | none => operandTrap c 23
    | some link =>
      if c.g.sp.fsp ≠ c.g.sp.fbase then operandTrap c 23
      else if c.g.ld ≠ [] ∨ c.g.tile ≠ [] then .park s c.g .drain
      else if c.det then .park s c.g .commit
      else taskendDo f s c link)

end Sys2Proof.Machine
end

