-- ==== Sys2Proof/Machine/Ocpm.lean ====
section
/-! DEFINITION. The on-chip physical map: what an address names, writing through it, and the export of the workgroups an operation names
(R27-R30, R175, R366). -/

namespace Sys2Proof.Machine

/-- What an OCPM byte of a launch lies in. -/
inductive OcpmByte where
  | scratch (key off : Nat)
  | vreg (k n lane byte : Nat)
  | tile (k off : Nat)
  | spare (key : Nat)         -- an allocation no group occupies
deriving DecidableEq, Repr

/-- Whether a workgroup occupies its core. -/
def wgResident (w : Workgroup) : Bool :=
  match w.status with
  | .resident | .draining _ _ | .saving | .flushing => true
  | _ => false

/-- The logical core an OCPM address names (R27): outside DET launches, the package core. -/
def ocpmCore (addr : Nat) : Nat := addr / 2 ^ 38 % 4 * 48 + addr / 2 ^ 32 % 64

/-- The workgroups of a launch on a logical core. -/
def wgsOn (s : State) (lid core : Nat) : List (Nat × Workgroup) :=
  s.wgs.filter (fun p => p.2.launch == lid && p.2.lcore == core && wgResident p.2)

/-- The groups of a workgroup, with their keys. -/
def groupsOf (s : State) (key : Nat) : List (Nat × Group) := s.groups.filter (fun p => gWg p.2 == key)

/-- The groups of a launch on a logical core. -/
def groupsOn (s : State) (lid core : Nat) : List (Nat × Group) := (wgsOn s lid core).flatMap (fun p => groupsOf s p.1)

/-- A byte of the OCPM that an operation of a launch may reach (R28, R29). -/
def ocpmByte (s : State) (lid addr : Nat) : Option OcpmByte :=
  match tget s.launches lid with
  | none => none
  | some l =>
    let core := ocpmCore addr
    let win := addr / 2 ^ 29 % 8
    let off := addr % 2 ^ 29
    if 2 ^ 40 ≤ addr ∨ 48 ≤ addr / 2 ^ 32 % 64 then none
    else if win = 0 then
      ((wgsOn s lid core).find? (fun p => decide (p.2.sbase ≤ off) && decide (off < p.2.sbase + l.kern.scratch))).map
        (fun p => .scratch p.1 (off - p.2.sbase))
    else if win = 1 then
      match (groupsOn s lid core).find? (fun p => decide (p.2.vbase ≤ off) && decide (off < p.2.vbase + 512 * l.kern.vregs)) with
      | some p => some (.vreg p.1 ((off - p.2.vbase) / 512) ((off - p.2.vbase) % 512 / 4) (off % 4))
      | none =>
        ((wgsOn s lid core).find? (fun p => p.2.spareHeld && p.2.spareBase.any (fun b =>
          decide (b.1 ≤ off) && decide (off < b.1 + 512 * l.kern.vregs)))).map (fun p => .spare p.1)
    else if win = 2 then
      match (groupsOn s lid core).find? (fun p => decide (p.2.tbase ≤ off) && decide (off < p.2.tbase + l.kern.tilebytes)) with
      | some p => some (.tile p.1 (off - p.2.tbase))
      | none =>
        ((wgsOn s lid core).find? (fun p => p.2.spareHeld && p.2.spareBase.any (fun b =>
          decide (b.2 ≤ off) && decide (off < b.2 + l.kern.tilebytes)))).map (fun p => .spare p.1)
    else none

/-- What a run of OCPM bytes lies in, when every one may be reached. -/
def ocpmRun (s : State) (lid addr n : Nat) : Option (List OcpmByte) := (List.range n).mapM (fun j => ocpmByte s lid (addr + j))

/-- One byte of a word replaced. -/
def setByte (w : Word) (i : Nat) (b : Byte) : Word :=
  BitVec.ofNat 32 (w.toNat - w.toNat / 2 ^ (8 * i) % 256 * 2 ^ (8 * i) + b.toNat * 2 ^ (8 * i))

/-- The workgroup key of an OCPM byte. -/
def ocpmWg (s : State) : OcpmByte → Option Nat
  | .scratch key _ | .spare key => some key
  | .vreg k _ _ _ | .tile k _ => (tget s.groups k).map gWg

/-- Where a byte lies in a group's registers (false) or tiles (true). -/
def fileOff : OcpmByte → Option (Nat × Bool × Nat)
  | .vreg k n lane i => some (k, false, 512 * n + 4 * lane + i)
  | .tile k off => some (k, true, off)
  | _ => none

/-- The poison marks of a group's tile bytes after a write within one 8-byte word of the tile file: a poisoned byte marks the word, a
clean write of the whole word clears it, and a clean write of a part leaves it as it was (R254, R407). -/
def tileMarks (g : Group) (off : Nat) (ds : List PByte) : Marks :=
  let at0 := (g.tbase + off) / 8 * 8
  let word := (List.range 8).filterMap (fun j => if g.tbase ≤ at0 + j then some (at0 + j - g.tbase) else none)
  if ds.any (fun d => d.2) then word.foldl (fun m o => mset false m o true) g.tpoison
  else if ds.length = 8 then word.foldl (fun m o => mset false m o false) g.tpoison
  else g.tpoison

/-- One byte of a group's registers written, by its offset among them (R175). -/
def vregByte (g : Group) (off : Nat) (b : Byte) : Group :=
  let n := off / 512
  let lane := off % 512 / 4
  setV g n (setAt (vreg g n) lane (setByte ((vreg g n).getD lane 0) (off % 4) b))

/-- A run of bytes within one 8-byte unit written into a group's registers or tiles. -/
def filePut (g : Group) (tile : Bool) (off : Nat) (ds : List PByte) : Group :=
  if tile then { g with tiles := msetRun 0 g.tiles off (ds.map (fun d => d.1)), tpoison := tileMarks g off ds }
  else ((List.range ds.length).zip ds).foldl (fun g x => vregByte g (off + x.1) x.2.1) g

/-- The same in the state: at once, or of a DET launch during a quantum kept until the commit (R375, R380). -/
def filePutAt (s : State) (k : Nat) (tile : Bool) (off : Nat) (ds : List PByte) : State :=
  match tget s.groups k with
  | some g =>
    match (tget s.wgs (gWg g)).bind (fun w => w.shown) with
    | some _ => putGroup s k { g with late := g.late ++ [(tile, off, ds)] }
    | none => putGroup s k (filePut g tile off ds)
  | none => s

/-- The writes that a group's quantum has kept. -/
def applyLate (g : Group) : Group := g.late.foldl (fun g x => filePut g x.1 x.2.1 x.2.2) { g with late := [] }

/-- The newest kept write of a byte of a group's registers or tiles. -/
def lateByte (g : Group) (tile : Bool) (off : Nat) : Option PByte :=
  detByte ((g.late.filter (fun x => x.1 == tile)).map (fun x => x.2)) off

/-- The runs of bytes that lie one after another in the registers or tiles of one group: its key, which of the two, the offset, the bytes. -/
def fileRuns : List (OcpmByte × PByte) → List (Nat × Bool × Nat × List PByte)
  | [] => []
  | (t, d) :: r =>
    match fileOff t, fileRuns r with
    | none, xs => xs
    | some (k, tile, off), (k', tile', off', ds) :: xs =>
      if k = k' ∧ tile = tile' ∧ off + 1 = off' then (k, tile, off, d :: ds) :: xs else (k, tile, off, [d]) :: (k', tile', off', ds) :: xs
    | some (k, tile, off), [] => [(k, tile, off, [d])]

/-- A workgroup becomes exported (R366). -/
def exportAll (s : State) (keys : List Nat) : State := keys.foldl exportWg s

/-- A run of bytes within one 8-byte unit written through the OCPM; none of it when a byte may not be reached. -/
def ocpmPut (s : State) (lid addr : Nat) (ds : List PByte) : Option State :=
  match ocpmRun s lid addr ds.length with
  | none => none
  | some ts =>
    let s1 := exportAll s (ts.filterMap (ocpmWg s))
    match ts with
    | .scratch key off :: _ =>
      match tget s1.wgs key with
      | some w => some (putWg s1 key (wgWriteP w off ds))
      | none => none
    | _ => some ((fileRuns (ts.zip ds)).foldl (fun s x => filePutAt s x.1 x.2.1 x.2.2.1 x.2.2.2) s1)

/-- A scratchpad word read through the OCPM. -/
def ocpmWord (s : State) (lid addr : Nat) : Option Nat :=
  match ocpmByte s lid addr, ocpmByte s lid (addr + 7) with
  | some (.scratch key off), some (.scratch _ _) => (tget s.wgs key).map (fun w => ofBytes (mgetRun 0 w.scratch off 8))
  | _, _ => none

/-- The OCPM addresses of a workgroup's windows, each as its first and its end (R28). -/
def wgWindows (s : State) (k : Kernel) (key : Nat) (w : Workgroup) : List (Nat × Nat) :=
  let at0 (win off n : Nat) : Nat × Nat :=
    let a := w.lcore / 48 * 2 ^ 38 + w.lcore % 48 * 2 ^ 32 + win * 2 ^ 29 + off
    (a, a + n)
  at0 0 w.sbase k.scratch ::
    ((groupsOf s key).flatMap (fun p => [at0 1 p.2.vbase (512 * k.vregs), at0 2 p.2.tbase k.tilebytes]) ++
      w.spareBase.flatMap (fun b => [at0 1 b.1 (512 * k.vregs), at0 2 b.2 k.tilebytes]))

/-- The OCPM ranges of this package that an operation names (R19, R366); `pkg` is the package's number. -/
def ocpmNamed (pkg : Nat) (act : OpAct) : List (Int × Int) :=
  match act with
  | .remote p _ n => if p.ocpm && p.dest == pkg then [((p.addr.toNat : Int), (p.addr.toNat : Int) + (if n = 0 then 8 else n : Nat))] else []
  | .cpy .onchip _ _ sb rowb rows _ gstr =>
    (List.range rows).map (fun (r : Nat) => let a := (sb.toNat : Int) + (r : Int) * gstr; (a, a + rowb))
  | .cpyx .onchip _ w _ sb idx => idx.map (fun i => let a := (sb.toNat : Int) + (i.2 * w : Nat); (a, a + w))
  | _ => []

/-- The physical addresses that OCPM ranges named by a launch lie at: a DET launch names logical cores (R27, R376). -/
def ocpmReal (s : State) (det : Bool) (rs : List (Int × Int)) : List (Int × Int) :=
  if !det then rs
  else rs.map (fun r =>
    let n := ocpmCore r.1.toNat
    let m := remapCore s n
    let d : Int := ((m / 48 * 2 ^ 38 + m % 48 * 2 ^ 32 : Nat) : Int) - ((n / 48 * 2 ^ 38 + n % 48 * 2 ^ 32 : Nat) : Int)
    (r.1 + d, r.2 + d))

/-- Whether some range meets a window of a workgroup on a core. -/
def namesWg (s : State) (rs : List (Int × Int)) (k : Kernel) (key core : Nat) (w : Workgroup) : Bool :=
  (wgWindows s k key { w with lcore := core }).any (fun v => rs.any (fun r => decide (r.1 < (v.2 : Int)) && decide ((v.1 : Int) < r.2)))

/-- The workgroups whose windows an operation of a launch names are exported, of whatever launch they are: those of its own by their logical
cores, the others by their package cores (R366). -/
def exportNamed (s : State) (lid : Nat) (act : OpAct) : State :=
  match ocpmNamed s.info.pkgnum.toNat act with
  | [] => s
  | rs =>
    let real := ocpmReal s (launchDet s lid) rs
    exportAll s ((s.wgs.filter (fun p => wgResident p.2 && (match tget s.launches p.2.launch with
      | some l => if p.2.launch = lid then namesWg s rs l.kern p.1 p.2.lcore p.2 else namesWg s real l.kern p.1 p.2.core p.2
      | none => false))).map (fun p => p.1))

end Sys2Proof.Machine
end

