-- ==== Sys2Proof/Machine/Engine.lean ====
section
/-! DEFINITION. What the engines share: an operation's issue and its completion, the counters, the tape table, status records,
faults of operations, and the order in which operations may be performed (R19-R26, R228, R251-R255, R266-R268). -/

namespace Sys2Proof.Machine

/-! ## Counters (R19, R21, R228) -/

/-- The operations outstanding on a counter. -/
def pends (g : Group) (ctr : Ctr) : List Pend :=
  match ctr with
  | .ld => g.ld
  | .st => g.st
  | .tile => g.tile
  | .coll => g.coll

/-- Replacing a counter's operations. -/
def setPends (g : Group) (ctr : Ctr) (ps : List Pend) : Group :=
  match ctr with
  | .ld => { g with ld := ps }
  | .st => { g with st := ps }
  | .tile => { g with tile := ps }
  | .coll => { g with coll := ps }

/-- An operation complete on its counter. -/
def markDone (n : Nat) (report : Option DWord) (ps : List Pend) : List Pend :=
  ps.map (fun p => if p.op = n then { p with done := true, report := report } else p)

/-- The complete operations at the head of a counter leave it, in issue order (R228). -/
def leave : List Pend → List Pend × List DWord
  | [] => ([], [])
  | p :: t =>
    if p.done then
      let r := leave t
      (r.1, p.report.toList ++ r.2)
    else (p :: t, [])

/-- An operation completes on its counter: it and those held behind it leave; reports of tile operations are kept (R295). -/
def leaveCtr (g : Group) (ctr : Ctr) (n : Nat) (report : Option DWord) : Group :=
  let r := leave (markDone n report (pends g ctr))
  { setPends g ctr r.1 with reports := g.reports ++ r.2 }

/-- The oldest complete operations leave a counter while more than `n` remain, with what they report (R228). -/
def leaveDown (n : Nat) : List Pend → List Pend × List DWord
  | [] => ([], [])
  | p :: t =>
    if p.done ∧ n ≤ t.length then
      let r := leaveDown n t
      (r.1, p.report.toList ++ r.2)
    else (p :: t, [])

/-- The tape entries of an operation are released, on whatever core its workgroup stands. -/
def dropTape (s : State) (n : Nat) : State :=
  { s with cores := s.cores.map (fun p => (p.1, { p.2 with tape := p.2.tape.filter (fun e => e.op != n) })) }

/-- Complete tile operations of a DET group leave its counter, with their tape entries, while more than `n` remain: only where it is its program or
a commit that lets them go, so that no result depends on when they were performed (R228, R375; log 107). In another launch none waits so. -/
def tileLeave (s : State) (g : Group) (n : Nat) : State × Group :=
  if launchDet s g.launch then
    let r := leaveDown n g.tile
    ((g.tile.take (g.tile.length - r.1.length)).foldl (fun s p => dropTape { s with ops := tdel s.ops p.op } p.op) s,
     { g with tile := r.1, reports := g.reports ++ r.2 })
  else (s, g)

/-! ## Stalled groups -/

/-- The tile operations of a group still in flight, in issue order. -/
def tileOps (s : State) (g : Group) : List (Nat × EngineOp) :=
  g.tile.filterMap (fun p => if p.done then none else (tget s.ops p.op).map (fun o => (p.op, o)))

/-- Whether an operation is a TFLG. -/
def isTflg (o : EngineOp) : Bool :=
  match o.act with
  | .tile (.tflgGet _) _ _ _ _ | .tile (.tflgSet _ _) _ _ _ _ => true
  | _ => false

/-- Whether an earlier operation writes a tile this one touches, or reads a tile this one writes (R290). -/
def tileClash (o : EngineOp) (wr rd : List Nat) : Bool :=
  match o.act with
  | .tile _ _ _ w r => w.any (fun t => wr.contains t || rd.contains t) || r.any (fun t => wr.contains t)
  | _ => false

/-- Whether a tile operation meets an earlier one of its group still in flight (R290). -/
def clashes (s : State) (g : Group) (n : Nat) (o : EngineOp) : Bool :=
  match o.act with
  | .tile _ _ _ wr rd => (tileOps s g).any (fun p => decide (p.1 < n) && tileClash p.2 wr rd)
  | _ => false

/-- Whether a group stalls after the issue of a tile operation that meets an earlier one (R290). -/
def tileBlocked (s : State) (g : Group) : Bool := (tileOps s g).any (fun p => clashes s g p.1 p.2)

/-- A group stalled at issue tries again, or goes on past its last tile operation. -/
def recheck (s : State) (g : Group) : Group := if g.status = .stalled ∧ !tileBlocked s g then { g with status := .run } else g

/-- The groups of a core stalled at issue try again. -/
def recheckCore (s : State) (core : Nat) : State :=
  { s with groups := s.groups.map (fun p => if coreOf p.1 = core then (p.1, recheck s p.2) else p) }

/-- The groups of a die stalled at issue try again: a step table of the die is over (R334). -/
def recheckDie (s : State) (die : Nat) : State :=
  { s with groups := s.groups.map (fun p => if coreOf p.1 / 48 = die then (p.1, recheck s p.2) else p) }

/-- Every group stalled at issue tries again: a launch has given up what it held. -/
def recheckAll (s : State) : State := { s with groups := s.groups.map (fun p => (p.1, recheck s p.2)) }

/-! ## The group and workgroup of an operation -/

/-- The issuing group with its key, while it has not ended and its run has not been flushed: where it issued, or where it stands now. -/
def opAt (s : State) (o : EngineOp) : Option (Nat × Group) :=
  let own (g : Group) : Bool := g.launch == o.launch && g.wg == o.wg && g.gidx == o.gidx && !o.lost
  match tget s.groups o.group with
  | some g => if own g then some (o.group, g) else s.groups.find? (fun p => own p.2)
  | none => s.groups.find? (fun p => own p.2)

/-- The issuing group. -/
def opGroup (s : State) (o : EngineOp) : Option Group := (opAt s o).map (fun p => p.2)

/-- The workgroup's scratchpad an operation writes, while it exists (R371, R373). -/
def opScratch (s : State) (o : EngineOp) : Option Workgroup :=
  match tget s.wgs (wgKey o.launch o.wg) with
  | some w => match w.status with
    | .ended | .flushed => none
    | _ => if o.lost then none else some w
  | none => none

/-- The scratchpad an operation reads: as it was when the workgroup left its core (R368, R372), else as committed; a workgroup that has
ended left it (R22, R200, log 16). -/
def opSource (s : State) (o : EngineOp) : Bytes × Marks :=
  match o.src, tget s.wgs (wgKey o.launch o.wg) with
  | some x, _ => x
  | none, some w => (w.scratch, w.spoison)
  | none, none => ([], [])

/-- Bytes of the operation's scratchpad source. -/
def opRead (s : State) (o : EngineOp) (a n : Nat) : List PByte :=
  let x := opSource s o
  (List.range n).map (fun j => (mget 0 x.1 (a + j), mget false x.2 ((a + j) / 8)))

/-- Bytes written into the image of a saved workgroup's scratchpad, the last part of its context record (R253, R369, log 41). -/
def writeSaved (s : State) (w : Workgroup) (a : Nat) (bs : List PByte) : State :=
  match w.status, w.recAt, tget s.launches w.launch with
  | .saved, some pa, some l => (homeWrite s false (pa + w.recSize - l.kern.scratch + a) bs).1
  | _, _, _ => s

/-- Bytes written into the operation's scratchpad, or its saved image. -/
def opWrite (s : State) (o : EngineOp) (a : Nat) (bs : List PByte) : State :=
  match opScratch s o with
  | some w => writeSaved (putWg s (wgKey o.launch o.wg) (wgWriteP w a bs)) w a bs
  | none => s

/-! ## Statuses and faults (R254, R266) -/

/-- An element met a status. -/
def opMeet (o : EngineOp) (seen : Seen) : EngineOp := { o with seen := o.seen ||| seen }

/-- An element was not performed: the record names the lowest failing lane. -/
def opFail (o : EngineOp) (cause : Nat) (addr : DWord) (lane : Nat) : EngineOp :=
  let o1 := opMeet o seenFAULT
  if o.seen.testBit 4 && decide (o.lane ≤ lane) then o1
  else { o1 with cause := BitVec.ofNat 8 cause, addr := addr, lane := lane }

/-- The coordinates of a workgroup by its linear index (R360). -/
def wgCoords (l : Launch) (idx : Nat) : Nat × Nat × Nat :=
  (idx % l.gx, idx / l.gx % l.gy, idx / (l.gx * l.gy))

/-- What the fault record says of an operation. -/
def opFault (s : State) (o : EngineOp) : FaultInfo :=
  let xyz := match tget s.launches o.launch with
    | some l => wgCoords l o.wg
    | none => (0, 0, 0)
  { cause := o.cause.toNat, exited := o.exited, status := statusOf o.seen, core := o.core, slot := o.gidx, lane := o.lane,
    x := xyz.1, y := xyz.2.1, z := xyz.2.2, pc := o.pc.toNat, addr := o.addr.toNat, tag := o.tag.toNat }

/-! ## Issue (R19, R23, R26, R255) -/

/-- The record's checks (R253). -/
def recordCheck (c : Ctx) (off : DWord) : Option Miss :=
  let x := off.toInt
  if x % 16 ≠ 0 then some ⟨cALIGN, off, 0⟩
  else if x < 0 ∨ (c.size : Int) < x + 16 then some ⟨cBOUNDS, off, 0⟩
  else none

/-- A range of the scratchpad an operation reads or writes. -/
structure Span where
  lo : Nat
  hi : Nat
  write : Bool
deriving DecidableEq, Repr

/-- A new operation of a group, captured at issue. -/
def newOp (s : State) (c : Ctx) (ctr : Option Ctr) (scope : BitVec 3) (ord : BitVec 2) (record : Option Nat) (act : OpAct) :
    EngineOp :=
  { group := c.k, gidx := c.g.gidx, launch := c.g.launch, wg := c.g.wg, core := c.w.core, tag := (getCore s c.w.core).tag + 1,
    pc := c.g.pc, ctr := ctr, scope := scope, ord := ord, record := record, act := act, seen := 0, cause := 0, lane := 255,
    addr := 0, cells := [], cellSeen := [], vals := [], fence := c.g.fence, performed := false, exited := false,
    deferred := false, quantum := none, seq := s.opNo, src := none, lost := false }

/-- The logical core of an operation's workgroup. -/
def opLcore (s : State) (o : EngineOp) : Nat :=
  match tget s.wgs (wgKey o.launch o.wg) with
  | some w => w.lcore
  | none => o.core

/-- The tape entries in a table: every core's, and those kept for saved workgroups. -/
def allTape (s : State) : List TapeEntry := s.cores.flatMap (fun p => p.2.tape) ++ s.wgs.flatMap (fun p => p.2.held)

/-- Whether an operation is the tile engine's. -/
def tileOpB (o : EngineOp) : Bool :=
  match o.act with
  | .tile .. => true
  | _ => false

/-- Whether an entry counts in the table that a launch's operations on a core share: in a DET launch that of the logical core, the whole of it
the launch's own, since none of its results may depend on what others hold; else those of launches that are not DET (R26, R376; DEDUCED, log
100). A tile operation that has been performed takes no place. -/
def sharesTape (s : State) (lid lcore core : Nat) (det : Bool) (e : TapeEntry) : Bool :=
  match tget s.ops e.op with
  | some o => if det then o.launch == lid && opLcore s o == lcore && !(tileOpB o && o.performed) else o.core == core && !launchDet s o.launch
  | none => false

/-- Whether a DET launch's entry stays to the commit: of an operation issued at one (R380). -/
def lasting (e : TapeEntry) : Bool := e.own.isNone && e.tileOf.isNone

/-- What an operation with some entries comes to when its counter or its table has no room; `none` when both have (R21, R26). What only a commit
releases is waited for by parking until the commit; the operations that a DET quantum captures take their places in the table when they are issued
at the commit (R378, log 42). -/
def issueWait (s : State) (c : Ctx) (ctr : Ctr) (need : Nat) : Option Eff :=
  let es := (allTape s).filter (sharesTape s c.g.launch c.w.lcore c.w.core c.det)
  let full := decide (Config.counterMax ≤ (pends c.g ctr).length)
  if !c.det then (if full || decide (Config.tapeEntries < es.length + need) then some .stall else none)
  else if ctr ≠ .tile then (if full then some (.park s c.g .commit) else none)
  else if Config.tapeEntries < (es.filter lasting).length + need then some (.park s c.g .commit)
  else if full || decide (Config.tapeEntries < (es.filter (fun e => lasting e || e.tileOf.isSome)).length + need) then some .stall
  else none

/-- Issue of an operation: its counter, its tape entries and its status record's entry, all or none (R21, R26). In a DET
launch an operation of the copy or collective engine waits for the commit of its quantum (R378), where TAG counts it (R266), and until it is issued there its tape
entries, like those of tile operations, stop its own group only (R380, log 84). -/
def issueOp (s : State) (c : Ctx) (ctr : Ctr) (o : EngineOp) (spans : List Span) : Eff :=
  let core := getCore s c.w.core
  let all := spans.filter (fun x => decide (x.lo < x.hi)) ++
    (match o.record with
      | some r => [⟨r, r + 16, true⟩]
      | none => [])
  match issueWait s c ctr all.length with
  | some e => e
  | none =>
    let n := s.opNo
    let tileOf := if ctr = .tile then some c.k else none
    let ents := all.map (fun x => (⟨n, c.w.sbase + x.lo, c.w.sbase + x.hi, x.write, tileOf, if c.det then some c.k else none⟩ : TapeEntry))
    let defer := c.det && decide (ctr ≠ .tile)
    let s1 := putCore { s with opNo := n + 1, ops := tput s.ops n { o with deferred := defer } } c.w.core
      { core with tape := core.tape ++ ents, tag := if defer then core.tag else core.tag + 1 }
    let g := setPends c.g ctr (pends c.g ctr ++ [⟨n, false, none⟩])
    if defer then .next s1 { g with detOps := g.detOps ++ [n] } else .next (exportNamed s1 c.g.launch o.act) g

/-! ## Checks of scratchpad footprints (R255, R292) -/

/-- The first failing byte of an interval against the allocation. -/
def spanOut (size : Nat) (lo hi : Int) : Option Int :=
  if hi ≤ lo then none else if lo < 0 then some lo else if (size : Int) < hi then some (max lo size) else none

/-- The smallest integer of a list. -/
def minInt : List Int → Option Int
  | [] => none
  | x :: xs => some (xs.foldl min x)

/-- SCRATCH_BOUNDS over intervals, with the lowest failing offset. -/
def spansOut (size : Nat) (xs : List (Int × Int)) : Option Miss :=
  (minInt (xs.filterMap (fun x => spanOut size x.1 x.2))).map (fun o => ⟨cBOUNDS, dword o, 0⟩)

/-! ## Completion (R20, R228, R253) -/

/-- The status record (R253). -/
def recordBytes (s : State) (o : EngineOp) : List Byte :=
  bytesOf 8 (statusOf o.seen + o.seen % 32 * 256) ++ bytesOf 8 s.pt.toNat

/-- Writing FAT's old values into VD through the register window (R261, R175). -/
def deliverVals (g : Group) (o : EngineOp) : Group :=
  match o.act with
  | .far _ _ wide _ _ (some vd) _ =>
    let put (g : Group) (r : Nat) (f : DWord → Word) : Group :=
      setV g r (o.vals.foldl (fun v p => setAt v p.1 (f p.2)) (vreg g r))
    let g1 := put g vd (fun x => x.setWidth 32)
    if wide then put g1 (vd + 1) (fun x => x.extractLsb' 32 32) else g1
  | _ => g

/-- Whether an operation belongs to the copy engine. -/
def copyOp (o : EngineOp) : Bool :=
  match o.act with
  | .tile .. | .remote .. | .crun .. | .cbar .. => false
  | _ => true

/-- The end of an operation whose effects are performed: results in registers, the status record, the tape entries, the
counter, and the fault record when it completes with FAULT. -/
def finishOp (s : State) (n : Nat) (o : EngineOp) (report : Option DWord) : State :=
  let s1 := match o.record with
    | some r => opWrite s o r (clean (recordBytes s o))
    | none => s
  let s2 := dropTape { s1 with ops := tdel s1.ops n, reqs := s1.reqs.filter (fun e => e.op != n) } n
  let s3 := match opAt s2 o, o.ctr with
    | some (k, g), some ctr => putGroup s2 k (leaveCtr (deliverVals g o) ctr n report)
    | _, _ => s2
  let s4 := match o.act with
    | .crun .. => recheckDie s3 (o.core / 48)
    | _ => recheckCore s3 o.core
  if statusOf o.seen = 4 then faultAndHalt s4 o.launch (opFault s4 o) (if copyOp o then 1 else 2) o.addr.toNat 0 else s4

/-- Whether an operation completes at a commit: issued in a DET launch that has not been halted (R266, R380). -/
def atCommit (s : State) (o : EngineOp) : Bool :=
  o.quantum.isSome && (match tget s.launches o.launch with
    | some l => l.status == .running
    | none => false)

/-! ## Memory types of what an operation accesses (R51) -/

/-- An unsigned field of a list of bytes: `n` bytes from `off`. -/
def fld (bs : List Byte) (off n : Nat) : Nat := ofBytes ((bs.drop off).take n)

/-- Bytes of memory under a launch's lease, zero where no leaf maps them. -/
def leaseBytes (s : State) (lid va n : Nat) : List Byte :=
  (List.range n).map (fun j => match (tget s.launches lid).bind (fun l => findLeaf l.leaves ((va + j) % 2 ^ 64)) with
    | some f => memByte s (leafPa f ((va + j) % 2 ^ 64))
    | none => 0)

/-- What the node of a graph at an address accesses: itself, and what its COPY, LAUNCH, SIGNAL or STEP names (R264). -/
def nodeRanges (s : State) (lid va : Nat) : List (Nat × Nat) :=
  let b := leaseBytes s lid va 64
  (va, 64) ::
    (if fld b 0 1 = 1 then [(fld b 24 8, fld b 40 8), (fld b 32 8, fld b 40 8)] else if fld b 0 1 = 3 then [(fld b 24 8, 8)]
     else if fld b 0 1 = 2 ∨ fld b 0 1 = 4 then [(fld b 24 8, 64)] else [])

/-- What the step at an address accesses: itself, the local bytes of a PUT or WAIT, what a PUT or SIG writes in this package, and the words it
releases (R332, R333). -/
def stepRanges (s : State) (lid va : Nat) : List (Nat × Nat) :=
  let b := leaseBytes s lid va 64
  let k := fld b 0 1
  (va, 64) ::
    ((if k = 1 ∨ k = 3 then [(fld b 8 8, if k = 1 then fld b 24 8 else 8)] else []) ++
     (if (k = 1 ∨ k = 2) ∧ fld b 2 2 = s.info.pkgnum.toNat then [(fld b 16 8, if k = 1 then fld b 24 8 else 8)] else []) ++
     (List.range (min 4 (fld b 4 1))).map (fun j => (fld b 32 8 + 64 * fld b (40 + 2 * j) 2 + 4, 4)))

/-- What the table of a graph's STEP node accesses. -/
def nodeStep (s : State) (lid va : Nat) : List (Nat × Nat) :=
  let b := leaseBytes s lid va 64
  if fld b 0 1 = 4 then stepRanges s lid (fld b 24 8) else []

/-- The virtual addresses that an operation accesses itself, each as its first and its length; of a graph, its nodes' too (R51). A remote
write's address is one of this package's only when that is its destination. -/
def lineRanges (s : State) (o : EngineOp) : List (Nat × Nat) :=
  let va (x : XReg) (off : Int) : Nat := (((x.vbase.toNat : Int) + off) % 2 ^ 64).toNat
  match o.act with
  | .cpy dir x _ sb rowb rows _ gstr =>
    if dir = .onchip then [] else (List.range rows).map (fun (r : Nat) => (va x ((sb.toNat : Int) + (r : Int) * gstr), rowb))
  | .cpyx dir x w _ sb idx => if dir = .onchip then [] else idx.map (fun i => (va x ((sb.toNat : Int) + (i.2 * w : Nat)), w))
  | .cpyf (some x) sa _ n => [(va x sa.toNat, n)]
  | .far x _ wide _ _ _ lanes => lanes.map (fun e => (va x e.off, if wide then 8 else 4))
  | .skget x _ lanes | .skput x lanes | .skrec x _ _ lanes => lanes.map (fun e => (va x e.off, 8))
  | .grun x off nodes _ => (List.range nodes).flatMap (fun (j : Nat) => nodeRanges s o.launch (va x (off + 64 * j : Nat)))
  | .gsig x off node => [(va x (off + 64 * node : Nat), 8)]
  | .crun x off count _ => [(va x off, 64 * count)]
  | .remote p _ n => if p.ocpm || p.dest != s.info.pkgnum.toNat then [] else [(p.addr.toNat, max n 8)]
  | _ => []

/-- All that an operation accesses: with what the steps of its table, or of its graph's STEP nodes, access (R51). -/
def opRanges (s : State) (o : EngineOp) : List (Nat × Nat) :=
  lineRanges s o ++ (match o.act with
    | .grun x off nodes _ => (List.range nodes).flatMap (fun (j : Nat) => nodeStep s o.launch ((x.vbase.toNat + off + 64 * j) % 2 ^ 64))
    | .crun x off count _ => (List.range count).flatMap (fun (j : Nat) => stepRanges s o.launch ((x.vbase.toNat + off + 64 * j) % 2 ^ 64))
    | _ => [])

/-- The memory type of a virtual address of a launch's lease: 0 NORMAL, 1 WC, 2 DEV, 3 SO. -/
def memType (s : State) (lid : Nat) (va : Nat) : Nat :=
  match tget s.launches lid with
  | some l => match findLeaf l.leaves va with
    | some f => f.type
    | none => 0
  | none => 0

/-- Whether some byte of the ranges lies on a page whose type satisfies a test. -/
def touches (s : State) (lid : Nat) (rs : List (Nat × Nat)) (t : Nat → Bool) : Bool :=
  match tget s.launches lid with
  | none => false
  | some l => l.leaves.any (fun f => t f.type && rs.any (fun r => decide (r.1 < f.va + f.size) && decide (f.va < r.1 + r.2)))

/-- The ranges of a list, each once. -/
def rangesOnce (rs : List (Nat × Nat)) : List (Nat × Nat) := rs.foldl (fun t r => if t.contains r then t else t ++ [r]) []

/-- The runs of bytes for which an operation makes line requests: lanes that name one cell make one (R261, R277, R279). -/
def requestRanges (s : State) (o : EngineOp) : List (Nat × Nat) :=
  match o.act with
  | .far .. | .skget .. | .skrec .. => rangesOnce (lineRanges s o)
  | _ => lineRanges s o

/-- The line requests of a copy-engine operation, counted (R389, log 11). -/
def countOp (s : State) (o : EngineOp) : State :=
  if copyOp o then (requestRanges s o).foldl (fun s r => countLines s o.launch (some (o.core / 48)) r.1 r.2) s else s

/-- An operation's effects are performed: it completes at once, or in a DET launch at a commit (R380). -/
def performedOp (s : State) (n : Nat) (o : EngineOp) (report : Option DWord) : State :=
  let o1 := { o with performed := true }
  let s1 := countOp s o
  if atCommit s1 o then putOp s1 n o1 else finishOp s1 n o1 report

/-- Whether an operation touches a page of some type. -/
def opTouches (s : State) (o : EngineOp) (t : Nat → Bool) : Bool := touches s o.launch (opRanges s o) t

/-- Whether a byte at an address lies on a DEV or SO page. -/
def devAt (s : State) (lid va : Nat) : Bool := decide (2 ≤ memType s lid va)

/-! ## The order in which operations may be performed (R51-R53, R268, R380) -/

/-- Whether two operations are of one group. -/
def sameGroup (a b : EngineOp) : Bool := a.launch == b.launch && a.wg == b.wg && a.gidx == b.gidx

/-- Whether an operation other than GRUN and CRUN writes global memory, through the copy engine or as a remote write. -/
def storesGlobal (o : EngineOp) : Bool :=
  match o.act with
  | .cpy .out .. | .cpyx .out .. | .cpyf (some _) .. | .far .. | .skput .. | .skrec .. | .gsig .. | .remote .. => true
  | _ => false

/-- Whether an operation accesses the page types of which the order of a group's accesses depends: DEV or SO. -/
def onDev (s : State) (o : EngineOp) : Bool := opTouches s o (fun t => decide (2 ≤ t))

/-- Whether an operation accesses an SO page. -/
def onSo (s : State) (o : EngineOp) : Bool := opTouches s o (fun t => t == 3)

/-- Whether an operation runs a graph. -/
def runsGraph (o : EngineOp) : Bool :=
  match o.act with
  | .grun .. => true
  | _ => false

/-- Whether an operation may be what an earlier graph waits for, or a table, whose steps wait for words that others write. -/
def besides (o : EngineOp) : Bool :=
  match o.act with
  | .gsig .. | .crun .. => true
  | _ => false

/-- Whether two lists of address ranges share a byte. -/
def rangesMeet (xs ys : List (Nat × Nat)) : Bool := xs.any (fun x => ys.any (fun y => decide (x.1 < y.1 + y.2) && decide (y.1 < x.1 + x.2)))

/-- What the step at an address writes in this package, or, with `rel`, writes as a release: what a PUT or SIG writes, with SYNC set, and the words
that it releases (R333). -/
def stepWrites (s : State) (lid : Nat) (rel : Bool) (va : Nat) : List (Nat × Nat) :=
  let b := leaseBytes s lid va 64
  let k := fld b 0 1
  (if rel then [] else [(va + 5, 1)]) ++
    (if (k = 1 ∨ k = 2) ∧ fld b 2 2 = s.info.pkgnum.toNat ∧ (!rel ∨ (fld b 1 1).testBit 1) then [(fld b 16 8, if k = 1 then fld b 24 8 else 8)]
     else []) ++
    (List.range (min 4 (fld b 4 1))).map (fun j => (fld b 32 8 + 64 * fld b (40 + 2 * j) 2 + 4, 4))

/-- What the node of a graph at an address writes, or writes as a release: its state and its PRED, which is decremented as a release, and what its
COPY, SIGNAL or STEP writes (R264, R265). -/
def nodeWrites (s : State) (lid : Nat) (rel : Bool) (va : Nat) : List (Nat × Nat) :=
  let b := leaseBytes s lid va 64
  let k := fld b 0 1
  (if rel then (va + 4, 4) else (va, 8)) ::
    (if k = 1 then (if rel then [] else [(fld b 32 8, fld b 40 8)]) else if k = 3 then [(fld b 24 8, 8)]
     else if k = 4 then stepWrites s lid rel (fld b 24 8) else [])

/-- The bytes of memory that an operation writes, or writes as a release (R52). -/
def writeRanges (s : State) (o : EngineOp) (rel : Bool) : List (Nat × Nat) :=
  match o.act with
  | .grun x off nodes _ => (List.range nodes).flatMap (fun (j : Nat) => nodeWrites s o.launch rel ((x.vbase.toNat + off + 64 * j) % 2 ^ 64))
  | .crun x off count _ => (List.range count).flatMap (fun (j : Nat) => stepWrites s o.launch rel ((x.vbase.toNat + off + 64 * j) % 2 ^ 64))
  | _ => if storesGlobal o && (!rel || o.ord.getLsbD 1) then lineRanges s o else []

/-- Whether an operation writes on a WC page, or writes there as a release. -/
def writesWc (s : State) (o : EngineOp) (rel : Bool) : Bool := touches s o.launch (writeRanges s o rel) (fun t => t == 1)

/-- Whether an earlier operation's stores to WC pages must be performed before a later one's release there (R52); a graph's are not waited for by
what may be the decrement that it waits for. -/
def wcBefore (s : State) (a o : EngineOp) : Bool :=
  writesWc s a false && writesWc s o true && !(runsGraph a && besides o && rangesMeet (lineRanges s a) (opRanges s o))

/-- Whether an operation accesses memory in the order of its group: not the tile engine's, whose order is its own, and no CBAR. -/
def accesses (o : EngineOp) : Bool :=
  match o.act with
  | .tile .. | .cbar .. => false
  | _ => true

/-- Whether an earlier operation of the same group must be performed before a later one: one before a CFENCE between them, both of the
copy engine (R268); both on DEV or SO pages, or either on an SO page, whatever their engine (R51, R53); an earlier store to a WC page
before a release there (R52), all of it before all of the release's operation (log 6). -/
def ordersBefore (s : State) (a : Nat × EngineOp) (n : Nat) (o : EngineOp) : Bool :=
  sameGroup a.2 o && decide (a.1 < n) && accesses a.2 && accesses o &&
    ((copyOp a.2 && copyOp o && decide (a.1 < o.fence)) || (onDev s a.2 && onDev s o) || onSo s a.2 || onSo s o ||
      wcBefore s a.2 o)

/-- Whether an issued RST of a DET launch has its source still to read (R380). -/
def unread (o : EngineOp) : Bool :=
  match o.act with
  | .remote p _ _ => o.quantum.isSome && p.act == .store []
  | _ => false

/-- Whether an operation of a DET launch comes before another in commit order, as far as that shows (R380; DEDUCED, log 84): a copy-engine operation
before every later one; one before a GSIG or a CRUN only where they share an address; a graph, whose nodes may wait for later operations, only
before a copy-engine operation other than GSIG that shares an address with what its nodes name; an RST, until its source is read. -/
def commitsBefore (s : State) (a : Nat × EngineOp) (o : EngineOp) : Bool :=
  o.quantum.isSome && a.2.quantum.isSome && a.2.launch == o.launch && decide (a.2.seq < o.seq) &&
    (unread a.2 ||
      (copyOp a.2 && (if runsGraph a.2 then copyOp o && !besides o && rangesMeet (lineRanges s a.2) (lineRanges s o)
                      else !besides o || rangesMeet (lineRanges s a.2) (opRanges s o))))

/-- Whether an operation may be performed now. -/
def mayPerform (s : State) (n : Nat) (o : EngineOp) : Bool :=
  !o.deferred && !o.performed &&
    !s.ops.any (fun a => !a.2.performed && (ordersBefore s a n o || commitsBefore s a o))

/-- Whether nothing of an operation's group that is ordered before it is left, as a commit of its DET launch sees that: an operation is over
when a commit has counted it complete (R380). -/
def mayBeginAt (s : State) (n : Nat) (o : EngineOp) : Bool :=
  if o.quantum.isSome then !s.ops.any (fun a => ordersBefore s a n o || (!a.2.performed && commitsBefore s a o)) else mayPerform s n o

/-! ## Translation (R252, R384, R385) -/

/-- Whether some range of a launch's lease grants an access to a byte. -/
def leaseGrants (l : Launch) (va : Nat) (write : Bool) : Bool :=
  l.ranges.any (fun r => decide (r.base.toNat ≤ va) && decide (va < r.base.toNat + r.len) &&
    (if write then r.access.testBit 1 else r.access.testBit 0))

/-- Whether a byte lies in some range of the lease. -/
def leaseCovers (l : Launch) (va : Nat) : Bool :=
  l.ranges.any (fun r => decide (r.base.toNat ≤ va) && decide (va < r.base.toNat + r.len))

/-- A byte's physical address under the lease, and whether its page is sibling-keeping. -/
def leasePa (l : Launch) (va : Nat) (write : Bool) : Option (Nat × Bool) :=
  if leaseGrants l va write then (findLeaf l.leaves va).map (fun f => (leafPa f va, f.sk)) else none

/-- A byte at an offset of a translation register. -/
def xPa (l : Launch) (x : XReg) (off : Int) (write : Bool) : Option (Nat × Bool) :=
  if off < 0 ∨ (x.length : Int) < off + 1 then none
  else leasePa l ((x.vbase.toNat + off.toNat) % 2 ^ 64) write

/-- The address an offset of a translation register names. -/
def xVa (x : XReg) (off : Int) : DWord := x.vbase + dword off

end Sys2Proof.Machine
end

