-- ==== Sys2Proof/Machine/Copy.lean ====
section
/-! DEFINITION. The copy engine: translation registers, CFENCE, copies and fills at issue, the on-chip physical map, and the
completion of copy-engine operations (R27-R30, R223, R250-R259, R268, R281). -/

namespace Sys2Proof.Machine

/-! ## XSET, XINV, CFENCE (R251, R268) -/

/-- The first byte from `va` on that no range of a list covers, looking at `fuel` ranges in turn. -/
def coveredTo (rs : List LRange) (va : Nat) : Nat → Nat
  | 0 => va
  | n + 1 =>
    match rs.find? (fun r => decide (r.base.toNat ≤ va) && decide (va < r.base.toNat + r.len)) with
    | some r => coveredTo rs (r.base.toNat + r.len) n
    | none => va

/-- The end of the physically contiguous run of leaves that holds `va`. -/
def contiguousTo (ls : List Leaf) (va : Nat) : Nat → Nat
  | 0 => va
  | n + 1 =>
    match findLeaf ls va with
    | none => va
    | some l =>
      let stop := l.va + l.size
      match findLeaf ls stop with
      | some m => if leafPa m stop = l.pa + l.size then contiguousTo ls stop n else stop
      | none => stop

/-- LIMIT of a base and a length (R251). -/
def xLimit (l : Launch) (va len : Nat) : Nat := min len (contiguousTo l.leaves va l.leaves.length - va)

/-- XSET (R251). -/
def execXset (f : CX) (s : State) : Host.Outcome State Fault Refusal :=
  issue (.xset f) s (fun c =>
    let a := (sval c.g f.lit f.sa).toNat
    let n := (sval c.g f.lit f.sb).toNat
    if !canonical57 a || n == 0 || decide (2 ^ 48 < n) then operandTrap c 23
    else
      let stop := coveredTo c.l.ranges a (c.l.ranges.length + 1)
      if stop < a + n then .recorded cLEASE (BitVec.ofNat 64 stop)
      else
        let lim := xLimit c.l a n
        .next s (setS (setX c.g f.xr.toNat ⟨true, BitVec.ofNat 64 a, n, lim⟩) f.sd.toNat (BitVec.ofNat 64 lim)))

/-- XINV (R251): VALID is 0. -/
def execXinv (f : CX) (s : State) : Host.Outcome State Fault Refusal :=
  issue (.xinv f) s (fun c => .next s (setX c.g f.xr.toNat { xreg c.g f.xr.toNat with valid := false }))

/-- CFENCE (R268): operations issued later are performed after those issued before. -/
def execCfence (f : CX) (s : State) : Host.Outcome State Fault Refusal :=
  issue (.cfence f) s (fun c => .next s { c.g with fence := s.opNo })

/-! ## The shared end of issue (R253, R255) -/

/-- Footprint, then status record, then the operation. -/
def copyIssue (s : State) (c : Ctx) (f : CX) (ctr : Ctr) (act : OpAct) (foot : List (Int × Int)) (spans : List Span) : Eff :=
  match spansOut c.size foot with
  | some m => .trap m
  | none =>
    if f.md2.getLsbD 0 then
      let r := sval c.g f.lit f.sd
      match recordCheck c r with
      | some m => .trap m
      | none => issueOp s c ctr (newOp s c (some ctr) f.scope f.ord (some r.toNat) act) spans
    else issueOp s c ctr (newOp s c (some ctr) f.scope f.ord none act) spans

/-- The translation register an instruction names, or OPERAND with code 20 (R252). -/
def withX (c : Ctx) (f : CX) (body : XReg → Eff) : Eff :=
  let x := xreg c.g f.xr.toNat
  if x.valid then body x else operandTrap c 20

/-- The direction MOD[1:0] names. -/
def dirOf (m : Nat) : Dir := if m = 0 then .inn else if m = 1 then .out else .onchip

/-- The counter of a direction (R256). -/
def dirCtr (d : Dir) : Ctr := if d = .inn then .ld else .st

/-- The translation register of a copy; .ONCHIP uses none. -/
def dirX (c : Ctx) (f : CX) (d : Dir) (body : XReg → Eff) : Eff := if d = .onchip then body XReg.invalid else withX c f body

/-! ## CPY, CPYX, CPYF at issue (R256-R259) -/

/-- CPY's shape: bytes per row, rows, scratchpad stride; `none` for a value that raises OPERAND (R257). -/
def cpyShape (f : CX) (sc : DWord) : Option (Nat × Nat × Nat) :=
  if f.md.getLsbD 2 then
    let rowb := bits sc 0 20
    let rows := bits sc 20 12
    if bits sc 52 12 ≠ 0 ∨ rowb = 0 ∨ rows = 0 then none else some (rowb, rows, bits sc 32 20)
  else if sc.toNat = 0 ∨ 2 ^ 20 < sc.toNat then none
  else some (sc.toNat, 1, 0)

/-- CPY. -/
def execCpy (f : CX) (s : State) : Host.Outcome State Fault Refusal :=
  issue (.cpy f) s (fun c =>
    let dir := dirOf (bits f.md 0 2)
    dirX c f dir (fun x =>
      match cpyShape f (sval c.g f.lit f.sc) with
      | none => operandTrap c 15
      | some (rowb, rows, sstr) =>
        let sa := (sval c.g f.lit f.sa).toInt
        let gstr := if f.md.getLsbD 2 then (uniformVal c.g f.lit f.va.toNat 2).toInt else 0
        let hi := sa + ((rows - 1) * sstr + rowb : Nat)
        copyIssue s c f (dirCtr dir) (.cpy dir x sa.toNat (sval c.g f.lit f.sb) rowb rows sstr gstr)
          ((List.range rows).map (fun r => (sa + (r * sstr : Nat), sa + (r * sstr + rowb : Nat))))
          [⟨sa.toNat, hi.toNat, dir == .inn⟩]))

/-- The active lanes with their indices (R258, R260, R276). -/
def laneIdx (s : State) (c : Ctx) (f : CX) : List (Nat × Nat) :=
  let v := srcLanes s c f.lit f.va.toNat 1
  (activeLanes (execMask c.g)).map (fun l => (l, (v.getD l 0).toNat))

/-- CPYX. -/
def execCpyx (f : CX) (s : State) : Host.Outcome State Fault Refusal :=
  issue (.cpyx f) s (fun c =>
    let dir := dirOf (bits f.md 0 2)
    dirX c f dir (fun x =>
      let w := 2 ^ bits f.md 2 3
      let sa := (sval c.g f.lit f.sa).toInt
      copyIssue s c f (dirCtr dir) (.cpyx dir x w sa.toNat (sval c.g f.lit f.sb) (laneIdx s c f))
        [(sa, sa + (128 * w : Nat))] [⟨sa.toNat, (sa + (128 * w : Nat)).toNat, dir == .inn⟩]))

/-- CPYF. -/
def execCpyf (f : CX) (s : State) : Host.Outcome State Fault Refusal :=
  issue (.cpyf f) s (fun c =>
    let gl := f.md.getLsbD 0
    (if gl then withX c f else fun b => b XReg.invalid) (fun x =>
      let n := (sval c.g f.lit f.sc).toNat
      if n = 0 ∨ 2 ^ 20 < n then operandTrap c 15
      else
        let sa := sval c.g f.lit f.sa
        let act : OpAct := .cpyf (if gl then some x else none) sa (sval c.g f.lit f.sb) n
        if gl then copyIssue s c f .st act [] []
        else copyIssue s c f .ld act [(sa.toInt, sa.toInt + n)] [⟨sa.toNat, sa.toNat + n, true⟩]))

/-! ## On-chip destinations (R29) -/

/-- The statuses of bytes that have been written from a source in scratchpad (R253, R254). -/
def wroteSeen (ds : List PByte) : Seen :=
  (if ds.any (fun b => b.2) then seenPOISON else 0) ||| (if ds.any (fun b => !b.2) then seenOK else 0)

/-- Bytes of an OCPM destination from a nonnegative address, unit by unit: a unit that may not be reached faults with REMOTE (R29). -/
def ocpmWrite (lid : Nat) (p : State × EngineOp) (addr : Nat) (ds : List PByte) (lane : Nat) : State × EngineOp :=
  (chunks addr ds).foldl
    (fun p c => match ocpmPut p.1 lid c.1 c.2 with
      | some s1 => (s1, opMeet p.2 (wroteSeen c.2))
      | none => (p.1, opFail p.2 cREMOTE (BitVec.ofNat 64 c.1) lane)) p

/-- Bytes of an OCPM destination; those at a negative address name no window (R29). -/
def ocpmWriteAt (lid : Nat) (p : State × EngineOp) (addr : Int) (ds : List PByte) (lane : Nat) : State × EngineOp :=
  if addr < 0 then
    ocpmWrite lid (p.1, opFail p.2 cREMOTE (dword addr) lane) 0 (ds.drop (-addr).toNat) lane
  else ocpmWrite lid p addr.toNat ds lane

/-! ## The global side (R252, R254, R281) -/

/-- The runs of present bytes in a list, each with the position of its first. -/
def runsOf (i : Nat) : List (Option PByte) → List (Nat × List PByte)
  | [] => []
  | none :: t => runsOf (i + 1) t
  | some d :: t =>
    match runsOf (i + 1) t with
    | (j, ds) :: r => if j = i + 1 then (i, d :: ds) :: r else (i, [d]) :: (j, ds) :: r
    | [] => [(i, [d])]

/-- Bytes read through a translation register, each absent when it may not be read. -/
def gRead (s : State) (l : Launch) (o : EngineOp) (x : XReg) (off : Int) (lane : Nat) : Nat → List (Option PByte) × EngineOp
  | 0 => ([], o)
  | n + 1 =>
    match xPa l x off false with
    | none =>
      let r := gRead s l (opFail o cLEASE (xVa x off) lane) x (off + 1) lane n
      (none :: r.1, r.2)
    | some (pa, sk) =>
      let h := homeRead s sk pa 1
      let r := gRead s l (opMeet o h.2) x (off + 1) lane n
      (h.1.head? :: r.1, r.2)

/-- A run of bytes within one 8-byte unit written to global memory: the bytes the lease and LENGTH allow. -/
def gWriteUnit (l : Launch) (x : XReg) (lane : Nat) (p : State × EngineOp) (off : Int) (ds : List PByte) : State × EngineOp :=
  let js := List.range ds.length
  let o1 := match js.find? (fun (j : Nat) => (xPa l x (off + (j : Int)) true).isNone) with
    | some j => opFail p.2 cLEASE (xVa x (off + j)) lane
    | none => p.2
  let ok := js.map (fun (j : Nat) => if (xPa l x (off + (j : Int)) true).isSome then ds[j]? else none)
  (runsOf 0 ok).foldl
    (fun q r => match xPa l x (off + r.1) true with
      | none => q
      | some (pa, sk) =>
        let h := homeWrite q.1 sk pa r.2
        (h.1, if h.2.testBit 4 then opFail q.2 cTYPE (xVa x (off + r.1)) lane
              else opMeet q.2 (if h.2.testBit 3 then seenOVERFLOW else wroteSeen r.2))) (p.1, o1)

/-- Bytes written through a translation register. -/
def gWrite (l : Launch) (x : XReg) (lane : Nat) (p : State × EngineOp) (off : Int) (ds : List PByte) : State × EngineOp :=
  let va := (x.vbase.toInt + off) % 2 ^ 64
  (chunks va.toNat ds).foldl (fun p c => gWriteUnit l x lane p (off + ((c.1 : Int) - va)) c.2) p

/-- Bytes that arrived from a source written into scratchpad; those absent keep their old values. -/
def putRuns (s : State) (o : EngineOp) (a : Nat) (ds : List (Option PByte)) : State :=
  (runsOf 0 ds).foldl (fun s r => opWrite s o (a + r.1) r.2) s

/-! ## Performing copies (R257-R259) -/

/-- One run of bytes of a copy: scratchpad offset, global offset, length. -/
def copyRun (l : Launch) (dir : Dir) (x : XReg) (lane : Nat) (p : State × EngineOp) (a : Nat) (off : Int) (n : Nat) :
    State × EngineOp :=
  match dir with
  | .inn =>
    let r := gRead p.1 l p.2 x off lane n
    (putRuns p.1 p.2 a r.1, r.2)
  | .out => gWrite l x lane p off (opRead p.1 p.2 a n)
  | .onchip => ocpmWriteAt p.2.launch p off (opRead p.1 p.2 a n) lane

/-- A run of bytes of a copy: lane, scratchpad offset, global offset, length. -/
structure Piece where
  lane : Nat
  a : Nat
  off : Int
  n : Nat
deriving DecidableEq, Repr

/-- A run cut at the ends of 64 KiB pages, whose types may differ. -/
def cutPages (x : XReg) : Nat → Piece → List Piece
  | 0, p => [p]
  | fuel + 1, p =>
    let room := (65536 - ((x.vbase.toNat : Int) + p.off) % 65536).toNat
    if p.n ≤ room then [p] else { p with n := room } :: cutPages x fuel { p with a := p.a + room, off := p.off + room, n := p.n - room }

/-- The pieces of a copy in the order in which they are performed (R49, R53, R257, R258): as given, but those on DEV and SO pages by
ascending address. A copy inwards writes the scratchpad as given, and what it reads changes nothing. -/
def pieceOrder (s : State) (o : EngineOp) (dir : Dir) (x : XReg) (ps : List Piece) : List Piece :=
  if dir = .out then
    let qs := ps.flatMap (fun p => cutPages x (p.n / 65536 + 2) p)
    let dev (p : Piece) : Bool := devAt s o.launch (xVa x p.off).toNat
    qs.filter (fun p => !dev p) ++ sortBy (fun p => p.off) (qs.filter dev)
  else ps

/-- CPY performed. -/
def cpyPerform (l : Launch) (dir : Dir) (x : XReg) (sa : Nat) (sb : DWord) (rowb rows sstr : Nat) (gstr : Int)
    (p : State × EngineOp) : State × EngineOp :=
  (pieceOrder p.1 p.2 dir x
      ((List.range rows).map (fun (r : Nat) => (⟨255, sa + r * sstr, (sb.toNat : Int) + (r : Int) * gstr, rowb⟩ : Piece)))).foldl
    (fun p e => copyRun l dir x e.lane p e.a e.off e.n) p

/-- Whether an element of CPYX may be performed: every byte granted or reached, and no part of a sibling-keeping cell written. -/
def elemOk (s : State) (lid : Nat) (l : Launch) (dir : Dir) (x : XReg) (off : Int) (w : Nat) : Except Nat Unit :=
  if dir = .onchip then (if 0 ≤ off ∧ (ocpmRun s lid off.toNat w).isSome then .ok () else .error cREMOTE)
  else
    let ps := (List.range w).map (fun (j : Nat) => xPa l x (off + (j : Int)) (dir == .out))
    if ps.any Option.isNone then .error cLEASE
    else if dir == .out && ps.any (fun p => match p with
        | some q => q.2
        | none => false) && (w % 8 != 0 || (x.vbase.toInt + off) % 8 != 0) then .error cTYPE
    else .ok ()

/-- One piece of an element performed; what an element's pieces meet is gathered by lane. -/
def elemPiece (l : Launch) (dir : Dir) (x : XReg) (q : (State × EngineOp) × Tbl Nat) (e : Piece) : (State × EngineOp) × Tbl Nat :=
  let r := copyRun l dir x e.lane (q.1.1, { q.1.2 with seen := 0 }) e.a e.off e.n
  ((r.1, { r.2 with seen := q.1.2.seen }), tput q.2 e.lane ((tget q.2 e.lane).getD 0 ||| r.2.seen))

/-- CPYX performed: one element for each lane, which meets OK when it met no other status in any of its bytes (R253). -/
def cpyxPerform (l : Launch) (dir : Dir) (x : XReg) (w sa : Nat) (sb : DWord) (idx : List (Nat × Nat))
    (p : State × EngineOp) : State × EngineOp :=
  let elems := idx.map (fun i => (⟨i.1, sa + i.1 * w, (sb.toNat : Int) + (i.2 * w : Nat), w⟩ : Piece))
  let ok (e : Piece) : Bool := (elemOk p.1 p.2.launch l dir x e.off w).isOk
  let o := (elems.filter (fun e => !ok e)).foldl (fun o e => match elemOk p.1 p.2.launch l dir x e.off w with
    | .error cause => opFail o cause (xVa x e.off) e.lane
    | .ok _ => o) p.2
  let r := (pieceOrder p.1 o dir x (elems.filter ok)).foldl (elemPiece l dir x) ((p.1, o), [])
  (r.1.1, r.2.foldl (fun o m => if m.2 = 0 then o else opMeet o (elemSeen m.2)) r.1.2)

/-- The bytes of a fill from address `a`: byte (a mod 8) of the pattern (R259). -/
def fillBytes (pattern : DWord) (a n : Nat) : List PByte :=
  (List.range n).map (fun j => (BitVec.ofNat 8 (pattern.toNat / 2 ^ (8 * ((a + j) % 8))), false))

/-- CPYF performed. -/
def cpyfPerform (l : Launch) (x : Option XReg) (sa pattern : DWord) (n : Nat) (p : State × EngineOp) : State × EngineOp :=
  match x with
  | some x => gWrite l x 255 p sa.toNat (fillBytes pattern (x.vbase.toNat + sa.toNat) n)
  | none => (opWrite p.1 p.2 sa.toNat (fillBytes pattern sa.toNat n), opMeet p.2 seenOK)

/-! ## The end of a G task (R223) -/

/-- Eight bytes written through the OCPM, whatever units they lie in; nothing when a byte may not be reached. -/
def ocpmPut8 (s : State) (lid addr v : Nat) : Option State :=
  if (ocpmRun s lid addr 8).isNone then none
  else some ((chunks addr (clean (bytesOf 8 v))).foldl (fun s c => (ocpmPut s lid c.1 c.2).getD s) s)

/-- One step of a G task's end at an offset of the owner's scratchpad; `f` gives the new value of the word there. -/
def taskendStep (w : Workgroup) (off : Nat) (f : Nat → Nat) (p : State × EngineOp) : State × EngineOp :=
  if p.2.seen.testBit 4 then p
  else
    let a := ocpmScratch w off
    match (ocpmWord p.1 p.2.launch a).bind (fun v => ocpmPut8 p.1 p.2.launch a (f v)) with
    | some s1 => (s1, opMeet p.2 seenOK)
    | none => (p.1, opFail p.2 cREMOTE (BitVec.ofNat 64 a) 255)

/-- The result store, the DONE write and the subtraction, in that order; a step that may not be made at its OCPM address stops the later
ones (R29, R223). -/
def taskendPerform (link : TaskLink) (result : Option DWord) (p : State × EngineOp) : State × EngineOp :=
  match tget p.1.wgs (wgKey p.2.launch link.wg) with
  | none => (p.1, opFail p.2 cREMOTE (BitVec.ofNat 64 link.frame) 255)
  | some w =>
    let d1 := ofBytes (mgetRun 0 w.scratch (link.frame + 8) 8)
    let p1 := match result with
      | some v => taskendStep w (d1 / 2 ^ 20 % 2 ^ 20) (fun _ => v.toNat) p
      | none => p
    taskendStep w (d1 % 2 ^ 20) (fun v => (v + (2 ^ 64 - 1)) % 2 ^ 64) (taskendStep w link.frame (fun v => v ||| 2 ^ 35) p1)

/-! ## Effects at completion (R253) -/

/-- Whether every cell a far or sibling operation names has been performed. -/
def cellsDone (o : EngineOp) : Bool :=
  match o.act with
  | .far _ _ _ _ _ _ lanes => lanes.all (fun x => o.cells.contains x.off)
  | .skget _ _ lanes | .skrec _ _ _ lanes => lanes.all (fun x => o.cells.contains x.off)
  | .skput _ lanes => lanes.all (fun x => o.cells.contains x.lane)
  | _ => true

/-- The effects that happen at the completion of an operation; `none` when it is not ready, or is none of the copy
engine's. A graph's completion is the graph machine's. -/
def copyPerform (s : State) (o : EngineOp) : Option (State × EngineOp) :=
  match tget s.launches o.launch with
  | none => none
  | some l =>
    match o.act with
    | .cpy dir x sa sb rowb rows sstr gstr => some (cpyPerform l dir x sa sb rowb rows sstr gstr (s, o))
    | .cpyx dir x w sa sb idx => some (cpyxPerform l dir x w sa sb idx (s, o))
    | .cpyf x sa pattern n => some (cpyfPerform l x sa pattern n (s, o))
    | .taskend link result => some (taskendPerform link result (s, o))
    | .far .. | .skget .. | .skput .. | .skrec .. =>
      if cellsDone o then some (s, opMeet o (o.cellSeen.foldl (fun a p => a ||| p.2) 0)) else none
    | _ => none

end Sys2Proof.Machine
end

