-- ==== Sys2Proof/Machine/Space.lean ====
section
/-! DEFINITION. Memory by virtual address for the front end, the graph machine and the collective engines: under a lease, within a
window of a translation register, or through the page table of an address space (R252, R315, R356, R384). -/

namespace Sys2Proof.Machine

/-- How a virtual address is translated. -/
inductive Space where
  | lease (l : Launch)
  | window (l : Launch) (x : XReg)
  | asid (a : Nat)
deriving DecidableEq, Repr

/-- The physical address of a byte that may be accessed, and whether its page is sibling-keeping. -/
def spacePa (s : State) (sp : Space) (va : Nat) (write : Bool) : Option (Nat × Bool) :=
  match sp with
  | .lease l => leasePa l va write
  | .window l x => if (va + 2 ^ 64 - x.vbase.toNat) % 2 ^ 64 < x.length then leasePa l va write else none
  | .asid a =>
    match walk s a va with
    | some f => if (if write then f.w else f.r) then some (leafPa f va, f.sk) else none
    | none => none

/-- The first byte of a range that may not be accessed. -/
def firstBad (s : State) (sp : Space) (va n : Nat) (write : Bool) : Option Nat :=
  ((List.range n).find? (fun j => (spacePa s sp ((va + j) % 2 ^ 64) write).isNone)).map (fun j => (va + j) % 2 ^ 64)

/-- Reading a range: its bytes with the statuses met, or the first address that may not be read. -/
def spRead (s : State) (sp : Space) (va n : Nat) : Except Nat (List PByte × Seen) :=
  match firstBad s sp va n false with
  | some a => .error a
  | none =>
    .ok ((List.range n).foldr
      (fun j r => match spacePa s sp ((va + j) % 2 ^ 64) false with
        | some (pa, sk) => let h := homeRead s sk pa 1; (h.1 ++ r.1, h.2 ||| r.2)
        | none => r) ([], 0))

/-- A read's bytes without their marks, when none is poisoned. -/
def spBytes (s : State) (sp : Space) (va n : Nat) : Option (List Byte) :=
  match spRead s sp va n with
  | .ok (ds, _) => if ds.any (fun d => d.2) then none else some (ds.map (fun d => d.1))
  | .error _ => none

/-- Part of a sibling-keeping cell in a range (R281): its address. -/
def partCell (s : State) (sp : Space) (va : Nat) (ds : List PByte) : Option Nat :=
  ((chunks va ds).find? (fun c => c.2.length != 8 && (match spacePa s sp (c.1 % 2 ^ 64) true with
    | some p => p.2
    | none => false))).map (fun c => c.1 % 2 ^ 64)

/-- One write of a range: all of it, or none with the cause and the address. A write that a full cell refuses meets
OVERFLOW (R273). -/
def spWrite (s : State) (sp : Space) (va : Nat) (ds : List PByte) : Except (Nat × Nat) (State × Seen) :=
  match firstBad s sp va ds.length true with
  | some a => .error (cLEASE, a)
  | none =>
    match partCell s sp va ds with
    | some a => .error (cTYPE, a)
    | none =>
      .ok ((chunks va ds).foldl
        (fun p c => match spacePa s sp (c.1 % 2 ^ 64) true with
          | some (pa, sk) => let r := homeWrite p.1 sk pa c.2; (r.1, p.2 ||| r.2)
          | none => p) (s, 0))

/-- One read-modify-write of an aligned word of `n` bytes: the state, the statuses met and the old value. A sibling-keeping
page gives TYPE (R281), a poisoned word is left alone (R254). -/
def spRmw (s : State) (sp : Space) (va n : Nat) (f : Nat → Nat) : Except (Nat × Nat) (State × Seen × Nat) :=
  match firstBad s sp va n true with
  | some a => .error (cLEASE, a)
  | none =>
    match spacePa s sp va true with
    | none => .error (cLEASE, va)
    | some (pa, sk) =>
      if sk then .error (cTYPE, va)
      else
        let old := memNat s pa n
        if poisonIn s.mpoison pa n then .ok (s, seenPOISON, old)
        else .ok ((writePlain s pa (clean (bytesOf n (f old)))), seenOK, old)

/-- The units of a block by destination: the bytes of each aligned `k`-byte line, as offset and length (R357). -/
def unitsOf (k dst : Nat) : Nat → Nat → Nat → List (Nat × Nat)
  | 0, _, _ => []
  | fuel + 1, off, n =>
    if n = 0 then []
    else
      let m := min n (k - (dst + off) % k)
      (off, m) :: unitsOf k dst fuel (off + m) (n - m)

/-- What a block copy met: statuses, and the cause and address of its first failure. -/
structure CopyMet where
  seen : Seen
  cause : Nat
  addr : Nat
deriving DecidableEq, Repr

/-- A failure added to what was met. -/
def CopyMet.fail (m : CopyMet) (cause addr : Nat) : CopyMet :=
  if m.seen.testBit 4 then m else ⟨m.seen ||| seenFAULT, cause, addr⟩

/-- One unit of a global-to-global copy. -/
def copyUnit (sp : Space) (src dst : Nat) (p : State × CopyMet) (u : Nat × Nat) : State × CopyMet :=
  match spRead p.1 sp ((src + u.1) % 2 ^ 64) u.2 with
  | .error a => (p.1, p.2.fail cLEASE a)
  | .ok (ds, seen) =>
    match spWrite p.1 sp ((dst + u.1) % 2 ^ 64) ds with
    | .error (cause, a) => (p.1, p.2.fail cause a)
    | .ok (s1, seen1) => (s1, { p.2 with seen := p.2.seen ||| elemSeen (seen ||| seen1) })

/-- A global-to-global copy in units of 8 destination bytes: the units that cannot be performed are left, the others stand
(R254, R264). -/
def copyBlock (s : State) (sp : Space) (src dst n : Nat) : State × CopyMet :=
  (unitsOf 8 dst (n / 8 + 2) 0 n).foldl (copyUnit sp src dst) (s, ⟨0, 0, 0⟩)

/-! ## Graph words (R265) -/

/-- The address of PRED[j] of a graph. -/
def predVa (base j : Nat) : Nat := (base + 64 * j + 4) % 2 ^ 64

/-- The decrement of PRED[j] at its home: OVERFLOW when it was 0 already; whether it reached 0. It reads the word and writes it, so it needs R
and W (R252). -/
def decPred (s : State) (sp : Space) (base j : Nat) : Except (Nat × Nat) (State × Seen × Bool) :=
  match firstBad s sp (predVa base j) 4 false with
  | some a => .error (cLEASE, a)
  | none =>
    match spRmw s sp (predVa base j) 4 (fun x => x - 1) with
    | .error e => .error e
    | .ok (s1, seen, old) =>
      if seen = seenOK then (if old = 0 then .ok (s1, seenOVERFLOW, false) else .ok (s1, seenOK, old == 1))
      else .ok (s1, seen, false)

/-- How a graph reaches its nodes, and how its nodes' payload addresses are reached. -/
def graphSpaces (s : State) (gr : GraphRun) : Option (Space × Space) :=
  match gr.launch with
  | none => some (.asid gr.asid, .asid gr.asid)
  | some lid => (tget s.launches lid).map (fun l => (.window l gr.x, .lease l))

/-- The node of a graph whose PRED lies at a physical address, by whatever mapping the graph reaches its nodes. -/
def nodeAt (s : State) (gr : GraphRun) (pa : Nat) : Option Nat :=
  match graphSpaces s gr with
  | none => none
  | some (sp, _) => (List.range gr.nodes).find? (fun j =>
      ((spacePa s sp (predVa gr.base.toNat j) false).map (fun p => p.1)) == some pa)

/-- A node whose PRED a decrement brought to 0 is to start, in every graph under way that the word belongs to (R265). -/
def readyNode (s : State) (pa : Nat) : State :=
  { s with graphs := s.graphs.map (fun p =>
      if p.2.begun && !p.2.closed then
        (match nodeAt s p.2 pa with
          | some j => (p.1, { p.2 with ready := p.2.ready ++ [j] })
          | none => p)
      else p) }

/-- A decrement with what it starts. -/
def releaseNode (s : State) (sp : Space) (base j : Nat) : State × CopyMet :=
  match decPred s sp base j with
  | .error (cause, a) => (s, ⟨seenFAULT, cause, a⟩)
  | .ok (s1, seen, zero) =>
    (match zero, spacePa s sp (predVa base j) true with
      | true, some (pa, _) => readyNode s1 pa
      | _, _ => s1, ⟨seen, 0, 0⟩)

/-- Decrements of several nodes in order. -/
def releaseNodes (s : State) (sp : Space) (base : Nat) (js : List Nat) : State × CopyMet :=
  js.foldl (fun p j =>
    let r := releaseNode p.1 sp base j
    (r.1, if r.2.seen.testBit 4 then p.2.fail r.2.cause r.2.addr else { p.2 with seen := p.2.seen ||| r.2.seen }))
    (s, ⟨0, 0, 0⟩)

end Sys2Proof.Machine
end

