-- ==== Sys2Proof/Machine/Control.lean ====
section
/-! DEFINITION. Branches, calls and jumps, NOP, ENDG, TRAP, YIELD and the system instructions of MAJ 0x00, and the issue
policy (R182, R183, R196-R200, R235-R238, R245, R246). -/

namespace Sys2Proof.Machine

/-! ## Branches (R64, R65, R196, R197) -/

/-- COND (R65). -/
def condHolds (g : Group) (cond : BitVec 4) : Bool :=
  if cond = 0 then true
  else if cond = 1 then g.scc
  else if cond = 2 then !g.scc
  else if cond = 3 then execMask g == 0
  else if cond = 4 then execMask g != 0
  else if cond = 5 then vccMask g == 0
  else vccMask g != 0

/-- PC + 4 × sext(OFF20, 20) (R64). -/
def branchTarget (pc : DWord) (off : BitVec 20) : DWord := pc + 4 * off.signExtend 64

/-- BRC (R196). -/
def execBrc (f : SB) (s : State) : Host.Outcome State Fault Refusal :=
  issue (.brc f) s (fun c => if condHolds c.g f.cond then .goto s c.g (branchTarget c.g.pc f.off) else .next s c.g)

/-- CALL (R196): LINK is written only when the condition holds. -/
def execCall (f : SB) (s : State) : Host.Outcome State Fault Refusal :=
  issue (.call f) s (fun c =>
    if condHolds c.g f.cond then .goto s (setS c.g 155 (c.g.pc + 4)) (branchTarget c.g.pc f.off) else .next s c.g)

/-- A jump to a target; a misaligned one raises ALIGN at the jump (R57). -/
def jumpTo (s : State) (g : Group) (target : DWord) : Eff :=
  if target.extractLsb' 0 2 ≠ 0 then .raise cALIGN target else .goto s g target

/-- RET (R197). -/
def execRet (f : S2) (s : State) : Host.Outcome State Fault Refusal :=
  issue (.ret f) s (fun c => jumpTo s c.g (sreg c.g 155))

/-- JMP (R197): SA is read before LINK is written. -/
def execJmp (f : S2) (s : State) : Host.Outcome State Fault Refusal :=
  issue (.jmp f) s (fun c =>
    let g := if f.md.getLsbD 0 then setS c.g 155 (c.g.pc + BitVec.ofNat 64 c.len) else c.g
    jumpTo s g (sval c.g f.lit f.sa))

/-! ## NOP, ENDG, TRAP, YIELD -/

/-- NOP (R199). -/
def execNop (f : S2) (s : State) : Host.Outcome State Fault Refusal := issue (.nop f) s (fun c => .next s c.g)

/-- ENDG (R200): in a DET launch the stores and operations of its quantum are left for the commit (R378). -/
def execEndg (f : S2) (s : State) : Host.Outcome State Fault Refusal :=
  issue (.endg f) s (fun c =>
    if c.g.task.isSome then operandTrap c 23
    else if c.g.sp.fsp ≠ c.g.sp.fbase then operandTrap c 23
    else if c.g.ld ≠ [] ∨ c.g.tile ≠ [] then .park s c.g .drain
    else .gone (endGroup (countWg s c.g) c.k c.g))

/-- TRAP (R238): TPC is the next instruction's address. -/
def execTrap (f : S2) (s : State) : Host.Outcome State Fault Refusal :=
  issue (.trap f) s (fun c =>
    .trapAt ⟨cTRAPI, sval c.g f.lit f.sa, 0⟩ (c.g.pc + BitVec.ofNat 64 c.len) s c.g)

/-- Whether a group stands between commits: always, but for a group of a DET launch that has done something in its quantum
(R378, R381). -/
def quantumStart (s : State) (g : Group) : Bool :=
  match tget s.launches g.launch with
  | some l => !l.kern.det || (g.detCount == 0 && !g.detEnded && g.detBuf.isEmpty && g.detOps.isEmpty && g.candidates.isEmpty)
  | none => true

/-- Whether a group's quantum is over: it has retired Q instructions, or parked, which is how it waits for whatever only a commit releases
(log 42); and its tile operations have been performed (R311, R378). -/
def quantumOver (g : Group) : Bool :=
  g.tile.all (fun p => p.done) && (g.detEnded ||
    (match g.status with
      | .parked _ => true
      | _ => false))

/-- Whether it is a group's turn: every group of its DET launch on a lower logical core of the same package core has ended the quantum
(R376). -/
def turnOf (s : State) (g : Group) (w : Workgroup) : Bool :=
  s.wgs.all (fun p => p.2.launch != g.launch || w.lcore ≤ p.2.lcore || remapCore s p.2.lcore != remapCore s w.lcore ||
    (p.2.saved.all (fun q => quantumOver q.2) && s.groups.all (fun q => gWg q.2 != p.1 || quantumOver q.2)))

/-- Whether a group of a workgroup has inbound operations outstanding. -/
def ldOutstanding (s : State) (key : Nat) : Bool := s.groups.any (fun p => gWg p.2 == key && !p.2.ld.isEmpty)

/-- Whether a group may issue: running, or parked for what now holds, its launch running, its workgroup not being saved unless its operand log awaits its
trap (R243, R368), its quantum not over (R378), no logical tick still to come to it (R220), and in a DET launch its logical core's turn come (R376). The
inbound operations of a DET launch complete only at commits, so while a save waits for some of them its groups run on, quantum by quantum (log 64). -/
def mayIssue (s : State) (g : Group) : Bool :=
  (g.status == .run || parkMet s g) && !g.detEnded && !g.tickDue &&
    (match tget s.launches g.launch with
      | some l => l.status == .running
      | none => false) &&
    (match tget s.wgs (gWg g) with
      | some w =>
        (!launchDet s g.launch || turnOf s g w) &&
        (match w.status with
          | .resident | .draining _ _ => true
          | .saving => (!g.handler && !g.log.entries.isEmpty) || !(quantumStart s g || quantumOver g) || (launchDet s g.launch && ldOutstanding s (gWg g))
          | _ => false)
      | none => false)

/-- The groups of a partition that may issue, by key. -/
def partReady (s : State) (core part : Nat) : List Nat :=
  (s.groups.filter (fun p => coreOf p.1 == core && p.2.part == part && mayIssue s p.2)).map (fun p => p.1)

/-- Whether YIELD holds a group (R236). -/
def held (s : State) (k : Nat) (g : Group) (others : List Nat) : Bool :=
  match g.hold with
  | none => false
  | some (n, waiting) => n != 0 && waiting.any (fun j => j != k && others.contains j && (tget s.groups j).isSome)

/-- The ready groups of a partition: those that may issue and that YIELD does not hold (R246). -/
def readyGroups (s : State) (core part : Nat) : List (Nat × Group) :=
  let ks := partReady s core part
  s.groups.filter (fun p => ks.contains p.1 && !held s p.1 p.2 ks)

/-- YIELD (R236): held until every other group of its partition that is ready as it retires has issued once, or 64 selection cycles pass
(log 92). -/
def execYield (f : S2) (s : State) : Host.Outcome State Fault Refusal :=
  issue (.yield f) s (fun c =>
    .next s { c.g with hold := some (64, ((readyGroups s c.w.core c.g.part).map (fun p => p.1)).filter (fun k => k != c.k)) })

/-! ## CLKR, IDR, SYSR, SYSW, FENCE -/

/-- CLKR (R235): the core's clock count; RIC in a DET launch. -/
def execClkr (f : S2) (s : State) : Host.Outcome State Fault Refusal :=
  issue (.clkr f) s (fun c =>
    .next s (setS c.g f.sd.toNat (if c.det then c.g.sp.ric else (getCore s c.w.core).clk)))

/-- The identity values (R237). -/
def identity (s : State) (c : Ctx) (sel : Nat) : DWord :=
  BitVec.ofNat 64 <|
    if sel = 0 then c.w.lcore
    else if sel = 1 then c.g.gidx
    else if sel = 2 then c.w.x + c.w.y * 2 ^ 32
    else if sel = 3 then c.w.z
    else if sel = 4 then c.g.launch
    else if sel = 5 then s.info.pkgnum.toNat
    else if c.det then 0 else c.g.part

/-- IDR (R237). -/
def execIdr (f : S2) (s : State) : Host.Outcome State Fault Refusal :=
  issue (.idr f) s (fun c => .next s (setS c.g f.sd.toNat (identity s c f.md.toNat)))

/-- Special register n (R182). -/
def specialGet (p : Special) (n : Nat) : DWord :=
  if n = 0 then p.tpc
  else if n = 1 then p.tcause.setWidth 64
  else if n = 2 then p.tval
  else if n = 3 then p.texec.lo
  else if n = 4 then p.texec.hi
  else if n = 5 then p.tlane.lo
  else if n = 6 then p.tlane.hi
  else if n = 7 then p.fsp.setWidth 64
  else if n = 8 then p.fbase.setWidth 64
  else if n = 9 then p.flim.setWidth 64
  else if n = 10 then p.tdepth.setWidth 64
  else if n = 11 then p.hbcnt
  else if n = 12 then p.ric
  else p.pjoin.setWidth 64

/-- The special registers with number n, of those that can be written, replaced (R182). -/
def specialSet (p : Special) (n : Nat) (v : DWord) : Special :=
  if n = 0 then { p with tpc := v }
  else if n = 1 then { p with tcause := v.setWidth 8 }
  else if n = 2 then { p with tval := v }
  else if n = 3 then { p with texec := Mask.ofPair v p.texec.hi }
  else if n = 4 then { p with texec := Mask.ofPair p.texec.lo v }
  else if n = 5 then { p with tlane := Mask.ofPair v p.tlane.hi }
  else if n = 6 then { p with tlane := Mask.ofPair p.tlane.lo v }
  else if n = 7 then { p with fsp := v.setWidth 21 }
  else if n = 8 then { p with fbase := v.setWidth 21 }
  else if n = 9 then { p with flim := v.setWidth 21 }
  else p

/-- The width of a special register (R182). -/
def specialWidth (n : Nat) : Nat := if n = 1 ∨ n = 10 then 8 else if 7 ≤ n ∧ n ≤ 9 then 21 else if n = 13 then 40 else 64

/-- PRIV: TVAL is word 0 (R244). -/
def privTrap (c : Ctx) : Eff := .raise cPRIV (((encode c.inst).headD 0).setWidth 64)

/-- SYSR (R182). -/
def execSysr (f : S2) (s : State) : Host.Outcome State Fault Refusal :=
  issue (.sysr f) s (fun c =>
    if f.sa.toNat < 7 ∧ !c.g.handler then privTrap c
    else .next s (setS c.g f.sd.toNat (specialGet c.g.sp f.sa.toNat)))

/-- The frame-stack registers stay aligned, ordered and within the allocation (R183). -/
def stackOk (size : Nat) (p : Special) : Bool :=
  p.fsp.toNat % 64 == 0 && p.fbase.toNat % 64 == 0 && p.flim.toNat % 64 == 0 && decide (p.fbase.toNat ≤ p.fsp.toNat) &&
    decide (p.fsp.toNat ≤ p.flim.toNat) && decide (p.flim.toNat ≤ size)

/-- SYSW (R182, R183): writing TPC empties the operand log (R239). -/
def execSysw (f : S2) (s : State) : Host.Outcome State Fault Refusal :=
  issue (.sysw f) s (fun c =>
    let n := f.sd.toNat
    let v := sval c.g f.lit f.sa
    if 10 ≤ n ∨ (n < 7 ∧ !c.g.handler) then privTrap c
    else if 7 ≤ n ∧ !c.g.handler ∧ c.g.sp.fsp ≠ c.g.sp.fbase then privTrap c
    else if v.toNat / 2 ^ specialWidth n ≠ 0 then operandTrap c 13
    else
      let p := specialSet c.g.sp n v
      if 7 ≤ n ∧ !stackOk c.size p then operandTrap c 23
      else .next s { c.g with sp := p, log := if n = 0 then OperandLog.empty else c.g.log })

/-- FENCE (R50, R235): a release waits until the group's earlier thread writes are performed at its scope. Outside DET launches they are
performed already (log 6); in one the buffered stores are at the commit, for which the group parks unless the scope is the group's own. -/
def execFence (f : S2) (s : State) : Host.Outcome State Fault Refusal :=
  issue (.fence f) s (fun c =>
    if c.det && f.md.getLsbD 1 && f.sa.toNat % 8 != 0 && !c.g.detBuf.isEmpty then .park s c.g .commit else .next s c.g)

/-! ## The issue policy (R245, R246) -/

/-- Whether group `a` goes before group `b`: one that has waited 64 cycles first, the longest waiting among those; then the
smaller urgency; then the lower slot (R246). -/
def goesBefore (a b : Nat × Group) : Bool :=
  let old (x : Nat × Group) : Bool := decide (64 ≤ x.2.waited)
  if old a && old b then
    if a.2.waited = b.2.waited then decide (a.1 < b.1) else decide (b.2.waited < a.2.waited)
  else if old a then true
  else if old b then false
  else if a.2.urg = b.2.urg then decide (a.1 < b.1) else decide (a.2.urg < b.2.urg)

/-- The group a partition picks. -/
def pickGroup : List (Nat × Group) → Option (Nat × Group)
  | [] => none
  | x :: xs => some (xs.foldl (fun b y => if goesBefore y b then y else b) x)

/-- The ready groups that a partition may pick in a selection cycle: none when it has picked twice in the clock, and no group twice (R246). -/
def pickable (s : State) (core part : Nat) : List (Nat × Group) :=
  let picked := (getCore s core).picked.filter (fun x => x.1 == part)
  if 2 ≤ picked.length then [] else (readyGroups s core part).filter (fun p => !picked.any (fun x => x.2 == p.1))

/-- A partition has picked a group in the current clock. -/
def notePick (s : State) (core part k : Nat) : State :=
  let c := getCore s core
  putCore s core { c with picked := (part, k) :: c.picked }

/-- The waits and holds of a partition after a selection cycle that picked `k`. -/
def afterPick (gs : Tbl Group) (ks : List Nat) (core part k : Nat) : Tbl Group :=
  gs.map (fun p =>
    if coreOf p.1 = core ∧ p.2.part = part then
      let g := { p.2 with status := if p.1 = k then .run else p.2.status, waited := if p.1 ≠ k ∧ ks.contains p.1 then p.2.waited + 1 else 0 }
      (p.1, match g.hold with
        | some (n, ws) => if p.1 = k then { g with hold := none } else { g with hold := some (n - 1, ws.filter (fun j => j != k)) }
        | none => g)
    else p)

/-- PARTITION_ISSUE_SELECT: the partition's pick issues next (R246). -/
def execPartitionIssueSelect (core part : Nat) (s : State) : Host.Outcome State Fault Refusal :=
  match s.cur, pickGroup (pickable s core part) with
  | none, some (k, _) =>
    .next { notePick s core part k with
      groups := afterPick s.groups ((pickable s core part).map (fun p => p.1)) core part k, cur := some (.group k) }
  | _, _ => .next s

end Sys2Proof.Machine
end

