-- ==== Sys2Proof/Machine/Scalar.lean ====
section
/-! DEFINITION. Scalar arithmetic, immediates, compares, bitfields and scratchpad access (R184-R195, R205, R206). -/

namespace Sys2Proof.Machine

/-! ## MAJ 0x02 (R187) -/

/-- An instruction of MAJ 0x02: SD = op SD SA; with .SC, SCC says whether the result is nonzero. -/
def arith (s : State) (c : Ctx) (f : S2) (op : DWord → DWord → DWord) : Eff :=
  let r := op (sreg c.g f.sd.toNat) (sval c.g f.lit f.sa)
  let g := setS c.g f.sd.toNat r
  .next s (if f.md.getLsbD 1 then { g with scc := r != 0 } else g)

/-- floor(d × a / 2^64): signed, or unsigned with .U. -/
def mulHigh (u : Bool) (d a : DWord) : DWord :=
  if u then BitVec.ofNat 64 (d.toNat * a.toNat / 2 ^ 64) else dword (d.toInt * a.toInt / 2 ^ 64)

/-- The smaller value: signed, or unsigned with .U. -/
def minBy (u : Bool) (d a : DWord) : DWord :=
  if (if u then decide (a.toNat < d.toNat) else decide (a.toInt < d.toInt)) then a else d

/-- The larger value: signed, or unsigned with .U. -/
def maxBy (u : Bool) (d a : DWord) : DWord :=
  if (if u then decide (d.toNat < a.toNat) else decide (d.toInt < a.toInt)) then a else d

/-- SADD (R187). -/
def execSadd (f : S2) (s : State) : Host.Outcome State Fault Refusal :=
  issue (.sadd f) s (fun c => arith s c f (fun d a => d + a))
/-- SSUB (R187). -/
def execSsub (f : S2) (s : State) : Host.Outcome State Fault Refusal :=
  issue (.ssub f) s (fun c => arith s c f (fun d a => d - a))
/-- SMUL (R187). -/
def execSmul (f : S2) (s : State) : Host.Outcome State Fault Refusal :=
  issue (.smul f) s (fun c => arith s c f (fun d a => d * a))
/-- SMULH (R187). -/
def execSmulh (f : S2) (s : State) : Host.Outcome State Fault Refusal :=
  issue (.smulh f) s (fun c => arith s c f (mulHigh (f.md.getLsbD 0)))
/-- SAND (R187). -/
def execSand (f : S2) (s : State) : Host.Outcome State Fault Refusal :=
  issue (.sand f) s (fun c => arith s c f (fun d a => d &&& a))
/-- SOR (R187). -/
def execSor (f : S2) (s : State) : Host.Outcome State Fault Refusal :=
  issue (.sor f) s (fun c => arith s c f (fun d a => d ||| a))
/-- SXOR (R187). -/
def execSxor (f : S2) (s : State) : Host.Outcome State Fault Refusal :=
  issue (.sxor f) s (fun c => arith s c f (fun d a => d ^^^ a))
/-- SANDN (R187). -/
def execSandn (f : S2) (s : State) : Host.Outcome State Fault Refusal :=
  issue (.sandn f) s (fun c => arith s c f (fun d a => d &&& ~~~a))
/-- SSHL (R187). -/
def execSshl (f : S2) (s : State) : Host.Outcome State Fault Refusal :=
  issue (.sshl f) s (fun c => arith s c f (fun d a => d <<< (a.toNat % 64)))
/-- SSHR (R187). -/
def execSshr (f : S2) (s : State) : Host.Outcome State Fault Refusal :=
  issue (.sshr f) s (fun c => arith s c f (fun d a => d >>> (a.toNat % 64)))
/-- SSRA (R187). -/
def execSsra (f : S2) (s : State) : Host.Outcome State Fault Refusal :=
  issue (.ssra f) s (fun c => arith s c f (fun d a => d.sshiftRight (a.toNat % 64)))
/-- SMIN (R187). -/
def execSmin (f : S2) (s : State) : Host.Outcome State Fault Refusal :=
  issue (.smin f) s (fun c => arith s c f (minBy (f.md.getLsbD 0)))
/-- SMAX (R187). -/
def execSmax (f : S2) (s : State) : Host.Outcome State Fault Refusal :=
  issue (.smax f) s (fun c => arith s c f (maxBy (f.md.getLsbD 0)))
/-- SMOV (R187). -/
def execSmov (f : S2) (s : State) : Host.Outcome State Fault Refusal :=
  issue (.smov f) s (fun c => arith s c f (fun _ a => a))
/-- SPOPC (R187). -/
def execSpopc (f : S2) (s : State) : Host.Outcome State Fault Refusal :=
  issue (.spopc f) s (fun c => arith s c f (fun _ a => BitVec.ofNat 64 (popcount 64 a.toNat)))
/-- SCLZ (R187). -/
def execSclz (f : S2) (s : State) : Host.Outcome State Fault Refusal :=
  issue (.sclz f) s (fun c => arith s c f (fun _ a => BitVec.ofNat 64 (clz 64 a.toNat)))

/-! ## Immediates (R188, R189) -/

/-- SADDI: SD + sext(IMM16). -/
def execSaddi (f : SI) (s : State) : Host.Outcome State Fault Refusal :=
  issue (.saddi f) s (fun c => .next s (setS c.g f.sd.toNat (sreg c.g f.sd.toNat + f.imm.signExtend 64)))
/-- SLI: sext(IMM16). -/
def execSli (f : SI) (s : State) : Host.Outcome State Fault Refusal :=
  issue (.sli f) s (fun c => .next s (setS c.g f.sd.toNat (f.imm.signExtend 64)))
/-- SLI with LEN 10: the literal. -/
def execSliLit (f : SIL) (s : State) : Host.Outcome State Fault Refusal :=
  issue (.sliLit f) s (fun c => .next s (setS c.g f.sd.toNat f.lit))

/-! ## Compares, selects, bitfields (R190-R192) -/

/-- The six relations of SCMP and VCMP on integers (R146, R190). -/
def relation (pred : Nat) (a b : Int) : Bool :=
  if pred = 0 then a == b
  else if pred = 1 then a != b
  else if pred = 2 then decide (a < b)
  else if pred = 3 then decide (a ≤ b)
  else if pred = 4 then decide (b < a)
  else decide (b ≤ a)

/-- SCMP's outcome. -/
def scmpResult (f : SX) (a b : DWord) : Bool :=
  if f.md.getLsbD 3 then relation (bits f.md 0 3) a.toNat b.toNat else relation (bits f.md 0 3) a.toInt b.toInt

/-- SCMP (R190). -/
def execScmp (f : SX) (s : State) : Host.Outcome State Fault Refusal :=
  issue (.scmp f) s (fun c => .next s { c.g with scc := scmpResult f (sval c.g f.lit f.sa) (sval c.g f.lit f.sb) })
/-- SSEL (R191). -/
def execSsel (f : SX) (s : State) : Host.Outcome State Fault Refusal :=
  issue (.ssel f) s (fun c =>
    .next s (setS c.g f.sd.toNat (if c.g.scc then sval c.g f.lit f.sa else sval c.g f.lit f.sb)))

/-- The position and length of SBFX and SBFI: from SB with .R, else from IMM32 (R192). -/
def fieldPosLen (c : Ctx) (f : SX) : Nat × Nat :=
  if f.md.getLsbD 1 then
    let b := sval c.g f.lit f.sb
    (bits b 0 8, bits b 8 8)
  else (bits f.imm 0 8, bits f.imm 8 8)

/-- The field SBFX extracts (R192). -/
def extractField (signed : Bool) (a : DWord) (pos len : Nat) : DWord :=
  let n := min len 64
  let x := a.toNat / 2 ^ pos % 2 ^ n
  if n = 0 then 0 else if signed then dword (sextI n x) else BitVec.ofNat 64 x

/-- Bits [pos+m-1:pos] of `d` replaced by the low m bits of `a`, within `w` bits (R145, R192). -/
def insertField (w d a pos len : Nat) : Nat :=
  let m := if w ≤ pos then 0 else min len (w - pos)
  d - d / 2 ^ pos % 2 ^ m * 2 ^ pos + a % 2 ^ m * 2 ^ pos

/-- SBFX (R192). -/
def execSbfx (f : SX) (s : State) : Host.Outcome State Fault Refusal :=
  issue (.sbfx f) s (fun c =>
    let p := fieldPosLen c f
    .next s (setS c.g f.sd.toNat (extractField (f.md.getLsbD 0) (sval c.g f.lit f.sa) p.1 p.2)))
/-- SBFI (R192). -/
def execSbfi (f : SX) (s : State) : Host.Outcome State Fault Refusal :=
  issue (.sbfi f) s (fun c =>
    let p := fieldPosLen c f
    .next s (setS c.g f.sd.toNat
      (BitVec.ofNat 64 (insertField 64 (sreg c.g f.sd.toNat).toNat (sval c.g f.lit f.sa).toNat p.1 p.2))))

/-! ## Scratchpad access (R193-R195) -/

/-- The offset of a scalar access: SA + IMM32, exact (R194). -/
def scalarOff (c : Ctx) (f : SX) : Int := (sval c.g f.lit f.sa).toInt + f.imm.toInt

/-- The width in bytes (R193 MOD[1:0]). -/
def scalarW (f : SX) : Nat := 2 ^ bits f.md 0 2

/-- A loaded value extended to 64 bits (R194). -/
def extendTo64 (signed : Bool) (w x : Nat) : DWord := if signed then dword (sextI (8 * w) x) else BitVec.ofNat 64 x

/-- A failed check of a logged access (R241): TAPE goes to the log, any other cause traps. -/
def missEff (m : Miss) : Eff := if m.cause = cTAPE then .tape m else .trap m

/-- SLD's effect. -/
def sldEff (f : SX) (s : State) (c : Ctx) : Eff :=
  let off := scalarOff c f
  match checkAcc s c false true false [⟨0, off, scalarW f⟩] with
  | some m => missEff m
  | none =>
    .next s (setS c.g f.sd.toNat (extendTo64 (f.md.getLsbD 2) (scalarW f) (scratchNat s c.g off.toNat (scalarW f))))

/-- SST's effect. -/
def sstEff (f : SX) (s : State) (c : Ctx) : Eff :=
  let off := scalarOff c f
  match checkAcc s c false false true [⟨0, off, scalarW f⟩] with
  | some m => missEff m
  | none =>
    let r := threadStore s c.g c.det off.toNat (bytesOf (scalarW f) (sval c.g f.lit f.sb).toNat)
    .next r.1 r.2

/-- SLDA's read-modify-write (R195). -/
def sldaDo (f : SX) (s : State) (c : Ctx) : Eff :=
  let off := scalarOff c f
  let w := scalarW f
  match checkAcc s c false true true [⟨0, off, w⟩] with
  | some m => missEff m
  | none =>
    let old := scratchNat s c.g off.toNat w
    let v := (sval c.g f.lit f.sb).toNat % 2 ^ (8 * w)
    let b := (sval c.g f.lit f.sc).toNat % 2 ^ (8 * w)
    let s1 := scratchPut s (gWg c.g) off.toNat (bytesOf w (atomNew (bits f.md 4 4) (8 * w) (f.md.getLsbD 2) old v b))
    .next s1 (setS c.g f.sd.toNat (extendTo64 (f.md.getLsbD 2) w old))

/-- SLDA's effect: in a DET launch it parks until the commit, and its checks are made there (R206, R378; DESIGN CHOICE, log 89). -/
def sldaEff (f : SX) (s : State) (c : Ctx) : Eff := if c.det then .park s c.g .commit else sldaDo f s c

/-- SLD (R194). -/
def execSld (f : SX) (s : State) : Host.Outcome State Fault Refusal := issue (.sld f) s (sldEff f s)
/-- SST (R194). -/
def execSst (f : SX) (s : State) : Host.Outcome State Fault Refusal := issue (.sst f) s (sstEff f s)
/-- SLDA (R195). -/
def execSlda (f : SX) (s : State) : Host.Outcome State Fault Refusal := issue (.slda f) s (sldaEff f s)

end Sys2Proof.Machine
end

