-- ==== Sys2Proof/Machine/Sync.lean ====
section
/-! DEFINITION. WAIT, WAITW and the barrier instructions (R227-R234). -/

namespace Sys2Proof.Machine

/-! ## WAIT (R227, R228) -/

/-- Whether a counter is no greater than its field. -/
def within (n : List Pend) (f : BitVec 6) : Bool := decide (n.length ≤ f.toNat)

/-- WAIT's condition. -/
def waitMet (g : Group) (f : WF) : Bool := within g.ld f.ld && within g.st f.st && within g.tile f.tile && within g.coll f.coll

/-- WAIT: then a tile operation that reported a flag is reported once (R227, R295). In a DET launch it lets the tile operations go that its field
makes it observe (R228), and an unmet tile condition alone stalls without parking (R378). -/
def execWait (f : WF) (s : State) : Host.Outcome State Fault Refusal :=
  issue (.wait f) s (fun c =>
    let r := tileLeave s c.g f.tile.toNat
    if waitMet r.2 f then
      match r.2.reports with
      | [] => .next r.1 r.2
      | pc :: rest => .trapAt ⟨cFP, pc, 0⟩ c.g.pc r.1 { r.2 with reports := rest }
    else if c.det && within c.g.ld f.ld && within c.g.st f.st && within c.g.coll f.coll then .stall
    else .park s c.g (.wait f.ld.toNat f.st.toNat f.tile.toNat f.coll.toNat))

/-! ## WAITW (R229, R230) -/

/-- WAITW's condition on the word and SB, compared at the width. -/
def waitwMet (f : SX) (w x b : Nat) : Bool :=
  let rd (v : Nat) : Int := if f.md.getLsbD 3 then sextI (8 * w) v else (v % 2 ^ (8 * w) : Nat)
  let cond := bits f.md 0 3
  if cond = 0 then rd x == rd b else if cond = 1 then rd x != rd b else if cond = 2 then decide (rd b ≤ rd x)
  else decide (rd x < rd b)

/-- A group's watch of an 8-byte unit of its workgroup's scratchpad, in place of an earlier one (R230). -/
def watchUnit (s : State) (c : Ctx) (unit : Nat) : State :=
  match tget s.wgs (gWg c.g) with
  | some w => putWg s (gWg c.g) { w with watch := ⟨c.g.gidx, unit, false⟩ :: w.watch.filter (fun x => x.gidx != c.g.gidx) }
  | none => s

/-- WAITW (R230): its checks are precise, TAPE included. -/
def execWaitw (f : SX) (s : State) : Host.Outcome State Fault Refusal :=
  issue (.waitw f) s (fun c =>
    let off := scalarOff c f
    let w := if f.md.getLsbD 4 then 8 else 4
    match checkAcc s c false true false [⟨0, off, w⟩] with
    | some m => .trap m
    | none =>
      let x := scratchNat s c.g off.toNat w
      if waitwMet f w x (sval c.g f.lit f.sb).toNat then
        .next s (setS c.g f.sd.toNat (extendTo64 (f.md.getLsbD 3) w x))
      else .park (watchUnit s c (off.toNat / 8)) c.g .waitw)

/-! ## Workgroup barriers: the word form (R231, R232) -/

/-- An arrival's new word: PHASE, ARRIVED, EXPECTED; and whether the phase completes. -/
def arriveWord (w : Nat) : Nat × Bool :=
  let ph := w / 2 ^ 32
  let a := w / 2 ^ 16 % 2 ^ 16 + 1
  let e := w % 2 ^ 16
  if e ≤ a then ((ph + 1) % 2 ^ 32 * 2 ^ 32 + e, true) else (ph * 2 ^ 32 + a * 2 ^ 16 + e, false)

/-- The urgency a group is left with in a state: an operation may have reset it (R245). -/
def withUrg (s : State) (k : Nat) (g : Group) : Group :=
  match tget s.groups k with
  | some h => { g with urg := h.urg }
  | none => g

/-- The word form's arrival: the state after it, and the phase it found; or a failed check. -/
def barArrive (s : State) (c : Ctx) (off : Int) : Except Miss (State × Nat) :=
  match checkAcc s c false true true [⟨0, off, 8⟩] with
  | some m => .error m
  | none =>
    let w := scratchNat s c.g off.toNat 8
    let r := arriveWord w
    let s1 := scratchPut s (gWg c.g) off.toNat (bytesOf 8 r.1)
    .ok (if r.2 then resetUrgency s1 [gWg c.g] else s1, w / 2 ^ 32)

/-- BARA, word form. -/
def baraWord (f : SX) (s : State) (c : Ctx) : Eff :=
  match barArrive s c (scalarOff c f) with
  | .error m => .trap m
  | .ok (s1, ph) => .next s1 (setS (withUrg s1 c.k c.g) f.sd.toNat (BitVec.ofNat 64 ph))

/-- The wait of BARW and BARAW, word form: until PHASE differs from the token. The checks of R160 are made whenever the instruction runs,
so a BARAW that has arrived may trap when it wakes (DESIGN CHOICE, log 98). -/
def barWaitWord (s : State) (c : Ctx) (g : Group) (off : Int) (token : Word) : Eff :=
  match checkAcc s c false true true [⟨0, off, 8⟩] with
  | some m => .trap m
  | none =>
    if scratchNat s g off.toNat 8 / 2 ^ 32 ≠ token.toNat then .next s g
    else .park s g (.barWord off.toNat token)

/-- BARAW, word form: it arrives once, and waits when it runs again with the token it found, on the word it named then; after a save the
word is that of SA as it stands, for the record holds the token only (R232, R370). -/
def barawWord (f : SX) (s : State) (c : Ctx) : Eff :=
  match c.g.barw with
  | some (tok, off) => barWaitWord s c c.g (off.elim (scalarOff c f) (fun o => (o : Int))) tok
  | none =>
    match barArrive s c (scalarOff c f) with
    | .error m => .trap m
    | .ok (s1, ph) =>
      let g := setS (withUrg s1 c.k c.g) f.sd.toNat (BitVec.ofNat 64 ph)
      barWaitWord s1 c { g with barw := some (BitVec.ofNat 32 ph, some (scalarOff c f).toNat) } (scalarOff c f) (BitVec.ofNat 32 ph)

/-! ## Named barriers (R233) -/

/-- Whether a named barrier may be used: its number below BARRIERS, and not by a task. -/
def namedOk (c : Ctx) (f : SX) : Bool := decide (f.imm.toNat < c.l.kern.barriers) && c.g.task.isNone

/-- The instance a barrier instruction names. -/
def namedBar (c : Ctx) (f : SX) : BarInst := getBar c.l (bits f.md2 0 3) f.imm.toNat (instOf (bits f.md2 0 3) c.w.lcore)

/-- An arrival at a named barrier, and what it completes. -/
def namedArrive (s : State) (c : Ctx) (f : SX) : State :=
  let x := namedBar c f
  let x1 := { x with arrivals := x.arrivals ++ [(c.g.wg, c.g.gidx)] }
  completeBar (putLaunch s c.g.launch (putBar c.l x1)) c.g.launch x1

/-- The phase of the instance as a state holds it. -/
def namedPhase (s : State) (c : Ctx) (f : SX) : Word :=
  match tget s.launches c.g.launch with
  | some l => (getBar l (bits f.md2 0 3) f.imm.toNat (instOf (bits f.md2 0 3) c.w.lcore)).phase
  | none => 0

/-- BARA.N. -/
def baraNamed (f : SX) (s : State) (c : Ctx) : Eff :=
  if !namedOk c f then operandTrap c 23
  else
    let s1 := namedArrive s c f
    .next s1 (setS (withUrg s1 c.k c.g) f.sd.toNat ((namedPhase s c f).setWidth 64))

/-- The wait of BARW.N and BARAW.N. -/
def barWaitNamed (s : State) (c : Ctx) (g : Group) (f : SX) (token : Word) : Eff :=
  if namedPhase s c f ≠ token then .next s g
  else .park s g (.barNamed (bits f.md2 0 3) f.imm.toNat token)

/-- BARAW.N. -/
def barawNamed (f : SX) (s : State) (c : Ctx) : Eff :=
  if !namedOk c f then operandTrap c 23
  else match c.g.barw with
    | some (tok, _) => barWaitNamed s c c.g f tok
    | none =>
      let ph := namedPhase s c f
      let s1 := namedArrive s c f
      let g := setS (withUrg s1 c.k c.g) f.sd.toNat (ph.setWidth 64)
      barWaitNamed s1 c { g with barw := some (ph, none) } f ph

/-! ## The barrier instructions -/

/-- BARA past a DET launch's wait for the commit. -/
def baraDo (f : SX) (s : State) (c : Ctx) : Eff := if f.md.getLsbD 0 then baraNamed f s c else baraWord f s c

/-- BARW's effect. Of the barrier instructions R232 has BARA and BARAW park for the commit in a DET launch, not BARW: it sees committed values only
(R380), and returns at once when its token is out of date (R234; DEDUCED, log 108). -/
def barwDo (f : SX) (s : State) (c : Ctx) : Eff :=
  let tok : Word := (sval c.g f.lit f.sb).setWidth 32
  if f.md.getLsbD 0 then (if !namedOk c f then operandTrap c 23 else barWaitNamed s c c.g f tok)
  else barWaitWord s c c.g (scalarOff c f) tok

/-- BARAW past a DET launch's wait for the commit. -/
def barawDo (f : SX) (s : State) (c : Ctx) : Eff := if f.md.getLsbD 0 then barawNamed f s c else barawWord f s c

/-- In a DET launch an arrival parks until the commit, and its checks are made there (R232, R378; DESIGN CHOICE, log 89); a BARAW that has
arrived waits as BARW does. -/
def orCommit (s : State) (c : Ctx) (e : Eff) : Eff := if c.det && c.g.barw.isNone then .park s c.g .commit else e

/-- BARA. -/
def execBara (f : SX) (s : State) : Host.Outcome State Fault Refusal := issue (.bara f) s (fun c => orCommit s c (baraDo f s c))
/-- BARW. -/
def execBarw (f : SX) (s : State) : Host.Outcome State Fault Refusal := issue (.barw f) s (barwDo f s)
/-- BARAW. -/
def execBaraw (f : SX) (s : State) : Host.Outcome State Fault Refusal :=
  issue (.baraw f) s (fun c => orCommit s c (barawDo f s c))

/-! ## Waking -/

/-- A parked or stalled group runs its instruction again. -/
def wake (s : State) (k : Nat) : State :=
  match tget s.groups k with
  | some g =>
    match g.status with
    | .parked _ | .stalled => putGroup s k { g with status := .run }
    | _ => s
  | none => s

/-- Whether a parked WAITW looks again: a write to the word's 8-byte unit was performed, or 1,024 clocks passed since it parked (R230); in
a DET launch it waits for a commit (R378). -/
def waitwDue (s : State) (k : Nat) (g : Group) : Bool :=
  g.status == .parked .waitw && !launchDet s g.launch &&
    (decide (g.parkClk.toNat + 1024 ≤ (getCore s (coreOf k)).clk.toNat) ||
      (match tget s.wgs (gWg g) with
        | some w => w.watch.any (fun x => x.gidx == g.gidx && x.hit)
        | none => false))

/-- Whether a parked RWAIT looks again: a write to the word's line was performed, or 4 µs passed since it parked (R330); in a DET launch it
waits for a commit (R378). -/
def rwaitDue (s : State) (k : Nat) (g : Group) : Bool :=
  g.status == .parked .rwait && !launchDet s g.launch &&
    (decide (g.parkPt.toNat + 4 * Config.ticksPerUs ≤ s.pt.toNat) || s.lines.any (fun x => x.group == k && x.hit))

/-- WAITW_RECHECK (R230). -/
def execWaitwRecheck (group : Nat) (s : State) : Host.Outcome State Fault Refusal :=
  match tget s.groups group with
  | some g => .next (if waitwDue s group g then wake s group else s)
  | none => .next s

/-- RWAIT_RECHECK (R330). -/
def execRwaitRecheck (group : Nat) (s : State) : Host.Outcome State Fault Refusal :=
  match tget s.groups group with
  | some g => .next (if rwaitDue s group g then wake s group else s)
  | none => .next s

/-- Whether a group's operand log has waited 64 clocks with nothing issued (R241). An access of it that waits for the commit of its quantum
is being performed again after its trap, and takes none (R242). -/
def logDue (s : State) (k : Nat) (g : Group) : Bool :=
  !g.handler && !g.log.entries.isEmpty && g.status != .frozen && g.status != .parked .commit && s.cur != some (.group k) &&
    decide (g.lastIssue.toNat + 64 ≤ (getCore s (coreOf k)).clk.toNat)

/-- OPERAND_LOG_TIMEOUT: 64 clocks with no issue behind a logged access take the TAPE trap (R241). -/
def execOperandLogTimeout (group : Nat) (s : State) : Host.Outcome State Fault Refusal :=
  match groupCtx s group (.nop {}) with
  | some c =>
    if !logDue s group c.g then .next s
    else .next (takeLogTrap s { c with g := { c.g with status := .run } } { c.g with status := .run } c.g.pc)
  | none => .next s

end Sys2Proof.Machine
end

