-- ==== Sys2Proof/Machine/Queues.lean ====
section
/-! DEFINITION. Queue descriptors, the doorbell, the reconcile pass, SUBMIT, the LAUNCH instruction, queue faults, and workers
choosing queues (R225, R346-R353, R359, R363). -/

namespace Sys2Proof.Machine

/-! ## Descriptors (R346) -/

/-- Whether the front end does no work of queues, graphs, placement or migration: the package has stopped, or its boot has failed (R396, R398, R405). -/
def feStopped (s : State) : Bool := s.fe.stopped || s.info.bootstate == 2

/-- What the front end keeps of a queue. -/
def getQ (s : State) (q : Nat) : Queue := (tget s.fe.queues q).getD Queue.init

/-- The front end's fields of a descriptor: offset, size and value (R346). -/
def feFields (x : Queue) : List (Nat × Nat × Nat) :=
  [(11, 1, x.qstate.toNat), (18, 2, x.lastseq.toNat), (20, 4, x.discards.toNat), (24, 4, x.rdidx.toNat),
   (28, 4, x.wridx.toNat), (36, 4, x.stepc.toNat), (40, 8, x.bytec.toNat), (48, 4, x.lastlaunch.toNat),
   (52, 1, x.qfcode.toNat), (56, 8, x.qfpt.toNat), (64, 8, x.qfarg.toNat)]

/-- What the front end keeps of a queue, nothing of it written to the descriptor. -/
def keepQ (s : State) (q : Nat) (x : Queue) : State := { s with fe := { s.fe with queues := tput s.fe.queues q x } }

/-- Keeping a queue's new fields: each changed one is written to the descriptor, and so are those at the offsets `also`, which the front
end writes again whatever software has put there (R347). -/
def putQ (s : State) (q : Nat) (x : Queue) (also : List Nat := []) : State :=
  keepQ (((feFields (getQ s q)).zip (feFields x)).foldl
    (fun s p => if p.1 = p.2 ∧ !also.contains p.2.1 then s else memPut s (qAddr s q + p.2.1) p.2.2.1 p.2.2.2) s) q x

/-- The front end reads a newly active descriptor (R348), and of a faulted one RDIDX and QSTATE back: software has resumed it when QSTATE is
0 (R347, R359). The cursor of a packet that software has skipped starts again. -/
def lookQueue (s : State) (q : Nat) : State :=
  let a := qAddr s q
  let x := getQ s q
  if !(qDesc s q).active then s
  else if !x.known then
    keepQ s q { x with
        known := true, qstate := BitVec.ofNat 8 (memNat s (a + 11) 1), lastseq := BitVec.ofNat 16 (memNat s (a + 18) 2),
        discards := BitVec.ofNat 32 (memNat s (a + 20) 4), rdidx := BitVec.ofNat 32 (memNat s (a + 24) 4),
        wridx := BitVec.ofNat 32 (memNat s (a + 28) 4), stepc := BitVec.ofNat 32 (memNat s (a + 36) 4),
        bytec := BitVec.ofNat 64 (memNat s (a + 40) 8), lastlaunch := BitVec.ofNat 32 (memNat s (a + 48) 4),
        qfcode := BitVec.ofNat 8 (memNat s (a + 52) 1), qfpt := BitVec.ofNat 64 (memNat s (a + 56) 8),
        qfarg := BitVec.ofNat 64 (memNat s (a + 64) 8) }
  else if x.qstate = 3 then
    let rd := BitVec.ofNat 32 (memNat s (a + 24) 4)
    let x1 := { x with rdidx := rd, qstate := if memNat s (a + 11) 1 = 0 then 0 else 3 }
    let s1 := keepQ s q x1
    if rd = x.rdidx then s1 else putQ s1 q { x1 with stepc := 0, bytec := 0 } [36, 40]
  else s

/-- A worker leaves its queue (R363). -/
def leaveQueue (s : State) (q : Nat) : State := { s with fe := { s.fe with workers := s.fe.workers.filter (fun p => p.2 != q) } }

/-- A launch whose lease is delayed is given up with its packet (R359). -/
def dropGranting (s : State) (q : Nat) : State :=
  match (getQ s q).granting with
  | some lid => { s with launches := tdel s.launches lid }
  | none => s

/-! ## Queue faults (R359) -/

/-- Queue fault codes. -/
def qTYPE : Nat := 1
def qFIELD : Nat := 2
def qDESCRIPTOR : Nat := 3
def qRANGES : Nat := 4
def qACCESS : Nat := 5
def qTIMEOUT : Nat := 6
def qGRAPH : Nat := 7
def qPOISON : Nat := 8

/-- A queue fault (R359): the queue stops at the packet, its fault fields and an event record are written. -/
def queueFault (s : State) (q code arg : Nat) : State :=
  let s1 := putQ (dropGranting s q) q { (getQ s q) with
    qstate := 3, qfcode := BitVec.ofNat 8 code, qfpt := s.pt, qfarg := BitVec.ofNat 64 arg, waitFrom := none, granting := none, packet := none,
    holding := none } [11, 52, 56, 64]
  leaveQueue (raiseEvent s1 (eventNow s 0x41 3 0 q code arg)) q

/-- The last two conditions of R350. -/
def wrOk (d : QDesc) (x : Queue) (w : Word) : Bool :=
  decide ((w - x.rdidx).toNat ≤ 2 ^ d.logsize) && decide ((w - x.wridx).toNat ≤ 2 ^ d.logsize)

/-! ## TAIL and the reconcile pass (R350, R351) -/

/-- DISCARDS grows: the front end's own count of a queue that is active or finishes its packet, else the one in its descriptor, which is
software's then (R347, R348). -/
def discardTail (s : State) (q : Nat) : State :=
  let x := getQ s q
  if x.known && ((qDesc s q).active || underWay x) then putQ s q { x with discards := x.discards + 1 }
  else memPut s (qAddr s q + 20) 4 (memNat s (qAddr s q + 20) 4 + 1)

/-- The queue that a write to a doorbell page names: bits [63:48] of a write of 8 bytes or more; of a smaller one the two bytes that it
puts there, when it carries both (R350). -/
def tailQueue (off size : Nat) (value : DWord) : Option Nat :=
  let at0 := off % 8
  if 8 ≤ size then some (bits value 48 16)
  else if at0 ≤ 6 ∧ 8 ≤ at0 + size then some (bits value (8 * (6 - at0)) 16)
  else none

/-- Whether a host function may reach the package: it exists, it is not frozen, and boot has not failed (R396, R399, R403). -/
def hostMay (s : State) (fn : Nat) : Bool := decide (fn ≤ 15) && !s.frozenFns.contains fn && s.info.bootstate != 2

/-- A host function is frozen, with an event record (R403). -/
def freezeFn (s : State) (fn addr : Nat) : State :=
  if s.frozenFns.contains fn then s
  else raiseEvent { s with frozenFns := s.frozenFns ++ [fn] } (eventNow s 0x45 4 0 fn addr 0)

/-- Whether a doorbell page is a function's: every one of physical function 0, those firmware assigns of a virtual function (R399). -/
def hasPage (s : State) (fn page : Nat) : Bool := fn == 0 || ((tget s.fe.fnPages fn).getD []).contains page

/-- An accepted or discarded write to a doorbell page that serves the queue (R350). -/
def tailDo (s : State) (q off size : Nat) (value : DWord) : State :=
  let n : BitVec 16 := value.extractLsb' 32 16
  let w : Word := value.extractLsb' 0 32
  let s1 := lookQueue s q
  let d := qDesc s1 q
  let x := getQ s1 q
  let ahead := (n - x.lastseq).toNat
  if off % 8 == 0 && size == 8 && d.active && !d.submit && decide (1 ≤ ahead) && decide (ahead ≤ 32767) && wrOk d x w then
    putQ s1 q { x with lastseq := n, wridx := w } [18, 28]
  else discardTail s1 q

/-- TAIL (R350): a write of a host function at an offset of a doorbell page. One outside the function's pages freezes it (R403). A package that has
stopped takes none (R398, R405). -/
def execTail (door : Doorbell) (off size : Nat) (value : DWord) (s : State) : Host.Outcome State Fault Refusal :=
  if !hostMay s door.fn || decide (64 ≤ door.page) || feStopped s then .next s
  else if !hasPage s door.fn door.page then .next (freezeFn s door.fn (4096 * door.page + off))
  else match tailQueue off size value with
    | some q => .next (if q / 16 = door.page then tailDo s q off size value else s)
    | none => .next s

/-- One queue's part of the reconcile pass. -/
def reconcileQueue (s : State) (q : Nat) : State :=
  let s1 := lookQueue s q
  let d := qDesc s1 q
  let x := getQ s1 q
  let w := BitVec.ofNat 32 d.wrmir
  if d.active && !d.submit && wrOk d x w && w != x.wridx then putQ s1 q { x with wridx := w } else s1

/-- RECONCILE_PASS (R351); none once the package has stopped or its boot has failed (R396, R398, R405). -/
def execReconcilePass (s : State) : Host.Outcome State Fault Refusal :=
  .next (if feStopped s then s else (List.range Config.queues).foldl reconcileQueue s)

/-- QUEUE_DEACTIVATION (R348): software has cleared ACTIVE; the packet under way is finished first. -/
def execQueueDeactivation (q : Nat) (s : State) : Host.Outcome State Fault Refusal :=
  let x := getQ s q
  let cleared := if x.qstate = 3 then !(memNat s (qAddr s q + 10) 1).testBit 0 else !(qDesc s q).active
  if x.known && cleared && !underWay x then
    let s1 := putQ s q { x with qstate := 0 } [11]
    .next { s1 with fe := { s1.fe with queues := tput s1.fe.queues q { (getQ s1 q) with known := false, packet := none },
                                        workers := s1.fe.workers.filter (fun p => p.2 != q) } }
  else .next s

/-! ## SUBMIT (R353) -/

/-- A hart's register; x0 reads zero. -/
def hreg (h : Hart) (n : BitVec 5) : DWord := if n = 0 then 0 else mget 0 h.regs n.toNat

/-- A hart's register written; a write of x0 is discarded. -/
def setHreg (h : Hart) (n : BitVec 5) (v : DWord) : Hart := if n = 0 then h else { h with regs := mset 0 h.regs n.toNat v }

/-- What SUBMIT answers, and the state after it (R353). Every earlier store of the hart is performed already (log 6). A package that has stopped
denies it (R396, R398, R405; DESIGN CHOICE, log 24). -/
def submitDo (s : State) (asid : Nat) (a b : DWord) : State × Nat :=
  if feStopped s then (s, 2) else
  let q := bits a 0 10
  let w : Word := b.extractLsb' 0 32
  let s1 := lookQueue s q
  let d := qDesc s1 q
  let x := getQ s1 q
  if a.toNat / 2 ^ 10 ≠ 0 ∨ b.toNat / 2 ^ 32 ≠ 0 ∨ !d.active ∨ !d.submit ∨ d.asid ≠ asid then (s1, 2)
  else if !wrOk d x w then (s1, 1)
  else (putQ s1 q { x with wridx := w } [28], 0)

/-- SUBMIT (R77, R353). -/
def execSubmit (f : RT) (s : State) : Host.Outcome State Fault Refusal :=
  match s.cur with
  | some (.hart h) =>
    if Config.staithCores ≤ h then .fault .noIssuer else
    let x := getHart s h
    let r := submitDo s x.asid (hreg x f.rs1) (hreg x f.rs2)
    let y := setHreg x f.rd (BitVec.ofNat 64 r.2)
    .next { putHart r.1 h { y with pc := y.pc + 4 } with cur := none }
  | _ => .fault .noIssuer

/-! ## Appending a LAUNCH packet (R225, R264) -/

/-- Appending a packet to a ring for a launch of an address space: 0 done, 1 full, 2 refused. A slot on a sibling-keeping page whose write a full
cell refuses is taken as one that cannot be written: 2 (DESIGN CHOICE, log 106). -/
def appendLaunch (s : State) (q asid : Nat) (packet : List Byte) : State × Nat :=
  let s1 := lookQueue s q
  let d := qDesc s1 q
  let x := getQ s1 q
  if !d.active ∨ d.submit ∨ d.asid ≠ asid then (s1, 2)
  else if (x.wridx - x.rdidx).toNat = 2 ^ d.logsize then (s1, 1)
  else
    let va := d.rbase + 64 * (x.wridx.toNat % 2 ^ d.logsize)
    let bad := match spRead s1 (.asid d.asid) va 64 with
      | .ok (ds, _) => ds.any (fun b => b.2)
      | .error _ => false
    if bad then (s1, 2)
    else match spWrite s1 (.asid d.asid) va (clean packet) with
      | .error _ => (s1, 2)
      | .ok (s2, seen) => if seen.testBit 3 then (s1, 2) else (putQ s2 q { x with wridx := x.wridx + 1 }, 0)

/-- LAUNCH past a DET launch's wait for the commit (R225). -/
def launchDo (f : SX) (s : State) (c : Ctx) : Eff :=
  let q := (sval c.g f.lit f.sa).toNat
  let o := sval c.g f.lit f.sb
  let acc : List Acc := (List.range 8).map (fun (j : Nat) => ⟨0, o.toInt + 8 * (j : Int), 8⟩)
  if 1023 < q then operandTrap c 23
  else if o.toInt % 64 ≠ 0 then .raise cALIGN o
  else match checkAcc s c false true false acc with
    | some m => .trap { m with tval := o }
    | none =>
      let img := (scratchRead s c.g o.toNat 64).map (fun b => b.1)
      if img.headD 0 ≠ 1 then operandTrap c 23
      else
        let r := appendLaunch s q c.l.asid img
        .next r.1 (setS c.g f.sd.toNat (BitVec.ofNat 64 r.2))

/-- LAUNCH (R225): in a DET launch it is performed at the commit (R226, R378). -/
def execLaunch (f : SX) (s : State) : Host.Outcome State Fault Refusal := issue (.launch f) s (fun c => orCommit s c (launchDo f s c))

/-! ## Packets at the read index (R349, R352) -/

/-- The 64 bytes of the packet at RDIDX, or the fault of reading them; uncorrectable data in the descriptor is one (R407). -/
def packetAt (s : State) (q : Nat) : Except (Nat × Nat) (List Byte) :=
  let d := qDesc s q
  let va := d.rbase + 64 * ((getQ s q).rdidx.toNat % 2 ^ d.logsize)
  if poisonIn s.mpoison (qAddr s q) 128 then .error (qPOISON, qAddr s q) else
  match spRead s (.asid d.asid) va 64 with
  | .error a => .error (qACCESS, a)
  | .ok (ds, _) =>
    match (List.range 64).find? (fun j => match ds[j]? with
      | some b => b.2
      | none => false) with
    | some j => .error (qPOISON, alignDown (va + j) 8)
    | none => .ok (ds.map (fun b => b.1))

/-- The packet under way: read once (R352), else now. -/
def packetNow (s : State) (q : Nat) : Except (Nat × Nat) (List Byte) :=
  match (getQ s q).packet with
  | some p => .ok p
  | none => packetAt s q

/-- The first nonzero byte of some reserved ranges of a packet: (offset, size). -/
def reservedAt (p : List Byte) (rs : List (Nat × Nat)) : Option Nat :=
  (rs.find? (fun r => fld p r.1 r.2 != 0)).map (fun r => r.1)

/-- The queue a worker serves, when it holds a packet to be processed now: known, not waiting nor faulted, and active unless
a packet is under way (R348, R363). -/
def servedQueue (s : State) (worker : Nat) : Option Nat :=
  match tget s.fe.workers worker with
  | none => none
  | some q =>
    let x := getQ s q
    if x.known && x.qstate == 1 && x.rdidx != x.wridx && !feStopped s &&
      ((qDesc s q).active || underWay x) then some q else none

/-- A packet is complete: RDIDX passes it, its cursors are cleared, and a queue whose ring is empty is left (R357, R363). -/
def packetDone (s : State) (q : Nat) : State :=
  let x := getQ s q
  let rd := x.rdidx + 1
  let last := rd == x.wridx
  let s1 := putQ s q { x with
    rdidx := rd, stepc := 0, bytec := 0, waitFrom := none, granting := none, packet := none, holding := none,
    qstate := if last then 0 else 1 } [11, 24, 36, 40]
  if last then leaveQueue s1 q else s1

/-- A packet waits: QSTATE WAITING, and the worker leaves (R357, R363). -/
def packetWaits (s : State) (q : Nat) : State :=
  let x := getQ s q
  leaveQueue (putQ s q { x with qstate := 2, waitFrom := some (x.waitFrom.getD s.pt) } [11]) q

/-! ## What a waiting queue waits for (R357, R358, R315) -/

/-- Whether every launch and graph that a queue has started has ended (R358). -/
def queueIdle (s : State) (q : Nat) : Bool :=
  s.launches.all (fun p => p.2.q != q || p.2.status == .ended) &&
    s.graphs.all (fun p => match p.2.owner with
      | .queue k _ _ => k != q
      | .op _ => true)

/-- Whether a pod job has a resident launch (R315). -/
def jobBusy (s : State) (job : Word) : Bool :=
  job != 0 && s.launches.any (fun p => p.2.job == job && p.2.status != .ended)

/-- Whether a waiting queue's packet may be taken up again: a FENCE or a GRAPH that holds, a LAUNCH whose job is free. WAITSIG and a launch that waits
for its lease or for an ordering domain have events of their own. -/
def packetMet (s : State) (q : Nat) : Bool :=
  (getQ s q).granting.isNone &&
    (match packetNow s q with
      | .ok p =>
        let t := fld p 0 1
        if t = 7 then queueIdle s q else if t = 1 then !jobBusy s (BitVec.ofNat 32 (fld p 4 4))
        else false
      | .error _ => true)

/-! ## Workers (R363) -/

/-- Whether a worker may take a queue. -/
def takeable (s : State) (q : Nat) : Bool :=
  let x := getQ s q
  x.known && ((qDesc s q).active || underWay x) && x.rdidx != x.wridx &&
    !s.fe.workers.any (fun p => p.2 == q) && (decide (x.qstate.toNat ≤ 1) || (x.qstate == 2 && packetMet s q))

/-- The queue a free worker takes: the smallest PRIO; within it the next number above the one last served, wrapping. -/
def chooseQueue (s : State) : Option Nat :=
  let qs := (s.fe.queues.map (fun p => p.1)).filter (takeable s)
  match minList (qs.map (fun q => (qDesc s q).prio)) with
  | none => none
  | some prio =>
    let cand := qs.filter (fun q => (qDesc s q).prio == prio)
    match tget s.fe.lastServed prio with
    | none => minList cand
    | some last => match minList (cand.filter (fun q => decide (last < q))) with
      | some q => some q
      | none => minList cand

/-- WORKER_QUEUE_SELECT (R363). -/
def execWorkerQueueSelect (worker : Nat) (s : State) : Host.Outcome State Fault Refusal :=
  if worker < Config.workers && (tget s.fe.workers worker).isNone && !feStopped s then
    match chooseQueue s with
    | none => .next s
    | some q =>
      let s1 := putQ s q { (getQ s q) with qstate := 1, sliceFrom := s.pt } [11]
      .next { s1 with fe := { s1.fe with workers := tput s1.fe.workers worker q,
                                          lastServed := tput s1.fe.lastServed (qDesc s q).prio q } }
  else .next s

/-- SLICE_EXPIRY (R357, R363): the worker leaves a queue whose slice is over; STEPC and BYTEC are kept. -/
def execSliceExpiry (worker : Nat) (s : State) : Host.Outcome State Fault Refusal :=
  match tget s.fe.workers worker with
  | some q =>
    if decide ((getQ s q).sliceFrom.toNat + (qDesc s q).slice * Config.ticksPerUs ≤ s.pt.toNat) then .next (leaveQueue s q)
    else .next s
  | none => .next s

end Sys2Proof.Machine
end

