-- ==== Sys2Proof/Machine/Graph.lean ====
section
/-! DEFINITION. The dependence graph: GRUN, GSIG, the nodes of a graph, its time limit; and the completion of copy-engine
operations (R253, R263-R266, R356). -/

namespace Sys2Proof.Machine

/-! ## Instructions (R265) -/

/-- Whether an operation takes a place that the launches of a package core or die share: it is of no DET launch. A DET launch has a whole core's
places on its logical core (R376; DEDUCED, log 100). -/
def sharesPlaces (s : State) (o : EngineOp) : Bool := !launchDet s o.launch

/-- The graphs of a core that an operation runs. -/
def graphsOn (s : State) (core : Nat) : Nat :=
  (s.ops.filter (fun p => p.2.core == core && runsGraph p.2 && !p.2.performed && sharesPlaces s p.2)).length

/-- The graphs that a DET launch's issued operations run on a logical core. -/
def detGraphs (s : State) (lid lcore : Nat) : Nat :=
  (s.ops.filter (fun p => p.2.launch == lid && opLcore s p.2 == lcore && runsGraph p.2 && p.2.quantum.isSome)).length

/-- The graph of a GRUN begins its life: nothing of it is read yet. -/
def startGraph (s : State) (n : Nat) : State :=
  match tget s.ops n with
  | some o =>
    match o.act with
    | .grun x off nodes limit =>
      let gr : GraphRun :=
          { owner := .op n, launch := some o.launch, asid := ((tget s.launches o.launch).map (fun l => l.asid)).getD 0, core := o.core, x := x, base := xVa x off, nodes := nodes,
            scope := o.scope, start := s.pt, limit := limit, begun := false, ready := [], running := [], doneCount := 0,
            seen := 0, cause := 0, addr := 0, node := 0, closed := false, late := false }
      { s with graphs := tput s.graphs n gr }
    | _ => s
  | none => s

/-- GRUN: counted on st; a core's seventeenth graph stalls at issue. In a DET launch the graph begins at the commit, and waits there for a place.
SA alone is checked for a multiple of 64: with a VBASE that is none, the nodes run where they lie (DESIGN CHOICE, log 104). -/
def execGrun (f : CX) (s : State) : Host.Outcome State Fault Refusal :=
  issue (.grun f) s (fun c => withX c f (fun x =>
    let off := (sval c.g f.lit f.sa).toNat
    let nodes := (sval c.g f.lit f.sb).toNat
    if off % 64 ≠ 0 then operandTrap c 13
    else if nodes = 0 ∨ 65535 < nodes then operandTrap c 14
    else if !c.det && decide (Config.graphsPerCore ≤ graphsOn s c.w.core) then .stall
    else match copyIssue s c f .st (.grun x off nodes (sval c.g f.lit f.sc).toNat) [] [] with
      | .next s1 g1 => .next (if c.det then s1 else startGraph s1 s.opNo) g1
      | e => e))

/-- GSIG: counted on st; the decrement is made at the home (R265). Its SA is checked for no multiple of 64, which the table asks of GRUN alone: PRED is
decremented where it lies (DESIGN CHOICE, log 104). -/
def execGsig (f : CX) (s : State) : Host.Outcome State Fault Refusal :=
  issue (.gsig f) s (fun c => withX c f (fun x =>
    let node := (sval c.g f.lit f.sb).toNat
    if 65535 ≤ node then operandTrap c 14
    else copyIssue s c f .st (.gsig x (sval c.g f.lit f.sa).toNat node) [] []))

/-! ## COPY_OP_COMPLETE (R253) -/

/-- GSIG's decrement. -/
def gsigPerform (s : State) (o : EngineOp) (x : XReg) (off node : Nat) : State × EngineOp :=
  match tget s.launches o.launch with
  | none => (s, o)
  | some l =>
    let r := releaseNode s (.window l x) (xVa x off).toNat node
    (r.1, if r.2.seen.testBit 4 then opFail o r.2.cause (BitVec.ofNat 64 r.2.addr) 255 else opMeet o r.2.seen)

/-- COPY_OP_COMPLETE (R253): the operation's effects, its status record, its tape entries and its counter. One of a DET launch completes
at a commit; when the launch has been halted first, here (R266). -/
def execCopyOpComplete (op : Nat) (s : State) : Host.Outcome State Fault Refusal :=
  match tget s.ops op with
  | some o =>
    if mayPerform s op o then
      match o.act with
      | .gsig x off node => let r := gsigPerform s o x off node; .next (performedOp r.1 op r.2 none)
      | _ =>
        match copyPerform s o with
        | some (s1, o1) => .next (performedOp s1 op o1 none)
        | none => .next s
    else if o.performed && !o.quantum.isNone && !atCommit s o && copyOp o then .next (finishOp s op o none)
    else .next s
  | none => .next s

/-! ## Nodes (R263, R264) -/

def nKind (b : List Byte) : Nat := fld b 0 1
def nSucc (b : List Byte) : List Nat := (List.range (fld b 1 1)).map (fun j => fld b (8 + 2 * j) 2)

/-- Whether a node is sound (R263): no reserved kind or bit, its successors in range, its payload as its kind needs it. R264 gives the range of a
COPY's length and no fate outside it: such a node is not sound, and completes with FAULT, cause TYPE (DESIGN CHOICE, log 104). -/
def nodeSound (b : List Byte) (nodes : Nat) : Bool :=
  let n := fld b 1 1
  let k := nKind b
  decide (k ≤ 4) && decide (n ≤ 8) && fld b 2 1 / 8 == 0 && fld b 3 1 / 8 % 8 == 0 &&
    (nSucc b).all (fun j => decide (j < nodes)) && fld b (8 + 2 * n) (16 - 2 * n) == 0 &&
    (if k = 0 then fld b 24 40 == 0
     else if k = 1 then fld b 48 16 == 0 && decide (1 ≤ fld b 40 8) && decide (fld b 40 8 ≤ 2 ^ 32)
     else if k = 2 then fld b 34 30 == 0 && fld b 24 8 % 64 == 0
     else if k = 3 then fld b 40 24 == 0 && fld b 24 8 % 8 == 0
     else fld b 32 32 == 0 && fld b 24 8 % 64 == 0)

/-- The address space in which a graph's LAUNCH packets run. -/
def graphAsid (s : State) (gr : GraphRun) : Nat :=
  match gr.launch with
  | none => gr.asid
  | some lid => match tget s.launches lid with
    | some l => l.asid
    | none => gr.asid

/-- Whether no node of a graph may start: its launch has halted or is gone (R266), or its owner has been told of a fault. -/
def graphHalted (s : State) (gr : GraphRun) : Bool :=
  gr.closed ||
    (match gr.launch with
      | none => false
      | some lid => match tget s.launches lid with
        | some l => l.status != .running
        | none => true)

def putGraph (s : State) (n : Nat) (gr : GraphRun) : State := { s with graphs := tput s.graphs n gr }

/-- A node under way that has met nothing yet. -/
def NodeRun.fresh (bytes : List Byte) (sound : Bool) : NodeRun :=
  { bytes := bytes, sound := sound, seen := 0, cause := 0, addr := 0, acted := false }

/-- A node whose action is over. -/
def NodeRun.over (r : NodeRun) (seen : Seen) (cause addr : Nat) : NodeRun :=
  { r with seen := r.seen ||| seen, cause := BitVec.ofNat 8 cause, addr := BitVec.ofNat 64 addr, acted := true }

/-! ## The end of a graph (R265, R356) -/

/-- Adding to a completion signal word in an address space; one that cannot be added to is left (log 36). -/
def addSignal (s : State) (asid va add : Nat) : State :=
  match spRmw s (.asid asid) va 8 (fun x => (x + add) % 2 ^ 64) with
  | .ok (s1, _, _) => s1
  | .error _ => s

/-- The owner of a graph is told: an operation completes; a queue's signal is added, or the queue faults (R356, R359). -/
def graphTell (s : State) (gr : GraphRun) : State :=
  match gr.owner with
  | .op n =>
    match tget s.ops n with
    | some o => performedOp s n { o with seen := o.seen ||| gr.seen, cause := gr.cause, addr := gr.addr } none
    | none => s
  | .queue q sigva sigadd =>
    if gr.seen.testBit 4 then
      if (getQ s q).qstate = 3 then s
      else if gr.late then queueFault s q qTIMEOUT gr.base.toNat else queueFault s q qGRAPH gr.node
    else addSignal s gr.asid sigva.toNat sigadd.toNat

/-- A graph after a change: told of a fault at once, complete when every node is done, gone when nothing of it runs. -/
def settleGraph (s : State) (n : Nat) (gr : GraphRun) : State :=
  let gone := { s with graphs := tdel s.graphs n }
  if gr.closed then (if gr.running.isEmpty then gone else putGraph s n gr)
  else if gr.seen.testBit 4 then
    graphTell (if gr.running.isEmpty then gone else putGraph s n { gr with closed := true, ready := [] }) gr
  else if gr.doneCount = gr.nodes ∨ (graphHalted s gr ∧ gr.running.isEmpty) then graphTell gone gr
  else putGraph s n gr

/-- A graph with one more node under way. -/
def GraphRun.addNode (gr : GraphRun) (node : Nat) (r : NodeRun) : GraphRun := { gr with running := tput gr.running node r }

/-- A fault of a graph itself. -/
def GraphRun.fail (gr : GraphRun) (cause addr node : Nat) : GraphRun :=
  if gr.seen.testBit 4 then gr
  else { gr with seen := gr.seen ||| seenFAULT, cause := BitVec.ofNat 8 cause, addr := BitVec.ofNat 64 addr, node := node }

/-! ## GRAPH_NODE_START (R265) -/

/-- The nodes whose PRED is 0, ascending (R265). -/
def firstNodes (s : State) (sp : Space) (gr : GraphRun) : List Nat :=
  (List.range gr.nodes).filter (fun j => match spRead s sp ((gr.base.toNat + 64 * j + 4) % 2 ^ 64) 4 with
    | .ok (ds, _) => ds.all (fun d => d.1 == 0)
    | .error _ => false)

/-- A graph begins: its first nodes are found, or the address that cannot be read faults it. -/
def beginGraph (s : State) (sp : Space) (gr : GraphRun) : GraphRun :=
  match firstBad s sp gr.base.toNat (64 * gr.nodes) false with
  | some a => { gr.fail cLEASE a ((a - gr.base.toNat) / 64) with begun := true }
  | none => { gr with begun := true, ready := firstNodes s sp gr }

/-- Whether an operation is a CRUN. -/
def runsTable (o : EngineOp) : Bool :=
  match o.act with
  | .crun .. => true
  | _ => false

/-- Whether a step table is a STEP node's. -/
def ofNode (t : TableRun) : Bool :=
  match t.owner with
  | .node .. => true
  | .op _ => false

/-- The step tables that a die runs for some launches: of the CRUNs issued there and of STEP nodes (R334). -/
def tablesOf (s : State) (die : Nat) (mine : Option Nat → Bool) : Nat :=
  (s.ops.filter (fun p => p.2.core / 48 == die && !p.2.performed && runsTable p.2 && !p.2.deferred && mine (some p.2.launch))).length +
  (s.tables.filter (fun p => p.2.die == die && ofNode p.2 && mine p.2.launch)).length

/-- The step tables a die runs (R334). -/
def tablesHeld (s : State) (die : Nat) : Nat := tablesOf s die (fun _ => true)

/-- The logical core of the GRUN whose graph a STEP node belongs to. -/
def nodeLcore (s : State) (gr : GraphRun) : Nat :=
  match gr.owner with
  | .op n => ((tget s.ops n).map (opLcore s)).getD gr.core
  | .queue .. => gr.core

/-- The step tables that a DET launch runs on a logical die: of CRUNs issued at a commit, and of STEP nodes. -/
def detTables (s : State) (lid die : Nat) : Nat :=
  (s.ops.filter (fun p => p.2.launch == lid && opLcore s p.2 / 48 == die && runsTable p.2 && p.2.quantum.isSome)).length +
  (s.tables.filter (fun p => p.2.launch == some lid && (match p.2.owner with
    | .node g _ => (match tget s.graphs g with
      | some gr => nodeLcore s gr / 48 == die
      | none => false)
    | .op _ => false))).length

/-- Whether a graph's DET launch itself holds all places of the logical die, which its commits free (R376). -/
def ownTablesFull (s : State) (gr : GraphRun) : Bool :=
  match gr.launch with
  | some lid => launchDet s lid && decide (Config.tablesPerDie ≤ detTables s lid (nodeLcore s gr / 48))
  | none => false

/-- Whether a STEP node of a graph finds no place for its table. -/
def tablesFull (s : State) (gr : GraphRun) : Bool := ownTablesFull s gr || decide (Config.tablesPerDie ≤ tablesHeld s (gr.core / 48))

/-- Whether a graph's next step needs a commit: nothing of it runs but step tables, and no node is to start but one whose table waits for a place that
its own launch holds. -/
def graphIdle (s : State) (gr : GraphRun) : Bool :=
  gr.begun && gr.running.all (fun r => r.2.sound && !r.2.acted && nKind r.2.bytes == 4) &&
    (match gr.ready, gr.launch with
      | [], _ => true
      | j :: _, some lid => fld (leaseBytes s lid ((gr.base.toNat + 64 * j) % 2 ^ 64) 1) 0 1 == 4 && ownTablesFull s gr
      | _ :: _, none => false)

/-- A LAUNCH node's packet is appended to its queue's ring (R264); a full ring leaves the node as it is. R264 names no fate for a packet that is
poisoned, whose node completes with POISON and appends nothing, nor for one that is no LAUNCH packet, whose node completes with FAULT, cause TYPE
(DESIGN CHOICE, log 104). -/
def nodeLaunch (s : State) (gr : GraphRun) (sp : Space) (r : NodeRun) : State × NodeRun :=
  let va := fld r.bytes 24 8
  match spRead s sp va 64 with
  | .error a => (s, r.over seenFAULT cLEASE a)
  | .ok (ds, seen) =>
    if ds.any (fun d => d.2) then (s, r.over seenPOISON 0 0)
    else if ((ds.map (fun d => d.1)).headD 0) ≠ 1 then (s, r.over seenFAULT cTYPE va)
    else
      let a := appendLaunch s (fld r.bytes 32 2) (graphAsid s gr) (ds.map (fun d => d.1))
      if a.2 = 0 then (a.1, r.over seen 0 0) else if a.2 = 2 then (a.1, r.over seenFAULT cLEASE va) else (a.1, r)

/-- A STEP node's table of one step (R335). -/
def nodeTable (s : State) (n : Nat) (gr : GraphRun) (node : Nat) (r : NodeRun) : State :=
  let t : TableRun :=
      { owner := .node n node, launch := gr.launch, asid := gr.asid, die := gr.core / 48, x := none,
        base := BitVec.ofNat 64 (fld r.bytes 24 8), count := 1, cur := 0, started := false, entry := [], sound := true,
        sentBytes := 0, waiting := [], complete := false, stepSeen := 0, sentIn := 0, seen := 0, cause := 0, addr := 0,
        scope := BitVec.ofNat 3 (fld r.bytes 2 1), start := s.pt, limit := 0 }
  { s with opNo := s.opNo + 1, tables := tput s.tables s.opNo t }

/-- A sound node starts: NSTATE running, and what its kind does at its start (R264, R265). -/
def nodeStart (s : State) (n : Nat) (gr : GraphRun) (sp pay : Space) (node : Nat) (b : List Byte) : State :=
  let va := (gr.base.toNat + 64 * node + 3) % 2 ^ 64
  let run (s : State) (r : NodeRun) : State :=
    match tget s.graphs n with
    | some g => putGraph s n { g with running := tput g.running node r }
    | none => s
  match spWrite s sp va (clean [0x40]) with
  | .error (cause, a) => run s ((NodeRun.fresh b true).over seenFAULT cause a)
  | .ok (s1, _) =>
    let r := NodeRun.fresh b true
    if nKind b = 2 then
      let a := nodeLaunch s1 gr pay r
      run a.1 a.2
    else if nKind b = 4 then run (nodeTable s1 n gr node r) r
    else run s1 r

/-- Whether a graph may begin: its operation is issued and nothing is ordered before it (R268, R380). -/
def graphMayBegin (s : State) (gr : GraphRun) : Bool :=
  match gr.owner with
  | .op n => match tget s.ops n with
    | some o => mayPerform s n o
    | none => false
  | .queue .. => true

/-- The graph after it has begun, if it may. -/
def graphBegun (s : State) (gr : GraphRun) (sp : Space) : Option GraphRun :=
  if gr.begun then some gr else if graphMayBegin s gr then some (beginGraph s sp gr) else none

/-- Whether a graph takes no step: that of a queue on a package that has stopped (R405). -/
def graphStopped (s : State) (gr : GraphRun) : Bool := gr.launch.isNone && feStopped s

/-- GRAPH_NODE_START (R265): the node whose turn it is starts; a node that is malformed completes with FAULT, cause TYPE. One whose own bytes are
poisoned completes with POISON and does nothing, releasing no successor (DESIGN CHOICE, log 104). A node of a halted launch does not start (R266). -/
def execGraphNodeStart (graph node : Nat) (s : State) : Host.Outcome State Fault Refusal :=
  match tget s.graphs graph with
  | none => .next s
  | some gr =>
    if graphStopped s gr then .next s
    else if graphHalted s gr then .next (settleGraph s graph gr)
    else
      match graphSpaces s gr with
      | none => .next s
      | some (sp, pay) =>
        match graphBegun s gr sp with
        | none => .next s
        | some g1 =>
          match g1.ready with
          | [] => .next (settleGraph s graph g1)
          | j :: rest =>
            if j ≠ node then .next s
            else
              let g2 := { g1 with ready := rest }
              match spRead s sp ((g1.base.toNat + 64 * node) % 2 ^ 64) 64 with
              | .error a => .next (putGraph s graph (g2.addNode node ((NodeRun.fresh [] false).over seenFAULT cLEASE a)))
              | .ok (ds, _) =>
                let b := ds.map (fun d => d.1)
                if ds.any (fun d => d.2) then
                  .next (putGraph s graph (g2.addNode node ((NodeRun.fresh b false).over seenPOISON 0 0)))
                else if !nodeSound b g1.nodes then
                  .next (putGraph s graph (g2.addNode node
                    ((NodeRun.fresh b false).over seenFAULT cTYPE ((g1.base.toNat + 64 * node) % 2 ^ 64))))
                else if nKind b = 4 ∧ tablesFull s g1 then .next s
                else .next (nodeStart (putGraph s graph g2) graph g2 sp pay node b)

/-! ## GRAPH_NODE_FINISH, GRAPH_LAUNCH_RETRY, GRAPH_TIMEOUT (R265) -/

/-- The action a node performs when it finishes: a copy, a signal, or nothing; `none` when its action is not over. -/
def nodeAct (s : State) (pay : Space) (r : NodeRun) : Option (State × NodeRun) :=
  if r.acted then some (s, r)
  else if nKind r.bytes = 0 then some (s, r.over seenOK 0 0)
  else if nKind r.bytes = 1 then
    let c := copyBlock s pay (fld r.bytes 24 8) (fld r.bytes 32 8) (fld r.bytes 40 8)
    some (c.1, r.over c.2.seen c.2.cause c.2.addr)
  else if nKind r.bytes = 3 then
    if (firstBad s pay (fld r.bytes 24 8) 8 false).isSome then some (s, r.over seenFAULT cLEASE (fld r.bytes 24 8))
    else match spRmw s pay (fld r.bytes 24 8) 8 (fun x => (x + fld r.bytes 32 8) % 2 ^ 64) with
    | .error (cause, a) => some (s, r.over seenFAULT cause a)
    | .ok (s1, seen, _) => some (s1, r.over seen 0 0)
  else none

/-- A node is done: NSTATE, its successors' decrements, and the graph (R265). -/
def nodeDone (s : State) (graph node : Nat) (gr : GraphRun) (sp : Space) (r : NodeRun) : State :=
  let va := (gr.base.toNat + 64 * node + 3) % 2 ^ 64
  let s1 := match spWrite s sp va (clean [BitVec.ofNat 8 (0x80 + statusOf r.seen)]) with
    | .ok (t, _) => t
    | .error _ => s
  let d := if r.sound then releaseNodes s1 sp gr.base.toNat (nSucc r.bytes) else (s1, ⟨0, 0, 0⟩)
  match tget d.1.graphs graph with
  | none => d.1
  | some g =>
    let g1 := { g with running := tdel g.running node, doneCount := g.doneCount + 1, seen := g.seen ||| (r.seen % 16) }
    let g2 := if r.seen.testBit 4 then g1.fail r.cause.toNat r.addr.toNat node else g1
    let g3 := if d.2.seen.testBit 4 then g2.fail d.2.cause d.2.addr node else { g2 with seen := g2.seen ||| d.2.seen }
    settleGraph d.1 graph g3

/-- GRAPH_NODE_FINISH (R265). -/
def execGraphNodeFinish (graph node : Nat) (s : State) : Host.Outcome State Fault Refusal :=
  match tget s.graphs graph with
  | none => .next s
  | some gr =>
    match graphSpaces s gr, (tget gr.running node).filter (fun _ => !graphStopped s gr) with
    | some (sp, pay), some r =>
      match nodeAct s pay r with
      | some (s1, r1) => .next (nodeDone s1 graph node gr sp r1)
      | none => .next s
    | _, _ => .next s

/-- GRAPH_LAUNCH_RETRY (R264): the packet of a LAUNCH node that met a full ring is tried again. -/
def execGraphLaunchRetry (graph node : Nat) (s : State) : Host.Outcome State Fault Refusal :=
  match tget s.graphs graph with
  | none => .next s
  | some gr =>
    match graphSpaces s gr, tget gr.running node with
    | some (_, pay), some r =>
      if nKind r.bytes = 2 ∧ !r.acted ∧ !graphStopped s gr then
        let a := nodeLaunch s gr pay r
        match tget a.1.graphs graph with
        | some g => .next (putGraph a.1 graph { g with running := tput g.running node a.2 })
        | none => .next s
      else .next s
    | _, _ => .next s

/-- GRAPH_TIMEOUT (R265): the time limit of a graph has passed. -/
def execGraphTimeout (graph : Nat) (s : State) : Host.Outcome State Fault Refusal :=
  match tget s.graphs graph with
  | none => .next s
  | some gr =>
    if !graphStopped s gr ∧ gr.limit ≠ 0 ∧ gr.start.toNat + gr.limit * Config.ticksPerUs ≤ s.pt.toNat ∧ !gr.closed then
      .next (settleGraph s graph { gr.fail cTIMEOUT gr.base.toNat gr.node with late := !gr.seen.testBit 4 })
    else .next s

end Sys2Proof.Machine
end

