-- ==== Sys2Proof/Machine/Collective.lean ====
section
/-! DEFINITION. The collective engine at the source: RST, RSIG, RWAIT, CRUN, CBAR, PTIME, stamps and injection, acknowledgments and
resends, and step tables (R314-R317, R322, R325-R336). -/

namespace Sys2Proof.Machine

/-! ## Sources, domains and stamps (R314, R317, R325) -/

/-- The compute die of a core. -/
def dieOf (core : Nat) : Nat := core / 48

/-- The source of a die: package << 2 | die. -/
def sourceOf (s : State) (die : Nat) : Nat := s.info.pkgnum.toNat * 4 + die

/-- Whether ordered packets are held at injection: the package joins the pod, or has lost synchronisation (R316). -/
def syncHeld (s : State) : Bool := s.info.podstate == 1 || s.info.podstate == 3

/-- a < b in serial arithmetic (R317). -/
def stampLt (a b : BitVec 48) : Bool := decide (1 ≤ (b - a).toNat) && decide ((b - a).toNat ≤ 2 ^ 47 - 1)

/-- PT, or the stamp after the last one that a die of the package has given in domain 0, if that is later. -/
def afterAll (s : State) : BitVec 48 :=
  (List.range 4).foldl (fun b die => match tget s.coll.lastStamp (die * 16) with
    | some last => if stampLt b (last + 1) then last + 1 else b
    | none => b) (s.pt.extractLsb' 0 48)

/-- The first stamp a source could give now: PT, or in a DET domain quantum and logical core (R317, R325). The packets of a DET launch without a pod
job, which stay in domain 0 and in the package, are stamped in their order of issue (R341, log 85). -/
def stampAt (s : State) (l : Option Launch) (quantum lcore : Nat) : BitVec 48 :=
  match l with
  | some l =>
    if l.domain ≠ 0 then BitVec.ofNat 48 (quantum % 2 ^ 20 * 2 ^ 28 + lcore * 2 ^ 20)
    else if l.kern.det then afterAll s
    else s.pt.extractLsb' 0 48
  | none => s.pt.extractLsb' 0 48

/-- The same in the current quantum. -/
def stampBase (s : State) (l : Option Launch) (lcore : Nat) : BitVec 48 := stampAt s l ((l.map (fun l => l.quantum)).getD 0) lcore

/-- The stamp of a source's next ordered packet in a domain (R317). -/
def nextStamp (s : State) (die domain : Nat) (base : BitVec 48) : BitVec 48 :=
  match tget s.coll.lastStamp (die * 16 + domain) with
  | some last => if stampLt last base then base else last + 1
  | none => base

/-- Whether a logical core has a sequence number left in its quantum: at most 2^20 (R325). -/
def seqRoom (s : State) (die domain : Nat) (base : BitVec 48) : Bool :=
  match tget s.coll.lastStamp (die * 16 + domain) with
  | some last => stampLt last base || decide ((last - base).toNat + 1 < 2 ^ 20)
  | none => true

/-- The DET launch whose domain this is, while it is resident (R325). -/
def domainLaunch (s : State) (domain : Nat) : Option (Nat × Launch) :=
  s.launches.find? (fun p => domain != 0 && p.2.kern.det && (p.2.status == .running || p.2.status == .halted) &&
    p.2.domain == domain)

/-- Whether a die holds a packet of a domain at injection (R316). -/
def dieHolds (s : State) (die domain : Nat) : Bool := s.coll.unacked.any (fun p => p.2.held && p.2.p.src % 4 == die && p.2.p.domain == domain)

/-- The watermark of a local die; in a DET domain (quantum << 28) − 1, and none when no launch of the domain is resident (log
38). A die that holds packets sends the last stamp assigned (R316), in a DET domain while it holds one of that; which watermark one sends that has
assigned none is nowhere said: it is PT − 1, or in a DET domain that of the quantum before (DESIGN CHOICE, log 109). -/
def dieW (s : State) (die domain : Nat) : Option (BitVec 48) :=
  let last := tget s.coll.lastStamp (die * 16 + domain)
  if domain = 0 then
    match last with
    | some last => some (if syncHeld s then last else nextStamp s die 0 (s.pt.extractLsb' 0 48) - 1)
    | none => some (s.pt.extractLsb' 0 48 - 1)
  else (domainLaunch s domain).map (fun p =>
    if dieHolds s die domain then last.getD (BitVec.ofNat 48 ((p.2.quantum - 1) % 2 ^ 20 * 2 ^ 28) - 1)
    else BitVec.ofNat 48 (p.2.quantum % 2 ^ 20 * 2 ^ 28) - 1)

/-! ## Ports (R319, R410) -/

/-- The address of a port's entry of the port table. -/
def portAddr (s : State) (port : Nat) : Nat := s.info.porttab.toNat + 8 * port

/-- The port by which a die's packets for a package leave: one of its own whose far end is that package, else one behind a switch; the
manual names no routing (log 87). -/
def portFor (s : State) (die dest : Nat) : Option Nat :=
  let own := (List.range 4).map (fun j => 4 * die + j)
  let up := own.filter (fun p => s.coll.active.contains p)
  let e (p : Nat) : Nat := memNat s (portAddr s p) 8
  match up.find? (fun p => !(e p).testBit 14 && e p % 2 ^ 12 / 4 == dest) with
  | some p => some p
  | none => up.find? (fun p => (e p).testBit 14)

/-- A die's watermark leaves on a port: never a lower one than before (R319). -/
def sendW (s : State) (die port domain : Nat) : State :=
  match dieW s die domain with
  | some w =>
    let k := port * 16 + domain
    let w1 := match tget s.coll.sentW k with
      | some old => if stampLt w old then old else w
      | none => w
    { s with coll := { s.coll with sentW := tput s.coll.sentW k w1 } }
  | none => s

/-- The flit that carries a packet's header, ordered or not, sent again or not, carries the source's watermark in its domain, which may equal an
ordered packet's own stamp (R319). A packet for the package itself takes no link. -/
def noteSent (s : State) (p : RemotePacket) : State :=
  if p.dest = s.info.pkgnum.toNat then s
  else match portFor s (p.src % 4) p.dest with
    | some port => sendW s (p.src % 4) port p.domain
    | none => s

/-! ## Injection (R314, R316, R322, R324) -/

/-- A discarded packet's record (R324). -/
def discardRecord (s : State) (port : Nat) (p : RemotePacket) : State := raiseEvent s (eventNow s 0x42 2 0 port p.stamp.toNat p.src)

/-- An ordered delivery point; one nothing has reached is empty. -/
def getPoint (s : State) (domain : Nat) : DPoint := (tget s.coll.points domain).getD ⟨[], [], 0, 0, 0, false⟩

def putPoint (s : State) (domain : Nat) (d : DPoint) : State :=
  { s with coll := { s.coll with points := tput s.coll.points domain d } }

/-- An ordered packet begins to wait at its delivery point (R321, R323). -/
def enqueue (s : State) (p : RemotePacket) : State :=
  let d := getPoint s p.domain
  putPoint s p.domain { d with waiting := d.waiting ++ [p], waitSince := if d.waiting = [] then s.pt else d.waitSince }

/-- An ordered packet receives its stamp and leaves, sent on its link at once; one for the package itself goes to its own delivery point,
which discards it when its source is excluded (R314, R319, R324). -/
def inject (s : State) (key : Nat) (u : Unacked) (base : BitVec 48) : State :=
  let die := u.p.src % 4
  let st := nextStamp s die u.p.domain base
  let p := { u.p with stamp := st }
  let s1 := { s with coll := { s.coll with
    lastStamp := tput s.coll.lastStamp (die * 16 + p.domain) st,
    unacked := tput s.coll.unacked key { u with p := p, sentAt := s.pt, held := false } } }
  if p.dest ≠ s.info.pkgnum.toNat then noteSent s1 p
  else if s.coll.excluded.contains p.src then discardRecord s1 (16 + die) p
  else enqueue s1 p

/-- A request identifier no packet of the source awaits an acknowledgment under. -/
def freeReq (s : State) (src die : Nat) : BitVec 16 :=
  let n := (mget 0 s.coll.nextReq die)
  match (List.range (s.coll.unacked.length + 1)).find?
      (fun j => (tget s.coll.unacked (src * 65536 + (n + BitVec.ofNat 16 j).toNat)).isNone) with
  | some j => n + BitVec.ofNat 16 j
  | none => n

/-- A packet is sent: it receives its request identifier, and if ordered its stamp, unless it is held (R316, R317, R322). -/
def sendPacket (s : State) (die : Nat) (p : RemotePacket) (op table : Option Nat) (base : BitVec 48) : State :=
  let src := sourceOf s die
  let id := freeReq s src die
  let key := src * 65536 + id.toNat
  let u : Unacked := { p := { p with src := src, reqId := id, stamp := 0 }, op := op, table := table, sentAt := s.pt, resends := 0,
                       held := p.ordered && syncHeld s, order := s.coll.sends }
  let s1 := { s with coll := { s.coll with nextReq := tput s.coll.nextReq die (id + 1),
                                           unacked := tput s.coll.unacked key u, sends := s.coll.sends + 1 } }
  if !p.ordered then noteSent s1 u.p else if !syncHeld s then inject s1 key u base else s1

/-! ## Step tables begin (R334) -/

/-- The table of a CRUN begins its life. -/
def startTable (s : State) (n : Nat) (o : EngineOp) (x : XReg) (off count limit : Nat) : State :=
  let t : TableRun :=
    { owner := .op n, launch := some o.launch, asid := 0, die := dieOf o.core, x := some x, base := xVa x off, count := count,
      cur := 0, started := false, entry := [], sound := true, sentBytes := 0, waiting := [], complete := false,
      stepSeen := 0, sentIn := 0, seen := 0, cause := 0, addr := 0, scope := o.scope, start := s.pt, limit := limit }
  { s with tables := tput s.tables n t }

/-! ## Collective barriers (R336) -/

/-- An arrival at a collective barrier. The first of a phase fixes the count and the root; another that names others makes
the package disagree, as do arrivals of both scopes in one phase, which then is a phase of POD scope (log 88). -/
def cbarArrive (s : State) (n : Nat) (o : EngineOp) (pod : Bool) (b count root : Nat) : State :=
  match tget s.launches o.launch with
  | none => s
  | some l =>
    let x := getCBar l b
    let x1 := if x.arrivals = [] then { x with pod := pod, count := count, root := root, agree := true }
              else
                { x with agree := x.agree && x.pod == pod && x.count == count && x.root == root, pod := x.pod || pod,
                         count := if x.pod then x.count else count, root := if x.pod then x.root else root }
    let x2 := { x1 with arrivals := x1.arrivals ++ [(o.wg, o.gidx, n)] }
    completeCBar (putLaunch s o.launch (putCBar l x2)) o.launch x2

/-! ## The start of an operation (R326, R378) -/

/-- The source's bytes of an RST, as the scratchpad holds them. -/
def remoteAct (s : State) (o : EngineOp) (p : RemotePacket) (src n : Nat) : RemoteAct :=
  match p.act with
  | .store _ => .store (opRead s o src n)
  | .add v => .add v

/-- An RST reads its source: its packet carries the bytes, and a poisoned one is a status of its operation. -/
def readSource (s : State) (o : EngineOp) : EngineOp :=
  match o.act with
  | .remote p src k =>
    let a := remoteAct s o p src k
    let seen := match a with
      | .store ds => if ds.any (fun b => b.2) then seenPOISON else 0
      | .add _ => 0
    { opMeet o seen with act := .remote { p with act := a } src k }
  | _ => o

/-- An operation of the collective engine or a graph begins: at issue, or in a DET launch at the commit of its quantum, where an RST leaves its
source to be read in its turn (R380). -/
def activate (s : State) (n : Nat) : State :=
  match tget s.ops n with
  | none => s
  | some o =>
    match o.act with
    | .remote .. =>
      let o1 := if o.quantum.isSome then o else readSource s o
      match o1.act with
      | .remote p _ _ => sendPacket (putOp s n o1) (dieOf o.core) p (some n) none (stampBase s (tget s.launches o.launch) (opLcore s o))
      | _ => s
    | .crun x off count limit => startTable s n o x off count limit
    | .cbar pod b count root => cbarArrive s n o pod b count root
    | .grun .. => startGraph s n
    | _ => s

/-- Record check, tape entries and counter, and in a launch that is not DET the start (R326). -/
def collIssue (s : State) (c : Ctx) (f : QX) (act : OpAct) (spans : List Span) : Eff :=
  let go (r : Option Nat) : Eff :=
    match issueOp s c .coll (newOp s c (some .coll) f.scope f.ord r act) spans with
    | .next s1 g1 => .next (if c.det then s1 else activate (putGroup s1 c.k g1) s.opNo) g1
    | e => e
  if f.md.getLsbD 2 then
    let r := sval c.g f.lit f.sd
    match recordCheck c r with
    | some m => .trap m
    | none => go (some r.toNat)
  else go none

/-! ## RST and RSIG (R328, R329) -/

/-- The packet an instruction describes, before it is sent. -/
def packetOf (c : Ctx) (f : QX) (dest addr : DWord) (act : RemoteAct) : RemotePacket :=
  { src := 0, dest := dest.toNat, ordered := f.md.getLsbD 0, domain := c.l.domain, stamp := 0, reqId := 0,
    job := c.l.job, ocpm := f.md.getLsbD 1, addr := addr, rel := f.ord.getLsbD 1, scope := f.scope, acks := [], act := act }

/-- The destination's checks: package number, pod job (R315, R327, R328). -/
def destBad (s : State) (c : Ctx) (dest : DWord) : Bool :=
  decide (1023 < dest.toNat) || (decide (dest.toNat ≠ s.info.pkgnum.toNat) && c.l.job == 0)

/-- RST (R328). -/
def execRst (f : QX) (s : State) : Host.Outcome State Fault Refusal :=
  issue (.rst f) s (fun c =>
    let n := f.imm.toNat
    let sa := (sval c.g f.lit f.sa).toInt
    let sb := sval c.g f.lit f.sb
    let sc := sval c.g f.lit f.sc
    if n = 0 ∨ 256 < n then operandTrap c 23
    else if destBad s c sc then operandTrap c 15
    else if sb.toNat / 256 ≠ (sb.toNat + n - 1) / 256 then operandTrap c 23
    else if f.md.getLsbD 1 && decide (sb.toNat / 2 ^ 40 ≠ 0) then operandTrap c 14
    else match spansOut c.size [(sa, sa + n)] with
      | some m => .trap m
      | none => collIssue s c f (.remote (packetOf c f sc sb (.store [])) sa.toNat n) [⟨sa.toNat, sa.toNat + n, false⟩])

/-- RSIG (R329). -/
def execRsig (f : QX) (s : State) : Host.Outcome State Fault Refusal :=
  issue (.rsig f) s (fun c =>
    let sb := sval c.g f.lit f.sb
    let sc := sval c.g f.lit f.sc
    if destBad s c sc then operandTrap c 15
    else if f.md.getLsbD 1 && decide (sb.toNat / 2 ^ 40 ≠ 0) then operandTrap c 14
    else if sb.toNat % 8 ≠ 0 then .raise cALIGN sb
    else collIssue s c f (.remote (packetOf c f sc sb (.add (sval c.g f.lit f.sa))) 0 0) [])

/-! ## RWAIT and PTIME (R330, R331) -/

/-- Memory and its poison as an RWAIT reads them: in a DET launch the values of the last commit (R330, R380). -/
def shownMem (s : State) (c : Ctx) : Bytes × Marks := if c.det then c.l.shown.getD (s.mem, s.mpoison) else (s.mem, s.mpoison)

/-- A group's watch of a 128-byte line, in place of an earlier one. -/
def watchLine (s : State) (k line : Nat) : State :=
  { s with lines := ⟨k, line, false⟩ :: s.lines.filter (fun x => x.group != k) }

/-- Whether an earlier operation of the group still holds back a read at an address of a launch's lease: both on DEV or SO pages, or either on
an SO page (R51, R53). In a DET launch an operation is over when a commit has counted it complete. -/
def readHeld (s : State) (c : Ctx) (va : Nat) : Bool :=
  let t := memType s c.g.launch va
  s.ops.any (fun a => a.2.launch == c.g.launch && a.2.wg == c.g.wg && a.2.gidx == c.g.gidx && !a.2.lost && accesses a.2 &&
    (c.det || !a.2.performed) && ((decide (2 ≤ t) && onDev s a.2) || onSo s a.2 || t == 3))

/-- RWAIT (R330): every read is made again while the group is parked. One that an earlier operation of the group is ordered before waits for it at
issue, in a DET launch for a commit (R51). -/
def execRwait (f : QX) (s : State) : Host.Outcome State Fault Refusal :=
  issue (.rwait f) s (fun c =>
    let x := xreg c.g f.xr.toNat
    let sa := sval c.g f.lit f.sa
    let va := xVa x sa.toNat
    if !x.valid then operandTrap c 20
    else if sa.toNat % 8 ≠ 0 then .raise cALIGN sa
    else match firstBad s (.window c.l x) va.toNat 8 false with
      | some _ => .recorded cLEASE va
      | none =>
        match spacePa s (.window c.l x) va.toNat false with
        | none => .recorded cLEASE va
        | some (pa, sk) =>
          if x.length < sa.toNat + 8 then .recorded cLEASE va
          else if sk then .recorded cTYPE va
          else if readHeld s c va.toNat then
            (if c.det then .park s { c.g with since := some (c.g.since.getD s.pt) } .commit else .stall)
          else if poisonIn (shownMem s c).2 pa 8 then .raise cPOISON sa
          else
            let v := ofBytes (mgetRun 0 (shownMem s c).1 pa 8)
            let since := c.g.since.getD s.pt
            let late := f.imm ≠ 0 ∧ since.toNat + f.imm.toNat * Config.ticksPerUs ≤ s.pt.toNat
            if (sval c.g f.lit f.sb).toNat ≤ v ∨ late then .next s (setS c.g f.sd.toNat (BitVec.ofNat 64 v))
            else .park (watchLine s c.k (pa / 128)) { c.g with since := some since } .rwait)

/-- PTIME (R331): pod time; in a DET launch the completed quanta. -/
def execPtime (f : QX) (s : State) : Host.Outcome State Fault Refusal :=
  issue (.ptime f) s (fun c => .next s (setS c.g f.sd.toNat (if c.det then BitVec.ofNat 64 c.l.quantum else s.pt)))

/-! ## CRUN and CBAR (R334, R336) -/

/-- CRUN (R334). One of a DET launch waits for a place at its commit. -/
def execCrun (f : QX) (s : State) : Host.Outcome State Fault Refusal :=
  issue (.crun f) s (fun c =>
    let x := xreg c.g f.xr.toNat
    let sa := sval c.g f.lit f.sa
    let n := (sval c.g f.lit f.sb).toNat
    if !x.valid then operandTrap c 20
    else if n = 0 ∨ 65535 < n then operandTrap c 14
    else if (xVa x sa.toNat).toNat % 64 ≠ 0 then .raise cALIGN (xVa x sa.toNat)
    else if !c.det && decide (Config.tablesPerDie ≤ tablesHeld s (dieOf c.w.core)) then .stall
    else collIssue s c f (.crun x sa.toNat n (sval c.g f.lit f.sc).toNat) [])

/-- CBAR (R336). -/
def execCbar (f : QX) (s : State) : Host.Outcome State Fault Refusal :=
  issue (.cbar f) s (fun c =>
    let pod := f.scope == 6
    let b := f.imm.toNat
    let n := (sval c.g f.lit f.sb).toNat
    let root := (sval c.g f.lit f.sc).toNat
    if c.l.kern.barriers ≤ b ∨ c.g.task.isSome then operandTrap c 23
    else if !pod then collIssue s c f (.cbar false b 0 0) []
    else if n = 0 ∨ 1024 < n ∨ (1 < n ∧ c.l.job = 0) then operandTrap c 14
    else if 1023 < root then operandTrap c 15
    else collIssue s c f (.cbar true b n root) [])

/-! ## Steps (R332, R333) -/

/-- How a table reaches its entries, and how the local addresses of its steps are reached. -/
def tableSpaces (s : State) (t : TableRun) : Option (Space × Space) :=
  match t.launch with
  | none => some (.asid t.asid, .asid t.asid)
  | some lid => (tget s.launches lid).map (fun l => (match t.x with
      | some x => .window l x
      | none => .lease l, .lease l))

/-- Whether a table may run no further step: its launch has halted or is gone (R334). -/
def tableHalted (s : State) (t : TableRun) : Bool :=
  match t.launch with
  | none => false
  | some lid => match tget s.launches lid with
    | some l => l.status != .running
    | none => true

/-- Whether a step entry is sound (R332, R333). -/
def stepSound (b : List Byte) : Bool :=
  let k := fld b 0 1
  let n := fld b 4 1
  decide (k ≤ 3) && fld b 1 1 / 4 == 0 && decide (n ≤ 4) && fld b 5 1 / 8 % 8 == 0 && fld b 6 2 == 0 && fld b 32 8 % 64 == 0 &&
    (n != 0 || fld b 32 8 == 0) && fld b (40 + 2 * n) (8 - 2 * n) == 0 && fld b 48 16 == 0 &&
    (!(k == 1 || k == 2) || decide (fld b 2 2 ≤ 1023)) && (k != 3 || fld b 8 8 % 8 == 0) && (k != 2 || fld b 16 8 % 8 == 0) &&
    (k != 1 || (decide (1 ≤ fld b 24 8) && decide (fld b 24 8 ≤ 2 ^ 32)))

/-- A step's status added to its table. -/
def TableRun.met (t : TableRun) (seen : Seen) (cause addr : Nat) : TableRun :=
  let t1 := if seen.testBit 4 && !t.seen.testBit 4 then { t with cause := BitVec.ofNat 8 cause, addr := BitVec.ofNat 64 addr } else t
  { t1 with seen := t1.seen ||| seen, stepSeen := t1.stepSeen ||| seen }

/-- A step that failed before its work began: it is complete. -/
def TableRun.failed (t : TableRun) (cause addr : Nat) : TableRun := { (t.met seenFAULT cause addr) with complete := true }

/-- The current step begins: its entry is read and checked, and SSTATE says that it runs. -/
def beginStep (s : State) (t : TableRun) (sp : Space) : State × TableRun :=
  if t.started then (s, t)
  else
    let va := (t.base.toNat + 64 * t.cur) % 2 ^ 64
    match spRead s sp va 64 with
    | .error a => (s, { (t.failed cLEASE a) with started := true, sound := false })
    | .ok (ds, _) =>
      let b := ds.map (fun d => d.1)
      let t1 := { t with started := true, entry := b }
      if ds.any (fun d => d.2) then (s, { (t1.met seenPOISON 0 0) with sound := false, complete := true })
      else match spWrite s sp (va + 5) (clean [0x40]) with
        | .error (cause, a) => (s, { (t1.failed cause a) with sound := false })
        | .ok (s1, _) => if stepSound b then (s1, t1) else (s1, { (t1.failed cTYPE va) with sound := false })

def putTable (s : State) (n : Nat) (t : TableRun) : State := { s with tables := tput s.tables n t }

/-- The end of a table: its operation completes, or its node's action is over (R334, R335). -/
def endTable (s : State) (n : Nat) (t : TableRun) : State :=
  let s1 := { s with tables := tdel s.tables n }
  match t.owner with
  | .op k => match tget s1.ops k with
    | some o => performedOp s1 k { o with seen := o.seen ||| t.seen, cause := t.cause, addr := t.addr } none
    | none => s1
  | .node g j => match tget s1.graphs g with
    | some gr => match tget gr.running j with
      | some r => recheckDie (putGraph s1 g (gr.addNode j (r.over t.seen t.cause.toNat t.addr.toNat))) t.die
      | none => s1
    | none => s1

/-- Whether a table may begin: nothing of its group that is ordered before its CRUN is left (R51-R53, R380). -/
def tableMayBegin (s : State) (t : TableRun) : Bool :=
  t.started || t.cur != 0 ||
    (match t.owner with
      | .op n => (match tget s.ops n with
        | some o => mayBeginAt s n o
        | none => true)
      | .node .. => true)

/-- Whether a table takes no step: that of a queue on a package that has stopped (R405). -/
def tableStopped (s : State) (t : TableRun) : Bool := t.launch.isNone && feStopped s

/-- A step event: the table's current step begins when it has not, and does what `act` says when it is of kind `k`. -/
def stepEvent (s : State) (n k : Nat) (act : State → TableRun → Space → State × TableRun) : State :=
  match (tget s.tables n).filter (fun t => !tableStopped s t) with
  | none => s
  | some t =>
    if tableHalted s t then endTable s n t
    else if !tableMayBegin s t then s
    else match tableSpaces s t with
      | none => s
      | some (sp, loc) =>
        let r := beginStep s t sp
        if r.2.complete then putTable r.1 n r.2
        else if fld r.2.entry 0 1 ≠ k then s
        else
          let a := act r.1 r.2 loc
          putTable a.1 n a.2

/-- A packet of a step (R333). -/
def stepPacket (s : State) (t : TableRun) (addr : Nat) (act : RemoteAct) : RemotePacket :=
  let l := t.launch.bind (tget s.launches)
  { src := 0, dest := fld t.entry 2 2, ordered := (fld t.entry 1 1).testBit 0, domain := (l.map (fun l => l.domain)).getD 0, stamp := 0,
    reqId := 0, job := (l.map (fun l => l.job)).getD 0, ocpm := false, addr := BitVec.ofNat 64 addr,
    rel := (fld t.entry 1 1).testBit 1, scope := t.scope, acks := [], act := act }

/-- Whether every packet of a PUT or SIG has been sent, or given up. -/
def stepSent (t : TableRun) : Bool :=
  if fld t.entry 0 1 = 1 then decide (fld t.entry 24 8 ≤ t.sentBytes) else t.sentBytes == 1

/-- A PUT or SIG is complete when all its packets have been acknowledged (R333). -/
def TableRun.acked (t : TableRun) : TableRun := { t with complete := t.complete || (t.waiting.isEmpty && stepSent t) }

/-- The logical core a table's packets are stamped for. -/
def tableLcore (s : State) (t : TableRun) : Nat :=
  match t.owner with
  | .op k => match tget s.ops k with
    | some o => opLcore s o
    | none => t.die * 48
  | .node g _ => match tget s.graphs g with
    | some gr => nodeLcore s gr
    | none => t.die * 48

/-- Whether no stamp of a step's packet is left in the quantum: it waits for the next (R325). -/
def stepFull (s : State) (t : TableRun) : Bool :=
  let p := stepPacket s t 0 (.add 0)
  p.ordered && p.domain != 0 && !seqRoom s t.die p.domain (stampBase s (t.launch.bind (tget s.launches)) (tableLcore s t))

/-- A step sends a packet; without a pod job only its own package can be reached (R315). -/
def stepSend (s : State) (n : Nat) (t : TableRun) (p : RemotePacket) : State × TableRun :=
  if p.job = 0 ∧ p.dest ≠ s.info.pkgnum.toNat then (s, (t.met seenFAULT cREMOTE p.addr.toNat).acked)
  else
    let l := t.launch.bind (tget s.launches)
    let src := sourceOf s t.die
    let key := src * 65536 + (freeReq s src t.die).toNat
    (sendPacket s t.die p none (some n) (stampBase s l (tableLcore s t)),
     { t with waiting := t.waiting ++ [key], sentIn := (l.map (fun l => l.quantum)).getD 0 })

/-- STEP_NOP's work (R333): complete at once. -/
def nopStep (s : State) (table : Nat) : State :=
  stepEvent s table 0 (fun s t _ => (s, { (t.met seenOK 0 0) with complete := true }))

/-- STEP_PUT's work (R333): the next packet of the block leaves; one packet for each 256-byte destination block. One whose bytes cannot be
read is not sent. -/
def putStep (s : State) (table : Nat) : State :=
  stepEvent s table 1 (fun s t loc =>
    let dst := fld t.entry 16 8
    let n := fld t.entry 24 8
    let off := t.sentBytes
    if n ≤ off ∨ stepFull s t then (s, t)
    else
      let m := min (n - off) (256 - (dst + off) % 256)
      let t1 := { t with sentBytes := off + m }
      match spRead s loc ((fld t.entry 8 8 + off) % 2 ^ 64) m with
      | .error a => (s, (t1.met seenFAULT cLEASE a).acked)
      | .ok (ds, seen) =>
        stepSend s table (t1.met (if seen / 2 = 0 then 0 else seen) 0 0) (stepPacket s t ((dst + off) % 2 ^ 64) (.store ds)))

/-- STEP_SIG's work (R333): one addition at the destination. -/
def sigStep (s : State) (table : Nat) : State :=
  stepEvent s table 2 (fun s t _ =>
    if t.sentBytes ≠ 0 ∨ stepFull s t then (s, t)
    else stepSend s table { t with sentBytes := 1 } (stepPacket s t (fld t.entry 16 8) (.add (BitVec.ofNat 64 (fld t.entry 24 8)))))

/-- STEP_WAIT's work (R333): the local word is read again. -/
def waitStep (s : State) (table : Nat) : State :=
  stepEvent s table 3 (fun s t loc =>
    match spRead s loc (fld t.entry 8 8) 8 with
    | .error a => (s, t.failed cLEASE a)
    | .ok (ds, seen) =>
      if ds.any (fun d => d.2) ∨ fld t.entry 24 8 ≤ ofBytes (ds.map (fun d => d.1)) then
        (s, { (t.met (elemSeen seen) 0 0) with complete := true })
      else (s, t))

/-- STEP_DONE's work (R333, R334): SSTATE with the step's own status, the step's releases, and the next step or the table's end. -/
def doneStep (s : State) (table : Nat) : State :=
  match tget s.tables table with
  | none => s
  | some t =>
    match tableSpaces s t with
    | none => s
    | some (sp, loc) =>
      if !t.complete || tableStopped s t then s
      else
        let s1 := match spWrite s sp ((t.base.toNat + 64 * t.cur + 5) % 2 ^ 64) (clean [BitVec.ofNat 8 (0x80 + statusOf t.stepSeen)]) with
          | .ok (x, _) => x
          | .error _ => s
        let js := (List.range (fld t.entry 4 1)).map (fun j => fld t.entry (40 + 2 * j) 2)
        let d := if t.sound then releaseNodes s1 loc (fld t.entry 32 8) js else (s1, ⟨0, 0, 0⟩)
        let t1 := t.met d.2.seen d.2.cause d.2.addr
        if t1.seen.testBit 4 ∨ t.cur + 1 = t.count then endTable d.1 table t1
        else putTable d.1 table { t1 with
          cur := t.cur + 1, started := false, entry := [], sound := true, sentBytes := 0, waiting := [], complete := false, stepSeen := 0 }

/-- Whether a table's steps are taken at the commits of its launch only: it is of a running DET launch (R325, R341, log 85). -/
def tableDet (s : State) (n : Nat) : Bool :=
  match (tget s.tables n).bind (fun t => t.launch.bind (tget s.launches)) with
  | some l => l.kern.det && l.status == .running
  | none => false

/-- STEP_NOP (R333). -/
def execStepNop (table : Nat) (s : State) : Host.Outcome State Fault Refusal := .next (if tableDet s table then s else nopStep s table)
/-- STEP_PUT (R333). -/
def execStepPut (table : Nat) (s : State) : Host.Outcome State Fault Refusal := .next (if tableDet s table then s else putStep s table)
/-- STEP_SIG (R333). -/
def execStepSig (table : Nat) (s : State) : Host.Outcome State Fault Refusal := .next (if tableDet s table then s else sigStep s table)
/-- STEP_WAIT (R333). -/
def execStepWait (table : Nat) (s : State) : Host.Outcome State Fault Refusal := .next (if tableDet s table then s else waitStep s table)
/-- STEP_DONE (R333, R334). -/
def execStepDone (table : Nat) (s : State) : Host.Outcome State Fault Refusal := .next (if tableDet s table then s else doneStep s table)

/-- How far a table is: its step, whether that has begun, what of it is sent, and whether its work is complete. -/
def tableAt (s : State) (n : Nat) : Option (Nat × Bool × Nat × Bool) :=
  (tget s.tables n).map (fun t => (t.cur, t.started, t.sentBytes, t.complete))

/-- Whether the step of a DET launch's table may be done at commit k: its packets were sent at commit k − 2 or earlier (R380). -/
def stepOld (s : State) (n k : Nat) : Bool :=
  match tget s.tables n with
  | some t => t.sentBytes == 0 || decide (t.sentIn + 2 ≤ k)
  | none => false

/-- A table of a DET launch at commit k: its steps are taken as far as they go (log 85). -/
def advanceTable : Nat → State → Nat → Nat → State
  | 0, s, _, _ => s
  | fuel + 1, s, n, k =>
    let s1 := waitStep (sigStep (putStep (nopStep s n) n) n) n
    let s2 := if stepOld s1 n k then doneStep s1 n else s1
    if tableAt s2 n = tableAt s n then s2 else advanceTable fuel s2 n k

/-- CRUN_TIMEOUT (R334). -/
def execCrunTimeout (table : Nat) (s : State) : Host.Outcome State Fault Refusal :=
  match tget s.tables table with
  | none => .next s
  | some t =>
    if t.limit ≠ 0 ∧ t.start.toNat + t.limit * Config.ticksPerUs ≤ s.pt.toNat then
      .next (endTable s table (t.met seenFAULT cTIMEOUT (t.base.toNat + 64 * t.cur)))
    else .next s

/-! ## Acknowledgments and resends (R322, R337) -/

/-- What a reply means for the source: statuses, and the cause of a FAULT. -/
def replyMet : Reply → Seen × Nat
  | .ok => (seenOK, 0)
  | .poison => (seenPOISON, 0)
  | .overflow => (seenOVERFLOW, 0)
  | .refused => (seenFAULT, cREMOTE)
  | .fault cause => (seenFAULT, cause.toNat)

/-- An operation meets a reply. -/
def opReply (o : EngineOp) (r : Reply) (addr : DWord) : EngineOp :=
  let m := replyMet r
  if m.1.testBit 4 then opFail o m.2 addr 255 else opMeet o m.1

/-- A table meets a reply to one of its packets. -/
def tableReply (t : TableRun) (key : Nat) (r : Reply) (addr : DWord) : TableRun :=
  let m := replyMet r
  { (t.met m.1 m.2 addr.toNat) with waiting := t.waiting.filter (fun k => k != key) }.acked

/-- An answer reaches the packet under a key: the packet is no longer awaited, and its operation or table goes on. -/
def answer (s : State) (key : Nat) (u : Unacked) (r : Reply) : State :=
  let s1 := { s with coll := { s.coll with
    unacked := tdel s.coll.unacked key,
    replies := s.coll.replies.filter (fun e => !(e.2.1 == u.p.src && e.2.2.1 == u.p.reqId)) } }
  match u.op, u.table with
  | some n, _ => match tget s1.ops n with
    | some o => performedOp s1 n (opReply o r u.p.addr) none
    | none => s1
  | none, some n => match tget s1.tables n with
    | some t => if t.waiting.contains key then putTable s1 n (tableReply t key r u.p.addr) else s1
    | none => s1
  | none, none => s1

/-- The oldest packet sent for an operation or a table that is not acknowledged. -/
def awaited (s : State) (n : Nat) : Option (Nat × Unacked) :=
  match tget s.tables n with
  | some t => match t.waiting with
    | k :: _ => (tget s.coll.unacked k).map (fun u => (k, u))
    | [] => s.coll.unacked.find? (fun p => p.2.op == some n || p.2.table == some n)
  | none => s.coll.unacked.find? (fun p => p.2.op == some n || p.2.table == some n)

/-- The reply of the package's own delivery point. -/
def localReply (s : State) (u : Unacked) : Option Reply :=
  (s.coll.replies.find? (fun e => e.2.1 == u.p.src && e.2.2.1 == u.p.reqId)).map (fun e => e.2.2.2)

/-- Whether an RST of a DET launch may read its source: every copy before it in commit order is performed (R380). -/
def mayRead (s : State) (o : EngineOp) : Bool :=
  unread o && !s.ops.any (fun a => !a.2.performed && copyOp a.2 && commitsBefore s a o)

/-- An RST of a DET launch reads its source: the packet that waits for its acknowledgment carries the bytes, at the package's own delivery point
too. -/
def remoteReads (s : State) (n : Nat) (o : EngineOp) : State :=
  let o1 := readSource s o
  match o1.act with
  | .remote p _ _ =>
    let fill (q : RemotePacket) : RemotePacket := { q with act := p.act }
    let mine (u : Unacked) : Bool := u.op == some n
    let us := (s.coll.unacked.filter (fun u => mine u.2)).map (fun u => u.2.p)
    let same (q : RemotePacket) : Bool := us.any (fun x => x.src == q.src && x.reqId == q.reqId && x.dest == q.dest)
    { putOp s n o1 with coll := { s.coll with
        unacked := s.coll.unacked.map (fun u => if mine u.2 then (u.1, { u.2 with p := fill u.2.p }) else u),
        points := s.coll.points.map (fun d => (d.1, { d.2 with waiting := d.2.waiting.map (fun q => if same q then fill q else q) })) } }
  | _ => s

/-- COLL_OP_COMPLETE (R20, R322, R336): the acknowledgment of an operation's packet, from the package's own delivery point or
from another package; or the release of a CBAR has reached the package. An operation of a DET launch completes at a commit; when the
launch has been halted first, here (R266). An RST of a DET launch reads its source first (R380). -/
def execCollOpComplete (op : Nat) (reply : Option Reply) (s : State) : Host.Outcome State Fault Refusal :=
  match (tget s.ops op).filter (mayRead s) with
  | some o => .next (remoteReads s op o)
  | none =>
  match awaited s op with
  | some (key, u) =>
    if u.held then .next s
    else
      match (if u.p.dest = s.info.pkgnum.toNat then localReply s u else reply) with
      | some r => .next (answer s key u r)
      | none => .next s
  | none =>
    match tget s.ops op with
    | some o =>
      .next (if o.performed && !copyOp o && !tileOpB o && !atCommit s o then finishOp s op o none else s)
    | none => .next s

/-- REMOTE_RESEND (R322): 8 µs without an acknowledgment the packet is sent again; after 8 unanswered resends its operation
completes with FAULT, cause TIMEOUT. -/
def execRemoteResend (op reqId : Nat) (s : State) : Host.Outcome State Fault Refusal :=
  match s.coll.unacked.find? (fun p => (p.2.op == some op || p.2.table == some op) && p.2.p.reqId.toNat == reqId) with
  | some (key, u) =>
    if u.held || decide (s.pt.toNat < u.sentAt.toNat + Config.resendTicks * (u.resends + 1)) then .next s
    else if u.resends < Config.resends then
      .next (noteSent { s with coll := { s.coll with unacked := tput s.coll.unacked key { u with resends := u.resends + 1 } } } u.p)
    else .next (answer s key u (.fault (BitVec.ofNat 8 cTIMEOUT)))
  | none => .next s

end Sys2Proof.Machine
end

