-- ==== Sys2Proof/Machine/Delivery.lean ====
section
/-! DEFINITION. The delivery points: watermarks, the arrival and delivery of remote packets, refusals, stalls and exclusion, and the
POD barrier network (R314-R325, R336-R338, R410). -/

namespace Sys2Proof.Machine

/-! ## Ports (R410) -/

/-- Whether a port's far end is an excluded source (R324). -/
def portExcluded (s : State) (port : Nat) : Bool :=
  let e := memNat s (portAddr s port) 8
  !e.testBit 14 && s.coll.excluded.contains (e % 2 ^ 12)

/-! ## Watermarks (R319, R321) -/

/-- The smaller of two watermarks. -/
def stampMin (a b : BitVec 48) : BitVec 48 := if stampLt b a then b else a

/-- The inputs of a delivery point that count: ports 0-15 of the active set, local dies 16-19. An active port that has not
reported yet has no watermark. -/
def pointInputs (s : State) (domain : Nat) : List (Nat × Option (BitVec 48)) :=
  ((List.range 16).filter (fun p => s.coll.active.contains p && !portExcluded s p)).map
      (fun p => (p, tget (getPoint s domain).portW p)) ++
    (List.range 4).filterMap (fun d => (dieW s d domain).map (fun w => (16 + d, some w)))

/-- The input with the smallest watermark; one that has not reported first. -/
def laggard : List (Nat × Option (BitVec 48)) → Option (Nat × Option (BitVec 48))
  | [] => none
  | x :: xs => some (xs.foldl (fun b y =>
      match b.2, y.2 with
      | none, _ => b
      | some _, none => y
      | some a, some c => if stampLt c a then y else b) x)

/-- The point's watermark (R321); none while an active port has not reported. -/
def pointW (s : State) (domain : Nat) : Option (BitVec 48) := (laggard (pointInputs s domain)).bind (fun x => x.2)

/-- Whether a stamp is no greater than the point's watermark. -/
def stampReached (s : State) (domain : Nat) (st : BitVec 48) : Bool :=
  match pointW s domain with
  | some w => st == w || stampLt st w
  | none => false

/-- An advance of the point's watermark is noted. A port that joins, or a new job in a DET domain, may lower it: that is no advance, and later
ones count from there (R323). -/
def notePoint (s : State) (domain : Nat) : State :=
  let d := getPoint s domain
  match pointW s domain with
  | some w =>
    if w = d.lastW then s
    else if stampLt d.lastW w then putPoint s domain { d with lastW := w, advanced := s.pt, stallTold := false }
    else putPoint s domain { d with lastW := w }
  | none => s

/-- The watermarks of every point that holds something are noted: what counts at them has changed. -/
def noteAll (s : State) : State := s.coll.points.foldl (fun s p => notePoint s p.1) s

/-- BEACON (R319): a port sends its die's watermark, never a lower one than before. -/
def execBeacon (die port domain : Nat) (s : State) : Host.Outcome State Fault Refusal :=
  .next (if port < 16 ∧ port / 4 = die ∧ domain < 16 then sendW s die port domain else s)

/-! ## Performing a packet at its destination (R315, R328, R329, R337) -/

/-- The resident launch of a pod job. -/
def jobLaunch (s : State) (job : Word) : Option (Nat × Launch) :=
  s.launches.find? (fun p => p.2.job == job && (p.2.status == .running || p.2.status == .halted))

/-- The launch or address space of a packet of the package itself without a pod job: that of its sender. -/
def ownTarget (s : State) (p : RemotePacket) : Option (Space × Option (Nat × Launch)) :=
  match tget s.coll.unacked (p.src * 65536 + p.reqId.toNat) with
  | none => none
  | some u =>
    let lid : Option (Option Nat × Nat) := match u.op, u.table with
      | some n, _ => (tget s.ops n).map (fun o => (some o.launch, 0))
      | none, some n => (tget s.tables n).map (fun t => (t.launch, t.asid))
      | none, none => none
    match lid with
    | some (some l, _) => (tget s.launches l).map (fun x => (Space.lease x, some (l, x)))
    | some (none, a) => some (.asid a, none)
    | none => none

/-- Against what a packet is resolved (R315): the resident launch of its pod job, or its sender's launch. -/
def packetTarget (s : State) (p : RemotePacket) : Option (Space × Option (Nat × Launch)) :=
  if p.job ≠ 0 then (jobLaunch s p.job).map (fun x => (Space.lease x.2, some x))
  else if p.src / 4 = s.info.pkgnum.toNat then ownTarget s p
  else none

/-- A byte of the on-chip physical map as a group's registers and tiles hold it. -/
def ocpmHeld (s : State) : OcpmByte → PByte
  | .scratch key off => match tget s.wgs key with
    | some w => (mget 0 w.scratch off, mget false w.spoison (off / 8))
    | none => (0, false)
  | .vreg k n lane i => match tget s.groups k with
    | some g => (BitVec.ofNat 8 (((vreg g n).getD lane 0).toNat / 2 ^ (8 * i)), false)
    | none => (0, false)
  | .tile k off => match tget s.groups k with
    | some g => (mget 0 g.tiles off, mget false g.tpoison off)
    | none => (0, false)
  | .spare _ => (0, false)

/-- A byte as the on-chip physical map holds it, with what the quantum of a DET launch has kept for it (R380). -/
def ocpmGet (s : State) (t : OcpmByte) : PByte :=
  match (fileOff t).bind (fun f => (tget s.groups f.1).bind (fun g => lateByte g f.2.1 f.2.2)) with
  | some b => (b.1, b.2 && (fileOff t).any (fun f => f.2.1))
  | none => ocpmHeld s t

/-- Bytes written through the on-chip physical map of a pinned launch as one write. -/
def ocpmStore (s : State) (lid : Nat) (l : Launch) (addr : Nat) (ds : List PByte) : State × Reply :=
  if !l.kern.pinned || (ocpmRun s lid addr ds.length).isNone then (s, .refused)
  else
    ((chunks addr ds).foldl (fun s c => match ocpmPut s lid c.1 c.2 with
      | some s1 => s1
      | none => s) s, .ok)

/-- An addition to an 8-byte word of the on-chip physical map. -/
def ocpmAdd (s : State) (lid : Nat) (l : Launch) (addr : Nat) (v : DWord) : State × Reply :=
  match ocpmRun s lid addr 8 with
  | none => (s, .refused)
  | some ts =>
    let ds := ts.map (ocpmGet s)
    if !l.kern.pinned then (s, .refused)
    else if ds.any (fun d => d.2) then (s, .poison)
    else ocpmStore s lid l addr (clean (bytesOf 8 (ofBytes (ds.map (fun d => d.1)) + v.toNat)))

/-- What a failed access answers: outside the lease a refusal, otherwise its cause. -/
def replyOf (cause : Nat) : Reply := if cause = cTYPE then .fault (BitVec.ofNat 8 cTYPE) else .refused

/-- A packet performed at its destination, and the reply (R337). -/
def performPacket (s : State) (p : RemotePacket) : State × Reply :=
  match packetTarget s p with
  | none => (s, .refused)
  | some (sp, x) =>
    let detBad := decide (p.domain ≠ 0) && p.ordered && (match x with
      | some y => !y.2.kern.det
      | none => true)
    if detBad then (s, .refused)
    else if p.ocpm then
      match x with
      | none => (s, .refused)
      | some (lid, l) => match p.act with
        | .store ds => ocpmStore s lid l p.addr.toNat ds
        | .add v => if p.addr.toNat % 8 ≠ 0 then (s, .refused) else ocpmAdd s lid l p.addr.toNat v
    else match p.act with
      | .store ds =>
        match spWrite s sp p.addr.toNat ds with
        | .error (cause, _) => (s, replyOf cause)
        | .ok (s1, seen) => (s1, if seen.testBit 3 then .overflow else .ok)
      | .add v =>
        if p.addr.toNat % 8 ≠ 0 then (s, .refused)
        else match spRmw s sp p.addr.toNat 8 (fun y => (y + v.toNat) % 2 ^ 64) with
          | .error (cause, _) => (s, replyOf cause)
          | .ok (s1, seen, _) => (s1, if seen.testBit 1 then .poison else .ok)

/-- The delivery point of a packet: that of its domain, or 16 for the unordered ones. -/
def pointOf (p : RemotePacket) : Nat := if p.ordered then p.domain else 16

/-- Whether a kept reply is of a packet's source at its point. -/
def ofSource (p : RemotePacket) (e : Nat × Nat × BitVec 16 × Reply) : Bool := e.1 == pointOf p && e.2.1 == p.src

/-- Whether the reply cache of a packet's point holds its identifier (R322). -/
def cached (s : State) (p : RemotePacket) : Bool := s.coll.replies.any (fun e => ofSource p e && e.2.2.1 == p.reqId)

/-- A reply kept for its source die: at most 256 at a point, the oldest given up first (R322, log 39). -/
def cacheReply (s : State) (p : RemotePacket) (r : Reply) : State :=
  let mine := s.coll.replies.filter (ofSource p)
  let rest := if 256 ≤ mine.length then s.coll.replies.filter (fun e => some e != mine.head?) else s.coll.replies
  { s with coll := { s.coll with replies := rest ++ [(pointOf p, p.src, p.reqId, r)] } }

/-- The replies whose receipt a source acknowledges leave the caches (R322). -/
def retireReplies (s : State) (p : RemotePacket) : State :=
  { s with coll := { s.coll with replies := s.coll.replies.filter (fun e => !(e.2.1 == p.src && p.acks.contains e.2.2.1)) } }

/-- The line request of a packet delivered into a launch's memory, counted (R389). -/
def countPacket (s : State) (p : RemotePacket) : State :=
  match p.ocpm, packetTarget s p with
  | false, some (_, some (lid, _)) => countLines s lid none p.addr.toNat (match p.act with
      | .store ds => ds.length
      | .add _ => 8)
  | _, _ => s

/-- A packet delivered: performed, and its reply kept. -/
def deliver (s : State) (p : RemotePacket) : State :=
  let r := performPacket (countPacket s p) p
  cacheReply r.1 p r.2

/-! ## Arrival and ordered delivery (R318, R321, R322, R324) -/

/-- Whether an order key comes before another (R318). -/
def keyLt (a b : RemotePacket) : Bool := stampLt a.stamp b.stamp || (a.stamp == b.stamp && decide (a.src < b.src))

/-- The waiting packet with the lowest key. -/
def lowest : List RemotePacket → Option RemotePacket
  | [] => none
  | x :: xs => some (xs.foldl (fun b y => if keyLt y b then y else b) x)

/-- An ordered packet that has arrived; `w` is the point's watermark as it arrives. -/
def arrive (s : State) (port : Nat) (w : Option (BitVec 48)) (p : RemotePacket) : State :=
  let waits := (getPoint s p.domain).waiting.any (fun y => y.src == p.src && y.reqId == p.reqId && y.stamp == p.stamp)
  let late := match w with
    | some w => p.stamp == w || stampLt p.stamp w
    | none => false
  let s := retireReplies s p
  if s.coll.excluded.contains p.src then discardRecord s port p
  else if cached s p || waits then s
  else if late then cacheReply (raiseEvent s (eventNow s cREMOTE 2 0 port p.stamp.toNat p.src)) p .refused
  else enqueue s p

/-- ORDERED_PACKET_ARRIVAL (R321, R322): a flit or beacon on an input port carries its watermark and perhaps a packet. A packet
whose stamp the point has passed is late and refused; one the reply cache holds is answered again without being performed. -/
def execOrderedPacketArrival (port domain : Nat) (watermark : BitVec 48) (packet : Option RemotePacket) (s : State) :
    Host.Outcome State Fault Refusal :=
  if 16 ≤ port ∨ 16 ≤ domain then .next s
  else
    let w := pointW s domain
    let d := getPoint s domain
    let w1 := match tget d.portW port with
      | some old => if stampLt watermark old then old else watermark
      | none => watermark
    let s1 := match packet with
      | some p => if p.ordered && p.domain == domain && p.dest == s.info.pkgnum.toNat then arrive s port w p else s
      | none => s
    let d1 := getPoint s1 domain
    .next (notePoint (putPoint s1 domain { d1 with portW := tput d1.portW port w1 }) domain)

/-- The operation that sent a packet of the package's own. -/
def ownOp (s : State) (p : RemotePacket) : Option (Nat × EngineOp) :=
  match (tget s.coll.unacked (p.src * 65536 + p.reqId.toNat)).bind (fun u => u.op) with
  | some n => (tget s.ops n).map (fun o => (n, o))
  | none => none

/-- Whether a packet writes on a DEV or SO page of this package, as the launch or the address space of its sender maps it. -/
def packetDev (s : State) (p : RemotePacket) : Bool :=
  let n := match p.act with
    | .store ds => ds.length
    | .add _ => 8
  !p.ocpm && (match packetTarget s p with
    | some (_, some (lid, _)) => touches s lid [(p.addr.toNat, n)] (fun t => decide (2 ≤ t))
    | some (.asid a, none) => (List.range n).any (fun j => ((walk s a ((p.addr.toNat + j) % 2 ^ 64)).map (fun f => decide (2 ≤ f.type))).getD false)
    | _ => false)

/-- Whether an earlier packet of a table's step, to a DEV or SO page too, is still to be performed: elements go in ascending address order (R53). -/
def tableHolds (s : State) (u : Unacked) : Bool :=
  u.table.isSome && packetDev s u.p &&
    s.coll.unacked.any (fun v => v.2.table == u.table && v.2.p.dest == u.p.dest && decide (v.2.order < u.order) && !cached s v.2.p && packetDev s v.2.p)

/-- Whether a packet's write may be performed now: of the package's own, when its source is read and nothing of its group, and of its step no
earlier packet, is ordered before it (R51-R53, R380). -/
def mayDeliver (s : State) (p : RemotePacket) : Bool :=
  match ownOp s p with
  | some (n, o) => !unread o && !s.ops.any (fun a => !a.2.performed && ordersBefore s a n o)
  | none => !((tget s.coll.unacked (p.src * 65536 + p.reqId.toNat)).map (tableHolds s)).getD false

/-- The running DET launch, if it is of one, that sent a packet of the package's own: it is performed at a commit (R341, R380). -/
def senderDet (s : State) (p : RemotePacket) : Option Nat :=
  match tget s.coll.unacked (p.src * 65536 + p.reqId.toNat) with
  | none => none
  | some u =>
    let l : Option Nat := match u.op, u.table with
      | some n, _ => (tget s.ops n).map (fun o => o.launch)
      | none, some n => (tget s.tables n).bind (fun t => t.launch)
      | none, none => none
    l.filter (fun lid => match tget s.launches lid with
      | some l => l.kern.det && l.status == .running
      | none => false)

/-- Whether a packet of the package's own is performed at a commit. -/
def sentDet (s : State) (p : RemotePacket) : Bool := (senderDet s p).isSome

/-- Whether a packet of the package's own is an RST whose source is still to be read. -/
def sentUnread (s : State) (p : RemotePacket) : Bool :=
  match ownOp s p with
  | some (_, o) => unread o
  | none => false

/-- A waiting packet is performed. -/
def performWaiting (s : State) (domain : Nat) (p : RemotePacket) : State :=
  let d := getPoint s domain
  deliver (putPoint s domain { d with waiting := d.waiting.filter (fun y => y != p) }) p

/-- The waiting packet with the lowest key is performed (R321, R338). -/
def deliverNext (s : State) (domain : Nat) : Option State :=
  let s1 := notePoint s domain
  match lowest (getPoint s1 domain).waiting with
  | none => none
  | some p =>
    if stampReached s1 domain p.stamp && (if domain = 0 then mayDeliver s1 p else !sentUnread s1 p) then some (performWaiting s1 domain p)
    else none

/-- Whether the packet that a point delivers next is performed at a commit instead: a running DET launch's, of its own domain or, without a pod
job, of domain 0 (R341, R378). -/
def atCommits (s : State) (domain : Nat) : Bool :=
  match domainLaunch s domain with
  | some (_, l) => l.status == .running
  | none => domain == 0 && ((lowest (getPoint s 0).waiting).map (sentDet s)).getD false

/-- ORDERED_DELIVERY (R321, R338): the packets of a DET launch are performed at its commits instead (R378). -/
def execOrderedDelivery (domain : Nat) (s : State) : Host.Outcome State Fault Refusal :=
  .next (if atCommits s domain then s else (deliverNext s domain).getD s)

/-- UNORDERED_DELIVERY (R321, R322): performed on arrival, on an input port or from a local die. A packet of the package's own must be one
it has sent. -/
def execUnorderedDelivery (arrival : PortPacket) (s : State) : Host.Outcome State Fault Refusal :=
  let packet := arrival.packet
  let own := packet.src / 4 == s.info.pkgnum.toNat
  let sent := match tget s.coll.unacked (packet.src * 65536 + packet.reqId.toNat) with
    | some u => u.p == packet
    | none => false
  if packet.ordered || packet.dest != s.info.pkgnum.toNat || (own && (!sent || sentDet s packet)) then .next s
  else
    let s := retireReplies s packet
    if s.coll.excluded.contains packet.src then .next (discardRecord s arrival.port packet)
    else if cached s packet || !mayDeliver s packet then .next s
    else .next (deliver s packet)

/-! ## Stalls and exclusion (R323, R324) -/

/-- WATERMARK_STALL (R323): one record per stall. -/
def execWatermarkStall (domain : Nat) (s : State) : Host.Outcome State Fault Refusal :=
  let s1 := notePoint s domain
  let d := getPoint s1 domain
  match lowest d.waiting, laggard (pointInputs s1 domain) with
  | some p, some (src, _) =>
    if !d.stallTold && decide (max d.advanced.toNat d.waitSince.toNat + s.coll.stallTicks ≤ s.pt.toNat) then
      .next (putPoint (raiseEvent s1 (eventNow s1 cSTALL 2 0 src p.stamp.toNat p.src)) domain { d with stallTold := true })
    else .next s1
  | _, _ => .next s1

/-- A source is excluded, with a DISCARD record that names it and the port it lies behind (R324, R404). -/
def exclude (s : State) (port src : Nat) : State :=
  if s.coll.excluded.contains src then s
  else noteAll (raiseEvent { s with coll := { s.coll with excluded := s.coll.excluded ++ [src] } } (eventNow s 0x42 2 0 port 0 src))

/-- SOURCE_EXCLUSION (R324, R404). -/
def execSourceExclusion (what : PortSource) (s : State) : Host.Outcome State Fault Refusal := .next (exclude s what.port what.src)

/-- ACTIVE_SET_REMOVAL (R324, R410): the port no longer counts, and its UP bit is clear. -/
def execActiveSetRemoval (port : Nat) (s : State) : Host.Outcome State Fault Refusal :=
  if s.coll.active.contains port then
    let s1 := { s with coll := { s.coll with active := s.coll.active.filter (fun p => p != port) } }
    let e := memNat s1 (portAddr s1 port) 8
    .next (noteAll (memPut s1 (portAddr s1 port) 8 (if e.testBit 15 then e - 2 ^ 15 else e)))
  else .next s

/-! ## POD barriers (R336) -/

/-- The phase of a barrier at its root. -/
def getPodBar (s : State) (job : Word) (b : Nat) : PodBar :=
  (s.coll.podBars.find? (fun x => x.job == job && x.b == b)).getD ⟨job, b, []⟩

def putPodBar (s : State) (x : PodBar) : State :=
  { s with coll := { s.coll with podBars := x :: s.coll.podBars.filter (fun y => !(y.job == x.job && y.b == x.b)) } }

/-- POD_BARRIER_ARRIVAL (R336): the root counts a package. With as many as its own arrival names it releases them all; the
phase fails when an arrival disagrees with the root's own. -/
def execPodBarrierArrival (package : Nat) (job : BitVec 32) (bar count root : Nat) (agree : Bool) (s : State) :
    Host.Outcome State Fault Refusal :=
  let own := s.info.pkgnum.toNat
  let x := getPodBar s job bar
  if root ≠ own ∨ x.arrivals.any (fun a => a.1 == package) then .next s
  else
    let y := { x with arrivals := x.arrivals ++ [(package, count, root, agree)] }
    match y.arrivals.find? (fun a => a.1 == own) with
    | none => .next (putPodBar s y)
    | some (_, n, _, _) =>
      if y.arrivals.length < n then .next (putPodBar s y)
      else
        let ok := y.arrivals.all (fun a => a.2.2.2 && a.2.1 == n && a.2.2.1 == own)
        let s1 := putPodBar s { y with arrivals := [] }
        let outs := (y.arrivals.filter (fun a => a.1 != own)).map (fun a => (a.1, job, bar, ok))
        .next (pushNow { s1 with coll := { s1.coll with releasesOut := s1.coll.releasesOut ++ outs } } (.podBarrierRelease job bar ok))

/-- POD_BARRIER_RELEASE (R336): the phase's operations here are released, or complete with FAULT, cause REMOTE. A DET launch's next phase
begins at the commit that counts them complete (R380, log 85). -/
def execPodBarrierRelease (job : BitVec 32) (bar : Nat) (ok : Bool) (s : State) : Host.Outcome State Fault Refusal :=
  match jobLaunch s job with
  | none => .next s
  | some (lid, l) =>
    let x := getCBar l bar
    if x.waiting = [] then .next s
    else
      let s1 := markPerformed s (x.waiting.filter (fun n => !((tget s.ops n).map (fun o => o.performed)).getD true)) (if ok then 0 else cREMOTE)
      if l.kern.det && l.status == .running then .next s1
      else .next (completeCBars (putLaunch s1 lid (putCBar l { x with waiting := [], phase := x.phase + 1 })) lid)

/-! ## Synchronisation (R33, R316) -/

/-- What a held packet's stamp starts from: in a DET domain the quantum at whose commit it was issued (R325, R341). -/
def heldBase (s : State) (u : Unacked) : BitVec 48 :=
  match u.op, u.table with
  | some n, _ => match tget s.ops n with
    | some o => stampAt s (tget s.launches o.launch) (o.quantum.getD 0) (opLcore s o)
    | none => s.pt.extractLsb' 0 48
  | none, some n => match tget s.tables n with
    | some t => stampAt s (t.launch.bind (tget s.launches)) t.sentIn (tableLcore s t)
    | none => s.pt.extractLsb' 0 48
  | none, none => s.pt.extractLsb' 0 48

/-- The held packets are injected in the order in which they were sent (R316, R317). -/
def injectHeld (s : State) : State :=
  (sortBy (fun p => (p.2.order : Int)) (s.coll.unacked.filter (fun p => p.2.held))).foldl
    (fun s p => inject s p.1 p.2 (heldBase s p.2)) s

/-- POD_SYNC_CHANGE (R316, R400): PODSTATE; once synchronised, held packets are injected. -/
def execPodSyncChange (podstate : BitVec 8) (s : State) : Host.Outcome State Fault Refusal :=
  if 3 < podstate.toNat then .next s
  else
    let s1 := { s with info := { s.info with podstate := podstate } }
    .next (if syncHeld s1 then s1 else injectHeld s1)

end Sys2Proof.Machine
end

