-- ==== Sys2Proof/Machine/Lease.lean ====
section
/-! DEFINITION. Kernel descriptors and range lists as the front end checks them, and leases (R98, R99, R112-R115, R382-R388). -/

namespace Sys2Proof.Machine

/-! ## Kernel descriptors (R112-R114) -/

/-- A kernel descriptor, when it passes every check of R98, R99, R112 and R113. -/
def kernelOf (b : List Byte) : Option Kernel :=
  let f (o n : Nat) : Nat := fld b o n
  let flags := f 4 4
  let det := flags.testBit 0
  let slots := f 24 1 + f 25 1
  let q := f 36 4
  let ok := [
    f 0 2 == 1, f 2 2 == 128, flags / 16 == 0, decide (1 ≤ f 24 1 ∧ f 24 1 ≤ 16), decide (f 25 1 ≤ 63), decide (slots ≤ 64),
    decide (1 ≤ f 26 2 ∧ f 26 2 ≤ 384), decide (f 28 1 ≤ 16), decide (f 29 1 ≤ 63), decide (f 30 1 ≤ 1), f 31 1 == 0,
    decide (256 ≤ f 32 4 ∧ f 32 4 ≤ 2 ^ 31),
    (if det then decide (64 ≤ q ∧ q ≤ 1048576) else q == 0),
    f 40 4 % 4 == 0, decide (f 40 4 ≤ 524288), decide (128 ≤ f 44 4 ∧ f 44 4 ≤ 1048576), f 44 4 % 128 == 0,
    decide (f 48 4 ≤ 4096), decide (f 48 4 ≤ f 44 4), decide (4 ≤ f 52 4), f 8 8 % 4 == 0, f 16 8 % 4 == 0,
    decide (f 56 8 ≤ 2 ^ 48), f 64 4 != 0, f 68 4 == f 26 2 * 512 * slots, f 72 4 == f 40 4 * slots, f 76 52 == 0,
    !(det && f 30 1 == 0), !(f 29 1 != 0 && f 25 1 == 0), decide (f 68 4 ≤ Config.vregFileBytes),
    decide (f 72 4 ≤ Config.tileFileBytes)]
  if ok.all (fun x => x) then
    some { det := det, idemp := flags.testBit 1, pinned := flags.testBit 2, joinchk := flags.testBit 3,
           entry := BitVec.ofNat 64 (f 8 8), handler := BitVec.ofNat 64 (f 16 8), groups := f 24 1, spare := f 25 1,
           vregs := f 26 2, barriers := f 28 1, maxdepth := f 29 1, logical := f 30 1 == 1, hbperiod := f 32 4, quantum := q,
           tilebytes := f 40 4, scratch := f 44 4, kargs := f 48 4, codesize := f 52 4, expected := f 56 8 }
  else none

/-! ## Range lists (R115) -/

/-- An entry of a range list, when no field is reserved. -/
def rangeOf (b : List Byte) : Option LRange :=
  let n := fld b 8 8
  let acc := fld b 16 1
  let die := fld b 18 1
  let quad := fld b 19 1
  if 1 ≤ n ∧ n ≤ 2 ^ 48 ∧ 1 ≤ acc ∧ acc ≤ 3 ∧ fld b 17 1 ≤ 4 ∧ (die ≤ 3 ∨ die = 255) ∧ (quad ≤ 11 ∨ quad = 255) ∧ fld b 20 12 = 0 then
    some { base := BitVec.ofNat 64 (fld b 0 8), len := n, access := acc, cls := fld b 17 1, die := die, quad := quad }
  else none

/-- A read that the front end makes for a packet: its bytes, or the queue fault (R359). -/
def feRead (s : State) (asid va n : Nat) : Except (Nat × Nat) (List Byte) :=
  match spRead s (.asid asid) va n with
  | .error a => .error (qACCESS, a)
  | .ok (ds, _) =>
    match (List.range n).find? (fun j => match ds[j]? with
      | some d => d.2
      | none => false) with
    | some j => .error (qPOISON, alignDown (va + j) 8)
    | none => .ok (ds.map (fun d => d.1))

/-- A range list (R115, R354): address 0 is the empty list. -/
def readRanges (s : State) (asid va : Nat) : Except (Nat × Nat) (List LRange) :=
  if va = 0 then .ok []
  else match feRead s asid va 16 with
    | .error e => .error e
    | .ok h =>
      let n := fld h 0 2
      if 64 < n ∨ fld h 2 2 ≠ 32 ∨ fld h 4 12 ≠ 0 then .error (qRANGES, va)
      else match feRead s asid (va + 16) (32 * n) with
        | .error e => .error e
        | .ok b =>
          match (List.range n).mapM (fun i => rangeOf ((b.drop (32 * i)).take 32)) with
          | some rs => .ok rs
          | none => .error (qRANGES, va)

/-! ## The walk of a lease (R383, R384) -/

/-- What the walk of some pages comes to. -/
inductive Walked where
  | grant (leaves : List Leaf)
  | delay (missing : List (Nat × Nat))   -- pages without a leaf, with the range index
  | deny (va : Nat)
deriving DecidableEq, Repr

/-- The unit of migration that a page lies in (R390). -/
def unitHeld (s : State) (asid va : Nat) : Bool :=
  s.res.units.any (fun u => u.held && u.asid == asid && u.va == alignDown va (2 ^ 21))

/-- Whether a leaf meets a held unit. -/
def leafHeld (s : State) (asid : Nat) (f : Leaf) : Bool :=
  s.res.units.any (fun u => u.held && u.asid == asid && decide (f.va < u.va + 2 ^ 21) && decide (u.va < f.va + f.size))

/-- The walk of the pages of one range, each leaf judged by `ok`. -/
def walkPages (s : State) (asid va n idx : Nat) (ok : Leaf → Bool) : Walked :=
  let ps := rangePages s asid va n
  match ps.find? (fun p => match p.2 with
    | some f => !ok f
    | none => false) with
  | some p => .deny p.1
  | none =>
    let gone := ps.filterMap (fun p => if p.2.isNone then some (p.1, idx) else none)
    let held := ps.any (fun p => match p.2 with
      | some f => leafHeld s asid f
      | none => unitHeld s asid p.1)
    if gone ≠ [] ∨ held then .delay gone else .grant (ps.filterMap (fun p => p.2))

/-- Several walks taken together: a denial first, then a delay. -/
def Walked.both (a b : Walked) : Walked :=
  match a, b with
  | .deny v, _ => .deny v
  | _, .deny v => .deny v
  | .delay x, .delay y => .delay (x ++ y)
  | .delay x, _ => .delay x
  | _, .delay y => .delay y
  | .grant x, .grant y => .grant (x ++ y)

/-- Whether a leaf grants what a range entry asks for. -/
def rangeOk (acc : Nat) (f : Leaf) : Bool := (!acc.testBit 0 || f.r) && (!acc.testBit 1 || f.w)

/-- The walk of a range list. -/
def walkRanges (s : State) (asid : Nat) (rs : List LRange) : Walked :=
  (rs.zip (List.range rs.length)).foldl
    (fun a p => a.both (walkPages s asid p.1.base.toNat p.1.len p.2 (rangeOk p.1.access))) (.grant [])

/-- The walk of a kernel's code range and the page of its handler, X in place of R (R384). -/
def walkCode (s : State) (asid : Nat) (k : Kernel) : Walked :=
  (walkPages s asid k.entry.toNat k.codesize 255 (fun f => f.x)).both
    (if k.handler = 0 then .grant [] else walkPages s asid k.handler.toNat 1 255 (fun f => f.x))

/-! ## The notification ring (R387, R388) -/

/-- An entry of the notification ring (R387). -/
def noteBytes (s : State) (kind b9 b10 b11 launch a24 a28 : Nat) (va : Nat) : List Byte :=
  bytesOf 8 s.pt.toNat ++ bytesOf 1 kind ++ bytesOf 1 b9 ++ bytesOf 1 b10 ++ bytesOf 1 b11 ++ bytesOf 4 launch ++ bytesOf 8 va ++
    bytesOf 4 a24 ++ bytesOf 4 a28

/-- Whether notifications are enabled. -/
def notifyOn (s : State) : Bool := ringEnabled s s.info.nqhdr.toNat

/-- An entry has been written at an index: a MIGRATED entry's old frame is redirected until it is consumed, and a unit that
waited for its entry is no longer held (R389, R390). -/
def noteWritten (s : State) (asid : Nat) (e : List Byte) (idx : Nat) : State :=
  let migrated := fld e 8 1 == 2
  let mine (u : MigUnit) : Bool := u.done && u.asid == asid && u.va == fld e 16 8
  { s with res := { s.res with
      redirects := s.res.redirects.map (fun r =>
        if migrated ∧ r.new / 2 ^ 21 = fld e 28 4 ∧ r.note = none then { r with note := some idx } else r),
      units := if fld e 8 1 = 4 then s.res.units else s.res.units.filter (fun u => !mine u) } }

/-- The kept entries are written as room allows (R387, R388). -/
def drainKept : Nat → State → State
  | 0, s => s
  | n + 1, s =>
    match s.res.kept with
    | [] => s
    | e :: t =>
      if !notifyOn s || ringFull s s.info.nqhdr.toNat then s
      else
        let s1 := noteWritten { s with res := { s.res with kept := t } } e.1 e.2 (memNat s (s.info.nqhdr.toNat + 16) 4)
        drainKept n (ringPut s1 s.info.nqhdr.toNat e.2)

/-- An entry that is never dropped: written, or kept until there is room (R387). -/
def noteKept (s : State) (asid : Nat) (e : List Byte) : State :=
  drainKept (s.res.kept.length + 1) { s with res := { s.res with kept := s.res.kept ++ [(asid, e)] } }

/-- One WAITMAP entry for each missing page not yet told of (R383); none with ENABLE clear (R388). -/
def tellMissing (s : State) (q launch : Nat) (pages : List (Nat × Nat)) : State :=
  pages.foldl
    (fun s p =>
      if !notifyOn s || s.res.told.contains (q, p.1) then s
      else
        let s1 := noteKept s (qDesc s q).asid (noteBytes s 4 0 p.2 0 launch 0 0 p.1)
        { s1 with res := { s1.res with told := s1.res.told ++ [(q, p.1)] } }) s

/-- A granted lease needs no further WAITMAP. -/
def forgetTold (s : State) (q : Nat) : State := { s with res := { s.res with told := s.res.told.filter (fun p => p.1 != q) } }

/-! ## The grant (R384) -/

/-- The code range (R58): as it stood when the packet was processed, `old` through the pages `seen` that it had then, and the rest of it as
it stands (R120, log 58). -/
def codeOf (s : State) (old : Bytes) (seen ls : List Leaf) (k : Kernel) : Bytes :=
  (List.range k.codesize).foldl
    (fun m j =>
      let a := k.entry.toNat + j
      if (findLeaf seen a).isSome then m
      else match findLeaf ls a with
        | some f => mset 0 m a (memByte s (leafPa f a))
        | none => m) old

/-- The pages of a kernel's code that the page tables map. -/
def codePages (s : State) (asid : Nat) (k : Kernel) : List Leaf :=
  (rangePages s asid k.entry.toNat k.codesize).filterMap (fun p => p.2)

/-- The ordering domain that firmware gives a launch (R325): a DET pod job its own, 1-15; 0 to every other (log 37). -/
def domainFor (s : State) (l : Launch) : Nat :=
  if !l.kern.det || l.job == 0 then 0
  else
    let taken (d : Nat) : Bool := s.launches.any (fun p => p.2.status != .ended && p.2.job != l.job && p.2.domain == d)
    let d := (Config.detDomain l.job.toNat).val + 1
    if taken d then (minList ((List.range 16).filter (fun e => e != 0 && !taken e))).getD d else d

/-- Whether a DET pod job finds no ordering domain free: the launch, its descriptor and lists read already, waits for one (R114, R325, log 37). -/
def awaitsDomain (s : State) (l : Launch) : Bool :=
  l.kern.det && l.job != 0 && decide (15 ≤ (s.launches.filter (fun p => p.2.status != .ended && p.2.domain != 0)).length)

/-- A launch that its lease has been granted to. -/
def granted (s : State) (l : Launch) (ls cs : List Leaf) : Launch :=
  { l with
    leaves := ls, codeLeaves := cs, code := codeOf s l.code l.codeLeaves cs l.kern, status := .running, waitFrom := s.pt,
    shown := if l.kern.det then some (s.mem, s.mpoison) else none, domain := domainFor s l }

/-- A delayed or new launch's lease is walked: granted, the launch runs and its packet is complete; delayed, or without an ordering domain, the
queue waits; denied, the queue faults and the launch is gone (R355, R383). -/
def grantLaunch (s : State) (q lid : Nat) : State :=
  match tget s.launches lid with
  | none => s
  | some l =>
    if l.status ≠ .granting then s else
    match walkRanges s l.asid l.ranges, walkCode s l.asid l.kern with
    | .grant ls, .grant cs =>
      if awaitsDomain s l then packetWaits (putQ s q { (getQ s q) with granting := some lid }) q
      else packetDone (forgetTold (putLaunch s lid (granted s l ls cs)) q) q
    | a, b =>
      match a.both b with
      | .deny va => queueFault (forgetTold { s with launches := tdel s.launches lid } q) q qACCESS va
      | .delay gone =>
        let s1 := tellMissing s q lid gone
        packetWaits (putQ s1 q { (getQ s1 q) with granting := some lid }) q
      | .grant _ => s

end Sys2Proof.Machine
end

