-- ==== Sys2Proof/Machine/Packets.lean ====
section
/-! DEFINITION. The packets of a queue: their checks, their actions, the multi-step copies, and the packets that wait (R354-R359,
R361, R383, R386). -/

namespace Sys2Proof.Machine

/-! ## Checks of fields (R356, R359) -/

/-- A field that must hold: its packet offset, and whether it is out of range. Reserved runs are checked byte by byte. -/
def zeroRun (p : List Byte) (off n : Nat) : List (Nat × Bool) := (List.range n).map (fun j => (off + j, fld p (off + j) 1 != 0))

/-- The offset of the first bad field, fields in ascending order. -/
def firstBadField (fs : List (Nat × Bool)) : Option Nat := (fs.find? (fun f => f.2)).map (fun f => f.1)

/-- SO: [2:0] SCOPE, [4:3] ORD, [7:5] zero; the ORDs a packet may carry as a mask (R356). -/
def badSO (p : List Byte) (ords : Nat) : Nat × Bool :=
  (3, fld p 3 1 / 32 != 0 || !ords.testBit (fld p 3 1 / 8 % 4))

/-- The scope of a packet. -/
def soScope (p : List Byte) : BitVec 3 := BitVec.ofNat 3 (fld p 3 1)

/-- An 8-byte field that must be a multiple. -/
def badAlign (p : List Byte) (off k : Nat) : Nat × Bool := (off, fld p off 8 % k != 0)

/-- A length of 1 to 2^40. -/
def badLen (p : List Byte) (off : Nat) : Nat × Bool := (off, decide (fld p off 8 = 0) || decide (2 ^ 40 < fld p off 8))

/-- The checks of a packet's fields by its type: the offset of the first bad one. -/
def badField (p : List Byte) : Option Nat :=
  let t := fld p 0 1
  let head := zeroRun p 1 1
  let mid := zeroRun p 4 4
  firstBadField <|
    if t = 1 then
      [(1, fld p 1 3 != 0), badAlign p 16 16, (32, fld p 32 4 == 0), (36, fld p 36 2 == 0), (38, fld p 38 2 == 0), badAlign p 40 8,
       badAlign p 48 64]
    else if t = 2 then head ++ [(2, decide (fld p 2 1 = 0) || decide (48 < fld p 2 1)), badSO p 5] ++ mid
    else if t = 3 then head ++ [(2, decide (1 < fld p 2 1)), badSO p 15] ++ mid ++ [badAlign p 8 8] ++ zeroRun p 24 40
    else if t = 4 then head ++ zeroRun p 2 1 ++ [badSO p 5] ++ mid ++ [badLen p 24, badAlign p 32 8] ++ zeroRun p 48 16
    else if t = 5 then head ++ [(2, decide (2 < fld p 2 1)), badSO p 3] ++ mid ++ [badAlign p 8 8] ++ zeroRun p 28 36
    else if t = 6 then
      head ++ zeroRun p 2 1 ++ [badSO p 1] ++ mid ++ [badAlign p 8 64, (16, fld p 16 2 == 0)] ++ zeroRun p 18 2 ++ [badAlign p 24 8] ++
        zeroRun p 40 24
    else if t = 7 then head ++ zeroRun p 2 1 ++ [badSO p 15] ++ zeroRun p 4 60
    else if t = 8 then head ++ [(2, decide (1 < fld p 2 1))] ++ zeroRun p 3 1 ++ mid ++ [badAlign p 8 16] ++ zeroRun p 24 40
    else if t = 9 then head ++ zeroRun p 2 1 ++ [badSO p 15] ++ mid ++ [badLen p 24] ++ zeroRun p 32 32
    else zeroRun p 1 63

/-- The packet that a worker's queue has at its read index, when it is of one of the types `ts`; `body` carries it out. A
packet that cannot be read, or with a bad field, is a queue fault (R359); each is read once (R352). -/
def onPacket (s : State) (worker : Nat) (ok : Nat → Bool) (body : State → Nat → List Byte → State) : Host.Outcome State Fault Refusal :=
  match servedQueue s worker with
  | none => .next s
  | some q =>
    match packetNow s q with
    | .error (code, a) => .next (queueFault s q code a)
    | .ok p =>
      if !ok (fld p 0 1) then .next s
      else match badField p with
        | some off => .next (queueFault s q qFIELD off)
        | none => .next (body (keepQ s q { (getQ s q) with packet := some p }) q p)

/-! ## NOP, LAUNCH (R354, R355, R361) -/

/-- NOP_PACKET: nothing; a reserved type is a queue fault TYPE (R356, R359). -/
def execNopPacket (worker : Nat) (s : State) : Host.Outcome State Fault Refusal :=
  match servedQueue s worker with
  | none => .next s
  | some q =>
    match packetNow s q with
    | .error (code, a) => .next (queueFault s q code a)
    | .ok p =>
      if 9 < fld p 0 1 then .next (queueFault s q qTYPE (fld p 0 1))
      else onPacket s worker (fun t => t == 0) (fun s q _ => packetDone s q)

/-- The argument block's leaves, or the first address that may not be read (R361). -/
def kargWalk (s : State) (asid va n : Nat) : Except Nat (List Leaf) :=
  if va = 0 ∨ n = 0 then .ok []
  else match firstBad s (.asid asid) va n false with
    | some a => .error a
    | none => .ok ((rangePages s asid va n).filterMap (fun p => p.2))

/-- The next launch identifier (R355). -/
def nextId (s : State) : Word := s.fe.nextLaunch + 1

/-- A launch as its packet describes it, before its lease; its code is fixed where its pages exist (R58, R120). -/
def newLaunch (s : State) (q : Nat) (p : List Byte) (k : Kernel) (rs : List LRange) (kl : List Leaf) : Launch :=
  let d := qDesc s q
  let cs := codePages s d.asid k
  { q := q, asid := d.asid, prio := d.prio, job := BitVec.ofNat 32 (fld p 4 4), kern := k, gx := fld p 32 4, gy := fld p 36 2,
    gz := fld p 38 2, sigva := BitVec.ofNat 64 (fld p 40 8), sigadd := BitVec.ofNat 64 (fld p 56 8),
    faultva := BitVec.ofNat 64 (fld p 48 8), kargva := BitVec.ofNat 64 (fld p 24 8), ranges := rs, leaves := [], codeLeaves := cs,
    kargLeaves := kl, code := codeOf s [] [] cs k, nextWg := 0, status := .granting, faulted := false, faultCount := 0, bars := [], cbars := [],
    quantum := 0, queued := [], waitFrom := s.pt, left := [], shown := none, carried := [], domain := 0 }

/-- A LAUNCH packet carried out (R355): descriptor, range list, argument block, identifier, lease. -/
def launchPacketDo (s : State) (q : Nat) (p : List Byte) : State :=
  let asid := (qDesc s q).asid
  let desc := fld p 8 8
  if desc % 64 ≠ 0 then queueFault s q qDESCRIPTOR desc
  else if jobBusy s (BitVec.ofNat 32 (fld p 4 4)) then packetWaits s q
  else match feRead s asid desc 128 with
    | .error (code, a) => queueFault s q code a
    | .ok b =>
      match kernelOf b with
      | none => queueFault s q qDESCRIPTOR desc
      | some k =>
        match readRanges s asid (fld p 16 8) with
        | .error (code, a) => queueFault s q code a
        | .ok rs =>
          match kargWalk s asid (fld p 24 8) k.kargs with
          | .error a => queueFault s q qACCESS a
          | .ok kl =>
            let id := nextId s
            let s1 := putLaunch { s with fe := { s.fe with nextLaunch := id } } id.toNat (newLaunch s q p k rs kl)
            grantLaunch (putQ s1 q { (getQ s1 q) with lastlaunch := id }) q id.toNat

/-- LAUNCH_PACKET (R355). -/
def execLaunchPacket (worker : Nat) (s : State) : Host.Outcome State Fault Refusal := onPacket s worker (fun t => t == 1) launchPacketDo

/-! ## WRITE, SIGNAL, GRAPH (R356) -/

/-- A write of a packet: complete, or a queue fault ACCESS; a full sibling-keeping cell refuses it likewise. -/
def writeDo (s : State) (q va : Nat) (bs : List Byte) : State :=
  match spWrite s (.asid (qDesc s q).asid) va (clean bs) with
  | .error (_, a) => queueFault s q qACCESS a
  | .ok (s1, seen) => if seen.testBit 3 then queueFault s1 q qACCESS va else packetDone s1 q

/-- WRITE_PACKET. -/
def execWritePacket (worker : Nat) (s : State) : Host.Outcome State Fault Refusal :=
  onPacket s worker (fun t => t == 2) (fun s q p => writeDo s q (fld p 8 8) ((p.drop 16).take (fld p 2 1)))

/-- A read-modify-write of a packet. -/
def signalDo (s : State) (q va : Nat) (f : Nat → Nat) : State :=
  match spRmw s (.asid (qDesc s q).asid) va 8 f with
  | .error (_, a) => queueFault s q qACCESS a
  | .ok (s1, seen, _) => if seen.testBit 1 then queueFault s1 q qPOISON va else packetDone s1 q

/-- SIGNAL_PACKET: ADD or XCHG. -/
def execSignalPacket (worker : Nat) (s : State) : Host.Outcome State Fault Refusal :=
  onPacket s worker (fun t => t == 3) (fun s q p =>
    signalDo s q (fld p 8 8) (fun x => if fld p 2 1 = 1 then fld p 16 8 else (x + fld p 16 8) % 2 ^ 64))

/-- The first address of a GRAPH packet's node array that cannot be translated, or whose page forbids the stores of NSTATE and PRED (R263, R359). -/
def badNodes (s : State) (asid base nodes : Nat) : Option Nat :=
  match firstBad s (.asid asid) base (64 * nodes) false with
  | some a => some a
  | none => firstBad s (.asid asid) base (64 * nodes) true

/-- GRAPH_PACKET: the graph starts, and the packet is complete (R356, R358); a node array that cannot be reached is a queue fault (R359; DEDUCED,
log 111). -/
def execGraphPacket (worker : Nat) (s : State) : Host.Outcome State Fault Refusal :=
  onPacket s worker (fun t => t == 6) (fun s q p =>
    match badNodes s (qDesc s q).asid (fld p 8 8) (fld p 16 2) with
    | some a => queueFault s q qACCESS a
    | none =>
    let base := BitVec.ofNat 64 (fld p 8 8)
    let gr : GraphRun :=
      { owner := .queue q (BitVec.ofNat 64 (fld p 24 8)) (BitVec.ofNat 64 (fld p 32 8)), launch := none, asid := (qDesc s q).asid,
        core := 0, x := XReg.invalid, base := base, nodes := fld p 16 2, scope := soScope p, start := s.pt, limit := fld p 20 4,
        begun := false, ready := [], running := [], doneCount := 0, seen := 0, cause := 0, addr := 0, node := 0, closed := false,
        late := false }
    packetDone { s with opNo := s.opNo + 1, graphs := tput s.graphs s.opNo gr } q)

/-! ## WRSIG and COPY (R357) -/

/-- One unit of a block: the bytes of one aligned 128-byte destination line. The signal of WRSIG follows the last. -/
def copyStep (s : State) (q : Nat) (p : List Byte) (signal : Bool) : State :=
  let x := getQ s q
  let n := fld p 24 8
  let off := x.bytec.toNat
  if x.stepc ≠ 0 then signalDo s q (fld p 32 8) (fun v => (v + fld p 40 8) % 2 ^ 64)
  else
    let dst := fld p 16 8
    let m := min (n - off) (128 - (dst + off) % 128)
    let sp := Space.asid (qDesc s q).asid
    match spRead s sp ((fld p 8 8 + off) % 2 ^ 64) m with
    | .error a => queueFault s q qACCESS a
    | .ok (ds, _) =>
      match (List.range m).find? (fun j => match ds[j]? with
        | some d => d.2
        | none => false) with
      | some j => queueFault s q qPOISON ((fld p 8 8 + off + j) % 2 ^ 64)
      | none =>
        match spWrite s sp ((dst + off) % 2 ^ 64) ds with
        | .error (_, a) => queueFault s q qACCESS a
        | .ok (s1, seen) =>
          if seen.testBit 3 then queueFault s1 q qACCESS ((dst + off) % 2 ^ 64)
          else if off + m < n then putQ s1 q { x with bytec := BitVec.ofNat 64 (off + m) }
          else if signal then putQ s1 q { x with bytec := BitVec.ofNat 64 n, stepc := 1 }
          else packetDone s1 q

/-- WRSIG_PACKET. -/
def execWrsigPacket (worker : Nat) (s : State) : Host.Outcome State Fault Refusal :=
  onPacket s worker (fun t => t == 4) (fun s q p => copyStep s q p true)
/-- COPY_PACKET. -/
def execCopyPacket (worker : Nat) (s : State) : Host.Outcome State Fault Refusal :=
  onPacket s worker (fun t => t == 9) (fun s q p => copyStep s q p false)

/-! ## WAITSIG, FENCE (R356-R358) -/

/-- WAITSIG's condition, unsigned. -/
def waitsigHolds (cond x v : Nat) : Bool := if cond = 0 then decide (v ≤ x) else if cond = 1 then x == v else x != v

/-- A look at WAITSIG's word. -/
def waitsigLook (s : State) (q : Nat) (p : List Byte) : State :=
  let va := fld p 8 8
  match feRead s (qDesc s q).asid va 8 with
  | .error (code, a) => queueFault s q code a
  | .ok b =>
    let since := ((getQ s q).waitFrom.getD s.pt).toNat
    if waitsigHolds (fld p 2 1) (ofBytes b) (fld p 16 8) then packetDone s q
    else if fld p 24 4 ≠ 0 ∧ since + fld p 24 4 * Config.ticksPerUs ≤ s.pt.toNat then queueFault s q qTIMEOUT va
    else packetWaits s q

/-- WAITSIG_PACKET. -/
def execWaitsigPacket (worker : Nat) (s : State) : Host.Outcome State Fault Refusal := onPacket s worker (fun t => t == 5) waitsigLook

/-- WAITSIG_RECHECK: a write was performed to the word's line, or 4 µs passed. -/
def execWaitsigRecheck (q : Nat) (s : State) : Host.Outcome State Fault Refusal :=
  if (getQ s q).qstate ≠ 2 ∨ feStopped s then .next s
  else match packetNow s q with
    | .ok p => .next (if fld p 0 1 = 5 then waitsigLook s q p else s)
    | .error (code, a) => .next (queueFault s q code a)

/-- FENCE_PACKET (R358): waits until every earlier launch and graph of the queue has ended. -/
def execFencePacket (worker : Nat) (s : State) : Host.Outcome State Fault Refusal :=
  onPacket s worker (fun t => t == 7) (fun s q _ => if queueIdle s q then packetDone s q else packetWaits s q)

/-! ## LEASE (R386) -/

/-- A HOLD's ranges walked: the lease pins its pages and grants nothing; while it is delayed, its ranges are kept as they were read. -/
def holdWalk (s : State) (q id : Nat) (rs : List LRange) : State :=
  let x := getQ s q
  match walkRanges s (qDesc s q).asid rs with
  | .deny va => queueFault (forgetTold s q) q qACCESS va
  | .delay gone => packetWaits (tellMissing (keepQ s q { x with holding := some rs }) q 0 gone) q
  | .grant ls => packetDone (forgetTold (keepQ s q { x with leases := tput x.leases id ls }) q) q

/-- HOLD: the range list is read and walked. -/
def holdDo (s : State) (q : Nat) (p : List Byte) : State :=
  let id := fld p 16 8
  let x := getQ s q
  if 4 ≤ x.leases.length ∨ (tget x.leases id).isSome then queueFault s q qFIELD 16
  else match readRanges s (qDesc s q).asid (fld p 8 8) with
    | .error (code, a) => queueFault s q code a
    | .ok rs => holdWalk s q id rs

/-- LEASE_HOLD. -/
def execLeaseHold (worker : Nat) (s : State) : Host.Outcome State Fault Refusal :=
  onPacket s worker (fun t => t == 8) (fun s q p => if fld p 2 1 = 0 then holdDo s q p else s)

/-- LEASE_DROP. -/
def execLeaseDrop (worker : Nat) (s : State) : Host.Outcome State Fault Refusal :=
  onPacket s worker (fun t => t == 8) (fun s q p =>
    if fld p 2 1 = 0 then s
    else
      let x := getQ s q
      if (tget x.leases (fld p 16 8)).isNone then queueFault s q qFIELD 16
      else packetDone (putQ s q { x with leases := tdel x.leases (fld p 16 8) }) q)

/-- Whether a WAITMAP entry of a queue's walk has no room yet: the walk waits with it (R389). -/
def noteWaits (s : State) (q : Nat) : Bool :=
  notifyOn s && s.res.kept.any (fun e => fld e.2 8 1 == 4 && s.res.told.contains (q, fld e.2 16 8))

/-- LEASE_WALK_RETRY (R383): a delayed launch, one that waits for an ordering domain too, or a delayed HOLD, is walked again. -/
def execLeaseWalkRetry (q : Nat) (s : State) : Host.Outcome State Fault Refusal :=
  let x := getQ s q
  if x.qstate ≠ 2 ∨ feStopped s ∨ noteWaits s q then .next s
  else match x.granting, x.holding, x.packet with
    | some lid, _, _ => .next (grantLaunch s q lid)
    | none, some rs, some p => .next (holdWalk s q (fld p 16 8) rs)
    | _, _, _ => .next s

end Sys2Proof.Machine
end

