-- ==== Sys2Proof/Machine/Dispatcher.lean ====
section
/-! DEFINITION. The dispatcher: what fits a core, the order in which waiting workgroups are offered resources, placement and
resumption, and the end of a launch (R17, R18, R224, R355, R360-R362, R364, R371, R376, R377). -/

namespace Sys2Proof.Machine

/-! ## What a core has free (R18) -/

/-- Whether two ranges overlap. -/
def meets (a n b m : Nat) : Bool := decide (a < b + m) && decide (b < a + n)

/-- The lowest base at which `n` bytes are free below `cap`: 0 or the end of a used range (log 10). -/
def fitBase (used : List (Nat × Nat)) (n cap : Nat) : Option Nat :=
  minList ((0 :: used.map (fun u => u.1 + u.2)).filter
    (fun b => decide (b + n ≤ cap) && !used.any (fun u => meets b n u.1 u.2)))

/-- Bases for `k` blocks of `n` bytes. -/
def fitBases (used : List (Nat × Nat)) (n cap : Nat) : Nat → Option (List Nat)
  | 0 => some []
  | k + 1 =>
    match fitBase used n cap with
    | none => none
    | some b => (fitBases ((b, n) :: used) n cap k).map (fun bs => b :: bs)

/-- Where a workgroup goes on a core: its scratchpad, its slots, and register and tile bases for each slot. -/
structure Fit where
  sbase : Nat
  slots : List Nat
  vbases : List Nat
  tbases : List Nat
deriving DecidableEq, Repr

/-- The resident workgroups of a core, but for some that will be gone. -/
def coreWgs (s : State) (core : Nat) (gone : List Nat) : List (Nat × Workgroup) :=
  s.wgs.filter (fun p => p.2.core == core && wgResident p.2 && !gone.contains p.1)

/-- The kernel of a workgroup. -/
def wgKern (s : State) (w : Workgroup) : Option Kernel := (tget s.launches w.launch).map (fun l => l.kern)

/-- The groups of a core, but for those of workgroups that will be gone. -/
def coreGroups (s : State) (core : Nat) (gone : List Nat) : List (Nat × Group) :=
  s.groups.filter (fun p => coreOf p.1 == core && !gone.contains (gWg p.2))

/-- Ranges of register or tile bytes in use: of resident groups, and of held spare slots. -/
def usedBases (s : State) (core : Nat) (gone : List Nat) (size : Kernel → Nat) (ofGroup : Group → Nat) (ofSpare : Nat × Nat → Nat) :
    List (Nat × Nat) :=
  (coreGroups s core gone).filterMap (fun p => (tget s.launches p.2.launch).map (fun l => (ofGroup p.2, size l.kern))) ++
    (coreWgs s core gone).flatMap (fun p => match wgKern s p.2 with
      | some k => if p.2.spareHeld then p.2.spareBase.map (fun b => (ofSpare b, size k)) else []
      | none => [])

/-- What is kept from a workgroup on a core though it is free: a slot, and ranges of register and tile bytes (R364). -/
structure Kept where
  slot : Nat
  vregs : Nat × Nat
  tiles : Nat × Nat
deriving DecidableEq, Repr

/-- Whether a workgroup of a kernel fits a core beside what is kept from it, and where (R18). -/
def fitBeside (s : State) (core : Nat) (gone : List Nat) (kept : List Kept) (k : Kernel) : Option Fit :=
  let ws := coreWgs s core gone
  let n := k.groups + k.spare
  let bars := (ws.filterMap (fun p => (wgKern s p.2).map (fun k => k.barriers))).foldl (· + ·) 0
  let taken := ws.flatMap (fun p => p.2.slots) ++ kept.map (fun x => x.slot)
  let free := (List.range Config.slotsPerCore).filter (fun i => !taken.contains i)
  let scr := ws.filterMap (fun p => (wgKern s p.2).map (fun k => (p.2.sbase, k.scratch)))
  if Config.barrierSlots < bars + k.barriers ∨ free.length < n then none
  else
    match fitBase scr k.scratch Config.scratchBytes,
      fitBases (kept.map (fun x => x.vregs) ++ usedBases s core gone (fun k => 512 * k.vregs) (fun g => g.vbase) (fun b => b.1)) (512 * k.vregs) Config.vregFileBytes n,
      fitBases (kept.map (fun x => x.tiles) ++ usedBases s core gone (fun k => k.tilebytes) (fun g => g.tbase) (fun b => b.2)) k.tilebytes Config.tileFileBytes n with
    | some sb, some vs, some ts => some ⟨sb, free.take n, vs, ts⟩
    | _, _, _ => none

/-- Whether a workgroup of a kernel fits a core, and where (R18). -/
def fitOn (s : State) (core : Nat) (gone : List Nat) (k : Kernel) : Option Fit := fitBeside s core gone [] k

/-! ## The order of cores (R360, R376) -/

/-- The cores in the order in which a launch tries them: the preferred quad's, the preferred die's, all; a DET launch's
preferences are ignored. -/
def coreOrder (l : Launch) : List Nat :=
  let all := List.range Config.cores
  match (if l.kern.det then none else l.ranges.find? (fun r => r.die != 255)) with
  | none => all
  | some r =>
    let inQuad (c : Nat) : Bool := r.quad != 255 && c / 4 == 12 * r.die + r.quad
    let inDie (c : Nat) : Bool := c / 48 == r.die
    all.filter inQuad ++ all.filter (fun c => inDie c && !inQuad c) ++ all.filter (fun c => !inDie c && !inQuad c)

/-- Whether a logical core of a DET launch has room for a workgroup more: a whole core's resources, of which the launch's own workgroups
there hold theirs (R376). -/
def detCoreRoom (s : State) (lid : Nat) (k : Kernel) (n : Nat) : Option (List Nat) :=
  let ws := s.wgs.filter (fun p => p.2.launch == lid && p.2.lcore == n && !p.2.lslots.isEmpty)
  let taken := ws.flatMap (fun p => p.2.lslots.map (fun q => q.2))
  let need := k.groups + k.spare
  let free := (List.range Config.slotsPerCore).filter (fun i => !taken.contains i)
  if free.length < need ∨ Config.scratchBytes < (ws.length + 1) * k.scratch ∨ Config.barrierSlots < (ws.length + 1) * k.barriers ∨
      Config.vregFileBytes < (taken.length + need) * 512 * k.vregs ∨ Config.tileFileBytes < (taken.length + need) * k.tilebytes then none
  else some (free.take need)

/-- The first logical core with room for the next workgroup of a DET launch, and its slots there in placement order (R376, R377). -/
def detRoom (s : State) (lid : Nat) (k : Kernel) : Option (Nat × List Nat) :=
  (List.range Config.cores).findSome? (fun n => (detCoreRoom s lid k n).map (fun xs => (n, xs)))

/-! ## Waiting workgroups (R362, R364) -/

/-- A workgroup that waits for a core. One of a DET launch that has a logical core and has stood on no package core yet is saved, and counts as
never placed: `back` is false (log 83). -/
structure Cand where
  lid : Nat
  idx : Nat
  prio : Nat
  back : Bool        -- saved or flushed, not new
  saved : Bool
deriving DecidableEq, Repr

/-- The number of workgroups of a launch. -/
def gridSize (l : Launch) : Nat := l.gx * l.gy * l.gz

/-- The waiting workgroups of a launch: those saved or flushed, then the next never placed. -/
def launchWaits (s : State) (lid : Nat) (l : Launch) : List Cand :=
  (s.wgs.filterMap (fun p => if p.2.launch = lid then (match p.2.status with
      | .saved => some (⟨lid, p.2.idx, l.prio, !p.2.fresh, true⟩ : Cand)
      | .flushed => some ⟨lid, p.2.idx, l.prio, true, false⟩
      | _ => none) else none)) ++
    (if l.nextWg < gridSize l then [⟨lid, l.nextWg, l.prio, false, false⟩] else [])

/-- Whether one waiting workgroup is offered resources before another (R362). -/
def candLt (a b : Cand) : Bool :=
  if a.prio ≠ b.prio then decide (a.prio < b.prio)
  else if a.back ≠ b.back then a.back
  else if a.lid ≠ b.lid then decide (a.lid < b.lid)
  else decide (a.idx < b.idx)

/-- Inserting in that order. -/
def insertCand (c : Cand) : List Cand → List Cand
  | [] => [c]
  | x :: xs => if candLt c x then c :: x :: xs else x :: insertCand c xs

/-- All waiting workgroups in the order in which they are offered resources (R362). -/
def waiting (s : State) : List Cand :=
  (s.launches.flatMap (fun p => if p.2.status = .running then launchWaits s p.1 p.2 else [])).foldl (fun t c => insertCand c t) []

/-- The operations that a workgroup has outstanding. -/
def wgOps (s : State) (lid idx : Nat) : List (Nat × EngineOp) := s.ops.filter (fun p => p.2.launch == lid && p.2.wg == idx)

/-- Whether a workgroup waits still. -/
def stillWaits (s : State) (lid idx : Nat) : Bool := (waiting s).any (fun c => c.lid == lid && c.idx == idx)

/-- What a draining workgroup's groups have freed since its drain began (R364). -/
def freedBy (s : State) (w : Workgroup) : List Kept :=
  match wgKern s w with
  | some k => (w.placed.filter (fun x => w.drainHad.contains x.1 && !w.slots.contains x.1)).map
      (fun x => ⟨x.1, (x.2.1, 512 * k.vregs), (x.2.2, k.tilebytes)⟩)
  | none => []

/-- What is kept on a core from a candidate: while victims drain there for a workgroup of a smaller PRIO value that waits still, what their
groups have freed (R364, log 62). -/
def keptFrom (s : State) (core : Nat) (c : Cand) : List Kept :=
  (s.fe.reserve.filter (fun r => r.core == core && decide (r.prio < c.prio) && stillWaits s r.launch r.wg)).flatMap (fun r =>
    r.victims.flatMap (fun k => match tget s.wgs k with
      | some w => (match w.status with
        | .draining _ _ => freedBy s w
        | _ => [])
      | none => []))

/-- Where a workgroup is placed: the package core, the logical core and the slots there, and its place on the package core when that has
room. -/
structure Place where
  core : Nat
  lcore : Nat
  lslots : List Nat
  fit : Option Fit
deriving DecidableEq, Repr

/-- The package cores that a candidate may take, in their order: a workgroup of a DET launch stays on its logical core (R360, R371, R376). -/
def candCores (s : State) (c : Cand) (l : Launch) : List Nat :=
  if l.kern.det then (match tget s.wgs (wgKey c.lid c.idx) with
    | some w => [remapCore s w.lcore]
    | none => [])
  else coreOrder l

/-- Whether every group of a workgroup, saved or on its core, has ended the quantum. -/
def wgOver (s : State) (key : Nat) (w : Workgroup) : Bool :=
  w.saved.all (fun p => quantumOver p.2) && (groupsOf s key).all (fun p => quantumOver p.2)

/-- Whether another workgroup of a launch, on another logical core of the same package core, holds a saved one's turn: the saved one's is over, or that
one, on a lower logical core, has still to take its own and stands on no core (R376). -/
def turnHeld (s : State) (w v : Workgroup) (past : Bool) (vkey : Nat) : Bool :=
  v.status != .ended && v.lcore != w.lcore && remapCore s v.lcore == remapCore s w.lcore &&
    (past || (decide (v.lcore < w.lcore) && v.status == .saved && !wgOver s vkey v))

/-- Whether a saved workgroup is not to be placed yet: it waits for its outbound operations (R371), or, in a DET launch, whose operations complete
only at commits that wait for it, for its turn on a core that its logical core shares (R376, R381; log 64). -/
def mustWait (s : State) (c : Cand) (l : Launch) : Bool :=
  c.saved && (if !l.kern.det then !(wgOps s c.lid c.idx).isEmpty else (match tget s.wgs (wgKey c.lid c.idx) with
    | some w => s.wgs.any (fun p => p.2.launch == c.lid && turnHeld s w p.2 (wgOver s (wgKey c.lid c.idx) w) p.1)
    | none => false))

/-- Where a candidate is placed now. A new workgroup of a DET launch is placed
on a logical core whether or not the package core has room for it at once: it begins as a saved one then (R376, log 83). -/
def candFit (s : State) (c : Cand) : Option Place :=
  match tget s.launches c.lid with
  | none => none
  | some l =>
    let on (core : Nat) : Option Fit := fitBeside s core [] (keptFrom s core c) l.kern
    if mustWait s c l then none
    else if l.kern.det && !c.back && !c.saved then
      (detRoom s c.lid l.kern).map (fun r => ⟨remapCore s r.1, r.1, r.2, on (remapCore s r.1)⟩)
    else (candCores s c l).findSome? (fun core => (on core).map (fun f => ⟨core, core, [], some f⟩))

/-- The first of the waiting workgroups that fits; a never-placed one that does not holds back the later never-placed ones of its launch, but for
the logical place of a new one of a DET launch (R362, log 83). -/
def pickPlaced (s : State) : List Nat → List Cand → Option (Cand × Place)
  | _, [] => none
  | held, c :: cs =>
    let waits := !c.back && held.contains c.lid
    match (if waits && c.saved then none else candFit s c) with
    | some p => some (c, if waits then { p with fit := none } else p)
    | none => pickPlaced s (if c.back then held else c.lid :: held) cs

/-- The waiting workgroup that is placed next (R362). -/
def nextPlaced (s : State) : Option (Cand × Place) := if feStopped s then none else pickPlaced s [] (waiting s)

/-! ## WORKGROUP_PLACE (R17, R360, R361, R377) -/

/-- The argument block at the start of a scratchpad, poison with it (R361). -/
def kargBytes (s : State) (l : Launch) : List PByte :=
  if l.kargva = 0 then []
  else (List.range l.kern.kargs).map (fun j =>
    match findLeaf l.kargLeaves (l.kargva.toNat + j) with
    | some f => let pa := leafPa f (l.kargva.toNat + j); (memByte s pa, mget false s.mpoison (pa / 8))
    | none => (0, false))

/-- The launched group of an index at its start; its clocks are those of the core it is placed on. -/
def newGroup (s : State) (lid core : Nat) (l : Launch) (w : Workgroup) (vbase tbase i : Nat) : Group :=
  let clk := (getCore s core).clk
  { groupStart lid w.idx i (groupId w i) (choosePart s core) vbase tbase l.kern.entry with lastRetire := clk, lastIssue := clk, born := clk }

/-- One launched group placed in its slot. -/
def placeGroup (s : State) (lid core : Nat) (l : Launch) (w : Workgroup) (f : Fit) (i : Nat) : State :=
  putGroup s (core * Config.slotsPerCore + f.slots.getD i 0) (newGroup s lid core l w (f.vbases.getD i 0) (f.tbases.getD i 0) i)

/-- The claims of a workgroup that has been placed are over. -/
def dropReserve (s : State) (lid idx : Nat) : State :=
  { s with fe := { s.fe with reserve := s.fe.reserve.filter (fun r => !(r.launch == lid && r.wg == idx)) } }

/-- The bases of the spare slots of a fit. -/
def spareOf (k : Kernel) (f : Fit) : List (Nat × Nat) := (f.vbases.drop k.groups).zip (f.tbases.drop k.groups)

/-- The slots and bases of the launched groups of a fit. -/
def placedOf (k : Kernel) (f : Fit) : List (Nat × Nat × Nat) :=
  (List.range k.groups).map (fun i => (f.slots.getD i 0, f.vbases.getD i 0, f.tbases.getD i 0))

/-- A workgroup at its start, its argument block copied (R361). -/
def newWg (s : State) (lid idx : Nat) (l : Launch) (p : Place) (f : Fit) : Workgroup :=
  let xyz := wgCoords l idx
  let w := wgStart lid idx xyz.1 xyz.2.1 xyz.2.2 p.core p.lcore f.sbase f.slots (spareOf l.kern f) s.pt s.fe.placeOrder
  let ls := if l.kern.det then p.lslots else f.slots
  let w1 := wgWriteP { w with placed := placedOf l.kern f, lslots := (List.range ls.length).zip ls } 0 (kargBytes s l)
  { w1 with shown := if l.kern.det then some (w1.scratch, w1.spoison) else none }

/-- The front end's requests for an argument block, counted (R389). -/
def countKargs (s : State) (lid : Nat) (l : Launch) : State :=
  if l.kargva = 0 then s else countLines s lid none l.kargva.toNat l.kern.kargs

/-- A workgroup placed for the first time, or again after a flush (R361, R373). -/
def placeWg (s : State) (lid idx : Nat) (l : Launch) (p : Place) (fresh : Bool) : State :=
  let s0 := countKargs { s with fe := { s.fe with placeOrder := s.fe.placeOrder + 1 } } lid l
  let l1 := { l with nextWg := if fresh then l.nextWg + 1 else l.nextWg }
  match p.fit with
  | some f =>
    let w := newWg s lid idx l p f
    let s1 := (List.range l.kern.groups).foldl (fun s i => placeGroup s lid p.core l w f i) (putWg s0 (wgKey lid idx) w)
    dropReserve (putLaunch s1 lid l1) lid idx
  | none =>
    let w := { newWg s lid idx l p ⟨0, [], [], []⟩ with slots := [], placed := [], spareHeld := false, status := .saved, fresh := true, waitFrom := l.waitFrom }
    let gs := (List.range l.kern.groups).map (fun i => (i, newGroup s lid p.core l w 0 0 i))
    putLaunch (putWg s0 (wgKey lid idx) { w with saved := gs }) lid l1

/-- WORKGROUP_PLACE: the workgroup that is next in order, when it has not been saved. -/
def execWorkgroupPlace (s : State) : Host.Outcome State Fault Refusal :=
  match nextPlaced s with
  | some (c, p) =>
    if c.saved then .next s
    else match tget s.launches c.lid with
      | some l => .next (placeWg s c.lid c.idx l p (!c.back))
      | none => .next s
  | none => .next s

/-! ## Reading a context record back (R369-R371, R394, R407) -/

/-- A little-endian doubleword of a list of bytes. -/
def fldD (b : List Byte) (off : Nat) : DWord := BitVec.ofNat 64 (fld b off 8)

/-- A translation register from its 24 bytes (R250): LENGTH and LIMIT are at most 2^48. -/
def xregOf (b : List Byte) : XReg :=
  let d := fld b 0 8
  ⟨d.testBit 57, BitVec.ofInt 64 (sextI 57 d), fld b 8 8 % 2 ^ 49, fld b 16 8 % 2 ^ 49⟩

/-- The special registers from their 14 doublewords (R182). -/
def specialOf (b : List Byte) : Special :=
  let d (n : Nat) : DWord := fldD b (8 * n)
  { tpc := d 0, tcause := (d 1).setWidth 8, tval := d 2, texec := Mask.ofPair (d 3) (d 4), tlane := Mask.ofPair (d 5) (d 6),
    fsp := (d 7).setWidth 21, fbase := (d 8).setWidth 21, flim := (d 9).setWidth 21, tdepth := (d 10).setWidth 8, hbcnt := d 11,
    ric := d 12, pjoin := (d 13).setWidth 40 }

/-- The instruction at an address, as a log entry names it. -/
def instAt (s : State) (l : Launch) (pc : DWord) : Option Instr :=
  match fetchWords s l pc.toNat with
  | .ok ws => (decode l.kern.vregs ws).toOption
  | .error _ => none

/-- The operand log from its 40 bytes: a resume address and up to four entries. -/
def logOf (s : State) (l : Launch) (b : List Byte) : OperandLog :=
  { OperandLog.empty with
    resume := fldD b 0,
    entries := (List.range 4).filterMap (fun j =>
      let pc := fldD b (8 + 8 * j)
      if pc = 0 then none else (instAt s l pc).map (fun i => ⟨pc, i⟩)) }

/-- PROM of a block (R210, log 41): the promoted frames that it names, each with its task's workgroup and slot index. The field has room for six,
so one that it agrees with is taken as the group holds it, and those past the room stay. -/
def promOf (g : Group) (b : List Byte) : Tbl (Nat × Nat) :=
  let entry (j : Nat) : Nat × Nat × Nat := (fld b (4 + 10 * j) 4, fld b (8 + 10 * j) 4, fld b (12 + 10 * j) 2)
  let es := ((List.range 6).map entry).filter (fun e => e != (0, 0, 0))
  let kept := ((List.range 6).zip g.promo).filter (fun p => entry p.1 == (p.2.1 % 2 ^ 32, p.2.2.1 % 2 ^ 32, p.2.2.2 % 2 ^ 16))
  (es.foldl (fun t e => match kept.find? (fun p => p.2.1 % 2 ^ 32 == e.1) with
    | some p => tput t p.2.1 p.2.2
    | none => tput t e.1 e.2) (g.promo.drop 6))

/-- A group's state from its 2 KiB block (R370), reserved bits zero (R5). What no block holds stays as the group has it. -/
def readBlock (s : State) (l : Launch) (g : Group) (b : List Byte) : Group :=
  let st := fld b 0x658 8
  { g with
    sregs := (List.range 160).foldl (fun t n => mset 0 t n (fldD b (8 * n))) [],
    pal := fldD b 0x500 &&& 0x7FFF, fpc := BitVec.ofNat 32 (fld b 0x508 4 % 2 ^ 13),
    tflags := BitVec.ofNat 32 (fld b 0x50C 4) &&& 0x3F3F,
    promo := promOf g (b.drop 0x740),
    xregs := (List.range 8).foldl (fun t n => mset XReg.invalid t n (xregOf (b.drop (0x510 + 24 * n)))) [],
    tc := (List.range 16).foldl (fun t n => mset 0 t n (fldD b (0x5D0 + 8 * n) &&& 0x800007FFFFFFFFFF)) [],
    pc := fldD b 0x650, scc := st.testBit 0, handler := st.testBit 1, tickHeld := st.testBit 2,
    barw := if st.testBit 3 then some (BitVec.ofNat 32 (st / 2 ^ 32), none) else none,
    urg := fld b 0x668 8, sp := specialOf (b.drop 0x690), log := logOf s l (b.drop 0x700) }

/-- A group's registers, tiles and reports from the part of a record after the blocks (R369). -/
def readData (k : Kernel) (g : Group) (nrep : Nat) (ds : List PByte) : Group :=
  let b := ds.map (fun d => d.1)
  let t := ds.drop (512 * k.vregs)
  { g with
    vregs := (List.range k.vregs).foldl (fun m n => mset VReg.zero m n
      ((List.range Config.lanes).map (fun j => BitVec.ofNat 32 (fld b (512 * n + 4 * j) 4)))) [],
    tiles := msetRun 0 [] 0 ((t.take k.tilebytes).map (fun d => d.1)),
    tpoison := msetRun false [] 0 ((t.take k.tilebytes).map (fun d => d.2)),
    reports := (List.range nrep).map (fun j => fldD b (512 * k.vregs + k.tilebytes + 8 * j)) }

/-- Bytes of memory with their poison marks. -/
def memPBytes (s : State) (pa n : Nat) : List PByte :=
  (List.range n).map (fun j => (memByte s (pa + j), mget false s.mpoison ((pa + j) / 8)))

/-- What a record gives back: the workgroup's coordinates and export state, the groups by slot index and the scratchpad, with whether
uncorrectable data lay in state that cannot carry poison (R407). -/
structure ReadBack where
  xyz : Nat × Nat × Nat
  exported : Bool
  groups : List (Nat × Group)
  scratch : Bytes
  spoison : Marks
  bad : Bool
deriving DecidableEq, Repr

/-- The groups' parts of a record one after another: blocks at `blk`, data at `dat`. -/
def readGroups (s : State) (l : Launch) : Nat → Nat → List (Nat × Group) → List (Nat × Group) × Bool × Nat
  | _, dat, [] => ([], false, dat)
  | blk, dat, (i, g) :: t =>
    let k := l.kern
    let b := memPBytes s blk 2048
    let bytes := b.map (fun d => d.1)
    let nrep := fld bytes 0x664 4
    let n := 512 * k.vregs + k.tilebytes + 8 * nrep
    let ds := memPBytes s dat n
    let r := readGroups s l (blk + 2048) (dat + n) t
    ((i, readData k (readBlock s l g bytes) nrep ds) :: r.1,
     b.any (fun d => d.2) || (ds.take (512 * k.vregs)).any (fun d => d.2) || (ds.drop (512 * k.vregs + k.tilebytes)).any (fun d => d.2) || r.2.1,
     r.2.2)

/-- The groups that a record's header names by its slot occupancy: those that were saved, and where the header names another slot of the workgroup,
a group there as at its start. -/
def occupied (l : Launch) (w : Workgroup) (occ : Nat) : List (Nat × Group) :=
  ((List.range (l.kern.groups + l.kern.spare)).filter (fun i => occ.testBit i)).map (fun i =>
    (i, (tget w.saved i).getD (groupStart w.launch w.idx i (groupId w i) 0 0 0 l.kern.entry)))

/-- A saved workgroup as its record in the context pool gives it back; one placed without a record as it stands (log 83). -/
def readRecord (s : State) (l : Launch) (w : Workgroup) : ReadBack :=
  match w.recAt with
  | none => ⟨(w.x, w.y, w.z), w.exported, w.saved, w.scratch, w.spoison, false⟩
  | some pa =>
    let h := (memPBytes s pa 64).map (fun d => d.1)
    let gs := occupied l w (fld h 16 8)
    let r := readGroups s l (pa + 64) (pa + 64 + 2048 * gs.length) gs
    let sc := memPBytes s r.2.2 l.kern.scratch
    ⟨(fld h 4 4, fld h 8 4, fld h 12 4), (fld h 24 4).testBit 0, r.1, msetRun 0 [] 0 (sc.map (fun d => d.1)),
     (List.range (l.kern.scratch / 8)).foldl (fun m j => if ((sc.drop (8 * j)).take 8).any (fun d => d.2) then mset false m j true else m) [],
     r.2.1 || (memPBytes s pa 64).any (fun d => d.2)⟩

/-! ## WORKGROUP_RESUME (R233, R250, R371) -/

/-- A translation register walked again (R250, R371). -/
def rewalk (l : Launch) (x : XReg) : XReg := if x.valid then { x with limit := xLimit l x.vbase.toNat x.length } else x

/-- A saved group as it resumes: its counters of outbound work are 0, and it runs the instruction it was parked in again. A group that
waits at a named barrier waits on. One of a DET launch keeps its counters, whose operations complete at commits, and stays at its commit when its
quantum is over (R376, R381; log 64). -/
def resumeGroup (s : State) (l : Launch) (w : Workgroup) (core : Nat) (g : Group) (vb tb : Nat) : Group :=
  let clk := (getCore s core).clk
  let pj := match g.task with
    | some t => if t.global then g.sp.pjoin
                else BitVec.ofNat 40 (ocpmScratch w (ofBytes (mgetRun 0 w.scratch (t.frame + 8) 8) % 2 ^ 20))
    | none => g.sp.pjoin
  { g with
    part := choosePart s core, vbase := vb, tbase := tb, xregs := g.xregs.map (fun p => (p.1, rewalk l p.2)),
    st := if l.kern.det then g.st else [], coll := if l.kern.det then g.coll else [],
    sp := { g.sp with pjoin := pj }, since := none, waited := 0, hold := none, lastRetire := clk,
    lastIssue := clk, born := clk, id := if l.kern.det then g.id else groupId w g.gidx,
    status := match g.status with
      | .frozen => .frozen
      | .parked (.barNamed scope b tok) => .parked (.barNamed scope b ((g.barw.map (fun x => x.1)).getD tok))
      | st => if l.kern.det && quantumOver g then st else .run }

/-- A group saved while parked in BARW arrives again, unless its barrier's phase has changed (R233); in a DET launch its arrival was not
withdrawn (log 83). -/
def rearrive (s : State) (lid lcore : Nat) (g : Group) : State :=
  match g.status, tget s.launches lid with
  | .parked (.barNamed scope b tok), some l =>
    if l.kern.det then s else
    let x := getBar l scope b (instOf scope lcore)
    if x.phase = (g.barw.map (fun x => x.1)).getD tok then
      let x1 := { x with arrivals := x.arrivals ++ [(g.wg, g.gidx)] }
      completeBar (putLaunch s lid (putBar l x1)) lid x1
    else s
  | _, _ => s

/-- The index of a group among its workgroup's slots. -/
def slotFor (f : Fit) (i : Nat) : Nat × Nat × Nat := (f.slots.getD i 0, f.vbases.getD i 0, f.tbases.getD i 0)

/-- The tape entries kept for a saved workgroup stand in the table of the core it is placed on, its scratchpad at `sbase` and its groups in the
slots that `slot` gives by index (R371, R376). -/
def restoreTape (s : State) (core sbase : Nat) (slot : Nat → Nat) (held : List TapeEntry) : State :=
  if held = [] then s
  else
    let c := getCore s core
    putCore s core { c with tape := c.tape ++ held.map (fun e => { e with
      lo := sbase + e.lo, hi := sbase + e.hi, tileOf := e.tileOf.map (fun i => core * Config.slotsPerCore + slot i),
      own := e.own.map (fun i => core * Config.slotsPerCore + slot i) }) }

/-- A saved workgroup placed on a core, as its record gives it back (R371, R394). The slots of launched groups that have ended stay free.
Uncorrectable data in state that cannot carry poison halts the launch (R407). -/
def resumeWg (s : State) (lid idx : Nat) (l : Launch) (w : Workgroup) (core : Nat) (f : Fit) : State :=
  let rb := readRecord s l w
  let live := (List.range l.kern.groups).filter (fun i => rb.groups.any (fun p => p.1 == i))
  let slots := live.map (fun i => f.slots.getD i 0) ++ f.slots.drop l.kern.groups
  let w1 := { w with core := core, lcore := if l.kern.det then w.lcore else core, status := .resident, sbase := f.sbase, slots := slots,
                     slot0 := f.slots.headD 0, lslots := if l.kern.det then w.lslots else (List.range f.slots.length).zip f.slots,
                     spareBase := spareOf l.kern f, placed := placedOf l.kern f, spareHeld := true, saved := [], placedAt := s.pt,
                     order := s.fe.placeOrder, scratch := rb.scratch, spoison := rb.spoison, recAt := none, recSize := 0,
                     x := rb.xyz.1, y := rb.xyz.2.1, z := rb.xyz.2.2, exported := rb.exported, fresh := false, held := [], drainHad := [] }
  let s1 := putWg { restoreTape s core f.sbase (fun i => f.slots.getD i 0) w.held with fe := { s.fe with placeOrder := s.fe.placeOrder + 1, poolUsed := s.fe.poolUsed - w.recSize } } (wgKey lid idx) w1
  let s2 := rb.groups.foldl
    (fun s p =>
      let x := slotFor f p.1
      putGroup s (core * Config.slotsPerCore + x.1) (resumeGroup s l w1 core p.2 x.2.1 x.2.2)) s1
  let s3 := dropReserve (rb.groups.foldl (fun s p => rearrive s lid w1.lcore p.2) s2) lid idx
  if rb.bad then
    faultAndHalt s3 lid { cause := cUNCORR, exited := false, status := 0, core := core, slot := 0, lane := 255, x := w.x, y := w.y, z := w.z,
                          pc := 0, addr := (w.recAt.getD 0), tag := 0 } 0 (w.recAt.getD 0) 0
  else s3

/-- WORKGROUP_RESUME: the saved workgroup, when it is next in order and its outbound operations are complete. -/
def execWorkgroupResume (launch wg : Nat) (s : State) : Host.Outcome State Fault Refusal :=
  match nextPlaced s with
  | some (c, p) =>
    if c.saved && c.lid == launch && c.idx == wg then
      match tget s.launches launch, tget s.wgs (wgKey launch wg), p.fit with
      | some l, some w, some f => .next (resumeWg s launch wg l w p.core f)
      | _, _, _ => .next s
    else .next s
  | none => .next s

/-! ## LAUNCH_END (R22, R266, R355, R384) -/

/-- Whether a launch has ended: every workgroup placed and ended, or the launch halted; no issued operation, graph or table left. -/
def launchOver (s : State) (lid : Nat) (l : Launch) : Bool :=
  (match l.status with
    | .running => decide (gridSize l ≤ l.nextWg) && s.wgs.all (fun p => p.2.launch != lid || p.2.status == .ended)
    | .halted => true
    | _ => false) &&
    s.ops.all (fun p => p.2.launch != lid || ((p.2.deferred || (tileOpB p.2 && p.2.performed)) && l.status == .halted)) && s.graphs.all (fun p => p.2.launch != some lid) &&
    s.tables.all (fun p => p.2.launch != some lid)

/-- A DET pod job's ordering domain is free for another job, whose stamps and watermarks start from quantum 0 again (R325, log 37). -/
def clearDomain (s : State) (l : Launch) : State :=
  if !l.kern.det || l.domain == 0 then s
  else { s with coll := { s.coll with
    lastStamp := s.coll.lastStamp.filter (fun p => p.1 % 16 != l.domain), sentW := s.coll.sentW.filter (fun p => p.1 % 16 != l.domain),
    points := s.coll.points.map (fun p => if p.1 = l.domain then (p.1, { p.2 with portW := [], lastW := 0 }) else p) } }

/-- What a launch held is free: its workgroups and groups, its tape entries, its lease and its pins, its ordering domain. -/
def clearLaunch (s : State) (lid : Nat) (l : Launch) : State :=
  let size := (s.wgs.filterMap (fun p => if p.2.launch = lid then some p.2.recSize else none)).foldl (· + ·) 0
  recheckAll { clearDomain s l with
    ops := s.ops.filter (fun p => p.2.launch != lid),
    cores := s.cores.map (fun c => (c.1, { c.2 with tape := c.2.tape.filter (fun e => !s.ops.any (fun p => p.1 == e.op && p.2.launch == lid)) })),
    wgs := s.wgs.filter (fun p => p.2.launch != lid), groups := s.groups.filter (fun p => p.2.launch != lid),
    fe := { s.fe with poolUsed := s.fe.poolUsed - size, reserve := s.fe.reserve.filter (fun r => r.launch != lid) },
    launches := tput s.launches lid { l with
      status := .ended, leaves := [], codeLeaves := [], kargLeaves := [], code := [], bars := [], cbars := [], left := [], shown := none, carried := [] } }

/-- LAUNCH_END: the completion signal, and the end of the lease. -/
def execLaunchEnd (launch : Nat) (s : State) : Host.Outcome State Fault Refusal :=
  match tget s.launches launch with
  | some l =>
    if launchOver s launch l then
      .next (clearLaunch (if l.sigva = 0 then s
        else addSignal (countLines s launch none l.sigva.toNat 8) l.asid l.sigva.toNat l.sigadd.toNat) launch l)
    else .next s
  | none => .next s

end Sys2Proof.Machine
end

