-- ==== Sys2Proof/Machine/Preempt.lean ====
section
/-! DEFINITION. Pre-emption: the choice of victims and of their treatment, SAVE with its context record, FLUSH, the conversion of a
drain, and the forward-progress monitor (R364-R374). -/

namespace Sys2Proof.Machine

/-! ## Bytes of a context record (R369, R370) -/

/-- A list of bytes cut or filled with zeros to a length. -/
def padTo (n : Nat) (bs : List Byte) : List Byte := (bs ++ List.replicate (n - bs.length) 0).take n

/-- A translation register's 24 bytes (R250). -/
def xregBytes (x : XReg) : List Byte :=
  bytesOf 8 ((if x.valid then 2 ^ 57 else 0) + x.vbase.toNat % 2 ^ 57) ++ bytesOf 8 x.length ++ bytesOf 8 x.limit

/-- The token of a group that resumes as BARW: its BARAW has arrived and has not retired (R368, R370). -/
def barwToken (g : Group) : Option Word := g.barw.map (fun x => x.1)

/-- STATE of a group's block (R370). -/
def stateBits (g : Group) : Nat :=
  (if g.scc then 1 else 0) + (if g.handler then 2 else 0) + (if g.tickHeld then 4 else 0) +
    (match barwToken g with
      | some t => 8 + t.toNat * 2 ^ 32
      | none => 0)

/-- The special registers 0-13, 8 bytes each (R182). -/
def specBytes (p : Special) : List Byte :=
  [p.tpc.toNat, p.tcause.toNat, p.tval.toNat, p.texec.lo.toNat, p.texec.hi.toNat, p.tlane.lo.toNat, p.tlane.hi.toNat, p.fsp.toNat,
   p.fbase.toNat, p.flim.toNat, p.tdepth.toNat, p.hbcnt.toNat, p.ric.toNat, p.pjoin.toNat].flatMap (bytesOf 8)

/-- The oldest frame of a group's stack that is not promoted, FSP when there is none (R210). -/
def oldestFrame (w : Workgroup) (g : Group) : Nat :=
  ((frameOffs g).find? (fun o => !(ofBytes (mgetRun 0 w.scratch o 8)).testBit 34)).getD g.sp.fsp.toNat

/-- PROM (R210, R370), which is opaque: the oldest unpromoted frame, then each promoted one with its task's workgroup and slot index
(log 41). -/
def promBytes (w : Workgroup) (g : Group) : List Byte :=
  bytesOf 4 (oldestFrame w g) ++ g.promo.flatMap (fun p => bytesOf 4 p.1 ++ bytesOf 4 p.2.1 ++ bytesOf 2 p.2.2)

/-- A group's 2 KiB block (R370). -/
def groupBlock (w : Workgroup) (g : Group) : List Byte :=
  (List.range 160).flatMap (fun n => bytesOf 8 (sreg g n).toNat) ++ bytesOf 8 g.pal.toNat ++ bytesOf 4 g.fpc.toNat ++
    bytesOf 4 g.tflags.toNat ++ (List.range 8).flatMap (fun n => xregBytes (xreg g n)) ++
    (List.range 16).flatMap (fun n => bytesOf 8 (tctl g n).toNat) ++ bytesOf 8 g.pc.toNat ++ bytesOf 8 (stateBits g) ++
    bytesOf 4 (g.st.length + g.coll.length * 2 ^ 8) ++ bytesOf 4 g.reports.length ++ bytesOf 8 g.urg ++ List.replicate 32 0 ++
    specBytes g.sp ++ bytesOf 8 g.log.resume.toNat ++ padTo 32 (g.log.entries.flatMap (fun e => bytesOf 8 e.pc.toNat)) ++
    List.replicate 24 0 ++ padTo 64 (promBytes w g) ++ List.replicate 128 0

/-- A group's registers, tiles and pending reports (R369), the tiles with their poison. -/
def groupData (k : Kernel) (g : Group) : List PByte :=
  clean ((List.range k.vregs).flatMap (fun n => (vreg g n).flatMap (fun x => bytesOf 4 x.toNat))) ++
    (mgetRun 0 g.tiles 0 k.tilebytes).zip ((List.range k.tilebytes).map (fun j => mget false g.tpoison j)) ++
    clean (g.reports.flatMap (fun pc => bytesOf 8 pc.toNat))

/-- The slot occupancy of a record's header. -/
def occupancy (gs : List (Nat × Group)) : Nat := (gs.map (fun p => 2 ^ p.1)).foldl (· + ·) 0

/-- The context record (R369): header, blocks, registers and tiles, scratchpad. Poison goes with the bytes that carry it (R254). -/
def contextRecord (k : Kernel) (w : Workgroup) (gs : List (Nat × Group)) : List PByte :=
  clean (padTo 64 (bytesOf 4 w.launch ++ bytesOf 4 w.x ++ bytesOf 4 w.y ++ bytesOf 4 w.z ++ bytesOf 8 (occupancy gs) ++
      bytesOf 4 (if w.exported then 1 else 0) ++ bytesOf 4 k.scratch) ++ gs.flatMap (fun p => groupBlock w p.2)) ++
    gs.flatMap (fun p => groupData k p.2) ++
    (mgetRun 0 w.scratch 0 k.scratch).zip ((List.range k.scratch).map (fun j => mget false w.spoison (j / 8)))

/-- The record of a workgroup written at an address of the context pool. -/
def writeRecord (s : State) (pa : Nat) (k : Kernel) (w : Workgroup) (gs : List (Nat × Group)) : State :=
  (homeWrite s false pa (contextRecord k w gs)).1

/-- The groups of a workgroup by slot index. -/
def wgGroups (s : State) (key : Nat) : List (Nat × Group) :=
  (s.groups.filter (fun p => gWg p.2 == key)).foldl (fun t p => tput t p.2.gidx p.2) []

/-- The size of a record of some groups (R369). -/
def groupsSize (k : Kernel) (gs : List (Nat × Group)) : Nat :=
  64 + k.scratch + (gs.map (fun p => 2048 + k.vregs * 512 + k.tilebytes + 8 * p.2.reports.length)).foldl (· + ·) 0

/-- The size of a workgroup's record (R369). -/
def recordSize (s : State) (key : Nat) (k : Kernel) : Nat := groupsSize k (wgGroups s key)

/-- The records that lie in the context pool, but for a workgroup's own: address and size. -/
def poolRecords (s : State) (key : Nat) : List (Nat × Nat) :=
  s.wgs.filterMap (fun p => if p.1 = key then none else p.2.recAt.map (fun a => (a, p.2.recSize)))

/-- Whether `n` bytes of the context pool from a multiple of 64 on are free for a workgroup's record (log 41). -/
def poolFree (s : State) (key pa n : Nat) : Bool :=
  pa % 64 == 0 && decide (s.fe.poolBase ≤ pa) && decide (pa + n ≤ s.fe.poolBase + s.fe.poolSize) &&
    !(poolRecords s key).any (fun u => meets pa n u.1 u.2)

/-- The lowest such place: at the start of the pool, or past a record (log 41). -/
def poolPlace (s : State) (key n : Nat) : Option Nat :=
  let up (a : Nat) : Nat := (a + 63) / 64 * 64
  minList ((up s.fe.poolBase :: (poolRecords s key).map (fun u => up (u.1 + u.2))).filter (fun pa => poolFree s key pa n))

/-! ## The choice (R364, R365) -/

/-- What is done with a victim. -/
inductive Treatment where
  | drain (fixed : Bool)
  | save
  | flush
deriving DecidableEq, Repr

/-- Whether the context pool has room for a workgroup's record: a place that holds it whole. -/
def poolRoom (s : State) (key : Nat) (k : Kernel) : Bool := (poolPlace s key (recordSize s key k)).isSome

/-- A save, or a drain when the pool has no room. -/
def saveOrDrain (s : State) (key : Nat) (k : Kernel) : Treatment := if poolRoom s key k then .save else .drain false

/-- The treatment of a victim: the first row of R365 that applies. T, like R, counts all its residencies. -/
def treatmentOf (s : State) (key : Nat) (w : Workgroup) (k : Kernel) : Treatment :=
  let r := w.retired
  let e := k.expected
  let t := w.stayed + (s.pt.toNat - w.placedAt.toNat)
  if w.exported || k.pinned then .drain true
  else if e = 0 then saveOrDrain s key k
  else if 9 * e ≤ 10 * r ∧ (e - r) * t ≤ s.fe.drainBudget * Config.ticksPerUs * r then .drain false
  else if k.idemp && !k.det && decide (10 * r < e) then .flush
  else saveOrDrain s key k

/-- A workgroup begins to drain: what it holds then is what its drain may free (R364, R366). -/
def drainFrom (s : State) (w : Workgroup) (fixed : Bool) : Workgroup :=
  { w with status := .draining s.pt fixed, drainHad := w.slots, recAt := none, recSize := 0 }

/-- The bytes that a workgroup's record takes in the pool are free. -/
def freeRoom (s : State) (w : Workgroup) : State := { s with fe := { s.fe with poolUsed := s.fe.poolUsed - w.recSize } }

/-- A victim's treatment begins; a save reserves its room in the pool. -/
def treat (s : State) (key : Nat) (how : Treatment) : State :=
  match tget s.wgs key with
  | none => s
  | some w =>
    match how with
    | .drain fixed => putWg s key (drainFrom s w fixed)
    | .flush => putWg s key { w with status := .flushing }
    | .save => match wgKern s w with
      | some k =>
        let n := recordSize s key k
        putWg { s with fe := { s.fe with poolUsed := s.fe.poolUsed + n } } key { w with status := .saving, recSize := n, recAt := poolPlace s key n }
      | none => s

/-- The slice of the queue that started a launch. -/
def launchSlice (s : State) (l : Launch) : Nat := (qDesc s l.q).slice * Config.ticksPerUs

/-- Since when a waiting workgroup waits: one never placed, since its launch began. -/
def candSince (s : State) (c : Cand) : Nat :=
  if c.back || c.saved then (match tget s.wgs (wgKey c.lid c.idx) with
    | some w => w.waitFrom.toNat
    | none => 0)
  else (match tget s.launches c.lid with
    | some l => l.waitFrom.toNat
    | none => 0)

/-- Whether a resident workgroup of a DET launch gives its core up to a saved one on another logical core, whose turn of the quantum it is
(R376). -/
def rotates (s : State) (c : Cand) (key : Nat) (w : Workgroup) : Bool :=
  c.saved && w.launch == c.lid && !w.exported && (match tget s.wgs (wgKey c.lid c.idx) with
    | some v => v.lcore != w.lcore && remapCore s v.lcore == remapCore s w.lcore && !wgOver s (wgKey c.lid c.idx) v &&
        (wgOver s key w || (decide (v.lcore < w.lcore) && (groupsOf s key).all (fun p => quantumStart s p.2)))
    | none => false)

/-- Whether a resident workgroup may be made to give way to a waiting one (R364, R376). -/
def mayEvict (s : State) (c : Cand) (lc : Launch) (key : Nat) (w : Workgroup) : Bool :=
  match w.status, tget s.launches w.launch with
  | .resident, some l =>
    (l.kern.det && !l.kern.pinned && rotates s c key w) || decide (c.prio < l.prio) ||
      (l.prio == c.prio && decide (launchSlice s l < s.pt.toNat - w.placedAt.toNat) &&
        decide (launchSlice s lc < s.pt.toNat - candSince s c))
  | _, _ => false

/-- The victim chosen first: the highest PRIO value, then the most recently placed (R364). -/
def firstVictim (s : State) (ws : List (Nat × Workgroup)) : Option (Nat × Workgroup) :=
  let prio (w : Workgroup) : Nat := match tget s.launches w.launch with
    | some l => l.prio
    | none => 0
  match ws with
  | [] => none
  | x :: xs => some (xs.foldl (fun b y =>
      if prio b.2 < prio y.2 ∨ (prio b.2 = prio y.2 ∧ b.2.order < y.2.order) then y else b) x)

/-- Victims of a core chosen one at a time until the waiting workgroup fits. -/
def victimsOn (s : State) (core : Nat) (k : Kernel) : Nat → List (Nat × Workgroup) → List Nat → Option (List Nat)
  | 0, _, _ => none
  | n + 1, ws, gone =>
    if (fitOn s core gone k).isSome then some gone
    else match firstVictim s ws with
      | none => none
      | some (key, _) => victimsOn s core k n (ws.filter (fun p => p.1 != key)) (gone ++ [key])

/-- The core and the victims for a waiting workgroup: the first core where the eligible ones would make room (R364). -/
def chooseVictims (s : State) (c : Cand) (l : Launch) : Option (Nat × List Nat) :=
  (candCores s c l).findSome? (fun core =>
    let ws := (coreWgs s core []).filter (fun p => mayEvict s c l p.1 p.2)
    (victimsOn s core l.kern (ws.length + 1) ws []).map (fun v => (core, v)))

/-- Whether a workgroup is being removed from its core. -/
def leavesCore (w : Workgroup) : Bool :=
  match w.status with
  | .draining _ _ | .saving | .flushing => true
  | _ => false

/-- Whether victims are being removed for a waiting workgroup already. -/
def inHand (s : State) (c : Cand) : Bool :=
  s.fe.reserve.any (fun r => r.launch == c.lid && r.wg == c.idx && r.victims.any (fun k => match tget s.wgs k with
    | some w => leavesCore w
    | none => false))

/-- What is done with a victim for a waiting workgroup: one that gives way by R376's rotation is saved, or drains when the pool has no room (log 66);
any other is treated as R365 chooses. -/
def victimTreatment (s : State) (c : Cand) (key : Nat) (w : Workgroup) (k : Kernel) : Treatment :=
  if k.det && !k.pinned && rotates s c key w then saveOrDrain s key k else treatmentOf s key w k

/-- Each victim's treatment (R365, R376). -/
def treatAll (s : State) (c : Cand) (keys : List Nat) : State :=
  keys.foldl (fun s key => match tget s.wgs key with
    | some w => match wgKern s w with
      | some k => treat s key (victimTreatment s c key w k)
      | none => s
    | none => s) s

/-- PREEMPT_CHOICE (R364, R365): for a waiting workgroup that fits nowhere, the victims and their treatment. -/
def execPreemptChoice (launch wg : Nat) (s : State) : Host.Outcome State Fault Refusal :=
  match (waiting s).find? (fun c => c.lid == launch && c.idx == wg), tget s.launches launch with
  | some c, some l =>
    if feStopped s || (candFit s c).isSome || inHand s c || mustWait s c l then .next s
    else match chooseVictims s c l with
      | some (core, v) =>
        if v = [] then .next s
        else .next (treatAll { s with
          fe := { s.fe with reserve := ⟨core, launch, wg, c.prio, v⟩ ::
            s.fe.reserve.filter (fun r => !(r.launch == launch && r.wg == wg)) } } c v)
      | none => .next s
  | _, _ => .next s

/-! ## SAVE and FLUSH (R368-R373) -/

/-- Whether a saved workgroup of its launch waits for a workgroup's core, whose turn of the quantum is not now (R376). -/
def turnDue (s : State) (key : Nat) : Bool :=
  match tget s.wgs key with
  | some w => (waiting s).any (fun c => rotates s c key w)
  | none => false

/-- Whether a workgroup has reached the point of step 2 of R368: its inbound and tile operations complete, no operand log awaiting its trap, no logical
tick still to come. Each group of a DET workgroup stands where a quantum begins or where its own is over; one that gives its core up for a turn takes
its inbound operations with it, since they complete only at commits that wait for that turn (R376, R381, log 64). -/
def atSavePoint (s : State) (lid idx : Nat) : Bool :=
  let turn := launchDet s lid && turnDue s (wgKey lid idx)
  (wgGroups s (wgKey lid idx)).all (fun p =>
    (turn || p.2.ld.isEmpty) && p.2.tile.all (fun x => x.done) && !p.2.tickDue && (p.2.handler || p.2.log.entries.isEmpty) &&
      (quantumStart s p.2 || quantumOver p.2))

/-- The outbound operations of a workgroup that leaves its core have read their scratchpad sources (R368, R372); those of a DET launch read theirs in
their turn, from the scratchpad as commits leave it (R380). -/
def readSources (s : State) (lid idx : Nat) (w : Workgroup) (lost : Bool) : State :=
  if launchDet s lid then s
  else { s with ops := s.ops.map (fun p =>
    if p.2.launch = lid ∧ p.2.wg = idx then (p.1, { p.2 with
      src := if p.2.src.isNone then some (w.scratch, w.spoison) else p.2.src, lost := p.2.lost || lost }) else p) }

/-- The tape entries of a workgroup's operations on a core. -/
def wgTape (s : State) (lid idx core : Nat) : List TapeEntry :=
  (getCore s core).tape.filter (fun e => (wgOps s lid idx).any (fun p => p.1 == e.op))

/-- The tape entries of a workgroup's operations leave a core's table (R368). -/
def dropWgTape (s : State) (lid idx core : Nat) : State :=
  let es := wgTape s lid idx core
  let c := getCore s core
  putCore s core { c with tape := c.tape.filter (fun e => !es.contains e) }

/-- What is kept of them for a workgroup of a DET launch, whose operations go on: offsets of its scratchpad, groups by index. -/
def heldTape (s : State) (lid idx core sbase : Nat) : List TapeEntry :=
  (wgTape s lid idx core).map (fun e => { e with
    lo := e.lo - sbase, hi := e.hi - sbase, tileOf := e.tileOf.bind (fun k => (tget s.groups k).map (fun g => g.gidx)),
    own := e.own.bind (fun k => (tget s.groups k).map (fun g => g.gidx)) })

/-- Named-barrier arrivals of a workgroup in the current phases are withdrawn (R233, R368). -/
def withdraw (s : State) (lid idx : Nat) : State :=
  match tget s.launches lid with
  | none => s
  | some l => putLaunch s lid { l with bars := l.bars.map (fun b => { b with arrivals := b.arrivals.filter (fun a => a.1 != idx) }) }

/-- A workgroup's groups leave their core, where stalled ones try again; barriers are looked at again (R26, R233, R368). Those of a DET launch keep
their arrivals and their operations' tape entries, since they take part in its commits (log 83). -/
def vacate (s : State) (lid idx : Nat) (w0 : Workgroup) : State :=
  let key := wgKey lid idx
  let w := { w0 with held := if launchDet s lid then heldTape s lid idx w0.core w0.sbase else [], drainHad := [] }
  let s0 := dropWgTape s lid idx w.core
  let s1 := putWg (if launchDet s lid then s0 else withdraw s0 lid idx) key
    { w with slots := [], spareBase := [], spareHeld := false, watch := [], stayed := w.stayed + (s.pt.toNat - w.placedAt.toNat) }
  let s2 := recheckCore { s1 with
    groups := s1.groups.filter (fun p => gWg p.2 != key),
    lines := s1.lines.filter (fun x => match tget s1.groups x.group with
      | some g => gWg g != key
      | none => true) } w.core
  if launchDet s lid then s2 else completeCBars (completeBars s2 lid) lid

/-- SAVE (R368, R369): the context record is written into the pool, and the workgroup leaves its core. A workgroup that has
become exported meanwhile drains instead (R366), and so does one whose record has outgrown the pool (R365). -/
def execSave (launch wg pa : Nat) (s : State) : Host.Outcome State Fault Refusal :=
  let key := wgKey launch wg
  match tget s.wgs key, tget s.launches launch with
  | some w, some l =>
    if w.status ≠ .saving then .next s
    else if w.exported then
      .next (putWg (freeRoom s w) key (drainFrom s w true))
    else
      let gs := wgGroups s key
      let n := recordSize s key l.kern
      if !atSavePoint s launch wg then .next s
      else if (poolPlace s key n).isNone then .next (putWg (freeRoom s w) key (drainFrom s w false))
      else if !poolFree s key pa n then .next s
      else
        let s1 := readSources (writeRecord s pa l.kern w gs) launch wg w false
        let w1 := { w with status := .saved, saved := gs, waitFrom := s.pt, recSize := n, recAt := some pa }
        let s2 := { s1 with fe := { s1.fe with poolUsed := s1.fe.poolUsed - w.recSize + n } }
        .next (vacate s2 launch wg w1)
  | _, _ => .next s

/-- A flushed workgroup's later run counts from nothing (R373). -/
def flushOut (s : State) (key : Nat) : State :=
  match tget s.wgs key with
  | some w => putWg s key { w with stayed := 0 }
  | none => s

/-- FLUSH (R373): the workgroup is discarded and later runs again from its start. -/
def execFlush (launch wg : Nat) (s : State) : Host.Outcome State Fault Refusal :=
  let key := wgKey launch wg
  match tget s.wgs key with
  | some w =>
    if w.status ≠ .flushing then .next s
    else if w.exported then .next (putWg s key (drainFrom s w true))
    else if !atSavePoint s launch wg then .next s
    else .next (flushOut (vacate (readSources s launch wg w true) launch wg { w with
      status := .flushed, scratch := [], spoison := [], retired := 0, waitFrom := s.pt, saved := [] }) key)
  | none => .next s

/-- DRAIN_TIMEOUT (R367): a drain that has lasted 4 × the budget becomes a save, when the pool has room for it. -/
def execDrainTimeout (launch wg : Nat) (s : State) : Host.Outcome State Fault Refusal :=
  let key := wgKey launch wg
  match tget s.wgs key, tget s.launches launch with
  | some w, some l =>
    match w.status with
    | .draining since fixed =>
      if fixed || w.exported || l.kern.pinned || !poolRoom s key l.kern ||
          decide (s.pt.toNat < since.toNat + 4 * s.fe.drainBudget * Config.ticksPerUs) then .next s
      else .next (treat s key .save)
    | _ => .next s
  | _, _ => .next s

/-! ## Forward progress (R374) -/

/-- The latest non-YIELD retirement of a workgroup's groups. -/
def lastActive (s : State) (key : Nat) : Nat := ((wgGroups s key).map (fun p => p.2.lastRetire.toNat)).foldl max 0

/-- Whether every resident group of a core has been idle for 65,536 clocks. -/
def coreIdle (s : State) (core : Nat) : Bool :=
  let gs := coreGroups s core []
  let clk := (getCore s core).clk.toNat
  !gs.isEmpty && gs.all (fun p => decide (p.2.lastRetire.toNat + Config.idleClocks ≤ clk))

/-- The waiting workgroup that would fit a core without a victim. -/
def waitingFor (s : State) (core key : Nat) : Option Cand :=
  (waiting s).find? (fun c => match tget s.launches c.lid with
    | some l => (candCores s c l).contains core && (fitOn s core [key] l.kern).isSome && !mustWait s c l
    | none => false)

/-- The workgroups of a core that may be saved for progress, longest idle first (R374). -/
def progressVictims (s : State) (core : Nat) : List (Nat × Workgroup) :=
  sortBy (fun p => (lastActive s p.1 : Int)) ((coreWgs s core []).filter (fun p =>
    !p.2.exported && (match wgKern s p.2 with
      | some k => !k.pinned && (leaving p.2 || poolRoom s p.1 k)
      | none => false)))
where
  /-- Whether a workgroup is being saved or flushed already. -/
  leaving (w : Workgroup) : Bool := w.status == .saving || w.status == .flushing

/-- FORWARD_PROGRESS_SAVE (R374): one that is being saved or flushed already is left to it; one that drains is saved instead. -/
def execForwardProgressSave (core : Nat) (s : State) : Host.Outcome State Fault Refusal :=
  if !coreIdle s core || feStopped s then .next s
  else match (progressVictims s core).find? (fun p => (waitingFor s core p.1).isSome) with
    | some (key, w) => .next (if progressVictims.leaving w then s else treat s key .save)
    | none => .next s

end Sys2Proof.Machine
end

