-- ==== Sys2Proof/Machine/VecInt.lean ====
section
/-! DEFINITION. Vector integer arithmetic, bit operations, compares and the select (R139-R147). -/

namespace Sys2Proof.Machine

/-! ## Shared forms -/

/-- The active lanes of a vector instruction as a list (R139). -/
def actLanes (c : Ctx) (f : VX) : List Bool := maskLanes (activeMask c.g f.sp)

/-- Operand VA at TYPE. -/
def opA (s : State) (c : Ctx) (f : VX) : Lanes := srcLanes s c f.lit f.va.toNat f.ty.toNat
/-- Operand VB at TYPE. -/
def opB (s : State) (c : Ctx) (f : VX) : Lanes := srcLanes s c f.lit f.vb.toNat f.ty.toNat
/-- Operand VC at TYPE. -/
def opC (s : State) (c : Ctx) (f : VX) : Lanes := srcLanes s c f.lit f.vc.toNat f.ty.toNat

/-- Operand VB read from its low 32-bit register: as I32 or N32 by TYPE's signedness; under a 64-bit TYPE it is a pair
whose low register counts (R144). -/
def amountB (s : State) (c : Ctx) (f : VX) : Lanes :=
  let t := f.ty.toNat
  (srcLanes s c f.lit f.vb.toNat (if wideType t then t else if signedType t then 0 else 1)).map (lowBits 32)

/-- A result at TYPE written to VD in the active lanes (R140). -/
def vecResult (s : State) (c : Ctx) (f : VX) (r : Lanes) : Eff :=
  .next s (writeLanes c.g f.vd.toNat (typeBits f.ty.toNat) (actLanes c f) r)

/-- One integer operand. -/
def intOp1 (s : State) (c : Ctx) (f : VX) (op : Int → Int) : Eff :=
  let t := f.ty.toNat
  vecResult s c f ((opA s c f).map (fun a => elemOf t (op (elemInt t a))))

/-- Two integer operands: the result modulo 2^w (R144). -/
def intOp2 (s : State) (c : Ctx) (f : VX) (op : Int → Int → Int) : Eff :=
  let t := f.ty.toNat
  vecResult s c f (List.zipWith (fun a b => elemOf t (op (elemInt t a) (elemInt t b))) (opA s c f) (opB s c f))

/-- Two operands as bits. -/
def bitOp2 (s : State) (c : Ctx) (f : VX) (op : DWord → DWord → DWord) : Eff :=
  vecResult s c f (List.zipWith op (opA s c f) (opB s c f))

/-- An operand shifted by the amount of VB modulo w. -/
def shiftOp (s : State) (c : Ctx) (f : VX) (op : DWord → Nat → DWord) : Eff :=
  vecResult s c f
    (List.zipWith (fun a b => op a (b.toNat % typeBits f.ty.toNat)) (opA s c f) (amountB s c f))

/-- a >> n, arithmetic: the element read as signed whatever TYPE is. -/
def sraElem (t : Nat) (a : DWord) (n : Nat) : DWord := elemOf t (sextI (typeBits t) a.toNat / 2 ^ n)

/-- VBFX of R145. -/
def bfxElem (t : Nat) (a b : DWord) : DWord :=
  let pos := bits b 0 8
  let n := min (bits b 8 8) (typeBits t)
  let x := elemInt t a / 2 ^ pos % 2 ^ n
  if n = 0 then 0 else elemOf t (if signedType t then sextI n x.toNat else x)

/-- VBFI of R145. -/
def bfiElem (t : Nat) (a b c : DWord) : DWord :=
  BitVec.ofNat 64 (insertField (typeBits t) c.toNat a.toNat (bits b 0 8) (bits b 8 8))

/-- A compare's mask written whole: the outcome in active lanes, 0 elsewhere (R146). -/
def maskResult (c : Ctx) (f : VX) (r : List Bool) : Group :=
  setPair c.g (spOr f.sp 156) (lanesMask (List.zipWith (fun a b => a && b) (maskLanes (execMask c.g)) r))

/-! ## MAJ 0x14 (R144) -/

/-- VADD. -/
def execVadd (f : VX) (s : State) : Host.Outcome State Fault Refusal :=
  issue (.vadd f) s (fun c => intOp2 s c f (fun a b => a + b))
/-- VSUB. -/
def execVsub (f : VX) (s : State) : Host.Outcome State Fault Refusal :=
  issue (.vsub f) s (fun c => intOp2 s c f (fun a b => a - b))
/-- VMUL. -/
def execVmul (f : VX) (s : State) : Host.Outcome State Fault Refusal :=
  issue (.vmul f) s (fun c => intOp2 s c f (fun a b => a * b))
/-- VMULH: floor(a b / 2^w). -/
def execVmulh (f : VX) (s : State) : Host.Outcome State Fault Refusal :=
  issue (.vmulh f) s (fun c => intOp2 s c f (fun a b => a * b / 2 ^ typeBits f.ty.toNat))
/-- VMAD: a b + c. -/
def execVmad (f : VX) (s : State) : Host.Outcome State Fault Refusal :=
  issue (.vmad f) s (fun c =>
    let t := f.ty.toNat
    vecResult s c f (List.zipWith (fun p x => elemOf t (elemInt t p.1 * elemInt t p.2 + elemInt t x))
      (List.zip (opA s c f) (opB s c f)) (opC s c f)))
/-- VABS. -/
def execVabs (f : VX) (s : State) : Host.Outcome State Fault Refusal :=
  issue (.vabs f) s (fun c => intOp1 s c f (fun a => (a.natAbs : Int)))
/-- VMIN. -/
def execVmin (f : VX) (s : State) : Host.Outcome State Fault Refusal :=
  issue (.vmin f) s (fun c => intOp2 s c f (fun a b => min a b))
/-- VMAX. -/
def execVmax (f : VX) (s : State) : Host.Outcome State Fault Refusal :=
  issue (.vmax f) s (fun c => intOp2 s c f (fun a b => max a b))

/-! ## MAJ 0x15 (R144, R145) -/

/-- VAND. -/
def execVand (f : VX) (s : State) : Host.Outcome State Fault Refusal :=
  issue (.vand f) s (fun c => bitOp2 s c f (fun a b => a &&& b))
/-- VOR. -/
def execVor (f : VX) (s : State) : Host.Outcome State Fault Refusal :=
  issue (.vor f) s (fun c => bitOp2 s c f (fun a b => a ||| b))
/-- VXOR. -/
def execVxor (f : VX) (s : State) : Host.Outcome State Fault Refusal :=
  issue (.vxor f) s (fun c => bitOp2 s c f (fun a b => a ^^^ b))
/-- VANDN. -/
def execVandn (f : VX) (s : State) : Host.Outcome State Fault Refusal :=
  issue (.vandn f) s (fun c => bitOp2 s c f (fun a b => a &&& ~~~b))
/-- VSHL. -/
def execVshl (f : VX) (s : State) : Host.Outcome State Fault Refusal :=
  issue (.vshl f) s (fun c => shiftOp s c f (fun a n => lowBits (typeBits f.ty.toNat) (a <<< n)))
/-- VSHR: arithmetic for I, logical for N. -/
def execVshr (f : VX) (s : State) : Host.Outcome State Fault Refusal :=
  issue (.vshr f) s (fun c => shiftOp s c f (fun a n => elemOf f.ty.toNat (elemInt f.ty.toNat a / 2 ^ n)))
/-- VSRA: always arithmetic. -/
def execVsra (f : VX) (s : State) : Host.Outcome State Fault Refusal :=
  issue (.vsra f) s (fun c => shiftOp s c f (sraElem f.ty.toNat))
/-- VPOPC. -/
def execVpopc (f : VX) (s : State) : Host.Outcome State Fault Refusal :=
  issue (.vpopc f) s (fun c => vecResult s c f ((opA s c f).map (fun a => BitVec.ofNat 64 (popcount (typeBits f.ty.toNat) a.toNat))))
/-- VCLZ. -/
def execVclz (f : VX) (s : State) : Host.Outcome State Fault Refusal :=
  issue (.vclz f) s (fun c => vecResult s c f ((opA s c f).map (fun a => BitVec.ofNat 64 (clz (typeBits f.ty.toNat) a.toNat))))
/-- VBFX (R145). -/
def execVbfx (f : VX) (s : State) : Host.Outcome State Fault Refusal :=
  issue (.vbfx f) s (fun c => vecResult s c f (List.zipWith (bfxElem f.ty.toNat) (opA s c f) (amountB s c f)))
/-- VBFI (R145). -/
def execVbfi (f : VX) (s : State) : Host.Outcome State Fault Refusal :=
  issue (.vbfi f) s (fun c =>
    vecResult s c f (List.zipWith (fun p x => bfiElem f.ty.toNat p.1 p.2 x)
      (List.zip (opA s c f) (amountB s c f)) (opC s c f)))

/-! ## Compare, select, move (R146, R147) -/

/-- VCMP. -/
def execVcmp (f : VX) (s : State) : Host.Outcome State Fault Refusal :=
  issue (.vcmp f) s (fun c =>
    let t := f.ty.toNat
    .next s (maskResult c f
      (List.zipWith (fun a b => relation (bits f.md 0 3) (elemInt t a) (elemInt t b)) (opA s c f) (opB s c f))))

/-- VSEL: the selector is the pair SP names, or VCC; the active lanes are EXEC's. -/
def execVsel (f : VX) (s : State) : Host.Outcome State Fault Refusal :=
  issue (.vsel f) s (fun c =>
    .next s (writeLanes c.g f.vd.toNat (typeBits f.ty.toNat) (maskLanes (execMask c.g))
      (List.zipWith (fun b p => if b then p.1 else p.2) (maskLanes (spair c.g (spOr f.sp 156)))
        (List.zip (opA s c f) (opB s c f)))))

/-- VMOV. -/
def execVmov (f : VX) (s : State) : Host.Outcome State Fault Refusal :=
  issue (.vmov f) s (fun c => vecResult s c f (opA s c f))

end Sys2Proof.Machine
end

