-- ==== Sys2Proof/Machine/VecMem.lean ====
section
/-! DEFINITION. Vector loads, stores and local atomics (R158-R163, R168-R172). -/

namespace Sys2Proof.Machine

/-! ## Addresses (R159) -/

/-- The element width in bytes. -/
def elemBytes (f : VX) : Nat := typeBits f.ty.toNat / 8

/-- The offset of lane `l` of VLD and VST: VA uniform, as N32. -/
def seqOff (c : Ctx) (f : VX) (l : Nat) : Int :=
  ((uniformVal c.g f.lit f.va.toNat 1).toNat : Int) + f.imm.toInt + l * elemBytes f

/-- The offsets of the indexed forms: VA per lane, as N32. -/
def idxOffs (s : State) (c : Ctx) (f : VX) : List Int :=
  (srcLanes s c f.lit f.va.toNat 1).map (fun x => (x.toNat : Int) + f.imm.toInt)

/-- The accesses of the active lanes, ascending. -/
def seqAccs (c : Ctx) (f : VX) : List Acc :=
  (activeLanes (activeMask c.g f.sp)).map (fun l => ⟨l, seqOff c f l, elemBytes f⟩)

/-- The accesses of the active lanes of an indexed form, ascending. -/
def idxAccs (s : State) (c : Ctx) (f : VX) : List Acc :=
  let offs := idxOffs s c f
  (activeLanes (activeMask c.g f.sp)).map (fun l => ⟨l, offs.getD l 0, elemBytes f⟩)

/-! ## Loads and stores -/

/-- A load of the accesses given (R159, R160). -/
def loadLanes (f : VX) (s : State) (c : Ctx) (accs : List Acc) : Eff :=
  match checkAcc s c true true false accs with
  | some m => missEff m
  | none =>
    let v (l : Nat) : DWord := match accs.find? (fun a => a.lane == l) with
      | some a => BitVec.ofNat 64 (scratchNat s c.g a.off.toNat a.w)
      | none => 0
    vecResult s c f (laneIds.map v)

/-- A store of the accesses given: lanes ascending, so that the highest lane's value stays at an address (R169). -/
def storeLanes (f : VX) (s : State) (c : Ctx) (accs : List Acc) : Eff :=
  match checkAcc s c true false true accs with
  | some m => missEff m
  | none =>
    let x := opB s c f
    let r := accs.foldl
      (fun p a => threadStore p.1 p.2 c.det a.off.toNat (bytesOf a.w (x.getD a.lane 0).toNat)) (s, c.g)
    .next r.1 r.2

/-- VLD's effect. -/
def vldEff (f : VX) (s : State) (c : Ctx) : Eff := loadLanes f s c (seqAccs c f)
/-- VST's effect. -/
def vstEff (f : VX) (s : State) (c : Ctx) : Eff := storeLanes f s c (seqAccs c f)
/-- VLDX's effect. -/
def vldxEff (f : VX) (s : State) (c : Ctx) : Eff := loadLanes f s c (idxAccs s c f)
/-- VSTX's effect. -/
def vstxEff (f : VX) (s : State) (c : Ctx) : Eff := storeLanes f s c (idxAccs s c f)

/-- VLD. -/
def execVld (f : VX) (s : State) : Host.Outcome State Fault Refusal := issue (.vld f) s (vldEff f s)
/-- VST. -/
def execVst (f : VX) (s : State) : Host.Outcome State Fault Refusal := issue (.vst f) s (vstEff f s)
/-- VLDX. -/
def execVldx (f : VX) (s : State) : Host.Outcome State Fault Refusal := issue (.vldx f) s (vldxEff f s)
/-- VSTX. -/
def execVstx (f : VX) (s : State) : Host.Outcome State Fault Refusal := issue (.vstx f) s (vstxEff f s)

/-! ## VATOM (R162, R163) -/

/-- One lane's read-modify-write: the state after it, and the old value. -/
def atomLane (f : VX) (s : State) (c : Ctx) (off : Nat) (v b : DWord) : State × DWord :=
  let w := elemBytes f
  let old := scratchNat s c.g off w
  (scratchPut s (gWg c.g) off
    (bytesOf w (atomNew (bits f.md 5 4) (8 * w) (signedType f.ty.toNat) old v.toNat b.toNat)), BitVec.ofNat 64 old)

/-- The lanes in turn, ascending: the state after them and each lane's old value. -/
def atomLanes (f : VX) (c : Ctx) : List (Option Nat × DWord × DWord) → State → State × Lanes
  | [], s => (s, [])
  | (none, _, _) :: t, s =>
    let r := atomLanes f c t s
    (r.1, 0 :: r.2)
  | (some off, v, b) :: t, s =>
    let p := atomLane f s c off v b
    let r := atomLanes f c t p.1
    (r.1, p.2 :: r.2)

/-- VATOM's read-modify-writes. -/
def vatomDo (f : VX) (s : State) (c : Ctx) : Eff :=
  match checkAcc s c true true true (idxAccs s c f) with
  | some m => missEff m
  | none =>
    let offs := List.zipWith (fun a o => if a then some o.toNat else none) (actLanes c f) (idxOffs s c f)
    let r := atomLanes f c (List.zip offs (List.zip (opB s c f) (opC s c f))) s
    vecResult r.1 c f r.2

/-- VATOM's effect: in a DET launch it parks until the commit, and its checks are made there (R172, R378; DESIGN CHOICE, log 89). -/
def vatomEff (f : VX) (s : State) (c : Ctx) : Eff := if c.det then .park s c.g .commit else vatomDo f s c

/-- VATOM. -/
def execVatom (f : VX) (s : State) : Host.Outcome State Fault Refusal := issue (.vatom f) s (vatomEff f s)

end Sys2Proof.Machine
end

