-- ==== Sys2Proof/Machine/Traps.lean ====
section
/-! DEFINITION. RFT: the return from a trap, and the operand log's entries performed again (R239, R242). -/

namespace Sys2Proof.Machine

/-- The effect of a logged access performed again; `none` for an instruction the log never holds. -/
def memEff (i : Instr) (s : State) (c : Ctx) : Option Eff :=
  match i with
  | .sld f => some (sldEff f s c)
  | .sst f => some (sstEff f s c)
  | .slda f => some (sldaEff f s c)
  | .vld f => some (vldEff f s c)
  | .vst f => some (vstEff f s c)
  | .vldx f => some (vldxEff f s c)
  | .vstx f => some (vstxEff f s c)
  | .vatom f => some (vatomEff f s c)
  | _ => none

/-- The read-modify-writes of the log past a DET launch's wait for the commit. -/
def memDo (i : Instr) (s : State) (c : Ctx) : Option Eff :=
  match i with
  | .slda f => some (sldaDo f s c)
  | .vatom f => some (vatomDo f s c)
  | _ => memEff i s c

/-- The log with its oldest entry gone. -/
def dropEntry (g : Group) : Group :=
  match g.log.entries with
  | _ :: e :: t => { g with log := { g.log with entries := e :: t } }
  | _ => { g with log := OperandLog.empty }

/-- One entry performed again: the state after it, and whether the next entry may follow. An entry counts in RIC when it
is performed (R241); one that traps stays in the log and its trap is taken with TPC its address (R242). -/
def replayOne (perform : Instr → State → Ctx → Option Eff) (s : State) (k : Nat) (e : LogEntry) : State × Bool :=
  match groupCtx s k e.inst with
  | none => (s, false)
  | some c =>
    let eff := if isVector e.inst && execMask c.g == 0 then some (.next s c.g) else perform e.inst s c
    match eff with
    | some (.next s1 g1) =>
      let g2 := dropEntry (countRetired s1 c g1)
      (logicalTick (putGroup (countWg s1 g2) k g2) c g2, true)
    | some (.trap m) | some (.tape m) => (takeTrap s { c with g := { c.g with log := { c.g.log with independent := 0 } } } m e.pc, false)
    | some (.park s1 g1 p) => (putGroup s1 k { g1 with status := .parked p, parkPt := s.pt }, false)
    | _ => (s, false)

/-- The remaining entries performed again, oldest first. -/
def replay : Nat → State → Nat → State
  | 0, s, _ => s
  | n + 1, s, k =>
    match tget s.groups k with
    | none => s
    | some g =>
      match g.log.entries with
      | [] => s
      | e :: _ =>
        let r := replayOne memEff s k e
        if r.2 then replay n r.1 k else r.1

/-- A tick held while a group was in handler mode is delivered once it is back in user mode (R221). -/
def heldTick (s : State) (k : Nat) : State :=
  match tget s.groups k with
  | some g => if g.tickHeld && !g.handler then deliverTick (putGroup s k { g with tickHeld := false }) k else s
  | none => s

/-- The length RFT.NEXT skips: that of the word at TPC, 4 when it cannot be fetched (R239). -/
def skipLen (s : State) (c : Ctx) : Nat :=
  match fetchWord s c.l c.g.sp.tpc.toNat with
  | some w => 4 * lenWords w
  | none => 4

/-- Leaving handler mode (R239). -/
def leaveHandler (g : Group) : Group :=
  { setPair g 158 g.sp.texec with scc := g.sp.tcause.getLsbD 7, handler := false }

/-- RFT's effect but for the log's entries; a return to an address that is no multiple of 4 raises ALIGN at RFT (R57). -/
def rftEff (f : S2) (s : State) (c : Ctx) : Eff :=
  if !c.g.handler then privTrap c
  else
    let next := f.md.getLsbD 0
    let g := leaveHandler c.g
    if c.g.log.entries.isEmpty then jumpTo s g (c.g.sp.tpc + (if next then BitVec.ofNat 64 (skipLen s c) else 0))
    else .goto s (if next then dropEntry g else g) c.g.log.resume

/-- What follows RFT: the log's entries, then the held tick. -/
def rftAfter (s : State) (k : Nat) : State := heldTick (replay 5 s k) k

/-- RFT (R239). -/
def execRft (f : S2) (s : State) : Host.Outcome State Fault Refusal :=
  match issue (.rft f) s (rftEff f s) with
  | .next t =>
    match ctxOf s (.rft f) with
    | some c => .next (if c.g.handler && (match tget t.groups c.k with
        | some g => !g.handler
        | none => false) then rftAfter t c.k else t)
    | none => .next t
  | r => r

end Sys2Proof.Machine
end

