-- ==== Sys2Proof/Machine/Det.lean ====
section
/-! DEFINITION. Deterministic launches: the end of a quantum and the commit (R172, R206, R226, R232, R325, R338, R375-R381). -/

namespace Sys2Proof.Machine

/-! ## Quanta (R378) -/

/-- Whether a group is parked. -/
def isParked (g : Group) : Bool :=
  match g.status with
  | .parked _ => true
  | _ => false

/-- QUANTUM_END: a group of a DET launch has retired Q instructions, or has parked. -/
def execQuantumEnd (group : Nat) (s : State) : Host.Outcome State Fault Refusal :=
  match groupCtx s group (.nop {}) with
  | some c =>
    if c.det && (decide (c.l.kern.quantum ≤ c.g.detCount) || isParked c.g) then .next (putGroup s group { c.g with detEnded := true })
    else .next s
  | none => .next s

/-- The resident groups of a launch, ascending by ID (R377). -/
def launchGroups (s : State) (lid : Nat) : List (Nat × Group) :=
  sortBy (fun p => (p.2.id : Int)) (s.groups.filter (fun p => p.2.launch == lid))

/-- The saved groups of a launch. -/
def savedGroups (s : State) (lid : Nat) : List Group :=
  s.wgs.flatMap (fun p => if p.2.launch = lid then p.2.saved.map (fun q => q.2) else [])

/-- How many commits after its issue an operation of a DET launch is counted complete (R380). -/
def detLag (o : EngineOp) : Nat := if copyOp o then 1 else 2

/-- Whether an operation's collective barrier has completed its phase in this package and waits for the root's release (R336). -/
def podWaits (s : State) (lid n : Nat) : Bool :=
  match tget s.launches lid with
  | some l => l.cbars.any (fun x => x.waiting.contains n)
  | none => false

/-- Whether an operation's graph takes its next step only after a commit. -/
def graphWaits (s : State) (n : Nat) : Bool :=
  match tget s.graphs n with
  | some gr => !graphHalted s gr && graphIdle s gr
  | none => false

/-- Whether commit k need not wait for an operation of its launch: it is performed, or not issued, or is counted later, and an RST has read its source
(R380). A CRUN is asked for packet by packet, since its steps are taken at commits, and a graph whose next step needs a commit is not waited for; a CBAR
waits for arrivals that later commits issue, and counts from the commit that completes its phase in the package (R381; DEDUCED, log 85). -/
def opReady (s : State) (lid k n : Nat) (o : EngineOp) : Bool :=
  o.performed ||
    (match o.quantum, o.act with
      | none, _ | some _, .crun .. => true
      | some j, .cbar .. => !podWaits s lid n || decide (k < j + detLag o)
      | some j, _ => graphWaits s n || (!unread o && decide (k < j + detLag o)))

/-- Whether the operations that commit k counts complete are performed: those of the copy engine issued at k − 1 and earlier, the
collective ones at k − 2 and earlier (R380). -/
def opsReady (s : State) (lid k : Nat) : Bool :=
  s.ops.all (fun p => p.2.launch != lid || opReady s lid k p.1 p.2) &&
  s.tables.all (fun p => p.2.launch != some lid || p.2.waiting.isEmpty || decide (k < p.2.sentIn + 2))

/-- Whether a launch sent a packet before quantum k. -/
def sentBefore (s : State) (u : Unacked) (lid k : Nat) : Bool :=
  match u.op, u.table with
  | some n, _ => (match tget s.ops n with
    | some o => o.launch == lid && (match o.quantum with
      | some j => decide (j < k)
      | none => false)
    | none => false)
  | none, some n => (match tget s.tables n with
    | some t => t.launch == some lid && decide (t.sentIn < k)
    | none => false)
  | none, none => false

/-- The packets that commit k of a DET launch without a domain of its own performs at the point of domain 0: its own of earlier quanta (R341). -/
def dueAt0 (s : State) (lid k : Nat) : List RemotePacket :=
  (getPoint s 0).waiting.filter (fun p => match tget s.coll.unacked (p.src * 65536 + p.reqId.toNat) with
    | some u => u.p == p && sentBefore s u lid k
    | none => false)

/-- What of domain 0 that commit performs, in key order: its own packets, and all that come before the last of them (R321, R338). -/
def before0 (s : State) (lid k : Nat) : List RemotePacket :=
  let due := dueAt0 s lid k
  (getPoint s 0).waiting.filter (fun p => due.contains p || due.any (fun q => keyLt p q))

/-- Whether a packet of the launch from a quantum before k is still held at injection (R316). -/
def heldBefore (s : State) (lid k : Nat) : Bool := s.coll.unacked.any (fun u => u.2.held && sentBefore s u.2 lid k)

/-- Whether every workgroup of a launch that its logical cores have room for has been placed there (log 83). -/
def placedAll (s : State) (lid : Nat) (l : Launch) : Bool := decide (gridSize l ≤ l.nextWg) || (detRoom s lid l.kern).isNone

/-- The CRUNs that a launch has captured on a die, resident groups' and those put off. -/
def tablesToCome (s : State) (lid die : Nat) : Nat :=
  (s.ops.filter (fun p => p.2.launch == lid && p.2.core / 48 == die && p.2.deferred && runsTable p.2)).length

/-- Whether every die has places for the step tables that a launch's commit is to begin, beside those of other launches (R334; log 100). -/
def placesFree (s : State) (lid : Nat) : Bool :=
  (List.range 4).all (fun die => tablesToCome s lid die == 0 ||
    decide (tablesOf s die (fun l => l != some lid) + min Config.tablesPerDie (tablesOf s die (fun l => l == some lid) + tablesToCome s lid die) ≤ Config.tablesPerDie))

/-- Whether a launch's quantum is over: every group of it has ended it, the saved ones too, no logical tick of it is still to come, and what its commit
counts complete is performed. -/
def quantumDone (s : State) (lid : Nat) (l : Launch) : Bool :=
  l.kern.det && l.status == .running && (launchGroups s lid).all (fun p => quantumOver p.2 && !p.2.tickDue) &&
    (savedGroups s lid).all quantumOver && placedAll s lid l && opsReady s lid l.quantum && !heldBefore s lid l.quantum

/-- Whether a packet of domain 0 may be performed at a launch's commit: one of another DET launch when that one's quantum is over too, so that its own
commit would perform it at once (log 85). -/
def dueNow (s : State) (lid : Nat) (p : RemotePacket) : Bool :=
  match senderDet s p with
  | some i => i == lid || ((tget s.launches i).map (quantumDone s i)).getD false
  | none => mayDeliver s p

/-- Whether the delivery point has every packet of the quanta before the current one (R378, R341). -/
def packetsReady (s : State) (lid : Nat) (l : Launch) : Bool :=
  if l.domain = 0 then (before0 s lid l.quantum).all (fun p => stampReached s 0 p.stamp && dueNow s lid p)
  else stampReached s l.domain (BitVec.ofNat 48 (l.quantum % 2 ^ 20 * 2 ^ 28) - 1)

/-- Whether a launch's next commit takes place now. -/
def commitReady (s : State) (lid : Nat) (l : Launch) : Bool := quantumDone s lid l && packetsReady s lid l && placesFree s lid

/-! ## Saved workgroups at a commit (R376, R378) -/

/-- The virtual core of a saved workgroup at a commit: past the package's cores, by logical core. -/
def virtualCore (w : Workgroup) : Nat := Config.cores + w.lcore

/-- A saved workgroup takes part in a commit: its groups stand on a virtual core meanwhile, its operations' tape entries in the table there. -/
def bringBack (groups : Nat) (s : State) (key : Nat) (w : Workgroup) : State :=
  let core := virtualCore w
  let slot (i : Nat) : Nat := ((w.lslots.find? (fun p => p.1 == i)).map (fun p => p.2)).getD i
  let spare := (w.lslots.filter (fun p => groups ≤ p.1)).map (fun _ => (0, 0))
  let w1 := { w with
    held := [], core := core, status := .resident, slots := w.lslots.map (fun p => p.2), saved := [], spareBase := spare, spareHeld := true }
  let s1 := putWg (restoreTape s core w.sbase slot w.held) key w1
  w.saved.foldl (fun s p => putGroup s (core * Config.slotsPerCore + slot p.1) p.2) s1

/-- The record of a saved workgroup written anew, where it lies while it fits there, else elsewhere in the pool; with no room it is kept
outside memory (log 83). -/
def rewriteRecord (s : State) (key : Nat) (k : Kernel) (w : Workgroup) (gs : List (Nat × Group)) : State :=
  let n := groupsSize k gs
  let at0 := match w.recAt with
    | some pa => if poolFree s key pa n then some pa else poolPlace s key n
    | none => none
  let size := if at0.isSome then n else 0
  let s1 := putWg { s with fe := { s.fe with poolUsed := s.fe.poolUsed - w.recSize + size } } key { w with recAt := at0, recSize := size }
  match at0 with
  | some pa => writeRecord s1 pa k w gs
  | none => s1

/-- It is saved again as the commit has left it, its record written anew; one that has ended needs none. -/
def sendBack (s : State) (key : Nat) (w0 : Workgroup) : State :=
  match tget s.wgs key with
  | none => s
  | some w =>
    let gs := wgGroups s key
    let s1 := dropWgTape { s with groups := s.groups.filter (fun p => gWg p.2 != key) } w.launch w.idx w.core
    let w1 := { w with
      held := heldTape s w.launch w.idx w.core w.sbase, core := w0.core, slots := [], spareBase := [], spareHeld := false, saved := gs,
      status := if w.status = .resident then .saved else w.status }
    let s2 := putWg s1 key w1
    match w1.status, wgKern s w with
    | .saved, some k =>
      if gs = w0.saved ∧ w.scratch = w0.scratch ∧ w.spoison = w0.spoison then s2 else rewriteRecord s2 key k w1 gs
    | _, _ => { putWg s2 key { w1 with recAt := none, recSize := 0 } with fe := { s2.fe with poolUsed := s2.fe.poolUsed - w.recSize } }

/-- The saved workgroups of a launch. -/
def savedWgs (s : State) (lid : Nat) : List (Nat × Workgroup) := s.wgs.filter (fun p => p.2.launch == lid && p.2.status == .saved)

/-! ## The steps of a commit (R378) -/

/-- The tile operations of a launch's groups leave their counters: a commit finds all of them performed (R228, R378; log 107). -/
def leaveTiles (s : State) (lid : Nat) : State :=
  (launchGroups s lid).foldl (fun s p => let r := tileLeave s p.2 0; putGroup r.1 p.1 r.2) s

/-- A POD phase whose operations are all counted complete is over (R336, log 85). -/
def closePhases (s : State) (lid : Nat) : State :=
  match tget s.launches lid with
  | some l => putLaunch s lid { l with cbars := l.cbars.map (fun x =>
      if x.waiting ≠ [] ∧ x.waiting.all (fun n => (tget s.ops n).isNone) then { x with waiting := [], phase := x.phase + 1 } else x) }
  | none => s

/-- What the commit counts complete: counters fall, tape entries are released, old values reach VD (R380). -/
def finishReady (s : State) (lid k : Nat) : State :=
  closePhases ((sortBy (fun p => (p.2.seq : Int)) (s.ops.filter (fun p => p.2.launch == lid && p.2.performed && (match p.2.quantum with
    | some j => decide (j + detLag p.2 ≤ k)
    | none => false)))).foldl (fun s p => finishOp s p.1 p.2 none) s) lid

/-- Ordered packets of quanta before the current one, in key order (R338, R378). -/
def deliverQuantum : Nat → State → Nat → BitVec 48 → State
  | 0, s, _, _ => s
  | n + 1, s, domain, lim =>
    match lowest (getPoint s domain).waiting with
    | some p =>
      if stampLt p.stamp lim then
        match deliverNext s domain with
        | some s1 => deliverQuantum n s1 domain lim
        | none => s
      else s
    | none => s

/-- The package's own packets of quanta before k that no domain orders, in their order of issue (R341, log 85). -/
def deliverOwn (s : State) (lid k : Nat) : State :=
  (sortBy (fun p => (p.2.order : Int)) (s.coll.unacked.filter (fun u => !u.2.p.ordered && u.2.p.dest == s.info.pkgnum.toNat &&
    sentBefore s u.2 lid k))).foldl (fun s u => if cached s u.2.p then s else deliver s u.2.p) s

/-- The packets of domain 0 that a commit performs there, in key order (R341, log 85). -/
def deliver0 : Nat → State → List RemotePacket → State
  | 0, s, _ => s
  | n + 1, s, ps =>
    match lowest ps with
    | some p => deliver0 n (performWaiting s 0 p) (ps.filter (fun q => q != p))
    | none => s

/-- Scratchpads of a launch and the memory its groups see: as they stand during a commit (`none`), or as a commit has left them (R380). -/
def setShown (s : State) (lid : Nat) (on : Bool) : State :=
  let s1 := { s with wgs := s.wgs.map (fun p =>
    if p.2.launch = lid then (p.1, { p.2 with shown := if on then some (p.2.scratch, p.2.spoison) else none }) else p) }
  match tget s1.launches lid with
  | some l => putLaunch s1 lid { l with shown := if on then some (s1.mem, s1.mpoison) else none }
  | none => s1

/-- A group's buffered stores, in its program order (R206). -/
def applyStores (s : State) (k : Nat) : State :=
  match tget s.groups k with
  | none => s
  | some g =>
    match tget s.wgs (gWg g) with
    | none => s
    | some w => putGroup (putWg s (gWg g) (g.detBuf.foldl (fun w st => wgWriteP w st.1 st.2) w)) k { g with detBuf := [] }

/-- What an instruction that parked for the commit does there; `none` for one that only runs again. -/
def commitEff (i : Instr) (s : State) (c : Ctx) : Option Eff :=
  match i with
  | .slda f => some (sldaDo f s c)
  | .vatom f => some (vatomDo f s c)
  | .bara f => some (baraDo f s c)
  | .baraw f => some (barawDo f s c)
  | .launch f => some (launchDo f s c)
  | .taskend f => c.g.task.map (taskendDo f s c)
  | _ => none

/-- The writes into registers and tiles that a launch's quantum has kept are made (R380). -/
def showLate (s : State) (lid : Nat) : State :=
  { s with groups := s.groups.map (fun p => if p.2.launch = lid ∧ p.2.late ≠ [] then (p.1, applyLate p.2) else p) }

/-- A group that parked for the commit: its instruction is performed, or in user mode with a log the log's access, after which the log goes
on (R242, R378). -/
def commitGroup (s : State) (k : Nat) : State :=
  match tget s.groups k with
  | none => s
  | some g =>
    if g.status ≠ .parked .commit then s
    else
      let s1 := putGroup s k { g with status := .run }
      match g.handler, g.log.entries with
      | false, e :: _ =>
        let r := replayOne memDo s1 k e
        if r.2 then heldTick (replay 5 r.1 k) k else r.1
      | _, _ =>
        match groupFetch s1 k with
        | .run i =>
          match groupCtx s1 k i with
          | some c =>
            match commitEff i s1 c with
            | some e => settle s1 c e
            | none => s1
          | none => s1
        | _ => s1

/-- The stores that a group which has ended left. -/
def applyLeft (s : State) (x : Left) : State :=
  match tget s.wgs x.key with
  | some w => putWg s x.key (x.buf.foldl (fun w st => wgWriteP w st.1 st.2) w)
  | none => s

/-- Step 2 for one group, resident or ended; a logical tick follows the instruction that makes it due (R220). -/
def commitOne (s : State) (x : Nat ⊕ Left) : State :=
  match x with
  | .inl k => giveTick (commitGroup (applyStores s k) k) k
  | .inr y => applyLeft s y

/-- The groups that a commit serves, resident and ended, ascending by ID. -/
def commitOrder (s : State) (lid : Nat) (l : Launch) : List (Nat × (Nat ⊕ Left)) :=
  sortBy (fun x => (x.1 : Int)) ((launchGroups s lid).map (fun p => (p.2.id, .inl p.1)) ++ l.left.map (fun x => (x.id, .inr x)))

/-- A candidate of a quantum: HBCNT at its tick, owner, frame. -/
abbrev Candidate := Nat × Nat × Nat

/-- The candidates in the order in which they are served: HBCNT, then the owner's ID (R379). -/
def candidatesOf (s : State) (lid : Nat) : List Candidate :=
  sortBy (fun x => (x.1 : Int)) ((launchGroups s lid).flatMap (fun p => p.2.candidates.map (fun c => (c.2, p.1, c.1))))

/-- Step 3: each candidate is promoted or unmarked (R379). -/
def promoteCandidates (s : State) (lid : Nat) : State :=
  let cs := candidatesOf s lid
  let s1 := { s with groups := s.groups.map (fun p => if p.2.launch = lid then (p.1, { p.2 with candidates := [] }) else p) }
  cs.foldl (fun s c => (promote s c.2.1 c.2.2).getD s) s1

/-- The operations captured by the groups a commit serves, with their logical cores, in order: those put off first, then by group ID,
then in program order. -/
def captured (s : State) (l : Launch) (xs : List (Nat × (Nat ⊕ Left))) : List (Nat × Nat) :=
  sortBy (fun x => (x.1 : Int)) (l.carried ++ xs.flatMap (fun x => match x.2 with
    | .inl k => ((tget s.groups k).map (fun g => g.detOps.map (fun n => (x.1 / Config.slotsPerCore, n)))).getD []
    | .inr y => y.ops.map (fun n => (x.1 / Config.slotsPerCore, n))))

/-- The tape entries of an operation stop every group from its issue on. -/
def freeTape (s : State) (n : Nat) : State :=
  { s with cores := s.cores.map (fun c => (c.1, { c.2 with tape := c.2.tape.map (fun e => if e.op = n then { e with own := none } else e) })) }

/-- Whether an operation's packet has no stamp left in the quantum (R325). -/
def noStamp (s : State) (l : Launch) (o : EngineOp) : Bool :=
  match o.act with
  | .remote p _ _ => p.ordered && l.domain != 0 && !seqRoom s (dieOf o.core) l.domain (stampBase s (some l) (opLcore s o))
  | _ => false

/-- Whether an operation finds no place at its commit: in the tape table of its logical core, or for its graph or its step table (R26, R265, R334,
R376; log 42). -/
def noPlace (s : State) (lid n : Nat) (o : EngineOp) : Bool :=
  let lcore := opLcore s o
  let es := (allTape s).filter (sharesTape s lid lcore o.core true)
  let mine := es.filter (fun e => e.op == n)
  decide (Config.tapeEntries < (es.filter lasting).length + mine.length) ||
    (runsGraph o && decide (Config.graphsPerCore ≤ detGraphs s lid lcore)) ||
    (runsTable o && decide (Config.tablesPerDie ≤ detTables s lid (lcore / 48)))

/-- Whether an earlier operation of the same group has been put off. -/
def behindCarried (s : State) (l : Launch) (o : EngineOp) : Bool :=
  l.carried.any (fun y => match tget s.ops y.2 with
    | some a => sameGroup a o
    | none => false)

/-- Whether an operation is a remote write to the package itself, as `ordered` says or not. -/
def ownRemote (s : State) (o : EngineOp) (ordered : Bool → Bool) : Bool :=
  match o.act with
  | .remote p _ _ => p.dest == s.info.pkgnum.toNat && ordered p.ordered
  | _ => false

/-- Whether commits keep the order of an operation and a later remote write to the package itself without more: a copy is performed before the commit that
delivers the write, and an earlier such write is performed there first (R53, R341). -/
def inTurn (s : State) (a o : EngineOp) : Bool :=
  (ownRemote s o (fun _ => true) && copyOp a && !runsGraph a) ||
    (ownRemote s a (fun x => x) && ownRemote s o (fun _ => true)) || (ownRemote s a (fun _ => true) && ownRemote s o (fun x => !x))

/-- Whether a graph may outlast the quantum after commit k: it was issued before, or has a STEP node, whose table steps at commits. -/
def lateGraph (s : State) (k : Nat) (a : EngineOp) : Bool :=
  match a.act with
  | .grun x off nodes _ => a.quantum != some k ||
      (List.range nodes).any (fun (j : Nat) => fld (leaseBytes s a.launch ((x.vbase.toNat + off + 64 * j) % 2 ^ 64) 1) 0 1 == 4)
  | _ => false

/-- Whether an operation waits at its commit for an earlier one of its group that is ordered before it and that only a later commit counts complete: one
of the collective engine, or a graph that may outlast the quantum. A copy after a copy is performed in its turn before the next commit, and a CRUN
begins in its turn (R51-R53, R268, R380; log 110). -/
def putOff (s : State) (k n : Nat) (o : EngineOp) : Bool :=
  s.ops.any (fun a =>
    if copyOp a.2 && copyOp o then lateGraph s k a.2 && (ordersBefore s a n o || commitsBefore s a o)
    else !runsTable o && !inTurn s a.2 o && ordersBefore s a n o)

/-- Whether an operation counts in TAG: all but the writes of a G task's end (R266; log 106). -/
def countsTag (o : EngineOp) : Bool :=
  match o.act with
  | .taskend .. => false
  | _ => true

/-- An operation issued at commit k, numbered among those its core has issued (R266). -/
def issued (s : State) (k : Nat) (o : EngineOp) : EngineOp :=
  { o with deferred := false, quantum := some k, seq := s.opNo, tag := (getCore s o.core).tag + (if countsTag o then 1 else 0) }

/-- Step 4: the operations captured in the quantum are issued in commit order, the collective ones stamped; one without a stamp or a place, or that waits
for an earlier one, is put off to the next quantum, and with it the later ones of its group (R285, R325, R366, R380; logs 42, 110). -/
def issueDeferred (lid k : Nat) (s : State) (x : Nat × Nat) : State :=
  match tget s.ops x.2, tget s.launches lid with
  | some o, some l =>
    let o1 := issued s k o
    if noStamp s l o || noPlace s lid x.2 o || behindCarried s l o || putOff s k x.2 o1 then putLaunch s lid { l with carried := l.carried ++ [x] }
    else
      let s1 := freeTape (putCore { s with opNo := s.opNo + 1 } o.core { getCore s o.core with tag := o1.tag }) x.2
      activate (exportNamed (putOp s1 x.2 o1) lid o.act) x.2
  | _, _ => s

/-- The step tables of a launch on a logical core take their steps, in the order in which they began (log 85). -/
def advanceTables (s : State) (lid lcore k : Nat) : State :=
  (s.tables.filter (fun p => p.2.launch == some lid && tableLcore s p.2 == lcore)).foldl (fun s p => advanceTable (2 ^ 32) s p.1 k) s

/-- The logical cores of some operations and of a launch's step tables, ascending, each once. -/
def busyLcores (s : State) (lid : Nat) (ops : List (Nat × Nat)) : List Nat :=
  let ns := ops.map (fun x => x.1) ++ (s.tables.filter (fun p => p.2.launch == some lid)).map (fun p => tableLcore s p.2)
  sortBy (fun n => (n : Int)) (ns.foldl (fun t n => if t.contains n then t else t ++ [n]) [])

/-- Step 4 of a launch: logical core by logical core, ascending, its captured operations and then the steps of its tables, so that stamps increase
(R325). -/
def issueAll (s : State) (lid k : Nat) (ops : List (Nat × Nat)) : State :=
  (busyLcores s lid ops).foldl
    (fun s n => advanceTables ((ops.filter (fun x => x.1 == n)).foldl (issueDeferred lid k) s) lid n k) s

/-- The logical slots of groups that have ended are free, and workgroups whose last group has ended end (R200, R224, R377). -/
def endQuantum (s : State) (lid groups : Nat) (left : List Left) : State :=
  let s1 := left.foldl (fun s x => endWg s x.key) s
  { s1 with wgs := s1.wgs.map (fun p => if p.2.launch = lid then (p.1, { p.2 with
      lslots := if p.2.status = .ended then [] else p.2.lslots.filter (fun q =>
        !left.any (fun x => x.key == p.1 && x.id == p.2.lcore * Config.slotsPerCore + q.2 && decide (q.1 < groups))) }) else p) }

/-- Whether a parked or stalled group goes on after the commit: its condition holds, or it looks again (R378, R379). -/
def goesOn (s : State) (g : Group) : Bool :=
  match g.status with
  | .stalled | .parked .commit | .parked .waitw | .parked .rwait => true
  | .parked _ => parkHolds s g
  | _ => false

/-- A group begins its next quantum. -/
def nextQuantum (s : State) (g : Group) : Group :=
  { g with detCount := 0, detEnded := false, detOps := [], status := if goesOn s g then .run else g.status }

/-- Steps 1 to 4 of the commit of a launch's current quantum, every group of it standing on a core (R378). -/
def commitSteps (s : State) (lid : Nat) (l : Launch) : State :=
  let k := l.quantum
  let due := before0 s lid k
  let s1 := if l.domain = 0 then deliver0 due.length s due
            else deliverQuantum (getPoint s l.domain).waiting.length s l.domain (BitVec.ofNat 48 (k % 2 ^ 20 * 2 ^ 28))
  let s2 := deliverOwn s1 lid k
  let xs := commitOrder s2 lid l
  let s3 := xs.foldl (fun s x => commitOne s x.2) s2
  let s4 := promoteCandidates (completeCBars (completeBars s3 lid) lid) lid
  match tget s4.launches lid with
  | none => s4
  | some l4 =>
    let ops := captured s4 l4 (commitOrder s4 lid l4)
    endQuantum (issueAll (putLaunch s4 lid { l4 with carried := [] }) lid k ops) lid l4.kern.groups l4.left

/-- The tables of virtual cores are gone with the commit. -/
def dropVirtual (s : State) : State := { s with cores := s.cores.filter (fun c => decide (c.1 < Config.cores)) }

/-- The launch's next quantum begins. -/
def startQuantum (s : State) (lid k : Nat) : State :=
  let s1 := match tget s.launches lid with
    | some l => putLaunch s lid { l with quantum := k + 1, left := [] }
    | none => s
  { s1 with groups := s1.groups.map (fun p => if p.2.launch = lid then (p.1, nextQuantum s1 p.2) else p) }

/-- The commit of a launch's current quantum (R376, R378): saved workgroups take part in it and are saved again. -/
def commitDo (s : State) (lid : Nat) (l : Launch) : State :=
  let away := savedWgs s lid
  let s0 := away.foldl (fun s p => bringBack l.kern.groups s p.1 p.2) (setShown s lid false)
  let s1 := startQuantum (commitSteps (finishReady (leaveTiles (showLate s0 lid) lid) lid l.quantum) lid l) lid l.quantum
  setShown (dropVirtual (away.foldl (fun s p => sendBack s p.1 p.2) s1)) lid true

/-- DET_COMMIT (R378). -/
def execDetCommit (launch : Nat) (s : State) : Host.Outcome State Fault Refusal :=
  match tget s.launches launch with
  | some l => if commitReady s launch l then .next (commitDo s launch l) else .next s
  | none => .next s

end Sys2Proof.Machine
end

