-- ==== Sys2Proof/Machine/FarAtomic.lean ====
section
/-! DEFINITION. Far atomics and sibling-cell operations: their issue, their performance at the home, and resends (R260-R262,
R269-R285). -/

namespace Sys2Proof.Machine

/-! ## FAT and FRED at issue (R260) -/

/-- The lanes' requests: cell offset, operand, and compare value or bound. -/
def farLanes (s : State) (c : Ctx) (f : CX) : List FarLane :=
  let aop := bits f.md 0 4
  let wide := f.md.getLsbD 4
  let signed := f.md.getLsbD 5
  let w := if wide then 64 else 32
  let t := if aop = 9 then 6 else if aop = 10 then 7 else (if wide then 2 else 0) + (if signed then 0 else 1)
  let v := if aop = 11 then splat 0 else srcLanes s c f.lit f.vb.toNat t
  let cmp := if aop = 8 then regLanes c.g (f.vb.toNat + w / 32) w else splat (lowBits w (sval c.g f.lit f.sc))
  let sb := (sval c.g f.lit f.sb).toNat
  (laneIdx s c f).map (fun x => ⟨x.1, sb + x.2, v.getD x.1 0, cmp.getD x.1 0⟩)

/-- FAT and FRED (R260): FAT's old values go to VD. -/
def farIssue (s : State) (c : Ctx) (f : CX) (ctr : Ctr) (vd : Option Nat) : Eff :=
  withX c f (fun x =>
    copyIssue s c f ctr
      (.far x (bits f.md 0 4) (f.md.getLsbD 4) (f.md.getLsbD 5) (sval c.g f.lit f.sb) vd (farLanes s c f)) [] [])

/-- FAT. -/
def execFat (f : CX) (s : State) : Host.Outcome State Fault Refusal :=
  issue (.fat f) s (fun c => farIssue s c f .ld (if f.vd.toNat < 384 then some f.vd.toNat else none))
/-- FRED. -/
def execFred (f : CX) (s : State) : Host.Outcome State Fault Refusal :=
  issue (.fred f) s (fun c => farIssue s c f .st none)

/-! ## SKGET, SKPUT, SKREC at issue (R276-R279) -/

/-- The lanes' cells, without a value. -/
def skLanes (s : State) (c : Ctx) (f : CX) : List SkLane :=
  let sb := (sval c.g f.lit f.sb).toNat
  (laneIdx s c f).map (fun x => ⟨x.1, sb + x.2, 0, none⟩)

/-- SKGET. -/
def execSkget (f : CX) (s : State) : Host.Outcome State Fault Refusal :=
  issue (.skget f) s (fun c => withX c f (fun x =>
    let sa := sval c.g f.lit f.sa
    if sa.toNat % 8 ≠ 0 then .raise cALIGN sa
    else copyIssue s c f .ld (.skget x sa.toNat (skLanes s c f)) [(sa.toInt, sa.toInt + 6144)]
      [⟨sa.toNat, sa.toNat + 6144, true⟩]))

/-- SKPUT. -/
def execSkput (f : CX) (s : State) : Host.Outcome State Fault Refusal :=
  issue (.skput f) s (fun c => withX c f (fun x =>
    let v := regLanes c.g f.vb.toNat 64
    let tok := regLanes c.g (f.vb.toNat + 2) 64
    let lanes := (skLanes s c f).map (fun e =>
      { e with v := v.getD e.lane 0, token := if f.md.getLsbD 0 then none else some (tok.getD e.lane 0) })
    copyIssue s c f .st (.skput x lanes) [] []))

/-- SKREC. -/
def execSkrec (f : CX) (s : State) : Host.Outcome State Fault Refusal :=
  issue (.skrec f) s (fun c => withX c f (fun x =>
    copyIssue s c f .st (.skrec x (bits f.md 0 4) (f.md.getLsbD 4) (skLanes s c f)) [] []))

/-! ## Cells at their homes -/

/-- The checks of a cell: lease and LENGTH, alignment, and whether its page is sibling-keeping as the operation needs
(R260, R261, R280). The cell's physical address, or the cause. -/
def cellAt (l : Launch) (x : XReg) (off w : Nat) (sk read write : Bool) : Except Nat Nat :=
  let js := List.range w
  let ok (wr : Bool) : Bool := js.all (fun (j : Nat) => (xPa l x ((off + j : Nat) : Int) wr).isSome)
  if (read && !ok false) || (write && !ok true) || (x.vbase.toNat + off) % w != 0 then .error cLEASE
  else match xPa l x (off : Int) write with
    | none => .error cLEASE
    | some (pa, k) => if k = sk then .ok pa else .error cTYPE

/-- The die at which a cell of an operation has its home. -/
def homeOf (l : Launch) (x : XReg) (off : Nat) : Nat :=
  match xPa l x (off : Int) false, xPa l x (off : Int) true with
  | some (pa, _), _ | none, some (pa, _) => (Config.ownerDie pa).val
  | none, none => 0

/-- The request of an operation to a cell, while it is not acknowledged. -/
def reqFor (s : State) (op cell : Nat) : Option FarReq := s.reqs.find? (fun r => r.op == op && r.cell == cell)

/-- An identifier no request of the core awaits an acknowledgment under (R262). -/
def freeReqId (s : State) (core : Nat) : BitVec 16 :=
  let n := (getCore s core).reqId
  match (List.range (s.reqs.length + 1)).find? (fun j => !s.reqs.any (fun r => r.core == core && r.id == n + BitVec.ofNat 16 j)) with
  | some j => n + BitVec.ofNat 16 j
  | none => n

/-- A request is sent, unless it has been. With 64 of the core unacknowledged at the home it waits; one of those that the home has applied
is acknowledged first, for its reply is under way (R262, log 86). -/
def sendReq (s : State) (core home op cell : Nat) : Option State :=
  if (reqFor s op cell).isSome then some s
  else
    let mine := s.reqs.filter (fun r => r.core == core && r.home == home)
    let id := freeReqId s core
    let add (s : State) : State :=
      { putCore s core { getCore s core with reqId := id + 1 } with
        reqs := s.reqs ++ [⟨core, home, id, op, cell, s.pt, 0, none⟩] }
    if mine.length < Config.homeRequests then some (add s)
    else (mine.find? (fun r => r.reply.isSome)).map (fun r => add { s with reqs := s.reqs.filter (fun q => q != r) })

/-- The home keeps the reply of a request it has applied (R262). -/
def keepReply (s : State) (op cell : Nat) (seen : Seen) (vals : List (Nat × DWord)) : State :=
  { s with reqs := s.reqs.map (fun r => if r.op = op ∧ r.cell = cell then { r with reply := some (seen, vals) } else r) }

/-- A request that its home has applied, with the statuses and old values of its reply. -/
def applied (s : State) (op cell : Nat) (o : EngineOp) (seen : Seen) (vals : List (Nat × DWord)) : State :=
  putOp (keepReply s op cell seen vals) op
    { o with cells := o.cells ++ [cell], cellSeen := tput o.cellSeen cell seen, vals := o.vals ++ vals }

/-- A request that failed its checks. -/
def rejected (s : State) (op cell : Nat) (o : EngineOp) : State := putOp s op { o with cells := o.cells ++ [cell] }

/-- Whether the home has applied a request already. -/
def known (s : State) (op cell : Nat) (o : EngineOp) : Bool :=
  o.cells.contains cell || (match reqFor s op cell with
    | some r => r.reply.isSome
    | none => false)

/-- The read-modify-writes of the lanes at one address: the last value and each lane's old value (R163, R261). -/
def farFold (aop w : Nat) (signed : Bool) : Nat → List FarLane → Nat × List (Nat × DWord)
  | x, [] => (x, [])
  | x, e :: t =>
    let r := farFold aop w signed (atomNew aop w signed x e.v.toNat e.c.toNat) t
    (r.1, (e.lane, BitVec.ofNat 64 x) :: r.2)

/-- One cell's far atomic at its home. -/
def farAtHome (s : State) (l : Launch) (op cell : Nat) (o : EngineOp) (x : XReg) (aop : Nat) (wide signed : Bool)
    (lanes : List FarLane) : State :=
  let w := if wide then 8 else 4
  let here := lanes.filter (fun e => e.off == cell)
  let lane := (here.map (fun e => e.lane)).headD 255
  match cellAt l x cell w false true true with
  | .error cause => rejected s op cell (opFail o cause (xVa x cell) lane)
  | .ok pa =>
    if poisonIn s.mpoison pa w then applied s op cell o seenPOISON []
    else
      let r := farFold aop (8 * w) signed (memNat s pa w) here
      applied (writePlain s pa (clean (bytesOf w r.1))) op cell o seenOK r.2

/-- FAR_ATOMIC_AT_HOME (R261, R262): the request is applied once; on DEV and SO pages in ascending address order. -/
def execFarAtomicAtHome (op cell : Nat) (s : State) : Host.Outcome State Fault Refusal :=
  match tget s.ops op with
  | some o =>
    match o.act, tget s.launches o.launch with
    | .far x aop wide signed _ _ lanes, some l =>
      let dev (off : Nat) : Bool := devAt s o.launch (xVa x off).toNat
      let first := dev cell && lanes.any (fun e => decide (e.off < cell) && dev e.off && !o.cells.contains e.off)
      if mayPerform s op o && lanes.any (fun e => e.off == cell) && !known s op cell o && !first then
        match sendReq s o.core (homeOf l x cell) op cell with
        | some s1 => .next (farAtHome s1 l op cell o x aop wide signed lanes)
        | none => .next s
      else .next s
    | _, _ => .next s
  | none => .next s

/-! ## Resends (R262, R282) -/

/-- The lanes a request carries, and its address. -/
def requestOf (o : EngineOp) (cell : Nat) : Option (List Nat × DWord) :=
  match o.act with
  | .far x _ _ _ _ _ lanes =>
    let ls := (lanes.filter (fun e => e.off == cell)).map (fun e => e.lane)
    if ls = [] then none else some (ls, xVa x cell)
  | .skget x _ lanes | .skrec x _ _ lanes =>
    let ls := (lanes.filter (fun e => e.off == cell)).map (fun e => e.lane)
    if ls = [] then none else some (ls, xVa x cell)
  | .skput x lanes => (lanes.find? (fun e => e.lane == cell)).map (fun e => ([e.lane], xVa x e.off))
  | _ => none

/-- Whether an operation only reads at its homes. -/
def readsOnly (o : EngineOp) : Bool :=
  match o.act with
  | .skget .. => true
  | _ => false

/-- A request sent again: the home applies it if it has not, and its reply stands otherwise; a read is made again (R282). -/
def resendReq (s : State) (op cell : Nat) (o : EngineOp) : State :=
  let s1 := { s with reqs := s.reqs.map (fun r => if r.op = op ∧ r.cell = cell then { r with resends := r.resends + 1 } else r) }
  if readsOnly o then
    putOp { s1 with reqs := s1.reqs.map (fun r => if r.op = op ∧ r.cell = cell then { r with reply := none } else r) } op
      { o with cells := o.cells.filter (fun x => x != cell), cellSeen := tdel o.cellSeen cell }
  else s1

/-- A request given up after its resends: FAULT, cause TIMEOUT, whatever its home has met, and the lanes' VD is not written (R262). -/
def giveUp (s : State) (op cell : Nat) (o : EngineOp) (lanes : List Nat) (va : DWord) : State :=
  let o1 := opFail o cTIMEOUT va (lanes.headD 255)
  putOp { s with reqs := s.reqs.filter (fun r => !(r.op == op && r.cell == cell)) } op
    { o1 with cells := if o1.cells.contains cell then o1.cells else o1.cells ++ [cell], cellSeen := tdel o1.cellSeen cell,
              vals := o1.vals.filter (fun p => !lanes.contains p.1) }

/-- The first address a request names, and its home. -/
def requestHome (l : Launch) (o : EngineOp) (cell : Nat) : Nat :=
  match o.act with
  | .far x .. | .skget x .. | .skrec x .. => homeOf l x cell
  | .skput x lanes => homeOf l x (((lanes.find? (fun e => e.lane == cell)).map (fun e => e.off)).getD 0)
  | _ => 0

/-- FAR_ATOMIC_RESEND (R262, R282): a request that may be sent and has not been is sent; 8 µs after a sending without a reply it is sent
again with its identifier; after 8 unanswered resends its lanes complete with FAULT, cause TIMEOUT. The home applies none twice, on a DEV or SO
page neither (R261). -/
def execFarAtomicResend (op cell : Nat) (s : State) : Host.Outcome State Fault Refusal :=
  match tget s.ops op with
  | some o =>
    match requestOf o cell, tget s.launches o.launch with
    | some (lanes, va), some l =>
      if !mayPerform s op o then .next s
      else match reqFor s op cell with
        | none => if o.cells.contains cell then .next s else .next ((sendReq s o.core (requestHome l o cell) op cell).getD s)
        | some r =>
          if s.pt.toNat < r.sent.toNat + Config.resendTicks * (r.resends + 1) then .next s
          else if r.resends < Config.resends then .next (resendReq s op cell o)
          else .next (giveUp s op cell o lanes va)
    | _, _ => .next s
  | none => .next s

/-! ## Sibling operations at the home (R273, R277-R280) -/

/-- The 48-byte record of a cell (R277). -/
def skRecord (c : SkCell) : List PByte :=
  let flags := (if c.sibs.any (fun x => x.poison) then 1 else 0) + (if c.sibs.any (fun x => x.g != c.g) then 2 else 0)
  clean (bytesOf 4 c.sibs.length ++ bytesOf 4 flags ++ bytesOf 8 (cellToken c).toNat) ++
    (List.range 4).flatMap (fun i =>
      match c.sibs[i]? with
      | some x => (bytesOf 8 x.v.toNat).map (fun b => (b, x.poison))
      | none => clean (bytesOf 8 0))

/-- SK_GET_AT_HOME (R277): lanes that name the cell share one read. -/
def execSkGetAtHome (op cell : Nat) (s : State) : Host.Outcome State Fault Refusal :=
  match tget s.ops op with
  | some o =>
    match o.act, tget s.launches o.launch with
    | .skget x sa lanes, some l =>
      let here := lanes.filter (fun e => e.off == cell)
      if mayPerform s op o && !here.isEmpty && !o.cells.contains cell then
        match cellAt l x cell 8 true true false with
        | .error cause =>
          .next (rejected s op cell (opFail o cause (xVa x cell) ((here.map (fun e => e.lane)).headD 255)))
        | .ok pa =>
          let k := readCell s (pa / 8)
          let bad := k.sibs.any (fun y => y.poison)
          match sendReq s o.core (homeOf l x cell) op cell with
          | none => .next s
          | some s1 =>
            let s2 := keepReply (here.foldl (fun s e => opWrite s o (sa + 48 * e.lane) (skRecord k)) s1) op cell (if bad then seenPOISON else seenOK) []
            .next (rejected s2 op cell { o with cellSeen := tput o.cellSeen cell (if bad then seenPOISON else seenOK) })
      else .next s
    | _, _ => .next s
  | none => .next s

/-- SK_PUT_AT_HOME (R273, R278): one lane's write, lanes ascending. -/
def execSkPutAtHome (op lane : Nat) (s : State) : Host.Outcome State Fault Refusal :=
  match tget s.ops op with
  | some o =>
    match o.act, tget s.launches o.launch with
    | .skput x lanes, some l =>
      let early := lanes.any (fun e => decide (e.lane < lane) && !o.cells.contains e.lane)
      match lanes.find? (fun e => e.lane == lane) with
      | some e =>
        if mayPerform s op o && !known s op lane o && !early then
          match cellAt l x e.off 8 true false true with
          | .error cause => .next (rejected s op lane (opFail o cause (xVa x e.off) lane))
          | .ok pa =>
            match sendReq s o.core (homeOf l x e.off) op lane, cellWrite (readCell s (pa / 8)) e.v false e.token with
            | some s1, some k => .next (applied (putCell s1 (pa / 8) k) op lane o seenOK [])
            | some s1, none => .next (applied s1 op lane o seenOVERFLOW [])
            | none, _ => .next s
        else .next s
      | none => .next s
    | _, _ => .next s
  | none => .next s

/-- SK_RECONCILE_AT_HOME (R279): lanes that name the cell share one reconcile. -/
def execSkReconcileAtHome (op cell : Nat) (s : State) : Host.Outcome State Fault Refusal :=
  match tget s.ops op with
  | some o =>
    match o.act, tget s.launches o.launch with
    | .skrec x f signed lanes, some l =>
      let here := lanes.filter (fun e => e.off == cell)
      if mayPerform s op o && !here.isEmpty && !known s op cell o then
        match cellAt l x cell 8 true false true with
        | .error cause =>
          .next (rejected s op cell (opFail o cause (xVa x cell) ((here.map (fun e => e.lane)).headD 255)))
        | .ok pa =>
          match sendReq s o.core (homeOf l x cell) op cell with
          | none => .next s
          | some s1 =>
            let r := cellReconcile (readCell s (pa / 8)) f signed
            .next (applied (putCell s1 (pa / 8) r.1) op cell o r.2 [])
      else .next s
    | _, _ => .next s
  | none => .next s

end Sys2Proof.Machine
end

