-- ==== Sys2Proof/Machine/Masks.lean ====
section
/-! DEFINITION. Rejoin records, mask instructions, the palette and FPC (R133, R177-R181, R201-R204). -/

namespace Sys2Proof.Machine

/-! ## Values PAL and FPC may hold -/

/-- Whether a value holds a field that R181 reserves. -/
def palReserved (v : DWord) : Bool :=
  bits v 15 49 != 0 || decide (bits v 9 4 < 3) || decide (8 < bits v 9 4) || bits v 7 2 == 3 || bits v 4 2 == 3

/-- Whether an FPC value has a reserved bit set (R133). -/
def fpcReserved (v : Word) : Bool := bits v 13 19 != 0

/-! ## Rejoin records (R177-R180) -/

/-- The restore made by MARRIVE and MJOIN (R179). -/
def restorePath (g : Group) (spal sfpc : Word) : Group :=
  let rcs : Word := 1 <<< 14
  let pal : Word := (spal &&& ~~~rcs) ||| ((g.pal.setWidth 32 ||| spal) &&& rcs)
  { g with pal := pal.setWidth 64, fpc := (sfpc &&& ~~~0x7C) ||| ((g.fpc ||| sfpc) &&& 0x7C) }

/-- SPAL of a record whose quad begins at q. -/
def recSpal (g : Group) (q : Nat) : Word := (sreg g (q + 2)).setWidth 32
/-- SFPC of a record. -/
def recSfpc (g : Group) (q : Nat) : Word := (sreg g (q + 2)).extractLsb' 32 32
/-- Arrivals expected. -/
def recExp (g : Group) (q : Nat) : Nat := bits (sreg g (q + 3)) 0 8
/-- Arrivals counted. -/
def recArr (g : Group) (q : Nat) : Nat := bits (sreg g (q + 3)) 8 8

/-- Whether MARRIVE and MJOIN raise OPERAND on a record (R180). -/
def recBad (g : Group) (q : Nat) : Bool :=
  palReserved ((recSpal g q).setWidth 64) || fpcReserved (recSfpc g q) || recExp g q == 0

/-- MOPEN (R178). -/
def execMopen (f : SX) (s : State) : Host.Outcome State Fault Refusal :=
  issue (.mopen f) s (fun c =>
    let q := f.sd.toNat
    let g := setS (setS c.g q 0) (q + 1) 0
    .next s (setS (setS g (q + 2) (c.g.fpc ++ (c.g.pal.setWidth 32 : Word) : BitVec 64)) (q + 3)
      (BitVec.ofNat 64 (f.imm.toNat % 256))))

/-- MSPLIT (R202). -/
def execMsplit (f : SX) (s : State) : Host.Outcome State Fault Refusal :=
  issue (.msplit f) s (fun c =>
    let p := spair c.g f.sa.toNat
    let e := execMask c.g
    .next s { setPair (setPair c.g f.sd.toNat (e &&& ~~~p)) 158 (e &&& p) with scc := (e &&& p) != 0 })

/-- MARRIVE (R178, R180). -/
def execMarrive (f : SX) (s : State) : Host.Outcome State Fault Refusal :=
  issue (.marrive f) s (fun c =>
    let q := f.sd.toNat
    if recBad c.g q then operandTrap c 23
    else
      let g := setPair c.g q (spair c.g q ||| execMask c.g)
      let cnt := min (recArr c.g q + 1) 255
      let w3 := (sreg c.g (q + 3) &&& ~~~(0xFF00 : DWord)) ||| BitVec.ofNat 64 (cnt * 256)
      .next s (restorePath (setS g (q + 3) w3) (recSpal c.g q) (recSfpc c.g q)))

/-- MJOIN (R178-R180). -/
def execMjoin (f : SX) (s : State) : Host.Outcome State Fault Refusal :=
  issue (.mjoin f) s (fun c =>
    let q := f.sd.toNat
    if recBad c.g q then operandTrap c 23
    else if c.l.kern.joinchk && recArr c.g q != recExp c.g q then .raise cJOIN (sreg c.g (q + 3))
    else .next s (setPair (restorePath c.g (recSpal c.g q) (recSfpc c.g q)) 158 (spair c.g q)))

/-- MMOV (R202). -/
def execMmov (f : SX) (s : State) : Host.Outcome State Fault Refusal :=
  issue (.mmov f) s (fun c =>
    let a := spair c.g f.sa.toNat
    let d := spair c.g f.sd.toNat
    let op := bits f.md 0 2
    let r := if op = 0 then a else if op = 1 then d &&& a else if op = 2 then d ||| a else d &&& ~~~a
    .next s { setPair c.g f.sd.toNat r with scc := r != 0 })

/-- MPOPC (R202). -/
def execMpopc (f : SX) (s : State) : Host.Outcome State Fault Refusal :=
  issue (.mpopc f) s (fun c =>
    let n := popcount 128 (spair c.g f.sa.toNat).toNat
    .next s { setS c.g f.sd.toNat (BitVec.ofNat 64 n) with scc := n != 0 })

/-! ## Palette and FPC (R203, R204) -/

/-- The value PALSET and FPCSET form: whole, or under the mask SB with .M. -/
def maskedSet (c : Ctx) (f : SX) (old : DWord) : DWord :=
  if f.md.getLsbD 0 then (old &&& ~~~(sval c.g f.lit f.sb)) ||| (sval c.g f.lit f.sa &&& sval c.g f.lit f.sb)
  else sval c.g f.lit f.sa

/-- PALSET. -/
def execPalset (f : SX) (s : State) : Host.Outcome State Fault Refusal :=
  issue (.palset f) s (fun c =>
    let n := maskedSet c f c.g.pal
    if palReserved n then operandTrap c 23 else .next s { c.g with pal := n })
/-- PALGET. -/
def execPalget (f : SX) (s : State) : Host.Outcome State Fault Refusal :=
  issue (.palget f) s (fun c => .next s (setS c.g f.sd.toNat c.g.pal))
/-- FPCSET. -/
def execFpcset (f : SX) (s : State) : Host.Outcome State Fault Refusal :=
  issue (.fpcset f) s (fun c =>
    let n := maskedSet c f (c.g.fpc.setWidth 64)
    if bits n 13 51 ≠ 0 then operandTrap c 23 else .next s { c.g with fpc := n.setWidth 32 })
/-- FPCGET. -/
def execFpcget (f : SX) (s : State) : Host.Outcome State Fault Refusal :=
  issue (.fpcget f) s (fun c => .next s (setS c.g f.sd.toNat (c.g.fpc.setWidth 64)))

end Sys2Proof.Machine
end

