-- ==== Sys2Proof/Machine/Residency.lean ====
section
/-! DEFINITION. Residency reports, the notification ring as the host drives it, and migration (R387-R391). -/

namespace Sys2Proof.Machine

/-- The size of a unit of migration (R390). -/
def unitBytes : Nat := 2 ^ 21

/-! ## Reports (R389) -/

/-- Whether a window with `m` misses of 2^20 accesses is reported for a class. -/
def windowReported (cls m : Nat) : Bool :=
  if cls = 1 then decide (4 * m < 2 ^ 20)
  else if cls = 2 then decide (7 * 2 ^ 20 < 8 * m)
  else if cls = 3 then decide (2 ^ 20 < 2 * m)
  else if cls = 4 then decide (2 * m < 2 ^ 20)
  else false

/-- The units that a range meets. -/
def rangeUnits (r : LRange) : List Nat :=
  let first := alignDown r.base.toNat unitBytes
  (List.range ((r.base.toNat + r.len - first + unitBytes - 1) / unitBytes)).map (fun i => first + unitBytes * i)

/-- Whether a unit of an address space meets a range. -/
def unitMeets (u : MigUnit) (asid : Nat) (r : LRange) : Bool :=
  u.asid == asid && decide (u.va < r.base.toNat + r.len) && decide (r.base.toNat < u.va + unitBytes)

/-- Queuing a range's units for a die; a unit queued already stays as it is. -/
def queueUnits (s : State) (asid die : Nat) (r : LRange) : State :=
  let new := (rangeUnits r).filter (fun va => !s.res.units.any (fun u => u.asid == asid && u.va == va))
  { s with res := { s.res with units := s.res.units ++ new.map (fun va => ⟨asid, va, die, false, 0, false, false⟩) } }

/-- The number of held reports, in the header's PENDING. -/
def putPending (s : State) : State := memPut s (s.info.nqhdr.toNat + 28) 4 s.res.pending.length

/-- The held report with the lowest launch identifier and range index. -/
def firstPending : List (Nat × Nat × List Byte) → Option (Nat × Nat × List Byte)
  | [] => none
  | x :: xs => some (xs.foldl (fun b y => if y.1 < b.1 ∨ (y.1 = b.1 ∧ y.2.1 < b.2.1) then y else b) x)

/-- Held reports are written as room allows, after every kept entry (R388, R389). -/
def drainPending : Nat → State → State
  | 0, s => s
  | n + 1, s =>
    match firstPending s.res.pending with
    | none => s
    | some e =>
      if !notifyOn s || s.res.kept != [] || ringFull s s.info.nqhdr.toNat then s
      else
        let s1 := { s with res := { s.res with pending := s.res.pending.filter (fun x => x != e) } }
        drainPending n (putPending (ringPut s1 s.info.nqhdr.toNat e.2.2))

/-- What can be written now is written. -/
def drainNotes (s : State) : State :=
  let s1 := drainKept s.res.kept.length s
  drainPending s1.res.pending.length s1

/-- A report: written, or held in place of the range's older one, with OVERFLOW counted (R389). -/
def report (s : State) (launch range : Nat) (e : List Byte) : State :=
  let hdr := s.info.nqhdr.toNat
  if s.res.kept = [] ∧ !ringFull s hdr then ringPut s hdr e
  else
    let rest := s.res.pending.filter (fun x => !(x.1 == launch && x.2.1 == range))
    ringBump (putPending { s with res := { s.res with pending := rest ++ [(launch, range, e)] } }) hdr 24

/-- The die that owns RBASE of a range, and whether it is host memory: by the launch's lease, else, the launch over, as the page lies now. -/
def rangeHome (s : State) (l : Launch) (r : LRange) : Nat × Bool :=
  let pa := match (findLeaf l.leaves r.base.toNat <|> walk s l.asid r.base.toNat) with
    | some f => leafPa f r.base.toNat
    | none => 0
  ((Config.ownerDie pa).val, Config.hostMemory pa)

/-- A window that has closed is judged by its misses, also after its launch's end: reported, its range queued for migration, or neither
(R388, R389). -/
def judge (s : State) (launch range misses majdie : Nat) : State :=
  match tget s.launches launch with
  | none => s
  | some l =>
    match l.ranges[range]? with
    | none => s
    | some r =>
      if !notifyOn s || l.queued.contains range || !windowReported r.cls misses then s
      else
        let (home, host) := rangeHome s l r
        let auto := (memNat s (s.info.nqhdr.toNat + 9) 1).testBit 1
        let moves := auto && (r.cls == 2 || r.cls == 3) && (majdie != home || host)
        let s1 := if moves then queueUnits (putLaunch s launch { l with queued := l.queued ++ [range] }) l.asid majdie r else s
        report s1 launch range (noteBytes s 1 (if moves then 1 else 0) range r.cls launch misses (home + 256 * majdie) r.base.toNat)

/-- NOTIFY_WINDOW_CLOSE (R389): a range's window of 2^20 counted accesses has closed, `misses` of them misses (log 11), most of them of the
cores of a die. With ENABLE clear nothing is reported or queued (R388). -/
def execNotifyWindowClose (launch range misses majdie : Nat) (s : State) : Host.Outcome State Fault Refusal :=
  if !s.res.full.contains (launch, range, majdie) || decide (2 ^ 20 < misses) then .next s
  else .next (judge { s with res := { s.res with full := s.res.full.erase (launch, range, majdie) } } launch range misses majdie)

/-! ## The host's writes of the header (R387-R389) -/

/-- Whether a write of RDIDX has consumed the entry at an index. -/
def consumed (rdidx : BitVec 32) (idx : Nat) : Bool :=
  let ahead := (rdidx.toNat + 2 ^ 32 - idx % 2 ^ 32) % 2 ^ 32
  decide (1 ≤ ahead) && decide (ahead ≤ 2 ^ 31)

/-- The queues whose lease walk is repeated when the host writes RDIDX (R383). -/
def waitingQueues (s : State) : List Nat := (s.fe.queues.filter (fun p => p.2.qstate == 2)).map (fun p => p.1)

/-- NOTIFY_RDIDX_WRITE: entries are consumed, kept and held entries are written into the room, delayed walks are repeated. -/
def execNotifyRdidxWrite (rdidx : BitVec 32) (s : State) : Host.Outcome State Fault Refusal :=
  if s.info.bootstate = 2 then .next s else
  let s1 := memPut s (s.info.nqhdr.toNat + 20) 4 rdidx.toNat
  let s2 := { s1 with res := { s1.res with redirects := s1.res.redirects.filter (fun r => match r.note with
    | some i => !consumed rdidx i
    | none => true) } }
  let s3 := drainNotes s2
  .next ((waitingQueues s3).reverse.foldl (fun s q => pushNow s (.leaseWalkRetry q)) s3)

/-- NOTIFY_ENABLE: ENABLE is set, with AUTOMIG as the host writes it; the kept entries come first (R388). -/
def execNotifyEnable (automig : Bool) (s : State) : Host.Outcome State Fault Refusal :=
  .next (if s.info.bootstate = 2 then s else drainNotes (memPut s (s.info.nqhdr.toNat + 9) 1 (if automig then 3 else 1)))

/-- The queued ranges of launches as the queued units leave them. -/
def requeue (s : State) (keep : Launch → LRange → Bool) : State :=
  { s with launches := s.launches.map (fun p =>
      (p.1, { p.2 with queued := p.2.queued.filter (fun i => match p.2.ranges[i]? with
        | some r => keep p.2 r
        | none => false) })) }

/-- NOTIFY_DISABLE (R388): units without a hold leave the queue, with their ranges; a unit whose migration is over is no longer
held; WAITMAP entries are no longer held. -/
def execNotifyDisable (s : State) : Host.Outcome State Fault Refusal :=
  if s.info.bootstate = 2 then .next s else
  let hdr := s.info.nqhdr.toNat
  let ctl := memNat s (hdr + 9) 1
  let gone := s.res.units.filter (fun u => !u.held)
  let pages := (s.res.kept.filter (fun e => fld e.2 8 1 == 4)).map (fun e => fld e.2 16 8)
  let s1 := memPut s (hdr + 9) 1 (if ctl.testBit 0 then ctl - 1 else ctl)
  let s2 := { s1 with res := { s1.res with
    units := s1.res.units.filter (fun u => u.held && !u.done),
    kept := s1.res.kept.filter (fun e => fld e.2 8 1 != 4),
    told := s1.res.told.filter (fun p => !pages.contains p.2) } }
  .next (requeue s2 (fun l r => !gone.any (fun u => unitMeets u l.asid r)))

/-! ## Migration (R390, R391) -/

/-- The address of the page-table entry that maps an address, below a table. -/
def pteFrom (s : State) (va : Nat) : Nat → Nat → Nat
  | 0, _ => 0
  | lvl + 1, tbl =>
    let a := tbl + 8 * (va / 2 ^ levelShift lvl % levelEntries lvl)
    let e := memNat s a 8
    if e.testBit 1 || !e.testBit 0 then a else pteFrom s va lvl (e / 2 ^ 12 % 2 ^ 40 * 2 ^ 12)

/-- The address of the leaf entry of a mapped address. -/
def pteAddr (s : State) (asid va : Nat) : Nat :=
  pteFrom s va 5 (memNat s (s.info.asidtab.toNat + 8 * asid) 8 / 2 ^ 12 % 2 ^ 40 * 2 ^ 12)

/-- The leaves of a unit: one of level 1, or those of one level-0 table; none for a larger page or a unit without a page. -/
def unitLeaves (s : State) (asid va : Nat) : List Leaf :=
  let ls := (List.range 32).filterMap (fun i => walk s asid (va + 65536 * i))
  if ls.any (fun f => decide (unitBytes < f.size)) then []
  else match ls with
    | f :: _ => if f.size = unitBytes then [f] else ls
    | [] => []

/-- Whether two lists of leaves share a frame. -/
def leavesMeet (ls us : List Leaf) : Bool :=
  ls.any (fun f => us.any (fun u => decide (f.pa < u.pa + u.size) && decide (u.pa < f.pa + f.size)))

/-- The pages that a launch pins: its argument block's, and, its lease granted, its ranges' and its code's (R361, R384). -/
def launchPins (l : Launch) : List Leaf := if l.status = .granting then l.kargLeaves else l.leaves ++ l.codeLeaves ++ l.kargLeaves

/-- Whether a page of a unit's leaves is pinned, in whatever address space: by a launch, or by a queue's lease (R361, R384, R386, R390). -/
def unitPinned (s : State) (us : List Leaf) : Bool :=
  s.launches.any (fun p => leavesMeet (launchPins p.2) us) ||
    s.fe.queues.any (fun p => p.2.leases.any (fun h => leavesMeet h.2 us))

/-- A table with the keys of one range replaced by given entries of that range. -/
def replaceRange {α : Type} (t : Tbl α) (lo n : Nat) (new : Tbl α) : Tbl α :=
  t.filter (fun e => decide (e.1 < lo)) ++ new ++ t.filter (fun e => decide (lo + n ≤ e.1))

/-- The entries of one range of a table at another place. -/
def movedRange {α : Type} (t : Tbl α) (lo n to' : Nat) : Tbl α :=
  (t.filter (fun e => decide (lo ≤ e.1) && decide (e.1 < lo + n))).map (fun e => (e.1 - lo + to', e.2))

/-- A run of memory moved to another place with its poison. -/
def moveBytes (s : State) (src dst n : Nat) : State :=
  { s with
    mem := replaceRange s.mem dst n (movedRange s.mem src n dst),
    mpoison := replaceRange s.mpoison (dst / 8) (n / 8) (movedRange s.mpoison (src / 8) (n / 8) (dst / 8)) }

/-- The bramble area of a sibling-keeping page moved, four times the page's size, and its pointer rewritten (R269, R270, R390). -/
def moveBramble (s : State) (a : Nat) (f : Leaf) (bramble : Nat) : State :=
  if f.sk then
    let s1 := moveBytes s (f.bramble % 2 ^ 52) bramble (4 * f.size)
    memPut s1 (a + 8 * (if f.size = unitBytes then 512 else 32)) 8 bramble
  else s

/-- A page's bytes copied to a new frame, its leaf rewritten, and, on a sibling-keeping page, every cell moved and advanced and the bramble
area moved; the old frame keeps no cell (R270, R274, R390). -/
def movePage (s : State) (asid : Nat) (f : Leaf) (frame bramble : Nat) : State :=
  let cells := f.size / 8
  let sk := if f.sk then (List.range cells).map (fun j => (frame / 8 + j, cellAdvance (readCell s (f.pa / 8 + j)))) else []
  let s1 := { moveBytes s f.pa frame f.size with
    sk := replaceRange (replaceRange s.sk (f.pa / 8) cells []) (frame / 8) cells sk,
    res := { s.res with redirects := s.res.redirects ++ [⟨f.pa, frame, f.size, none⟩] } }
  let a := pteAddr s asid f.va
  moveBramble (memPut s1 a 8 (memNat s a 8 % 2 ^ 12 + frame)) a f bramble

/-- Whether a unit's pages, or the bramble areas copied with them, hold uncorrectable data. -/
def unitPoisoned (s : State) (ls : List Leaf) : Bool :=
  ls.any (fun f => poisonIn s.mpoison f.pa f.size ||
    (f.sk && poisonIn s.mpoison (f.bramble % 2 ^ 52) (4 * f.size)) ||
    (f.sk && s.sk.any (fun e => decide (f.pa / 8 ≤ e.1) && decide (e.1 < (f.pa + f.size) / 8) && e.2.sibs.any (fun x => x.poison))))

/-- A unit's migration is over: its entry is written, or kept; the hold is released with the entry, at once with ENABLE clear
(R388-R390). -/
def endUnit (s : State) (u : MigUnit) (e : List Byte) : State :=
  let rest := s.res.units.filter (fun v => !(v.asid == u.asid && v.va == u.va))
  let s1 := { s with res := { s.res with units := if notifyOn s then rest ++ [{ u with held := true, done := true }] else rest } }
  let s2 := noteKept s1 u.asid e
  requeue s2 (fun l r => s2.res.units.any (fun v => !v.done && unitMeets v l.asid r))

/-- A unit's migration is aborted for a reason: FAULT 1, POISON 2 (R391). -/
def abortUnit (s : State) (u : MigUnit) (pa reason : Nat) : State := endUnit s u (noteBytes s 3 0 reason 0 0 (pa / 2 ^ 21) 0 u.va)

/-- Whether two runs of bytes share one. -/
def runsMeet (a b : Nat × Nat) : Bool := decide (a.1 < b.1 + b.2) && decide (b.1 < a.1 + a.2)

/-- What a unit's pages occupy: their frames, and the bramble areas of the sibling-keeping ones (R269). -/
def unitAreas (us : List Leaf) : List (Nat × Nat) :=
  us.flatMap (fun f => (f.pa, f.size) :: (if f.sk then [(f.bramble % 2 ^ 52, 4 * f.size)] else []))

/-- Whether `n` bytes may take what a unit moves: in its die's HBM, on no old frame whose entry the host has yet to consume, and on nothing that
the unit occupies (R388, R390). -/
def areaFree (s : State) (u : MigUnit) (us : List Leaf) (a n : Nat) : Bool :=
  decide (a + n ≤ 2 ^ 52) && s.res.redirects.all (fun r => !runsMeet (r.old, r.size) (a, n)) && !(unitAreas us).any (runsMeet (a, n)) &&
    Config.inHbmRun u.die a n

/-- Whether firmware may move a unit to a frame and, of its sibling-keeping pages, to a bramble area: 2 MiB of MAJDIE's HBM, and room there for
each page's area at an aligned address, apart from the frame (R269, R388-R390). -/
def frameFree (s : State) (u : MigUnit) (us : List Leaf) (frame bramble : Nat) : Bool :=
  frame % unitBytes == 0 && areaFree s u us frame unitBytes &&
    us.all (fun f => !f.sk || (bramble % (4 * unitBytes) == 0 && areaFree s u us (bramble + 4 * (f.va - u.va)) (4 * f.size) &&
      !runsMeet (frame, unitBytes) (bramble + 4 * (f.va - u.va), 4 * f.size)))

/-- The line at which a migration's copy met uncorrectable data stays poisoned where it is (R391). -/
def poisonLine (s : State) (ls : List Leaf) (page off : Nat) : State :=
  match ls[page]? with
  | some f =>
    let w := alignDown (f.pa + off % f.size) 128 / 8
    (List.range 16).foldl (fun s j => match tget s.sk (w + j) with
      | some c => putCell s (w + j) { c with sibs := c.sibs.map (fun x => { x with poison := true }) }
      | none => { s with mpoison := markWord s.mpoison (w + j) true }) s
  | none => s

/-- What a migration's copy comes to: aborted at once when it reads uncorrectable data, met before or now. -/
def badCopy (s : State) (ls : List Leaf) (outcome : MigrationOutcome) : Option State :=
  match outcome with
  | .poisoned page off => some (poisonLine s ls page off)
  | _ => if unitPoisoned s ls then some s else none

/-- Whether a copy of these pages may come out so: it can meet uncorrectable data in one of them only. -/
def mayCome (ls : List Leaf) (outcome : MigrationOutcome) : Bool :=
  match outcome with
  | .poisoned page _ => decide (page < ls.length)
  | _ => true

/-- MIGRATION_UNIT (R390, R391): firmware migrates a queued unit that no lease pins to a frame of its choice, with the outcome of
its copy; none once the package has stopped (R398, R405). -/
def execMigrationUnit (asid : Nat) (va : DWord) (place : NewPlace) (outcome : MigrationOutcome) (s : State) : Host.Outcome State Fault Refusal :=
  match s.res.units.find? (fun u => u.asid == asid && u.va == va.toNat && !u.done) with
  | none => .next s
  | some u =>
    match unitLeaves s asid u.va with
    | [] => .next s
    | f :: ls =>
      if feStopped s || unitPinned s (f :: ls) || !mayCome (f :: ls) outcome || !frameFree s u (f :: ls) place.frame.toNat place.bramble.toNat then .next s
      else match badCopy s (f :: ls) outcome with
      | some s1 => .next (abortUnit s1 u f.pa 2)
      | none =>
      if outcome = .faulted then
        if u.tries < 3 then
          .next { s with res := { s.res with units := s.res.units.map (fun v =>
            if v = u then { v with held := true, tries := v.tries + 1 } else v) } }
        else .next (abortUnit s u f.pa 1)
      else
        let s1 := (f :: ls).foldl (fun s g => movePage s asid g (place.frame.toNat + (g.va - u.va)) (place.bramble.toNat + 4 * (g.va - u.va))) s
        .next (endUnit s1 { u with moved := true } (noteBytes s 2 0 0 0 0 (f.pa / 2 ^ 21) (place.frame.toNat / 2 ^ 21) u.va))

end Sys2Proof.Machine
end

