-- ==== Sys2Proof/Machine/Sha.lean ====
section
/-! DEFINITION. SHA-512, the digest of the measured boot log (R396, R397). The manual names the function; its text is FIPS 180-4. -/

namespace Sys2Proof.Machine

/-- The largest r below 2^n with r^k ≤ x, bit by bit. -/
def nthRoot (k x : Nat) : Nat → Nat → Nat
  | 0, r => r
  | n + 1, r => nthRoot k x n (if (r + 2 ^ n) ^ k ≤ x then r + 2 ^ n else r)

/-- The first 80 primes. -/
def primes80 : List Nat := (List.range 410).filter (fun n => decide (2 ≤ n) && (List.range n).all (fun d => decide (d < 2) || n % d != 0))

/-- The first 64 bits of the fractional parts of the cube roots of the first 80 primes. -/
def shaK : List DWord := primes80.map (fun p => BitVec.ofNat 64 (nthRoot 3 (p * 2 ^ 192) 68 0))

/-- The first 64 bits of the fractional parts of the square roots of the first 8 primes. -/
def shaH0 : List DWord := (primes80.take 8).map (fun p => BitVec.ofNat 64 (nthRoot 2 (p * 2 ^ 128) 68 0))

def rotr (x : DWord) (n : Nat) : DWord := x.rotateRight n

/-- The message schedule, newest word first. -/
def shaSchedule : Nat → List DWord → List DWord
  | 0, w => w
  | n + 1, w =>
    let a (i : Nat) : DWord := w.getD i 0
    let s0 := rotr (a 14) 1 ^^^ rotr (a 14) 8 ^^^ (a 14 >>> 7)
    let s1 := rotr (a 1) 19 ^^^ rotr (a 1) 61 ^^^ (a 1 >>> 6)
    shaSchedule n ((a 15 + s0 + a 6 + s1) :: w)

/-- One round. -/
def shaRound (v : List DWord) (kw : DWord × DWord) : List DWord :=
  let x (i : Nat) : DWord := v.getD i 0
  let e := x 4
  let a := x 0
  let t1 := x 7 + (rotr e 14 ^^^ rotr e 18 ^^^ rotr e 41) + ((e &&& x 5) ^^^ (~~~e &&& x 6)) + kw.1 + kw.2
  let t2 := (rotr a 28 ^^^ rotr a 34 ^^^ rotr a 39) + ((a &&& x 1) ^^^ (a &&& x 2) ^^^ (x 1 &&& x 2))
  [t1 + t2, a, x 1, x 2, x 3 + t1, e, x 5, x 6]

/-- A big-endian word of a message. -/
def beWord (bs : List Byte) : DWord := BitVec.ofNat 64 (ofBytes bs.reverse)

/-- One 128-byte block. -/
def shaBlock (h : List DWord) (b : List Byte) : List DWord :=
  let w := shaSchedule 64 (((List.range 16).map (fun i => beWord ((b.drop (8 * i)).take 8))).reverse)
  (h.zip ((shaK.zip w.reverse).foldl shaRound h)).map (fun p => p.1 + p.2)

/-- SHA-512 of a message. -/
def sha512 (msg : List Byte) : List Byte :=
  let n := msg.length
  let k := (128 - (n + 17) % 128) % 128
  let m := msg ++ [0x80] ++ List.replicate k 0 ++ (bytesOf 16 (8 * n)).reverse
  ((List.range (m.length / 128)).foldl (fun h i => shaBlock h ((m.drop (128 * i)).take 128)) shaH0).flatMap
    (fun w => (bytesOf 8 w.toNat).reverse)

end Sys2Proof.Machine
end

