-- ==== Sys2Proof/Machine/SystemEvents.lean ====
section
/-! DEFINITION. The I/O die as system software sees it: boot, attestation, lock-step, host accesses, freezing, power, ports, errors,
and the event ring as the host drives it (R396-R410). -/

namespace Sys2Proof.Machine

/-! ## Host accesses (R390, R399, R403, R409) -/

/-- The start and length of an access to memory. -/
def accessRange : HostAccess → Nat × Nat
  | .read pa n => (pa, n)
  | .write pa bs => (pa, bs.length)
  | .bar0 _ _ => (0, 0)

/-- Where an address leads through at most `n` of the redirected frames. -/
def throughFrames (rs : List Redirect) : Nat → Nat → Nat
  | 0, pa => pa
  | n + 1, pa =>
    match rs.find? (fun r => decide (r.old ≤ pa) && decide (pa < r.old + r.size)) with
    | some r => throughFrames rs n (pa - r.old + r.new)
    | none => pa

/-- Where an access of the host goes: an old frame's accesses go to the new one, and on from there if that has moved too (R390). -/
def redirected (s : State) (pa : Nat) : Nat := throughFrames s.res.redirects s.res.redirects.length pa

/-- Whether an access meets the old frame of a unit whose hold is taken and whose pages have not moved: it stalls (R390). -/
def accessHeld (s : State) (a : HostAccess) : Bool :=
  let r := accessRange a
  s.res.units.any (fun u => u.held && !u.moved && (unitLeaves s u.asid u.va).any (fun f =>
    (List.range r.2).any (fun j => decide (f.pa ≤ redirected s (r.1 + j)) && decide (redirected s (r.1 + j) < f.pa + f.size))))

/-- An access cut at 8-byte words, each where it goes. -/
def hostPieces (s : State) (pa : Nat) (bs : List Byte) : List (Nat × List PByte) :=
  (chunks pa (clean bs)).map (fun c => (redirected s c.1, c.2))

/-- What a read returns to the host: each byte where it lies now, poison with it; of a sibling-keeping cell sibling 0 (R390, R409). -/
def hostRead (s : State) (pa n : Nat) : State :=
  { s with hostData := (List.range n).map (fun j =>
      let a := redirected s (pa + j)
      (memByte s a, mget false s.mpoison (a / 8))) }

/-- The information block (R400). -/
def infoBytes (s : State) : List Byte :=
  let i := s.info
  bytesOf 4 1 ++ bytesOf 1 i.bootstate.toNat ++ bytesOf 1 i.podstate.toNat ++ bytesOf 2 i.pkgnum.toNat ++ bytesOf 8 i.qtbase.toNat ++
    bytesOf 8 i.asidtab.toNat ++ bytesOf 8 i.nqhdr.toNat ++ bytesOf 8 i.evhdr.toNat ++ bytesOf 8 s.pt.toNat ++ bytesOf 4 i.pwrlim.toNat ++
    bytesOf 4 i.pwr.toNat ++ bytesOf 2 i.tjmax.toNat ++ bytesOf 2 i.clkmhz.toNat ++ bytesOf 4 0 ++ bytesOf 8 i.corrected.toNat ++
    padTo 32 i.attnonce ++ bytesOf 4 i.attctl.toNat ++ bytesOf 4 0 ++ bytesOf 8 i.attreport.toNat ++ bytesOf 8 i.logaddr.toNat ++
    bytesOf 8 i.porttab.toNat

/-- A read of physical function 0's BAR 0: the information block, and zeros past it (R399, R400). It stays exposed when boot has failed
(R396). -/
def barRead (s : State) (fn off n : Nat) : State :=
  if fn = 0 ∧ !s.frozenFns.contains fn ∧ off + n ≤ 65536 then { s with hostData := clean ((List.range n).map (fun j => (infoBytes s).getD (off + j) 0)) }
  else s

/-- One cell of a host write to a sibling-keeping page (R409). Its event record names the function in SRC and the cell's address in ARG0 (DESIGN
CHOICE, log 106). -/
def hostCell (fn : Nat) (s : State) (c : Nat × List PByte) : State :=
  let r := writeSk s c.1 c.2
  if r.2 = seenFAULT then raiseEvent s (eventNow s cTYPE 4 0 fn (alignDown c.1 8) 0)
  else if r.2 = seenOVERFLOW then raiseEvent s (eventNow s 0x46 4 0 fn (alignDown c.1 8) 0)
  else r.1

/-- HOST_CXL_MEM_ACCESS (R399): a read returns what lies there; a write is performed, at the new frame of a migrated page (R390), and on a
page with SK cell by cell (R409). -/
def execHostCxlMemAccess (fn : Nat) (access : HostAccess) (s : State) : Host.Outcome State Fault Refusal :=
  match access with
  | .bar0 off n => .next (barRead s fn off n)
  | .read pa n => .next (if !hostMay s fn || accessHeld s access then s else hostRead s pa n)
  | .write pa bs => .next (if !hostMay s fn || accessHeld s access then s
      else (hostPieces s pa bs).foldl (fun m c => if skAt s c.1 then hostCell fn m c else writePlain m c.1 c.2) s)

/-- HOST_SK_ACCESS (R409): an access to a page that has SK. -/
def execHostSkAccess (fn : Nat) (access : HostAccess) (s : State) : Host.Outcome State Fault Refusal :=
  if !hostMay s fn || accessHeld s access then .next s
  else match access with
    | .read pa n => .next (hostRead s pa n)
    | .write pa bs => .next ((hostPieces s pa bs).foldl (hostCell fn) s)
    | .bar0 _ _ => .next s

/-- HOST_FUNCTION_FREEZE (R403). -/
def execHostFunctionFreeze (fn : Nat) (addr : DWord) (s : State) : Host.Outcome State Fault Refusal :=
  .next (freezeFn s fn addr.toNat)

/-- FUNCTION_LEVEL_RESET (R403). -/
def execFunctionLevelReset (fn : Nat) (s : State) : Host.Outcome State Fault Refusal :=
  .next { s with frozenFns := s.frozenFns.filter (fun x => x != fn) }

/-! ## Boot (R10, R33, R348, R396) -/

/-- Bytes of the queue descriptor table (R346). -/
def qtBytes : Nat := 128 * Config.queues

/-- The package after I/O-die reset with its memory as it was, before boot: only the model's own counters go on. -/
def afterReset (s : State) : State :=
  { State.reset with mem := s.mem, mpoison := s.mpoison, sk := s.sk, agenda := s.agenda, opNo := s.opNo }

/-- The descriptor table written as zero (R348). -/
def zeroTable (s : State) (qt : Nat) : State :=
  { s with
    mem := replaceRange s.mem qt qtBytes [], mpoison := replaceRange s.mpoison (qt / 8) (qtBytes / 8) [],
    sk := replaceRange s.sk (qt / 8) (qtBytes / 8) [] }

/-- Every core as boot leaves it: the counts of their clocks are not aligned, since cores need not leave reset at one clock (R220). -/
def allCores (clocks : List DWord) : Tbl Core :=
  (List.range Config.cores).map (fun n => (n, { Core.init with clk := clocks.getD n 0, ticked := clocks.getD n 0 }))

/-- Whether an image passes its check. -/
def imageOk (i : BootImage) : Bool := i.digestOk && i.signatureOk

/-- An image's entry of the measured boot log: number, version, 24 reserved bytes, digest. -/
def logEntry (i : BootImage) : List Byte := bytesOf 4 i.number.toNat ++ bytesOf 4 i.version.toNat ++ List.replicate 24 0 ++ padTo 64 i.digest

/-- The images in the order in which they are loaded (R396). -/
def bootImages (c : BootChoice) : List BootImage := [c.lockstepImage, c.workerImage, c.staithImage]

/-- The measured boot log: an entry for each image that is run, up to the first that fails its check. -/
def bootLog (c : BootChoice) : List Byte := ((bootImages c).takeWhile imageOk).flatMap logEntry

/-- Whether firmware may choose so: the queue table at a multiple of its size, whole in HBM on die 0 (R346), an aligned context pool, a remap table
of package cores (R376), a package number below 1,024 (R400), a drain budget of 1 µs to 10 ms (R365), a stall period of 1 µs to 1 s (R323). -/
def choiceOk (c : BootChoice) : Bool :=
  c.qtbase.toNat % qtBytes == 0 && Config.inHbmRun 0 c.qtbase.toNat qtBytes && c.poolBase.toNat % 64 == 0 &&
    decide (c.remap.length ≤ Config.cores) && c.remap.all (fun n => decide (n < Config.cores)) &&
    decide (c.pkgnum.toNat < 1024) && decide (1 ≤ c.drainBudget) && decide (c.drainBudget ≤ 10000) && decide (1 ≤ c.stallUs) && decide (c.stallUs ≤ 1000000)

/-- The far end as the port table holds it: SWITCH with [11:0] zero, or package and die. -/
def farBits (farEnd : DWord) : Nat := if farEnd.toNat.testBit 14 then 2 ^ 14 else farEnd.toNat % 2 ^ 12

/-- A port after its training: trained, its far end is in the port table with UP, and it is in the active set; else it leaves the set, and a
source that was its far end is excluded with a DISCARD record (R321, R324, R404, R410). -/
def trainPort (s : State) (port : Nat) (trained : Bool) (farEnd : DWord) : State :=
  if trained then
    let s1 := memPut s (portAddr s port) 8 (2 ^ 15 + farBits farEnd)
    let act := if s1.coll.active.contains port then s1.coll.active else s1.coll.active ++ [port]
    { s1 with coll := { s1.coll with active := act } }
  else
    let e := memNat s (portAddr s port) 8
    let s1 := memPut s (portAddr s port) 8 (farBits farEnd)
    let s2 := { s1 with coll := { s1.coll with active := s1.coll.active.filter (fun p => p != port) } }
    if e.testBit 15 && !e.testBit 14 then exclude s2 port (e % 2 ^ 12) else s2

/-- The first training of the 16 ports, their table entries written anew. -/
def trainPorts (s : State) (ports : List (Option DWord)) : State :=
  (List.range 16).foldl (fun s p => match ports.getD p none with
    | some far => trainPort s p true far
    | none => trainPort (memPut s (portAddr s p) 8 0) p false 0) s

/-- The tables and settings of firmware's choice. -/
def bootTables (s : State) (c : BootChoice) : State :=
  { s with
    cores := allCores c.clocks,
    coll := { s.coll with stallTicks := c.stallUs * Config.ticksPerUs },
    fe := { s.fe with
      poolBase := c.poolBase.toNat, poolSize := c.poolSize, drainBudget := c.drainBudget, remap := (List.range c.remap.length).zip c.remap,
      fnPages := c.fnPages.foldl (fun t p => tput t p.1 p.2) [] },
    info := { s.info with
      pkgnum := c.pkgnum, qtbase := c.qtbase, asidtab := c.asidtab, nqhdr := c.nqhdr, evhdr := c.evhdr, attreport := c.attreport,
      logaddr := c.logaddr, porttab := c.porttab, bootlog := bootLog c } }

/-- IO_DIE_RESET (R396): the boot chain with firmware's choice of its tables; an image that fails its check stops it. The links are trained,
and READY comes last. A page that the new tables make sibling-keeping and the old ones did not starts anew (R270). -/
def execIoDieReset (choice : BootChoice) (s : State) : Host.Outcome State Fault Refusal :=
  let s1 := afterReset s
  if !(bootImages choice).all imageOk then .next { s1 with info := { s1.info with bootstate := 2, bootlog := bootLog choice } }
  else if !choiceOk choice then .next s
  else
    let s2 := memWrite (zeroTable s1 choice.qtbase.toNat) choice.logaddr.toNat (bootLog choice)
    let s3 := trainPorts (bootTables s2 choice) choice.ports
    .next { s3 with sk := keptCells s s3, info := { s3.info with bootstate := 1 } }

/-! ## Attestation, the information block, lock-step (R397, R398, R400) -/

/-- What an attestation report says (R397): nonce, digest of the log, the log, PKGNUM. -/
def attested (s : State) : List Byte :=
  padTo 32 s.info.attnonce ++ sha512 s.info.bootlog ++ s.info.bootlog ++ bytesOf 2 s.info.pkgnum.toNat

/-- An attestation report: what it says, and the identity key's signature over all of it (log 21). -/
def attestation (s : State) : List Byte := attested s ++ padTo 64 (Config.identitySign (attested s))

/-- Whether a function may write the information block: physical function 0, not frozen (R399, R403). -/
def mayInfo (s : State) (fn : Nat) : Bool := fn == 0 && !s.frozenFns.contains fn

/-- ATTESTATION_REQUEST (R397): the host writes 1 to ATTCTL; in answer firmware writes the report for the nonce as it stands then, and
ATTCTL 2. A request before the answer leaves one request for the latest nonce. -/
def execAttestationRequest (half : Attestation) (s : State) : Host.Outcome State Fault Refusal :=
  if s.info.bootstate ≠ 1 then .next s
  else match half with
    | .request fn => .next (if mayInfo s fn then { s with info := { s.info with attctl := 1 } } else s)
    | .answer =>
      if s.info.attctl ≠ 1 then .next s
      else
        let s1 := memWrite s s.info.attreport.toNat (attestation s)
        .next { s1 with info := { s1.info with attctl := 2 } }

/-- One byte written to ATTNONCE. -/
def nonceByte (off : Nat) (nonce : List Byte) (p : Nat × Byte) : List Byte :=
  if 0x48 ≤ off + p.1 ∧ off + p.1 < 0x68 then setAt nonce (off + p.1 - 0x48) p.2 else nonce

/-- A limit written to PWRLIM: one outside 500-2,000 W is ignored. -/
def limitOr (old limit : BitVec 32) : BitVec 32 := if 500 ≤ limit.toNat ∧ limit.toNat ≤ 2000 then limit else old

/-- The 4-byte field of the block at an offset after a write, when the write covers it whole. -/
def wordOr (old : BitVec 32) (at0 off : Nat) (bytes : List Byte) : BitVec 32 :=
  if off ≤ at0 ∧ at0 + 4 ≤ off + bytes.length then BitVec.ofNat 32 (ofBytes ((bytes.drop (at0 - off)).take 4)) else old

/-- INFO_BLOCK_WRITE (R400): ATTNONCE takes its bytes, PWRLIM and ATTCTL a whole word, a write of part of one ignored (DESIGN CHOICE, log
103); fields of the front end ignore a write. -/
def execInfoBlockWrite (place : InfoPlace) (bytes : List Byte) (s : State) : Host.Outcome State Fault Refusal :=
  let off := place.off
  let nonce := ((List.range bytes.length).zip bytes).foldl (nonceByte off) (padTo 32 s.info.attnonce)
  .next (if mayInfo s place.fn then { s with info := { s.info with
      attnonce := nonce, pwrlim := limitOr s.info.pwrlim (wordOr s.info.pwrlim 0x30 off bytes),
      attctl := wordOr s.info.attctl 0x68 off bytes } } else s)

/-- A fault that belongs to no group. -/
def noGroup (cause : Nat) : FaultInfo :=
  { cause := cause, exited := false, status := 0, core := 0, slot := 0, lane := 255, x := 0, y := 0, z := 0, pc := 0, addr := 0,
    tag := 0 }

/-- The launches that have not ended. -/
def liveLaunches (s : State) : List Nat := (s.launches.filter (fun p => p.2.status != .ended)).map (fun p => p.1)

/-- LOCKSTEP (R398). -/
def execLockstep (s : State) : Host.Outcome State Fault Refusal :=
  let s1 := { s with fe := { s.fe with stopped := true } }
  let s2 := (liveLaunches s).foldl (fun s lid => haltLaunch (recordFault s lid (noGroup Config.lockstepCause.toNat)) lid) s1
  .next (raiseEvent s2 (eventNow s 0x40 5 0 0 0 0))

/-- FIRMWARE_LAUNCH_HALT (R323): firmware halts a launch for a watermark stall. -/
def execFirmwareLaunchHalt (launch : Nat) (s : State) : Host.Outcome State Fault Refusal :=
  match tget s.launches launch with
  | some l => .next (if l.status = .running then faultAndHalt s launch (noGroup cSTALL) 5 0 0 else s)
  | none => .next s

/-! ## Power and temperature (R405, R406) -/

/-- PWRLIM_WRITE: a limit outside 500-2,000 W is ignored. -/
def execPwrlimWrite (write : LimitWrite) (s : State) : Host.Outcome State Fault Refusal :=
  .next (if mayInfo s write.fn then { s with info := { s.info with pwrlim := limitOr s.info.pwrlim write.limit } } else s)

/-- The lowest arithmetic clock, in MHz. -/
def clkMin : BitVec 16 := 1000

/-- The clock after one step down. -/
def clkDown (clk : BitVec 16) : BitVec 16 := if clk.toNat < 1100 then clkMin else clk - 100

/-- An arithmetic clock: a multiple of 100 MHz from 1.0 to 2.5 GHz (R4, R405, log 24). -/
def clkStep (clk : BitVec 16) : BitVec 16 :=
  if clk.toNat < 1000 then clkMin else if 2500 ≤ clk.toNat then 2500 else BitVec.ofNat 16 (clk.toNat / 100 * 100)

/-- A junction's temperature in 0.125 °C, as it is met (R405). Above 100 °C the clock falls to its minimum with a record; above 110 °C every
launch halts and the package stops. -/
def junction (s : State) (tj : BitVec 16) : State :=
  let s1 := { s with info := { s.info with tjmax := tj } }
  if tj.toNat ≤ 800 then s1
  else
    let s2 := raiseEvent { s1 with info := { s1.info with clkmhz := clkMin } } (eventNow s 0x44 5 0 0 tj.toNat 0)
    if tj.toNat ≤ 880 then s2
    else (liveLaunches s2).foldl haltLaunch { s2 with fe := { s2.fe with stopped := true } }

/-- TELEMETRY_REFRESH (R405, R406): above PWRLIM the clock is a step lower, else as firmware sets it; TJMAX does what a junction at it does. -/
def execTelemetryRefresh (pwr : BitVec 32) (tjmax clk : BitVec 16) (s : State) : Host.Outcome State Fault Refusal :=
  let c := if s.info.pwrlim.toNat < pwr.toNat then clkDown s.info.clkmhz else clkStep clk
  .next (junction { s with info := { s.info with pwr := pwr, clkmhz := c } } tjmax)

/-- THERMAL (R405): a junction's temperature. -/
def execThermal (tj : BitVec 16) (s : State) : Host.Outcome State Fault Refusal := .next (junction s tj)

/-! ## Ports (R321, R324, R404, R410) -/

/-- LINK_TRAINING (R404, R410): the delivery points' watermarks are as the active set then has them (R323); a package whose boot has failed trains no
port (R396). -/
def execLinkTraining (port : Nat) (trained : Bool) (farEnd : DWord) (s : State) : Host.Outcome State Fault Refusal :=
  .next (if 16 ≤ port ∨ s.info.bootstate = 2 then s else noteAll (trainPort s port trained farEnd))

/-! ## Errors (R407, R408) -/

/-- ECC_CORRECTED: CORRECTED grows; more than 1,000 in one second write one record, which names the line (R401, R407). -/
def execEccCorrected (errors : Corrections) (s : State) : Host.Outcome State Fault Refusal :=
  let second := 1000000 * Config.ticksPerUs
  let new := decide (s.info.eccSince.toNat + second ≤ s.pt.toNat)
  let before := if new then 0 else s.info.eccWindow
  let n := errors.n
  let s1 := { s with info := { s.info with
    corrected := s.info.corrected + BitVec.ofNat 64 n, eccWindow := before + n, eccSince := if new then s.pt else s.info.eccSince } }
  .next (if before ≤ 1000 ∧ 1000 < before + n then raiseEvent s1 (eventNow s 0x43 6 0 (alignDown errors.pa 128) 0 0) else s1)

/-- A cell with every sibling poisoned; with its version data lost, in a generation that no earlier token names (R408): the next but one, with
CTR and PMAX 0 (DESIGN CHOICE, log 101). -/
def cellPoison (c : SkCell) (versionLost : Bool) : SkCell :=
  let sibs := c.sibs.map (fun x => { x with poison := true })
  if versionLost then { g := c.g + 2, ctr := 0, pmax := 0, sibs := sibs.map (fun x => { x with g := c.g + 1, s := 0 }) }
  else { c with sibs := sibs }

/-- The queue that has a byte of memory in its descriptor, when it is active. -/
def descriptorQueue (s : State) (pa : Nat) : Option Nat :=
  let q := (pa - s.info.qtbase.toNat) / 128
  if s.info.bootstate = 1 ∧ s.info.qtbase.toNat ≤ pa ∧ q < Config.queues ∧ (qDesc s q).active then some q else none

/-- A queue's descriptor has an uncorrectable error: an active queue faults (R359, R407). -/
def descriptorLost (s : State) (q : Nat) : State :=
  let s1 := lookQueue s q
  if (getQ s1 q).known && (getQ s1 q).qstate != 3 then queueFault s1 q qPOISON (qAddr s q) else s

/-- ECC_UNCORRECTABLE (R407, R408). -/
def execEccUncorrectable (target : EccTarget) (s : State) : Host.Outcome State Fault Refusal :=
  match target with
  | .mem pa =>
    match tget s.sk (pa / 8) with
    | some c => .next (putCell s (pa / 8) (cellPoison c false))
    | none =>
      let s1 := match descriptorQueue s pa with
        | some q => descriptorLost s q
        | none => s
      .next { s1 with mpoison := markWord s1.mpoison (pa / 8) true }
  | .scratch launch wg off =>
    match tget s.wgs (wgKey launch wg), tget s.launches launch with
    | some w, some l =>
      .next (if off < l.kern.scratch then putWg s (wgKey launch wg) { w with spoison := markWord w.spoison (off / 8) true } else s)
    | _, _ => .next s
  | .tile group off =>
    match groupCtx s group (.nop {}) with
    | some c =>
      .next (if off < c.l.kern.tilebytes then
        putGroup s group { c.g with tpoison := msetRun false c.g.tpoison (alignDown off 8) (List.replicate 8 true) } else s)
    | none => .next s
  | .skCell pa versionLost => .next (putCell s (pa / 8) (cellPoison (readCell s (pa / 8)) versionLost))
  | .groupState group =>
    match groupCtx s group (.nop {}) with
    | some c => .next (faultAndHalt s c.g.launch (groupFault s c cUNCORR 0 255 c.g.pc 0) 0 0 0)
    | none => .next s
  | .queueState q => .next (if q < Config.queues ∧ s.info.bootstate ≠ 2 then descriptorLost s q else s)

/-- SCRUBBING (R406): no value changes. -/
def execScrubbing (_pa : Nat) (s : State) : Host.Outcome State Fault Refusal := .next s

/-- HBM_ROW_REPAIR (R406): no value changes. -/
def execHbmRowRepair (_pa : Nat) (s : State) : Host.Outcome State Fault Refusal := .next s

/-! ## The event ring (R402) -/

/-- EVENT_RECORD: the arbiter receives a record that its source makes now (R35, R401). -/
def execEventRecord (r : EventRec) (s : State) : Host.Outcome State Fault Refusal := .next (raiseEvent s { r with pt := s.pt })

/-- EVENT_RING_ROOM: the host has consumed records; held ones are written in their order. -/
def execEventRingRoom (rdidx : BitVec 32) (s : State) : Host.Outcome State Fault Refusal :=
  let s1 := memPut s (s.info.evhdr.toNat + 20) 4 rdidx.toNat
  .next (if s.info.bootstate = 2 then s else drainEvents s1.evHeld.length s1)

end Sys2Proof.Machine
end

