-- ==== Sys2Proof/Machine/TileData.lean ====
section
/-! DEFINITION. Tiles: their controls, their bytes, and the arithmetic of the tile engine on exact values (R286-R288, R297-R307,
R309). -/

namespace Sys2Proof.Machine

/-! ## Tile controls (R286, R287) -/

def tAlloc (d : DWord) : Bool := d.getLsbD 63
def tFmt (d : DWord) : Nat := bits d 0 4
def tRows (d : DWord) : Nat := bits d 4 7
def tRowb (d : DWord) : Nat := bits d 11 10
def tOff (d : DWord) : Nat := bits d 21 19
def tGs (d : DWord) : Nat := bits d 40 2
def tSf (d : DWord) : Nat := bits d 42 1

/-- Whether a format holds weights: W4 or W3. -/
def isWeight (fmt : Nat) : Bool := fmt == 3 || fmt == 4

/-- The weight group size (R286). -/
def tGroup (d : DWord) : Nat := 32 * 2 ^ tGs d

/-- Bytes of a scale. -/
def tScale (d : DWord) : Nat := if tSf d = 1 then 4 else 2

/-- Bytes of an element of a format that is no weight format. -/
def fmtBytes (fmt : Nat) : Nat := if fmt = 0 then 2 else if fmt = 6 ∨ fmt = 7 then 4 else if fmt = 8 then 16 else 1

/-- Elements per row (R287). -/
def tElems (d : DWord) : Nat :=
  if tFmt d = 3 then 2 * tRowb d else if tFmt d = 4 then 10 * tRowb d / 4 else tRowb d / fmtBytes (tFmt d)

/-- Scales of a weight tile, in bytes. -/
def tScaleBytes (d : DWord) : Nat := if isWeight (tFmt d) then tRows d * (tElems d / tGroup d) * tScale d else 0

/-- Bytes occupied (R287). -/
def tBytes (d : DWord) : Nat := tRows d * tRowb d + tScaleBytes d

/-- Whether two tiles share a byte. -/
def tOverlap (a b : DWord) : Bool := decide (tOff a < tOff b + tBytes b) && decide (tOff b < tOff a + tBytes a)

/-- Whether a control value describes a sound tile (R286, R287). -/
def tSound (d : DWord) : Bool :=
  bits d 43 20 == 0 && decide (tFmt d ≤ 8) && decide (1 ≤ tRows d) && decide (tRows d ≤ 64) &&
    decide (4 ≤ tRowb d) && decide (tRowb d ≤ 512) && tRowb d % 4 == 0 && tOff d % 64 == 0 &&
    (if isWeight (tFmt d) then tGs d != 3 && tElems d % tGroup d == 0 else tGs d == 0 && tSf d == 0) &&
    (tFmt d != 8 || tRowb d % 16 == 0) && decide (tBytes d ≤ 32768)

/-! ## Bytes of tiles (R288, R309) -/

/-- Bytes of a group's tile allocation with their poison marks. -/
def tileGet (g : Group) (a n : Nat) : List PByte :=
  (List.range n).map (fun j => (mget 0 g.tiles (a + j), mget false g.tpoison (a + j)))

/-- Writing bytes of the tile allocation with their marks. -/
def tilePut (g : Group) (a : Nat) (bs : List PByte) : Group :=
  { g with tiles := msetRun 0 g.tiles a (bs.map (fun b => b.1)),
           tpoison := msetRun false g.tpoison a (bs.map (fun b => b.2)) }

/-- Whether some byte is poisoned. -/
def anyBad (bs : List PByte) : Bool := bs.any (fun b => b.2)

/-- Bytes as a little-endian number. -/
def numOf (bs : List PByte) : Nat := ofBytes (bs.map (fun b => b.1))

/-- An element of `n` bytes with one mark. -/
def elemBytesP (n v : Nat) (bad : Bool) : List PByte := (bytesOf n v).map (fun b => (b, bad))

/-- Element e of row r of a tile: its bits and whether it is poisoned. -/
def tileElem (g : Group) (d : DWord) (r e : Nat) : Nat × Bool :=
  let w := fmtBytes (tFmt d)
  let bs := tileGet g (tOff d + r * tRowb d + e * w) w
  (numOf bs, anyBad bs)

/-- A tile written element by element. -/
def tileFill (g : Group) (d : DWord) (f : Nat → Nat → Nat × Bool) : Group :=
  let w := fmtBytes (tFmt d)
  tilePut g (tOff d) ((List.range (tRows d)).flatMap (fun r =>
    (List.range (tElems d)).flatMap (fun e => let x := f r e; elemBytesP w x.1 x.2)))

/-! ## Weights (R127, R288) -/

/-- A code of `w` bits as a weight; the reserved code is 0. -/
def codeVal (w c : Nat) : Int := if c = 2 ^ (w - 1) then 0 else sextI w c

/-- Weight k of row n, and whether its storage is poisoned. -/
def tileWeight (g : Group) (d : DWord) (n k : Nat) : Int × Bool :=
  let row := tOff d + n * tRowb d
  if tFmt d = 3 then
    let b := tileGet g (row + k / 2) 1
    (codeVal 4 (numOf b / 2 ^ (4 * (k % 2)) % 16), anyBad b)
  else
    let b := tileGet g (row + k / 10 * 4) 4
    (codeVal 3 (numOf b / 2 ^ (3 * (k % 10)) % 8), anyBad b)

/-- The scale of row n, group j. -/
def tileScale (g : Group) (d : DWord) (n j : Nat) : FVal × Bool :=
  let b := tileGet g (tOff d + tRows d * tRowb d + (n * (tElems d / tGroup d) + j) * tScale d) (tScale d)
  (decodeF (if tSf d = 1 then f32 else bf16) (numOf b), anyBad b)

/-- A byte of W4 codes with reserved codes replaced. -/
def cleanW4 (b : Nat) : Nat :=
  (if b % 16 = 8 then 0 else b % 16) + 16 * (if b / 16 = 8 then 0 else b / 16)

/-- A word of W3 codes with reserved codes replaced and bits [31:30] clear. -/
def cleanW3 (w : Nat) : Nat :=
  ((List.range 10).map (fun k => let c := w / 2 ^ (3 * k) % 8; (if c = 4 then 0 else c) * 2 ^ (3 * k))).foldl (· + ·) 0

/-- The code rows TLDW keeps: cleaned bytes with their marks, and whether anything was replaced or cleared. -/
def cleanCodes (fmt : Nat) : List PByte → List PByte × Bool
  | a :: b :: c :: d :: t =>
    let r := cleanCodes fmt t
    let x := [a, b, c, d]
    let old := numOf x
    let new := if fmt = 3 then ofBytes (x.map (fun y => BitVec.ofNat 8 (cleanW4 y.1.toNat))) else cleanW3 old
    (List.zipWith (fun v y => (v, y.2)) (bytesOf 4 new) x ++ r.1, r.2 || new != old)
  | t => (t, false)

/-! ## Flags (R294) -/

/-- Flags of TFLAGS raised by a rounding: NX, UF, OF in bits 0-2 and IV in bit 3. -/
def tflagsOf (f : Flags) : Nat := f.toNat % 8 + (if f.getLsbD 4 then 8 else 0)

def tflRC : Nat := 16
def tflWRAP : Nat := 32

/-! ## TMMA (R303-R305) -/

/-- A dyadic value truncated to a multiple of 2^u: the multiple and whether bits were dropped. -/
def truncTo (u : Int) (m : Nat) (ex : Int) : Nat × Bool :=
  if u ≤ ex then (m * 2 ^ (ex - u).toNat, false)
  else
    let d := (u - ex).toNat
    (m / 2 ^ d, m % 2 ^ d != 0)

/-- The exponent E with 2^E ≤ |p| < 2^(E+1) of the largest magnitude, none when every product is zero. -/
def maxExp (ps : List FVal) : Option Int :=
  ps.foldl (fun e p => match p with
    | .fin _ m ex =>
      if m = 0 then e
      else
        let x := ex + (bitLen m : Int) - 1
        match e with
        | none => some x
        | some y => some (max x y)
    | _ => e) none

/-- The sum of a block's products, each truncated to the block's unit: the value and whether a term changed (R303). -/
def blockSum (ps : List FVal) : FVal × Bool :=
  if ps.any FVal.isNaN then (.nan false, false)
  else
    let pos := ps.any (fun p => p == .inf false)
    let neg := ps.any (fun p => p == .inf true)
    if pos && neg then (.nan false, false)
    else if pos then (.inf false, false)
    else if neg then (.inf true, false)
    else match maxExp ps with
      | none => (.fin false 0 0, false)
      | some e =>
        let u := e - 40
        let r := ps.foldl (fun (acc : Int × Bool) p => match p with
          | .fin n m ex =>
            let t := truncTo u m ex
            (acc.1 + (if n then -(t.1 : Int) else t.1), acc.2 || t.2)
          | _ => acc) ((0 : Int), false)
        (.fin (decide (r.1 < 0)) r.1.natAbs u, r.2)

/-- Whether a value is a finite zero. -/
def isZeroF : FVal → Bool
  | .fin _ m _ => m == 0
  | _ => false

/-- One block added into c: new bits and TFLAGS raised (R303). -/
def addBlock (c : Nat) (v : FVal) : Nat × Nat :=
  if v.isNaN then (canonNaN f32, 8)
  else if isZeroF v then (c, 0)
  else
    let r := addF f32 .rne false (decodeF f32 c) v
    (r.1, tflagsOf r.2)

/-- Element k of row m of A, as a value (R301). -/
def mmaA (g : Group) (a : DWord) (m k : Nat) : FVal × Bool :=
  let x := tileElem g a m k
  (decodeF (if tFmt a = 0 then bf16 else if tFmt a = 1 then e4m3 else e5m2) x.1, x.2)

/-- Element k of column n of B, as a value. -/
def mmaB (g : Group) (b : DWord) (n k : Nat) : FVal × Bool :=
  if isWeight (tFmt b) then
    let w := tileWeight g b n k
    (.fin (decide (w.1 < 0)) w.1.natAbs 0, w.2)
  else
    let x := tileElem g b n k
    (decodeF bf16 x.1, x.2)

/-- The block length L. -/
def mmaBlock (b : DWord) : Nat := if isWeight (tFmt b) then tGroup b else 32

/-- One element of C in a floating-point mode: bits, TFLAGS, poison. -/
def mmaFloat (g : Group) (a b : DWord) (c0 : Nat × Bool) (m n : Nat) : (Nat × Bool) × Nat :=
  let kk := tElems a
  let l := mmaBlock b
  let weight := isWeight (tFmt b)
  (List.range ((kk + l - 1) / l)).foldl
    (fun acc j =>
      let ks := (List.range (min l (kk - j * l))).map (fun i => j * l + i)
      let xs := ks.map (fun k => (mmaA g a m k, mmaB g b n k))
      let s := blockSum (xs.map (fun x => (mulExact x.1.1 x.2.1).1))
      let sc := if weight then tileScale g b n j else (.fin false 1 0, false)
      let v := if weight then (mulExact s.1 sc.1).1 else s.1
      let r := addBlock acc.1.1 v
      ((r.1, acc.1.2 || sc.2 || xs.any (fun x => x.1.2 || x.2.2)), acc.2 ||| r.2 ||| (if s.2 then tflRC else 0)))
    (c0, 0)

/-- One element of C in the I8 mode (R305). -/
def mmaInt (g : Group) (a b : DWord) (c0 : Nat × Bool) (m n : Nat) : (Nat × Bool) × Nat :=
  let r := (List.range (tElems a)).foldl
    (fun (acc : Int × Bool) k =>
      let x := tileElem g a m k
      let y := tileElem g b n k
      (acc.1 + sextI 8 x.1 * sextI 8 y.1, acc.2 || x.2 || y.2)) (sextI 32 c0.1, c0.2)
  (((r.1 % 2 ^ 32).toNat, r.2), if r.1 < -(2 ^ 31) ∨ 2 ^ 31 ≤ r.1 then tflWRAP else 0)

/-- A tile computed element by element, with the flags of every element. -/
def tileCompute (g : Group) (d : DWord) (f : Nat → Nat → (Nat × Bool) × Nat) : Group × Nat :=
  let w := fmtBytes (tFmt d)
  let es := (List.range (tRows d)).flatMap (fun r => (List.range (tElems d)).map (fun e => f r e))
  (tilePut g (tOff d) (es.flatMap (fun x => elemBytesP w x.1.1 x.1.2)), es.foldl (fun a x => a ||| x.2) 0)

/-- TMMA (R303, R305). -/
def mmaTile (g : Group) (d a b : DWord) (zero : Bool) : Group × Nat :=
  tileCompute g d (fun m n =>
    let c0 := if zero then (0, false) else tileElem g d m n
    if tFmt d = 7 then mmaInt g a b c0 m n else mmaFloat g a b c0 m n)

/-! ## TMOV, TADD, TCOMB, TCVT (R297, R298, R306, R307) -/

/-- TMOV: bytes copied, or elements converted; `sat` is PAL.FP8SAT at issue. -/
def movTile (g : Group) (d a : DWord) (sat : Bool) : Group × Nat :=
  if tFmt d = tFmt a then (tilePut g (tOff d) (tileGet g (tOff a) (tBytes a)), 0)
  else tileCompute g d (fun r e =>
    let x := tileElem g a r e
    let v := if tFmt a = 7 then cvtIF f32 .rne false (sextI 32 x.1)
      else cvtFF f32 (if tFmt d = 0 then bf16 else if tFmt d = 1 then e4m3 else e5m2) .rne sat x.1
    ((v.1, x.2), tflagsOf v.2))

/-- A sum that wraps within `w` bits. -/
def wrapSum (w : Nat) (x : Int) : Nat × Nat :=
  ((x % (2 ^ w : Nat)).toNat, if x < -(2 ^ (w - 1)) ∨ 2 ^ (w - 1) ≤ x then tflWRAP else 0)

/-- TADD. -/
def addTile (g : Group) (d a b : DWord) : Group × Nat :=
  tileCompute g d (fun r e =>
    let x := tileElem g a r e
    let y := tileElem g b r e
    let w := 8 * fmtBytes (tFmt d)
    let v := if tFmt d = 6 then
        let q := addF f32 .rne false (decodeF f32 x.1) (decodeF f32 y.1)
        (q.1, tflagsOf q.2)
      else wrapSum w (sextI w x.1 + sextI w y.1)
    ((v.1, x.2 || y.2), v.2))

/-- TCOMB. -/
def combTile (g : Group) (d a : DWord) (k c0 : Nat) : Group × Nat :=
  tileCompute g d (fun r e =>
    let x := tileElem g d r e
    let y := tileElem g a r (c0 + e)
    let v := wrapSum 128 (sextI 128 x.1 + sextI 32 y.1 * 2 ^ (112 - 7 * k))
    ((v.1, x.2 || y.2), v.2))

/-- An exponent held within the range beyond which every F64 rounding is the same. -/
def clampExp (x : Int) : Int := max (-8000) (min 8000 x)

/-- One element TCVT writes: rne64 of the element times 2^(e + f - 112). -/
def cvtElem (n : Int) (e f : Int) : Nat × Nat :=
  let r := roundF f64 .rne false (decide (n < 0)) n.natAbs (clampExp (e + f - 112))
  (r.1, tflagsOf r.2)

end Sys2Proof.Machine
end

