-- ==== Sys2Proof/Machine/Tile.lean ====
section
/-! DEFINITION. The tile instructions at issue, and the completion of a tile operation (R289-R311). -/

namespace Sys2Proof.Machine

/-! ## The interlock (R290, R299) -/

/-- The first tile field that names an unallocated tile: OPERAND with its code (R289). -/
def unallocated (c : Ctx) : List (Nat × BitVec 4) → Option Eff
  | [] => none
  | (code, t) :: r => if tAlloc (tctl c.g t.toNat) then unallocated c r else some (operandTrap c code)

/-- Whether a trap is of the checks that R290 has made after the wait for earlier tile operations: of allocation, shape and format. -/
def lateCheck (m : Miss) : Bool := m.cause == cOPERAND || m.cause == cSHAPE

/-- A tile instruction that meets an earlier tile operation (R290): with its checks passed it is issued, taking its counter and its tape entries,
and the group stalls behind it; a scratchpad check that fails traps at once; a check of allocation, shape or format is made after the wait
(log 94). -/
def besideTiles (e : Eff) : Eff :=
  match e with
  | .next s g => .next s { g with status := .stalled }
  | .trap m => if lateCheck m then .stall else .trap m
  | e => e

/-- The stalls and checks every tile instruction but TCFG shares, then its own. `named` lists its tile fields in order with
their codes. Behind a TFLG that has not taken effect every tile instruction stalls at issue (R299). -/
def tileIssue (s : State) (c : Ctx) (wr rd : List Nat) (named : List (Nat × BitVec 4)) (body : Eff) : Eff :=
  let ops := tileOps s c.g
  let e := match unallocated c named with
    | some e => e
    | none => body
  if ops.any (fun p => isTflg p.2) then .stall
  else if ops.any (fun p => tileClash p.2 wr rd) then besideTiles e
  else e

/-- A tile operation issued; with its counter full the oldest that is complete leaves first (R21, R228). -/
def tileOp (s : State) (c : Ctx) (t : TileAct) (wr rd : List Nat) (spans : List Span) : Eff :=
  let r := tileLeave s c.g (Config.counterMax - 1)
  let c1 := { c with g := r.2 }
  issueOp r.1 c1 .tile
    (newOp r.1 c1 (some .tile) 0 0 none (.tile t c.g.pal (c.g.tflags.extractLsb' 8 6 |>.setWidth 32) wr rd)) spans

/-! ## TCFG, TZERO, TMOV, TFLG -/

/-- The tile controls with one replaced. -/
def setTc (g : Group) (n : Nat) (v : DWord) : Group := { g with tc := mset 0 g.tc n v }

/-- TCFG's checks on a value that allocates (R289). -/
def tcfgBad (c : Ctx) (td : Nat) (v : DWord) : Bool :=
  !tSound v || decide (c.l.kern.tilebytes < tOff v + tBytes v) ||
    (List.range 16).any (fun i => decide (i ≠ td) && tAlloc (tctl c.g i) && tOverlap v (tctl c.g i))

/-- TCFG (R289): it issues only when the group's tile counter is zero. -/
def execTcfg (f : TX) (s : State) : Host.Outcome State Fault Refusal :=
  issue (.tcfg f) s (fun c =>
    let v := sval c.g f.lit f.sa
    let td := f.td.toNat
    let r := tileLeave s c.g 0
    if r.2.tile ≠ [] then .stall
    else if (if tAlloc v then tcfgBad c td v else v != 0) then operandTrap c 23
    else match tileOp r.1 { c with g := r.2 } .tcfg [td] [] [] with
      | .next s1 g1 => .next s1 (setTc g1 td v)
      | e => e)

/-- TZERO (R297). -/
def execTzero (f : TX) (s : State) : Host.Outcome State Fault Refusal :=
  issue (.tzero f) s (fun c =>
    let td := f.td.toNat
    tileIssue s c [td] [] [(16, f.td)] (tileOp s c (.tzero (tctl c.g td)) [td] [] []))

/-- Whether TMOV may pair two tiles (R297). -/
def movPair (d a : DWord) : Bool :=
  let sameSize := tRows d == tRows a && tElems d == tElems a
  (tFmt d == tFmt a && tRows d == tRows a && tRowb d == tRowb a && tGs d == tGs a && tSf d == tSf a) ||
    (tFmt a == 6 && decide (tFmt d ≤ 2) && sameSize) || (tFmt a == 7 && tFmt d == 6 && sameSize)

/-- TMOV (R297). -/
def execTmov (f : TX) (s : State) : Host.Outcome State Fault Refusal :=
  issue (.tmov f) s (fun c =>
    let td := f.td.toNat
    let ta := f.ta.toNat
    let d := tctl c.g td
    let a := tctl c.g ta
    tileIssue s c [td] [ta] [(16, f.td), (17, f.ta)]
      (if !movPair d a || (td != ta && tOverlap d a) then operandTrap c 23
       else tileOp s c (.tmov d a) [td] [ta] []))

/-- TFLG.GET (R299). -/
def execTflgGet (f : TX) (s : State) : Host.Outcome State Fault Refusal :=
  issue (.tflgGet f) s (fun c => tileIssue s c [] [] [] (tileOp s c (.tflgGet f.sa.toNat) [] [] []))

/-- Whether a TFLAGS value has a reserved bit set (R294). -/
def tflagsReserved (v : DWord) : Bool := bits v 14 50 != 0 || bits v 6 2 != 0

/-- TFLG.SET (R299). -/
def execTflgSet (f : TX) (s : State) : Host.Outcome State Fault Refusal :=
  issue (.tflgSet f) s (fun c =>
    let v := sval c.g f.lit f.sa
    tileIssue s c [] [] []
      (if tflagsReserved v then operandTrap c 23
       else tileOp s c (.tflgSet (v.setWidth 32) ((sval c.g f.lit f.sb).setWidth 32)) [] [] []))

/-! ## TLD, TLDW, TST (R300) -/

/-- The base of a row transfer: sext(SA) + sext(IMM32). -/
def tileBase (c : Ctx) (f : TX) : Int := (sval c.g f.lit f.sa).toInt + f.imm.toInt

/-- TAPE over intervals, the lowest offset that meets an entry; entries of the group's own tile operations are passed over
(R24, R292). -/
def spansTape (s : State) (c : Ctx) (xs : List Span) : Option Miss :=
  let core := getCore s c.w.core
  let hits (x : Span) : List Nat :=
    core.tape.filterMap (fun e =>
      if tapeMeets c.k (c.w.sbase + x.lo) (c.w.sbase + x.hi) x.write true e
      then some (max (c.w.sbase + x.lo) e.lo - c.w.sbase) else none)
  (minList (xs.flatMap hits)).map (fun o => ⟨cTAPE, BitVec.ofNat 64 o, 0⟩)

/-- The checks of R292 in order: ALIGN over the misaligned offsets given, SCRATCH_BOUNDS, TAPE; else the body over the
intervals. -/
def tileScratch (s : State) (c : Ctx) (mis : List Int) (xs : List (Int × Int × Bool)) (body : List Span → Eff) : Eff :=
  match minInt mis with
  | some o => .raise cALIGN (dword o)
  | none =>
    match spansOut c.size (xs.map (fun x => (x.1, x.2.1))) with
    | some m => .trap m
    | none =>
      let sp := xs.map (fun x => (⟨x.1.toNat, x.2.1.toNat, x.2.2⟩ : Span))
      match spansTape s c sp with
      | some m => .trap m
      | none => body sp

/-- The misaligned offset of a base and a stride (R300). -/
def misRows (base : Int) (stride k : Nat) : List Int :=
  if base % (k : Int) ≠ 0 then [base] else if stride % k ≠ 0 then [base + stride] else []

/-- The interval of a tile's rows in scratchpad. -/
def rowsEnd (base : Int) (stride rows rowb : Nat) : Int := base + ((rows - 1) * stride + rowb : Nat)

/-- TLD. -/
def execTld (f : TX) (s : State) : Host.Outcome State Fault Refusal :=
  issue (.tld f) s (fun c =>
    let td := f.td.toNat
    let d := tctl c.g td
    let base := tileBase c f
    let stride := (sval c.g f.lit f.sb).toNat
    tileIssue s c [td] [] [(16, f.td)]
      (if isWeight (tFmt d) then operandTrap c 16
       else if 2 ^ 20 ≤ stride then operandTrap c 14
       else tileScratch s c (misRows base stride 4) [(base, rowsEnd base stride (tRows d) (tRowb d), false)]
         (fun sp => tileOp s c (.tld d base.toNat stride) [td] [] sp)))

/-- TLDW. -/
def execTldw (f : TX) (s : State) : Host.Outcome State Fault Refusal :=
  issue (.tldw f) s (fun c =>
    let td := f.td.toNat
    let d := tctl c.g td
    let base := tileBase c f
    let stride := (sval c.g f.lit f.sb).toNat
    let sc := (sval c.g f.lit f.sc).toInt
    tileIssue s c [td] [] [(16, f.td)]
      (if !isWeight (tFmt d) then operandTrap c 16
       else if 2 ^ 20 ≤ stride then operandTrap c 14
       else tileScratch s c (misRows base stride 4 ++ (if sc % 4 ≠ 0 then [sc] else []))
         [(base, rowsEnd base stride (tRows d) (tRowb d), false), (sc, sc + tScaleBytes d, false)]
         (fun sp => tileOp s c (.tldw d base.toNat stride sc.toNat) [td] [] sp)))

/-- TST. -/
def execTst (f : TX) (s : State) : Host.Outcome State Fault Refusal :=
  issue (.tst f) s (fun c =>
    let ta := f.ta.toNat
    let a := tctl c.g ta
    let base := tileBase c f
    let stride := (sval c.g f.lit f.sb).toNat
    tileIssue s c [] [ta] [(17, f.ta)]
      (if isWeight (tFmt a) then operandTrap c 17
       else if 2 ^ 20 ≤ stride then operandTrap c 14
       else tileScratch s c (misRows base stride 4) [(base, rowsEnd base stride (tRows a) (tRowb a), true)]
         (fun sp => tileOp s c (.tst a base.toNat stride) [] [ta] sp)))

/-! ## TMMA (R301, R302) -/

/-- The formats of a mode: A, B and C; `none` for a combination R301 does not list. -/
def mmaMode (pal : DWord) : Option (Nat × Nat × Nat) :=
  let af := bits pal 0 2
  let bf := bits pal 2 2
  let acc := bits pal 7 2
  if af = 0 ∧ bf = 0 ∧ acc = 0 then some (0, 0, 6)
  else if af ≤ 2 ∧ (bf = 1 ∨ bf = 2) ∧ acc = 0 then some (af, bf + 2, 6)
  else if af = 3 ∧ bf = 3 ∧ acc = 1 then some (5, 5, 7)
  else none

/-- TILE_SHAPE with a reason, a field and its tile number (R302). -/
def shapeTrap (reason field t : Nat) : Eff := .raise cSHAPE (BitVec.ofNat 64 (reason + field * 256 + t * 4096))

/-- The checks of R302: the first failure. -/
def mmaShape (pal d a b : DWord) (f : TX) (fa fb fd : Nat) : Option Eff :=
  let td := f.td.toNat
  let ta := f.ta.toNat
  let tb := f.tb.toNat
  if tFmt d ≠ fd then some (shapeTrap 1 0 td)
  else if tFmt a ≠ fa then some (shapeTrap 1 1 ta)
  else if tFmt b ≠ fb then some (shapeTrap 1 2 tb)
  else if isWeight fb && (tGs b != bits pal 4 2 || tSf b != bits pal 6 1) then some (shapeTrap 2 2 tb)
  else if tElems a ≠ tElems b then some (shapeTrap 3 2 tb)
  else if tRows a ≠ tRows d then some (shapeTrap 4 1 ta)
  else if tElems d ≠ tRows b then some (shapeTrap 5 0 td)
  else if tOverlap d a || tOverlap d b then some (shapeTrap 6 0 td)
  else none

/-- TMMA. -/
def execTmma (f : TX) (s : State) : Host.Outcome State Fault Refusal :=
  issue (.tmma f) s (fun c =>
    let td := f.td.toNat
    let ta := f.ta.toNat
    let tb := f.tb.toNat
    let d := tctl c.g td
    let a := tctl c.g ta
    let b := tctl c.g tb
    tileIssue s c [td] [td, ta, tb] [(16, f.td), (17, f.ta), (18, f.tb)]
      (match mmaMode c.g.pal with
        | none => operandTrap c 23
        | some (fa, fb, fd) =>
          match mmaShape c.g.pal d a b f fa fb fd with
          | some e => e
          | none => tileOp s c (.tmma d a b (f.md.getLsbD 0)) [td] [td, ta, tb] []))

/-! ## TCOMB, TCVT, TADD -/

/-- TCOMB (R306). -/
def execTcomb (f : TX) (s : State) : Host.Outcome State Fault Refusal :=
  issue (.tcomb f) s (fun c =>
    let td := f.td.toNat
    let ta := f.ta.toNat
    let d := tctl c.g td
    let a := tctl c.g ta
    let k := bits f.imm 0 5
    let c0 := bits f.imm 8 7
    tileIssue s c [td] [td, ta] [(16, f.td), (17, f.ta)]
      (if tFmt d ≠ 8 then operandTrap c 16
       else if tFmt a ≠ 7 then operandTrap c 17
       else if 16 < k ∨ 63 < c0 ∨ bits f.imm 5 3 ≠ 0 ∨ bits f.imm 15 17 ≠ 0 ∨ tRows a ≠ tRows d ∨ tElems a < c0 + tElems d
       then operandTrap c 23
       else tileOp s c (.tcomb d a k c0) [td] [td, ta] []))

/-- TCVT (R307). The exponents are captured when the operation is performed; the offsets at issue. A row stride that is no multiple of 8 raises
ALIGN, for a tile of one row too, with TVAL the offset of the second row, as R300 has it for TST (DESIGN CHOICE, log 102). -/
def execTcvt (f : TX) (s : State) : Host.Outcome State Fault Refusal :=
  issue (.tcvt f) s (fun c =>
    let ta := f.ta.toNat
    let a := tctl c.g ta
    let dst := (sval c.g f.lit f.sa).toInt
    let re := (sval c.g f.lit f.sb).toInt
    let ce := (sval c.g f.lit f.sc).toInt
    let stride := f.imm.toNat
    tileIssue s c [] [ta] [(17, f.ta)]
      (if tFmt a ≠ 8 then operandTrap c 17
       else tileScratch s c
         (misRows dst stride 8 ++ (if re % 4 ≠ 0 then [re] else []) ++ (if ce % 4 ≠ 0 then [ce] else []))
         [(re, re + (4 * tRows a : Nat), false), (ce, ce + (4 * tElems a : Nat), false),
          (dst, rowsEnd dst stride (tRows a) (8 * tElems a), true)]
         (fun sp => tileOp s c (.tcvt a dst.toNat re.toNat ce.toNat stride) [] [ta] sp)))

/-- TADD (R298). -/
def execTadd (f : TX) (s : State) : Host.Outcome State Fault Refusal :=
  issue (.tadd f) s (fun c =>
    let td := f.td.toNat
    let ta := f.ta.toNat
    let tb := f.tb.toNat
    let d := tctl c.g td
    let a := tctl c.g ta
    let b := tctl c.g tb
    let same (x : DWord) : Bool := tFmt x == tFmt d && tRows x == tRows d && tRowb x == tRowb d
    tileIssue s c [td] [ta, tb] [(16, f.td), (17, f.ta), (18, f.tb)]
      (if !(same a && same b) || !decide (6 ≤ tFmt d) then operandTrap c 23
       else tileOp s c (.tadd d a b) [td] [ta, tb] []))

/-! ## Completion (R291, R294, R295) -/

/-- Whether a tile operation reads or writes scratchpad. -/
def tileTouches : TileAct → Bool
  | .tld .. | .tldw .. | .tst .. | .tcvt .. => true
  | _ => false

/-- Whether a tile operation may be performed now: after the earlier ones it meets, scratchpad accesses of one group in issue order, a TFLG after
every earlier operation (R290, R292, R299). -/
def tileReady (s : State) (g : Group) (n : Nat) (o : EngineOp) (t : TileAct) : Bool :=
  !o.performed && !clashes s g n o &&
    (tileOps s g).all (fun p => decide (n ≤ p.1) ||
      !(isTflg o || (tileTouches t && (match p.2.act with
        | .tile u _ _ _ _ => tileTouches u
        | _ => false))))

/-- A tile engine's write into the group's scratchpad: at once, or in a DET launch until the commit (R311). -/
def tileStore (s : State) (g : Group) (det : Bool) (a : Nat) (ds : List PByte) : State × Group :=
  if det then (s, { g with detBuf := g.detBuf ++ [(a, ds)] })
  else match tget s.wgs (gWg g) with
    | some w => (putWg s (gWg g) (wgWriteP w a ds), g)
    | none => (s, g)

/-- Rows loaded from scratchpad. -/
def loadRows (s : State) (g : Group) (d : DWord) (base stride : Nat) : List PByte :=
  (List.range (tRows d)).flatMap (fun r => scratchRead s g (base + r * stride) (tRowb d))

/-- TLDW: cleaned codes and scales, and PAL.RCS (R300, R174). -/
def loadWeights (s : State) (g : Group) (d : DWord) (base stride scale : Nat) : Group :=
  let r := cleanCodes (tFmt d) (loadRows s g d base stride)
  let g1 := tilePut (tilePut g (tOff d) r.1) (tOff d + tRows d * tRowb d) (scratchRead s g scale (tScaleBytes d))
  if r.2 then { g1 with pal := g1.pal ||| 0x4000 } else g1

/-- TST: rows in ascending order. A poisoned byte poisons the scratchpad word that receives it, of an FX128 element too (R254, R309; DEDUCED, log
111). -/
def storeRows (s : State) (g : Group) (det : Bool) (a : DWord) (base stride : Nat) : State × Group :=
  (List.range (tRows a)).foldl
    (fun p r => tileStore p.1 p.2 det (base + r * stride) (tileGet g (tOff a + r * tRowb a) (tRowb a))) (s, g)

/-- TCVT: rows in ascending order, every exponent as it stood before the first (DESIGN CHOICE, log 106). -/
def cvtRows (s : State) (g : Group) (det : Bool) (a : DWord) (dst re ce stride : Nat) : (State × Group) × Nat :=
  (List.range (tRows a)).foldl
    (fun p r =>
      let em := scratchRead s g (re + 4 * r) 4
      let xs := (List.range (tElems a)).map (fun n =>
        let fn := scratchRead s g (ce + 4 * n) 4
        let x := tileElem g a r n
        let v := cvtElem (sextI 128 x.1) (sextI 32 (numOf em)) (sextI 32 (numOf fn))
        (elemBytesP 8 v.1 (x.2 || anyBad em || anyBad fn), v.2))
      (tileStore p.1.1 p.1.2 det (dst + r * stride) (xs.flatMap (fun x => x.1)), xs.foldl (fun f x => f ||| x.2) p.2))
    ((s, g), 0)

/-- What a tile operation does: the state and group after it, and the flags it raises. -/
def tilePerform (s : State) (g : Group) (det : Bool) (t : TileAct) (pal : DWord) : (State × Group) × Nat :=
  match t with
  | .tcfg => ((s, g), 0)
  | .tzero d => ((s, tilePut g (tOff d) (List.replicate (tBytes d) (0, false))), 0)
  | .tmov d a => let r := movTile g d a (pal.getLsbD 13); ((s, r.1), r.2)
  | .tflgGet sd => ((s, setS g sd (g.tflags.setWidth 64)), 0)
  | .tflgSet v m => ((s, { g with tflags := (g.tflags &&& ~~~m) ||| (v &&& m) }), 0)
  | .tld d base stride => ((s, tilePut g (tOff d) (loadRows s g d base stride)), 0)
  | .tldw d base stride scale => ((s, loadWeights s g d base stride scale), 0)
  | .tst a base stride => (storeRows s g det a base stride, 0)
  | .tmma d a b zero => let r := mmaTile g d a b zero; ((s, r.1), r.2)
  | .tcomb d a k c0 => let r := combTile g d a k c0; ((s, r.1), r.2)
  | .tcvt a dst re ce stride => cvtRows s g det a dst re ce stride
  | .tadd d a b => let r := addTile g d a b; ((s, r.1), r.2)

/-- A tile operation has been performed: it completes, or in a running DET launch stays on its counter, complete, until its program or a commit lets
it go (R228; log 107). -/
def tileDone (s : State) (n : Nat) (o : EngineOp) (k : Nat) (g : Group) (report : Option DWord) : State :=
  match tget s.launches o.launch with
  | some l =>
    if l.kern.det && l.status == .running then
      recheckCore (putGroup (putOp s n { o with performed := true }) k { g with tile := markDone n report g.tile }) o.core
    else performedOp (putGroup s k g) n o report
  | none => performedOp (putGroup s k g) n o report

/-- TILE_OP_COMPLETE (R291): the destination and TFLAGS are written, enabled flags become a report, the counter falls. -/
def execTileOpComplete (op : Nat) (s : State) : Host.Outcome State Fault Refusal :=
  match tget s.ops op with
  | some o =>
    match o.act, opAt s o with
    | .tile t pal ten _ _, some (k, g) =>
      if tileReady s g op o t then
        let r := tilePerform s g (launchDet s o.launch) t pal
        let g1 := { r.1.2 with tflags := r.1.2.tflags ||| BitVec.ofNat 32 r.2 }
        let report := if r.2 &&& ten.toNat ≠ 0 then some o.pc else none
        .next (tileDone r.1.1 op o k g1 report)
      else .next s
    | _, _ => .next s
  | none => .next s

end Sys2Proof.Machine
end

