-- ==== Sys2Proof/Machine/VecMove.lean ====
section
/-! DEFINITION. Lane moves, reductions and scans (R137, R148, R156, R157), and the delivery of floating-point flags and traps
(R135). -/

namespace Sys2Proof.Machine

/-! ## Flags and traps (R135) -/

/-- What a floating-point instruction raises in the active lanes: the flags together, whether an operand signals, and the
lanes that trap. -/
structure Raised where
  flags : Flags
  snan : Bool
  traps : Mask
deriving DecidableEq, Repr

/-- R135's loop over the active lanes; `sn` says which lanes have a signalling operand, `snOn` whether FPC.SN counts. -/
def raisedBy (fpc : Word) (snOn : Bool) (act : List Bool) (fl : List Flags) (sn : List Bool) : Raised :=
  let lane := List.zipWith (fun a p => if a then p else (0, false)) act (List.zip fl sn)
  ⟨lane.foldl (fun r p => r ||| p.1) 0, lane.any (fun p => p.2),
    lanesMask (lane.map (fun p => (p.1 &&& fpcEnables fpc) != 0 || (snOn && fpc.getLsbD 12 && p.2)))⟩

/-- The end of R135: a trap with nothing written, or the group with its results and its flags raised. -/
def fpFinish (s : State) (c : Ctx) (r : Raised) (g : Group) : Eff :=
  if r.traps ≠ 0 then .trap ⟨cFP, BitVec.ofNat 64 (r.flags.toNat + (if r.snan then 32 else 0)), r.traps⟩
  else .next s { g with fpc := fpcRaise c.g.fpc r.flags }

/-- Results of width `w` with flags, written to VD in the active lanes. -/
def fpResult (s : State) (c : Ctx) (f : VX) (w : Nat) (rs : List (Nat × Flags)) (sn : List Bool) : Eff :=
  let act := actLanes c f
  fpFinish s c (raisedBy c.g.fpc true act (rs.map (fun p => p.2)) sn)
    (writeLanes c.g f.vd.toNat w act (rs.map (fun p => BitVec.ofNat 64 p.1)))

/-! ## Lane moves -/

/-- The lane amount of VLANE and VINS: VB read as I32 (R148). -/
def laneAmount (c : Ctx) (f : VX) : Int := sextI 32 (uniformVal c.g f.lit f.vb.toNat 0).toNat

/-- A lane of a list of lanes. -/
def laneAt (x : Lanes) (l : Nat) : DWord := x.getD l 0

/-- VLANE (R148). -/
def execVlane (f : VX) (s : State) : Host.Outcome State Fault Refusal :=
  issue (.vlane f) s (fun c =>
    let k := laneAmount c f
    let a := opA s c f
    vecResult s c f (laneIds.map (fun (l : Nat) =>
      let j : Int := (l : Int) + k
      if !f.md.getLsbD 0 then laneAt a (j % 128).toNat
      else if 0 ≤ j ∧ j ≤ 127 then laneAt a j.toNat else laneAt (opC s c f) l)))

/-- VINS (R148): one lane only, when it is active. -/
def execVins (f : VX) (s : State) : Host.Outcome State Fault Refusal :=
  issue (.vins f) s (fun c =>
    let q := (laneAmount c f % 128).toNat
    let act := List.zipWith (fun l a => decide (l = q) && a) laneIds (actLanes c f)
    .next s (writeLanes c.g f.vd.toNat (typeBits f.ty.toNat) act (opA s c f)))

/-- VSHUF (R156): j from the low register of VB as N32. -/
def execVshuf (f : VX) (s : State) : Host.Outcome State Fault Refusal :=
  issue (.vshuf f) s (fun c =>
    let a := opA s c f
    vecResult s c f ((srcLanes s c f.lit f.vb.toNat 1).map (fun j =>
      if f.md.getLsbD 0 && decide (128 ≤ j.toNat) then 0 else laneAt a (j.toNat % 128))))

/-- VBCAST (R156): VB uniform, read as N32. -/
def execVbcast (f : VX) (s : State) : Host.Outcome State Fault Refusal :=
  issue (.vbcast f) s (fun c =>
    vecResult s c f (splat (laneAt (opA s c f) ((uniformVal c.g f.lit f.vb.toNat 1).toNat % 128))))

/-! ## Reductions and scans (R137, R157) -/

/-- The identity of a reduction at a type. -/
def redIdentity (op t : Nat) : DWord :=
  if floatType t then
    let k := fmtOf t
    BitVec.ofNat 64 (if op = 0 then withSign k true 0 else infBits k (op == 2))
  else
    let w := typeBits t
    if op = 0 then 0
    else if op = 1 then elemOf t (if signedType t then 2 ^ (w - 1) - 1 else 2 ^ w - 1)
    else if op = 2 then elemOf t (if signedType t then 2 ^ (w - 1) else 0)
    else if op = 3 then elemOf t (-1)
    else 0

/-- One node: the operation on a left and a right value, and the flags it raises. -/
def redNode (rm : RM) (op t : Nat) (a b : DWord × Flags) : DWord × Flags :=
  if floatType t then
    let k := fmtOf t
    let r :=
      if op = 0 then addF k rm false (decodeF k a.1.toNat) (decodeF k b.1.toNat)
      else minMaxF k (op == 2) a.1.toNat b.1.toNat
    (BitVec.ofNat 64 r.1, a.2 ||| b.2 ||| r.2)
  else
    let x := elemInt t a.1
    let y := elemInt t b.1
    (if op = 0 then elemOf t (x + y)
     else if op = 1 then elemOf t (min x y)
     else if op = 2 then elemOf t (max x y)
     else if op = 3 then a.1 &&& b.1
     else if op = 4 then a.1 ||| b.1
     else a.1 ^^^ b.1, 0)

/-- Adjacent values combined: one level of the tree. -/
def pairUp {α : Type} (op : α → α → α) : List α → List α
  | a :: b :: t => op a b :: pairUp op t
  | t => t

/-- The tree over a list of 2^k values (R137). -/
def treeFold {α : Type} (op : α → α → α) (d : α) : Nat → List α → α
  | 0, x => x.headD d
  | k + 1, x => treeFold op d k (pairUp op x)

/-- The scan of a list: aligned blocks of the set bits of its length, the largest first, reduced and folded (R137). -/
def scanBlocks {α : Type} (op : α → α → α) (d : α) : Nat → Option α → List α → α
  | 0, acc, x => match acc, x with
    | none, _ => x.headD d
    | some a, [] => a
    | some a, b :: _ => op a b
  | k + 1, acc, x =>
    if 2 ^ (k + 1) ≤ x.length then
      let b := treeFold op d (k + 1) (x.take (2 ^ (k + 1)))
      let acc1 := match acc with
        | none => b
        | some a => op a b
      scanBlocks op d k (some acc1) (x.drop (2 ^ (k + 1)))
    else scanBlocks op d k acc x

/-- What the lanes contribute: their values when active, the identity otherwise. -/
def redInputs (s : State) (c : Ctx) (f : VX) (op : Nat) : List (DWord × Flags) :=
  List.zipWith (fun a x => (if a then x else redIdentity op f.ty.toNat, (0 : Flags))) (actLanes c f) (opA s c f)

/-- What a scan writes: under a floating-point TYPE a NaN is the canonical one (R126), also where the scan covers one lane and the tree of R137
has no node. Such a lane has no flag, a signalling NaN's IV neither: R137 gives a lane the flags of its nodes, and there is none. Its trap
through FPC.SN and bit 5 of TVAL are as R135 has them for the operand (DESIGN CHOICE, log 82). -/
def scanOut (t : Nat) (r : DWord × Flags) : DWord × Flags :=
  if floatType t && isNaN (fmtOf t) r.1.toNat then (BitVec.ofNat 64 (canonNaN (fmtOf t)), r.2) else r

/-- The lanes whose own operand is a signalling NaN. -/
def sigLanes (t : Nat) (x : Lanes) : List Bool := x.map (fun v => floatType t && isSNaN (fmtOf t) v.toNat)

/-- The end of VRED and VSCAN: flags under a floating-point TYPE, a plain result under an integer TYPE. -/
def redResult (s : State) (c : Ctx) (f : VX) (r : List (DWord × Flags)) : Eff :=
  fpResult s c f (typeBits f.ty.toNat) (r.map (fun p => (p.1.toNat, p.2))) (sigLanes f.ty.toNat (opA s c f))

/-- VRED (R157). -/
def execVred (f : VX) (s : State) : Host.Outcome State Fault Refusal :=
  issue (.vred f) s (fun c =>
    let op := bits f.md 0 3
    let r := treeFold (redNode (rmOf (bits c.g.fpc 0 2)) op f.ty.toNat) (0, 0) 7 (redInputs s c f op)
    redResult s c f (List.replicate Config.lanes r))

/-- VSCAN (R157): lane i the scan of lanes 0..i, or with .EXCL of lanes 0..i-1 and the identity in lane 0. -/
def execVscan (f : VX) (s : State) : Host.Outcome State Fault Refusal :=
  issue (.vscan f) s (fun c =>
    let op := bits f.md 0 3
    let node := redNode (rmOf (bits c.g.fpc 0 2)) op f.ty.toNat
    let x := redInputs s c f op
    redResult s c f (laneIds.map (fun i =>
      let n := if f.md.getLsbD 3 then i else i + 1
      if n = 0 then (redIdentity op f.ty.toNat, 0) else scanOut f.ty.toNat (scanBlocks node (0, 0) 7 none (x.take n)))))

end Sys2Proof.Machine
end

