-- ==== Sys2Proof/Machine/VecFP.lean ====
section
/-! DEFINITION. Vector floating-point arithmetic, compares, class, rounding and conversion (R149-R155), and VSLICE and VRAND
(R165, R166). -/

namespace Sys2Proof.Machine

/-- The format of TYPE. -/
def vxFmt (f : VX) : FFmt := fmtOf f.ty.toNat

/-- FPC.RM of the group. -/
def fpcRM (c : Ctx) : RM := rmOf (bits c.g.fpc 0 2)

/-- Two signalling lists joined. -/
def orLanes (a b : List Bool) : List Bool := List.zipWith (fun x y => x || y) a b

/-- One operand: the operation on its bits. -/
def fpOp1 (s : State) (c : Ctx) (f : VX) (op : Nat → Nat × Flags) : Eff :=
  let a := opA s c f
  fpResult s c f (typeBits f.ty.toNat) (a.map (fun x => op x.toNat)) (sigLanes f.ty.toNat a)

/-- Two operands: the operation on their bits. -/
def fpOp2 (s : State) (c : Ctx) (f : VX) (op : Nat → Nat → Nat × Flags) : Eff :=
  let a := opA s c f
  let b := opB s c f
  let t := f.ty.toNat
  fpResult s c f (typeBits t) (List.zipWith (fun x y => op x.toNat y.toNat) a b) (orLanes (sigLanes t a) (sigLanes t b))

/-- A bit operation made of one on decoded values. -/
def onVals2 (k : FFmt) (op : FVal → FVal → Nat × Flags) (a b : Nat) : Nat × Flags := op (decodeF k a) (decodeF k b)

/-! ## MAJ 0x17 (R149-R151) -/

/-- VFADD. -/
def execVfadd (f : VX) (s : State) : Host.Outcome State Fault Refusal :=
  issue (.vfadd f) s (fun c => fpOp2 s c f (onVals2 (vxFmt f) (addF (vxFmt f) (fpcRM c) false)))
/-- VFSUB. -/
def execVfsub (f : VX) (s : State) : Host.Outcome State Fault Refusal :=
  issue (.vfsub f) s (fun c => fpOp2 s c f (onVals2 (vxFmt f) (fun a b => addF (vxFmt f) (fpcRM c) false a (negF b))))
/-- VFMUL. -/
def execVfmul (f : VX) (s : State) : Host.Outcome State Fault Refusal :=
  issue (.vfmul f) s (fun c => fpOp2 s c f (onVals2 (vxFmt f) (mulF (vxFmt f) (fpcRM c))))
/-- VFMA. -/
def execVfma (f : VX) (s : State) : Host.Outcome State Fault Refusal :=
  issue (.vfma f) s (fun c =>
    let k := vxFmt f
    let t := f.ty.toNat
    let a := opA s c f
    let b := opB s c f
    let d := opC s c f
    fpResult s c f (typeBits t)
      (List.zipWith (fun p x => fmaF k (fpcRM c) (decodeF k p.1.toNat) (decodeF k p.2.toNat) (decodeF k x.toNat))
        (List.zip a b) d)
      (orLanes (orLanes (sigLanes t a) (sigLanes t b)) (sigLanes t d)))
/-- VFDIV. -/
def execVfdiv (f : VX) (s : State) : Host.Outcome State Fault Refusal :=
  issue (.vfdiv f) s (fun c => fpOp2 s c f (onVals2 (vxFmt f) (divF (vxFmt f) (fpcRM c))))
/-- VFSQRT. -/
def execVfsqrt (f : VX) (s : State) : Host.Outcome State Fault Refusal :=
  issue (.vfsqrt f) s (fun c => fpOp1 s c f (fun a => sqrtF (vxFmt f) (fpcRM c) (decodeF (vxFmt f) a)))
/-- VFMIN (R150). -/
def execVfmin (f : VX) (s : State) : Host.Outcome State Fault Refusal :=
  issue (.vfmin f) s (fun c => fpOp2 s c f (minMaxF (vxFmt f) false))
/-- VFMAX (R150). -/
def execVfmax (f : VX) (s : State) : Host.Outcome State Fault Refusal :=
  issue (.vfmax f) s (fun c => fpOp2 s c f (minMaxF (vxFmt f) true))
/-- VFRCPA (R151). -/
def execVfrcpa (f : VX) (s : State) : Host.Outcome State Fault Refusal :=
  issue (.vfrcpa f) s (fun c => fpOp1 s c f (fun a => rcpaF (vxFmt f) (decodeF (vxFmt f) a)))
/-- VFRSQA (R151). -/
def execVfrsqa (f : VX) (s : State) : Host.Outcome State Fault Refusal :=
  issue (.vfrsqa f) s (fun c => fpOp1 s c f (fun a => rsqaF (vxFmt f) (decodeF (vxFmt f) a)))

/-! ## MAJ 0x18 (R152-R155) -/

/-- VFCMP: a mask as VCMP writes it; on a trap none is written. -/
def execVfcmp (f : VX) (s : State) : Host.Outcome State Fault Refusal :=
  issue (.vfcmp f) s (fun c =>
    let k := vxFmt f
    let t := f.ty.toNat
    let a := opA s c f
    let b := opB s c f
    let r := List.zipWith (fun x y => cmpPredF (bits f.md 0 4) (decodeF k x.toNat) (decodeF k y.toNat)) a b
    fpFinish s c
      (raisedBy c.g.fpc true (maskLanes (execMask c.g)) (r.map (fun p => p.2)) (orLanes (sigLanes t a) (sigLanes t b)))
      (maskResult c f (r.map (fun p => p.1))))

/-- VFCLASS: one bit of ten, as N32 in a single register; no flag, exempt from FPC.SN. -/
def execVfclass (f : VX) (s : State) : Host.Outcome State Fault Refusal :=
  issue (.vfclass f) s (fun c =>
    .next s (writeLanes c.g f.vd.toNat 32 (actLanes c f)
      ((opA s c f).map (fun a => BitVec.ofNat 64 (2 ^ classF (vxFmt f) a.toNat)))))

/-- The rounding override RMO (R154). -/
def rmOverride (c : Ctx) (f : VX) : RM :=
  let r := bits f.md 4 3
  if r = 0 then fpcRM c else rmOf (r - 1)

/-- VFRND (R154). -/
def execVfrnd (f : VX) (s : State) : Host.Outcome State Fault Refusal :=
  issue (.vfrnd f) s (fun c => fpOp1 s c f (rndF (vxFmt f) (rmOverride c f) (f.md.getLsbD 3)))

/-- One element converted between two TYPE codes (R132, R155); `sat` is PAL.FP8SAT. -/
def convert (src dst : Nat) (rm : RM) (sat : Bool) (x : DWord) : Nat × Flags :=
  if floatType src then
    if floatType dst then cvtFF (fmtOf src) (fmtOf dst) rm sat x.toNat
    else cvtFI (fmtOf src) rm (signedType dst) (typeBits dst) x.toNat
  else if floatType dst then cvtIF (fmtOf dst) rm sat (elemInt src x)
  else ((elemOf dst (elemInt src x)).toNat, 0)

/-- VFCVT (R155). -/
def execVfcvt (f : VX) (s : State) : Host.Outcome State Fault Refusal :=
  issue (.vfcvt f) s (fun c =>
    let src := bits f.md 0 4
    let a := srcLanes s c f.lit f.va.toNat src
    fpResult s c f (typeBits f.ty.toNat) (a.map (convert src f.ty.toNat (rmOverride c f) (c.g.pal.getLsbD 13)))
      (sigLanes src a))

/-! ## MAJ 0x1B (R165, R166) -/

/-- trunc(m 2^ex 2^k) for an exponent that keeps the value below 2^64. -/
def truncScaled (m : Nat) (x : Int) : Nat := if 0 ≤ x then m * 2 ^ x.toNat else if x < -64 then 0 else m / 2 ^ (-x).toNat

/-- One slice of an F64 (R165): the low 8 bits of q, and IV out of range. -/
def sliceElem (i : Nat) (a : DWord) (e : Int) : Nat × Flags :=
  match decodeF f64 a.toNat with
  | .fin neg m ex =>
    if m ≠ 0 ∧ e < (bitLen m : Int) + ex then (0, fIV)
    else
      let q := truncScaled m (ex + 7 * i - e) - 128 * truncScaled m (ex + 7 * (i - 1 : Nat) - e)
      ((if neg then (256 - q) % 256 else q % 256), 0)
  | _ => (0, fIV)

/-- VSLICE (R165). -/
def execVslice (f : VX) (s : State) : Host.Outcome State Fault Refusal :=
  issue (.vslice f) s (fun c =>
    let a := opA s c f
    let e := (srcLanes s c f.lit f.vb.toNat 0).map (fun x => sextI 32 x.toNat)
    fpResult s c f 32 (List.zipWith (sliceElem (bits f.imm 0 4)) a e) (sigLanes 7 a))

/-- Philox-4x32: `n` rounds from the state (c0, c1, c2, c3) with the key (k0, k1) (R166). -/
def philox : Nat → Word → Word → Word → Word → Word → Word → Word × Word × Word × Word
  | 0, c0, c1, c2, c3, _, _ => (c0, c1, c2, c3)
  | n + 1, c0, c1, c2, c3, k0, k1 =>
    let p0 : Nat := 0xD2511F53 * c0.toNat
    let p1 : Nat := 0xCD9E8D57 * c2.toNat
    let hi (p : Nat) : Word := BitVec.ofNat 32 (p / 2 ^ 32)
    let lo (p : Nat) : Word := BitVec.ofNat 32 p
    philox n (hi p1 ^^^ c1 ^^^ k0) (lo p1) (hi p0 ^^^ c3 ^^^ k1) (lo p0) (k0 + 0x9E3779B9) (k1 + 0xBB67AE85)

/-- Word `j` of the block of one lane. -/
def philoxWord (j : Nat) (r : Word × Word × Word × Word) : Word :=
  if j = 0 then r.1 else if j = 1 then r.2.1 else if j = 2 then r.2.2.1 else r.2.2.2

/-- VRAND (R166). VB's 64-bit key is read at type N64, which fixes the inline constants (DESIGN CHOICE, log 96). -/
def execVrand (f : VX) (s : State) : Host.Outcome State Fault Refusal :=
  issue (.vrand f) s (fun c =>
    let key := uniformVal c.g f.lit f.vb.toNat 3
    let a (j l : Nat) : Word := (vreg c.g (f.va.toNat + j)).getD l 0
    let r := laneIds.map (fun l =>
      philox 10 (a 0 l) (a 1 l) (a 2 l) (a 3 l) (key.setWidth 32) (key.extractLsb' 32 32))
    let put (g : Group) (j : Nat) : Group :=
      setV g (f.vd.toNat + j) (mergeLanes (actLanes c f) (vreg c.g (f.vd.toNat + j)) (r.map (philoxWord j)))
    .next s (put (put (put (put c.g 0) 1) 2) 3))

end Sys2Proof.Machine
end

