-- ==== Sys2Proof/Machine/Dispatch.lean ====
section
/-! DEFINITION. The dispatch: one arm per constructor of Instr, each one direct call of its meaning. -/

namespace Sys2Proof.Machine

/-- Running one instruction, or one event. -/
def exec (i : Instr) (s : State) : Host.Outcome State Fault Refusal :=
  match i with
  | .nop f => Sys2Proof.Machine.execNop f s
  | .endg f => Sys2Proof.Machine.execEndg f s
  | .trap f => Sys2Proof.Machine.execTrap f s
  | .rft f => Sys2Proof.Machine.execRft f s
  | .yield f => Sys2Proof.Machine.execYield f s
  | .clkr f => Sys2Proof.Machine.execClkr f s
  | .idr f => Sys2Proof.Machine.execIdr f s
  | .sysr f => Sys2Proof.Machine.execSysr f s
  | .sysw f => Sys2Proof.Machine.execSysw f s
  | .fence f => Sys2Proof.Machine.execFence f s
  | .ret f => Sys2Proof.Machine.execRet f s
  | .jmp f => Sys2Proof.Machine.execJmp f s
  | .wait f => Sys2Proof.Machine.execWait f s
  | .sadd f => Sys2Proof.Machine.execSadd f s
  | .ssub f => Sys2Proof.Machine.execSsub f s
  | .smul f => Sys2Proof.Machine.execSmul f s
  | .smulh f => Sys2Proof.Machine.execSmulh f s
  | .sand f => Sys2Proof.Machine.execSand f s
  | .sor f => Sys2Proof.Machine.execSor f s
  | .sxor f => Sys2Proof.Machine.execSxor f s
  | .sandn f => Sys2Proof.Machine.execSandn f s
  | .sshl f => Sys2Proof.Machine.execSshl f s
  | .sshr f => Sys2Proof.Machine.execSshr f s
  | .ssra f => Sys2Proof.Machine.execSsra f s
  | .smin f => Sys2Proof.Machine.execSmin f s
  | .smax f => Sys2Proof.Machine.execSmax f s
  | .smov f => Sys2Proof.Machine.execSmov f s
  | .spopc f => Sys2Proof.Machine.execSpopc f s
  | .sclz f => Sys2Proof.Machine.execSclz f s
  | .saddi f => Sys2Proof.Machine.execSaddi f s
  | .sli f => Sys2Proof.Machine.execSli f s
  | .sliLit f => Sys2Proof.Machine.execSliLit f s
  | .brc f => Sys2Proof.Machine.execBrc f s
  | .call f => Sys2Proof.Machine.execCall f s
  | .scmp f => Sys2Proof.Machine.execScmp f s
  | .ssel f => Sys2Proof.Machine.execSsel f s
  | .sbfx f => Sys2Proof.Machine.execSbfx f s
  | .sbfi f => Sys2Proof.Machine.execSbfi f s
  | .sld f => Sys2Proof.Machine.execSld f s
  | .sst f => Sys2Proof.Machine.execSst f s
  | .slda f => Sys2Proof.Machine.execSlda f s
  | .msplit f => Sys2Proof.Machine.execMsplit f s
  | .mopen f => Sys2Proof.Machine.execMopen f s
  | .marrive f => Sys2Proof.Machine.execMarrive f s
  | .mjoin f => Sys2Proof.Machine.execMjoin f s
  | .mmov f => Sys2Proof.Machine.execMmov f s
  | .mpopc f => Sys2Proof.Machine.execMpopc f s
  | .palset f => Sys2Proof.Machine.execPalset f s
  | .palget f => Sys2Proof.Machine.execPalget f s
  | .fpcset f => Sys2Proof.Machine.execFpcset f s
  | .fpcget f => Sys2Proof.Machine.execFpcget f s
  | .fork f => Sys2Proof.Machine.execFork f s
  | .vfork f => Sys2Proof.Machine.execVfork f s
  | .join f => Sys2Proof.Machine.execJoin f s
  | .taskend f => Sys2Proof.Machine.execTaskend f s
  | .launch f => Sys2Proof.Machine.execLaunch f s
  | .waitw f => Sys2Proof.Machine.execWaitw f s
  | .bara f => Sys2Proof.Machine.execBara f s
  | .barw f => Sys2Proof.Machine.execBarw f s
  | .baraw f => Sys2Proof.Machine.execBaraw f s
  | .vadd f => Sys2Proof.Machine.execVadd f s
  | .vsub f => Sys2Proof.Machine.execVsub f s
  | .vmul f => Sys2Proof.Machine.execVmul f s
  | .vmulh f => Sys2Proof.Machine.execVmulh f s
  | .vmad f => Sys2Proof.Machine.execVmad f s
  | .vabs f => Sys2Proof.Machine.execVabs f s
  | .vmin f => Sys2Proof.Machine.execVmin f s
  | .vmax f => Sys2Proof.Machine.execVmax f s
  | .vand f => Sys2Proof.Machine.execVand f s
  | .vor f => Sys2Proof.Machine.execVor f s
  | .vxor f => Sys2Proof.Machine.execVxor f s
  | .vandn f => Sys2Proof.Machine.execVandn f s
  | .vshl f => Sys2Proof.Machine.execVshl f s
  | .vshr f => Sys2Proof.Machine.execVshr f s
  | .vsra f => Sys2Proof.Machine.execVsra f s
  | .vpopc f => Sys2Proof.Machine.execVpopc f s
  | .vclz f => Sys2Proof.Machine.execVclz f s
  | .vbfx f => Sys2Proof.Machine.execVbfx f s
  | .vbfi f => Sys2Proof.Machine.execVbfi f s
  | .vcmp f => Sys2Proof.Machine.execVcmp f s
  | .vsel f => Sys2Proof.Machine.execVsel f s
  | .vmov f => Sys2Proof.Machine.execVmov f s
  | .vlane f => Sys2Proof.Machine.execVlane f s
  | .vins f => Sys2Proof.Machine.execVins f s
  | .vfadd f => Sys2Proof.Machine.execVfadd f s
  | .vfsub f => Sys2Proof.Machine.execVfsub f s
  | .vfmul f => Sys2Proof.Machine.execVfmul f s
  | .vfma f => Sys2Proof.Machine.execVfma f s
  | .vfdiv f => Sys2Proof.Machine.execVfdiv f s
  | .vfsqrt f => Sys2Proof.Machine.execVfsqrt f s
  | .vfmin f => Sys2Proof.Machine.execVfmin f s
  | .vfmax f => Sys2Proof.Machine.execVfmax f s
  | .vfrcpa f => Sys2Proof.Machine.execVfrcpa f s
  | .vfrsqa f => Sys2Proof.Machine.execVfrsqa f s
  | .vfcmp f => Sys2Proof.Machine.execVfcmp f s
  | .vfclass f => Sys2Proof.Machine.execVfclass f s
  | .vfrnd f => Sys2Proof.Machine.execVfrnd f s
  | .vfcvt f => Sys2Proof.Machine.execVfcvt f s
  | .vshuf f => Sys2Proof.Machine.execVshuf f s
  | .vbcast f => Sys2Proof.Machine.execVbcast f s
  | .vred f => Sys2Proof.Machine.execVred f s
  | .vscan f => Sys2Proof.Machine.execVscan f s
  | .vld f => Sys2Proof.Machine.execVld f s
  | .vst f => Sys2Proof.Machine.execVst f s
  | .vldx f => Sys2Proof.Machine.execVldx f s
  | .vstx f => Sys2Proof.Machine.execVstx f s
  | .vatom f => Sys2Proof.Machine.execVatom f s
  | .vslice f => Sys2Proof.Machine.execVslice f s
  | .vrand f => Sys2Proof.Machine.execVrand f s
  | .tcfg f => Sys2Proof.Machine.execTcfg f s
  | .tzero f => Sys2Proof.Machine.execTzero f s
  | .tmov f => Sys2Proof.Machine.execTmov f s
  | .tflgGet f => Sys2Proof.Machine.execTflgGet f s
  | .tflgSet f => Sys2Proof.Machine.execTflgSet f s
  | .tld f => Sys2Proof.Machine.execTld f s
  | .tldw f => Sys2Proof.Machine.execTldw f s
  | .tst f => Sys2Proof.Machine.execTst f s
  | .tmma f => Sys2Proof.Machine.execTmma f s
  | .tcomb f => Sys2Proof.Machine.execTcomb f s
  | .tcvt f => Sys2Proof.Machine.execTcvt f s
  | .tadd f => Sys2Proof.Machine.execTadd f s
  | .xset f => Sys2Proof.Machine.execXset f s
  | .xinv f => Sys2Proof.Machine.execXinv f s
  | .grun f => Sys2Proof.Machine.execGrun f s
  | .gsig f => Sys2Proof.Machine.execGsig f s
  | .cfence f => Sys2Proof.Machine.execCfence f s
  | .cpy f => Sys2Proof.Machine.execCpy f s
  | .cpyx f => Sys2Proof.Machine.execCpyx f s
  | .cpyf f => Sys2Proof.Machine.execCpyf f s
  | .fat f => Sys2Proof.Machine.execFat f s
  | .fred f => Sys2Proof.Machine.execFred f s
  | .skget f => Sys2Proof.Machine.execSkget f s
  | .skput f => Sys2Proof.Machine.execSkput f s
  | .skrec f => Sys2Proof.Machine.execSkrec f s
  | .rst f => Sys2Proof.Machine.execRst f s
  | .rsig f => Sys2Proof.Machine.execRsig f s
  | .rwait f => Sys2Proof.Machine.execRwait f s
  | .crun f => Sys2Proof.Machine.execCrun f s
  | .cbar f => Sys2Proof.Machine.execCbar f s
  | .ptime f => Sys2Proof.Machine.execPtime f s
  | .submit f => Sys2Proof.Machine.execSubmit f s
  | .operandLogTimeout group => Sys2Proof.Machine.execOperandLogTimeout group s
  | .partitionIssueSelect core part => Sys2Proof.Machine.execPartitionIssueSelect core part s
  | .timedHeartbeatTick core => Sys2Proof.Machine.execTimedHeartbeatTick core s
  | .logicalHeartbeatTick group => Sys2Proof.Machine.execLogicalHeartbeatTick group s
  | .waitwRecheck group => Sys2Proof.Machine.execWaitwRecheck group s
  | .rwaitRecheck group => Sys2Proof.Machine.execRwaitRecheck group s
  | .copyOpComplete op => Sys2Proof.Machine.execCopyOpComplete op s
  | .tileOpComplete op => Sys2Proof.Machine.execTileOpComplete op s
  | .collOpComplete op reply => Sys2Proof.Machine.execCollOpComplete op reply s
  | .farAtomicAtHome op cell => Sys2Proof.Machine.execFarAtomicAtHome op cell s
  | .farAtomicResend op cell => Sys2Proof.Machine.execFarAtomicResend op cell s
  | .skGetAtHome op cell => Sys2Proof.Machine.execSkGetAtHome op cell s
  | .skPutAtHome op lane => Sys2Proof.Machine.execSkPutAtHome op lane s
  | .skReconcileAtHome op cell => Sys2Proof.Machine.execSkReconcileAtHome op cell s
  | .graphNodeStart graph node => Sys2Proof.Machine.execGraphNodeStart graph node s
  | .graphNodeFinish graph node => Sys2Proof.Machine.execGraphNodeFinish graph node s
  | .graphLaunchRetry graph node => Sys2Proof.Machine.execGraphLaunchRetry graph node s
  | .graphTimeout graph => Sys2Proof.Machine.execGraphTimeout graph s
  | .stepNop table => Sys2Proof.Machine.execStepNop table s
  | .stepPut table => Sys2Proof.Machine.execStepPut table s
  | .stepSig table => Sys2Proof.Machine.execStepSig table s
  | .stepWait table => Sys2Proof.Machine.execStepWait table s
  | .stepDone table => Sys2Proof.Machine.execStepDone table s
  | .crunTimeout table => Sys2Proof.Machine.execCrunTimeout table s
  | .beacon die port domain => Sys2Proof.Machine.execBeacon die port domain s
  | .orderedPacketArrival port domain watermark packet => Sys2Proof.Machine.execOrderedPacketArrival port domain watermark packet s
  | .orderedDelivery domain => Sys2Proof.Machine.execOrderedDelivery domain s
  | .unorderedDelivery arrival => Sys2Proof.Machine.execUnorderedDelivery arrival s
  | .remoteResend op reqId => Sys2Proof.Machine.execRemoteResend op reqId s
  | .watermarkStall domain => Sys2Proof.Machine.execWatermarkStall domain s
  | .sourceExclusion what => Sys2Proof.Machine.execSourceExclusion what s
  | .podBarrierArrival package job bar count root agree => Sys2Proof.Machine.execPodBarrierArrival package job bar count root agree s
  | .podBarrierRelease job bar ok => Sys2Proof.Machine.execPodBarrierRelease job bar ok s
  | .podSyncChange podstate => Sys2Proof.Machine.execPodSyncChange podstate s
  | .tail door off size value => Sys2Proof.Machine.execTail door off size value s
  | .reconcilePass => Sys2Proof.Machine.execReconcilePass s
  | .queueDeactivation q => Sys2Proof.Machine.execQueueDeactivation q s
  | .workerQueueSelect worker => Sys2Proof.Machine.execWorkerQueueSelect worker s
  | .sliceExpiry worker => Sys2Proof.Machine.execSliceExpiry worker s
  | .nopPacket worker => Sys2Proof.Machine.execNopPacket worker s
  | .launchPacket worker => Sys2Proof.Machine.execLaunchPacket worker s
  | .writePacket worker => Sys2Proof.Machine.execWritePacket worker s
  | .signalPacket worker => Sys2Proof.Machine.execSignalPacket worker s
  | .wrsigPacket worker => Sys2Proof.Machine.execWrsigPacket worker s
  | .waitsigPacket worker => Sys2Proof.Machine.execWaitsigPacket worker s
  | .graphPacket worker => Sys2Proof.Machine.execGraphPacket worker s
  | .fencePacket worker => Sys2Proof.Machine.execFencePacket worker s
  | .leaseHold worker => Sys2Proof.Machine.execLeaseHold worker s
  | .leaseDrop worker => Sys2Proof.Machine.execLeaseDrop worker s
  | .copyPacket worker => Sys2Proof.Machine.execCopyPacket worker s
  | .leaseWalkRetry q => Sys2Proof.Machine.execLeaseWalkRetry q s
  | .launchEnd launch => Sys2Proof.Machine.execLaunchEnd launch s
  | .workgroupPlace => Sys2Proof.Machine.execWorkgroupPlace s
  | .workgroupResume launch wg => Sys2Proof.Machine.execWorkgroupResume launch wg s
  | .preemptChoice launch wg => Sys2Proof.Machine.execPreemptChoice launch wg s
  | .save launch wg pa => Sys2Proof.Machine.execSave launch wg pa s
  | .flush launch wg => Sys2Proof.Machine.execFlush launch wg s
  | .drainTimeout launch wg => Sys2Proof.Machine.execDrainTimeout launch wg s
  | .forwardProgressSave core => Sys2Proof.Machine.execForwardProgressSave core s
  | .quantumEnd group => Sys2Proof.Machine.execQuantumEnd group s
  | .detCommit launch => Sys2Proof.Machine.execDetCommit launch s
  | .notifyWindowClose launch range misses majdie => Sys2Proof.Machine.execNotifyWindowClose launch range misses majdie s
  | .notifyRdidxWrite rdidx => Sys2Proof.Machine.execNotifyRdidxWrite rdidx s
  | .notifyEnable automig => Sys2Proof.Machine.execNotifyEnable automig s
  | .migrationUnit asid va place outcome => Sys2Proof.Machine.execMigrationUnit asid va place outcome s
  | .hostSkAccess fn access => Sys2Proof.Machine.execHostSkAccess fn access s
  | .hostFunctionFreeze fn addr => Sys2Proof.Machine.execHostFunctionFreeze fn addr s
  | .functionLevelReset fn => Sys2Proof.Machine.execFunctionLevelReset fn s
  | .ioDieReset choice => Sys2Proof.Machine.execIoDieReset choice s
  | .attestationRequest half => Sys2Proof.Machine.execAttestationRequest half s
  | .lockstep => Sys2Proof.Machine.execLockstep s
  | .pwrlimWrite write => Sys2Proof.Machine.execPwrlimWrite write s
  | .infoBlockWrite place bytes => Sys2Proof.Machine.execInfoBlockWrite place bytes s
  | .telemetryRefresh pwr tjmax clk => Sys2Proof.Machine.execTelemetryRefresh pwr tjmax clk s
  | .thermal tj => Sys2Proof.Machine.execThermal tj s
  | .linkTraining port trained farEnd => Sys2Proof.Machine.execLinkTraining port trained farEnd s
  | .eccCorrected errors => Sys2Proof.Machine.execEccCorrected errors s
  | .eccUncorrectable target => Sys2Proof.Machine.execEccUncorrectable target s
  | .scrubbing pa => Sys2Proof.Machine.execScrubbing pa s
  | .hbmRowRepair pa => Sys2Proof.Machine.execHbmRowRepair pa s
  | .eventRecord r => Sys2Proof.Machine.execEventRecord r s
  | .eventRingRoom rdidx => Sys2Proof.Machine.execEventRingRoom rdidx s
  | .waitsigRecheck q => Sys2Proof.Machine.execWaitsigRecheck q s
  | .hostCxlMemAccess fn access => Sys2Proof.Machine.execHostCxlMemAccess fn access s
  | .notifyDisable => Sys2Proof.Machine.execNotifyDisable s
  | .firmwareLaunchHalt launch => Sys2Proof.Machine.execFirmwareLaunchHalt launch s
  | .activeSetRemoval port => Sys2Proof.Machine.execActiveSetRemoval port s

end Sys2Proof.Machine
end

