-- ==== Sys2Proof/Machine/Schedule.lean ====
section
/-! DEFINITION. The default schedule (log 1, log 4): with nobody issuing and an empty agenda a clock passes, and every event that the
manual lets happen then is put on the agenda, engines first, then the front end, then two selections of each partition (R246). An event that
is not enabled when its turn comes changes nothing. -/

namespace Sys2Proof.Machine

/-! ## Time -/

/-- The ticks of pod time until the next clock of an arithmetic clock of `mhz` MHz: 8 in 5 clocks at 2.5 GHz (R4, R405). -/
def clockTicks (mhz : Nat) (pt : DWord) : Nat :=
  ((pt.toNat * mhz / Config.ticksPerUs + 1) * Config.ticksPerUs + mhz - 1) / mhz - pt.toNat

/-- A clock passes. -/
def tick (s : State) : State := passTime s 1 (clockTicks (max 1000 s.info.clkmhz.toNat) s.pt)

/-- Whether pod time is at a multiple of a number of microseconds. -/
def everyUs (s : State) (us : Nat) : Bool := s.pt.toNat % (us * Config.ticksPerUs) == 0

/-! ## Groups -/

/-- The events of one group. -/
def groupEvents (s : State) (k : Nat) (g : Group) : List Instr :=
  (if waitwDue s k g then [.waitwRecheck k] else []) ++ (if rwaitDue s k g then [.rwaitRecheck k] else []) ++
    (if logDue s k g then [.operandLogTimeout k] else []) ++
    (if launchDet s g.launch && isParked g && !g.detEnded then [.quantumEnd k] else [])

/-! ## Operations -/

/-- The distinct numbers of a list, in order. -/
def distinct (ns : List Nat) : List Nat := ns.foldl (fun t n => if t.contains n then t else t ++ [n]) []

/-- The cells an operation still has to visit, with the event of one visit. -/
def cellEvents (n : Nat) (o : EngineOp) : List Instr :=
  let left (ks : List Nat) : List Nat := (distinct ks).filter (fun k => !o.cells.contains k)
  match o.act with
  | .far _ _ _ _ _ _ lanes => (left (lanes.map (fun e => e.off))).map (fun k => .farAtomicAtHome n k)
  | .skget _ _ lanes => (left (lanes.map (fun e => e.off))).map (fun k => .skGetAtHome n k)
  | .skput _ lanes => (left (lanes.map (fun e => e.lane))).map (fun k => .skPutAtHome n k)
  | .skrec _ _ _ lanes => (left (lanes.map (fun e => e.off))).map (fun k => .skReconcileAtHome n k)
  | _ => []

/-- The events of one operation. -/
def opEvents (n : Nat) (o : EngineOp) : List Instr :=
  cellEvents n o ++ [match o.act with
    | .tile .. => .tileOpComplete n
    | .remote .. | .crun .. | .cbar .. => .collOpComplete n none
    | _ => .copyOpComplete n]

/-! ## Graphs, tables, packets -/

/-- The events of one graph. -/
def graphEvents (s : State) (n : Nat) (gr : GraphRun) : List Instr :=
  (if gr.begun then gr.ready.map (fun j => .graphNodeStart n j) else (List.range (min gr.nodes 1)).map (fun j => .graphNodeStart n j)) ++
    gr.running.map (fun p => .graphNodeFinish n p.1) ++
    (if everyUs s 1 then gr.running.map (fun p => .graphLaunchRetry n p.1) else []) ++ [.graphTimeout n]

/-- The events of one step table. -/
def tableEvents (n : Nat) : List Instr :=
  [.stepNop n, .stepPut n, .stepSig n, .stepWait n, .collOpComplete n none, .stepDone n, .crunTimeout n]

/-- The events of one unacknowledged packet. -/
def packetEvents (s : State) (u : Unacked) : List Instr :=
  (if !u.p.ordered && u.p.dest == s.info.pkgnum.toNat then [.unorderedDelivery ⟨16 + u.p.src % 4, u.p⟩] else []) ++
    (match u.op, u.table with
      | some n, _ | none, some n => [.remoteResend n u.p.reqId.toNat]
      | none, none => [])

/-- The events of the delivery points and ports. -/
def deliveryEvents (s : State) : List Instr :=
  s.coll.points.flatMap (fun p => [.orderedDelivery p.1, .watermarkStall p.1]) ++
    (if s.pt.toNat % 400 = 0 then s.coll.active.flatMap (fun p => (List.range 16).map (fun d => .beacon (p / 4) p d)) else [])

/-! ## The front end -/

/-- The event of the packet that a worker's queue has at its read index. -/
def workerPacket (s : State) (w : Nat) : List Instr :=
  match servedQueue s w with
  | none => []
  | some q =>
    match packetNow s q with
    | .error _ => [.nopPacket w]
    | .ok p =>
      let t := fld p 0 1
      [if t = 1 then .launchPacket w else if t = 2 then .writePacket w else if t = 3 then .signalPacket w
       else if t = 4 then .wrsigPacket w else if t = 5 then .waitsigPacket w else if t = 6 then .graphPacket w
       else if t = 7 then .fencePacket w else if t = 8 then (if fld p 2 1 = 1 then .leaseDrop w else .leaseHold w)
       else if t = 9 then .copyPacket w else .nopPacket w]

/-- The events of queues and workers. -/
def queueEvents (s : State) : List Instr :=
  (if everyUs s 20 then [.reconcilePass] else []) ++
    s.fe.queues.flatMap (fun p =>
      (if p.2.known then [.queueDeactivation p.1] else []) ++
        (if p.2.qstate = 2 then [.waitsigRecheck p.1] ++ (if everyUs s 20 then [.leaseWalkRetry p.1] else []) else [])) ++
    (if s.fe.queues.isEmpty then []
     else (List.range Config.workers).flatMap (fun w => [.sliceExpiry w, .workerQueueSelect w] ++ workerPacket s w))

/-- The events of one workgroup. -/
def wgEvents (s : State) (w : Workgroup) : List Instr :=
  match w.status with
  | .saving => match wgKern s w with
    | some k =>
      let key := wgKey w.launch w.idx
      [.save w.launch w.idx ((poolPlace s key (recordSize s key k)).getD 0)]
    | none => []
  | .flushing => [.flush w.launch w.idx]
  | .draining _ _ => [.drainTimeout w.launch w.idx]
  | .saved => [.workgroupResume w.launch w.idx]
  | _ => []

/-- The cores that hold a group. -/
def busyCores (s : State) : List Nat := distinct (s.groups.map (fun p => coreOf p.1))

/-- The events of launches and of the dispatcher. -/
def launchEvents (s : State) : List Instr :=
  (s.launches.filter (fun p => p.2.status != .ended)).flatMap (fun p =>
      (if p.2.kern.det then [.detCommit p.1] else []) ++ [.launchEnd p.1]) ++
    s.wgs.flatMap (fun p => wgEvents s p.2) ++
    (match waiting s with
      | [] => []
      | cs => (if (nextPlaced s).isSome then [.workgroupPlace] else cs.map (fun c => .preemptChoice c.lid c.idx)) ++
          (busyCores s).map (fun c => .forwardProgressSave c))

/-! ## The round -/

/-- Every event that may happen in a state, in the order of the default schedule; a logical tick follows its instruction at once (R220). -/
def plan (s : State) : List Instr :=
  (logicalDue s).map (fun k => .logicalHeartbeatTick k) ++
  s.ops.flatMap (fun p => opEvents p.1 p.2) ++ s.graphs.flatMap (fun p => graphEvents s p.1 p.2) ++
    s.tables.flatMap (fun p => tableEvents p.1) ++ s.coll.unacked.flatMap (fun p => packetEvents s p.2) ++ deliveryEvents s ++
    queueEvents s ++ s.res.full.map (fun x => .notifyWindowClose x.1 x.2.1 (Config.windowMisses s.pt.toNat x.1 x.2.1).val x.2.2) ++
    launchEvents s ++ s.groups.flatMap (fun p => groupEvents s p.1 p.2) ++
    (busyCores s).map (fun c => .timedHeartbeatTick c) ++
    (busyCores s).flatMap (fun c => (List.range 6).flatMap (fun p => [.partitionIssueSelect c p, .partitionIssueSelect c p]))

/-- Nobody issues and nothing is on the agenda: a clock passes, and the events of the default schedule come next. -/
def idle (s : State) : State :=
  let s1 := tick s
  { s1 with agenda := (plan s1).map (fun i => ⟨0, 0, i⟩) }

end Sys2Proof.Machine
end

