-- ==== Sys2Proof/Machine/Step.lean ====
section
/-! DEFINITION. One step of the package (log 1): the issuer's next instruction; with nobody issuing the agenda's next event; with an
empty agenda a clock of the default schedule. -/

namespace Sys2Proof.Machine

/-- One step. -/
def step (s : State) : Host.Outcome State Fault Refusal :=
  match s.cur with
  | some who =>
    match fetched s who with
    | .run i => exec i s
    | .take s1 => .next s1
    | .base => .refused .riscvBase
  | none =>
    match s.agenda with
    | a :: rest => if isEvent a.what then exec a.what (popAgenda s a rest) else .refused .notAnEvent
    | [] => .next (idle s)

/-- The state with an instruction of the opcode table stored where `step` fetches its next instruction (log 8). -/
def State.withFetchWord (s : State) (nbits w : Nat) : State := placeTableWord s nbits w

end Sys2Proof.Machine
end

