-- ==== Sys2Proof/Safety.lean ====
section
/-! DEFINITION. The terms in which claims speak of a step: a group that issues an instruction, an instruction that retires and what it
leaves alone, the results it writes, traps that are taken, and operations that are issued. -/

namespace Sys2Proof.Machine

/-- An outcome is a next state. -/
def isNext (o : Host.Outcome State Fault Refusal) : Bool :=
  match o with
  | .next _ => true
  | _ => false

/-! ## Issue -/

/-- Group `c.k` issues `i`: the scoreboard does not hold it (R299), and no logged access stands before it (R241). -/
abbrev Ready (s : State) (i : Instr) (c : Ctx) : Prop :=
  ctxOf s i = some c ∧ scoreHeld s c = false ∧ (c.g.handler = true ∨ c.g.log.entries = [])

/-- Group `c.k` issues a vector instruction that has a lane to work on (R81). -/
abbrev ReadyLanes (s : State) (i : Instr) (c : Ctx) : Prop := Ready s i c ∧ execMask c.g ≠ 0

/-- Group `c.k` issues `i` in user mode while accesses stand in its operand log (R241). -/
abbrev Behind (s : State) (i : Instr) (c : Ctx) : Prop :=
  ctxOf s i = some c ∧ scoreHeld s c = false ∧ c.g.handler = false ∧ c.g.log.entries ≠ []

/-- The address of the instruction that follows. -/
def after (i : Instr) (c : Ctx) : DWord := c.g.pc + BitVec.ofNat 64 (instBytes i)

/-! ## What a retiring instruction leaves alone -/

/-- A group that has retired an instruction after which it stands as `g1`, but for its counters of retirement: RIC and the
urgency grow by one, its wait ends, and a logical tick may have come due (R182, R220, R245, R246). -/
def Counted (g1 g' : Group) : Prop :=
  g' = { g1 with pc := g'.pc, sp := { g1.sp with ric := g1.sp.ric + 1 }, urg := g1.urg + 1, lastRetire := g'.lastRetire,
                 lastIssue := g'.lastIssue, waited := 0, detCount := g'.detCount, detEnded := g'.detEnded, tickDue := g'.tickDue,
                 barw := none, since := none }

/-- Everything outside the issuing group is as before: every other group, every other workgroup, memory, sibling cells, launches,
engines, queues and the agenda; of the group's own workgroup only the count of retired instructions has grown. -/
structure Outside (s t : State) (c : Ctx) : Prop where
  groups : ∀ j, j ≠ c.k → tget t.groups j = tget s.groups j
  wgs : ∀ key, key ≠ gWg c.g → tget t.wgs key = tget s.wgs key
  own : tget t.wgs (gWg c.g) = some { c.w with retired := c.w.retired + 1 }
  rest : t = { s with groups := t.groups, wgs := t.wgs, cur := none }

/-- `i` retires: exec answers a next state in which everything outside the group is as before, the group's PC is `pc`, and the group
is as `P` says. -/
def Retires (i : Instr) (s : State) (c : Ctx) (pc : DWord) (P : Group → Prop) : Prop :=
  ∃ t g', exec i s = .next t ∧ Outside s t c ∧ tget t.groups c.k = some g' ∧ g'.pc = pc ∧ P g'

/-- `i` retires with `v` written to scalar register `sd`, SCC left as `scc`, and nothing else of the group changed. -/
def WritesScalar (i : Instr) (s : State) (c : Ctx) (sd : Nat) (v : DWord) (scc : Bool) : Prop :=
  Retires i s c (after i c) (fun g' =>
    Counted { c.g with sregs := g'.sregs, scc := scc } g' ∧ sreg g' sd = v ∧ ∀ n, n ≠ sd → sreg g' n = sreg c.g n)

/-- `i` retires with mask `m` written to the pair that begins at scalar register `sd`, SCC left as `scc`, and nothing else of the
group changed. -/
def WritesPair (i : Instr) (s : State) (c : Ctx) (sd : Nat) (m : Mask) (scc : Bool) : Prop :=
  Retires i s c (after i c) (fun g' =>
    Counted { c.g with sregs := g'.sregs, scc := scc } g' ∧ spair g' sd = m ∧
      ∀ n, n ≠ sd → n ≠ sd + 1 → sreg g' n = sreg c.g n)

/-- A group's vector registers after a result of `w` bits has been written to `vd` in the lanes `act`: one register, or a pair for 64
bits; other lanes and registers as before; index 448 and above discard it (R71, R140). -/
def LanesWritten (g g' : Group) (vd w : Nat) (act : Nat → Bool) (r : Nat → DWord) : Prop :=
  if 384 ≤ vd then g'.vregs = g.vregs
  else
    (∀ l, l < 128 → vlane g' vd l = if act l then (r l).setWidth 32 else vlane g vd l) ∧
    (w = 64 → ∀ l, l < 128 → vlane g' (vd + 1) l = if act l then (r l).extractLsb' 32 32 else vlane g (vd + 1) l) ∧
    (∀ n, n ≠ vd → (w = 64 → n ≠ vd + 1) → vreg g' n = vreg g n)

/-- `i` retires with a vector result, and nothing else of the group changed but FPC, which is left as `fpc`. -/
def WritesLanes (i : Instr) (s : State) (c : Ctx) (vd w : Nat) (act : Nat → Bool) (fpc : Word) (r : Nat → DWord) : Prop :=
  Retires i s c (after i c) (fun g' =>
    Counted { c.g with vregs := g'.vregs, fpc := fpc } g' ∧ LanesWritten c.g g' vd w act r)

/-- Lane `l` is active for a vector instruction with predicate SP (R139). -/
def active (c : Ctx) (sp : BitVec 8) (l : Nat) : Bool := (activeMask c.g sp).getLsbD l

/-- The integer that lane `l` of an operand holds at TYPE (R121). -/
def laneInt (t : Nat) (x : Lanes) (l : Nat) : Int := elemInt t (laneAt x l)

/-! ## Traps -/

/-- A group in handler mode after a precise trap (R238). -/
structure Trapped (s t : State) (c : Ctx) (cause : Nat) (tval : DWord) (lanes : Mask) (tpc : DWord) : Prop where
  group : tget t.groups c.k = some { c.g with
    sp := { c.g.sp with
      tpc := tpc, tcause := BitVec.ofNat 8 (cause + (if c.g.scc then 128 else 0)), tval := tval, texec := execMask c.g,
      tlane := lanes },
    handler := true, pc := c.l.kern.handler, since := none, barw := none }
  groups : ∀ j, j ≠ c.k → tget t.groups j = tget s.groups j
  rest : t = { s with groups := t.groups, cur := none }

/-- `i` takes a precise trap into the kernel's handler. -/
def Traps (i : Instr) (s : State) (c : Ctx) (cause : Nat) (tval : DWord) (lanes : Mask) (tpc : DWord) : Prop :=
  ∃ t, exec i s = .next t ∧ Trapped s t c cause tval lanes tpc

/-- A precise trap of this group goes to a handler: user mode, and the kernel has one (R240). -/
abbrev Handled (c : Ctx) : Prop := c.g.handler = false ∧ c.l.kern.handler ≠ 0

/-- The TVAL of an OPERAND trap that an instruction's own entry raises, with a field code (R80). -/
def operandTval (i : Instr) (code : Nat) : DWord := BitVec.ofNat 32 code ++ (encode i).headD 0

/-! ## Parking and waiting at issue -/

/-- `i` parks its group, which then stands as `g` but for its park, and else leaves the state `s1`. -/
def ParksIn (i : Instr) (s s1 : State) (c : Ctx) (g : Group) (p : Park) : Prop :=
  exec i s = .next { putGroup s1 c.k { g with status := .parked p, parkPt := s.pt, parkClk := (getCore s c.w.core).clk } with cur := none }

/-- `i` parks its group, and nothing else changes. -/
def Parks (i : Instr) (s : State) (c : Ctx) (p : Park) : Prop := ParksIn i s s c c.g p

/-- `i` waits at issue, and nothing else changes. -/
def Stalls (i : Instr) (s : State) (c : Ctx) : Prop :=
  exec i s = .next { putGroup s c.k { c.g with status := .stalled } with cur := none }

/-- `i` meets the tape table in user mode: it becomes entry 0 of the operand log, unperformed, and the next instruction follows (R241). -/
def Logs (i : Instr) (s : State) (c : Ctx) (m : Miss) : Prop :=
  exec i s = .next { putGroup s c.k { c.g with
    log := ⟨[⟨c.g.pc, i⟩], 0, 0, m.tval, m.lanes⟩, lastIssue := (getCore s c.w.core).clk, pc := after i c } with cur := none }

/-- A value PAL may hold (R181). -/
abbrev PalSound (v : DWord) : Prop :=
  v.extractLsb' 15 49 = 0 ∧ 3 ≤ (v.extractLsb' 9 4).toNat ∧ (v.extractLsb' 9 4).toNat ≤ 8 ∧ v.extractLsb' 7 2 ≠ 3 ∧
    v.extractLsb' 4 2 ≠ 3

/-! ## Shapes of results -/

/-- An instruction of format S2 that writes SD with an operation on SD and SA, and with .SC writes SCC (R187). -/
def ScalarOp (i : S2 → Instr) (op : S2 → DWord → DWord → DWord) : Prop :=
  ∀ f s c, Ready s (i f) c →
    WritesScalar (i f) s c f.sd.toNat (op f (sreg c.g f.sd.toNat) (sval c.g f.lit f.sa))
      (if f.md.getLsbD 1 then op f (sreg c.g f.sd.toNat) (sval c.g f.lit f.sa) != 0 else c.g.scc)

/-- A vector instruction that writes VD at TYPE in its active lanes, raises no flag and never traps. -/
def LaneOp (i : VX → Instr) (r : VX → State → Ctx → Nat → DWord) : Prop :=
  ∀ f s c, ReadyLanes s (i f) c →
    WritesLanes (i f) s c f.vd.toNat (typeBits f.ty.toNat) (active c f.sp) c.g.fpc (r f s c)

/-- The flags that lanes raise together. -/
def FlagsOf (act : Nat → Bool) (r : Nat → Flags) (fl : Flags) : Prop :=
  ∀ j, j < 5 → fl.getLsbD j = laneIds.any (fun l => act l && (r l).getLsbD j)

/-- Whether a lane traps: a flag it raises is enabled, or FPC.SN is set and an operand of the lane signals (R135). -/
def laneTraps (fpc : Word) (act : Nat → Bool) (r : Nat → Flags) (sig : Nat → Bool) (l : Nat) : Bool :=
  act l && ((r l &&& fpcEnables fpc) != 0 || (fpc.getLsbD 12 && sig l))

/-- The end of a floating-point instruction (R135): with no lane that traps it retires as `done` says of the flags raised; else
the FP trap is taken, with the flags and the signalling operand in TVAL and the lanes in TLANE, and nothing is written. -/
def FloatEnds (i : Instr) (s : State) (c : Ctx) (act : Nat → Bool) (r : Nat → Flags) (sig : Nat → Bool) (done : Flags → Prop) : Prop :=
  ∀ fl, FlagsOf act r fl →
    ((∀ l, l < 128 → laneTraps c.g.fpc act r sig l = false) → done fl) ∧
    ((∃ l, l < 128 ∧ laneTraps c.g.fpc act r sig l = true) → Handled c →
      ∀ m : Mask, (∀ l, l < 128 → m.getLsbD l = laneTraps c.g.fpc act r sig l) →
        Traps i s c 0x08 (BitVec.ofNat 64 (fl.toNat + (if laneIds.any (fun l => act l && sig l) then 32 else 0))) m c.g.pc)

/-- A floating-point instruction that writes results of `w` bits in its active lanes. -/
def FloatOp (i : VX → Instr) (w : VX → Nat) (r : VX → State → Ctx → Nat → Nat × Flags) (sig : VX → State → Ctx → Nat → Bool) :
    Prop :=
  ∀ f s c, ReadyLanes s (i f) c →
    FloatEnds (i f) s c (active c f.sp) (fun l => (r f s c l).2) (sig f s c) (fun fl =>
      WritesLanes (i f) s c f.vd.toNat (w f) (active c f.sp) (fpcRaise c.g.fpc fl) (fun l => BitVec.ofNat 64 (r f s c l).1))

/-- Lane `l` of a list of elements. -/
abbrev lane (x : Lanes) (l : Nat) : DWord := laneAt x l

/-- Whether the element of a lane is a signalling NaN of a floating-point TYPE. -/
def signals (t : Nat) (x : Lanes) (l : Nat) : Bool := floatType t && isSNaN (fmtOf t) (lane x l).toNat

/-- `r` is the integer combination, by the operation MOD[2:0], of the active lanes that `p` picks (R157): the sum modulo 2^w, the least or
greatest value (that of TYPE's range when no lane is picked), or the bitwise and, or, exclusive or. -/
def Combines (c : Ctx) (f : VX) (s : State) (p : Nat → Bool) (r : DWord) : Prop :=
  let t := f.ty.toNat
  let w := typeBits t
  let ls := (List.range 128).filter (fun l => active c f.sp l && p l)
  let op := (f.md.extractLsb' 0 3).toNat
  let least : Int := if signedType t then -(2 ^ (w - 1)) else 0
  let greatest : Int := if signedType t then 2 ^ (w - 1) - 1 else 2 ^ w - 1
  (op = 0 ∧ r = elemOf t ((ls.map (fun l => laneInt t (opA s c f) l)).foldl (fun x y => x + y) 0)) ∨
  (op = 1 ∧ r = elemOf t ((ls.map (fun l => laneInt t (opA s c f) l)).foldl min greatest)) ∨
  (op = 2 ∧ r = elemOf t ((ls.map (fun l => laneInt t (opA s c f) l)).foldl max least)) ∨
  (op = 3 ∧ r = (ls.map (lane (opA s c f))).foldl (fun x y => x &&& y) (BitVec.ofNat 64 (2 ^ w - 1))) ∨
  (op = 4 ∧ r = (ls.map (lane (opA s c f))).foldl (fun x y => x ||| y) 0) ∨
  (op = 5 ∧ r = (ls.map (lane (opA s c f))).foldl (fun x y => x ^^^ y) 0)

/-- The special registers by number, with the values SYSR reads (R182). -/
abbrev specialTable (g : Group) : List DWord :=
  [g.sp.tpc, g.sp.tcause.setWidth 64, g.sp.tval, g.sp.texec.extractLsb' 0 64, g.sp.texec.extractLsb' 64 64,
   g.sp.tlane.extractLsb' 0 64, g.sp.tlane.extractLsb' 64 64, g.sp.fsp.setWidth 64, g.sp.fbase.setWidth 64,
   g.sp.flim.setWidth 64, g.sp.tdepth.setWidth 64, g.sp.hbcnt, g.sp.ric, g.sp.pjoin.setWidth 64]

/-! ## Scratchpad -/

/-- Bytes with a run of them replaced. -/
def storedAt (off : Nat) (bs : List Byte) (old : Nat → Byte) (a : Nat) : Byte :=
  if off ≤ a ∧ a < off + bs.length then bs.getD (a - off) 0 else old a

/-- The little-endian number at an offset of bytes. -/
def numAt (m : Nat → Byte) (off n : Nat) : Nat := ofBytes ((List.range n).map (fun j => m (off + j)))

/-- A workgroup's scratchpad as committed. -/
def padOf (w : Workgroup) (a : Nat) : Byte := mget 0 w.scratch a

/-- Whether an 8-byte word lies wholly in a run of bytes. -/
def wholeIn (off n word : Nat) : Bool := decide (off ≤ 8 * word) && decide (8 * word + 8 ≤ off + n)

/-- Two lists of watches are of the same words (R230). -/
def SameWatches (a b : List Watch) : Prop := a.map (fun x => (x.gidx, x.unit)) = b.map (fun x => (x.gidx, x.unit))

/-- `i` retires with the scratchpad of its workgroup left as `bytes` and its poison marks as `mark`, the workgroup otherwise as `w`, but
that its parked WAITWs may have been woken, and the group as `P` says; everything else is as before. -/
def StoresScratch (i : Instr) (s : State) (c : Ctx) (w : Workgroup) (bytes : Nat → Byte) (mark : Nat → Bool) (P : Group → Prop) : Prop :=
  ∃ t g' w', exec i s = .next t ∧ tget t.groups c.k = some g' ∧ g'.pc = after i c ∧ P g' ∧
    tget t.wgs (gWg c.g) = some w' ∧
    w' = { w with scratch := w'.scratch, spoison := w'.spoison, watch := w'.watch, retired := w.retired + 1 } ∧
    SameWatches w'.watch w.watch ∧
    (∀ a, padOf w' a = bytes a) ∧ (∀ n, mget false w'.spoison n = mark n) ∧
    (∀ j, j ≠ c.k → tget t.groups j = tget s.groups j) ∧ (∀ key, key ≠ gWg c.g → tget t.wgs key = tget s.wgs key) ∧
    t = { s with groups := t.groups, wgs := t.wgs, cur := none }

/-- A group as before, but for an urgency count that a barrier's phase may have reset (R245). -/
def SameButUrgency (old new : Option Group) : Prop := new = old ∨ new = old.map (fun g => { g with urg := 0 })

/-- A group that no longer lists the task of a frame of workgroup `key` among those that run (R210). -/
abbrev without (key frame : Nat) (g : Group) : Group := if gWg g = key then { g with promo := tdel g.promo frame } else g

/-- Nothing of the group's quantum stands uncommitted: it has buffered no store and sees its workgroup's scratchpad as it is (R206, R380). -/
abbrev AllCommitted (c : Ctx) : Prop := c.g.detBuf = [] ∧ c.w.shown = none

/-- In `t` the issuing group has retired with `v` written to scalar register `sd` and nothing else of it changed; no other group has. -/
def SetsScalar (t s : State) (c : Ctx) (sd : Nat) (v : DWord) : Prop :=
  ∃ g', tget t.groups c.k = some g' ∧ g'.pc = c.g.pc + BitVec.ofNat 64 c.len ∧ Counted { c.g with sregs := g'.sregs } g' ∧
    sreg g' sd = v ∧ (∀ n, n ≠ sd → sreg g' n = sreg c.g n) ∧ ∀ j, j ≠ c.k → tget t.groups j = tget s.groups j

/-- In `t` the issuing group has retired with `v` written to scalar register `sd`, and nothing else of it changed but its urgency. -/
def SetsScalarUrgent (t _s : State) (c : Ctx) (sd : Nat) (v pc : DWord) : Prop :=
  ∃ g', tget t.groups c.k = some g' ∧ g'.pc = pc ∧ Counted { c.g with sregs := g'.sregs, urg := g'.urg - 1 } g' ∧
    sreg g' sd = v ∧ ∀ n, n ≠ sd → sreg g' n = sreg c.g n

/-- In `t` the barrier word at `off` holds `next`, the rest of the scratchpad is as before, and with the phase complete the urgency of the
workgroup's other groups is 0. -/
def BarArrived (t s : State) (c : Ctx) (off next : Nat) (done : Bool) : Prop :=
  (∃ w', tget t.wgs (gWg c.g) = some w' ∧ ∀ a, padOf w' a = storedAt off (bytesOf 8 next) (padOf c.w) a) ∧
    (∀ key, key ≠ gWg c.g → tget t.wgs key = tget s.wgs key) ∧
    (∀ j, j ≠ c.k → tget t.groups j =
      (tget s.groups j).map (fun h => if done && gWg h == gWg c.g then { h with urg := 0 } else h)) ∧
    t.mem = s.mem ∧ t.launches = s.launches ∧ t.ops = s.ops

/-! ## Operations issued -/

/-- A counter of a group. -/
def count (g : Group) (ctr : Ctr) : Nat := (pends g ctr).length

/-- A tile operation as issue captures it, with PAL and the trap enables of TFLAGS. -/
abbrev tileAct (c : Ctx) (act : TileAct) (wr rd : List Nat) : OpAct :=
  .tile act c.g.pal ((c.g.tflags.extractLsb' 8 6).setWidth 32) wr rd

/-- The tile of control `d` has been filled element by element: bits, poison and flags by row and element; the bytes of other tiles are as
before, and TFLAGS has gained the flags raised. -/
def TileFilled (g g' : Group) (d : DWord) (f : Nat → Nat → (Nat × Bool) × Nat) : Prop :=
  (∀ r e, r < tRows d → e < tElems d → tileElem g' d r e = ((f r e).1.1 % 2 ^ (8 * fmtBytes (tFmt d)), (f r e).1.2)) ∧
  (∀ a, a < tOff d ∨ tOff d + tRows d * tRowb d ≤ a → mget 0 g'.tiles a = mget 0 g.tiles a) ∧
  (∀ j, j < 32 → g'.tflags.getLsbD j = (g.tflags.getLsbD j ||
    (List.range (tRows d)).any (fun r => (List.range (tElems d)).any (fun e => (f r e).2.testBit j))))

/-- The tape entries in the table that the issuing group's operations share (R26; of a DET launch the model's reading, log 100). -/
abbrev tableUse (s : State) (c : Ctx) : List TapeEntry :=
  (allTape s).filter (sharesTape s c.g.launch c.w.lcore c.w.core c.l.kern.det)

/-- There is room for one more operation on a counter and for its tape entries (R21, R26). In a DET launch entries of the copy and collective
engines find their place at the commit; those of tile operations stand beside what commits and tile operations hold (the model's reading, log
42). -/
abbrev Room (s : State) (c : Ctx) (ctr : Ctr) (entries : Nat) : Prop :=
  count c.g ctr < Config.counterMax ∧
  (c.l.kern.det = false → (tableUse s c).length + entries ≤ Config.tapeEntries) ∧
  (c.l.kern.det = true → ctr = .tile →
    ((tableUse s c).filter (fun e => lasting e || e.tileOf.isSome)).length + entries ≤ Config.tapeEntries)

/-- An operation has been issued: it is in flight under the next operation number with the group's identity and the core's next
command tag, which an operation that waits for a commit is given there (R266, R378); its counter has grown by one, and nothing else has changed
but what a retirement changes and the core's tape table. -/
structure Issued (s t : State) (c : Ctx) (i : Instr) (ctr : Ctr) (act : OpAct) (record : Option Nat)
    (spans : List Span) : Prop where
  op : ∃ o, tget t.ops s.opNo = some o ∧ o.act = act ∧ o.record = record ∧ o.group = c.k ∧ o.gidx = c.g.gidx ∧
    o.launch = c.g.launch ∧ o.wg = c.g.wg ∧ o.core = c.w.core ∧ o.pc = c.g.pc ∧ o.ctr = some ctr ∧ o.performed = false ∧
    o.deferred = (c.l.kern.det && decide (ctr ≠ .tile)) ∧ (o.deferred = false → o.tag = (getCore s c.w.core).tag + 1)
  others : ∀ n, n ≠ s.opNo → tget t.ops n = tget s.ops n
  number : t.opNo = s.opNo + 1
  tag : (getCore t c.w.core).tag =
    if c.l.kern.det = true ∧ ctr ≠ .tile then (getCore s c.w.core).tag else (getCore s c.w.core).tag + 1
  tape : (getCore t c.w.core).tape = (getCore s c.w.core).tape ++
    (spans ++ (record.map (fun r => (⟨r, r + 16, true⟩ : Span))).toList).map (fun x =>
      (⟨s.opNo, c.w.sbase + x.lo, c.w.sbase + x.hi, x.write, if ctr = .tile then some c.k else none, if c.l.kern.det then some c.k else none⟩ :
        TapeEntry))
  group : ∃ g', tget t.groups c.k = some g' ∧ g'.pc = after i c ∧ pends g' ctr = pends c.g ctr ++ [⟨s.opNo, false, none⟩] ∧
    g'.sregs = c.g.sregs ∧ g'.vregs = c.g.vregs ∧ g'.scc = c.g.scc ∧ g'.xregs = c.g.xregs ∧ g'.tiles = c.g.tiles
  groups : ∀ j, j ≠ c.k → tget t.groups j = tget s.groups j
  memory : t.mem = s.mem ∧ t.mpoison = s.mpoison ∧ t.sk = s.sk
  scratch : ∀ key w, tget s.wgs key = some w → ∃ w', tget t.wgs key = some w' ∧ w'.scratch = w.scratch ∧ w'.spoison = w.spoison
  front : t.fe = s.fe ∧ t.launches = s.launches ∧ t.info = s.info ∧ t.pt = s.pt

/-- The status record an instruction of format CX asks for: with REC, the offset in SD (R251, R253). -/
abbrev recordOf (c : Ctx) (f : CX) : Option Nat := if f.md2.getLsbD 0 then some (sval c.g f.lit f.sd).toNat else none

/-- A status record may lie at an offset: a multiple of 16, inside the allocation (R253). -/
abbrev RecordFits (c : Ctx) (off : DWord) : Prop := off.toNat % 16 = 0 ∧ off.toNat + 16 ≤ c.l.kern.scratch ∧ off.toNat < 2 ^ 63

/-- With a sound status record and room, an instruction of the copy engine issues `act`; with an unsound record it traps, ALIGN before
SCRATCH_BOUNDS, and without room it waits at issue (R21, R26, R253, R255), in a DET launch parked until the commit (the model's reading, log 42). -/
def IssuesCopy (i : CX → Instr) (f : CX) (s : State) (c : Ctx) (ctr : Ctr) (act : OpAct) (spans : List Span) : Prop :=
  let off := sval c.g f.lit f.sd
  let room : Prop := Room s c ctr (spans.length + (recordOf c f).toList.length)
  ((f.md2.getLsbD 0 = true → RecordFits c off) →
    (room → ∃ t, exec (i f) s = .next t ∧ Issued s t c (i f) ctr act (recordOf c f) spans) ∧
    (¬room → if c.l.kern.det then Parks (i f) s c .commit else Stalls (i f) s c)) ∧
  (f.md2.getLsbD 0 = true → Handled c →
    (off.toNat % 16 ≠ 0 → Traps (i f) s c 0x05 off 0 c.g.pc) ∧
    (off.toNat % 16 = 0 → ¬RecordFits c off → Traps (i f) s c 0x04 off 0 c.g.pc))

/-- A translation register's value at issue is captured: the lanes of an operation are the active lanes in their order, at the base plus
their index. -/
abbrev activeIndexes (s : State) (c : Ctx) (f : CX) : List (Nat × Nat) :=
  ((List.range 128).filter (fun l => (execMask c.g).getLsbD l)).map (fun l => (l, (lane (srcLanes s c f.lit f.va.toNat 1) l).toNat))

/-- An operation of the collective engine has been issued: in flight under the next operation number, counted on coll, its ranges in the
core's tape table; registers, memory, scratchpads and every other group are as before. -/
structure IssuedColl (s t : State) (c : Ctx) (i : Instr) (act : OpAct) (record : Option Nat) (spans : List Span) : Prop where
  op : ∃ o, tget t.ops s.opNo = some o ∧ o.act = act ∧ o.record = record ∧ o.group = c.k ∧ o.gidx = c.g.gidx ∧
    o.launch = c.g.launch ∧ o.wg = c.g.wg ∧ o.core = c.w.core ∧ o.pc = c.g.pc ∧ o.ctr = some .coll ∧
    o.deferred = c.l.kern.det ∧ (o.deferred = false → o.tag = (getCore s c.w.core).tag + 1)
  number : t.opNo = s.opNo + 1
  tape : (getCore t c.w.core).tape = (getCore s c.w.core).tape ++
    (spans ++ (record.map (fun r => (⟨r, r + 16, true⟩ : Span))).toList).map (fun x =>
      (⟨s.opNo, c.w.sbase + x.lo, c.w.sbase + x.hi, x.write, none, if c.l.kern.det then some c.k else none⟩ : TapeEntry))
  group : ∃ g', tget t.groups c.k = some g' ∧ g'.pc = after i c ∧ g'.coll = c.g.coll ++ [⟨s.opNo, false, none⟩] ∧
    g'.sregs = c.g.sregs ∧ g'.vregs = c.g.vregs ∧ g'.scc = c.g.scc ∧ g'.xregs = c.g.xregs ∧ g'.tiles = c.g.tiles
  groups : ∀ j, j ≠ c.k → tget t.groups j = tget s.groups j
  memory : t.mem = s.mem ∧ t.mpoison = s.mpoison ∧ t.sk = s.sk
  scratch : ∀ key w, tget s.wgs key = some w → ∃ w', tget t.wgs key = some w' ∧ w'.scratch = w.scratch ∧ w'.spoison = w.spoison

/-- The status record an instruction of format QX asks for (R326). -/
abbrev recordQ (c : Ctx) (f : QX) : Option Nat := if f.md.getLsbD 2 then some (sval c.g f.lit f.sd).toNat else none

/-- What an instruction of the collective engine needs to issue, beside what its own entry asks for. -/
abbrev CollRoom (s : State) (c : Ctx) (f : QX) (entries : Nat) : Prop :=
  (f.md.getLsbD 2 = true → RecordFits c (sval c.g f.lit f.sd)) ∧ Room s c .coll (entries + (recordQ c f).toList.length)

/-- A packet has been sent for operation `op`, in a launch that is not DET: it awaits its acknowledgment (R314, R322). -/
def Sent (t : State) (op : Nat) (P : RemotePacket → Prop) : Prop :=
  ∃ key u, tget t.coll.unacked key = some u ∧ u.op = some op ∧ P u.p

/-! ## Events of groups and of operations -/

/-- Group `k` is resident as `g`, with its workgroup and its launch. -/
abbrev Resident (s : State) (k : Nat) (g : Group) (w : Workgroup) (l : Launch) : Prop :=
  tget s.groups k = some g ∧ tget s.wgs (gWg g) = some w ∧ tget s.launches g.launch = some l

/-- A group with one more tick counted. -/
abbrev ticked (g : Group) : Group := { g with sp := { g.sp with hbcnt := g.sp.hbcnt + 1 } }

/-- What a heartbeat tick does to group `k`: in handler mode it is held, or counted when one is held already; else it is counted, and outside a
DET launch the oldest frame that can be promoted is (R216, R220, R221). -/
def Ticked (s : State) (k : Nat) (t : State) : Prop :=
  ((∀ g w l, ¬Resident s k g w l) → t = s) ∧
  ∀ g w l, Resident s k g w l →
    (g.handler = true → g.tickHeld = false → t = putGroup s k { g with tickHeld := true }) ∧
    (g.handler = true → g.tickHeld = true → t = putGroup s k (ticked g)) ∧
    (g.handler = false → l.kern.det = true → t.mem = s.mem ∧ t.wgs = s.wgs ∧
      ∃ cand, t = putGroup s k { ticked g with candidates := cand } ∧ (cand = g.candidates ∨ ∃ off, off ∈ frameOffs g ∧
        (∀ x ∈ g.candidates, x.1 ≠ off) ∧ cand = g.candidates ++ [(off, (g.sp.hbcnt + 1).toNat)])) ∧
    (g.handler = false → l.kern.det = false →
      ((∀ off ∈ frameOffs g, promote (putGroup s k (ticked g)) k off = none) → t = putGroup s k (ticked g)) ∧
      ∀ older off younger m, frameOffs g = older ++ off :: younger →
        (∀ o ∈ older, promote (putGroup s k (ticked g)) k o = none) → promote (putGroup s k (ticked g)) k off = some m → t = m)

/-- Ticks reach several groups one after the other. -/
def TicksReach : List Nat → State → State → Prop
  | [], s, t => t = s
  | k :: ks, s, t => ∃ m, Ticked s k m ∧ TicksReach ks m t

/-- Timed ticks of the next `n` counts of a core's clock, each reaching the groups for which it is due (R217, R220). -/
def TicksCounted : Nat → Nat → State → State → Prop
  | 0, _, s, t => t = s
  | n + 1, core, s, t =>
    let c := getCore s core
    ∃ m, TicksReach (timedDue s core (c.ticked + 1).toNat) (putCore s core { c with ticked := c.ticked + 1 }) m ∧ TicksCounted n core m t

/-- An operation of a resident group that may be performed now, without a status record and outside the commits of a DET launch. -/
structure Performs (s : State) (n : Nat) (o : EngineOp) (k : Nat) (g : Group) (w : Workgroup) (l : Launch) (ctr : Ctr) : Prop where
  op : tget s.ops n = some o
  may : mayPerform s n o = true
  group : opAt s o = some (k, g)
  wg : tget s.wgs (gWg g) = some w
  resident : w.status = .resident
  launch : tget s.launches o.launch = some l
  normal : onDev s o = false
  plain : o.record = none ∧ o.quantum = none ∧ o.seen.testBit 4 = false ∧ o.ctr = some ctr ∧ o.src = none ∧ o.lost = false ∧ o.cellSeen = []

/-- An operation is complete: it is gone with its tape entries, and leaves its counter when it is the oldest there; the group's PC and scalar
registers are as before (R20, R23, R228). -/
structure Completed (s t : State) (n : Nat) (o : EngineOp) (k : Nat) (g : Group) (ctr : Ctr) : Prop where
  op : tget t.ops n = none
  others : ∀ m, m ≠ n → tget t.ops m = tget s.ops m
  tape : (getCore t o.core).tape = (getCore s o.core).tape.filter (fun e => e.op != n)
  group : ∃ g', tget t.groups k = some g' ∧ g'.pc = g.pc ∧ g'.sregs = g.sregs ∧ g'.tiles = g.tiles ∧
    ∀ rest, pends g ctr = ⟨n, false, none⟩ :: rest → (∀ p ∈ rest, p.op ≠ n ∧ p.done = false) → pends g' ctr = rest

/-- The scratchpad of a workgroup holds `bytes`. -/
def PadIs (t : State) (key : Nat) (bytes : Nat → Byte) : Prop := ∃ w, tget t.wgs key = some w ∧ ∀ a, padOf w a = bytes a

/-- The last of some rows of `len` bytes, `stride` apart from `base`, that holds an address. -/
def lastRow (rows base stride len a : Nat) : Option Nat :=
  (List.range rows).reverse.find? (fun r => decide (base + r * stride ≤ a) && decide (a < base + r * stride + len))

/-- A request of a core to a home may be sent, or has been: fewer than 64 of them are unacknowledged there, or one of those has its reply
under way (R262). -/
def MaySend (s : State) (core home n cell : Nat) : Prop :=
  (reqFor s n cell).isSome = true ∨ (s.reqs.filter (fun r => r.core == core && r.home == home)).length < 64 ∨
    ∃ r ∈ s.reqs, r.core = core ∧ r.home = home ∧ r.reply.isSome = true

/-- The values a cell takes as lanes apply a read-modify-write to it one after the other, the first of them the value found (R163). -/
def Chain (aop w : Nat) (signed : Bool) (lanes : List FarLane) (xs : List Nat) (old : Nat) : Prop :=
  xs.length = lanes.length + 1 ∧ xs[0]? = some old ∧
    ∀ i e x y, lanes[i]? = some e → xs[i]? = some x → xs[i + 1]? = some y → y = atomNew aop w signed x e.v.toNat e.c.toNat

/-! ## Graphs, step tables and remote packets -/

/-- A run of `n` bytes at a virtual address lies from physical address `pa` on, on pages without SK that may be read and written. -/
abbrev MapsTo (s : State) (sp : Space) (va n pa : Nat) : Prop :=
  ∀ i, i < n → ∀ write : Bool, spacePa s sp ((va + i) % 2 ^ 64) write = some (pa + i, false)

/-- The bytes of memory from a physical address on. -/
abbrev bytesAt (s : State) (pa n : Nat) : List Byte := (List.range n).map (fun i => memByte s (pa + i))

/-- Memory is as before but for `n` bytes at `pa`. -/
abbrev OnlyAt (s t : State) (pa n : Nat) : Prop := ∀ b, b < pa ∨ pa + n ≤ b → memByte t b = memByte s b

/-- What a remote packet does in memory at its destination: it stores its bytes, or adds to a word (R328, R329). -/
def RemoteEffect (s t : State) (p : RemotePacket) : Prop :=
  ∀ sp x pa, packetTarget s p = some (sp, x) → p.ocpm = false → p.ordered = false ∨ p.domain = 0 →
    (∀ ds, p.act = .store ds → MapsTo s sp p.addr.toNat ds.length pa →
      (∀ j d, ds[j]? = some d → memByte t (pa + j) = d.1) ∧ OnlyAt s t pa ds.length) ∧
    (∀ v, p.act = .add v → p.addr.toNat % 8 = 0 → MapsTo s sp p.addr.toNat 8 pa → poisonIn s.mpoison pa 8 = false →
      memNat t pa 8 = (memNat s pa 8 + v.toNat) % 2 ^ 64 ∧ OnlyAt s t pa 8)

/-- A step table at a step it has begun and not completed, of a launch that runs and is not DET, so that its packets are of domain 0 (R325); its
entries and its local words can be reached. -/
structure StepRuns (s : State) (n : Nat) (r : TableRun) (sp loc : Space) (kind : Nat) : Prop where
  table : tget s.tables n = some r
  runs : tableHalted s r = false
  served : tableStopped s r = false
  spaces : tableSpaces s r = some (sp, loc)
  started : r.started = true
  kind : fld r.entry 0 1 = kind
  open' : r.complete = false
  paced : tableDet s n = false
  domain : ∀ lid l, r.launch = some lid → tget s.launches lid = some l → l.domain = 0

/-! ## Packets of queues -/

/-- A worker serves queue `q`, whose packet under way is `p`, of a type, with no bad field (R352, R354, R359, R363). -/
abbrev Serves (s : State) (worker q : Nat) (p : List Byte) (kind : Nat) : Prop :=
  servedQueue s worker = some q ∧ packetNow s q = .ok p ∧ fld p 0 1 = kind ∧ badField p = none

/-- The packet at RDIDX of queue `q`, kept as `x`, is complete: RDIDX passes it and its cursors are cleared; a worker leaves a queue that
holds no further packet (R357, R363). -/
def Finished (t : State) (q : Nat) (x : Queue) : Prop :=
  getQ t q = { x with rdidx := x.rdidx + 1, stepc := 0, bytec := 0, waitFrom := none, granting := none,
                      packet := none, holding := none, qstate := if x.rdidx + 1 = x.wridx then 0 else 1 } ∧
  (x.rdidx + 1 = x.wridx → ∀ w, tget t.fe.workers w ≠ some q)

/-- The packet at RDIDX of queue `q`, kept as `x`, waits: QSTATE is WAITING, RDIDX and the cursors are as before, and no worker serves the
queue (R357, R363). -/
def Waits (s t : State) (q : Nat) (x : Queue) : Prop :=
  getQ t q = { x with qstate := 2, waitFrom := some (x.waitFrom.getD s.pt) } ∧ ∀ w, tget t.fe.workers w ≠ some q

/-- An address outside the descriptor of a queue. -/
abbrev OutsideDesc (s : State) (q b : Nat) : Prop := b < s.info.qtbase.toNat + 128 * q ∨ s.info.qtbase.toNat + 128 * q + 128 ≤ b

/-- Memory outside a queue's descriptor holds `bytes` at `pa` and is else as before. -/
def Holds (s t : State) (q pa : Nat) (bytes : List Byte) : Prop :=
  ∀ b, OutsideDesc s q b → memByte t b = storedAt pa bytes (memByte s) b

/-- The bytes of a block that the next unit of WRSIG and COPY moves: those of one aligned 128-byte destination line (R357). -/
abbrev unitLen (p : List Byte) (x : Queue) : Nat := min (fld p 24 8 - x.bytec.toNat) (128 - (fld p 16 8 + x.bytec.toNat) % 128)

/-- A unit of a block can be moved: its source reads as `bytes`, none poisoned, and its destination lies at `pa`. -/
abbrev UnitMoves (s : State) (q : Nat) (p : List Byte) (x : Queue) (pa : Nat) (bytes : List Byte) : Prop :=
  (∃ seen, spRead s (.asid (qDesc s q).asid) ((fld p 8 8 + x.bytec.toNat) % 2 ^ 64) (unitLen p x) =
    .ok (bytes.map (fun b => (b, false)), seen)) ∧
  MapsTo s (.asid (qDesc s q).asid) ((fld p 16 8 + x.bytec.toNat) % 2 ^ 64) (unitLen p x) pa

/-- Every walk of a launch's pages grants, whatever stands in the queue's own descriptor. -/
abbrev WalksGrant (s : State) (q asid : Nat) (rs : List LRange) (k : Kernel) (ls cs : List Leaf) : Prop :=
  ∀ m : State, (∀ b, OutsideDesc s q b → memByte m b = memByte s b) → m.info = s.info → m.res = s.res →
    walkRanges m asid rs = .grant ls ∧ walkCode m asid k = .grant cs

/-! ## The dispatcher and the I/O die -/

/-- A launch is halted: it runs no longer, nor waits for its lease, and every group of it is frozen (R266). -/
def Halted (s t : State) (lid : Nat) : Prop :=
  (∀ l, tget s.launches lid = some l → ∃ l', tget t.launches lid = some l' ∧
    l'.status = (if l.status = .running ∨ l.status = .granting then .halted else l.status)) ∧
  ∀ k g, tget s.groups k = some g → g.launch = lid → tget t.groups k = some { g with status := .frozen }

/-- The only group of a DET launch as it runs at the commit: from committed values, its quantum's stores made (R378). -/
abbrev atCommitOf (s : State) (lid k : Nat) (g : Group) : State := putGroup (applyStores (setShown s lid false) k) k { g with status := .run }

/-- The commit of launch `lid` takes place now, and finds of the launch one group, parked at instruction `i` until the commit, and nothing else to do;
`c` is the group as `i` runs there. -/
structure ParkedAlone (s : State) (lid k : Nat) (i : Instr) (c : Ctx) (g : Group) (l : Launch) : Prop where
  launch : tget s.launches lid = some l
  ready : commitReady s lid l = true
  alone : s.groups = [(k, g)]
  own : g.launch = lid
  parked : g.status = .parked .commit
  noWork : s.ops = [] ∧ s.tables = [] ∧ (getPoint s l.domain).waiting = [] ∧ l.left = [] ∧ l.carried = [] ∧ l.cbars = []
  bare : g.detBuf = [] ∧ g.detOps = [] ∧ g.late = [] ∧ g.tile = [] ∧ g.candidates = [] ∧ g.log.entries = [] ∧ g.sp.fsp = g.sp.fbase
  here : ∀ e ∈ s.wgs, e.2.launch = lid → e.2.status ≠ .saved
  fetched : groupFetch (atCommitOf s lid k g) k = .run i
  runs : groupCtx (atCommitOf s lid k g) k i = some c

/-- The commit of launch `lid` retires the instruction at which group `c.k` is parked: the group runs on at the next one, its scalar registers but
`sd`, which holds `v`, as they were, and `P` holds of the state and of the group. -/
def CommitRetires (s : State) (lid : Nat) (i : Instr) (c : Ctx) (P : State → Group → Prop) : Prop :=
  ∃ t g', exec (.detCommit lid) s = .next t ∧ tget t.groups c.k = some g' ∧ g'.pc = after i c ∧ g'.status = .run ∧ P t g'

/-- Of a group's scalar registers `sd` holds `v`, and the others are as they were. -/
abbrev OnlyScalar (g g' : Group) (sd : Nat) (v : DWord) : Prop := sreg g' sd = v ∧ ∀ n, n ≠ sd → sreg g' n = sreg g n

/-- A workgroup has left its core: no group of it is resident, and its slots are free. -/
def Vacated (t : State) (key : Nat) : Prop :=
  (∀ k g, tget t.groups k = some g → gWg g ≠ key) ∧ ∀ w, tget t.wgs key = some w → w.slots = [] ∧ w.spareHeld = false

/-- The 64 bytes of an event record (R401). -/
abbrev recordOfEvent (r : EventRec) : List Byte :=
  bytesOf 8 r.pt.toNat ++ [r.cause, r.srckind, 0, 0] ++ bytesOf 4 r.launch.toNat ++ bytesOf 8 r.src.toNat ++ bytesOf 8 r.arg0.toNat ++
    bytesOf 8 r.arg1.toNat ++ List.replicate 24 0

/-- A record reaches the arbiter of a package whose boot has not failed when the ring is enabled: with room and nothing held it is written in the
slot at WRIDX and WRIDX grows by one; else it is held, up to 256 of them (R396, R402). -/
def Recorded (s t : State) (r : EventRec) : Prop :=
  let hdr := s.info.evhdr.toNat
  let wr := memNat s (hdr + 16) 4
  let slot := memNat s hdr 8 + 64 * (wr % 2 ^ memNat s (hdr + 8) 1)
  s.info.bootstate ≠ 2 → ringEnabled s hdr = true →
    (ringFull s hdr = false → s.evHeld = [] →
      t.evHeld = [] ∧ (slot + 64 ≤ hdr ∨ hdr + 64 ≤ slot → memNat t (hdr + 16) 4 = (wr + 1) % 2 ^ 32 ∧
        ∀ j b, (recordOfEvent r)[j]? = some b → memByte t (slot + j) = b)) ∧
    (ringFull s hdr = true ∨ s.evHeld ≠ [] → s.evHeld.length < 256 → t.evHeld = s.evHeld ++ [r])

/-- A record made now, with its cause, kind of source and arguments. -/
abbrev recordNow (s : State) (cause kind : BitVec 8) (launch : BitVec 32) (src arg0 arg1 : DWord) : EventRec :=
  { pt := s.pt, cause := cause, srckind := kind, launch := launch, src := src, arg0 := arg0, arg1 := arg1 }

end Sys2Proof.Machine
end

