-- ==== Sys2Proof/Certificates/Slice0/Obligations.lean ====
section
/-! DEFINITION. The statements about this machine: each formalises what its docstring cites. -/

open Sys2Proof Sys2Proof.Machine

/-! ## Scalar instructions -/

/-- R187: what each instruction of MAJ 0x02 writes to SD, with .SC the new SCC, its frame, and that it completes.
A word with a reserved MOD bit set, .U outside SMULH, SMIN and SMAX included, raises ILLEGAL with code 3; 0x0230_8093 is
SMULH.U.SC s8, s9. -/
def Obligations.ScalarArithmeticResults : Prop :=
  ScalarOp .sadd (fun _ d a => d + a) ∧
  ScalarOp .ssub (fun _ d a => d - a) ∧
  ScalarOp .smul (fun _ d a => BitVec.ofNat 64 (d.toNat * a.toNat)) ∧
  ScalarOp .smulh (fun f d a =>
    if f.md.getLsbD 0 then BitVec.ofNat 64 (d.toNat * a.toNat / 2 ^ 64) else BitVec.ofInt 64 (d.toInt * a.toInt / 2 ^ 64)) ∧
  ScalarOp .sand (fun _ d a => d &&& a) ∧
  ScalarOp .sor (fun _ d a => d ||| a) ∧
  ScalarOp .sxor (fun _ d a => d ^^^ a) ∧
  ScalarOp .sandn (fun _ d a => d &&& ~~~a) ∧
  ScalarOp .sshl (fun _ d a => BitVec.ofNat 64 (d.toNat * 2 ^ (a.toNat % 64))) ∧
  ScalarOp .sshr (fun _ d a => BitVec.ofNat 64 (d.toNat / 2 ^ (a.toNat % 64))) ∧
  ScalarOp .ssra (fun _ d a => BitVec.ofInt 64 (d.toInt / 2 ^ (a.toNat % 64))) ∧
  ScalarOp .smin (fun f d a =>
    if f.md.getLsbD 0 then BitVec.ofNat 64 (min d.toNat a.toNat) else BitVec.ofInt 64 (min d.toInt a.toInt)) ∧
  ScalarOp .smax (fun f d a =>
    if f.md.getLsbD 0 then BitVec.ofNat 64 (max d.toNat a.toNat) else BitVec.ofInt 64 (max d.toInt a.toInt)) ∧
  ScalarOp .smov (fun _ _ a => a) ∧
  ScalarOp .spopc (fun _ _ a => BitVec.ofNat 64 ((List.range 64).filter (fun j => a.getLsbD j)).length) ∧
  ScalarOp .sclz (fun _ _ a => BitVec.ofNat 64 (if a = 0 then 64 else 63 - Nat.log2 a.toNat)) ∧
  (∀ mk ∈ ([.sadd, .ssub, .smul, .sand, .sor, .sxor, .sandn, .sshl, .sshr, .ssra, .smov, .spopc, .sclz] : List (S2 → Instr)),
    ∀ f v, f.md &&& 13 ≠ 0 → check v (mk f) = some (.illegal 3)) ∧
  (∀ mk ∈ ([.smulh, .smin, .smax] : List (S2 → Instr)), ∀ f v, f.md &&& 12 ≠ 0 → check v (mk f) = some (.illegal 3)) ∧
  decode 384 [0x02308093] = .ok (.smulh { sd := 8, sa := 9, md := 3 })

/-- R188, R189: SADDI adds the sign-extended immediate and SLI loads it, or the literal; SCC and every other register are as before.
R190, R191: SCMP sets SCC by the predicate of MOD[2:0], signed or with .U unsigned, and changes nothing else; SSEL writes SA or
SB by SCC.
R192: SBFX extracts and SBFI inserts a bitfield; position and length come from SB with .R and else from IMM32.
The words of each whose reserved or unused fields are not zero raise ILLEGAL, and SBFX and SBFI with a nonzero IMM32[31:16]
OPERAND with code 23. -/
def Obligations.ScalarImmediateCompareBitfield : Prop :=
  ((∀ f s c, Ready s (.saddi f) c →
      WritesScalar (.saddi f) s c f.sd.toNat (BitVec.ofInt 64 ((sreg c.g f.sd.toNat).toInt + f.imm.toInt)) c.g.scc) ∧
    (∀ f s c, Ready s (.sli f) c → WritesScalar (.sli f) s c f.sd.toNat (BitVec.ofInt 64 f.imm.toInt) c.g.scc) ∧
    (∀ f s c, Ready s (.sliLit f) c → WritesScalar (.sliLit f) s c f.sd.toNat f.lit c.g.scc)) ∧
  ((∀ f s c, Ready s (.scmp f) c →
      let a := sval c.g f.lit f.sa
      let b := sval c.g f.lit f.sb
      let x : Int := if f.md.getLsbD 3 then a.toNat else a.toInt
      let y : Int := if f.md.getLsbD 3 then b.toNat else b.toInt
      ∀ r : Bool,
        ((f.md.extractLsb' 0 3 = 0 ∧ (r = true ↔ x = y)) ∨ (f.md.extractLsb' 0 3 = 1 ∧ (r = true ↔ x ≠ y)) ∨
         (f.md.extractLsb' 0 3 = 2 ∧ (r = true ↔ x < y)) ∨ (f.md.extractLsb' 0 3 = 3 ∧ (r = true ↔ x ≤ y)) ∨
         (f.md.extractLsb' 0 3 = 4 ∧ (r = true ↔ x > y)) ∨ (f.md.extractLsb' 0 3 = 5 ∧ (r = true ↔ x ≥ y))) →
        Retires (.scmp f) s c (after (.scmp f) c) (fun g' => Counted { c.g with scc := r } g')) ∧
    (∀ f s c, Ready s (.ssel f) c →
      WritesScalar (.ssel f) s c f.sd.toNat (if c.g.scc then sval c.g f.lit f.sa else sval c.g f.lit f.sb) c.g.scc)) ∧
  (∀ f s c pos len,
      (pos, len) = (if f.md.getLsbD 1
        then (((sval c.g f.lit f.sb).extractLsb' 0 8).toNat, ((sval c.g f.lit f.sb).extractLsb' 8 8).toNat)
        else ((f.imm.extractLsb' 0 8).toNat, (f.imm.extractLsb' 8 8).toNat)) →
      (Ready s (.sbfx f) c →
        let n := min len 64
        let x := (sval c.g f.lit f.sa).toNat / 2 ^ pos % 2 ^ n
        WritesScalar (.sbfx f) s c f.sd.toNat
          (if n = 0 then 0
           else if f.md.getLsbD 0 then BitVec.ofInt 64 (if 2 ^ (n - 1) ≤ x then (x : Int) - 2 ^ n else x)
           else BitVec.ofNat 64 x) c.g.scc) ∧
      (Ready s (.sbfi f) c →
        ∀ r : DWord, (∀ j, j < 64 → r.getLsbD j =
            if pos ≤ j ∧ j < pos + len then (sval c.g f.lit f.sa).getLsbD (j - pos) else (sreg c.g f.sd.toNat).getLsbD j) →
          WritesScalar (.sbfi f) s c f.sd.toNat r c.g.scc)) ∧
  (∀ w a b : Word, w.extractLsb' 30 2 = 2 → w.extractLsb' 24 6 = 3 → ∃ n, decode 384 [w, a, b] = .error (.illegal n)) ∧
  decode 384 [0x0307FFC0] = .ok (.saddi { sd := 7, imm := BitVec.ofInt 16 (-64) }) ∧
  (∀ f v, f.imm ≠ 0 → check v (.sliLit f) = some (.illegal 5)) ∧
  (∀ f v, f.sd = 0 → 5 < (f.md.extractLsb' 0 3).toNat ∨ f.md.extractLsb' 4 4 ≠ 0 → check v (.scmp f) = some (.illegal 3)) ∧
  (∀ f v, f.sd ≠ 0 ∨ f.sc ≠ 0 ∨ f.md2 ≠ 0 ∨ f.imm ≠ 0 → ∃ n, check v (.scmp f) = some (.illegal n)) ∧
  (∀ f v, f.sc ≠ 0 ∨ f.md ≠ 0 ∨ f.md2 ≠ 0 ∨ f.imm ≠ 0 → ∃ n, check v (.ssel f) = some (.illegal n)) ∧
  (∀ mk ∈ ([.sbfx, .sbfi] : List (SX → Instr)), ∀ f v,
    (f.md.extractLsb' 2 6 ≠ 0 → check v (mk f) = some (.illegal 3)) ∧
    (f.sc ≠ 0 ∨ f.md2 ≠ 0 ∨ f.md.getLsbD 1 = false ∧ f.sb ≠ 0 → ∃ n, check v (mk f) = some (.illegal n)) ∧
    (check v (mk { f with imm := 0 }) = none → f.md.getLsbD 1 = true → f.imm ≠ 0 → check v (mk f) = some (.illegal 5)) ∧
    (check v (mk { f with imm := 0 }) = none → f.md.getLsbD 1 = false → f.imm.extractLsb' 16 16 ≠ 0 → check v (mk f) = some (.operand 23))) ∧
  (∀ f v, f.md.getLsbD 0 = true → check v (.sbfi f) = some (.illegal 3))

/-- R64, R65, R196: BRC goes to its target when COND holds and on else; CALL also writes LINK, and only when COND holds.
R57, R197: RET goes to LINK and JMP to SA, which JMP.L reads before it sets LINK to the instruction that follows; a target with
bit 1 or 0 set raises ALIGN at the jump with the target in TVAL, and LINK is not written. -/
def Obligations.JumpsCallsAndReturns : Prop :=
  (∀ (f : SB) s c taken,
      (taken = true ↔
        f.cond = 0 ∨ (f.cond = 1 ∧ c.g.scc = true) ∨ (f.cond = 2 ∧ c.g.scc = false) ∨
        (f.cond = 3 ∧ sreg c.g 158 = 0 ∧ sreg c.g 159 = 0) ∨ (f.cond = 4 ∧ ¬(sreg c.g 158 = 0 ∧ sreg c.g 159 = 0)) ∨
        (f.cond = 5 ∧ sreg c.g 156 = 0 ∧ sreg c.g 157 = 0) ∨ (f.cond = 6 ∧ ¬(sreg c.g 156 = 0 ∧ sreg c.g 157 = 0))) →
      f.cond.toNat ≤ 6 →
      let target := BitVec.ofInt 64 (c.g.pc.toNat + 4 * f.off.toInt)
      (Ready s (.brc f) c →
        Retires (.brc f) s c (if taken then target else c.g.pc + 4) (fun g' => Counted c.g g')) ∧
      (Ready s (.call f) c →
        Retires (.call f) s c (if taken then target else c.g.pc + 4) (fun g' =>
          if taken then
            Counted { c.g with sregs := g'.sregs } g' ∧ sreg g' 155 = c.g.pc + 4 ∧ ∀ n, n ≠ 155 → sreg g' n = sreg c.g n
          else Counted c.g g'))) ∧
  ((∀ f s c, Ready s (.ret f) c →
      ((sreg c.g 155).toNat % 4 = 0 → Retires (.ret f) s c (sreg c.g 155) (fun g' => Counted c.g g')) ∧
      ((sreg c.g 155).toNat % 4 ≠ 0 → Handled c → Traps (.ret f) s c 0x05 (sreg c.g 155) 0 c.g.pc)) ∧
    (∀ f s c, Ready s (.jmp f) c →
      let target := sval c.g f.lit f.sa
      (target.toNat % 4 = 0 →
        Retires (.jmp f) s c target (fun g' =>
          if f.md.getLsbD 0 then
            Counted { c.g with sregs := g'.sregs } g' ∧ sreg g' 155 = c.g.pc + (if f.lit.isSome then 12 else 4) ∧
              ∀ n, n ≠ 155 → sreg g' n = sreg c.g n
          else Counted c.g g')) ∧
      (target.toNat % 4 ≠ 0 → Handled c → Traps (.jmp f) s c 0x05 target 0 c.g.pc)))

/-- R199, R235, R236, R268: NOP, FENCE and YIELD retire and change nothing but the PC and the counts of retirement; YIELD also takes
its group out of selection for at most 64 cycles; CFENCE makes every operation issued so far precede the later ones. That in a DET launch a
release FENCE of a scope past the group's own parks until the commit while stores of the group stand buffered is the model's choice (log 6).
R181, R203: PALSET and FPCSET set the register whole or under the mask SB with .M, and raise OPERAND with code 23 on a reserved
value; PALGET and FPCGET read it.
A NOP with a field set raises ILLEGAL with code 5, the four with an unused field set ILLEGAL; 0x0000_0000 is NOP. -/
def Obligations.PcOnlyPaletteAndFpc : Prop :=
  ((∀ f s c, Ready s (.nop f) c → Retires (.nop f) s c (after (.nop f) c) (fun g' => Counted c.g g')) ∧
    (∀ f s c, Ready s (.fence f) c →
      let waits : Prop := c.l.kern.det = true ∧ f.md.getLsbD 1 = true ∧ f.sa.toNat % 8 ≠ 0 ∧ c.g.detBuf ≠ []
      (¬waits → Retires (.fence f) s c (after (.fence f) c) (fun g' => Counted c.g g')) ∧
      (waits → Parks (.fence f) s c .commit)) ∧
    (∀ f s c, Ready s (.yield f) c →
      Retires (.yield f) s c (after (.yield f) c) (fun g' => ∃ others, Counted { c.g with hold := some (64, others) } g')) ∧
    (∀ f s c, Ready s (.cfence f) c →
      Retires (.cfence f) s c (after (.cfence f) c) (fun g' => Counted { c.g with fence := s.opNo } g'))) ∧
  ((∀ f s c,
      let a := sval c.g f.lit f.sa
      let b := sval c.g f.lit f.sb
      let n : DWord := if f.md.getLsbD 0 then (c.g.pal &&& ~~~b) ||| (a &&& b) else a
      Ready s (.palset f) c →
        (PalSound n → Retires (.palset f) s c (after (.palset f) c) (fun g' => Counted { c.g with pal := n } g')) ∧
        (¬PalSound n → Handled c → Traps (.palset f) s c 0x02 (operandTval (.palset f) 23) 0 c.g.pc)) ∧
    (∀ f s c,
      let a := sval c.g f.lit f.sa
      let b := sval c.g f.lit f.sb
      let n : DWord := if f.md.getLsbD 0 then (c.g.fpc.setWidth 64 &&& ~~~b) ||| (a &&& b) else a
      Ready s (.fpcset f) c →
        (n.toNat < 2 ^ 13 →
          Retires (.fpcset f) s c (after (.fpcset f) c) (fun g' => Counted { c.g with fpc := n.setWidth 32 } g')) ∧
        (2 ^ 13 ≤ n.toNat → Handled c → Traps (.fpcset f) s c 0x02 (operandTval (.fpcset f) 23) 0 c.g.pc)) ∧
    (∀ f s c, Ready s (.palget f) c → WritesScalar (.palget f) s c f.sd.toNat c.g.pal c.g.scc) ∧
    (∀ f s c, Ready s (.fpcget f) c → WritesScalar (.fpcget f) s c f.sd.toNat (c.g.fpc.setWidth 64) c.g.scc)) ∧
  (∀ f v, f.sd ≠ 0 ∨ f.sa ≠ 0 ∨ f.md ≠ 0 → check v (.nop f) = some (.illegal 5)) ∧
  decode 384 [0] = .ok (.nop {}) ∧
  (∀ mk ∈ ([.palset, .fpcset] : List (SX → Instr)), ∀ f v,
    f.sd ≠ 0 ∨ f.sc ≠ 0 ∨ f.imm ≠ 0 ∨ f.md.getLsbD 0 = false ∧ f.sb ≠ 0 → ∃ n, check v (mk f) = some (.illegal n)) ∧
  (∀ mk ∈ ([.palget, .fpcget] : List (SX → Instr)), ∀ f v,
    f.sa ≠ 0 ∨ f.sb ≠ 0 ∨ f.sc ≠ 0 ∨ f.imm ≠ 0 → ∃ n, check v (mk f) = some (.illegal n))

/-- R182, R235, R237: CLKR, IDR and SYSR write SD with the clock, the identity value or the special register; a SYSR that user mode may
not make raises PRIV.
R182, R183, R239: SYSW writes the register that SD numbers where mode, width and the rules of the frame stack allow it, and no other
special register; writing TPC empties the operand log; a write the mode forbids raises PRIV, a value too wide OPERAND with code 13, a
frame stack left unsound OPERAND with code 23. That one which fails two of these checks raises the first in this order is the model's reading
(log 75). -/
def Obligations.SpecialRegisters : Prop :=
  ((∀ f s c, Ready s (.clkr f) c →
      WritesScalar (.clkr f) s c f.sd.toNat (if c.l.kern.det then c.g.sp.ric else (getCore s c.w.core).clk) c.g.scc) ∧
    (∀ f s c v, Ready s (.idr f) c →
      [c.w.lcore, c.g.gidx, c.w.x + c.w.y * 2 ^ 32, c.w.z, c.g.launch, s.info.pkgnum.toNat,
        if c.l.kern.det then 0 else c.g.part][f.md.toNat]? = some v →
      WritesScalar (.idr f) s c f.sd.toNat (BitVec.ofNat 64 v) c.g.scc) ∧
    (∀ f s c v, Ready s (.sysr f) c → (specialTable c.g)[f.sa.toNat]? = some v →
      (7 ≤ f.sa.toNat ∨ c.g.handler = true → WritesScalar (.sysr f) s c f.sd.toNat v c.g.scc) ∧
      (f.sa.toNat < 7 → c.g.handler = false → Handled c →
        Traps (.sysr f) s c 0x03 (((encode (.sysr f)).headD 0).setWidth 64) 0 c.g.pc))) ∧
  (∀ f s c, Ready s (.sysw f) c →
      let n := f.sd.toNat
      let v := sval c.g f.lit f.sa
      let width := if n = 1 then 8 else if 7 ≤ n then 21 else 64
      let allowed : Prop := n ≤ 9 ∧ (n < 7 → c.g.handler = true) ∧ (7 ≤ n → c.g.handler = true ∨ c.g.sp.fsp = c.g.sp.fbase)
      let fsp := if n = 7 then v.toNat else c.g.sp.fsp.toNat
      let fbase := if n = 8 then v.toNat else c.g.sp.fbase.toNat
      let flim := if n = 9 then v.toNat else c.g.sp.flim.toNat
      let sound : Prop := fsp % 64 = 0 ∧ fbase % 64 = 0 ∧ flim % 64 = 0 ∧ fbase ≤ fsp ∧ fsp ≤ flim ∧ flim ≤ c.l.kern.scratch
      (allowed → v.toNat < 2 ^ width → (7 ≤ n → sound) →
        Retires (.sysw f) s c (after (.sysw f) c) (fun g' =>
          Counted { c.g with sp := { g'.sp with ric := c.g.sp.ric }, log := if n = 0 then OperandLog.empty else c.g.log } g' ∧
          (specialTable g')[n]? = some v ∧
          ∀ m, m ≠ n → m ≠ 12 → (specialTable g')[m]? = (specialTable c.g)[m]?)) ∧
      (Handled c →
        (¬allowed → Traps (.sysw f) s c 0x03 (((encode (.sysw f)).headD 0).setWidth 64) 0 c.g.pc) ∧
        (allowed → 2 ^ width ≤ v.toNat → Traps (.sysw f) s c 0x02 (operandTval (.sysw f) 13) 0 c.g.pc) ∧
        (allowed → v.toNat < 2 ^ width → 7 ≤ n → ¬sound → Traps (.sysw f) s c 0x02 (operandTval (.sysw f) 23) 0 c.g.pc)))

/-- R238: TRAP enters handler mode with the cause, SCC, EXEC and the value of SA saved, TPC at the next instruction and the PC at the
kernel's HANDLER; nothing else of the group changes.
R240, R266: a TRAP that no handler takes freezes its group with every other group of the launch, marks the launch faulted and,
if it was running or still waited for its lease, halted; no register of any group changes, and groups of other launches are as before.
R57, R239: RFT in handler mode with an empty operand log and no held tick restores EXEC and SCC, leaves handler mode and goes to TPC, or
with .NEXT past the word there; one whose TPC is no multiple of 4 raises ALIGN, which in handler mode freezes its group; with one logged
access .NEXT discards it and goes to the log's resume address; in user mode RFT raises PRIV. What an RFT does that performs logged accesses again
(R242) is not stated here. -/
def Obligations.TrapsTakenAndLeft : Prop :=
  (∀ f s c, Ready s (.trap f) c → Handled c →
      Traps (.trap f) s c 0x0A (sval c.g f.lit f.sa) 0 (c.g.pc + (if f.lit.isSome then 12 else 4))) ∧
  (∀ f s c, Ready s (.trap f) c → (c.g.handler = true ∨ c.l.kern.handler = 0) →
      ∃ t l', exec (.trap f) s = .next t ∧ tget t.groups c.k = some { c.g with status := .frozen } ∧
        (∀ j g, j ≠ c.k → tget s.groups j = some g →
          tget t.groups j = some (if g.launch = c.g.launch then { g with status := .frozen } else g)) ∧ t.cur = none ∧
        tget t.launches c.g.launch = some l' ∧ l'.faulted = true ∧
        (c.l.status = .running ∨ c.l.status = .granting → l'.status = .halted) ∧
        (c.l.status ≠ .running → c.l.status ≠ .granting → l'.status = c.l.status)) ∧
  (∀ f s c, Ready s (.rft f) c →
      (c.g.handler = true → c.g.log.entries = [] → c.g.sp.tpc.toNat % 4 ≠ 0 →
        ∃ t, exec (.rft f) s = .next t ∧ t.cur = none ∧ tget t.groups c.k = some { c.g with status := .frozen }) ∧
      (c.g.handler = true → c.g.tickHeld = false → c.g.log.entries = [] → c.g.sp.tpc.toNat % 4 = 0 →
        Retires (.rft f) s c
          (c.g.sp.tpc + (if f.md.getLsbD 0 then BitVec.ofNat 64 (match fetchWord s c.l c.g.sp.tpc.toNat with
            | some w => if w.extractLsb' 30 2 = 0 then 4 else if w.extractLsb' 30 2 = 3 then 20 else 12
            | none => 4) else 0))
          (fun g' => Counted { c.g with sregs := g'.sregs, scc := c.g.sp.tcause.getLsbD 7, handler := false } g' ∧
            execMask g' = c.g.sp.texec ∧ ∀ n, n ≠ 158 → n ≠ 159 → sreg g' n = sreg c.g n)) ∧
      (c.g.handler = true → c.g.tickHeld = false → c.g.log.entries.length = 1 → f.md.getLsbD 0 = true →
        Retires (.rft f) s c c.g.log.resume
          (fun g' => Counted { c.g with sregs := g'.sregs, scc := c.g.sp.tcause.getLsbD 7, handler := false,
                                        log := OperandLog.empty } g' ∧
            execMask g' = c.g.sp.texec ∧ ∀ n, n ≠ 158 → n ≠ 159 → sreg g' n = sreg c.g n)) ∧
      (Handled c → Traps (.rft f) s c 0x03 (((encode (.rft f)).headD 0).setWidth 64) 0 c.g.pc))

/-! ## Waits, scratchpad access, masks, palette -/

/-- R227, R378: WAIT retires when every counter is no greater than its field, unless a finished tile operation reports a flag, which traps FP
at the WAIT with TVAL the operation's PC and is reported once; else it parks, and in a DET launch an unmet tile condition alone waits
at issue. In a DET launch complete tile operations leave their counter as far as the tile field asks, oldest first (R228, R375): that a WAIT is
where they leave is the model's reading (log 107).
R230: WAITW retires with the word it read when the word meets its condition, and parks when it does not, with the word's 8-byte unit
watched; a failing check traps precisely, the tape hit included. -/
def Obligations.WaitsForCountersAndWords : Prop :=
  (∀ (f : WF) s c, Ready s (.wait f) c →
      let met : Prop := c.g.ld.length ≤ f.ld.toNat ∧ c.g.st.length ≤ f.st.toNat ∧ c.g.tile.length ≤ f.tile.toNat ∧
        c.g.coll.length ≤ f.coll.toNat
      let metButTile : Prop := c.g.ld.length ≤ f.ld.toNat ∧ c.g.st.length ≤ f.st.toNat ∧ c.g.coll.length ≤ f.coll.toNat
      let leaves : Prop := c.l.kern.det = true ∧ f.tile.toNat < c.g.tile.length ∧ ∃ p rest, c.g.tile = p :: rest ∧ p.done = true
      (¬leaves → met → c.g.reports = [] → Retires (.wait f) s c (after (.wait f) c) (fun g' => Counted c.g g')) ∧
      (¬leaves → met → ∀ pc rest, c.g.reports = pc :: rest → Handled c →
        ∃ t, exec (.wait f) s = .next t ∧ Trapped s t { c with g := { c.g with reports := rest } } 0x08 pc 0 c.g.pc) ∧
      (¬leaves → ¬met → ¬(c.l.kern.det = true ∧ metButTile) →
        Parks (.wait f) s c (.wait f.ld.toNat f.st.toNat f.tile.toNat f.coll.toNat)) ∧
      (¬leaves → ¬met → c.l.kern.det = true → metButTile → Stalls (.wait f) s c) ∧
      (¬metButTile → Parks (.wait f) s c (.wait f.ld.toNat f.st.toNat f.tile.toNat f.coll.toNat)) ∧
      (c.l.kern.det = true → metButTile → ∀ gone p rest, c.g.tile = gone ++ p :: rest → p.done = false → f.tile.toNat ≤ rest.length →
        Stalls (.wait f) s c) ∧
      (leaves → metButTile → ∀ gone stay, c.g.tile = gone ++ stay → gone.all (fun p => p.done) = true → stay.length = f.tile.toNat →
        let said := c.g.reports ++ gone.filterMap (fun p => p.report)
        (said = [] → ∃ t g', exec (.wait f) s = .next t ∧ tget t.groups c.k = some g' ∧ g'.pc = after (.wait f) c ∧
          Counted { c.g with tile := stay } g' ∧ (∀ n, (∃ p ∈ gone, p.op = n) → tget t.ops n = none) ∧
          (∀ n, (∀ p ∈ gone, p.op ≠ n) → tget t.ops n = tget s.ops n)) ∧
        (∀ pc rest, said = pc :: rest → Handled c → ∃ t g', exec (.wait f) s = .next t ∧ tget t.groups c.k = some g' ∧
          g'.handler = true ∧ g'.pc = c.l.kern.handler ∧ g'.sp.tval = pc ∧ g'.sp.tpc = c.g.pc ∧ g'.tile = stay ∧ g'.reports = rest))) ∧
  (∀ (f : SX) s c, Ready s (.waitw f) c →
      let off : Int := (sval c.g f.lit f.sa).toInt + f.imm.toInt
      let w := if f.md.getLsbD 4 then 8 else 4
      let x := scratchNat s c.g off.toNat w
      let z (v : Nat) : Int := if f.md.getLsbD 3 = true ∧ 2 ^ (8 * w - 1) ≤ v then (v : Int) - 2 ^ (8 * w) else v
      let y := (sval c.g f.lit f.sb).toNat % 2 ^ (8 * w)
      let met : Prop := (f.md.extractLsb' 0 3 = 0 ∧ z x = z y) ∨ (f.md.extractLsb' 0 3 = 1 ∧ z x ≠ z y) ∨
        (f.md.extractLsb' 0 3 = 2 ∧ z x ≥ z y) ∨ (f.md.extractLsb' 0 3 = 3 ∧ z x < z y)
      f.md.extractLsb' 0 3 ≤ 3 →
      (checkAcc s c false true false [⟨0, off, w⟩] = none → met →
        WritesScalar (.waitw f) s c f.sd.toNat (BitVec.ofInt 64 (z x)) c.g.scc) ∧
      (checkAcc s c false true false [⟨0, off, w⟩] = none → ¬met →
        ParksIn (.waitw f) s (putWg s (gWg c.g) { c.w with
          watch := ⟨c.g.gidx, off.toNat / 8, false⟩ :: c.w.watch.filter (fun x => x.gidx != c.g.gidx) }) c c.g .waitw) ∧
      (∀ m, checkAcc s c false true false [⟨0, off, w⟩] = some m → Handled c →
        Traps (.waitw f) s c m.cause m.tval m.lanes c.g.pc))

/-- R24, R160: the checks of a lane access, in their order: misalignment in any lane first, then the bounds of the allocation, then the tape
table, then poison; the first that fails in any lane gives the cause, the offset of the lowest failing lane and every failing lane. In a DET
launch an entry of an operation not yet issued at a commit, or of a tile operation, stops its own group only: that is the model's reading of R375
and R380 (log 84). -/
def Obligations.AccessChecksInOrder : Prop :=
  ∀ s c read write (accs : List Acc),
    (∀ a ∈ accs, a.lane < 128 ∧ 0 < a.w) →
    let mis (a : Acc) : Bool := a.off % (a.w : Int) != 0
    let out (a : Acc) : Bool := decide (a.off < 0) || decide ((c.l.kern.scratch : Int) < a.off + a.w)
    let taped (a : Acc) : Bool := (getCore s c.w.core).tape.any (fun e =>
      (e.write || write) && decide (e.lo < e.hi) && decide (e.lo < c.w.sbase + a.off.toNat + a.w) &&
        decide (c.w.sbase + a.off.toNat < e.hi) && (e.own.isNone || e.own == some c.k))
    let marked (a : Acc) : Bool := (read || decide (a.w < 8)) &&
      (List.range a.w).any (fun j => wordPoison c.w c.g ((a.off.toNat + j) / 8))
    let failing (p : Acc → Bool) (cause : Nat) : Prop :=
      ∃ a rest, accs.filter p = a :: rest ∧ ∃ m : Mask, (∀ l, l < 128 → m.getLsbD l = (a :: rest).any (fun b => b.lane == l)) ∧
        checkAcc s c true read write accs = some ⟨cause, BitVec.ofInt 64 a.off, m⟩
    (accs.any mis = true → failing mis 0x05) ∧
    (accs.any mis = false → accs.any out = true → failing out 0x04) ∧
    (accs.any mis = false → accs.any out = false → accs.any taped = true → failing taped 0x06) ∧
    (accs.any mis = false → accs.any out = false → accs.any taped = false → accs.any marked = true → failing marked 0x07) ∧
    (accs.any mis = false → accs.any out = false → accs.any taped = false → accs.any marked = false →
      checkAcc s c true read write accs = none)

/-- R193, R194, R206, R238, R241: SLD and SST at sext(SA) + sext(IMM32). An access that passes R160 loads and extends, or stores (in a DET
launch into the group's own buffer), and touches nothing else; a failing one traps in the handler, the tape hit of user mode going to
the operand log instead. -/
def Obligations.ScalarLoadsAndStores : Prop :=
  ∀ (f : SX) s c,
    let off : Int := (sval c.g f.lit f.sa).toInt + f.imm.toInt
    let w := 2 ^ (f.md.extractLsb' 0 2).toNat
    let data := bytesOf w (sval c.g f.lit f.sb).toNat
    (Ready s (.sld f) c →
      let x := ofBytes ((List.range w).map (fun j => (scratchByte c.w c.g (off.toNat + j)).1))
      (checkAcc s c false true false [⟨0, off, w⟩] = none →
        WritesScalar (.sld f) s c f.sd.toNat
          (if f.md.getLsbD 2 ∧ 2 ^ (8 * w - 1) ≤ x then BitVec.ofInt 64 ((x : Int) - 2 ^ (8 * w)) else BitVec.ofNat 64 x) c.g.scc) ∧
      (∀ m, checkAcc s c false true false [⟨0, off, w⟩] = some m → m.cause ≠ 0x06 → Handled c →
        Traps (.sld f) s c m.cause m.tval m.lanes c.g.pc) ∧
      (∀ m, checkAcc s c false true false [⟨0, off, w⟩] = some m → m.cause = 0x06 → c.g.handler = false →
        Logs (.sld f) s c m)) ∧
    (Ready s (.sst f) c →
      (checkAcc s c false false true [⟨0, off, w⟩] = none →
        (c.l.kern.det = false →
          StoresScratch (.sst f) s c c.w (storedAt off.toNat data (padOf c.w))
            (fun n => if wholeIn off.toNat w n then false else mget false c.w.spoison n) (fun g' => Counted c.g g')) ∧
        (c.l.kern.det = true →
          Retires (.sst f) s c (after (.sst f) c) (fun g' =>
            Counted { c.g with detBuf := c.g.detBuf ++ [(off.toNat, data.map (fun b => (b, false)))] } g'))) ∧
      (∀ m, checkAcc s c false false true [⟨0, off, w⟩] = some m → m.cause ≠ 0x06 → Handled c →
        Traps (.sst f) s c m.cause m.tval m.lanes c.g.pc) ∧
      (∀ m, checkAcc s c false false true [⟨0, off, w⟩] = some m → m.cause = 0x06 → c.g.handler = false →
        Logs (.sst f) s c m))

/-- R195, R206: outside a DET launch SLDA performs one read-modify-write: SD receives the old value, the bytes the new one; in a DET launch it
parks until the commit. R241: outside a DET launch the tape hit of either in user mode goes to the operand log.
R162, R163, R172: outside a DET launch VATOM performs one read-modify-write per distinct address, the lanes that name it in ascending
order: each active lane receives the value it met, and memory the last new value; in a DET launch it parks until the commit. That both park
whatever their checks say, which are made at the commit, is the model's choice (log 89). -/
def Obligations.ScalarAndLaneAtomics : Prop :=
  (∀ (f : SX) s c, Ready s (.slda f) c →
      let off : Int := (sval c.g f.lit f.sa).toInt + f.imm.toInt
      let w := 2 ^ (f.md.extractLsb' 0 2).toNat
      let old := ofBytes ((List.range w).map (fun j => (scratchByte c.w c.g (off.toNat + j)).1))
      let v := (sval c.g f.lit f.sb).toNat % 2 ^ (8 * w)
      let b := (sval c.g f.lit f.sc).toNat % 2 ^ (8 * w)
      (c.l.kern.det = false → checkAcc s c false true true [⟨0, off, w⟩] = none →
        StoresScratch (.slda f) s c c.w
          (storedAt off.toNat (bytesOf w (atomNew (f.md.extractLsb' 4 4).toNat (8 * w) (f.md.getLsbD 2) old v b)) (padOf c.w))
          (fun n => if wholeIn off.toNat w n then false else mget false c.w.spoison n)
          (fun g' => Counted { c.g with sregs := g'.sregs } g' ∧
            sreg g' f.sd.toNat =
              (if f.md.getLsbD 2 ∧ 2 ^ (8 * w - 1) ≤ old then BitVec.ofInt 64 ((old : Int) - 2 ^ (8 * w)) else BitVec.ofNat 64 old) ∧
            ∀ n, n ≠ f.sd.toNat → sreg g' n = sreg c.g n)) ∧
      (∀ m, c.l.kern.det = false → checkAcc s c false true true [⟨0, off, w⟩] = some m → m.cause ≠ 0x06 → Handled c →
        Traps (.slda f) s c m.cause m.tval m.lanes c.g.pc) ∧
      (∀ m, c.l.kern.det = false → checkAcc s c false true true [⟨0, off, w⟩] = some m → m.cause = 0x06 → c.g.handler = false →
        Logs (.slda f) s c m) ∧
      (c.l.kern.det = true → Parks (.slda f) s c .commit)) ∧
  (∀ (f : VX) s c, ReadyLanes s (.vatom f) c →
      let w := typeBits f.ty.toNat / 8
      let off (l : Nat) : Nat := (((lane (srcLanes s c f.lit f.va.toNat 1) l).toNat : Int) + f.imm.toInt).toNat
      let lanes := (List.range 128).filter (active c f.sp)
      let accs : List Acc := lanes.map (fun l => ⟨l, ((lane (srcLanes s c f.lit f.va.toNat 1) l).toNat : Int) + f.imm.toInt, w⟩)
      let rmw (x l : Nat) : Nat := atomNew (f.md.extractLsb' 5 4).toNat (8 * w) (signedType f.ty.toNat) x (lane (opB s c f) l).toNat
        (lane (opC s c f) l).toNat
      let met (a : Nat) (upTo : Nat) : Nat := (lanes.filter (fun l => decide (off l = a) && decide (l < upTo))).foldl rmw (numAt (padOf c.w) a w)
      (c.l.kern.det = false → (w = 4 ∨ w = 8) → AllCommitted c →
        checkAcc s c true true true accs = none →
        StoresScratch (.vatom f) s c c.w
          (fun a => if lanes.any (fun l => decide (off l = a / w * w)) then (bytesOf w (met (a / w * w) 128)).getD (a % w) 0 else padOf c.w a)
          (fun n => if lanes.any (fun l => wholeIn (off l) w n) then false else mget false c.w.spoison n)
          (fun g' => Counted { c.g with vregs := g'.vregs } g' ∧
            LanesWritten c.g g' f.vd.toNat (typeBits f.ty.toNat) (active c f.sp) (fun l => BitVec.ofNat 64 (met (off l) l)))) ∧
      (∀ m, c.l.kern.det = false → checkAcc s c true true true accs = some m → m.cause ≠ 0x06 → Handled c →
        Traps (.vatom f) s c m.cause m.tval m.lanes c.g.pc) ∧
      (∀ m, c.l.kern.det = false → checkAcc s c true true true accs = some m → m.cause = 0x06 → c.g.handler = false →
        Logs (.vatom f) s c m) ∧
      (c.l.kern.det = true → Parks (.vatom f) s c .commit))

/-- R162, R195: the new value of each integer read-modify-write of `w` bits on `old` with the operand `v` and the compare value or bound
`b`, signed or unsigned. -/
def Obligations.AtomicOperations : Prop :=
  ∀ (w : Nat) (sg : Bool) (old v b : Nat), 0 < w → old < 2 ^ w → v < 2 ^ w → b < 2 ^ w →
    let z (x : Nat) : Int := if sg = true ∧ 2 ^ (w - 1) ≤ x then (x : Int) - 2 ^ w else x
    let bottom : Int := if sg then -(2 ^ (w - 1)) else 0
    let top : Int := if sg then 2 ^ (w - 1) - 1 else 2 ^ w - 1
    atomNew 0 w sg old v b = (old + v) % 2 ^ w ∧
    atomNew 1 w sg old v b = (old + 2 ^ w - v) % 2 ^ w ∧
    atomNew 2 w sg old v b = (if z v < z old then v else old) ∧
    atomNew 3 w sg old v b = (if z old < z v then v else old) ∧
    atomNew 4 w sg old v b = old &&& v ∧ atomNew 5 w sg old v b = old ||| v ∧ atomNew 6 w sg old v b = old ^^^ v ∧
    atomNew 7 w sg old v b = v ∧
    atomNew 8 w sg old v b = (if old = b then v else old) ∧
    atomNew 11 w sg old v b = (if z b ≤ z old then 0 else (old + 1) % 2 ^ w) ∧
    (z b ≤ z old → atomNew 12 w sg old v b = old) ∧
    (z old < z b → atomNew 12 w sg old v b < 2 ^ w ∧
      z (atomNew 12 w sg old v b) = min (max bottom (min top (z old + z v))) (z b))

/-- R176, R201, R202: MSPLIT splits EXEC by a predicate pair, MMOV combines masks, MPOPC counts one; each sets SCC and changes nothing else.
R177, R178, R179, R180: MOPEN opens a rejoin record, MARRIVE adds EXEC and counts an arrival, MJOIN restores EXEC; both restore PAL and
FPC but for the sticky bits. MJOIN with KFLAGS.JC raises JOIN_DEFICIT when the arrivals differ from those expected, and both raise
OPERAND on a record with a reserved value or no expected arrival.
MSPLIT into EXEC raises OPERAND with code 12, and a reserved MOD bit of MMOV ILLEGAL with code 3. -/
def Obligations.MasksAndRejoin : Prop :=
  ((∀ f s c, Ready s (.msplit f) c → f.sd.toNat < 157 →
      Retires (.msplit f) s c (after (.msplit f) c) (fun g' =>
        Counted { c.g with sregs := g'.sregs, scc := execMask g' != 0 } g' ∧
        spair g' f.sd.toNat = execMask c.g &&& ~~~(spair c.g f.sa.toNat) ∧
        execMask g' = execMask c.g &&& spair c.g f.sa.toNat ∧
        ∀ n, n ≠ f.sd.toNat → n ≠ f.sd.toNat + 1 → n ≠ 158 → n ≠ 159 → sreg g' n = sreg c.g n)) ∧
    (∀ f s c r, Ready s (.mmov f) c →
      let a := spair c.g f.sa.toNat
      let d := spair c.g f.sd.toNat
      ((f.md.extractLsb' 0 2 = 0 ∧ r = a) ∨ (f.md.extractLsb' 0 2 = 1 ∧ r = d &&& a) ∨ (f.md.extractLsb' 0 2 = 2 ∧ r = d ||| a) ∨
        (f.md.extractLsb' 0 2 = 3 ∧ r = d &&& ~~~a)) →
      WritesPair (.mmov f) s c f.sd.toNat r (r != 0)) ∧
    (∀ f s c, Ready s (.mpopc f) c →
      let n := ((List.range 128).filter (fun l => (spair c.g f.sa.toNat).getLsbD l)).length
      WritesScalar (.mpopc f) s c f.sd.toNat (BitVec.ofNat 64 n) (n != 0))) ∧
  ((∀ f s c, Ready s (.mopen f) c →
      Retires (.mopen f) s c (after (.mopen f) c) (fun g' =>
        Counted { c.g with sregs := g'.sregs } g' ∧
        sreg g' f.sd.toNat = 0 ∧ sreg g' (f.sd.toNat + 1) = 0 ∧
        sreg g' (f.sd.toNat + 2) = c.g.fpc ++ c.g.pal.extractLsb' 0 32 ∧
        sreg g' (f.sd.toNat + 3) = BitVec.ofNat 64 (f.imm.toNat % 256) ∧
        ∀ n, n < f.sd.toNat ∨ f.sd.toNat + 4 ≤ n → sreg g' n = sreg c.g n)) ∧
    (∀ f s c,
      let q := f.sd.toNat
      let spal : BitVec 32 := (sreg c.g (q + 2)).extractLsb' 0 32
      let sfpc : BitVec 32 := (sreg c.g (q + 2)).extractLsb' 32 32
      let expected := ((sreg c.g (q + 3)).extractLsb' 0 8).toNat
      let arrived := ((sreg c.g (q + 3)).extractLsb' 8 8).toNat
      let bad : Prop := ¬PalSound (spal.setWidth 64) ∨ sfpc.extractLsb' 13 19 ≠ 0 ∨ expected = 0
      let sticky : BitVec 32 := (c.g.pal.extractLsb' 0 32 ||| spal) &&& 0x4000
      let pal : DWord := ((spal &&& ~~~0x4000) ||| sticky).setWidth 64
      let fpc : Word := (sfpc &&& ~~~0x7C) ||| ((c.g.fpc ||| sfpc) &&& 0x7C)
      (Ready s (.marrive f) c → ¬bad →
        Retires (.marrive f) s c (after (.marrive f) c) (fun g' =>
          Counted { c.g with sregs := g'.sregs, pal := pal, fpc := fpc } g' ∧
          spair g' q = spair c.g q ||| execMask c.g ∧
          sreg g' (q + 3) = (sreg c.g (q + 3) &&& ~~~(0xFF00 : DWord)) ||| BitVec.ofNat 64 (min (arrived + 1) 255 * 256) ∧
          ∀ n, n ≠ q → n ≠ q + 1 → n ≠ q + 3 → sreg g' n = sreg c.g n)) ∧
      (Ready s (.mjoin f) c → ¬bad → (c.l.kern.joinchk = true → arrived = expected) →
        Retires (.mjoin f) s c (after (.mjoin f) c) (fun g' =>
          Counted { c.g with sregs := g'.sregs, pal := pal, fpc := fpc } g' ∧ execMask g' = spair c.g q ∧
          ∀ n, n ≠ 158 → n ≠ 159 → sreg g' n = sreg c.g n)) ∧
      (Ready s (.mjoin f) c → ¬bad → c.l.kern.joinchk = true → arrived ≠ expected → Handled c →
        Traps (.mjoin f) s c 0x09 (sreg c.g (q + 3)) 0 c.g.pc) ∧
      (Ready s (.marrive f) c → bad → Handled c → Traps (.marrive f) s c 0x02 (operandTval (.marrive f) 23) 0 c.g.pc) ∧
      (Ready s (.mjoin f) c → bad → Handled c → Traps (.mjoin f) s c 0x02 (operandTval (.mjoin f) 23) 0 c.g.pc))) ∧
  (∀ f v, check v (.msplit { f with sd := 0 }) = none → f.sd = 158 → check v (.msplit f) = some (.operand 12)) ∧
  (∀ f v, f.md.extractLsb' 2 6 ≠ 0 → check v (.mmov f) = some (.illegal 3))

/-! ## Frames, groups, launches, waits on words and barriers -/

/-- R222: JOIN pops an unpromoted frame with its arguments and sets SCC; it parks while the join word of a promoted one is not zero, and
then pops the frame with SCC clear; with no frame it raises FRAME with FSP in TVAL, on a frame that R210 finds unsound FRAME with the frame's
offset, and where a read of the frame fails a check of R160 the trap of that check. In a DET launch it parks at a frame that is a candidate
(R379). That the join word's own read is checked too is the model's reading (log 91).
R223: TASKEND of a task with nothing outstanding frees its slot; for an L frame the result, DONE and the join word are written in the
owner's scratchpad in that order, and for a G frame an outbound operation carries them; with operations outstanding it parks, in a DET launch
until the commit (R378); a launched group takes OPERAND with code 23. That the accesses of an L frame's end meet the checks of R24 and R160
before any of them is made is the model's reading (log 90).
R200, R378: ENDG with an empty frame stack ends a launched group whose ld and tile counters are zero: its slot is free, memory and
every other group are as before but for urgency counts that a barrier it completes resets; with operations outstanding it parks until
they are complete; a task or a group with frames on its stack takes OPERAND with code 23. -/
def Obligations.JoinsAndTaskEnds : Prop :=
  (∀ f s c, Ready s (.join f) c →
      let off := c.g.sp.fsp.toNat - 64
      let fr := readFrame s c.g off
      let there : Prop := c.g.sp.fsp ≠ c.g.sp.fbase
      let readable : Prop := checkAcc s c false true false [⟨0, (off : Nat), 64⟩] = none
      let candidate : Bool := c.g.candidates.any (fun x => x.1 == off)
      let ok : Prop := there ∧ readable ∧ frameOk c.l fr = true ∧ candidate = false
      let joinRead := checkAcc s c false true false [⟨0, fr.joinOff, 8⟩]
      (ok → fr.prom = false →
        Retires (.join f) s c (after (.join f) c) (fun g' =>
          Counted { c.g with sregs := g'.sregs, sp := { c.g.sp with fsp := BitVec.ofNat 21 off }, scc := true } g' ∧
          (f.md.getLsbD 0 = true → ∀ n, sreg g' n = sreg c.g n) ∧
          (f.md.getLsbD 0 = false →
            (∀ j, j < 6 → sreg g' (f.sd.toNat + j) = BitVec.ofNat 64 (scratchNat s c.g (off + 16 + 8 * j) 8)) ∧
            ∀ n, n < f.sd.toNat ∨ f.sd.toNat + 6 ≤ n → sreg g' n = sreg c.g n))) ∧
      (ok → fr.prom = true → joinRead = none → scratchNat s c.g fr.joinOff 8 = 0 →
        Retires (.join f) s c (after (.join f) c) (fun g' =>
          Counted { c.g with sp := { c.g.sp with fsp := BitVec.ofNat 21 off }, scc := false, promo := tdel c.g.promo off } g')) ∧
      (ok → fr.prom = true → joinRead = none → scratchNat s c.g fr.joinOff 8 ≠ 0 → Parks (.join f) s c .join) ∧
      (there → readable → frameOk c.l fr = true → candidate = true → Parks (.join f) s c .join) ∧
      (Handled c →
        (¬there → Traps (.join f) s c 0x0B (c.g.sp.fsp.setWidth 64) 0 c.g.pc) ∧
        (∀ m, there → checkAcc s c false true false [⟨0, (off : Nat), 64⟩] = some m → Traps (.join f) s c m.cause m.tval m.lanes c.g.pc) ∧
        (there → readable → frameOk c.l fr = false → Traps (.join f) s c 0x0B (BitVec.ofNat 64 off) 0 c.g.pc) ∧
        (∀ m, ok → fr.prom = true → joinRead = some m → Traps (.join f) s c m.cause m.tval m.lanes c.g.pc))) ∧
  (∀ f s c, Ready s (.taskend f) c →
      let result := if f.md.getLsbD 0 then some (sval c.g f.lit f.sa) else none
      (∀ link, c.g.task = some link → c.g.sp.fsp = c.g.sp.fbase → c.g.ld ≠ [] ∨ c.g.tile ≠ [] → Parks (.taskend f) s c .drain) ∧
      (∀ link, c.g.task = some link → c.g.sp.fsp = c.g.sp.fbase → c.g.ld = [] → c.g.tile = [] → c.l.kern.det = true →
        Parks (.taskend f) s c .commit) ∧
      (∀ link m, c.g.task = some link → c.g.sp.fsp = c.g.sp.fbase → c.g.ld = [] → c.g.tile = [] → c.l.kern.det = false →
        link.global = false → taskendCheck s c link result = some m → Handled c →
        Traps (.taskend f) s c m.cause m.tval m.lanes c.g.pc) ∧
      (∀ link pw, c.g.task = some link → c.g.sp.fsp = c.g.sp.fbase → c.g.ld = [] → c.g.tile = [] → c.l.kern.det = false →
        (link.global = false → taskendCheck s c link result = none → tget s.wgs (wgKey c.g.launch link.wg) = some pw →
          let fr := readFrame s { c.g with wg := link.wg, detBuf := [] } link.frame
          let m1 := if f.md.getLsbD 0 then storedAt fr.resOff (bytesOf 8 (sval c.g f.lit f.sa).toNat) (padOf pw) else padOf pw
          let m2 := storedAt link.frame (bytesOf 8 (numAt m1 link.frame 8 ||| 2 ^ 35)) m1
          let m3 := storedAt fr.joinOff (bytesOf 8 (numAt m2 fr.joinOff 8 + (2 ^ 64 - 1))) m2
          ∃ t pw', exec (.taskend f) s = .next t ∧ tget t.groups c.k = none ∧
            tget t.wgs (wgKey c.g.launch link.wg) = some pw' ∧ (∀ a, padOf pw' a = m3 a) ∧ t.mem = s.mem ∧
            ∀ j, j ≠ c.k → SameButUrgency ((tget s.groups j).map (without (wgKey c.g.launch link.wg) link.frame)) (tget t.groups j)) ∧
        (link.global = true →
          ∃ t o, exec (.taskend f) s = .next t ∧ tget t.groups c.k = none ∧ t.opNo = s.opNo + 1 ∧
            tget t.ops s.opNo = some o ∧ o.ctr = none ∧ o.launch = c.g.launch ∧
            o.act = .taskend link result ∧ t.mem = s.mem)) ∧
      (c.g.task = none → Handled c → Traps (.taskend f) s c 0x02 (operandTval (.taskend f) 23) 0 c.g.pc)) ∧
  (∀ f s c, Ready s (.endg f) c →
      (c.g.task = none → c.g.sp.fsp = c.g.sp.fbase → c.g.ld = [] → c.g.tile = [] →
        ∃ t, exec (.endg f) s = .next t ∧ tget t.groups c.k = none ∧ t.cur = none ∧ t.mem = s.mem ∧
          (∀ j, j ≠ c.k → SameButUrgency (tget s.groups j) (tget t.groups j)) ∧
          (∀ key w, tget s.wgs key = some w → ∃ w', tget t.wgs key = some w' ∧ w'.scratch = w.scratch)) ∧
      (c.g.task = none → c.g.sp.fsp = c.g.sp.fbase → c.g.ld ≠ [] ∨ c.g.tile ≠ [] →
        Parks (.endg f) s c .drain) ∧
      (c.g.task ≠ none ∨ c.g.sp.fsp ≠ c.g.sp.fbase → Handled c →
        Traps (.endg f) s c 0x02 (operandTval (.endg f) 23) 0 c.g.pc))

/-- R207, R211, R212, R213: FORK pushes one frame at FSP and sets SCC, or with the stack full clears SCC and writes nothing; the offsets
operand is checked first, and a frame that meets the tape table raises TAPE.
R214: VFORK pushes one frame per live lane, the lowest lane's oldest, with one update of FSP, or with too little room pushes none; its checks
are FORK's, over each lane's result slot and frame. In a DET launch both push into the group's own buffer (R206). -/
def Obligations.ForksPushFrames : Prop :=
  (∀ f s c, Ready s (.fork f) c →
      let b := sval c.g f.lit f.sb
      let join := (b.extractLsb' 0 20).toNat
      let res := (b.extractLsb' 20 20).toNat
      let n := (f.md.extractLsb' 1 3).toNat
      let fsp := c.g.sp.fsp.toNat
      let entryOk : Prop := b.extractLsb' 40 24 = 0 ∧ f.imm.toNat % 4 = 0 ∧ f.imm.toNat < c.l.kern.codesize
      let frame := bytesOf 8 (n * 2 ^ 56 + (c.g.sp.tdepth.toNat + 1) % 256 * 2 ^ 48 + (if f.md.getLsbD 0 then 2 ^ 32 else 0) + f.imm.toNat) ++
        bytesOf 8 (res * 2 ^ 20 + join) ++
        (List.range 6).flatMap (fun j => bytesOf 8 (if j < n then (sreg c.g (f.sa.toNat + j)).toNat else 0))
      let w := { c.w with exported := f.md.getLsbD 0 || c.w.exported }
      let fits : Prop := join % 8 = 0 ∧ res % 8 = 0 ∧ join + 8 ≤ c.l.kern.scratch ∧ res + 8 ≤ c.l.kern.scratch
      (entryOk → fits → c.g.sp.flim.toNat < fsp + 64 →
        Retires (.fork f) s c (after (.fork f) c) (fun g' => Counted { c.g with scc := false } g')) ∧
      (entryOk → fits → fsp + 64 ≤ c.g.sp.flim.toNat →
        tapeHit (getCore s c.w.core) c.k (c.w.sbase + fsp) (c.w.sbase + fsp + 64) true false = false →
        (c.l.kern.det = false →
          StoresScratch (.fork f) s c w (storedAt fsp frame (padOf c.w))
            (fun k => if wholeIn fsp 64 k then false else mget false c.w.spoison k)
            (fun g' => Counted { c.g with sp := { c.g.sp with fsp := BitVec.ofNat 21 (fsp + 64) }, scc := true } g')) ∧
        (c.l.kern.det = true →
          StoresScratch (.fork f) s c w (padOf c.w) (mget false c.w.spoison) (fun g' =>
            Counted { c.g with sp := { c.g.sp with fsp := BitVec.ofNat 21 (fsp + 64) }, scc := true,
                               detBuf := c.g.detBuf ++ [(fsp, frame.map (fun x => (x, false)))] } g'))) ∧
      (Handled c →
        (entryOk → fits → fsp + 64 ≤ c.g.sp.flim.toNat →
          tapeHit (getCore s c.w.core) c.k (c.w.sbase + fsp) (c.w.sbase + fsp + 64) true false = true →
          Traps (.fork f) s c 0x06 (BitVec.ofNat 64 fsp) 0 c.g.pc) ∧
        (¬entryOk → Traps (.fork f) s c 0x02 (operandTval (.fork f) 23) 0 c.g.pc) ∧
        (entryOk → join % 8 ≠ 0 → Traps (.fork f) s c 0x05 (BitVec.ofNat 64 join) 0 c.g.pc) ∧
        (entryOk → join % 8 = 0 → res % 8 ≠ 0 → Traps (.fork f) s c 0x05 (BitVec.ofNat 64 res) 0 c.g.pc) ∧
        (entryOk → join % 8 = 0 → res % 8 = 0 → c.l.kern.scratch < join + 8 →
          Traps (.fork f) s c 0x04 (BitVec.ofNat 64 join) 0 c.g.pc) ∧
        (entryOk → join % 8 = 0 → res % 8 = 0 → join + 8 ≤ c.l.kern.scratch → c.l.kern.scratch < res + 8 →
          Traps (.fork f) s c 0x04 (BitVec.ofNat 64 res) 0 c.g.pc))) ∧
  (∀ f s c, Ready s (.vfork f) c →
      let b := sval c.g f.lit f.sb
      let join := (b.extractLsb' 0 20).toNat
      let res := (b.extractLsb' 20 20).toNat
      let n := (f.md.extractLsb' 1 3).toNat
      let fsp := c.g.sp.fsp.toNat
      let lanes := (List.range 128).filter (fun l => (execMask c.g).getLsbD l)
      let arg (l j : Nat) : Nat := (vlane c.g (2 * f.md2.toNat + 2 * j + 1) l ++ vlane c.g (2 * f.md2.toNat + 2 * j) l : BitVec 64).toNat
      let frame (k : Nat) : List Byte :=
        bytesOf 8 (n * 2 ^ 56 + (c.g.sp.tdepth.toNat + 1) % 256 * 2 ^ 48 + lanes.getD k 0 * 2 ^ 40 + 2 ^ 33 +
          (if f.md.getLsbD 0 then 2 ^ 32 else 0) + f.imm.toNat) ++
        bytesOf 8 ((res + 8 * k) * 2 ^ 20 + join) ++
        (List.range 6).flatMap (fun j => bytesOf 8 (if j < n then arg (lanes.getD k 0) j else 0))
      let entryOk : Prop := b.extractLsb' 40 24 = 0 ∧ f.imm.toNat % 4 = 0 ∧ f.imm.toNat < c.l.kern.codesize
      let aligned : Prop := join % 8 = 0 ∧ (lanes ≠ [] → res % 8 = 0)
      let fits : Prop := join + 8 ≤ c.l.kern.scratch ∧ ∀ k, k < lanes.length → res + 8 * k + 8 ≤ c.l.kern.scratch
      let room : Prop := lanes ≠ [] ∧ fsp + 64 * lanes.length ≤ c.g.sp.flim.toNat
      let hit (k : Nat) : Bool :=
        tapeHit (getCore s c.w.core) c.k (c.w.sbase + (fsp + 64 * k)) (c.w.sbase + (fsp + 64 * k) + 64) true false
      let w := { c.w with exported := f.md.getLsbD 0 || c.w.exported }
      let pushed (buf : List (Nat × List PByte)) (g' : Group) : Prop :=
        Counted { c.g with sp := { c.g.sp with fsp := BitVec.ofNat 21 (fsp + 64 * lanes.length) }, scc := true, detBuf := buf,
                           sregs := g'.sregs } g' ∧
        sreg g' f.sd.toNat = BitVec.ofNat 64 lanes.length ∧ ∀ m, m ≠ f.sd.toNat → sreg g' m = sreg c.g m
      (entryOk → aligned → fits →
        (lanes = [] → WritesScalar (.vfork f) s c f.sd.toNat 0 true) ∧
        (lanes ≠ [] → c.g.sp.flim.toNat < fsp + 64 * lanes.length → WritesScalar (.vfork f) s c f.sd.toNat 0 false) ∧
        (room → (∀ k, k < lanes.length → hit k = false) →
          (c.l.kern.det = false →
            StoresScratch (.vfork f) s c w (storedAt fsp ((List.range lanes.length).flatMap frame) (padOf c.w))
              (fun word => if (List.range lanes.length).any (fun k => wholeIn (fsp + 64 * k) 64 word) then false
                else mget false c.w.spoison word)
              (pushed c.g.detBuf)) ∧
          (c.l.kern.det = true →
            StoresScratch (.vfork f) s c w (padOf c.w) (mget false c.w.spoison)
              (pushed (c.g.detBuf ++ (List.range lanes.length).map (fun k => (fsp + 64 * k, (frame k).map (fun x => (x, false))))))))) ∧
      (Handled c →
        (∀ k, entryOk → aligned → fits → room → k < lanes.length → hit k = true → (∀ j, j < k → hit j = false) →
          Traps (.vfork f) s c 0x06 (BitVec.ofNat 64 (fsp + 64 * k)) 0 c.g.pc) ∧
        (¬entryOk → Traps (.vfork f) s c 0x02 (operandTval (.vfork f) 23) 0 c.g.pc) ∧
        (entryOk → join % 8 ≠ 0 → Traps (.vfork f) s c 0x05 (BitVec.ofNat 64 join) 0 c.g.pc) ∧
        (entryOk → join % 8 = 0 → lanes ≠ [] → res % 8 ≠ 0 → Traps (.vfork f) s c 0x05 (BitVec.ofNat 64 res) 0 c.g.pc) ∧
        (entryOk → aligned → c.l.kern.scratch < join + 8 → Traps (.vfork f) s c 0x04 (BitVec.ofNat 64 join) 0 c.g.pc) ∧
        (∀ k, entryOk → aligned → join + 8 ≤ c.l.kern.scratch → k < lanes.length → c.l.kern.scratch < res + 8 * k + 8 →
          (∀ j, j < k → res + 8 * j + 8 ≤ c.l.kern.scratch) →
          Traps (.vfork f) s c 0x04 (BitVec.ofNat 64 (res + 8 * k)) 0 c.g.pc)))

/-- R225: LAUNCH copies 64 bytes of scratchpad into the ring of a queue of its own address space and writes SD = 0; SD = 1 when the ring is
full and 2 when the queue is inactive, in SUBMIT mode or of another address space; a queue number past 1023 and an image that is no LAUNCH packet
raise OPERAND with code 23, a misaligned image ALIGN, and one that fails a check of R160, poison among them, its trap, with the offset in TVAL.
R226: in a DET launch it parks until the commit; that it parks whatever its checks say is the model's choice (log 89). -/
def Obligations.LaunchAppendsPacket : Prop :=
  (∀ f s c, Ready s (.launch f) c → c.l.kern.det = true → c.g.barw = none → Parks (.launch f) s c .commit) ∧
  ∀ f s c, Ready s (.launch f) c → c.l.kern.det = false →
    let q := (sval c.g f.lit f.sa).toNat
    let o := sval c.g f.lit f.sb
    let img := (scratchRead s c.g o.toNat 64).map (fun b => b.1)
    let s1 := lookQueue s q
    let d := qDesc s1 q
    let x := getQ s1 q
    let checked := checkAcc s c false true false ((List.range 8).map (fun (j : Nat) => ⟨0, o.toInt + 8 * (j : Int), 8⟩))
    (1023 < q → Handled c → Traps (.launch f) s c 0x02 (operandTval (.launch f) 23) 0 c.g.pc) ∧
    (q ≤ 1023 → o.toInt % 64 ≠ 0 → Handled c → Traps (.launch f) s c 0x05 o 0 c.g.pc) ∧
    (q ≤ 1023 → o.toInt % 64 = 0 → checked = none → img.headD 0 ≠ 1 → Handled c →
      Traps (.launch f) s c 0x02 (operandTval (.launch f) 23) 0 c.g.pc) ∧
    (∀ m, q ≤ 1023 → o.toInt % 64 = 0 → checked = some m → Handled c → Traps (.launch f) s c m.cause o m.lanes c.g.pc) ∧
    (q ≤ 1023 → o.toInt % 64 = 0 → checked = none → img.headD 0 = 1 →
    ((d.active = false ∨ d.submit = true ∨ d.asid ≠ c.l.asid) → ∃ t, exec (.launch f) s = .next t ∧ SetsScalar t s c f.sd.toNat 2 ∧
      t.mem = s1.mem ∧ t.fe = s1.fe) ∧
    (d.active = true → d.submit = false → d.asid = c.l.asid → (x.wridx - x.rdidx).toNat = 2 ^ d.logsize →
      ∃ t, exec (.launch f) s = .next t ∧ SetsScalar t s c f.sd.toNat 1 ∧ t.mem = s1.mem ∧ t.fe = s1.fe) ∧
    (d.active = true → d.submit = false → d.asid = c.l.asid → (x.wridx - x.rdidx).toNat ≠ 2 ^ d.logsize →
      ∀ ds seen s2 seen2,
        spRead s1 (.asid d.asid) (d.rbase + 64 * (x.wridx.toNat % 2 ^ d.logsize)) 64 = .ok (ds, seen) → (∀ b ∈ ds, b.2 = false) →
        spWrite s1 (.asid d.asid) (d.rbase + 64 * (x.wridx.toNat % 2 ^ d.logsize)) (clean img) = .ok (s2, seen2) →
        seen2.testBit 3 = false →
        ∃ t, exec (.launch f) s = .next t ∧ SetsScalar t s c f.sd.toNat 0 ∧ t.mem = (putQ s2 q { x with wridx := x.wridx + 1 }).mem ∧
          getQ t q = { x with wridx := x.wridx + 1 }))

/-- R231, R232, R234, R245: the word form of the workgroup barrier. BARA counts an arrival in the word and writes the phase it found to SD,
and the arrival that reaches EXPECTED begins the next phase and resets the urgency of the workgroup's groups; BARW retires when the phase
differs from its token and parks otherwise; BARAW does both, and one that has arrived waits on the word it named. In a DET launch the two that R232
names, BARA and BARAW, park until the commit, whatever their checks say (the model's choice, log 89); that BARW, which R232 does not name there,
returns at once in a DET launch too when its token is out of date (R234), on committed values only, is the model's reading (log 108).
R233: named barriers. BARA.N counts an arrival in the instance of its scope and retires with the phase it found in SD; the arrival that
reaches the number of launched groups resident there begins the next phase; BARW.N retires when the phase differs from its token and
parks otherwise; BARAW.N does both. A task, or a number not below BARRIERS, takes OPERAND with code 23. -/
def Obligations.WorkgroupBarriers : Prop :=
  (∀ (f : SX) s c, c.l.kern.det = true → c.g.barw = none →
      (Ready s (.bara f) c → Parks (.bara f) s c .commit) ∧ (Ready s (.baraw f) c → Parks (.baraw f) s c .commit)) ∧
  (∀ (f : SX) s c, f.md.getLsbD 0 = false →
      let off : Int := (sval c.g f.lit f.sa).toInt + f.imm.toInt
      let word := scratchNat s c.g off.toNat 8
      let phase := word / 2 ^ 32
      let arrived := word / 2 ^ 16 % 2 ^ 16 + 1
      let expected := word % 2 ^ 16
      let token : Word := (sval c.g f.lit f.sb).extractLsb' 0 32
      let next := if expected ≤ arrived then (phase + 1) % 2 ^ 32 * 2 ^ 32 + expected else phase * 2 ^ 32 + arrived * 2 ^ 16 + expected
      (checkAcc s c false true true [⟨0, off, 8⟩] = none →
        (∀ det : Bool, Ready s (.barw f) c → c.l.kern.det = det →
          (phase ≠ token.toNat → Retires (.barw f) s c (after (.barw f) c) (fun g' => Counted c.g g')) ∧
          (phase = token.toNat → Parks (.barw f) s c (.barWord off.toNat token))) ∧
        (Ready s (.bara f) c → c.l.kern.det = false →
          ∃ t, exec (.bara f) s = .next t ∧ BarArrived t s c off.toNat next (decide (expected ≤ arrived)) ∧
            SetsScalarUrgent t s c f.sd.toNat (BitVec.ofNat 64 phase) (after (.bara f) c)) ∧
        (Ready s (.baraw f) c → c.l.kern.det = false → c.g.barw = none → AllCommitted c →
          (expected ≤ arrived →
            ∃ t, exec (.baraw f) s = .next t ∧ BarArrived t s c off.toNat next true ∧
              SetsScalarUrgent t s c f.sd.toNat (BitVec.ofNat 64 phase) (after (.baraw f) c)) ∧
          (arrived < expected →
            ∃ t g', exec (.baraw f) s = .next t ∧ BarArrived t s c off.toNat next false ∧ tget t.groups c.k = some g' ∧
              g'.status = .parked (.barWord off.toNat (BitVec.ofNat 32 phase)) ∧
              g'.barw = some (BitVec.ofNat 32 phase, some off.toNat) ∧ g'.pc = c.g.pc ∧
              sreg g' f.sd.toNat = BitVec.ofNat 64 phase))) ∧
      (∀ tok o, Ready s (.baraw f) c → c.g.barw = some (tok, some o) → checkAcc s c false true true [⟨0, (o : Nat), 8⟩] = none →
        (scratchNat s c.g o 8 / 2 ^ 32 ≠ tok.toNat →
          Retires (.baraw f) s c (after (.baraw f) c) (fun g' => Counted c.g g')) ∧
        (scratchNat s c.g o 8 / 2 ^ 32 = tok.toNat → Parks (.baraw f) s c (.barWord o tok)))) ∧
  (∀ (f : SX) s c, f.md.getLsbD 0 = true →
      let scope := (f.md2.extractLsb' 0 3).toNat
      let inst := if scope = 2 then c.w.lcore else if scope = 3 then c.w.lcore / 4 else if scope = 4 then c.w.lcore / 48 else 0
      let bar := getBar c.l scope f.imm.toNat inst
      let expected := expectedCount s c.g.launch scope inst
      let token : Word := (sval c.g f.lit f.sb).extractLsb' 0 32
      let named : Prop := f.imm.toNat < c.l.kern.barriers ∧ c.g.task = none
      let joined : BarInst := if expected ≤ bar.arrivals.length + 1 then { bar with phase := bar.phase + 1, arrivals := [] }
        else { bar with arrivals := bar.arrivals ++ [(c.g.wg, c.g.gidx)] }
      let arrives (t : State) : Prop := t.mem = s.mem ∧
        ∃ l', tget t.launches c.g.launch = some l' ∧ getBar l' scope f.imm.toNat inst = joined
      (Ready s (.barw f) c → named →
        (bar.phase ≠ token → Retires (.barw f) s c (after (.barw f) c) (fun g' => Counted c.g g')) ∧
        (bar.phase = token → Parks (.barw f) s c (.barNamed scope f.imm.toNat token))) ∧
      (Ready s (.bara f) c → c.l.kern.det = false → named →
        ∃ t, exec (.bara f) s = .next t ∧ arrives t ∧
          SetsScalarUrgent t s c f.sd.toNat (bar.phase.setWidth 64) (after (.bara f) c)) ∧
      (Ready s (.baraw f) c → c.l.kern.det = false → named → c.g.barw = none →
        (expected ≤ bar.arrivals.length + 1 →
          ∃ t, exec (.baraw f) s = .next t ∧ arrives t ∧
            SetsScalarUrgent t s c f.sd.toNat (bar.phase.setWidth 64) (after (.baraw f) c)) ∧
        (bar.arrivals.length + 1 < expected →
          ∃ t g', exec (.baraw f) s = .next t ∧ arrives t ∧ tget t.groups c.k = some g' ∧
            g'.status = .parked (.barNamed scope f.imm.toNat bar.phase) ∧ g'.barw = some (bar.phase, none) ∧ g'.pc = c.g.pc ∧
            sreg g' f.sd.toNat = bar.phase.setWidth 64)) ∧
      (¬named → Handled c →
        (Ready s (.barw f) c → Traps (.barw f) s c 0x02 (operandTval (.barw f) 23) 0 c.g.pc) ∧
        (c.l.kern.det = false →
          (Ready s (.bara f) c → Traps (.bara f) s c 0x02 (operandTval (.bara f) 23) 0 c.g.pc) ∧
          (Ready s (.baraw f) c → Traps (.baraw f) s c 0x02 (operandTval (.baraw f) 23) 0 c.g.pc))))

/-! ## Vector instructions -/

/-- R71, R72, R73: what each operand index reads in a lane: a vector register or an aligned pair of them, a broadcast scalar, zero, an
inline constant of the field's type, a lane special, or the literal.
R81: a sound vector instruction issued with EXEC zero writes nothing and retires. -/
def Obligations.VectorOperandsAndEmptyExec : Prop :=
  (∀ s (c : Ctx) lit idx t l, l < 128 → t ≤ 11 →
      let w := typeBits t
      let x := lane (srcLanes s c lit idx t) l
      (idx < 384 → w = 64 → x = vlane c.g (idx + 1) l ++ vlane c.g idx l) ∧
      (idx < 384 → w ≠ 64 → x = BitVec.ofNat 64 ((vlane c.g idx l).toNat % 2 ^ w)) ∧
      (384 ≤ idx → idx < 448 → x = BitVec.ofNat 64 ((sreg c.g (idx - 384)).toNat % 2 ^ w)) ∧
      (idx = 448 → x = 0) ∧
      (449 ≤ idx → idx ≤ 463 → floatType t = false →
        ∀ v : Int, ([1, 2, 3, 4, 8, -1, -2, 16, 32, 64, 127, 128, if signedType t then 2 ^ (w - 1) - 1 else 2 ^ w - 1,
            if signedType t then -(2 ^ (w - 1)) else 0, w] : List Int)[idx - 449]? = some v →
          x = BitVec.ofNat 64 (v % 2 ^ w).toNat) ∧
      (449 ≤ idx → idx ≤ 458 → floatType t = true →
        ∀ v : Int, ([8, 16, 24, 32, 64, -8, -16, 4, 2, 1] : List Int)[idx - 449]? = some v →
          match decodeF (fmtOf t) x.toNat with
          | .fin neg m ex => (if neg then -(m : Int) else m) * 2 ^ (ex + 1100).toNat = v * 2 ^ 1097
          | _ => False) ∧
      (floatType t = true →
        (idx = 459 → x.toNat = infBits (fmtOf t) false) ∧ (idx = 460 → x.toNat = infBits (fmtOf t) true) ∧
        (idx = 461 → x.toNat = maxFinite (fmtOf t)) ∧ (idx = 462 → x.toNat = withSign (fmtOf t) true (maxFinite (fmtOf t))) ∧
        (idx = 463 → x.toNat = canonNaN (fmtOf t))) ∧
      (464 ≤ idx → idx ≤ 476 →
        ∀ v, [l, 128 * c.g.gidx + l, c.g.gidx, c.l.kern.groups, c.w.x, c.w.y, c.w.z, c.l.gx, c.l.gy, c.l.gz,
            c.w.lcore, c.g.sp.tdepth.toNat, 2 ^ (l % 32)][idx - 464]? = some v →
          x = BitVec.ofNat 64 (v % 2 ^ w)) ∧
      (idx = 511 → x = BitVec.ofNat 64 ((lit.getD 0).toNat % 2 ^ w))) ∧
  (∀ i s c, Ready s i c → isVector i = true → execMask c.g = 0 → Retires i s c (after i c) (fun g' => Counted c.g g'))

/-- R139, R140, R144: the integer arithmetic of MAJ 0x14 in each active lane, modulo 2^w. -/
def Obligations.VectorIntegerArithmetic : Prop :=
  LaneOp .vadd (fun f s c l => elemOf f.ty.toNat (laneInt f.ty.toNat (opA s c f) l + laneInt f.ty.toNat (opB s c f) l)) ∧
  LaneOp .vsub (fun f s c l => elemOf f.ty.toNat (laneInt f.ty.toNat (opA s c f) l - laneInt f.ty.toNat (opB s c f) l)) ∧
  LaneOp .vmul (fun f s c l => elemOf f.ty.toNat (laneInt f.ty.toNat (opA s c f) l * laneInt f.ty.toNat (opB s c f) l)) ∧
  LaneOp .vmulh (fun f s c l => elemOf f.ty.toNat
    (laneInt f.ty.toNat (opA s c f) l * laneInt f.ty.toNat (opB s c f) l / 2 ^ typeBits f.ty.toNat)) ∧
  LaneOp .vmad (fun f s c l => elemOf f.ty.toNat
    (laneInt f.ty.toNat (opA s c f) l * laneInt f.ty.toNat (opB s c f) l + laneInt f.ty.toNat (opC s c f) l)) ∧
  LaneOp .vabs (fun f s c l => elemOf f.ty.toNat |laneInt f.ty.toNat (opA s c f) l|) ∧
  LaneOp .vmin (fun f s c l => elemOf f.ty.toNat (min (laneInt f.ty.toNat (opA s c f) l) (laneInt f.ty.toNat (opB s c f) l))) ∧
  LaneOp .vmax (fun f s c l => elemOf f.ty.toNat (max (laneInt f.ty.toNat (opA s c f) l) (laneInt f.ty.toNat (opB s c f) l)))

/-- R144, R145: the logic, shifts, counts and bitfields of MAJ 0x15 in each active lane; the shift amount and the field come from the low
32-bit register of VB. -/
def Obligations.VectorBitOperations : Prop :=
  LaneOp .vand (fun f s c l => lane (opA s c f) l &&& lane (opB s c f) l) ∧
  LaneOp .vor (fun f s c l => lane (opA s c f) l ||| lane (opB s c f) l) ∧
  LaneOp .vxor (fun f s c l => lane (opA s c f) l ^^^ lane (opB s c f) l) ∧
  LaneOp .vandn (fun f s c l => lane (opA s c f) l &&& ~~~(lane (opB s c f) l)) ∧
  LaneOp .vshl (fun f s c l => BitVec.ofNat 64
    ((lane (opA s c f) l).toNat * 2 ^ ((lane (amountB s c f) l).toNat % typeBits f.ty.toNat) % 2 ^ typeBits f.ty.toNat)) ∧
  LaneOp .vshr (fun f s c l => elemOf f.ty.toNat
    (laneInt f.ty.toNat (opA s c f) l / 2 ^ ((lane (amountB s c f) l).toNat % typeBits f.ty.toNat))) ∧
  LaneOp .vsra (fun f s c l => elemOf f.ty.toNat
    (sextI (typeBits f.ty.toNat) (lane (opA s c f) l).toNat / 2 ^ ((lane (amountB s c f) l).toNat % typeBits f.ty.toNat))) ∧
  LaneOp .vpopc (fun f s c l => BitVec.ofNat 64
    ((List.range (typeBits f.ty.toNat)).filter (fun j => (lane (opA s c f) l).getLsbD j)).length) ∧
  LaneOp .vclz (fun f s c l => BitVec.ofNat 64
    (if lane (opA s c f) l = 0 then typeBits f.ty.toNat else typeBits f.ty.toNat - 1 - Nat.log2 (lane (opA s c f) l).toNat)) ∧
  LaneOp .vbfx (fun f s c l =>
    let pos := ((lane (amountB s c f) l).extractLsb' 0 8).toNat
    let n := min ((lane (amountB s c f) l).extractLsb' 8 8).toNat (typeBits f.ty.toNat)
    let x := (laneInt f.ty.toNat (opA s c f) l / 2 ^ pos % 2 ^ n).toNat
    if n = 0 then 0
    else elemOf f.ty.toNat (if signedType f.ty.toNat ∧ 2 ^ (n - 1) ≤ x then (x : Int) - 2 ^ n else x)) ∧
  (∀ f s c (r : Nat → DWord), ReadyLanes s (.vbfi f) c →
    (∀ l, l < 128 → ∀ j, j < 64 → (r l).getLsbD j =
      (decide (j < typeBits f.ty.toNat) &&
        (if ((lane (amountB s c f) l).extractLsb' 0 8).toNat ≤ j ∧
            j < ((lane (amountB s c f) l).extractLsb' 0 8).toNat + ((lane (amountB s c f) l).extractLsb' 8 8).toNat
         then (lane (opA s c f) l).getLsbD (j - ((lane (amountB s c f) l).extractLsb' 0 8).toNat)
         else (lane (opC s c f) l).getLsbD j))) →
    WritesLanes (.vbfi f) s c f.vd.toNat (typeBits f.ty.toNat) (active c f.sp) c.g.fpc r) ∧
  (∀ s c f l, l < 128 → f.vb.toNat < 384 → lane (amountB s c f) l = (vlane c.g f.vb.toNat l).setWidth 64)

/-- R139, R146: VCMP writes the whole pair that SP names, or VCC: the outcome in each lane of EXEC and 0 in every other lane.
R139, R147, R148, R156: the select, the moves and the lane moves copy bits; a source lane is read whether it is active or not. -/
def Obligations.ComparesSelectsAndMoves : Prop :=
  (∀ f s c (m : Mask), ReadyLanes s (.vcmp f) c →
      (∀ l, l < 128 →
        let x := laneInt f.ty.toNat (opA s c f) l
        let y := laneInt f.ty.toNat (opB s c f) l
        (m.getLsbD l = true ↔ (execMask c.g).getLsbD l = true ∧
          ((f.md.extractLsb' 0 3 = 0 ∧ x = y) ∨ (f.md.extractLsb' 0 3 = 1 ∧ x ≠ y) ∨ (f.md.extractLsb' 0 3 = 2 ∧ x < y) ∨
           (f.md.extractLsb' 0 3 = 3 ∧ x ≤ y) ∨ (f.md.extractLsb' 0 3 = 4 ∧ x > y) ∨ (f.md.extractLsb' 0 3 = 5 ∧ x ≥ y)))) →
      f.md.extractLsb' 0 3 ≤ 5 →
      WritesPair (.vcmp f) s c (if f.sp = 255 then 156 else f.sp.toNat) m c.g.scc) ∧
  ((∀ f s c, ReadyLanes s (.vsel f) c →
      WritesLanes (.vsel f) s c f.vd.toNat (typeBits f.ty.toNat) (fun l => (execMask c.g).getLsbD l) c.g.fpc (fun l =>
        if (spair c.g (if f.sp = 255 then 156 else f.sp.toNat)).getLsbD l then lane (opA s c f) l else lane (opB s c f) l)) ∧
    LaneOp .vmov (fun f s c l => lane (opA s c f) l) ∧
    (∀ f s c (k : Int), ReadyLanes s (.vlane f) c → k = ((uniformVal c.g f.lit f.vb.toNat 0).extractLsb' 0 32).toInt →
      WritesLanes (.vlane f) s c f.vd.toNat (typeBits f.ty.toNat) (active c f.sp) c.g.fpc (fun l =>
        if f.md.getLsbD 0 = false then lane (opA s c f) (((l : Int) + k) % 128).toNat
        else if 0 ≤ (l : Int) + k ∧ (l : Int) + k ≤ 127 then lane (opA s c f) ((l : Int) + k).toNat else lane (opC s c f) l)) ∧
    (∀ f s c (k : Int), ReadyLanes s (.vins f) c → k = ((uniformVal c.g f.lit f.vb.toNat 0).extractLsb' 0 32).toInt →
      WritesLanes (.vins f) s c f.vd.toNat (typeBits f.ty.toNat) (fun l => decide ((l : Int) = k % 128) && active c f.sp l) c.g.fpc
        (fun l => lane (opA s c f) l)) ∧
    LaneOp .vshuf (fun f s c l =>
      let j := (lane (srcLanes s c f.lit f.vb.toNat 1) l).toNat
      if f.md.getLsbD 0 = true ∧ 128 ≤ j then 0 else lane (opA s c f) (j % 128)) ∧
    LaneOp .vbcast (fun f s c _ => lane (opA s c f) ((uniformVal c.g f.lit f.vb.toNat 1).toNat % 128)))

/-- R129, R134, R135, R149, R150, R151: the arithmetic of MAJ 0x17 with its flags, its FP trap and its frame. Of finite operands (−1)^n · m · 2^e the
sum, the product, the fused sum, the quotient and the root are the exact result rounded once; quotient and root are given to roundF with more bits
than the format has and one bit that tells whether anything lies below them. -/
def Obligations.FloatArithmetic : Prop :=
  let k (f : VX) : FFmt := fmtOf f.ty.toNat
  let a (f : VX) (s : State) (c : Ctx) (l : Nat) : FVal := decodeF (k f) (lane (opA s c f) l).toNat
  let b (f : VX) (s : State) (c : Ctx) (l : Nat) : FVal := decodeF (k f) (lane (opB s c f) l).toNat
  let d (f : VX) (s : State) (c : Ctx) (l : Nat) : FVal := decodeF (k f) (lane (opC s c f) l).toNat
  let w (f : VX) : Nat := typeBits f.ty.toNat
  let sigA (f : VX) (s : State) (c : Ctx) (l : Nat) : Bool := signals f.ty.toNat (opA s c f) l
  let sigAB (f : VX) (s : State) (c : Ctx) (l : Nat) : Bool := signals f.ty.toNat (opA s c f) l || signals f.ty.toNat (opB s c f) l
  FloatOp .vfadd w (fun f s c l => addF (k f) (fpcRM c) false (a f s c l) (b f s c l)) sigAB ∧
  FloatOp .vfsub w (fun f s c l => addF (k f) (fpcRM c) false (a f s c l) (negF (b f s c l))) sigAB ∧
  FloatOp .vfmul w (fun f s c l => mulF (k f) (fpcRM c) (a f s c l) (b f s c l)) sigAB ∧
  FloatOp .vfma w (fun f s c l => fmaF (k f) (fpcRM c) (a f s c l) (b f s c l) (d f s c l))
    (fun f s c l => sigAB f s c l || signals f.ty.toNat (opC s c f) l) ∧
  FloatOp .vfdiv w (fun f s c l => divF (k f) (fpcRM c) (a f s c l) (b f s c l)) sigAB ∧
  FloatOp .vfsqrt w (fun f s c l => sqrtF (k f) (fpcRM c) (a f s c l)) sigA ∧
  FloatOp .vfmin w (fun f s c l => minMaxF (k f) false (lane (opA s c f) l).toNat (lane (opB s c f) l).toNat) sigAB ∧
  FloatOp .vfmax w (fun f s c l => minMaxF (k f) true (lane (opA s c f) l).toNat (lane (opB s c f) l).toNat) sigAB ∧
  FloatOp .vfrcpa w (fun f s c l => rcpaF (k f) (a f s c l)) sigA ∧
  FloatOp .vfrsqa w (fun f s c l => rsqaF (k f) (a f s c l)) sigA ∧
  ∀ (k : FFmt) (rm : RM) (na nb nc : Bool) (ma mb mc : Nat) (ea eb ec : Int),
    let signed (n : Bool) (m : Nat) : Int := if n then -(m : Int) else m
    let sum (na : Bool) (ma : Nat) (ea : Int) (nb : Bool) (mb : Nat) (eb : Int) : Nat × Flags :=
      let e := min ea eb
      let x := signed na (ma * 2 ^ (ea - e).toNat) + signed nb (mb * 2 ^ (eb - e).toNat)
      if x = 0 then (withSign k (if na = nb then na else rm == .rdn) 0, 0) else roundF k rm false (decide (x < 0)) x.natAbs e
    addF k rm false (.fin na ma ea) (.fin nb mb eb) = sum na ma ea nb mb eb ∧
    mulF k rm (.fin na ma ea) (.fin nb mb eb) = roundF k rm false (na != nb) (ma * mb) (ea + eb) ∧
    fmaF k rm (.fin na ma ea) (.fin nb mb eb) (.fin nc mc ec) = sum (na != nb) (ma * mb) (ea + eb) nc mc ec ∧
    (∀ sh q, mb ≠ 0 → sh = k.f + 4 + bitLen mb → q * mb ≤ ma * 2 ^ sh → ma * 2 ^ sh < (q + 1) * mb →
      divF k rm (.fin na ma ea) (.fin nb mb eb) =
        roundF k rm false (na != nb) (2 * q + (if q * mb = ma * 2 ^ sh then 0 else 1)) (ea - eb - sh - 1)) ∧
    (∀ m h r, ma ≠ 0 → (m = ma ∧ ea = 2 * h) ∨ (m = 2 * ma ∧ ea = 2 * h + 1) → r * r ≤ m * 4 ^ (k.f + 4) →
      m * 4 ^ (k.f + 4) < (r + 1) * (r + 1) →
      sqrtF k rm (.fin false ma ea) =
        roundF k rm false false (2 * r + (if r * r = m * 4 ^ (k.f + 4) then 0 else 1)) (h - (k.f + 4 : Nat) - 1))

/-- R129: rounding m × 2^ex to a multiple of 2^q: to the nearest with ties to even, toward zero, toward +infinity or toward −infinity;
and it is inexact exactly when the value is no such multiple.
R126, R134, R149, R150: invalid operations and special values: NaN operands give the canonical NaN and IV exactly for a signalling one;
∞ − ∞, 0 × ∞, 0/0, ∞/∞ and the root of a negative number give it with IV; a finite number over zero gives ∞ with DZ. -/
def Obligations.FloatRoundingAndSpecialValues : Prop :=
  (∀ (neg : Bool) (m : Nat) (ex q : Int) (d : Nat), (d : Int) = q - ex →
      let n (rm : RM) : Nat := (roundTo rm neg m ex q).1
      (∀ rm, (roundTo rm neg m ex q).2 = true ↔ ¬(2 ^ d ∣ m)) ∧
      (∀ rm, 2 ^ d ∣ m → n rm * 2 ^ d = m) ∧
      (n .rtz * 2 ^ d ≤ m ∧ m < (n .rtz + 1) * 2 ^ d) ∧
      (neg = true → n .rup = n .rtz ∧ m ≤ n .rdn * 2 ^ d ∧ n .rdn * 2 ^ d < m + 2 ^ d) ∧
      (neg = false → n .rdn = n .rtz ∧ m ≤ n .rup * 2 ^ d ∧ n .rup * 2 ^ d < m + 2 ^ d) ∧
      (2 * (n .rne * 2 ^ d) ≤ 2 * m + 2 ^ d ∧ 2 * m ≤ 2 * (n .rne * 2 ^ d) + 2 ^ d) ∧
      (2 * (m % 2 ^ d) = 2 ^ d → n .rne % 2 = 0)) ∧
  (∀ (k : FFmt) (rm : RM) (x y z : FVal) (n p : Bool) (m : Nat) (e : Int),
      ((x.isNaN = true ∨ y.isNaN = true) →
        (addF k rm false x y).1 = canonNaN k ∧ (mulF k rm x y).1 = canonNaN k ∧ (divF k rm x y).1 = canonNaN k ∧
        ((addF k rm false x y).2 = if x.isSig || y.isSig then fIV else 0) ∧
        ((mulF k rm x y).2 = if x.isSig || y.isSig then fIV else 0) ∧
        ((divF k rm x y).2 = if x.isSig || y.isSig then fIV else 0)) ∧
      addF k rm false (.inf n) (.inf (!n)) = (canonNaN k, fIV) ∧ addF k rm false (.inf n) (.inf n) = (infBits k n, 0) ∧
      mulF k rm (.fin n 0 e) (.inf p) = (canonNaN k, fIV) ∧ mulF k rm (.inf p) (.fin n 0 e) = (canonNaN k, fIV) ∧
      (fmaF k rm (.fin n 0 e) (.inf p) z).1 = canonNaN k ∧ (fmaF k rm (.fin n 0 e) (.inf p) z).2 = fIV ∧
      divF k rm (.inf n) (.inf p) = (canonNaN k, fIV) ∧ divF k rm (.fin n 0 e) (.fin p 0 e) = (canonNaN k, fIV) ∧
      (m ≠ 0 → divF k rm (.fin n m e) (.fin p 0 e) = (infBits k (n != p), fDZ)) ∧
      (m ≠ 0 → sqrtF k rm (.fin true m e) = (canonNaN k, fIV)) ∧ sqrtF k rm (.fin n 0 e) = (withSign k n 0, 0) ∧
      sqrtF k rm (.inf true) = (canonNaN k, fIV) ∧
      (addF k rm false (.fin false m e) (.fin true m e)).1 = withSign k (rm == .rdn) 0)

/-- R132, R152, R153, R154, R155, R165: VFCMP writes its mask as VCMP does or traps with none written; VFCLASS names the class of each element
and raises nothing; VFRND, VFCVT and VSLICE write rounded, converted and sliced elements with their flags. The predicates, the rounding to an
integral value, the conversions of each pair of kinds of types, and the slices give what R152, R154, R132 and R165 say. -/
def Obligations.FloatComparesAndConversions : Prop :=
  (∀ f s c, ReadyLanes s (.vfcmp f) c →
    let r (l : Nat) : Bool × Flags := cmpPredF (f.md.extractLsb' 0 4).toNat (decodeF (fmtOf f.ty.toNat) (lane (opA s c f) l).toNat)
      (decodeF (fmtOf f.ty.toNat) (lane (opB s c f) l).toNat)
    let act (l : Nat) : Bool := (execMask c.g).getLsbD l
    FloatEnds (.vfcmp f) s c act (fun l => (r l).2) (fun l => signals f.ty.toNat (opA s c f) l || signals f.ty.toNat (opB s c f) l)
      (fun fl => ∀ m : Mask, (∀ l, l < 128 → m.getLsbD l = (act l && (r l).1)) →
        Retires (.vfcmp f) s c (after (.vfcmp f) c) (fun g' =>
          let sp := if f.sp = 255 then 156 else f.sp.toNat
          Counted { c.g with sregs := g'.sregs, fpc := fpcRaise c.g.fpc fl } g' ∧ spair g' sp = m ∧
            ∀ n, n ≠ sp → n ≠ sp + 1 → sreg g' n = sreg c.g n))) ∧
  (∀ f s c, ReadyLanes s (.vfclass f) c →
    WritesLanes (.vfclass f) s c f.vd.toNat 32 (active c f.sp) c.g.fpc (fun l =>
      let k := fmtOf f.ty.toNat
      BitVec.ofNat 64 (2 ^ (match decodeF k (lane (opA s c f) l).toNat with
        | .inf true => 0
        | .inf false => 7
        | .nan true => 8
        | .nan false => 9
        | .fin neg m _ =>
          if m = 0 then (if neg then 3 else 4) else if m < 2 ^ k.f then (if neg then 2 else 5) else (if neg then 1 else 6))))) ∧
  FloatOp .vfrnd (fun f => typeBits f.ty.toNat)
    (fun f s c l => rndF (fmtOf f.ty.toNat) (rmOverride c f) (f.md.getLsbD 3) (lane (opA s c f) l).toNat)
    (fun f s c l => signals f.ty.toNat (opA s c f) l) ∧
  FloatOp .vfcvt (fun f => typeBits f.ty.toNat)
    (fun f s c l => convert (f.md.extractLsb' 0 4).toNat f.ty.toNat (rmOverride c f) (c.g.pal.getLsbD 13)
      (lane (srcLanes s c f.lit f.va.toNat (f.md.extractLsb' 0 4).toNat) l))
    (fun f s c l => signals (f.md.extractLsb' 0 4).toNat (srcLanes s c f.lit f.va.toNat (f.md.extractLsb' 0 4).toNat) l) ∧
  FloatOp .vslice (fun _ => 32)
    (fun f s c l => sliceElem (f.imm.extractLsb' 0 4).toNat (lane (opA s c f) l)
      ((lane (srcLanes s c f.lit f.vb.toNat 0) l).extractLsb' 0 32).toInt)
    (fun f s c l => signals 7 (opA s c f) l) ∧
  (∀ (n : Nat) (a b : FVal), n ≤ 11 →
    let un : Prop := a.isNaN = true ∨ b.isNaN = true
    let c := cmpF a b
    ((cmpPredF n a b).1 = true ↔
      (n = 6 ∧ un) ∨ (n = 7 ∧ ¬un) ∨ (n = 1 ∧ (un ∨ c ≠ 0)) ∨ (n = 0 ∧ ¬un ∧ c = 0) ∨ ((n = 2 ∨ n = 8) ∧ ¬un ∧ c < 0) ∨
      ((n = 3 ∨ n = 9) ∧ ¬un ∧ c ≤ 0) ∨ ((n = 4 ∨ n = 10) ∧ ¬un ∧ 0 < c) ∨ ((n = 5 ∨ n = 11) ∧ ¬un ∧ 0 ≤ c)) ∧
    ((cmpPredF n a b).2 = fIV ∨ (cmpPredF n a b).2 = 0) ∧
    ((cmpPredF n a b).2 = fIV ↔ a.isSig = true ∨ b.isSig = true ∨ (2 ≤ n ∧ n ≤ 5 ∧ un))) ∧
  (∀ (na nb : Bool) (ma mb : Nat) (ea eb e : Int), e ≤ ea → e ≤ eb →
    let v (n : Bool) (m : Nat) (ex : Int) : Int := (if n then -1 else 1) * (m * 2 ^ (ex - e).toNat : Nat)
    (cmpF (.fin na ma ea) (.fin nb mb eb) < 0 ↔ v na ma ea < v nb mb eb) ∧
    (cmpF (.fin na ma ea) (.fin nb mb eb) = 0 ↔ v na ma ea = v nb mb eb) ∧
    cmpF (.inf true) (.fin nb mb eb) < 0 ∧ 0 < cmpF (.inf false) (.fin nb mb eb) ∧ 0 < cmpF (.fin na ma ea) (.inf true) ∧
    cmpF (.fin na ma ea) (.inf false) < 0 ∧ cmpF (.inf na) (.inf na) = 0 ∧ cmpF (.inf true) (.inf false) < 0 ∧
    0 < cmpF (.inf false) (.inf true)) ∧
  (∀ (k : FFmt) (rm : RM) (exact : Bool) (b : Nat), match decodeF k b with
    | .nan sn => rndF k rm exact b = (canonNaN k, if sn then fIV else 0)
    | .inf n => rndF k rm exact b = (infBits k n, 0)
    | .fin n m e => rndF k rm exact b =
      ((roundF k rm false n (roundTo rm n m e 0).1 0).1, if exact = true ∧ (roundTo rm n m e 0).2 = true then fNX else 0)) ∧
  (∀ (src dst : Nat) (rm : RM) (sat : Bool) (x : DWord),
    let r := convert src dst rm sat x
    let k := fmtOf dst
    let w := typeBits dst
    let hi : Int := if signedType dst then 2 ^ (w - 1) - 1 else 2 ^ w - 1
    let lo : Int := if signedType dst then -(2 ^ (w - 1)) else 0
    (floatType src = true → floatType dst = true → match decodeF (fmtOf src) x.toNat with
      | .nan sn => r = (canonNaN k, if sn then fIV else 0)
      | .inf n => r = if k.hasInf then (infBits k n, 0) else if sat then (withSign k n (maxFinite k), fOF) else (canonNaN k, fOF)
      | .fin n m e => r = roundF k rm sat n m e) ∧
    (floatType src = true → floatType dst = false → match decodeF (fmtOf src) x.toNat with
      | .nan _ => r = (0, fIV)
      | .inf n => r = (((if n then lo else hi) % 2 ^ w).toNat, fIV)
      | .fin n m e =>
        let v : Int := if n then -((roundTo rm n m e 0).1 : Int) else (roundTo rm n m e 0).1
        r = if hi < v then ((hi % 2 ^ w).toNat, fIV) else if v < lo then ((lo % 2 ^ w).toNat, fIV)
          else ((v % 2 ^ w).toNat, if (roundTo rm n m e 0).2 then fNX else 0)) ∧
    (floatType src = false → floatType dst = true →
      r = roundF k rm sat (decide (elemInt src x < 0)) (elemInt src x).natAbs 0) ∧
    (floatType src = false → floatType dst = false → r = ((elemInt src x % 2 ^ w).toNat, 0))) ∧
  (∀ (i : Nat) (a : DWord) (e : Int), 1 ≤ i → match decodeF f64 a.toNat with
    | .fin neg m ex =>
      let cut (j : Nat) : Nat := if 0 ≤ ex + 7 * j - e then m * 2 ^ (ex + 7 * j - e).toNat else m / 2 ^ (e - ex - 7 * j).toNat
      let q : Int := (cut i : Int) - 128 * (cut (i - 1) : Int)
      (m ≠ 0 ∧ e < (bitLen m : Int) + ex → sliceElem i a e = (0, fIV)) ∧
      (¬(m ≠ 0 ∧ e < (bitLen m : Int) + ex) → sliceElem i a e = (((if neg then -q else q) % 256).toNat, 0))
    | _ => sliceElem i a e = (0, fIV))

/-- R137, R157: VRED and VSCAN. Under an integer TYPE the reduction of the active lanes, and the scan of the active lanes up to each lane,
are the sum modulo 2^w, the least or greatest value, or the bitwise combination, and raise no flag; under a floating-point TYPE the
value and flags are those of the pairwise tree and of the blocks of R137, a NaN as the canonical one (R126; where one lane alone is scanned
the model's reading, log 82).
R166: VRAND writes the four words of Philox-4x32-10 of each active lane's counter under the key VB, and changes nothing else; that the key is read
at type N64 is the model's choice (log 96). -/
def Obligations.ReductionsScansAndRandom : Prop :=
  ((∀ f s c, ReadyLanes s (.vred f) c → floatType f.ty.toNat = false →
      ∀ r : DWord, Combines c f s (fun _ => true) r →
        WritesLanes (.vred f) s c f.vd.toNat (typeBits f.ty.toNat) (active c f.sp) c.g.fpc (fun _ => r)) ∧
    (∀ f s c, ReadyLanes s (.vscan f) c → floatType f.ty.toNat = false →
      ∀ r : Nat → DWord, (∀ l, l < 128 → Combines c f s (fun j => if f.md.getLsbD 3 then decide (j < l) else decide (j ≤ l)) (r l)) →
        WritesLanes (.vscan f) s c f.vd.toNat (typeBits f.ty.toNat) (active c f.sp) c.g.fpc r) ∧
    (∀ f s c, ReadyLanes s (.vred f) c → floatType f.ty.toNat = true →
      let op := (f.md.extractLsb' 0 3).toNat
      let r := treeFold (redNode (fpcRM c) op f.ty.toNat) (0, 0) 7 (redInputs s c f op)
      FloatEnds (.vred f) s c (active c f.sp) (fun _ => r.2) (signals f.ty.toNat (opA s c f)) (fun fl =>
        WritesLanes (.vred f) s c f.vd.toNat (typeBits f.ty.toNat) (active c f.sp) (fpcRaise c.g.fpc fl) (fun _ => r.1))) ∧
    (∀ f s c, ReadyLanes s (.vscan f) c → floatType f.ty.toNat = true →
      let op := (f.md.extractLsb' 0 3).toNat
      let r (l : Nat) : DWord × Flags :=
        let n := if f.md.getLsbD 3 then l else l + 1
        if n = 0 then (redIdentity op f.ty.toNat, 0)
        else
          let v := scanBlocks (redNode (fpcRM c) op f.ty.toNat) (0, 0) 7 none ((redInputs s c f op).take n)
          if isNaN (fmtOf f.ty.toNat) v.1.toNat then (BitVec.ofNat 64 (canonNaN (fmtOf f.ty.toNat)), v.2) else v
      FloatEnds (.vscan f) s c (active c f.sp) (fun l => (r l).2) (signals f.ty.toNat (opA s c f)) (fun fl =>
        WritesLanes (.vscan f) s c f.vd.toNat (typeBits f.ty.toNat) (active c f.sp) (fpcRaise c.g.fpc fl) (fun l => (r l).1)))) ∧
  (∀ f s c, ReadyLanes s (.vrand f) c →
      let key := uniformVal c.g f.lit f.vb.toNat 3
      let va := f.va.toNat
      let vd := f.vd.toNat
      Retires (.vrand f) s c (after (.vrand f) c) (fun g' =>
        Counted { c.g with vregs := g'.vregs } g' ∧
        (∀ l, l < 128 →
          let r := philox 10 (vlane c.g va l) (vlane c.g (va + 1) l) (vlane c.g (va + 2) l) (vlane c.g (va + 3) l)
            (key.extractLsb' 0 32) (key.extractLsb' 32 32)
          ∀ j, j < 4 → vlane g' (vd + j) l =
            if active c f.sp l then (if j = 0 then r.1 else if j = 1 then r.2.1 else if j = 2 then r.2.2.1 else r.2.2.2)
            else vlane c.g (vd + j) l) ∧
        ∀ n, n < vd ∨ vd + 4 ≤ n → vreg g' n = vreg c.g n))

/-- R158, R159, R160, R169: VLD and VLDX load each active lane's element; VST and VSTX store them, the highest lane's byte where several
meet; a failing check other than a tape hit traps with nothing performed, and a tape hit in user mode goes to the operand log (R241). R172: in a
DET launch the stores go into the group's own buffer, in ascending lane order. -/
def Obligations.VectorLoadsAndStores : Prop :=
  ∀ (f : VX) s c,
    let w := typeBits f.ty.toNat / 8
    let seq (l : Nat) : Int := ((uniformVal c.g f.lit f.va.toNat 1).toNat : Int) + f.imm.toInt + l * w
    let idx (l : Nat) : Int := ((lane (srcLanes s c f.lit f.va.toNat 1) l).toNat : Int) + f.imm.toInt
    let accs (off : Nat → Int) : List Acc := ((List.range 128).filter (active c f.sp)).map (fun l => ⟨l, off l, w⟩)
    let loads (i : VX → Instr) (off : Nat → Int) : Prop := ReadyLanes s (i f) c →
      (checkAcc s c true true false (accs off) = none →
        WritesLanes (i f) s c f.vd.toNat (typeBits f.ty.toNat) (active c f.sp) c.g.fpc
          (fun l => BitVec.ofNat 64 (scratchNat s c.g (off l).toNat w))) ∧
      (∀ m, checkAcc s c true true false (accs off) = some m → m.cause ≠ 0x06 → Handled c →
        Traps (i f) s c m.cause m.tval m.lanes c.g.pc) ∧
      (∀ m, checkAcc s c true true false (accs off) = some m → m.cause = 0x06 → c.g.handler = false → Logs (i f) s c m)
    let stores (i : VX → Instr) (off : Nat → Int) : Prop := ReadyLanes s (i f) c →
      (checkAcc s c true false true (accs off) = none → c.l.kern.det = false →
        StoresScratch (i f) s c c.w
          (fun a =>
            match ((List.range 128).filter (active c f.sp)).reverse.find? (fun l =>
              decide ((off l).toNat ≤ a) && decide (a < (off l).toNat + w)) with
            | some l => (bytesOf w (lane (opB s c f) l).toNat).getD (a - (off l).toNat) 0
            | none => padOf c.w a)
          (fun n => if ((List.range 128).filter (active c f.sp)).any (fun l => wholeIn (off l).toNat w n) then false
            else mget false c.w.spoison n)
          (fun g' => Counted c.g g')) ∧
      (checkAcc s c true false true (accs off) = none → c.l.kern.det = true →
        Retires (i f) s c (after (i f) c) (fun g' => Counted { c.g with
          detBuf := c.g.detBuf ++ ((List.range 128).filter (active c f.sp)).map (fun l =>
            ((off l).toNat, (bytesOf w (lane (opB s c f) l).toNat).map (fun b => (b, false)))) } g')) ∧
      (∀ m, checkAcc s c true false true (accs off) = some m → m.cause ≠ 0x06 → Handled c →
        Traps (i f) s c m.cause m.tval m.lanes c.g.pc) ∧
      (∀ m, checkAcc s c true false true (accs off) = some m → m.cause = 0x06 → c.g.handler = false → Logs (i f) s c m)
    loads .vld seq ∧ loads .vldx idx ∧ stores .vst seq ∧ stores .vstx idx

/-! ## The tile engine -/

/-- R23, R286 to R292, R297, R299, R300: every tile instruction that passes its checks and finds room issues one operation, with the tape entries of
its scratchpad ranges, and stalls its group behind an earlier tile operation that it meets; without room, or behind a TFLG, it waits at issue. That
it holds its counter and entries while it stalls is R290; that behind a TFLG it holds none is the model's reading (log 94). -/
def Obligations.TileInstructionsIssue : Prop :=
  ∀ (f : TX) s c,
    let d := tctl c.g f.td.toNat
    let a := tctl c.g f.ta.toNat
    let b := tctl c.g f.tb.toNat
    let va := sval c.g f.lit f.sa
    let vb := sval c.g f.lit f.sb
    let vc := sval c.g f.lit f.sc
    let base : Int := va.toInt + f.imm.toInt
    let rows (t : DWord) (from' stride : Nat) (len : Nat) (write : Bool) : Span := ⟨from', from' + (tRows t - 1) * stride + len, write⟩
    let inside (lo : Int) (n : Nat) : Prop := 0 ≤ lo ∧ lo + n ≤ c.l.kern.scratch
    let span (stride : Nat) (t : DWord) : Nat := (tRows t - 1) * stride + tRowb t
    let issues (i : Instr) (act : TileAct) (wr rd : List Nat) (spans : List Span) : Prop :=
      ((∃ p ∈ tileOps s c.g, isTflg p.2 = true) → Stalls i s c) ∧
      ((∀ p ∈ tileOps s c.g, isTflg p.2 = false) →
        (Room s c .tile spans.length →
          ∃ t g', exec i s = .next t ∧ Issued s t c i .tile (tileAct c act wr rd) none spans ∧ tget t.groups c.k = some g' ∧
            ((∃ p ∈ tileOps s c.g, tileClash p.2 wr rd = true) → g'.status = .stalled) ∧
            ((∀ p ∈ tileOps s c.g, tileClash p.2 wr rd = false) → g'.status = c.g.status)) ∧
        (¬Room s c .tile spans.length → c.l.kern.det = false → Stalls i s c))
    (Ready s (.tcfg f) c → c.g.tile = [] → (va = 0 ∨ (tAlloc va = true ∧ tcfgBad c f.td.toNat va = false)) → Room s c .tile 0 →
      ∃ t, exec (.tcfg f) s = .next t ∧ Issued s t c (.tcfg f) .tile (tileAct c .tcfg [f.td.toNat] []) none [] ∧
        ∃ g', tget t.groups c.k = some g' ∧ tctl g' f.td.toNat = va ∧ ∀ n, n ≠ f.td.toNat → tctl g' n = tctl c.g n) ∧
    (Ready s (.tzero f) c → tAlloc d = true → issues (.tzero f) (.tzero d) [f.td.toNat] [] []) ∧
    (Ready s (.tmov f) c → tAlloc d = true → tAlloc a = true → movPair d a = true → (f.td = f.ta ∨ tOverlap d a = false) →
      issues (.tmov f) (.tmov d a) [f.td.toNat] [f.ta.toNat] []) ∧
    (Ready s (.tflgGet f) c → issues (.tflgGet f) (.tflgGet f.sa.toNat) [] [] []) ∧
    (Ready s (.tflgSet f) c → va.extractLsb' 14 50 = 0 → va.extractLsb' 6 2 = 0 →
      issues (.tflgSet f) (.tflgSet (va.extractLsb' 0 32) (vb.extractLsb' 0 32)) [] [] []) ∧
    (Ready s (.tld f) c → tAlloc d = true → isWeight (tFmt d) = false → vb.toNat < 2 ^ 20 → base % 4 = 0 → vb.toNat % 4 = 0 →
      inside base (span vb.toNat d) → 1 ≤ tRows d → 1 ≤ tRowb d →
      spansTape s c [rows d base.toNat vb.toNat (tRowb d) false] = none →
      issues (.tld f) (.tld d base.toNat vb.toNat) [f.td.toNat] [] [rows d base.toNat vb.toNat (tRowb d) false]) ∧
    (Ready s (.tldw f) c → tAlloc d = true → isWeight (tFmt d) = true → vb.toNat < 2 ^ 20 → base % 4 = 0 → vb.toNat % 4 = 0 →
      vc.toInt % 4 = 0 → inside base (span vb.toNat d) → inside vc.toInt (tScaleBytes d) → 1 ≤ tRows d → 1 ≤ tRowb d →
      1 ≤ tScaleBytes d →
      spansTape s c [rows d base.toNat vb.toNat (tRowb d) false, ⟨vc.toInt.toNat, vc.toInt.toNat + tScaleBytes d, false⟩] = none →
      issues (.tldw f) (.tldw d base.toNat vb.toNat vc.toInt.toNat) [f.td.toNat] []
        [rows d base.toNat vb.toNat (tRowb d) false, ⟨vc.toInt.toNat, vc.toInt.toNat + tScaleBytes d, false⟩]) ∧
    (Ready s (.tst f) c → tAlloc a = true → isWeight (tFmt a) = false → vb.toNat < 2 ^ 20 → base % 4 = 0 → vb.toNat % 4 = 0 →
      inside base (span vb.toNat a) → 1 ≤ tRows a → 1 ≤ tRowb a →
      spansTape s c [rows a base.toNat vb.toNat (tRowb a) true] = none →
      issues (.tst f) (.tst a base.toNat vb.toNat) [] [f.ta.toNat] [rows a base.toNat vb.toNat (tRowb a) true]) ∧
    (∀ fa fb fd, Ready s (.tmma f) c → tAlloc d = true → tAlloc a = true → tAlloc b = true → mmaMode c.g.pal = some (fa, fb, fd) →
      mmaShape c.g.pal d a b f fa fb fd = none →
      issues (.tmma f) (.tmma d a b (f.md.getLsbD 0)) [f.td.toNat] [f.td.toNat, f.ta.toNat, f.tb.toNat] []) ∧
    (Ready s (.tcomb f) c → tAlloc d = true → tAlloc a = true → tFmt d = 8 → tFmt a = 7 → tRows a = tRows d →
      f.imm.toNat % 2 ^ 8 ≤ 16 → f.imm.toNat < 2 ^ 14 → f.imm.toNat / 2 ^ 8 + tElems d ≤ tElems a →
      issues (.tcomb f) (.tcomb d a (f.imm.toNat % 2 ^ 8) (f.imm.toNat / 2 ^ 8)) [f.td.toNat] [f.td.toNat, f.ta.toNat] []) ∧
    (Ready s (.tcvt f) c → tAlloc a = true → tFmt a = 8 → va.toInt % 8 = 0 → f.imm.toNat % 8 = 0 → vb.toInt % 4 = 0 → vc.toInt % 4 = 0 →
      inside vb.toInt (4 * tRows a) → inside vc.toInt (4 * tElems a) →
      inside va.toInt ((tRows a - 1) * f.imm.toNat + 8 * tElems a) → 1 ≤ tRows a → 1 ≤ tElems a →
      let spans : List Span := [⟨vb.toInt.toNat, vb.toInt.toNat + 4 * tRows a, false⟩, ⟨vc.toInt.toNat, vc.toInt.toNat + 4 * tElems a, false⟩,
        rows a va.toInt.toNat f.imm.toNat (8 * tElems a) true]
      spansTape s c spans = none →
      issues (.tcvt f) (.tcvt a va.toInt.toNat vb.toInt.toNat vc.toInt.toNat f.imm.toNat) [] [f.ta.toNat] spans) ∧
    (Ready s (.tadd f) c → tAlloc d = true → tAlloc a = true → tAlloc b = true → 6 ≤ tFmt d → tFmt a = tFmt d → tFmt b = tFmt d →
      tRows a = tRows d → tRows b = tRows d → tRowb a = tRowb d → tRowb b = tRowb d →
      issues (.tadd f) (.tadd d a b) [f.td.toNat] [f.ta.toNat, f.tb.toNat] [])

/-- R20, R228, R291, R294, R295, R297 to R300, R303, R305 to R307: when a tile operation is performed its tile, its flags, its scalar or its rows of
scratchpad receive their values; it leaves flight, and nothing else of its group changes but the tile counter, the reports, and its
standing at issue. TLDW keeps each code but a reserved one, which becomes 0, clears bits [31:30] of a W3 word, and sets PAL.RCS when it has changed
anything. -/
def Obligations.TileOperationsComplete : Prop :=
  ∀ s n o k g w act pal ten wr rd, tget s.ops n = some o → o.act = .tile act pal ten wr rd → opAt s o = some (k, g) →
    tget s.wgs (gWg g) = some w →
    tileReady s g n o act = true → o.record = none → o.quantum = none → o.ctr = some .tile → o.seen = 0 → launchDet s o.launch = false →
    let plain (d : DWord) : Prop := tSound d = true ∧ isWeight (tFmt d) = false
    ∃ t g', exec (.tileOpComplete n) s = .next t ∧ tget t.groups k = some g' ∧ tget t.ops n = none ∧ t.mem = s.mem ∧
      g' = { g with tiles := g'.tiles, tpoison := g'.tpoison, tflags := g'.tflags, sregs := g'.sregs, pal := g'.pal, tile := g'.tile,
                    reports := g'.reports, status := g'.status } ∧
      (∀ d, act = .tzero d → (∀ a, tOff d ≤ a → a < tOff d + tBytes d → mget 0 g'.tiles a = 0) ∧
        (∀ a, a < tOff d ∨ tOff d + tBytes d ≤ a → mget 0 g'.tiles a = mget 0 g.tiles a) ∧ g'.sregs = g.sregs ∧ g'.tflags = g.tflags) ∧
      (∀ d a, act = .tmov d a → tFmt d = tFmt a →
        ∀ j, j < tBytes a → mget 0 g'.tiles (tOff d + j) = mget 0 g.tiles (tOff a + j)) ∧
      (∀ d a, act = .tmov d a → tFmt d ≠ tFmt a → plain d →
        TileFilled g g' d (fun r e =>
          let x := tileElem g a r e
          let v := if tFmt a = 7 then cvtIF f32 .rne false (sextI 32 x.1)
            else cvtFF f32 (if tFmt d = 0 then bf16 else if tFmt d = 1 then e4m3 else e5m2) .rne (pal.getLsbD 13) x.1
          ((v.1, x.2), tflagsOf v.2))) ∧
      (∀ sd, act = .tflgGet sd → sreg g' sd = g.tflags.setWidth 64 ∧ (∀ k, k ≠ sd → sreg g' k = sreg g k) ∧ g'.tiles = g.tiles) ∧
      (∀ v m, act = .tflgSet v m → g'.tflags = (g.tflags &&& ~~~m) ||| (v &&& m) ∧ g'.sregs = g.sregs ∧ g'.tiles = g.tiles) ∧
      (∀ d base stride, act = .tld d base stride →
        ∀ r j, r < tRows d → j < tRowb d →
          mget 0 g'.tiles (tOff d + r * tRowb d + j) = ((scratchRead s g (base + r * stride) (tRowb d)).map (fun x => x.1)).getD j 0) ∧
      (∀ d base stride scale, act = .tldw d base stride scale →
        ∀ j, j < tScaleBytes d →
          mget 0 g'.tiles (tOff d + tRows d * tRowb d + j) = ((scratchRead s g scale (tScaleBytes d)).map (fun x => x.1)).getD j 0) ∧
      (∀ d base stride scale, act = .tldw d base stride scale → tSound d = true → isWeight (tFmt d) = true →
        let old (r j : Nat) : Nat := (((scratchRead s g (base + r * stride) (tRowb d)).map (fun x : PByte => x.1)).getD j 0).toNat
        let new (r j : Nat) : Nat := (mget 0 g'.tiles (tOff d + r * tRowb d + j)).toNat
        let word (f : Nat → Nat) (j : Nat) : Nat := f (4 * j) + 2 ^ 8 * f (4 * j + 1) + 2 ^ 16 * f (4 * j + 2) + 2 ^ 24 * f (4 * j + 3)
        let kept (reserved x : Nat) : Nat := if x = reserved then 0 else x
        (tFmt d = 3 → ∀ r j, r < tRows d → j < tRowb d → new r j = kept 8 (old r j % 16) + 16 * kept 8 (old r j / 16)) ∧
        (tFmt d = 4 → ∀ r j, r < tRows d → j < tRowb d / 4 → word (new r) j < 2 ^ 30 ∧
          ∀ i, i < 10 → word (new r) j / 8 ^ i % 8 = kept 4 (word (old r) j / 8 ^ i % 8)) ∧
        (g'.pal.getLsbD 14 = true ↔ g.pal.getLsbD 14 = true ∨ ∃ r j, r < tRows d ∧ j < tRowb d ∧ new r j ≠ old r j) ∧
        ∀ i, i ≠ 14 → g'.pal.getLsbD i = g.pal.getLsbD i) ∧
      (∀ a base stride, act = .tst a base stride →
        ∃ w', tget t.wgs (gWg g) = some w' ∧ ∀ x, padOf w' x =
          match (List.range (tRows a)).reverse.find? (fun r => decide (base + r * stride ≤ x) && decide (x < base + r * stride + tRowb a)) with
          | some r => mget 0 g.tiles (tOff a + r * tRowb a + (x - (base + r * stride)))
          | none => padOf w x) ∧
      (∀ d a b zero, act = .tmma d a b zero → plain d →
        TileFilled g g' d (fun m e =>
          let c0 := if zero then (0, false) else tileElem g d m e
          if tFmt d = 7 then
            let sum := ((List.range (tElems a)).map (fun k => sextI 8 (tileElem g a m k).1 * sextI 8 (tileElem g b e k).1)).foldl
              (fun x y => x + y) (sextI 32 c0.1)
            (((sum % 2 ^ 32).toNat,
              c0.2 || (List.range (tElems a)).any (fun k => (tileElem g a m k).2 || (tileElem g b e k).2)),
              if sum < -(2 ^ 31) ∨ 2 ^ 31 ≤ sum then 32 else 0)
          else mmaFloat g a b c0 m e)) ∧
      (∀ d a k c0, act = .tcomb d a k c0 → plain d →
        TileFilled g g' d (fun r e =>
          let sum := sextI (8 * fmtBytes 8) (tileElem g d r e).1 + sextI 32 (tileElem g a r (c0 + e)).1 * 2 ^ (112 - 7 * k)
          (((sum % 2 ^ 128).toNat, (tileElem g d r e).2 || (tileElem g a r (c0 + e)).2),
            if sum < -(2 ^ 127) ∨ 2 ^ 127 ≤ sum then 32 else 0))) ∧
      (∀ d a b, act = .tadd d a b → plain d → tFmt d ≠ 6 →
        TileFilled g g' d (fun r e =>
          let w := 8 * fmtBytes (tFmt d)
          let sum := sextI w (tileElem g a r e).1 + sextI w (tileElem g b r e).1
          (((sum % (2 ^ w : Nat)).toNat, (tileElem g a r e).2 || (tileElem g b r e).2),
            if sum < -(2 ^ (w - 1)) ∨ 2 ^ (w - 1) ≤ sum then 32 else 0))) ∧
      (∀ d a b, act = .tadd d a b → plain d → tFmt d = 6 →
        TileFilled g g' d (fun r e =>
          let v := addF f32 .rne false (decodeF f32 (tileElem g a r e).1) (decodeF f32 (tileElem g b r e).1)
          ((v.1, (tileElem g a r e).2 || (tileElem g b r e).2), tflagsOf v.2))) ∧
      (∀ a dst re ce stride, act = .tcvt a dst re ce stride →
        ∃ w', tget t.wgs (gWg g) = some w' ∧ ∀ x, padOf w' x =
          match (List.range (tRows a)).reverse.find? (fun r =>
            decide (dst + r * stride ≤ x) && decide (x < dst + r * stride + 8 * tElems a)) with
          | some r =>
            let e := (x - (dst + r * stride)) / 8
            let ex := sextI 32 (numOf (scratchRead s g (re + 4 * r) 4)) + sextI 32 (numOf (scratchRead s g (ce + 4 * e) 4))
            let v := sextI 128 (tileElem g a r e).1
            (bytesOf 8 (roundF f64 .rne false (decide (v < 0)) v.natAbs (max (-8000) (min 8000 (ex - 112)))).1).getD
              ((x - (dst + r * stride)) % 8) 0
          | none => padOf w x)

/-! ## The copy engine, the graph machine and the collective engine at issue -/

/-- R251: XSET sets a translation register and SD when its range lies in the lease: LIMIT is LENGTH where one page holds the range, and ends
with the run of contiguous pages where it does not; XINV clears VALID and leaves the rest; an operand out of range raises OPERAND with code 23.
R240, R266: a range that leaves the lease brings the recorded cause LEASE: the group is frozen as it stands, and its launch, if it was running or
still waited for its lease, halted and marked faulted. -/
def Obligations.TranslationRegisters : Prop :=
  (∀ f s c, Ready s (.xset f) c →
    let a := (sval c.g f.lit f.sa).toNat
    let n := (sval c.g f.lit f.sb).toNat
    let fits : Prop := (a < 2 ^ 56 ∨ 2 ^ 64 - 2 ^ 56 ≤ a) ∧ 1 ≤ n ∧ n ≤ 2 ^ 48
    let leased : Prop := ∀ b, a ≤ b → b < a + n → ∃ r ∈ c.l.ranges, r.base.toNat ≤ b ∧ b < r.base.toNat + r.len
    let sets (limit : Nat) : Prop := Retires (.xset f) s c (after (.xset f) c) (fun g' =>
      Counted { c.g with xregs := g'.xregs, sregs := g'.sregs } g' ∧
      xreg g' f.xr.toNat = ⟨true, sval c.g f.lit f.sa, n, limit⟩ ∧ (∀ m, m ≠ f.xr.toNat → xreg g' m = xreg c.g m) ∧
      sreg g' f.sd.toNat = BitVec.ofNat 64 limit ∧ ∀ m, m ≠ f.sd.toNat → sreg g' m = sreg c.g m)
    (fits → leased →
      (∃ limit, sets limit) ∧
      ∀ p, findLeaf c.l.leaves a = some p →
        (a + n ≤ p.va + p.size → sets n) ∧
        ((∀ q, findLeaf c.l.leaves (p.va + p.size) = some q → leafPa q (p.va + p.size) ≠ p.pa + p.size) →
          sets (min n (p.va + p.size - a)))) ∧
    (fits → ¬leased → ∃ t l', exec (.xset f) s = .next t ∧ t.cur = none ∧ tget t.groups c.k = some { c.g with status := .frozen } ∧
      (∀ j g, j ≠ c.k → tget s.groups j = some g →
        tget t.groups j = some (if g.launch = c.g.launch then { g with status := .frozen } else g)) ∧
      tget t.launches c.g.launch = some l' ∧ l'.faulted = true ∧
      (c.l.status = .running ∨ c.l.status = .granting → l'.status = .halted)) ∧
    (¬fits → Handled c → Traps (.xset f) s c 0x02 (operandTval (.xset f) 23) 0 c.g.pc)) ∧
  (∀ f s c, Ready s (.xinv f) c →
    Retires (.xinv f) s c (after (.xinv f) c) (fun g' =>
      Counted { c.g with xregs := g'.xregs } g' ∧ xreg g' f.xr.toNat = { xreg c.g f.xr.toNat with valid := false } ∧
        ∀ m, m ≠ f.xr.toNat → xreg g' m = xreg c.g m))

/-- R19, R23, R252, R253, R255 to R259: CPY, CPYX and CPYF check shape, footprint and record, and issue one operation with its operands
captured; an invalid translation register raises OPERAND with code 20, a bad length OPERAND with code 15. -/
def Obligations.CopiesIssue : Prop :=
  ∀ (f : CX) s c,
    let m := (f.md.extractLsb' 0 2).toNat
    let dir : Dir := if m = 0 then .inn else if m = 1 then .out else .onchip
    let ctr : Ctr := if m = 0 then .ld else .st
    let x := xreg c.g f.xr.toNat
    let named : XReg := if m = 0 ∨ m = 1 then x else XReg.invalid
    let sa := (sval c.g f.lit f.sa).toInt
    let sb := sval c.g f.lit f.sb
    let sc := sval c.g f.lit f.sc
    let inside (n : Nat) : Prop := 0 ≤ sa ∧ sa + n ≤ c.l.kern.scratch
    (Ready s (.cpy f) c → (m = 0 ∨ m = 1 → x.valid = true) →
      (f.md.getLsbD 2 = false → 1 ≤ sc.toNat → sc.toNat ≤ 2 ^ 20 → inside sc.toNat →
        IssuesCopy .cpy f s c ctr (.cpy dir named sa.toNat sb sc.toNat 1 0 0) [⟨sa.toNat, sa.toNat + sc.toNat, m = 0⟩]) ∧
      (f.md.getLsbD 2 = true →
        let rowb := (sc.extractLsb' 0 20).toNat
        let rows := (sc.extractLsb' 20 12).toNat
        let sstr := (sc.extractLsb' 32 20).toNat
        sc.extractLsb' 52 12 = 0 → 1 ≤ rowb → 1 ≤ rows → inside ((rows - 1) * sstr + rowb) →
        IssuesCopy .cpy f s c ctr (.cpy dir named sa.toNat sb rowb rows sstr (uniformVal c.g f.lit f.va.toNat 2).toInt)
          [⟨sa.toNat, sa.toNat + ((rows - 1) * sstr + rowb), m = 0⟩]) ∧
      (f.md.getLsbD 2 = false → (sc.toNat = 0 ∨ 2 ^ 20 < sc.toNat) → Handled c →
        Traps (.cpy f) s c 0x02 (operandTval (.cpy f) 15) 0 c.g.pc)) ∧
    (Ready s (.cpy f) c → (m = 0 ∨ m = 1) → x.valid = false → Handled c →
      Traps (.cpy f) s c 0x02 (operandTval (.cpy f) 20) 0 c.g.pc) ∧
    (Ready s (.cpyx f) c → (m = 0 ∨ m = 1 → x.valid = true) →
      let w := 2 ^ (f.md.extractLsb' 2 3).toNat
      inside (128 * w) →
      IssuesCopy .cpyx f s c ctr (.cpyx dir named w sa.toNat sb (activeIndexes s c f)) [⟨sa.toNat, sa.toNat + 128 * w, m = 0⟩]) ∧
    (Ready s (.cpyf f) c → 1 ≤ sc.toNat → sc.toNat ≤ 2 ^ 20 →
      (f.md.getLsbD 0 = true → x.valid = true → IssuesCopy .cpyf f s c .st (.cpyf (some x) (sval c.g f.lit f.sa) sb sc.toNat) []) ∧
      (f.md.getLsbD 0 = false → inside sc.toNat →
        IssuesCopy .cpyf f s c .ld (.cpyf none (sval c.g f.lit f.sa) sb sc.toNat) [⟨sa.toNat, sa.toNat + sc.toNat, true⟩]))

/-- R19, R252, R260, R265, R276 to R278: FAT, FRED, SKGET, SKPUT, SKREC, GSIG and GRUN issue one operation for the active lanes, or for the
graph, on the counter R19 gives; a sixteenth graph of the core is its last. That the graphs of DET launches take none of these sixteen places, and
wait for theirs at the commit, is the model's reading of R376 (log 100). -/
def Obligations.FarAndGraphOperationsIssue : Prop :=
  ∀ (f : CX) s c,
    let x := xreg c.g f.xr.toNat
    let sa := sval c.g f.lit f.sa
    let sb := sval c.g f.lit f.sb
    let aop := (f.md.extractLsb' 0 4).toNat
    let wide := f.md.getLsbD 4
    let signed := f.md.getLsbD 5
    let width := if wide then 64 else 32
    let ty := if aop = 9 then 6 else if aop = 10 then 7 else (if wide then 2 else 0) + (if signed then 0 else 1)
    let requests : List FarLane := (activeIndexes s c f).map (fun p =>
      ⟨p.1, sb.toNat + p.2, if aop = 11 then 0 else lane (srcLanes s c f.lit f.vb.toNat ty) p.1,
        if aop = 8 then lane (regLanes c.g (f.vb.toNat + width / 32) width) p.1
        else BitVec.ofNat 64 ((sval c.g f.lit f.sc).toNat % 2 ^ width)⟩)
    let cells (v : Nat → DWord) (token : Nat → Option DWord) : List SkLane :=
      (activeIndexes s c f).map (fun p => ⟨p.1, sb.toNat + p.2, v p.1, token p.1⟩)
    let plain := cells (fun _ => 0) (fun _ => none)
    x.valid = true →
    (Ready s (.fat f) c →
      IssuesCopy .fat f s c .ld (.far x aop wide signed sb (if f.vd.toNat < 384 then some f.vd.toNat else none) requests) []) ∧
    (Ready s (.fred f) c → IssuesCopy .fred f s c .st (.far x aop wide signed sb none requests) []) ∧
    (Ready s (.skget f) c →
      (sa.toNat % 8 = 0 → sa.toNat + 6144 ≤ c.l.kern.scratch → sa.toNat < 2 ^ 63 →
        IssuesCopy .skget f s c .ld (.skget x sa.toNat plain) [⟨sa.toNat, sa.toNat + 6144, true⟩]) ∧
      (sa.toNat % 8 ≠ 0 → Handled c → Traps (.skget f) s c 0x05 sa 0 c.g.pc)) ∧
    (Ready s (.skput f) c →
      IssuesCopy .skput f s c .st (.skput x (cells (lane (regLanes c.g f.vb.toNat 64)) (fun l =>
        if f.md.getLsbD 0 then none else some (lane (regLanes c.g (f.vb.toNat + 2) 64) l)))) []) ∧
    (Ready s (.skrec f) c → IssuesCopy .skrec f s c .st (.skrec x aop wide plain) []) ∧
    (Ready s (.gsig f) c →
      (sb.toNat < 65535 → IssuesCopy .gsig f s c .st (.gsig x sa.toNat sb.toNat) []) ∧
      (65535 ≤ sb.toNat → Handled c → Traps (.gsig f) s c 0x02 (operandTval (.gsig f) 14) 0 c.g.pc)) ∧
    (Ready s (.grun f) c → sa.toNat % 64 = 0 → 1 ≤ sb.toNat → sb.toNat ≤ 65535 →
      let running := (s.ops.filter (fun p =>
        p.2.core == c.w.core && runsGraph p.2 && !p.2.performed && !launchDet s p.2.launch)).length
      (c.l.kern.det = true ∨ running < 16 → IssuesCopy .grun f s c .st (.grun x sa.toNat sb.toNat (sval c.g f.lit f.sc).toNat) []) ∧
      (c.l.kern.det = false → 16 ≤ running → Stalls (.grun f) s c))

/-- R19, R315, R326, R328, R329, R334: RST, RSIG and CRUN issue one operation on coll; in a launch that is not DET its packet is sent, or its
table begins, at once, and in a DET launch at the commit; a table not at a multiple of 64 raises ALIGN, and a die's seventeenth waits. That a DET
launch's tables, which count too, wait for their places at the commit is the model's reading of R376 (log 100). -/
def Obligations.RemoteOperationsIssue : Prop :=
  ∀ (f : QX) s c,
    let x := xreg c.g f.xr.toNat
    let sa := sval c.g f.lit f.sa
    let sb := sval c.g f.lit f.sb
    let sc := sval c.g f.lit f.sc
    let reachable : Prop := sc.toNat ≤ 1023 ∧ (sc.toNat = s.info.pkgnum.toNat ∨ c.l.job ≠ 0) ∧ (f.md.getLsbD 1 = true → sb.toNat < 2 ^ 40)
    let heard : Prop := f.md.getLsbD 0 = true → sc.toNat = s.info.pkgnum.toNat → s.info.pkgnum.toNat * 4 + c.w.core / 48 ∉ s.coll.excluded
    let addressed (p : RemotePacket) : Prop :=
      p.dest = sc.toNat ∧ p.addr = sb ∧ p.ordered = f.md.getLsbD 0 ∧ p.ocpm = f.md.getLsbD 1 ∧ p.job = c.l.job ∧
        p.rel = f.ord.getLsbD 1 ∧ p.scope = f.scope
    let issues (i : Instr) (spans : List Span) (isAct : OpAct → Prop) (det : State → Prop) (now : State → Prop) : Prop :=
      ∃ t act, exec i s = .next t ∧ isAct act ∧ IssuedColl s t c i act (recordQ c f) spans ∧ t.launches = s.launches ∧
        (∀ n, n ≠ s.opNo → tget t.ops n = tget s.ops n) ∧ (if c.l.kern.det then det t else now t)
    (Ready s (.rst f) c → reachable → heard → 1 ≤ f.imm.toNat → f.imm.toNat ≤ 256 →
      sb.toNat / 256 = (sb.toNat + f.imm.toNat - 1) / 256 → sa.toNat < 2 ^ 63 → sa.toNat + f.imm.toNat ≤ c.l.kern.scratch →
      CollRoom s c f 1 →
      issues (.rst f) [⟨sa.toNat, sa.toNat + f.imm.toNat, false⟩]
        (fun act => ∃ p, act = .remote p sa.toNat f.imm.toNat ∧ addressed p)
        (fun t => t.coll = s.coll)
        (fun t => Sent t s.opNo (fun p => addressed p ∧ p.act = .store ((List.range f.imm.toNat).map (fun j =>
          (padOf c.w (sa.toNat + j), mget false c.w.spoison ((sa.toNat + j) / 8))))))) ∧
    (Ready s (.rsig f) c → reachable → heard → sb.toNat % 8 = 0 → CollRoom s c f 0 →
      issues (.rsig f) [] (fun act => ∃ p, act = .remote p 0 0 ∧ addressed p ∧ p.act = .add sa)
        (fun t => t.coll = s.coll)
        (fun t => Sent t s.opNo (fun p => addressed p ∧ p.act = .add sa))) ∧
    (Ready s (.rsig f) c → reachable → sb.toNat % 8 ≠ 0 → Handled c → Traps (.rsig f) s c 0x05 sb 0 c.g.pc) ∧
    (Ready s (.crun f) c → x.valid = true → 1 ≤ sb.toNat → sb.toNat ≤ 65535 → (x.vbase + sa).toNat % 64 ≠ 0 → Handled c →
      Traps (.crun f) s c 0x05 (x.vbase + sa) 0 c.g.pc) ∧
    (Ready s (.crun f) c → x.valid = true → 1 ≤ sb.toNat → sb.toNat ≤ 65535 → (x.vbase + sa).toNat % 64 = 0 →
      (c.l.kern.det = true ∨ tablesHeld s (c.w.core / 48) < 16 → CollRoom s c f 0 →
        issues (.crun f) [] (fun act => act = .crun x sa.toNat sb.toNat sc.toNat)
          (fun t => t.tables = s.tables)
          (fun t => (∃ r, tget t.tables s.opNo = some r ∧ r.owner = .op s.opNo ∧ r.base = x.vbase + sa ∧ r.count = sb.toNat ∧ r.cur = 0 ∧
            r.limit = sc.toNat ∧ r.start = s.pt ∧ r.started = false) ∧ ∀ n, n ≠ s.opNo → tget t.tables n = tget s.tables n)) ∧
      (c.l.kern.det = false → 16 ≤ tablesHeld s (c.w.core / 48) → Stalls (.crun f) s c))

/-- R233, R336: CBAR at PKG scope issues an arrival on coll; the arrival that reaches the number of resident launched groups of the launch
ends the phase and performs the operation of every arrival, an earlier one only joins it.
R330, R331: RWAIT retires with the word once it reaches SB or its time is over, in a DET launch with the word as the last commit left it, and
else parks the group, which watches the word's line; PTIME writes pod time, in a DET launch the number of completed quanta. R51, R53: an RWAIT whose
word lies on a DEV or SO page waits for the group's earlier operations on such pages, and on an SO page, or behind an operation on one, for all. -/
def Obligations.CollectiveAndRemoteWaits : Prop :=
  (∀ (f : QX) s c, Ready s (.cbar f) c → f.imm.toNat < c.l.kern.barriers → c.g.task = none →
      let n := f.imm.toNat
      let bar := getCBar c.l n
      let expected := (s.groups.filter (fun p => p.2.launch == c.g.launch && p.2.task.isNone && (tget s.wgs (gWg p.2)).isSome)).length
      (f.scope ≠ 6 → CollRoom s c f 0 →
        ∃ t, exec (.cbar f) s = .next t ∧ IssuedColl s t c (.cbar f) (.cbar false n 0 0) (recordQ c f) [] ∧
          (c.l.kern.det = true → t.launches = s.launches) ∧
          (c.l.kern.det = false → bar.waiting = [] → bar.arrivals = [] ∨ bar.pod = false →
            ∃ l', tget t.launches c.g.launch = some l' ∧
              (bar.arrivals.length + 1 < expected →
                (getCBar l' n).phase = bar.phase ∧
                (getCBar l' n).arrivals = bar.arrivals ++ [(c.g.wg, c.g.gidx, s.opNo)]) ∧
              (expected ≤ bar.arrivals.length + 1 →
                (getCBar l' n).phase = bar.phase + 1 ∧ (getCBar l' n).arrivals = [] ∧
                ∀ m o, m = s.opNo ∨ (∃ a ∈ bar.arrivals, a.2.2 = m) → tget t.ops m = some o → o.performed = true))) ∧
      (f.scope = 6 → CollRoom s c f 0 → 1 ≤ (sval c.g f.lit f.sb).toNat → (sval c.g f.lit f.sb).toNat ≤ 1024 →
        ((sval c.g f.lit f.sb).toNat = 1 ∨ c.l.job ≠ 0) → (sval c.g f.lit f.sc).toNat ≤ 1023 →
        ∃ t, exec (.cbar f) s = .next t ∧
          IssuedColl s t c (.cbar f) (.cbar true n (sval c.g f.lit f.sb).toNat (sval c.g f.lit f.sc).toNat) (recordQ c f) [])) ∧
  ((∀ f s c pa, Ready s (.rwait f) c →
      let x := xreg c.g f.xr.toNat
      let sa := sval c.g f.lit f.sa
      let va := (x.vbase + sa).toNat
      let seen := if c.l.kern.det then c.l.shown.getD (s.mem, s.mpoison) else (s.mem, s.mpoison)
      let word := numAt (mget 0 seen.1) pa 8
      let since := c.g.since.getD s.pt
      let late : Prop := f.imm ≠ 0 ∧ since.toNat + f.imm.toNat * Config.ticksPerUs ≤ s.pt.toNat
      let reached : Prop := x.valid = true ∧ sa.toNat % 8 = 0 ∧ sa.toNat + 8 ≤ x.length ∧ firstBad s (.window c.l x) va 8 false = none ∧
        spacePa s (.window c.l x) va false = some (pa, false)
      let type := memType s c.g.launch va
      let held : Prop := ∃ a ∈ s.ops, a.2.launch = c.g.launch ∧ a.2.wg = c.g.wg ∧ a.2.gidx = c.g.gidx ∧ a.2.lost = false ∧
        (∀ act pal ten wr rd, a.2.act ≠ .tile act pal ten wr rd) ∧ (∀ pod n e r, a.2.act ≠ .cbar pod n e r) ∧
        (c.l.kern.det = true ∨ a.2.performed = false) ∧
        ((2 ≤ type ∧ onDev s a.2 = true) ∨ onSo s a.2 = true ∨ type = 3)
      let readable : Prop := reached ∧ ¬held ∧ poisonIn seen.2 pa 8 = false
      (reached → held →
        if c.l.kern.det then ParksIn (.rwait f) s s c { c.g with since := some since } .commit else Stalls (.rwait f) s c) ∧
      (readable → (sval c.g f.lit f.sb).toNat ≤ word ∨ late →
        WritesScalar (.rwait f) s c f.sd.toNat (BitVec.ofNat 64 word) c.g.scc) ∧
      (readable → ¬((sval c.g f.lit f.sb).toNat ≤ word ∨ late) →
        ParksIn (.rwait f) s { s with lines := ⟨c.k, pa / 128, false⟩ :: s.lines.filter (fun x => x.group != c.k) } c
          { c.g with since := some since } .rwait) ∧
      (Handled c → x.valid = false → Traps (.rwait f) s c 0x02 (operandTval (.rwait f) 20) 0 c.g.pc) ∧
      (Handled c → x.valid = true → sa.toNat % 8 ≠ 0 → Traps (.rwait f) s c 0x05 sa 0 c.g.pc)) ∧
    (∀ f s c, Ready s (.ptime f) c →
      WritesScalar (.ptime f) s c f.sd.toNat (if c.l.kern.det then BitVec.ofNat 64 c.l.quantum else s.pt) c.g.scc))

/-- R77, R350, R353: SUBMIT answers 2 where it is denied and 1 where the write index is stale, and else writes WRIDX and answers 0; the answer
goes to rd, and the hart's PC advances by 4. The hart's registers, an x0 that reads zero and discards writes, and its PC are the model's (log 5); that
a package which has stopped, or whose boot has failed, answers 2 is its choice (log 24). -/
def Obligations.SubmitAnswers : Prop :=
  ∀ (f : RT) s h, s.cur = some (.hart h) → h < 16 →
    let x := getHart s h
    let a := if f.rs1 = 0 then 0 else mget 0 x.regs f.rs1.toNat
    let b := if f.rs2 = 0 then 0 else mget 0 x.regs f.rs2.toNat
    let q := a.toNat % 2 ^ 10
    let d := qDesc (lookQueue s q) q
    let y := getQ (lookQueue s q) q
    let w : Word := b.setWidth 32
    let denied : Prop := 2 ^ 10 ≤ a.toNat ∨ 2 ^ 32 ≤ b.toNat ∨ d.active = false ∨ d.submit = false ∨ d.asid ≠ x.asid
    let stale : Prop := 2 ^ d.logsize < (w - y.rdidx).toNat ∨ 2 ^ d.logsize < (w - y.wridx).toNat
    let answers (r : Nat) (t : State) : Prop :=
      exec (.submit f) s = .next t ∧ t.cur = none ∧ (getHart t h).pc = x.pc + 4 ∧ (∀ k, k ≠ h → getHart t k = getHart s k) ∧
        ∀ n : BitVec 5, mget 0 (getHart t h).regs n.toNat = if n = f.rd ∧ n ≠ 0 then BitVec.ofNat 64 r else mget 0 x.regs n.toNat
    (feStopped s = true → ∃ t, answers 2 t ∧ t.fe = s.fe) ∧
    (feStopped s = false → denied → ∃ t, answers 2 t ∧ t.fe = (lookQueue s q).fe) ∧
    (feStopped s = false → ¬denied → stale → ∃ t, answers 1 t ∧ t.fe = (lookQueue s q).fe) ∧
    (feStopped s = false → ¬denied → ¬stale → ∃ t, answers 0 t ∧ getQ t q = { y with wridx := w } ∧ ∀ k, k ≠ q → getQ t k = getQ (lookQueue s q) k)

/-! ## Events of groups and of operations -/

/-- R241, R246, R230, R330: once a group with a logged access has issued nothing for 64 clocks, the timeout of the operand log takes the TAPE trap
of entry 0 with the resume address kept, and none sooner; a partition picks at most twice per clock and no group twice, of its ready groups the one
that has waited longest of those that waited 64 selection cycles, else the one of least urgency, the lowest slot on a tie; a recheck lets a WAITW
or RWAIT run again when a write to what it watches was performed, or its time has passed, outside DET launches. -/
def Obligations.GroupEvents : Prop :=
  (∀ s k g w l e es, Resident s k g w l → g.handler = false → g.log.entries = e :: es → g.status ≠ .frozen → s.cur ≠ some (.group k) →
    l.kern.handler ≠ 0 → g.status ≠ .parked .commit →
    (g.lastIssue.toNat + 64 ≤ (getCore s (coreOf k)).clk.toNat →
      exec (.operandLogTimeout k) s = .next { putGroup s k { g with
        status := .run, handler := true, pc := l.kern.handler, since := none, log := { g.log with resume := g.pc, independent := 0 },
        sp := { g.sp with tpc := e.pc, tcause := BitVec.ofNat 8 (6 + (if g.scc then 128 else 0)), tval := g.log.tval,
                          texec := execMask g, tlane := g.log.tlane } } with cur := none }) ∧
    ((getCore s (coreOf k)).clk.toNat < g.lastIssue.toNat + 64 → exec (.operandLogTimeout k) s = .next s)) ∧
  (∀ s core part, s.cur = none →
    let picked := (getCore s core).picked
    let open' (j : Nat) (h : Group) : Prop := (j, h) ∈ readyGroups s core part ∧ (part, j) ∉ picked
    let full : Prop := 2 ≤ (picked.filter (fun x => x.1 == part)).length
    ((full ∨ ∀ j h, ¬open' j h) → exec (.partitionIssueSelect core part) s = .next s) ∧
    (¬full → (∃ j h, open' j h) →
    ∃ t k g, exec (.partitionIssueSelect core part) s = .next t ∧
      t = { s with groups := t.groups, cores := t.cores, cur := some (.group k) } ∧ open' k g ∧
      getCore t core = { getCore s core with picked := (part, k) :: picked } ∧ (∀ n, n ≠ core → getCore t n = getCore s n) ∧
      (∀ j h, open' j h →
        (64 ≤ h.waited → 64 ≤ g.waited ∧ h.waited ≤ g.waited ∧ (h.waited = g.waited → k ≤ j)) ∧
        (g.waited < 64 → h.waited < 64 ∧ g.urg ≤ h.urg ∧ (h.urg = g.urg → k ≤ j))) ∧
      ∀ j h, tget s.groups j = some h → ∃ h', tget t.groups j = some h' ∧
        h' = { h with status := h'.status, waited := h'.waited, hold := h'.hold })) ∧
  (∀ s k g w l, Resident s k g w l → g.status = .parked .waitw →
    let due : Prop := l.kern.det = false ∧
      (g.parkClk.toNat + 1024 ≤ (getCore s (coreOf k)).clk.toNat ∨ ∃ x ∈ w.watch, x.gidx = g.gidx ∧ x.hit = true)
    (due → exec (.waitwRecheck k) s = .next (putGroup s k { g with status := .run })) ∧
    (¬due → exec (.waitwRecheck k) s = .next s)) ∧
  (∀ s k g w l, Resident s k g w l → g.status = .parked .rwait →
    let due : Prop := l.kern.det = false ∧
      (g.parkPt.toNat + 4 * Config.ticksPerUs ≤ s.pt.toNat ∨ ∃ x ∈ s.lines, x.group = k ∧ x.hit = true)
    (due → exec (.rwaitRecheck k) s = .next (putGroup s k { g with status := .run })) ∧
    (¬due → exec (.rwaitRecheck k) s = .next s))

/-- R209, R210, R216 to R218, R220, R221, R379: at each count of the core's clock since the last one a timed tick reaches every group of the core
for which it is due: those of timed launches whose H divides the count, not frozen and on the core before it, by workgroup slot, which is the lowest
core slot the workgroup was given (the model's reading, log 93), then group index. A logical tick reaches its group once for each RIC that brings it.
A frame is promoted exactly when its owner is in user mode, it is not promoted yet, passes its checks, is not too deep, no write-locked tape entry
over its bytes stops its owner, and a slot of its locality is free. Which workgroups offer theirs in a DET launch, whose entries stop a promotion
there, and which frame a DET tick makes a candidate are the model's readings (logs 83, 84, 28), as is that a group born at a tick takes none (log
106); the promotion starts the frame's task in the slot, marks the frame PROM, and adds one to its join word. -/
def Obligations.HeartbeatTicks : Prop :=
  (∀ s core, ∃ t, exec (.timedHeartbeatTick core) s = .next t ∧
    TicksCounted ((getCore s core).clk.toNat - (getCore s core).ticked.toNat) core s t) ∧
  (∀ s core clk,
    let place (g : Group) : Int := match tget s.wgs (gWg g) with
      | some w => w.slot0 * 64 + g.gidx
      | none => g.gidx
    ∃ due : List (Nat × Group), timedDue s core clk = due.map (fun p => p.1) ∧ due.Pairwise (fun a b => place a.2 ≤ place b.2) ∧
      ∀ p, due.count p = if coreOf p.1 = core ∧ p.2.status ≠ .frozen ∧ p.2.born.toNat < clk ∧
          (∃ l, tget s.launches p.2.launch = some l ∧ l.kern.logical = false ∧ clk % l.kern.hbperiod = 0)
        then s.groups.count p else 0) ∧
  (∀ s k g w l off, Resident s k g w l →
    let f := readFrame s g off
    let offers (v : Workgroup) (own : Bool) : Prop := v.status = .resident ∨
      (∃ since fixed, v.status = .draining since fixed ∧ (own = true ∨ l.kern.det = true)) ∨ (l.kern.det = true ∧ v.status ≠ .ended)
    let free (v : Workgroup) : Prop := ∃ x ∈ spareSlots v l.kern.spare, tget s.groups (v.core * 64 + x.1) = none
    ((promote s k off).isSome = true ↔ g.handler = false ∧ f.prom = false ∧ f.depth ≤ l.kern.maxdepth ∧ f.sound = true ∧ f.argc ≤ 6 ∧
      f.entryOff % 4 = 0 ∧ f.entryOff < l.kern.codesize ∧ f.joinOff % 8 = 0 ∧ f.joinOff + 8 ≤ l.kern.scratch ∧ f.resOff % 8 = 0 ∧
      f.resOff + 8 ≤ l.kern.scratch ∧
      (∀ e ∈ (getCore s w.core).tape, e.write = true → e.lo < e.hi → e.own = none ∨ e.own = some k →
        w.sbase + off + 64 ≤ e.lo ∨ e.hi ≤ w.sbase + off) ∧
      ((offers w true ∧ free w) ∨ (f.glob = true ∧ ∃ v ∈ s.wgs, v.1 ≠ gWg g ∧ v.2.launch = w.launch ∧ v.2.lcore < 192 ∧
        offers v.2 false ∧ free v.2)))) ∧
  (∀ s k g w l, Resident s k g w l → l.kern.logical = true → g.status ≠ .frozen →
    (g.tickDue = true → ∃ t, exec (.logicalHeartbeatTick k) s = .next t ∧ Ticked (putGroup s k { g with tickDue := false }) k t) ∧
    (g.tickDue = false → exec (.logicalHeartbeatTick k) s = .next s)) ∧
  (∀ s k g w l off t, Resident s k g w l → g.detBuf = [] → w.shown = none → promote s k off = some t →
    let f := readFrame s g off
    g.handler = false ∧ f.prom = false ∧ f.depth ≤ l.kern.maxdepth ∧
    (let pad := storedAt f.joinOff (bytesOf 8 (numAt (padOf w) f.joinOff 8 + 1)) (padOf w)
     PadIs t (gWg g) (storedAt off (bytesOf 8 (numAt pad off 8 ||| 2 ^ 34)) pad)) ∧
    ∃ j task, j ≠ k ∧ tget s.groups j = none ∧ tget t.groups j = some task ∧
      tget t.groups k = some { g with promo := tput g.promo off (task.wg, task.gidx) } ∧
      (∀ i, i ≠ j → i ≠ k → tget t.groups i = tget s.groups i) ∧
      task.pc = l.kern.entry + BitVec.ofNat 64 f.entryOff ∧ (∀ i, i < 6 → sreg task i = f.args.getD i 0) ∧
      execMask task = BitVec.allOnes 128 ∧ task.sp.tdepth = BitVec.ofNat 8 f.depth ∧ task.task = some ⟨g.wg, off, f.glob⟩ ∧
      task.launch = g.launch ∧ task.status = .run)

/-- R19, R20, R23, R53, R223, R228, R254, R257 to R259, R261: when a copy is performed its destination holds the bytes of its source, the last row
or the lane's element, and a fill its pattern; a far atomic whose cells are all performed delivers the old values of its lanes to VD; a task's end
stores its result, marks its frame DONE and takes one from the join word. Each leaves its counter and its tape entries. -/
def Obligations.CopyOperationsComplete : Prop :=
  ∀ s n o,
    (∀ k g w l x sa sb rowb rows sstr gstr (pa : Nat → Nat), Performs s n o k g w l .ld → o.act = .cpy .inn x sa sb rowb rows sstr gstr →
      (∀ r j, r < rows → j < rowb → xPa l x ((sb.toNat : Int) + (r : Int) * gstr + j) false = some (pa r + j, false)) →
      ∃ t, exec (.copyOpComplete n) s = .next t ∧ Completed s t n o k g .ld ∧ t.mem = s.mem ∧
        PadIs t (gWg g) (fun a => match lastRow rows sa sstr rowb a with
          | some r => memByte s (pa r + (a - (sa + r * sstr)))
          | none => padOf w a)) ∧
    (∀ k g w l x sa sb rowb rows sstr gstr (pa : Nat → Nat), Performs s n o k g w l .st → o.act = .cpy .out x sa sb rowb rows sstr gstr →
      (∀ r j, r < rows → j < rowb → xPa l x ((sb.toNat : Int) + (r : Int) * gstr + j) true = some (pa r + j, false)) →
      (∀ r q, r < rows → q < rows → r ≠ q → pa r + rowb ≤ pa q ∨ pa q + rowb ≤ pa r) →
      ∃ t, exec (.copyOpComplete n) s = .next t ∧ Completed s t n o k g .st ∧
        (∀ r j, r < rows → j < rowb → memByte t (pa r + j) = padOf w (sa + r * sstr + j)) ∧
        (∀ b, (∀ r, r < rows → b < pa r ∨ pa r + rowb ≤ b) → memByte t b = memByte s b)) ∧
    (∀ k g w l x e sa sb idx (pa : Nat → Nat), Performs s n o k g w l .ld → o.act = .cpyx .inn x e sa sb idx → (idx.map (fun p => p.1)).Nodup →
      (∀ lane i j, (lane, i) ∈ idx → j < e → xPa l x ((sb.toNat : Int) + (i * e : Nat) + j) false = some (pa lane + j, false)) →
      ∃ t, exec (.copyOpComplete n) s = .next t ∧ Completed s t n o k g .ld ∧ t.mem = s.mem ∧
        ∃ w', tget t.wgs (gWg g) = some w' ∧
          (∀ lane i j, (lane, i) ∈ idx → j < e → padOf w' (sa + lane * e + j) = memByte s (pa lane + j)) ∧
          ∀ a, (∀ lane i, (lane, i) ∈ idx → a < sa + lane * e ∨ sa + lane * e + e ≤ a) → padOf w' a = padOf w a) ∧
    (∀ k g w l sa pattern len, Performs s n o k g w l .ld → o.act = .cpyf none sa pattern len →
      ∃ t, exec (.copyOpComplete n) s = .next t ∧ Completed s t n o k g .ld ∧ t.mem = s.mem ∧
        PadIs t (gWg g) (fun a => if sa.toNat ≤ a ∧ a < sa.toNat + len then (bytesOf 8 pattern.toNat).getD (a % 8) 0 else padOf w a)) ∧
    (∀ k g w l x aop wide signed sb vd lanes, Performs s n o k g w l .ld → o.act = .far x aop wide signed sb (some vd) lanes →
      (∀ e ∈ lanes, e.off ∈ o.cells) → (o.vals.map (fun p => p.1)).Nodup → (vreg g vd).length = 128 → (vreg g (vd + 1)).length = 128 →
      (∀ p ∈ o.vals, p.1 < 128) →
      ∃ t g', exec (.copyOpComplete n) s = .next t ∧ Completed s t n o k g .ld ∧ t.mem = s.mem ∧ tget t.groups k = some g' ∧
        (∀ lane v, (lane, v) ∈ o.vals → vlane g' vd lane = v.setWidth 32 ∧
          (wide = true → vlane g' (vd + 1) lane = v.extractLsb' 32 32)) ∧
        (∀ lane, (∀ v, (lane, v) ∉ o.vals) → vlane g' vd lane = vlane g vd lane) ∧
        ∀ r, r ≠ vd → (wide = true → r ≠ vd + 1) → vreg g' r = vreg g r) ∧
    (∀ l link result w, tget s.ops n = some o → mayPerform s n o = true → o.act = .taskend link result → o.record = none → o.quantum = none →
      o.ctr = none → o.seen.testBit 4 = false → tget s.launches o.launch = some l → tget s.wgs (wgKey o.launch link.wg) = some w →
      w.status = .resident →
      let res := numAt (padOf w) (link.frame + 8) 8 / 2 ^ 20 % 2 ^ 20
      let join := numAt (padOf w) (link.frame + 8) 8 % 2 ^ 20
      (∀ off j, off = link.frame ∨ off = join ∨ (off = res ∧ result.isSome = true) → j < 8 →
        ocpmByte s o.launch (ocpmScratch w off + j) = some (.scratch (wgKey o.launch link.wg) (off + j))) →
      let m1 := match result with
        | some v => storedAt res (bytesOf 8 v.toNat) (padOf w)
        | none => padOf w
      let m2 := storedAt link.frame (bytesOf 8 (numAt m1 link.frame 8 ||| 2 ^ 35)) m1
      ∃ t, exec (.copyOpComplete n) s = .next t ∧ tget t.ops n = none ∧ t.mem = s.mem ∧
        PadIs t (wgKey o.launch link.wg) (storedAt join (bytesOf 8 (numAt m2 join 8 + (2 ^ 64 - 1))) m2))

/-- R163, R261, R262: at its home a far atomic applies its lanes in ascending order in one read-modify-write, and the home keeps their old
values as its reply, on DEV and SO pages in ascending order of address; a poisoned cell is left; a request is sent once fewer than 64 of the core
are unacknowledged at the home; 8 µs after that without a reply it is sent again, and after 8 resends its lanes fail. That one whose reply is under
way makes room for the next is the model's reading (log 86). -/
def Obligations.FarAtomicsAtHome : Prop :=
  ∀ s n o l x aop wide signed sb vd lanes (cell : Nat), tget s.ops n = some o → tget s.launches o.launch = some l →
    o.act = .far x aop wide signed sb vd lanes → mayPerform s n o = true →
    let w := if wide then 8 else 4
    let here := lanes.filter (fun e => e.off == cell)
    let dev (off : Nat) : Prop := devAt s o.launch (xVa x off).toNat = true
    let inOrder : Prop := dev cell → ∀ e ∈ lanes, e.off < cell → dev e.off → e.off ∈ o.cells
    (here ≠ [] → ¬inOrder → exec (.farAtomicAtHome n cell) s = .next s) ∧
    (∀ pa, here ≠ [] → inOrder → known s n cell o = false → MaySend s o.core (homeOf l x cell) n cell → cellAt l x cell w false true true = .ok pa →
      (poisonIn s.mpoison pa w = false →
        ∃ t o' xs, exec (.farAtomicAtHome n cell) s = .next t ∧ Chain aop (8 * w) signed here xs (memNat s pa w) ∧
          (∀ last, xs.getLast? = some last → memNat t pa w = last % 2 ^ (8 * w)) ∧
          (∀ b, b < pa ∨ pa + w ≤ b → memByte t b = memByte s b) ∧
          tget t.ops n = some o' ∧ o'.cells = o.cells ++ [cell] ∧
          o'.vals = o.vals ++ (here.zip xs).map (fun p => (p.1.lane, BitVec.ofNat 64 p.2)) ∧
          ∃ r ∈ t.reqs, r.op = n ∧ r.cell = cell ∧ r.reply = some (1, (here.zip xs).map (fun p => (p.1.lane, BitVec.ofNat 64 p.2)))) ∧
      (poisonIn s.mpoison pa w = true →
        ∃ t o', exec (.farAtomicAtHome n cell) s = .next t ∧ t.mem = s.mem ∧ tget t.ops n = some o' ∧
          tget o'.cellSeen cell = some 2 ∧ o'.vals = o.vals ∧ o'.cells = o.cells ++ [cell])) ∧
    (here ≠ [] → reqFor s n cell = none → cell ∉ o.cells → MaySend s o.core (homeOf l x cell) n cell →
      ∃ t r, exec (.farAtomicResend n cell) s = .next t ∧ t.mem = s.mem ∧ t.ops = s.ops ∧ reqFor t n cell = some r ∧ r.core = o.core ∧
        r.home = homeOf l x cell ∧ r.sent = s.pt ∧ r.resends = 0 ∧ r.reply = none) ∧
    (∀ r, here ≠ [] → reqFor s n cell = some r → r.sent.toNat + 32000 * (r.resends + 1) ≤ s.pt.toNat →
      (r.resends < 8 →
        exec (.farAtomicResend n cell) s = .next { s with
          reqs := s.reqs.map (fun q => if q.op = n ∧ q.cell = cell then { q with resends := q.resends + 1 } else q) }) ∧
      (8 ≤ r.resends →
        ∃ t o', exec (.farAtomicResend n cell) s = .next t ∧ t.mem = s.mem ∧ tget t.ops n = some o' ∧ o'.seen.testBit 4 = true ∧
          tget o'.cellSeen cell = none ∧ cell ∈ o'.cells ∧ ∀ e ∈ here, ∀ v, (e.lane, v) ∉ o'.vals))

/-- R273, R277, R278, R279: at the home SKGET copies the record of a cell, SKPUT adds a sibling in place of those its token supersedes or meets
OVERFLOW where four would be exceeded, and SKREC leaves one sibling, the fold of all, unless one alone stands or one is poisoned; that a poisoned
one gives POISON where it stands alone too is the model's reading of R408 (log 111). -/
def Obligations.SiblingCellsAtHome : Prop :=
  ∀ s n o l pa, tget s.ops n = some o → tget s.launches o.launch = some l → mayPerform s n o = true →
    let k := readCell s (pa / 8)
    let older (t : Option DWord) (y : Sibling) : Prop := ∃ v, t = some v ∧
      (v.extractLsb' 48 16 = k.g ∨ v.extractLsb' 48 16 = k.g - 1) ∧
      ((y.g = v.extractLsb' 48 16 ∧ y.s.toNat ≤ (v.extractLsb' 24 24).toNat) ∨
       (y.g = v.extractLsb' 48 16 - 1 ∧ y.s.toNat ≤ (v.extractLsb' 0 24).toNat))
    (∀ x sa lanes cell w, o.act = .skget x sa lanes → cellAt l x cell 8 true true false = .ok pa → cell ∉ o.cells →
      opScratch s o = some w → w.status = .resident → MaySend s o.core (homeOf l x cell) n cell →
      lanes.filter (fun e => e.off == cell) ≠ [] → k.sibs.length ≤ 4 → (lanes.map (fun e => e.lane)).Nodup →
      ∃ t w' o', exec (.skGetAtHome n cell) s = .next t ∧ t.mem = s.mem ∧ t.sk = s.sk ∧ tget t.ops n = some o' ∧
        o'.cells = o.cells ++ [cell] ∧ tget t.wgs (wgKey o.launch o.wg) = some w' ∧
        (∀ e ∈ lanes, e.off = cell →
          numAt (padOf w') (sa + 48 * e.lane) 4 = k.sibs.length ∧
          numAt (padOf w') (sa + 48 * e.lane + 8) 8 = k.g.toNat * 2 ^ 48 + k.ctr.toNat * 2 ^ 24 + k.pmax.toNat ∧
          ∀ i, i < 4 → numAt (padOf w') (sa + 48 * e.lane + 16 + 8 * i) 8 = match k.sibs[i]? with
            | some y => y.v.toNat
            | none => 0) ∧
        ∀ a, (∀ e ∈ lanes, e.off = cell → a < sa + 48 * e.lane ∨ sa + 48 * e.lane + 48 ≤ a) → padOf w' a = padOf w a) ∧
    (∀ x lanes e kept, o.act = .skput x lanes → lanes.find? (fun y => y.lane == e.lane) = some e →
      (∀ y ∈ lanes, y.lane < e.lane → y.lane ∈ o.cells) → known s n e.lane o = false →
      cellAt l x e.off 8 true false true = .ok pa → MaySend s o.core (homeOf l x e.off) n e.lane → k.ctr ≠ BitVec.allOnes 24 →
      (∀ y ∈ k.sibs, kept y = true ↔ ¬older e.token y) →
      let keep := k.sibs.filter kept
      ∃ t o', exec (.skPutAtHome n e.lane) s = .next t ∧ tget t.ops n = some o' ∧ o'.cells = o.cells ++ [e.lane] ∧
        (keep.length < 4 → readCell t (pa / 8) =
          { k with ctr := k.ctr + 1, sibs := keep ++ [⟨e.v, k.g, k.ctr + 1, false⟩] }) ∧
        (4 ≤ keep.length → t.mem = s.mem ∧ t.sk = s.sk ∧ tget o'.cellSeen e.lane = some 8)) ∧
    (∀ x f signed lanes cell, o.act = .skrec x f signed lanes → lanes.filter (fun e => e.off == cell) ≠ [] → known s n cell o = false →
      cellAt l x cell 8 true false true = .ok pa → MaySend s o.core (homeOf l x cell) n cell → k.ctr ≠ BitVec.allOnes 24 →
      ∃ t o', exec (.skReconcileAtHome n cell) s = .next t ∧ tget t.ops n = some o' ∧ o'.cells = o.cells ++ [cell] ∧
        (k.sibs.length ≤ 1 ∨ (∃ y ∈ k.sibs, y.poison = true) → readCell t (pa / 8) = k) ∧
        ((∃ y ∈ k.sibs, y.poison = true) → tget o'.cellSeen cell = some 2) ∧
        (2 ≤ k.sibs.length → (∀ y ∈ k.sibs, y.poison = false) →
          ∃ v, readCell t (pa / 8) = { k with ctr := k.ctr + 1, sibs := [⟨v, k.g, k.ctr + 1, false⟩] } ∧
            (f = 0 → v.toNat = (k.sibs.map (fun y => y.v.toNat)).foldl (fun a b => (a + b) % 2 ^ 64) 0) ∧
            (f = 6 → k.sibs.head?.map (fun y => y.v) = some v) ∧ (f = 7 → k.sibs.getLast?.map (fun y => y.v) = some v) ∧
            (f = 1 → signed = false → (∃ y ∈ k.sibs, y.v = v) ∧ ∀ y ∈ k.sibs, v.toNat ≤ y.v.toNat) ∧
            (f = 2 → signed = false → (∃ y ∈ k.sibs, y.v = v) ∧ ∀ y ∈ k.sibs, y.v.toNat ≤ v.toNat) ∧
            (f = 1 → signed = true → (∃ y ∈ k.sibs, y.v = v) ∧ ∀ y ∈ k.sibs, v.toInt ≤ y.v.toInt) ∧
            (f = 2 → signed = true → (∃ y ∈ k.sibs, y.v = v) ∧ ∀ y ∈ k.sibs, y.v.toInt ≤ v.toInt) ∧
            (3 ≤ f → f ≤ 5 → ∀ j, j < 64 → v.getLsbD j =
              if f = 3 then k.sibs.all (fun y => y.v.getLsbD j)
              else if f = 4 then k.sibs.any (fun y => y.v.getLsbD j)
              else ((k.sibs.filter (fun y => y.v.getLsbD j)).length % 2 == 1))))

/-! ## Graphs, step tables and remote packets -/

/-- R263 to R265: the node whose turn it is starts, NSTATE saying so; a NONE or SIGNAL node without successors finishes with its action done and
NSTATE 0x80; a decrement takes one from PRED and starts the node it brings to 0, or meets OVERFLOW at 0; a LAUNCH node whose queue has room again
is acted; a graph past its time limit is told of TIMEOUT and starts no further node. R405: on a package that has stopped a queue's graph takes no
step. -/
def Obligations.GraphEvents : Prop :=
  (∀ s n gr j rest sp pay pa, tget s.graphs n = some gr → gr.begun = true → gr.ready = j :: rest → graphHalted s gr = false →
    graphStopped s gr = false → graphSpaces s gr = some (sp, pay) → MapsTo s sp (gr.base.toNat + 64 * j) 64 pa → poisonIn s.mpoison pa 64 = false →
    nodeSound (bytesAt s pa 64) gr.nodes = true → (memByte s pa = 0 ∨ memByte s pa = 1 ∨ memByte s pa = 3) →
    ∃ t, exec (.graphNodeStart n j) s = .next t ∧
      tget t.graphs n = some { gr with ready := rest, running := tput gr.running j (NodeRun.fresh (bytesAt s pa 64) true) } ∧
      memByte t (pa + 3) = 0x40 ∧ OnlyAt s t (pa + 3) 1) ∧
  (∀ s n gr j r sp pay pa q, tget s.graphs n = some gr → graphHalted s gr = false → graphStopped s gr = false → gr.seen.testBit 4 = false → gr.doneCount + 1 ≠ gr.nodes →
    graphSpaces s gr = some (sp, pay) → tget gr.running j = some r → r = NodeRun.fresh r.bytes true → nSucc r.bytes = [] →
    MapsTo s sp (gr.base.toNat + 64 * j) 64 pa →
    (nKind r.bytes = 0 ∨ (nKind r.bytes = 3 ∧ MapsTo s pay (fld r.bytes 24 8) 8 q ∧ poisonIn s.mpoison q 8 = false ∧ (q + 8 ≤ pa ∨ pa + 64 ≤ q) ∧
      ∀ a, sp ≠ .asid a)) →
    ∃ t, exec (.graphNodeFinish n j) s = .next t ∧
      tget t.graphs n = some { gr with running := tdel gr.running j, doneCount := gr.doneCount + 1, seen := gr.seen ||| 1 } ∧
      memByte t (pa + 3) = 0x80 ∧
      (nKind r.bytes = 0 → OnlyAt s t (pa + 3) 1) ∧
      (nKind r.bytes = 3 → memNat t q 8 = (memNat s q 8 + fld r.bytes 32 8) % 2 ^ 64)) ∧
  (∀ s sp base j pa, MapsTo s sp ((base + 64 * j + 4) % 2 ^ 64) 4 pa → poisonIn s.mpoison pa 4 = false →
    let m := releaseNode s sp base j
    let pred := memNat s pa 4
    memNat m.1 pa 4 = pred - 1 ∧ OnlyAt s m.1 pa 4 ∧ m.2.seen = (if pred = 0 then 8 else 1) ∧
    ∀ n gr, tget s.graphs n = some gr →
      let here (i : Nat) : Prop := ∃ own pay sk, graphSpaces m.1 gr = some (own, pay) ∧
        spacePa m.1 own ((gr.base.toNat + 64 * i + 4) % 2 ^ 64) false = some (pa, sk)
      (pred = 1 → gr.begun = true → gr.closed = false →
        (∀ i, i < gr.nodes → here i → (∀ k, k < i → ¬here k) → tget m.1.graphs n = some { gr with ready := gr.ready ++ [i] }) ∧
        ((∀ i, i < gr.nodes → ¬here i) → tget m.1.graphs n = some gr)) ∧
      (pred ≠ 1 ∨ gr.begun = false ∨ gr.closed = true → tget m.1.graphs n = some gr)) ∧
  (∀ s n gr j r sp pay m ds seen, tget s.graphs n = some gr → graphSpaces s gr = some (sp, pay) → tget gr.running j = some r → nKind r.bytes = 2 →
    r.acted = false → graphStopped s gr = false → spRead s pay (fld r.bytes 24 8) 64 = .ok (ds, seen) → (∀ d ∈ ds, d.2 = false) → ds.head? = some (1, false) →
    appendLaunch s (fld r.bytes 32 2) (graphAsid s gr) (ds.map (fun d => d.1)) = (m, 0) →
    ∃ t r', exec (.graphLaunchRetry n j) s = .next t ∧ t = { m with graphs := t.graphs } ∧
      tget t.graphs n = some { gr with running := tput gr.running j r' } ∧ r'.acted = true ∧ r'.seen = r.seen ||| seen) ∧
  (∀ s n gr, tget s.graphs n = some gr → gr.limit ≠ 0 → gr.start.toNat + gr.limit * 4000 ≤ s.pt.toNat → gr.closed = false →
    gr.seen.testBit 4 = false → graphStopped s gr = false →
    ∃ t, exec (.graphTimeout n) s = .next t ∧ (gr.running = [] → tget t.graphs n = none) ∧
      (gr.running ≠ [] → ∃ g', tget t.graphs n = some g' ∧ g'.closed = true ∧ g'.ready = [] ∧ g'.running = gr.running ∧ g'.cause = 0x25 ∧
        g'.seen.testBit 4 = true)) ∧
  (∀ s n gr j, tget s.graphs n = some gr → graphStopped s gr = true →
    exec (.graphNodeStart n j) s = .next s ∧ exec (.graphNodeFinish n j) s = .next s ∧ exec (.graphLaunchRetry n j) s = .next s)

/-- R332 to R334: a NOP step is complete at once; a PUT sends its next packet, a SIG its one addition; a WAIT is complete once its word has reached
the threshold; a step that is done has SSTATE 0x80 with its own status, and the next step follows, which has met nothing yet; a table past its
time limit ends with its operation. -/
def Obligations.StepTableEvents : Prop :=
  (∀ s n r sp loc, StepRuns s n r sp loc 0 →
    ∃ t, exec (.stepNop n) s = .next t ∧ t.mem = s.mem ∧ tget t.tables n = some { r with seen := r.seen ||| 1, stepSeen := r.stepSeen ||| 1, complete := true }) ∧
  (∀ s n r sp loc ds seen, StepRuns s n r sp loc 1 →
    let dst := fld r.entry 16 8
    let left := fld r.entry 24 8 - r.sentBytes
    let m := min left (256 - (dst + r.sentBytes) % 256)
    let job := ((r.launch.bind (tget s.launches)).map (fun l => l.job)).getD 0
    0 < left → spRead s loc ((fld r.entry 8 8 + r.sentBytes) % 2 ^ 64) m = .ok (ds, seen) → seen.testBit 4 = false →
    (job = 0 → fld r.entry 2 2 = s.info.pkgnum.toNat) →
    ∃ t r' key u, exec (.stepPut n) s = .next t ∧ tget t.tables n = some r' ∧ r'.sentBytes = r.sentBytes + m ∧ r'.complete = false ∧
      r'.waiting = r.waiting ++ [key] ∧ tget t.coll.unacked key = some u ∧ u.table = some n ∧ u.p.act = .store ds ∧
      u.p.dest = fld r.entry 2 2 ∧ u.p.addr = BitVec.ofNat 64 (dst + r.sentBytes) ∧ u.p.job = job) ∧
  (∀ s n r sp loc, StepRuns s n r sp loc 2 → r.sentBytes = 0 →
    let job := ((r.launch.bind (tget s.launches)).map (fun l => l.job)).getD 0
    (job = 0 → fld r.entry 2 2 = s.info.pkgnum.toNat) →
    ∃ t r' key u, exec (.stepSig n) s = .next t ∧ tget t.tables n = some r' ∧ r'.sentBytes = 1 ∧ r'.waiting = r.waiting ++ [key] ∧
      tget t.coll.unacked key = some u ∧ u.table = some n ∧ u.p.act = .add (BitVec.ofNat 64 (fld r.entry 24 8)) ∧
      u.p.dest = fld r.entry 2 2 ∧ u.p.addr = BitVec.ofNat 64 (fld r.entry 16 8)) ∧
  (∀ s n r sp loc ds seen, StepRuns s n r sp loc 3 → spRead s loc (fld r.entry 8 8) 8 = .ok (ds, seen) → (∀ d ∈ ds, d.2 = false) →
    ∃ t r', exec (.stepWait n) s = .next t ∧ t.mem = s.mem ∧ tget t.tables n = some r' ∧
      (fld r.entry 24 8 ≤ ofBytes (ds.map (fun d => d.1)) → r'.complete = true) ∧
      (ofBytes (ds.map (fun d => d.1)) < fld r.entry 24 8 → r' = r)) ∧
  (∀ s n r sp loc pa, tget s.tables n = some r → tableDet s n = false → tableSpaces s r = some (sp, loc) → tableStopped s r = false → r.complete = true → r.seen.testBit 4 = false →
    fld r.entry 4 1 = 0 → r.cur + 1 < r.count → MapsTo s sp (r.base.toNat + 64 * r.cur) 64 pa →
    ∃ t r', exec (.stepDone n) s = .next t ∧ tget t.tables n = some r' ∧ r'.cur = r.cur + 1 ∧ r'.started = false ∧ r'.complete = false ∧
      r'.waiting = [] ∧ r'.sentBytes = 0 ∧ r'.seen = r.seen ∧ r'.stepSeen = 0 ∧
      memByte t (pa + 5) = BitVec.ofNat 8 (0x80 + statusOf r.stepSeen) ∧ OnlyAt s t (pa + 5) 1) ∧
  (∀ s n r, tget s.tables n = some r → r.limit ≠ 0 → r.start.toNat + r.limit * 4000 ≤ s.pt.toNat →
    ∃ t, exec (.crunTimeout n) s = .next t ∧ tget t.tables n = none ∧
      ∀ k o, r.owner = .op k → tget s.ops k = some o → o.quantum = none → tget t.ops k = none)

/-- R20, R322, R336: a collective operation is complete when the acknowledgment of its packet, or the release of its barrier, has come; a packet
without one for 8 µs is sent again, and after 8 resends its operation ends. -/
def Obligations.CollectiveOperationsComplete : Prop :=
  (∀ s n o k g pod b count root reply, tget s.ops n = some o → o.act = .cbar pod b count root → o.performed = true → o.quantum = none →
    o.record = none → o.ctr = some .coll → opAt s o = some (k, g) → awaited s n = none → statusOf o.seen = 0 →
    ∃ t, exec (.collOpComplete n reply) s = .next t ∧ Completed s t n o k g .coll ∧ t.mem = s.mem) ∧
  (∀ s n o key u reply r, awaited s n = some (key, u) → u.held = false → u.op = some n → tget s.ops n = some o → o.quantum = none →
    (u.p.dest = s.info.pkgnum.toNat → localReply s u = some r) → (u.p.dest ≠ s.info.pkgnum.toNat → reply = some r) →
    ∃ t, exec (.collOpComplete n reply) s = .next t ∧ tget t.ops n = none ∧ tget t.coll.unacked key = none ∧
      ∀ k, k ≠ key → tget t.coll.unacked k = tget s.coll.unacked k) ∧
  (∀ s n id o key u, s.coll.unacked.find? (fun p => (p.2.op == some n || p.2.table == some n) && p.2.p.reqId.toNat == id) = some (key, u) →
    u.held = false → u.sentAt.toNat + 32000 * (u.resends + 1) ≤ s.pt.toNat → u.op = some n → tget s.ops n = some o → o.quantum = none →
    (u.resends < 8 → ∃ sentW, exec (.remoteResend n id) s =
      .next { s with coll := { s.coll with unacked := tput s.coll.unacked key { u with resends := u.resends + 1 }, sentW := sentW } }) ∧
    (8 ≤ u.resends → ∃ t, exec (.remoteResend n id) s = .next t ∧ tget t.ops n = none ∧ tget t.coll.unacked key = none))

/-- R319, R321, R322: a beacon carries a watermark never lower than the port's last; a packet that arrives on a port in time waits at the delivery
point, and a late one is refused; the waiting packet with the lowest key is performed once its stamp is reached, an unordered one at once, each
leaving its reply in the cache of its delivery point. -/
def Obligations.RemotePacketsDelivered : Prop :=
  (∀ s die port domain w, port < 16 → port / 4 = die → domain < 16 → dieW s die domain = some w →
    ∃ w', exec (.beacon die port domain) s =
        .next { s with coll := { s.coll with sentW := tput s.coll.sentW (port * 16 + domain) w' } } ∧
      (tget s.coll.sentW (port * 16 + domain) = none → w' = w) ∧
      ∀ old, tget s.coll.sentW (port * 16 + domain) = some old →
        (1 ≤ (old - w).toNat ∧ (old - w).toNat ≤ 2 ^ 47 - 1 → w' = old) ∧ (¬(1 ≤ (old - w).toNat ∧ (old - w).toNat ≤ 2 ^ 47 - 1) → w' = w)) ∧
  (∀ s port domain w, port < 16 → domain < 16 →
    (∃ t, exec (.orderedPacketArrival port domain w none) s = .next t ∧ (getPoint t domain).waiting = (getPoint s domain).waiting ∧
      t.mem = s.mem ∧ (tget (getPoint s domain).portW port = none → tget (getPoint t domain).portW port = some w)) ∧
    ∀ p, p.ordered = true → p.domain = domain → p.dest = s.info.pkgnum.toNat → p.src ∉ s.coll.excluded → cached s p = false →
      (∀ y ∈ (getPoint s domain).waiting, ¬(y.src = p.src ∧ y.reqId = p.reqId ∧ y.stamp = p.stamp)) →
      ∃ t, exec (.orderedPacketArrival port domain w (some p)) s = .next t ∧
        (stampReached s domain p.stamp = false → (getPoint t domain).waiting = (getPoint s domain).waiting ++ [p] ∧ t.mem = s.mem) ∧
        (stampReached s domain p.stamp = true → (getPoint t domain).waiting = (getPoint s domain).waiting ∧
          (domain, p.src, p.reqId, .refused) ∈ t.coll.replies)) ∧
  (∀ s p, p ∈ (getPoint s 0).waiting → (∀ y ∈ (getPoint s 0).waiting, y ≠ p → keyLt p y = true) → stampReached s 0 p.stamp = true →
    mayDeliver s p = true → sentDet s p = false →
    ∃ t r, exec (.orderedDelivery 0) s = .next t ∧ (getPoint t 0).waiting = (getPoint s 0).waiting.filter (fun y => y != p) ∧
      (pointOf p, p.src, p.reqId, r) ∈ t.coll.replies ∧ (p.domain = 0 → RemoteEffect s t p)) ∧
  (∀ s port p, p.ordered = false → p.dest = s.info.pkgnum.toNat → p.src ∉ s.coll.excluded → cached s p = false → mayDeliver s p = true →
    (p.src / 4 = s.info.pkgnum.toNat → sentDet s p = false ∧
      ∃ u, tget s.coll.unacked (p.src * 65536 + p.reqId.toNat) = some u ∧ u.p = p) →
    ∃ t r, exec (.unorderedDelivery ⟨port, p⟩) s = .next t ∧ (16, p.src, p.reqId, r) ∈ t.coll.replies ∧ RemoteEffect s t p)

/-- R316, R323, R324, R336, R400, R410: a delivery point that has not advanced for the stall time tells so once; an excluded source is remembered
and leaves one DISCARD record; a port
that leaves the active set loses its UP bit; the root of a POD barrier counts packages and releases them when as many have arrived as its own
arrival names; a release performs the phase's operations and begins the next phase, which in a running DET launch the commit that counts them begins
(the model's reading, log 85); a change of PODSTATE to a synchronised state injects what was held. -/
def Obligations.PodEvents : Prop :=
  (∀ s domain p src w, let d := getPoint s domain
    lowest d.waiting = some p → laggard (pointInputs s domain) = some (src, w) → d.stallTold = false →
    (pointW s domain = none ∨ pointW s domain = some d.lastW) →
    d.advanced.toNat + s.coll.stallTicks ≤ s.pt.toNat → d.waitSince.toNat + s.coll.stallTicks ≤ s.pt.toNat →
    exec (.watermarkStall domain) s =
      .next (putPoint (raiseEvent s (eventNow s 0x23 2 0 src p.stamp.toNat p.src)) domain { d with stallTold := true })) ∧
  (∀ s port src,
    (src ∈ s.coll.excluded → exec (.sourceExclusion ⟨port, src⟩) s = .next s) ∧
    (src ∉ s.coll.excluded → ∃ t, exec (.sourceExclusion ⟨port, src⟩) s = .next t ∧
      t.coll = { s.coll with excluded := s.coll.excluded ++ [src], points := t.coll.points } ∧
      (∀ domain, (getPoint t domain).waiting = (getPoint s domain).waiting) ∧
      Recorded s t (recordNow s 0x42 2 0 (BitVec.ofNat 64 port) 0 (BitVec.ofNat 64 src)))) ∧
  (∀ s port, port ∈ s.coll.active →
    ∃ t, exec (.activeSetRemoval port) s = .next t ∧ t.coll.active = s.coll.active.filter (fun p => p != port) ∧
      (memNat t (s.info.porttab.toNat + 8 * port) 8).testBit 15 = false ∧
      (∀ j, j ≠ 15 → (memNat t (s.info.porttab.toNat + 8 * port) 8).testBit j = (memNat s (s.info.porttab.toNat + 8 * port) 8).testBit j) ∧
      OnlyAt s t (s.info.porttab.toNat + 8 * port) 8) ∧
  (∀ s package job bar n agree, let own := s.info.pkgnum.toNat
    let x := getPodBar s job bar
    let all := x.arrivals ++ [(package, n, own, agree)]
    (∀ a ∈ x.arrivals, a.1 ≠ package) →
    ∀ m, ((∃ r ok, (own, m, r, ok) ∈ all) ∧ ∀ a ∈ all, a.1 = own → a.2.1 = m) →
      ∃ t, exec (.podBarrierArrival package job bar n own agree) s = .next t ∧
        (all.length < m → (getPodBar t job bar).arrivals = all ∧ t.agenda = s.agenda) ∧
        (m ≤ all.length → ∃ ok : Bool, (ok = true ↔ ∀ a ∈ all, a.2.2.2 = true ∧ a.2.1 = m ∧ a.2.2.1 = own) ∧
          (getPodBar t job bar).arrivals = [] ∧ t.agenda = ⟨0, 0, .podBarrierRelease job bar ok⟩ :: s.agenda ∧
          ∀ a ∈ all, a.1 ≠ own → (a.1, job, bar, ok) ∈ t.coll.releasesOut)) ∧
  (∀ s job bar ok lid l, jobLaunch s job = some (lid, l) → tget s.launches lid = some l → l.cbars = [getCBar l bar] →
    (getCBar l bar).waiting ≠ [] → (getCBar l bar).arrivals = [] →
    let awaitsCommit : Prop := l.kern.det = true ∧ l.status = .running
    ∃ t l', exec (.podBarrierRelease job bar ok) s = .next t ∧ tget t.launches lid = some l' ∧
      (¬awaitsCommit → (getCBar l' bar).phase = (getCBar l bar).phase + 1 ∧ (getCBar l' bar).waiting = []) ∧
      (awaitsCommit → getCBar l' bar = getCBar l bar) ∧
      ∀ n o, n ∈ (getCBar l bar).waiting → tget s.ops n = some o →
        ∃ o', tget t.ops n = some o' ∧ o'.performed = true ∧
          (ok = false → o.performed = false → o'.seen.testBit 4 = true ∧ o'.cause = 0x22)) ∧
  (∀ s v, v.toNat ≤ 3 →
    ∃ t, exec (.podSyncChange v) s = .next t ∧ t.info.podstate = v ∧ (s.coll.excluded = [] → t.mem = s.mem) ∧
      (v = 0 ∨ v = 2 → ∀ key u, tget t.coll.unacked key = some u → u.held = false) ∧
      (v = 1 ∨ v = 3 → t = { s with info := { s.info with podstate := v } }))

/-! ## Queues, workers and packets -/

/-- R347, R348, R350, R351, R363, R399, R403: TAIL takes a new WRIDX and sequence number where every condition of R350 holds and else counts a
discard; one on a doorbell page that is not the function's freezes the function; the reconcile pass takes WRMIR over and changes neither
sequence number nor discards; a deactivated queue is forgotten; a free worker takes a queue of the smallest PRIO; a worker leaves at the end
of its slice, the cursors kept. The discard of a queue that is not active counts in its descriptor. For which queue a short, misaligned or wide
doorbell write counts a discard is the model's reading (log 52); that a package which has stopped, or whose boot has failed, takes no TAIL and
makes no reconcile pass is its choice (R396, R398, R405, log 24). -/
def Obligations.QueueEvents : Prop :=
  (∀ s fn page off size value q, feStopped s = false → hostMay s fn = true → page < 64 → hasPage s fn page = true → tailQueue off size value = some q →
    let n : BitVec 16 := value.extractLsb' 32 16
    let w : Word := value.setWidth 32
    let x := getQ (lookQueue s q) q
    let d := qDesc (lookQueue s q) q
    let ahead := (n.toNat + 2 ^ 16 - x.lastseq.toNat) % 2 ^ 16
    let taken : Prop := off % 8 = 0 ∧ size = 8 ∧ d.active = true ∧ d.submit = false ∧ 1 ≤ ahead ∧ ahead ≤ 32767 ∧
      (w - x.rdidx).toNat ≤ 2 ^ d.logsize ∧ (w - x.wridx).toNat ≤ 2 ^ d.logsize
    (8 ≤ size → q = value.toNat / 2 ^ 48) ∧ (q / 16 = page →
    (taken → ∃ t, exec (.tail ⟨fn, page⟩ off size value) s = .next t ∧ getQ t q = { x with lastseq := n, wridx := w } ∧
      ∀ r, r ≠ q → getQ t r = getQ s r) ∧
    (¬taken → x.known = true → d.active = true ∨ underWay x = true →
      ∃ t, exec (.tail ⟨fn, page⟩ off size value) s = .next t ∧ getQ t q = { x with discards := x.discards + 1 }) ∧
    (¬taken → x.known = false ∨ (d.active = false ∧ underWay x = false) →
      let at' := s.info.qtbase.toNat + 128 * q + 20
      ∃ t, exec (.tail ⟨fn, page⟩ off size value) s = .next t ∧ memNat t at' 4 = (memNat (lookQueue s q) at' 4 + 1) % 2 ^ 32 ∧
        OnlyAt (lookQueue s q) t at' 4))) ∧
  (∀ s fn page off size value, feStopped s = false → hostMay s fn = true → page < 64 → hasPage s fn page = false →
    ∃ t, exec (.tail ⟨fn, page⟩ off size value) s = .next t ∧ t.frozenFns = s.frozenFns ++ [fn] ∧ t.fe = s.fe ∧
      Recorded s t (recordNow s 0x45 4 0 (BitVec.ofNat 64 fn) (BitVec.ofNat 64 (4096 * page + off)) 0)) ∧
  (∀ s door off size value, feStopped s = true → exec (.tail door off size value) s = .next s ∧ exec .reconcilePass s = .next s) ∧
  (∀ s q, feStopped s = false → q < 1024 → ∃ t, exec .reconcilePass s = .next t ∧
    let x := getQ (lookQueue s q) q
    let d := qDesc (lookQueue s q) q
    let w : Word := BitVec.ofNat 32 d.wrmir
    (getQ t q).lastseq = x.lastseq ∧ (getQ t q).discards = x.discards ∧ (getQ t q).rdidx = x.rdidx ∧
    (d.active = true → d.submit = false → (w - x.rdidx).toNat ≤ 2 ^ d.logsize → (w - x.wridx).toNat ≤ 2 ^ d.logsize →
      (getQ t q).wridx = w) ∧
    (d.active = false ∨ d.submit = true → (getQ t q).wridx = x.wridx)) ∧
  (∀ s q, let x := getQ s q
    x.known = true → (x.qstate = 3 → (memNat s (s.info.qtbase.toNat + 128 * q + 10) 1).testBit 0 = false) →
    (x.qstate ≠ 3 → (qDesc s q).active = false ∧ x.packet = none ∧ x.stepc = 0 ∧ x.bytec = 0 ∧ x.waitFrom = none) →
    ∃ t, exec (.queueDeactivation q) s = .next t ∧ getQ t q = { x with known := false, qstate := 0, packet := none } ∧
      ∀ w, tget t.fe.workers w ≠ some q) ∧
  (∀ s worker q, worker < 8 → tget s.fe.workers worker = none → feStopped s = false → q ∈ s.fe.queues.map (fun p => p.1) →
    takeable s q = true → (∀ r, r ∈ s.fe.queues.map (fun p => p.1) → takeable s r = true → r ≠ q → (qDesc s q).prio < (qDesc s r).prio) →
    ∃ t, exec (.workerQueueSelect worker) s = .next t ∧ tget t.fe.workers worker = some q ∧
      getQ t q = { getQ s q with qstate := 1, sliceFrom := s.pt } ∧ ∀ r, r ≠ q → getQ t r = getQ s r) ∧
  (∀ s worker q, tget s.fe.workers worker = some q → (getQ s q).sliceFrom.toNat + (qDesc s q).slice * 4000 ≤ s.pt.toNat →
    ∃ t, exec (.sliceExpiry worker) s = .next t ∧ t.fe.queues = s.fe.queues ∧ t.mem = s.mem ∧ (∀ w, tget t.fe.workers w ≠ some q) ∧
      ∀ w r, r ≠ q → tget s.fe.workers w = some r → tget t.fe.workers w = some r)

/-- R354, R356 to R359: a NOP packet is complete at once, and a reserved type faults the queue with code TYPE; WRITE stores its bytes; SIGNAL adds
to its word or exchanges it; WRSIG and COPY move the bytes of a destination line at a time, and WRSIG then adds to its signal word; GRAPH
starts a graph, or with a node array that cannot be reached faults the queue with code ACCESS (its scope the model's
reading, log 111); a FENCE waits while a launch or a graph of the queue has not ended. -/
def Obligations.PacketsActOnMemory : Prop :=
  ∀ s worker q p, let x := getQ s q
    let sp := Space.asid (qDesc s q).asid
    (Serves s worker q p 0 → ∃ t, exec (.nopPacket worker) s = .next t ∧ Finished t q x ∧ Holds s t q 0 []) ∧
    (servedQueue s worker = some q → packetNow s q = .ok p → 9 < fld p 0 1 →
      ∃ t, exec (.nopPacket worker) s = .next t ∧ (getQ t q).qstate = 3 ∧ (getQ t q).qfcode = 1 ∧ (getQ t q).qfpt = s.pt ∧
        (getQ t q).rdidx = x.rdidx ∧ ∀ w, tget t.fe.workers w ≠ some q) ∧
    (∀ pa, Serves s worker q p 2 → MapsTo s sp (fld p 8 8) (fld p 2 1) pa → p.length = 64 →
      ∃ t, exec (.writePacket worker) s = .next t ∧ Finished t q x ∧ Holds s t q pa ((p.drop 16).take (fld p 2 1))) ∧
    (∀ pa, Serves s worker q p 3 → MapsTo s sp (fld p 8 8) 8 pa → poisonIn s.mpoison pa 8 = false →
      ∃ t, exec (.signalPacket worker) s = .next t ∧ Finished t q x ∧
        Holds s t q pa (bytesOf 8 (if fld p 2 1 = 1 then fld p 16 8 else memNat s pa 8 + fld p 16 8))) ∧
    (∀ pa bytes, Serves s worker q p 4 → x.stepc = 0 → x.bytec.toNat < fld p 24 8 → UnitMoves s q p x pa bytes →
      ∃ t, exec (.wrsigPacket worker) s = .next t ∧ Holds s t q pa bytes ∧
        getQ t q = { x with packet := some p, bytec := BitVec.ofNat 64 (x.bytec.toNat + unitLen p x),
                            stepc := if x.bytec.toNat + unitLen p x < fld p 24 8 then 0 else 1 }) ∧
    (∀ pa, Serves s worker q p 4 → x.stepc ≠ 0 → MapsTo s sp (fld p 32 8) 8 pa → poisonIn s.mpoison pa 8 = false →
      ∃ t, exec (.wrsigPacket worker) s = .next t ∧ Finished t q x ∧ Holds s t q pa (bytesOf 8 (memNat s pa 8 + fld p 40 8))) ∧
    (∀ pa bytes, Serves s worker q p 9 → x.stepc = 0 → x.bytec.toNat < fld p 24 8 → UnitMoves s q p x pa bytes →
      ∃ t, exec (.copyPacket worker) s = .next t ∧ Holds s t q pa bytes ∧
        (x.bytec.toNat + unitLen p x < fld p 24 8 →
          getQ t q = { x with packet := some p, bytec := BitVec.ofNat 64 (x.bytec.toNat + unitLen p x) }) ∧
        (fld p 24 8 ≤ x.bytec.toNat + unitLen p x → Finished t q x)) ∧
    (∀ a, Serves s worker q p 6 → badNodes s (qDesc s q).asid (fld p 8 8) (fld p 16 2) = some a →
      ∃ t, exec (.graphPacket worker) s = .next t ∧ (getQ t q).qstate = 3 ∧ (getQ t q).qfcode = 5 ∧ (getQ t q).qfarg = BitVec.ofNat 64 a ∧
        (getQ t q).rdidx = x.rdidx ∧ t.graphs = s.graphs) ∧
    (Serves s worker q p 6 → badNodes s (qDesc s q).asid (fld p 8 8) (fld p 16 2) = none →
      ∃ t gr, exec (.graphPacket worker) s = .next t ∧ Finished t q x ∧ tget t.graphs s.opNo = some gr ∧ t.opNo = s.opNo + 1 ∧
        gr.owner = .queue q (BitVec.ofNat 64 (fld p 24 8)) (BitVec.ofNat 64 (fld p 32 8)) ∧ gr.base = BitVec.ofNat 64 (fld p 8 8) ∧
        gr.nodes = fld p 16 2 ∧ gr.limit = fld p 20 4 ∧ gr.asid = (qDesc s q).asid ∧ gr.start = s.pt ∧ gr.begun = false ∧ gr.launch = none) ∧
    (Serves s worker q p 7 →
      ∃ t, exec (.fencePacket worker) s = .next t ∧
        ((∀ e ∈ s.launches, e.2.q = q → e.2.status = .ended) → (∀ e ∈ s.graphs, ∀ a b, e.2.owner ≠ .queue q a b) → Finished t q x) ∧
        ((∃ e ∈ s.launches, e.2.q = q ∧ e.2.status ≠ .ended) ∨ (∃ e ∈ s.graphs, ∃ a b, e.2.owner = .queue q a b) →
          Waits s t q { x with packet := some p }))

/-- R355 to R357, R383, R384, R386: a LAUNCH packet whose descriptor, ranges and pages are sound makes the launch with the next identifier run; a
delayed one is walked again, and one that finds no ordering domain waits, read already (the model's choice, log 37); WAITSIG is complete once its
condition holds and waits till then, looked at again when its line is written; LEASE takes and drops a lease of its identifier, and waits with its
ranges as read while its walk is delayed. -/
def Obligations.PacketsLaunchAndWait : Prop :=
  ∀ s q, let x := getQ s q
    let asid := (qDesc s q).asid
    (∀ worker p b k rs kl ls cs, Serves s worker q p 1 → fld p 8 8 % 64 = 0 → jobBusy s (BitVec.ofNat 32 (fld p 4 4)) = false →
      feRead s asid (fld p 8 8) 128 = .ok b → kernelOf b = some k → readRanges s asid (fld p 16 8) = .ok rs →
      kargWalk s asid (fld p 24 8) k.kargs = .ok kl → WalksGrant s q asid rs k ls cs →
      let id := s.fe.nextLaunch + 1
      let full : Prop := k.det = true ∧ fld p 4 4 ≠ 0 ∧
        15 ≤ ((tput s.launches id.toNat (bareLaunch k [])).filter (fun e => e.2.status != .ended && e.2.domain != 0)).length
      (full → ∃ t l, exec (.launchPacket worker) s = .next t ∧
        Waits s t q { x with packet := some p, lastlaunch := id, granting := some id.toNat } ∧
        tget t.launches id.toNat = some l ∧ l.status = .granting ∧ l.kern = k ∧ l.ranges = rs) ∧
      (¬full → ∃ t l, exec (.launchPacket worker) s = .next t ∧ Finished t q { x with lastlaunch := id } ∧ t.fe.nextLaunch = id ∧
        tget t.launches id.toNat = some l ∧ l.status = .running ∧ l.kern = k ∧ l.ranges = rs ∧ l.leaves = ls ∧ l.codeLeaves = cs ∧
        l.q = q ∧ l.asid = asid ∧ l.job = BitVec.ofNat 32 (fld p 4 4) ∧ (l.gx, l.gy, l.gz) = (fld p 32 4, fld p 36 2, fld p 38 2) ∧
        l.sigva = BitVec.ofNat 64 (fld p 40 8) ∧ l.nextWg = 0 ∧ l.quantum = 0 ∧
        ∀ n, n ≠ id.toNat → tget t.launches n = tget s.launches n)) ∧
    (∀ lid l ls cs, x.qstate = 2 → feStopped s = false → noteWaits s q = false → x.granting = some lid → tget s.launches lid = some l →
      l.status = .granting →
      walkRanges s l.asid l.ranges = .grant ls → walkCode s l.asid l.kern = .grant cs →
      (awaitsDomain s l = true → ∃ t, exec (.leaseWalkRetry q) s = .next t ∧ Waits s t q x ∧ t.launches = s.launches) ∧
      (awaitsDomain s l = false → ∃ t l', exec (.leaseWalkRetry q) s = .next t ∧ Finished t q x ∧ tget t.launches lid = some l' ∧
        l'.status = .running ∧ l'.leaves = ls ∧ l'.codeLeaves = cs ∧ l'.kern = l.kern)) ∧
    (∀ p rs ls, x.qstate = 2 → feStopped s = false → noteWaits s q = false → x.granting = none → x.holding = some rs → x.packet = some p →
      walkRanges s asid rs = .grant ls →
      ∃ t, exec (.leaseWalkRetry q) s = .next t ∧ Finished t q { x with leases := tput x.leases (fld p 16 8) ls }) ∧
    (∀ p b i, packetNow s q = .ok p → fld p 0 1 = 5 → badField p = none → feRead s asid (fld p 8 8) 8 = .ok b →
      i ∈ [Instr.waitsigRecheck q] ∨ (∃ worker, servedQueue s worker = some q ∧ i = .waitsigPacket worker) →
      (i = .waitsigRecheck q → x.qstate = 2 ∧ x.packet = some p ∧ feStopped s = false) →
      let word := ofBytes b
      let holds : Prop := (fld p 2 1 = 0 ∧ fld p 16 8 ≤ word) ∨ (fld p 2 1 = 1 ∧ word = fld p 16 8) ∨ (fld p 2 1 = 2 ∧ word ≠ fld p 16 8)
      let since := (x.waitFrom.getD s.pt).toNat
      (holds → ∃ t, exec i s = .next t ∧ Finished t q x) ∧
      (¬holds → fld p 24 4 = 0 ∨ s.pt.toNat < since + fld p 24 4 * 4000 → ∃ t, exec i s = .next t ∧ Waits s t q { x with packet := some p }) ∧
      (¬holds → fld p 24 4 ≠ 0 → since + fld p 24 4 * 4000 ≤ s.pt.toNat →
        ∃ t, exec i s = .next t ∧ (getQ t q).qstate = 3 ∧ (getQ t q).qfcode = 6)) ∧
    (∀ worker p rs ls, Serves s worker q p 8 → fld p 2 1 = 0 → x.leases.length < 4 → tget x.leases (fld p 16 8) = none →
      readRanges s asid (fld p 8 8) = .ok rs →
      (walkRanges s asid rs = .grant ls →
        ∃ t, exec (.leaseHold worker) s = .next t ∧ Finished t q { x with leases := tput x.leases (fld p 16 8) ls }) ∧
      (∀ gone, walkRanges s asid rs = .delay gone →
        ∃ t, exec (.leaseHold worker) s = .next t ∧ Waits s t q { x with packet := some p, holding := some rs })) ∧
    (∀ worker p, Serves s worker q p 8 → fld p 2 1 = 1 →
      (∀ ls, tget x.leases (fld p 16 8) = some ls →
        ∃ t, exec (.leaseDrop worker) s = .next t ∧ Finished t q { x with leases := tdel x.leases (fld p 16 8) }) ∧
      (tget x.leases (fld p 16 8) = none →
        ∃ t, exec (.leaseDrop worker) s = .next t ∧ (getQ t q).qstate = 3 ∧ (getQ t q).qfcode = 2))

/-! ## The dispatcher, pre-emption and deterministic launches -/

/-- R173, R182, R360 to R362, R369 to R371, R394, R407: the workgroup that is next in order is placed with its groups at the kernel's entry, EXEC all
ones, PAL 0x1000 and every other register zero; a saved one resumes with the registers, the PC, the tiles and the scratchpad that its record
in memory gives back, and a record with uncorrectable data where nothing carries poison halts its launch. That the fields of the record's header
follow one another from offset 4 is the model's choice (log 41). That a DET workgroup without room on
its package core begins as a saved one is the model's choice (log 83). -/
def Obligations.WorkgroupsPlacedAndResumed : Prop :=
  (∀ s c p l, nextPlaced s = some (c, p) → c.saved = false → tget s.launches c.lid = some l →
    ∃ t w l', exec .workgroupPlace s = .next t ∧ tget t.wgs (wgKey c.lid c.idx) = some w ∧ w.launch = c.lid ∧ w.idx = c.idx ∧
      w.core = p.core ∧ w.lcore = p.lcore ∧
      (w.x, w.y, w.z) = (c.idx % l.gx, c.idx / l.gx % l.gy, c.idx / (l.gx * l.gy)) ∧
      tget t.launches c.lid = some l' ∧ l'.nextWg = (if c.back then l.nextWg else l.nextWg + 1) ∧
      (∀ f, p.fit = some f → w.status = .resident ∧ w.sbase = f.sbase ∧ w.slots = f.slots ∧
        (∀ i, i < l.kern.groups → ∃ g, tget t.groups (p.core * 64 + f.slots.getD i 0) = some g ∧ g.launch = c.lid ∧ g.wg = c.idx ∧ g.gidx = i ∧
          g.pc = l.kern.entry ∧ g.status = .run ∧ g.handler = false ∧ execMask g = BitVec.allOnes 128 ∧ g.pal = 0x1000 ∧ g.fpc = 0 ∧
          g.scc = false ∧ (∀ n, n ≠ 158 → n ≠ 159 → sreg g n = 0) ∧ (∀ n, vreg g n = VReg.zero) ∧ (∀ n, xreg g n = XReg.invalid) ∧
          (∀ n, tctl g n = 0) ∧ specialTable g = List.replicate 14 0) ∧
        ∀ k, (∀ i, i < l.kern.groups → k ≠ p.core * 64 + f.slots.getD i 0) → tget t.groups k = tget s.groups k) ∧
      (p.fit = none → w.status = .saved ∧ w.slots = [] ∧ t.groups = s.groups ∧
        ∀ i, i < l.kern.groups → ∃ g, (i, g) ∈ w.saved ∧ g.gidx = i ∧ g.pc = l.kern.entry ∧ g.status = .run)) ∧
  (∀ s c p f l w, nextPlaced s = some (c, p) → p.fit = some f → c.saved = true → tget s.launches c.lid = some l → l.status = .running →
    tget s.wgs (wgKey c.lid c.idx) = some w → (w.saved.map (fun p => p.1)).Nodup → (∀ p ∈ w.saved, p.1 < f.slots.length) →
    let rb := readRecord s l w
    (w.recAt = none → rb.groups = w.saved ∧ rb.scratch = w.scratch ∧ rb.xyz = (w.x, w.y, w.z) ∧ rb.exported = w.exported ∧ rb.bad = false) ∧
    (∀ pa, w.recAt = some pa → rb.xyz = (memNat s (pa + 4) 4, memNat s (pa + 8) 4, memNat s (pa + 12) 4) ∧
      (rb.exported = (memNat s (pa + 24) 4).testBit 0) ∧
      rb.groups.map (fun e => e.1) = (List.range (l.kern.groups + l.kern.spare)).filter (fun i => (memNat s (pa + 16) 8).testBit i)) ∧
    (∀ pa j i g, w.recAt = some pa → (w.saved.map (fun e => e.1)) =
        (List.range (l.kern.groups + l.kern.spare)).filter (fun i => (memNat s (pa + 16) 8).testBit i) →
      w.saved[j]? = some (i, g) → ∃ h, rb.groups[j]? = some (i, h) ∧
      let blk := pa + 64 + 2048 * j
      h.pc.toNat = memNat s (blk + 0x650) 8 ∧ (∀ n, n < 160 → (sreg h n).toNat = memNat s (blk + 8 * n) 8) ∧
      h.pal.toNat = memNat s (blk + 0x500) 8 % 2 ^ 15 ∧ h.fpc.toNat = memNat s (blk + 0x508) 4 % 2 ^ 13 ∧
      h.scc = (memNat s (blk + 0x658) 8).testBit 0 ∧ h.handler = (memNat s (blk + 0x658) 8).testBit 1 ∧
      h.sp.ric.toNat = memNat s (blk + 0x690 + 96) 8) ∧
    ∃ t w', exec (.workgroupResume c.lid c.idx) s = .next t ∧ tget t.wgs (wgKey c.lid c.idx) = some w' ∧ w'.status = .resident ∧
      w'.core = p.core ∧ w'.scratch = rb.scratch ∧ w'.saved = [] ∧ (w'.x, w'.y, w'.z) = rb.xyz ∧ w'.exported = rb.exported ∧
      (rb.bad = false → ∀ i g, (i, g) ∈ rb.groups → ∃ g', tget t.groups (p.core * 64 + f.slots.getD i 0) = some g' ∧ g'.pc = g.pc ∧
        g'.sregs = g.sregs ∧ g'.vregs = g.vregs ∧ g'.scc = g.scc ∧ g'.tiles = g.tiles ∧ g'.pal = g.pal ∧ g'.fpc = g.fpc ∧
        g'.handler = g.handler ∧ g'.log = g.log ∧ (l.kern.det = false → g'.st = [] ∧ g'.coll = []) ∧ (g.status = .frozen → g'.status = .frozen) ∧
        (l.kern.det = false → g.status ≠ .frozen → (∀ a b tok, g.status ≠ .parked (.barNamed a b tok)) → g'.status = .run)) ∧
      (rb.bad = true → ∃ l', tget t.launches c.lid = some l' ∧ l'.status = .halted))

/-- R364, R365, R367 to R369, R373, R374: each victim is drained, flushed or saved as R365 chooses; a save writes the context record and vacates the
core, a flush vacates it with nothing kept; a drain that lasts four times the budget becomes a save, as does the longest idle workgroup
of a core on which nothing has retired for 65,536 clocks. A workgroup of a DET launch that gives its core up to one of another logical core in
turn (R376) is saved, or drains where the pool has no room, whatever R365 says: that is the model's choice (log 66), as is when its turn is over
(log 64). That the pool has room means one free place at a multiple of 64 for the whole record (the model's reading, log 41). -/
def Obligations.Preemption : Prop :=
  (∀ s launch wg c l core key w k, (waiting s).find? (fun x => x.lid == launch && x.idx == wg) = some c → tget s.launches launch = some l →
    feStopped s = false → candFit s c = none → inHand s c = false → mustWait s c l = false →
    chooseVictims s c l = some (core, [key]) → tget s.wgs key = some w → wgKern s w = some k →
    let r := w.retired
    let lasted := w.stayed + (s.pt.toNat - w.placedAt.toNat)
    let fits : Prop := ∃ pa, poolFree s key pa (recordSize s key k) = true
    let inTurn : Prop := k.det = true ∧ c.saved = true ∧ w.launch = launch ∧ ∃ v, tget s.wgs (wgKey launch wg) = some v ∧ v.lcore ≠ w.lcore ∧
      remapCore s v.lcore = remapCore s w.lcore ∧ wgOver s (wgKey launch wg) v = false ∧
      (wgOver s key w = true ∨ (v.lcore < w.lcore ∧ ∀ p ∈ groupsOf s key, quantumStart s p.2 = true))
    let nearEnd : Prop := 9 * k.expected ≤ 10 * r ∧ (k.expected - r) * lasted ≤ s.fe.drainBudget * 4000 * r
    let early : Prop := k.idemp = true ∧ k.det = false ∧ 10 * r < k.expected
    ∃ t w', exec (.preemptChoice launch wg) s = .next t ∧ tget t.wgs key = some w' ∧ w'.scratch = w.scratch ∧ t.groups = s.groups ∧
      (w.exported = true ∨ k.pinned = true → w'.status = .draining s.pt true) ∧
      (w.exported = false → k.pinned = false → ¬inTurn →
        (k.expected = 0 → fits → w'.status = .saving) ∧ (k.expected = 0 → ¬fits → w'.status = .draining s.pt false) ∧
        (k.expected ≠ 0 → nearEnd → w'.status = .draining s.pt false) ∧
        (k.expected ≠ 0 → ¬nearEnd → early → w'.status = .flushing) ∧
        (k.expected ≠ 0 → ¬nearEnd → ¬early → fits → w'.status = .saving) ∧
        (k.expected ≠ 0 → ¬nearEnd → ¬early → ¬fits → w'.status = .draining s.pt false)) ∧
      (w.exported = false → k.pinned = false → inTurn →
        (fits → w'.status = .saving) ∧ (¬fits → w'.status = .draining s.pt false))) ∧
  (∀ s launch wg pa w l, tget s.wgs (wgKey launch wg) = some w → tget s.launches launch = some l → w.status = .saving → w.exported = false →
    w.launch = launch → w.idx = wg → atSavePoint s launch wg = true →
    let gs := wgGroups s (wgKey launch wg)
    poolFree s (wgKey launch wg) pa (recordSize s (wgKey launch wg) l.kern) = true →
    ∃ t w', exec (.save launch wg pa) s = .next t ∧ Vacated t (wgKey launch wg) ∧ tget t.wgs (wgKey launch wg) = some w' ∧
      w'.status = .saved ∧ w'.saved = gs ∧ w'.scratch = w.scratch ∧ w'.recAt = some pa ∧
      (∀ j d, (contextRecord l.kern w gs)[j]? = some d → memByte t (pa + j) = d.1) ∧ OnlyAt s t pa (contextRecord l.kern w gs).length) ∧
  (∀ s launch wg w, tget s.wgs (wgKey launch wg) = some w → w.status = .flushing → w.exported = false → atSavePoint s launch wg = true →
    ∃ t w', exec (.flush launch wg) s = .next t ∧ Vacated t (wgKey launch wg) ∧ tget t.wgs (wgKey launch wg) = some w' ∧
      w'.status = .flushed ∧ w'.scratch = [] ∧ w'.retired = 0 ∧ w'.stayed = 0 ∧ t.mem = s.mem) ∧
  (∀ s launch wg w l k since, tget s.wgs (wgKey launch wg) = some w → tget s.launches launch = some l → wgKern s w = some k →
    w.status = .draining since false → w.exported = false → l.kern.pinned = false →
    (∃ pa, poolFree s (wgKey launch wg) pa (recordSize s (wgKey launch wg) l.kern) = true) →
    since.toNat + 4 * s.fe.drainBudget * 4000 ≤ s.pt.toNat →
    ∃ t w', exec (.drainTimeout launch wg) s = .next t ∧ tget t.wgs (wgKey launch wg) = some w' ∧ w'.status = .saving ∧
      w'.scratch = w.scratch ∧ t.groups = s.groups) ∧
  (∀ s core key v w, coreIdle s core = true → feStopped s = false →
    (progressVictims s core).find? (fun p => (waitingFor s core p.1).isSome) = some (key, v) →
    tget s.wgs key = some w → v.status = w.status → (wgKern s w).isSome = true →
    ∃ t w', exec (.forwardProgressSave core) s = .next t ∧ tget t.wgs key = some w' ∧
      w'.status = (if w.status = .flushing then .flushing else .saving) ∧ w'.scratch = w.scratch ∧ t.groups = s.groups)

/-- R206, R240, R266, R323, R330, R355, R378, R380, R384: a group of a DET launch that has retired its quantum, or has parked, ends it; the commit
makes a group's buffered stores in their order, begins the next quantum, and leaves memory and scratchpads as every group sees them till the next; a
launch all of whose work has ended adds to its signal and frees what it held; firmware halts a running launch.
R172, R206, R226, R232: of a group that parked for it the commit performs the SLDA, VATOM, BARA or BARAW (their word forms here) or LAUNCH, with
its old value, phase or status, and a BARAW whose phase is not over waits on. That their checks are made there is the model's choice (log 89). -/
def Obligations.LaunchesCommitAndEnd : Prop :=
  (∀ s k g w l, Resident s k g w l → l.kern.det = true → l.kern.quantum ≤ g.detCount ∨ isParked g = true →
    exec (.quantumEnd k) s = .next (putGroup s k { g with detEnded := true })) ∧
  (∀ s lid l, tget s.launches lid = some l → commitReady s lid l = true →
    ∃ t l', exec (.detCommit lid) s = .next t ∧ tget t.launches lid = some l' ∧ l'.quantum = l.quantum + 1 ∧ l'.left = [] ∧
      l'.shown = some (t.mem, t.mpoison) ∧ (∀ key w, tget t.wgs key = some w → w.launch = lid → w.shown = some (w.scratch, w.spoison)) ∧
      (∀ k g, tget t.groups k = some g → g.launch = lid → g.detCount = 0 ∧ g.detEnded = false ∧ g.detOps = []) ∧
      ∀ k g w, s.groups = [(k, g)] → Resident s k g w l → g.launch = lid → s.ops = [] → s.tables = [] → (getPoint s l.domain).waiting = [] →
        l.left = [] → l.carried = [] → (∀ e ∈ s.wgs, e.2.launch = lid → e.2.status ≠ .saved) →
        g.status = .run → g.detOps = [] → g.candidates = [] →
        PadIs t (gWg g) (g.detBuf.foldl (fun m st => storedAt st.1 (st.2.map (fun b => b.1)) m) (padOf w))) ∧
  (∀ s lid k g l c, let s1 := atCommitOf s lid k g
    let pad (t : State) (m : Nat → Byte) : Prop := PadIs t (gWg g) m
    (∀ f, ParkedAlone s lid k (.slda f) c g l →
      let off : Int := (sval c.g f.lit f.sa).toInt + f.imm.toInt
      let w := 2 ^ (f.md.extractLsb' 0 2).toNat
      let old := numAt (padOf c.w) off.toNat w
      let new := atomNew (f.md.extractLsb' 4 4).toNat (8 * w) (f.md.getLsbD 2) old ((sval c.g f.lit f.sb).toNat % 2 ^ (8 * w))
        ((sval c.g f.lit f.sc).toNat % 2 ^ (8 * w))
      checkAcc s1 c false true true [⟨0, off, w⟩] = none →
      CommitRetires s lid (.slda f) c (fun t g' => pad t (storedAt off.toNat (bytesOf w new) (padOf c.w)) ∧
        OnlyScalar c.g g' f.sd.toNat
          (if f.md.getLsbD 2 ∧ 2 ^ (8 * w - 1) ≤ old then BitVec.ofInt 64 ((old : Int) - 2 ^ (8 * w)) else BitVec.ofNat 64 old))) ∧
    (∀ f, ParkedAlone s lid k (.vatom f) c g l →
      let w := typeBits f.ty.toNat / 8
      let lanes := (List.range 128).filter (active c f.sp)
      let at' (l : Nat) : Int := ((lane (srcLanes s1 c f.lit f.va.toNat 1) l).toNat : Int) + f.imm.toInt
      let off (l : Nat) : Nat := (at' l).toNat
      let rmw (x l : Nat) : Nat := atomNew (f.md.extractLsb' 5 4).toNat (8 * w) (signedType f.ty.toNat) x (lane (opB s1 c f) l).toNat
        (lane (opC s1 c f) l).toNat
      let met (a upTo : Nat) : Nat := (lanes.filter (fun l => decide (off l = a) && decide (l < upTo))).foldl rmw (numAt (padOf c.w) a w)
      (w = 4 ∨ w = 8) → checkAcc s1 c true true true (lanes.map (fun l => ⟨l, at' l, w⟩)) = none →
      CommitRetires s lid (.vatom f) c (fun t g' =>
        pad t (fun a => if lanes.any (fun l => decide (off l = a / w * w)) then (bytesOf w (met (a / w * w) 128)).getD (a % w) 0 else padOf c.w a) ∧
        LanesWritten c.g g' f.vd.toNat (typeBits f.ty.toNat) (active c f.sp) (fun l => BitVec.ofNat 64 (met (off l) l)))) ∧
    (∀ f, f.md.getLsbD 0 = false →
      let off : Int := (sval c.g f.lit f.sa).toInt + f.imm.toInt
      let word := numAt (padOf c.w) off.toNat 8
      let phase := word / 2 ^ 32
      let arrived := word / 2 ^ 16 % 2 ^ 16 + 1
      let expected := word % 2 ^ 16
      let next := if expected ≤ arrived then (phase + 1) % 2 ^ 32 * 2 ^ 32 + expected else phase * 2 ^ 32 + arrived * 2 ^ 16 + expected
      let arrives (t : State) (g' : Group) : Prop :=
        pad t (storedAt off.toNat (bytesOf 8 next) (padOf c.w)) ∧ OnlyScalar c.g g' f.sd.toNat (BitVec.ofNat 64 phase)
      checkAcc s1 c false true true [⟨0, off, 8⟩] = none →
      (ParkedAlone s lid k (.bara f) c g l → CommitRetires s lid (.bara f) c arrives) ∧
      (ParkedAlone s lid k (.baraw f) c g l → c.g.barw = none →
        (expected ≤ arrived → CommitRetires s lid (.baraw f) c arrives) ∧
        (arrived < expected → ∃ t g', exec (.detCommit lid) s = .next t ∧ tget t.groups k = some g' ∧ g'.pc = g.pc ∧
          g'.status = .parked (.barWord off.toNat (BitVec.ofNat 32 phase)) ∧ arrives t g'))) ∧
    (∀ f, ParkedAlone s lid k (.launch f) c g l →
      let q := (sval c.g f.lit f.sa).toNat
      let o := sval c.g f.lit f.sb
      let img := (scratchRead s1 c.g o.toNat 64).map (fun b => b.1)
      let s2 := lookQueue s1 q
      let d := qDesc s2 q
      let x := getQ s2 q
      q ≤ 1023 → o.toInt % 64 = 0 → img.headD 0 = 1 →
      checkAcc s1 c false true false ((List.range 8).map (fun (j : Nat) => ⟨0, o.toInt + 8 * (j : Int), 8⟩)) = none →
      (d.active = false ∨ d.submit = true ∨ d.asid ≠ c.l.asid →
        CommitRetires s lid (.launch f) c (fun _ g' => OnlyScalar c.g g' f.sd.toNat 2)) ∧
      (d.active = true → d.submit = false → d.asid = c.l.asid → (x.wridx - x.rdidx).toNat = 2 ^ d.logsize →
        CommitRetires s lid (.launch f) c (fun _ g' => OnlyScalar c.g g' f.sd.toNat 1)) ∧
      (∀ ds seen s3 seen3, d.active = true → d.submit = false → d.asid = c.l.asid → (x.wridx - x.rdidx).toNat ≠ 2 ^ d.logsize →
        spRead s2 (.asid d.asid) (d.rbase + 64 * (x.wridx.toNat % 2 ^ d.logsize)) 64 = .ok (ds, seen) → (∀ b ∈ ds, b.2 = false) →
        spWrite s2 (.asid d.asid) (d.rbase + 64 * (x.wridx.toNat % 2 ^ d.logsize)) (clean img) = .ok (s3, seen3) → seen3.testBit 3 = false →
        CommitRetires s lid (.launch f) c (fun t g' => OnlyScalar c.g g' f.sd.toNat 0 ∧ getQ t q = { x with wridx := x.wridx + 1 } ∧
          t.mem = (putQ s3 q { x with wridx := x.wridx + 1 }).mem)))) ∧
  (∀ s lid l, tget s.launches lid = some l → launchOver s lid l = true →
    ∃ t l', exec (.launchEnd lid) s = .next t ∧ tget t.launches lid = some l' ∧ l'.status = .ended ∧ l'.leaves = [] ∧
      (∀ k g, tget t.groups k = some g → g.launch ≠ lid) ∧ (∀ key w, tget t.wgs key = some w → w.launch ≠ lid) ∧
      (l.sigva = 0 → t.mem = s.mem) ∧
      ∀ pa, l.sigva ≠ 0 → MapsTo s (.asid l.asid) l.sigva.toNat 8 pa → poisonIn s.mpoison pa 8 = false →
        memNat t pa 8 = (memNat s pa 8 + l.sigadd.toNat) % 2 ^ 64 ∧ OnlyAt s t pa 8) ∧
  (∀ s lid l, tget s.launches lid = some l → l.status = .running →
    ∃ t l', exec (.firmwareLaunchHalt lid) s = .next t ∧ Halted s t lid ∧ tget t.launches lid = some l' ∧ l'.faulted = true)

/-! ## Residency and the I/O die -/

/-- R383, R387 to R391: a window of 2^20 accesses that has closed is reported where its class says so, with its units queued for the die that
issued most of the accesses; a write of RDIDX, of ENABLE or its clearing changes the header, and clearing it drops the units that are not held; a
unit that no lease pins moves: its pages' bytes, their leaf, and later host accesses follow; a copy that meets uncorrectable data leaves it poisoned
where it is. That a unit whose migration is over with ENABLE clear is no longer held at once is the model's reading (log 17). -/
def Obligations.ResidencyEvents : Prop :=
  (∀ s launch range misses die l r, tget s.launches launch = some l → l.ranges[range]? = some r → notifyOn s = true → misses ≤ 2 ^ 20 →
    (launch, range, die) ∈ s.res.full → range ∉ l.queued →
    (r.cls = 1 ∧ 4 * misses < 2 ^ 20) ∨ (r.cls = 2 ∧ 7 * 2 ^ 20 < 8 * misses) ∨ (r.cls = 3 ∧ 2 ^ 20 < 2 * misses) ∨ (r.cls = 4 ∧ 2 * misses < 2 ^ 20) →
    s.res.kept = [] → ringFull s s.info.nqhdr.toNat = false →
    let hdr := s.info.nqhdr.toNat
    let slot := memNat s hdr 8 + 32 * (memNat s (hdr + 16) 4 % 2 ^ memNat s (hdr + 8) 1)
    let auto := (memNat s (hdr + 9) 1).testBit 1
    ∃ t, exec (.notifyWindowClose launch range misses die) s = .next t ∧ t.res.full = s.res.full.erase (launch, range, die) ∧
      (slot + 32 ≤ hdr ∨ hdr + 64 ≤ slot →
        memNat t (hdr + 16) 4 = (memNat s (hdr + 16) 4 + 1) % 2 ^ 32 ∧ memNat t slot 8 = s.pt.toNat ∧ memByte t (slot + 8) = 1 ∧
        memByte t (slot + 10) = BitVec.ofNat 8 range ∧ memNat t (slot + 12) 4 = launch % 2 ^ 32 ∧ memNat t (slot + 16) 8 = r.base.toNat ∧
        memNat t (slot + 24) 4 = misses) ∧
      (auto = false ∨ r.cls = 1 ∨ r.cls = 4 → t.res.units = s.res.units ∧ t.launches = s.launches) ∧
      ∀ f, findLeaf l.leaves r.base.toNat = some f → auto = true → r.cls = 2 ∨ r.cls = 3 →
        (Config.ownerDie (leafPa f r.base.toNat)).val ≠ die ∨ Config.hostMemory (leafPa f r.base.toNat) = true →
        (∃ l', tget t.launches launch = some l' ∧ range ∈ l'.queued) ∧
        ∀ va ∈ rangeUnits r, ∃ u ∈ t.res.units, u.asid = l.asid ∧ u.va = va ∧ (u ∈ s.res.units ∨ u = ⟨l.asid, va, die, false, 0, false, false⟩)) ∧
  (∀ s v, s.info.bootstate ≠ 2 → ∃ t, exec (.notifyRdidxWrite v) s = .next t ∧
    (s.res.kept = [] → s.res.pending = [] → memNat t (s.info.nqhdr.toNat + 20) 4 = v.toNat ∧ OnlyAt s t (s.info.nqhdr.toNat + 20) 4) ∧
    (s.fe.queues = [] → t.agenda = s.agenda)) ∧
  (∀ s automig, s.info.bootstate ≠ 2 → s.res.kept = [] → s.res.pending = [] →
    ∃ t, exec (.notifyEnable automig) s = .next t ∧ memByte t (s.info.nqhdr.toNat + 9) = (if automig then 3 else 1) ∧
      OnlyAt s t (s.info.nqhdr.toNat + 9) 1) ∧
  (∀ s, s.info.bootstate ≠ 2 → ∃ t, exec .notifyDisable s = .next t ∧ (memByte t (s.info.nqhdr.toNat + 9)).getLsbD 0 = false ∧
    (∀ j, j ≠ 0 → (memByte t (s.info.nqhdr.toNat + 9)).getLsbD j = (memByte s (s.info.nqhdr.toNat + 9)).getLsbD j) ∧
    OnlyAt s t (s.info.nqhdr.toNat + 9) 1 ∧ (∀ u, u ∈ t.res.units ↔ u ∈ s.res.units ∧ u.held = true ∧ u.done = false)) ∧
  (∀ s asid va frame bramble u f, s.res.units.find? (fun u => u.asid == asid && u.va == va.toNat && !u.done) = some u →
    feStopped s = false → unitLeaves s asid u.va = [f] → unitPinned s [f] = false → frameFree s u [f] frame.toNat bramble.toNat = true → f.va = u.va →
    (unitPoisoned s [f] = false → u.tries < 3 →
      ∃ t, exec (.migrationUnit asid va ⟨frame, bramble⟩ .faulted) s = .next t ∧ t.mem = s.mem ∧
        ({ u with held := true, tries := u.tries + 1 } : MigUnit) ∈ t.res.units) ∧
    (∀ off, off < f.size → notifyOn s = false → s.sk = [] →
      ∃ t, exec (.migrationUnit asid va ⟨frame, bramble⟩ (.poisoned 0 off)) s = .next t ∧ t.mem = s.mem ∧
        poisonIn t.mpoison (f.pa + off) 1 = true ∧ ∀ v ∈ t.res.units, ¬(v.asid = asid ∧ v.va = u.va)) ∧
    (unitPoisoned s [f] = false → notifyOn s = false → f.sk = false → (f.pa + f.size ≤ frame.toNat ∨ frame.toNat + f.size ≤ f.pa) →
      let a := pteAddr s asid f.va
      (a + 8 ≤ frame.toNat ∨ frame.toNat + f.size ≤ a) →
      (∀ b, b = s.info.nqhdr.toNat + 9 → (b < frame.toNat ∨ frame.toNat + f.size ≤ b) ∧ (b < a ∨ a + 8 ≤ b)) →
      ∃ t, exec (.migrationUnit asid va ⟨frame, bramble⟩ .copied) s = .next t ∧
        (∀ j, j < f.size → memByte t (frame.toNat + j) = memByte s (f.pa + j)) ∧
        memNat t a 8 = (memNat s a 8 % 2 ^ 12 + frame.toNat) % 2 ^ 64 ∧
        (∀ b, b < frame.toNat ∨ frame.toNat + f.size ≤ b → b < a ∨ a + 8 ≤ b → memByte t b = memByte s b) ∧
        (⟨f.pa, frame.toNat, f.size, none⟩ : Redirect) ∈ t.res.redirects ∧ ∀ v ∈ t.res.units, ¬(v.asid = asid ∧ v.va = u.va)))

/-- R273, R281, R390, R399, R400, R403, R409: an access of the host through CXL.mem is made at the address, or at the new frame of a page that has
moved: a read returns the bytes, and a write stores them or, on a sibling-keeping page, is a blind write of a whole cell; BAR 0 reads as the
information block; a frozen function changes nothing; a freeze is recorded, and a function-level reset ends it. That HOST_SK_ACCESS takes the words
it names as cells, whatever page they lie on, is the model's choice (log 20). -/
def Obligations.HostAccesses : Prop :=
  (∀ s fn pa dst bytes, hostMay s fn = true → accessHeld s (.write pa bytes) = false →
    (∀ j, j < bytes.length → redirected s (pa + j) = dst + j) →
    ((∀ j, j < bytes.length → skAt s (dst + j) = false) →
      ∃ t, exec (.hostCxlMemAccess fn (.write pa bytes)) s = .next t ∧ ∀ b, memByte t b = storedAt dst bytes (memByte s) b) ∧
    (∀ i, i = .hostSkAccess fn (.write pa bytes) ∨ (i = .hostCxlMemAccess fn (.write pa bytes) ∧ skAt s dst = true) →
      pa % 8 = 0 → bytes.length = 8 → (readCell s (dst / 8)).sibs.length < 4 → (readCell s (dst / 8)).ctr ≠ BitVec.allOnes 24 →
      ∃ t, exec i s = .next t ∧
        let k := readCell s (dst / 8)
        readCell t (dst / 8) = { k with ctr := k.ctr + 1, sibs := k.sibs ++ [⟨BitVec.ofNat 64 (ofBytes bytes), k.g, k.ctr + 1, false⟩] })) ∧
  (∀ s fn pa dst n i, hostMay s fn = true → accessHeld s (.read pa n) = false → (∀ j, j < n → redirected s (pa + j) = dst + j) →
    i = .hostCxlMemAccess fn (.read pa n) ∨ i = .hostSkAccess fn (.read pa n) →
    exec i s = .next { s with hostData := (List.range n).map (fun j => (memByte s (dst + j), mget false s.mpoison ((dst + j) / 8))) }) ∧
  (∀ s off n, 0 ∉ s.frozenFns → off + n ≤ 65536 →
    exec (.hostCxlMemAccess 0 (.bar0 off n)) s =
      .next { s with hostData := (List.range n).map (fun j => ((infoBytes s).getD (off + j) 0, false)) }) ∧
  (∀ s fn a, fn ∈ s.frozenFns → exec (.hostCxlMemAccess fn a) s = .next s ∧ exec (.hostSkAccess fn a) s = .next s) ∧
  (∀ s fn addr, fn ∉ s.frozenFns → ∃ t, exec (.hostFunctionFreeze fn addr) s = .next t ∧ t.frozenFns = s.frozenFns ++ [fn] ∧
    Recorded s t (recordNow s 0x45 4 0 (BitVec.ofNat 64 fn) addr 0)) ∧
  (∀ s fn, ∃ t, exec (.functionLevelReset fn) s = .next t ∧ fn ∉ t.frozenFns ∧ ∀ x, x ≠ fn → (x ∈ t.frozenFns ↔ x ∈ s.frozenFns))

/-- R33, R365, R396 to R398, R400, R410: after I/O-die reset pod time is zero, nothing is resident and memory is kept but for the descriptor table,
which is zero, the boot log and the port table, which says which links have trained; an image that fails its check stops the boot; the host asks for a
report, which answers with the nonce, the log and a signature; a lock-step mismatch halts every launch. The order of the report's bytes (log 21), what
a failed boot leaves (log 22), memory kept over the reset (log 23) and that a write of part of PWRLIM or ATTCTL is ignored (log 103) are the
model's choices. -/
def Obligations.BootAndTrust : Prop :=
  (∀ s c, (∀ i ∈ bootImages c, i.digestOk = true ∧ i.signatureOk = true) → choiceOk c = true →
    (c.logaddr.toNat + (bootLog c).length ≤ c.porttab.toNat ∨ c.porttab.toNat + 128 ≤ c.logaddr.toNat) →
    ∃ t, exec (.ioDieReset c) s = .next t ∧ t.pt = 0 ∧ t.groups = [] ∧ t.launches = [] ∧ t.wgs = [] ∧ t.ops = [] ∧ t.fe.queues = [] ∧
      t.info.bootstate = 1 ∧ t.info.podstate = 0 ∧ t.info.pkgnum = c.pkgnum ∧ t.info.qtbase = c.qtbase ∧ t.info.asidtab = c.asidtab ∧
      t.info.evhdr = c.evhdr ∧ t.info.nqhdr = c.nqhdr ∧ t.fe.drainBudget = c.drainBudget ∧
      (∀ p, p < 16 → (∀ far, c.ports.getD p none = some far → p ∈ t.coll.active ∧
          memNat t (c.porttab.toNat + 8 * p) 8 = 2 ^ 15 + (if far.toNat.testBit 14 then 2 ^ 14 else far.toNat % 2 ^ 12)) ∧
        (c.ports.getD p none = none → p ∉ t.coll.active ∧ memNat t (c.porttab.toNat + 8 * p) 8 = 0)) ∧
      (∀ j b, (bootLog c)[j]? = some b → memByte t (c.logaddr.toNat + j) = b) ∧
      ∀ b, b < c.logaddr.toNat ∨ c.logaddr.toNat + (bootLog c).length ≤ b → b < c.porttab.toNat ∨ c.porttab.toNat + 128 ≤ b →
        memByte t b = if c.qtbase.toNat ≤ b ∧ b < c.qtbase.toNat + 131072 then 0 else memByte s b) ∧
  (∀ s c, (∃ i ∈ bootImages c, i.digestOk = false ∨ i.signatureOk = false) →
    ∃ t, exec (.ioDieReset c) s = .next t ∧ t.info.bootstate = 2 ∧ t.mem = s.mem ∧ t.groups = [] ∧ t.pt = 0) ∧
  (∀ s, s.info.bootstate = 1 → 0 ∉ s.frozenFns →
    exec (.attestationRequest (.request 0)) s = .next { s with info := { s.info with attctl := 1 } }) ∧
  (∀ s, s.info.bootstate = 1 → s.info.attctl = 1 → s.info.attnonce.length = 32 →
    let said := s.info.attnonce ++ sha512 s.info.bootlog ++ s.info.bootlog ++ bytesOf 2 s.info.pkgnum.toNat
    ∃ t, exec (.attestationRequest .answer) s = .next t ∧ t.info.attctl = 2 ∧
      ∀ j b, (said ++ padTo 64 (Config.identitySign said))[j]? = some b → memByte t (s.info.attreport.toNat + j) = b) ∧
  (∀ s off bytes, s.info.attnonce.length = 32 → 0 ∉ s.frozenFns →
    let word (a : Nat) : BitVec 32 := BitVec.ofNat 32 (ofBytes ((List.range 4).map (fun j => bytes.getD (a - off + j) 0)))
    let covers (a : Nat) : Prop := off ≤ a ∧ a + 4 ≤ off + bytes.length
    ∃ t, exec (.infoBlockWrite ⟨0, off⟩ bytes) s = .next t ∧
      t = { s with info := { s.info with attnonce := t.info.attnonce, pwrlim := t.info.pwrlim, attctl := t.info.attctl } } ∧
      (∀ j, j < 32 → t.info.attnonce.getD j 0 = if off ≤ 0x48 + j ∧ 0x48 + j < off + bytes.length then bytes.getD (0x48 + j - off) 0
        else s.info.attnonce.getD j 0) ∧
      (covers 0x30 → 500 ≤ (word 0x30).toNat ∧ (word 0x30).toNat ≤ 2000 → t.info.pwrlim = word 0x30) ∧
      (¬covers 0x30 ∨ (word 0x30).toNat < 500 ∨ 2000 < (word 0x30).toNat → t.info.pwrlim = s.info.pwrlim) ∧
      (covers 0x68 → t.info.attctl = word 0x68) ∧ (¬covers 0x68 → t.info.attctl = s.info.attctl)) ∧
  (∀ s fn off bytes limit, fn ≠ 0 ∨ fn ∈ s.frozenFns → exec (.infoBlockWrite ⟨fn, off⟩ bytes) s = .next s ∧ exec (.pwrlimWrite ⟨fn, limit⟩) s = .next s) ∧
  (∀ s, ∃ t, exec .lockstep s = .next t ∧ t.fe.stopped = true ∧
    ∀ lid l, tget s.launches lid = some l → l.status ≠ .ended → Halted s t lid)

/-- R401, R402, R404 to R408, R410: power limits in range are taken, telemetry is refreshed with the clock lower above the limit and at its minimum
above 100 °C, with a record; above 110 °C every launch halts; ports train and fail; corrected errors are counted, uncorrectable ones poison, and
one in an active queue's descriptor faults the queue; scrubbing and row repair change no value; records go to the event ring. That the clock falls
by one step of 100 MHz, that firmware's clock is cut to such a step and that each reading above 100 °C makes a record (log 24), and that the old
far end of a port that fails to train is excluded (log 25), are the model's choices. -/
def Obligations.PowerLinksAndErrors : Prop :=
  (∀ s (limit : BitVec 32), 0 ∉ s.frozenFns → exec (.pwrlimWrite ⟨0, limit⟩) s =
    .next (if 500 ≤ limit.toNat ∧ limit.toNat ≤ 2000 then { s with info := { s.info with pwrlim := limit } } else s)) ∧
  (∀ s (pwr : BitVec 32) (tj clk : BitVec 16), ∃ t, exec (.telemetryRefresh pwr tj clk) s = .next t ∧ t.info.pwr = pwr ∧ t.info.tjmax = tj ∧
    (800 < tj.toNat → t.info.clkmhz = 1000) ∧
    (1000 ≤ t.info.clkmhz.toNat ∨ (tj.toNat ≤ 800 ∧ s.info.pwrlim.toNat < pwr.toNat)) ∧
    (tj.toNat ≤ 800 → pwr.toNat ≤ s.info.pwrlim.toNat → 1000 ≤ clk.toNat → clk.toNat ≤ 2500 → t.info.clkmhz.toNat = clk.toNat / 100 * 100) ∧
    (tj.toNat ≤ 800 → s.info.pwrlim.toNat < pwr.toNat → t.info.clkmhz.toNat = max 1000 (s.info.clkmhz.toNat - 100)) ∧
    (800 < tj.toNat → Recorded s t (recordNow s 0x44 5 0 0 (tj.setWidth 64) 0)) ∧
    (880 < tj.toNat → t.fe.stopped = true ∧ ∀ lid l, tget s.launches lid = some l → l.status ≠ .ended → Halted s t lid)) ∧
  (∀ s (tj : BitVec 16), ∃ t, exec (.thermal tj) s = .next t ∧ t.info.tjmax = tj ∧
    (tj.toNat ≤ 800 → t = { s with info := { s.info with tjmax := tj } }) ∧
    (800 < tj.toNat → t.info.clkmhz = 1000 ∧ Recorded s t (recordNow s 0x44 5 0 0 (tj.setWidth 64) 0)) ∧
    (880 < tj.toNat → t.fe.stopped = true ∧ ∀ lid l, tget s.launches lid = some l → l.status ≠ .ended → Halted s t lid)) ∧
  (∀ s port (farEnd : DWord), s.info.bootstate ≠ 2 → port < 16 → farEnd.toNat.testBit 14 = false →
    (∃ t, exec (.linkTraining port true farEnd) s = .next t ∧ port ∈ t.coll.active ∧
      memNat t (s.info.porttab.toNat + 8 * port) 8 = 2 ^ 15 + farEnd.toNat % 2 ^ 12 ∧ OnlyAt s t (s.info.porttab.toNat + 8 * port) 8) ∧
    (∃ t, exec (.linkTraining port false farEnd) s = .next t ∧ port ∉ t.coll.active ∧
      (let e := memNat s (s.info.porttab.toNat + 8 * port) 8
       e.testBit 15 = true → e.testBit 14 = false → e % 2 ^ 12 ∈ t.coll.excluded))) ∧
  (∀ s n pa, ∃ t, exec (.eccCorrected ⟨n, pa⟩) s = .next t ∧ t.info.corrected = s.info.corrected + BitVec.ofNat 64 n ∧
    (let second := s.info.eccSince.toNat + 4000000000
     let before := if second ≤ s.pt.toNat then 0 else s.info.eccWindow
     t.info.eccWindow = before + n ∧
       (before ≤ 1000 → 1000 < before + n → Recorded s t (recordNow s 0x43 6 0 (BitVec.ofNat 64 (pa / 128 * 128)) 0 0)) ∧ (before + n ≤ 1000 → t.mem = s.mem ∧ t.evHeld = s.evHeld))) ∧
  (∀ s pa, tget s.sk (pa / 8) = none →
    let inDesc (q : Nat) : Prop := q < 1024 ∧ s.info.qtbase.toNat + 128 * q ≤ pa ∧ pa < s.info.qtbase.toNat + 128 * q + 128
    ((∀ q, inDesc q → (qDesc s q).active = false) →
      exec (.eccUncorrectable (.mem pa)) s = .next { s with mpoison := mset false s.mpoison (pa / 8) true }) ∧
    ∀ q, q < 1024 → s.info.bootstate = 1 → (qDesc s q).active = true → (getQ s q).known = true → (getQ s q).qstate ≠ 3 →
      ∀ i, (i = .eccUncorrectable (.mem pa) ∧ inDesc q) ∨ i = .eccUncorrectable (.queueState q) →
        ∃ t, exec i s = .next t ∧ (getQ t q).qstate = 3 ∧ (getQ t q).qfcode = 8 ∧ (getQ t q).qfpt = s.pt ∧ (getQ t q).rdidx = (getQ s q).rdidx ∧
          (i = .eccUncorrectable (.mem pa) → poisonIn t.mpoison pa 1 = true)) ∧
  (∀ s pa lost, ∃ t, exec (.eccUncorrectable (.skCell pa lost)) s = .next t ∧
    (readCell t (pa / 8)).sibs.map (fun x => (x.v, x.poison)) = (readCell s (pa / 8)).sibs.map (fun x => (x.v, true))) ∧
  (∀ s launch wg off w l, tget s.wgs (wgKey launch wg) = some w → tget s.launches launch = some l → off < l.kern.scratch →
    exec (.eccUncorrectable (.scratch launch wg off)) s =
      .next (putWg s (wgKey launch wg) { w with spoison := mset false w.spoison (off / 8) true })) ∧
  (∀ s k g w l, Resident s k g w l → ∃ t, exec (.eccUncorrectable (.groupState k)) s = .next t ∧ Halted s t g.launch) ∧
  (∀ s pa, exec (.scrubbing pa) s = .next s ∧ exec (.hbmRowRepair pa) s = .next s) ∧
  (∀ s r, ∃ t, exec (.eventRecord r) s = .next t ∧ Recorded s t { r with pt := s.pt }) ∧
  (∀ s (v : BitVec 32), s.info.bootstate ≠ 2 → s.evHeld = [] → ∃ t, exec (.eventRingRoom v) s = .next t ∧ memNat t (s.info.evhdr.toNat + 20) 4 = v.toNat ∧
    OnlyAt s t (s.info.evhdr.toNat + 20) 4)

/-! ## Encoding, fetching, and the machine as a whole -/

/-- R56 to R77, R80: decoding the words of a well-formed instruction gives it back, with every operand at every value its encoding
admits; so does SUBMIT's word on a Staith core. -/
def Obligations.DecodeOfEncode : Prop :=
  (∀ vregs i, i.wellFormed vregs = true → decode vregs (encode i) = .ok i) ∧
  (∀ f : RT, decodeSubmit ((encode (.submit f)).headD 0) = some f)

/-- R56 to R80: what the decoder accepts is a well-formed instruction, and the words it was read from begin with that instruction's; no two
encodings stand for one instruction. -/
def Obligations.EncodeOfDecode : Prop :=
  (∀ vregs ws i, decode vregs ws = .ok i → i.wellFormed vregs = true ∧ ∃ rest, ws = encode i ++ rest) ∧
  (∀ w f, decodeSubmit w = some f → encode (.submit f) = [w])

/-- R62 to R70, R76, R77: words written out from the encodings, and the instructions they stand for. -/
def Obligations.WordsDecode : Prop :=
  decode 384 [0x00000000] = .ok (.nop {}) ∧
  decode 384 [0x02003050] = .ok (.sadd { sd := 3, sa := 5 }) ∧
  decode 384 [0x0103FFFF] = .ok (.wait { ld := 0, st := 63, tile := 63, coll := 63 }) ∧
  decode 384 [0x052FFFFF] = .ok (.brc { cond := 2, off := 0xFFFFF }) ∧
  decode 384 [0x03078000] = .ok (.saddi { sd := 7, imm := 0x8000 }) ∧
  decode 384 [0x840A0000, 0x89ABCDEF, 0x01234567] = .ok (.sliLit { sd := 10, imm := 0, lit := 0x0123456789ABCDEF }) ∧
  decode 384 [0x48000107, 0x02000000, 0xFFFFFFF8] = .ok (.sld { sd := 1, md := 7, sa := 2, imm := 0xFFFFFFF8 }) ∧
  decodeSubmit 0x00C5850B = some { rd := 10, rs1 := 11, rs2 := 12 }

/-- R57, R58, R78 to R80, R198, R244, and log 1 for the events: the step of an issuing group is exec of the instruction that the words at
its PC decode to; words that cannot be fetched or decoded raise ILLEGAL or OPERAND with the TVAL of R80. A Staith core at a SUBMIT runs
it, and the next event of the agenda runs once its time has passed. That a further word which cannot be fetched comes before what word 0 raises
(log 81), and the agenda that says which event is next (log 1), are the model's choices. -/
def Obligations.StepRunsTheDecodedInstruction : Prop :=
  (∀ s k c, s.cur = some (.group k) → groupCtx s k (.nop {}) = some c → c.g.status = .run → c.l.status = .running →
    (∀ ws i, fetchWords s c.l c.g.pc.toNat = .ok ws → decode c.l.kern.vregs ws = .ok i → step s = exec i s) ∧
    (c.g.log.entries = [] → Handled c →
      (∀ a, fetchWords s c.l c.g.pc.toNat = .error a →
        ∃ t, step s = .next t ∧ Trapped s t c 0x01 0 0 (BitVec.ofNat 64 a)) ∧
      (∀ ws tval, fetchWords s c.l c.g.pc.toNat = .ok ws → decode c.l.kern.vregs ws = .error (.illegal tval) →
        ∃ t, step s = .next t ∧ Trapped s t c 0x01 tval 0 c.g.pc) ∧
      (∀ ws tval, fetchWords s c.l c.g.pc.toNat = .ok ws → decode c.l.kern.vregs ws = .error (.operand tval) →
        ∃ t, step s = .next t ∧ Trapped s t c 0x02 tval 0 c.g.pc))) ∧
  (∀ s h f, s.cur = some (.hart h) → decodeSubmit (BitVec.ofNat 32 (memNat s (getHart s h).pc.toNat 4)) = some f →
    step s = exec (.submit f) s) ∧
  (∀ s a rest, s.cur = none → s.agenda = a :: rest → encode a.what = [] → step s = exec a.what (popAgenda s a rest))

/-- R241: behind a logged access a younger access of the eight kinds goes into the next of four entries, unperformed, and stalls at issue
when they are full; an instruction that is neither independent nor of those kinds makes the TAPE trap taken, with TPC the first entry's
address and its TVAL and TLANE; an independent SMOV retires, and as the eighth independent instruction it brings the trap; FPCSET and FPCGET behind a
logged vector access stall at issue (R204, the model's reading, log 97). That an access with no lane to work on goes into the log too is the model's
reading (log 35). -/
def Obligations.TheOperandLog : Prop :=
  (∀ s i c, Behind s i c → i.isWord = true →
    (loggable i = true → c.g.log.entries.length < 4 →
      exec i s = .next { putGroup s c.k { c.g with
        log := { c.g.log with entries := c.g.log.entries ++ [⟨c.g.pc, i⟩] }, lastIssue := (getCore s c.w.core).clk, pc := after i c }
        with cur := none }) ∧
    (loggable i = true → 4 ≤ c.g.log.entries.length → Stalls i s c) ∧
    (independentOf c.g.log i = true → (∃ f, i = .fpcset f ∨ i = .fpcget f) → (∃ e ∈ c.g.log.entries, isVector e.inst = true) → Stalls i s c) ∧
    (loggable i = false → independentOf c.g.log i = false → c.l.kern.handler ≠ 0 →
      ∃ t, exec i s = .next t ∧
        Trapped s t { c with g := { c.g with log := { c.g.log with resume := c.g.pc, independent := 0 } } } 0x06 c.g.log.tval
          c.g.log.tlane ((c.g.log.entries.map (fun e => e.pc)).headD c.g.pc))) ∧
  (∀ f s c, Behind s (.smov f) c → independentOf c.g.log (.smov f) = true →
    let v := sval c.g f.lit f.sa
    let scc := if f.md.getLsbD 1 then v != 0 else c.g.scc
    (c.g.log.independent + 1 < 8 →
      Retires (.smov f) s c (after (.smov f) c) (fun g' =>
        Counted { c.g with sregs := g'.sregs, scc := scc, log := { c.g.log with independent := c.g.log.independent + 1 } } g' ∧
        sreg g' f.sd.toNat = v ∧ ∀ n, n ≠ f.sd.toNat → sreg g' n = sreg c.g n)) ∧
    (8 ≤ c.g.log.independent + 1 → c.l.kern.handler ≠ 0 →
      ∃ t g', exec (.smov f) s = .next t ∧ tget t.groups c.k = some g' ∧ g'.handler = true ∧ g'.pc = c.l.kern.handler ∧
        sreg g' f.sd.toNat = v ∧ g'.sp.ric = c.g.sp.ric + 1 ∧ g'.log.resume = after (.smov f) c ∧
        g'.sp.tpc = (c.g.log.entries.map (fun e => e.pc)).headD (after (.smov f) c) ∧ g'.sp.tval = c.g.log.tval ∧
        g'.sp.tlane = c.g.log.tlane ∧ g'.sp.tcause = BitVec.ofNat 8 (0x06 + (if scc then 128 else 0))))

/-- Every step keeps the canonical forms of memory, of its poison marks and of the sibling cells: keys rise, and nothing is listed that an
unlisted key reads as. The forms are the model's; R12, R254 and R271 give what they hold. -/
def Obligations.StepKeepsTheCanonicalForms : Prop :=
  ∀ s t, memWf s.mem = true → mapWf false s.mpoison = true → tblWf s.sk = true → step s = .next t →
    memWf t.mem = true ∧ mapWf false t.mpoison = true ∧ tblWf t.sk = true

/-- R33, R173, R220, R348, R365: at I/O-die reset pod time is zero, every queue is inactive and IDLE with its indices and LASTSEQ zero, the
drain budget is 50 µs, and a core's clock begins at zero; nothing is resident, nothing is listed in memory, and the canonical forms
hold. A launched group starts with the values of R173. That unwritten memory reads as zero is the model's choice (log 3). -/
def Obligations.ResetAndGroupStart : Prop :=
  (State.reset.pt = 0 ∧ State.reset.fe.drainBudget = 50 ∧ (∀ n, (getCore State.reset n).clk = 0 ∧ (getCore State.reset n).tape = []) ∧
    (∀ q, (qDesc State.reset q).active = false ∧ (getQ State.reset q).qstate = 0 ∧ (getQ State.reset q).rdidx = 0 ∧
      (getQ State.reset q).wridx = 0 ∧ (getQ State.reset q).lastseq = 0) ∧
    State.reset.groups = [] ∧ State.reset.launches = [] ∧ State.reset.cur = none ∧ (∀ a, memByte State.reset a = 0) ∧
    memWf State.reset.mem = true ∧ mapWf false State.reset.mpoison = true ∧ tblWf State.reset.sk = true) ∧
  (∀ launch wg gidx id part vbase tbase pc,
    let g := groupStart launch wg gidx id part vbase tbase pc
    g.pc = pc ∧ (∀ n, n < 158 → sreg g n = 0) ∧ execMask g = BitVec.allOnes 128 ∧ g.scc = false ∧
    (∀ n l, vlane g n l = 0) ∧ g.pal = 0x1000 ∧ g.fpc = 0 ∧ g.xregs = [] ∧ g.tc = [] ∧ g.tiles = [] ∧ g.tflags = 0 ∧
    g.ld = [] ∧ g.st = [] ∧ g.tile = [] ∧ g.coll = [] ∧ g.handler = false ∧ g.log.entries = [] ∧
    (∀ n, n < 14 → (specialTable g)[n]? = some 0))
end

