-- ==== Sys2Proof/Laws/Encoding.lean ====
section
/-! SUPPORT. The major of an encoded instruction's first word, and with it which instructions are vector instructions (R76, R81). -/

namespace Sys2Proof.Machine

/-- The major of a S2 word. -/
theorem major_S2 (maj : BitVec 6) (fn : BitVec 4) (f : S2) : (((encS2 maj fn f).headD 0).extractLsb' 24 6) = maj := by
  apply BitVec.eq_of_getLsbD_eq
  intro i hi
  simp only [encS2, List.headD_cons, BitVec.getLsbD_extractLsb', BitVec.getLsbD_append, hi, decide_true, Bool.true_and]
  have h : i = 0 ∨ i = 1 ∨ i = 2 ∨ i = 3 ∨ i = 4 ∨ i = 5 := by omega
  rcases h with rfl | rfl | rfl | rfl | rfl | rfl <;> rfl

/-- The major of a SI word. -/
theorem major_SI (maj : BitVec 6) (f : SI) : (((encSI maj f).headD 0).extractLsb' 24 6) = maj := by
  apply BitVec.eq_of_getLsbD_eq
  intro i hi
  simp only [encSI, List.headD_cons, BitVec.getLsbD_extractLsb', BitVec.getLsbD_append, hi, decide_true, Bool.true_and]
  have h : i = 0 ∨ i = 1 ∨ i = 2 ∨ i = 3 ∨ i = 4 ∨ i = 5 := by omega
  rcases h with rfl | rfl | rfl | rfl | rfl | rfl <;> rfl

/-- The major of a SIL word. -/
theorem major_SIL (maj : BitVec 6) (f : SIL) : (((encSIL maj f).headD 0).extractLsb' 24 6) = maj := by
  apply BitVec.eq_of_getLsbD_eq
  intro i hi
  simp only [encSIL, List.headD_cons, BitVec.getLsbD_extractLsb', BitVec.getLsbD_append, hi, decide_true, Bool.true_and]
  have h : i = 0 ∨ i = 1 ∨ i = 2 ∨ i = 3 ∨ i = 4 ∨ i = 5 := by omega
  rcases h with rfl | rfl | rfl | rfl | rfl | rfl <;> rfl

/-- The major of a SB word. -/
theorem major_SB (maj : BitVec 6) (f : SB) : (((encSB maj f).headD 0).extractLsb' 24 6) = maj := by
  apply BitVec.eq_of_getLsbD_eq
  intro i hi
  simp only [encSB, List.headD_cons, BitVec.getLsbD_extractLsb', BitVec.getLsbD_append, hi, decide_true, Bool.true_and]
  have h : i = 0 ∨ i = 1 ∨ i = 2 ∨ i = 3 ∨ i = 4 ∨ i = 5 := by omega
  rcases h with rfl | rfl | rfl | rfl | rfl | rfl <;> rfl

/-- The major of a WF word. -/
theorem major_WF (maj : BitVec 6) (f : WF) : (((encWF maj f).headD 0).extractLsb' 24 6) = maj := by
  apply BitVec.eq_of_getLsbD_eq
  intro i hi
  simp only [encWF, List.headD_cons, BitVec.getLsbD_extractLsb', BitVec.getLsbD_append, hi, decide_true, Bool.true_and]
  have h : i = 0 ∨ i = 1 ∨ i = 2 ∨ i = 3 ∨ i = 4 ∨ i = 5 := by omega
  rcases h with rfl | rfl | rfl | rfl | rfl | rfl <;> rfl

/-- The major of a SX word. -/
theorem major_SX (maj : BitVec 6) (fn : BitVec 8) (f : SX) : (((encSX maj fn f).headD 0).extractLsb' 24 6) = maj := by
  apply BitVec.eq_of_getLsbD_eq
  intro i hi
  simp only [encSX, List.headD_cons, BitVec.getLsbD_extractLsb', BitVec.getLsbD_append, hi, decide_true, Bool.true_and]
  have h : i = 0 ∨ i = 1 ∨ i = 2 ∨ i = 3 ∨ i = 4 ∨ i = 5 := by omega
  rcases h with rfl | rfl | rfl | rfl | rfl | rfl <;> rfl

/-- The major of a VX word. -/
theorem major_VX (maj : BitVec 6) (fn : BitVec 8) (f : VX) : (((encVX maj fn f).headD 0).extractLsb' 24 6) = maj := by
  apply BitVec.eq_of_getLsbD_eq
  intro i hi
  simp only [encVX, List.headD_cons, BitVec.getLsbD_extractLsb', BitVec.getLsbD_append, hi, decide_true, Bool.true_and]
  have h : i = 0 ∨ i = 1 ∨ i = 2 ∨ i = 3 ∨ i = 4 ∨ i = 5 := by omega
  rcases h with rfl | rfl | rfl | rfl | rfl | rfl <;> rfl

/-- The major of a TX word. -/
theorem major_TX (maj : BitVec 6) (fn : BitVec 8) (f : TX) : (((encTX maj fn f).headD 0).extractLsb' 24 6) = maj := by
  apply BitVec.eq_of_getLsbD_eq
  intro i hi
  simp only [encTX, List.headD_cons, BitVec.getLsbD_extractLsb', BitVec.getLsbD_append, hi, decide_true, Bool.true_and]
  have h : i = 0 ∨ i = 1 ∨ i = 2 ∨ i = 3 ∨ i = 4 ∨ i = 5 := by omega
  rcases h with rfl | rfl | rfl | rfl | rfl | rfl <;> rfl

/-- The major of a CX word. -/
theorem major_CX (maj : BitVec 6) (fn : BitVec 8) (f : CX) : (((encCX maj fn f).headD 0).extractLsb' 24 6) = maj := by
  apply BitVec.eq_of_getLsbD_eq
  intro i hi
  simp only [encCX, List.headD_cons, BitVec.getLsbD_extractLsb', BitVec.getLsbD_append, hi, decide_true, Bool.true_and]
  have h : i = 0 ∨ i = 1 ∨ i = 2 ∨ i = 3 ∨ i = 4 ∨ i = 5 := by omega
  rcases h with rfl | rfl | rfl | rfl | rfl | rfl <;> rfl

/-- The major of a QX word. -/
theorem major_QX (maj : BitVec 6) (fn : BitVec 8) (f : QX) : (((encQX maj fn f).headD 0).extractLsb' 24 6) = maj := by
  apply BitVec.eq_of_getLsbD_eq
  intro i hi
  simp only [encQX, List.headD_cons, BitVec.getLsbD_extractLsb', BitVec.getLsbD_append, hi, decide_true, Bool.true_and]
  have h : i = 0 ∨ i = 1 ∨ i = 2 ∨ i = 3 ∨ i = 4 ∨ i = 5 := by omega
  rcases h with rfl | rfl | rfl | rfl | rfl | rfl <;> rfl

/-- An instruction with words is a vector instruction exactly when its first word's major says so. -/
theorem isVector_of_major (i : Instr) (w : Word) (ws : List Word) (h : encode i = w :: ws) (maj : BitVec 6)
    (hm : ((encode i).headD 0).extractLsb' 24 6 = maj) :
    isVector i = (decide (0x14 ≤ maj.toNat) && decide (maj.toNat ≤ 0x1B)) := by
  subst hm
  simp [isVector, h]

@[simp] theorem isVector_nop (f : S2) : isVector (.nop f) = false :=
  isVector_of_major _ _ _ rfl 0x00 (major_S2 0x00 _ f)
@[simp] theorem isVector_endg (f : S2) : isVector (.endg f) = false :=
  isVector_of_major _ _ _ rfl 0x00 (major_S2 0x00 _ f)
@[simp] theorem isVector_trap (f : S2) : isVector (.trap f) = false :=
  isVector_of_major _ _ _ rfl 0x00 (major_S2 0x00 _ f)
@[simp] theorem isVector_rft (f : S2) : isVector (.rft f) = false :=
  isVector_of_major _ _ _ rfl 0x00 (major_S2 0x00 _ f)
@[simp] theorem isVector_yield (f : S2) : isVector (.yield f) = false :=
  isVector_of_major _ _ _ rfl 0x00 (major_S2 0x00 _ f)
@[simp] theorem isVector_clkr (f : S2) : isVector (.clkr f) = false :=
  isVector_of_major _ _ _ rfl 0x00 (major_S2 0x00 _ f)
@[simp] theorem isVector_idr (f : S2) : isVector (.idr f) = false :=
  isVector_of_major _ _ _ rfl 0x00 (major_S2 0x00 _ f)
@[simp] theorem isVector_sysr (f : S2) : isVector (.sysr f) = false :=
  isVector_of_major _ _ _ rfl 0x00 (major_S2 0x00 _ f)
@[simp] theorem isVector_sysw (f : S2) : isVector (.sysw f) = false :=
  isVector_of_major _ _ _ rfl 0x00 (major_S2 0x00 _ f)
@[simp] theorem isVector_fence (f : S2) : isVector (.fence f) = false :=
  isVector_of_major _ _ _ rfl 0x00 (major_S2 0x00 _ f)
@[simp] theorem isVector_ret (f : S2) : isVector (.ret f) = false :=
  isVector_of_major _ _ _ rfl 0x00 (major_S2 0x00 _ f)
@[simp] theorem isVector_jmp (f : S2) : isVector (.jmp f) = false :=
  isVector_of_major _ _ _ rfl 0x00 (major_S2 0x00 _ f)
@[simp] theorem isVector_wait (f : WF) : isVector (.wait f) = false :=
  isVector_of_major _ _ _ rfl 0x01 (major_WF 0x01 f)
@[simp] theorem isVector_sadd (f : S2) : isVector (.sadd f) = false :=
  isVector_of_major _ _ _ rfl 0x02 (major_S2 0x02 _ f)
@[simp] theorem isVector_ssub (f : S2) : isVector (.ssub f) = false :=
  isVector_of_major _ _ _ rfl 0x02 (major_S2 0x02 _ f)
@[simp] theorem isVector_smul (f : S2) : isVector (.smul f) = false :=
  isVector_of_major _ _ _ rfl 0x02 (major_S2 0x02 _ f)
@[simp] theorem isVector_smulh (f : S2) : isVector (.smulh f) = false :=
  isVector_of_major _ _ _ rfl 0x02 (major_S2 0x02 _ f)
@[simp] theorem isVector_sand (f : S2) : isVector (.sand f) = false :=
  isVector_of_major _ _ _ rfl 0x02 (major_S2 0x02 _ f)
@[simp] theorem isVector_sor (f : S2) : isVector (.sor f) = false :=
  isVector_of_major _ _ _ rfl 0x02 (major_S2 0x02 _ f)
@[simp] theorem isVector_sxor (f : S2) : isVector (.sxor f) = false :=
  isVector_of_major _ _ _ rfl 0x02 (major_S2 0x02 _ f)
@[simp] theorem isVector_sandn (f : S2) : isVector (.sandn f) = false :=
  isVector_of_major _ _ _ rfl 0x02 (major_S2 0x02 _ f)
@[simp] theorem isVector_sshl (f : S2) : isVector (.sshl f) = false :=
  isVector_of_major _ _ _ rfl 0x02 (major_S2 0x02 _ f)
@[simp] theorem isVector_sshr (f : S2) : isVector (.sshr f) = false :=
  isVector_of_major _ _ _ rfl 0x02 (major_S2 0x02 _ f)
@[simp] theorem isVector_ssra (f : S2) : isVector (.ssra f) = false :=
  isVector_of_major _ _ _ rfl 0x02 (major_S2 0x02 _ f)
@[simp] theorem isVector_smin (f : S2) : isVector (.smin f) = false :=
  isVector_of_major _ _ _ rfl 0x02 (major_S2 0x02 _ f)
@[simp] theorem isVector_smax (f : S2) : isVector (.smax f) = false :=
  isVector_of_major _ _ _ rfl 0x02 (major_S2 0x02 _ f)
@[simp] theorem isVector_smov (f : S2) : isVector (.smov f) = false :=
  isVector_of_major _ _ _ rfl 0x02 (major_S2 0x02 _ f)
@[simp] theorem isVector_spopc (f : S2) : isVector (.spopc f) = false :=
  isVector_of_major _ _ _ rfl 0x02 (major_S2 0x02 _ f)
@[simp] theorem isVector_sclz (f : S2) : isVector (.sclz f) = false :=
  isVector_of_major _ _ _ rfl 0x02 (major_S2 0x02 _ f)
@[simp] theorem isVector_saddi (f : SI) : isVector (.saddi f) = false :=
  isVector_of_major _ _ _ rfl 0x03 (major_SI 0x03 f)
@[simp] theorem isVector_sli (f : SI) : isVector (.sli f) = false :=
  isVector_of_major _ _ _ rfl 0x04 (major_SI 0x04 f)
@[simp] theorem isVector_sliLit (f : SIL) : isVector (.sliLit f) = false :=
  isVector_of_major _ _ _ rfl 0x04 (major_SIL 0x04 f)
@[simp] theorem isVector_brc (f : SB) : isVector (.brc f) = false :=
  isVector_of_major _ _ _ rfl 0x05 (major_SB 0x05 f)
@[simp] theorem isVector_call (f : SB) : isVector (.call f) = false :=
  isVector_of_major _ _ _ rfl 0x06 (major_SB 0x06 f)
@[simp] theorem isVector_scmp (f : SX) : isVector (.scmp f) = false :=
  isVector_of_major _ _ _ rfl 0x07 (major_SX 0x07 _ f)
@[simp] theorem isVector_ssel (f : SX) : isVector (.ssel f) = false :=
  isVector_of_major _ _ _ rfl 0x07 (major_SX 0x07 _ f)
@[simp] theorem isVector_sbfx (f : SX) : isVector (.sbfx f) = false :=
  isVector_of_major _ _ _ rfl 0x07 (major_SX 0x07 _ f)
@[simp] theorem isVector_sbfi (f : SX) : isVector (.sbfi f) = false :=
  isVector_of_major _ _ _ rfl 0x07 (major_SX 0x07 _ f)
@[simp] theorem isVector_sld (f : SX) : isVector (.sld f) = false :=
  isVector_of_major _ _ _ rfl 0x08 (major_SX 0x08 _ f)
@[simp] theorem isVector_sst (f : SX) : isVector (.sst f) = false :=
  isVector_of_major _ _ _ rfl 0x08 (major_SX 0x08 _ f)
@[simp] theorem isVector_slda (f : SX) : isVector (.slda f) = false :=
  isVector_of_major _ _ _ rfl 0x08 (major_SX 0x08 _ f)
@[simp] theorem isVector_msplit (f : SX) : isVector (.msplit f) = false :=
  isVector_of_major _ _ _ rfl 0x09 (major_SX 0x09 _ f)
@[simp] theorem isVector_mopen (f : SX) : isVector (.mopen f) = false :=
  isVector_of_major _ _ _ rfl 0x09 (major_SX 0x09 _ f)
@[simp] theorem isVector_marrive (f : SX) : isVector (.marrive f) = false :=
  isVector_of_major _ _ _ rfl 0x09 (major_SX 0x09 _ f)
@[simp] theorem isVector_mjoin (f : SX) : isVector (.mjoin f) = false :=
  isVector_of_major _ _ _ rfl 0x09 (major_SX 0x09 _ f)
@[simp] theorem isVector_mmov (f : SX) : isVector (.mmov f) = false :=
  isVector_of_major _ _ _ rfl 0x09 (major_SX 0x09 _ f)
@[simp] theorem isVector_mpopc (f : SX) : isVector (.mpopc f) = false :=
  isVector_of_major _ _ _ rfl 0x09 (major_SX 0x09 _ f)
@[simp] theorem isVector_palset (f : SX) : isVector (.palset f) = false :=
  isVector_of_major _ _ _ rfl 0x0A (major_SX 0x0A _ f)
@[simp] theorem isVector_palget (f : SX) : isVector (.palget f) = false :=
  isVector_of_major _ _ _ rfl 0x0A (major_SX 0x0A _ f)
@[simp] theorem isVector_fpcset (f : SX) : isVector (.fpcset f) = false :=
  isVector_of_major _ _ _ rfl 0x0A (major_SX 0x0A _ f)
@[simp] theorem isVector_fpcget (f : SX) : isVector (.fpcget f) = false :=
  isVector_of_major _ _ _ rfl 0x0A (major_SX 0x0A _ f)
@[simp] theorem isVector_fork (f : SX) : isVector (.fork f) = false :=
  isVector_of_major _ _ _ rfl 0x0B (major_SX 0x0B _ f)
@[simp] theorem isVector_vfork (f : SX) : isVector (.vfork f) = false :=
  isVector_of_major _ _ _ rfl 0x0B (major_SX 0x0B _ f)
@[simp] theorem isVector_join (f : SX) : isVector (.join f) = false :=
  isVector_of_major _ _ _ rfl 0x0B (major_SX 0x0B _ f)
@[simp] theorem isVector_taskend (f : SX) : isVector (.taskend f) = false :=
  isVector_of_major _ _ _ rfl 0x0B (major_SX 0x0B _ f)
@[simp] theorem isVector_launch (f : SX) : isVector (.launch f) = false :=
  isVector_of_major _ _ _ rfl 0x0B (major_SX 0x0B _ f)
@[simp] theorem isVector_waitw (f : SX) : isVector (.waitw f) = false :=
  isVector_of_major _ _ _ rfl 0x0C (major_SX 0x0C _ f)
@[simp] theorem isVector_bara (f : SX) : isVector (.bara f) = false :=
  isVector_of_major _ _ _ rfl 0x0C (major_SX 0x0C _ f)
@[simp] theorem isVector_barw (f : SX) : isVector (.barw f) = false :=
  isVector_of_major _ _ _ rfl 0x0C (major_SX 0x0C _ f)
@[simp] theorem isVector_baraw (f : SX) : isVector (.baraw f) = false :=
  isVector_of_major _ _ _ rfl 0x0C (major_SX 0x0C _ f)
@[simp] theorem isVector_vadd (f : VX) : isVector (.vadd f) = true :=
  isVector_of_major _ _ _ rfl 0x14 (major_VX 0x14 _ f)
@[simp] theorem isVector_vsub (f : VX) : isVector (.vsub f) = true :=
  isVector_of_major _ _ _ rfl 0x14 (major_VX 0x14 _ f)
@[simp] theorem isVector_vmul (f : VX) : isVector (.vmul f) = true :=
  isVector_of_major _ _ _ rfl 0x14 (major_VX 0x14 _ f)
@[simp] theorem isVector_vmulh (f : VX) : isVector (.vmulh f) = true :=
  isVector_of_major _ _ _ rfl 0x14 (major_VX 0x14 _ f)
@[simp] theorem isVector_vmad (f : VX) : isVector (.vmad f) = true :=
  isVector_of_major _ _ _ rfl 0x14 (major_VX 0x14 _ f)
@[simp] theorem isVector_vabs (f : VX) : isVector (.vabs f) = true :=
  isVector_of_major _ _ _ rfl 0x14 (major_VX 0x14 _ f)
@[simp] theorem isVector_vmin (f : VX) : isVector (.vmin f) = true :=
  isVector_of_major _ _ _ rfl 0x14 (major_VX 0x14 _ f)
@[simp] theorem isVector_vmax (f : VX) : isVector (.vmax f) = true :=
  isVector_of_major _ _ _ rfl 0x14 (major_VX 0x14 _ f)
@[simp] theorem isVector_vand (f : VX) : isVector (.vand f) = true :=
  isVector_of_major _ _ _ rfl 0x15 (major_VX 0x15 _ f)
@[simp] theorem isVector_vor (f : VX) : isVector (.vor f) = true :=
  isVector_of_major _ _ _ rfl 0x15 (major_VX 0x15 _ f)
@[simp] theorem isVector_vxor (f : VX) : isVector (.vxor f) = true :=
  isVector_of_major _ _ _ rfl 0x15 (major_VX 0x15 _ f)
@[simp] theorem isVector_vandn (f : VX) : isVector (.vandn f) = true :=
  isVector_of_major _ _ _ rfl 0x15 (major_VX 0x15 _ f)
@[simp] theorem isVector_vshl (f : VX) : isVector (.vshl f) = true :=
  isVector_of_major _ _ _ rfl 0x15 (major_VX 0x15 _ f)
@[simp] theorem isVector_vshr (f : VX) : isVector (.vshr f) = true :=
  isVector_of_major _ _ _ rfl 0x15 (major_VX 0x15 _ f)
@[simp] theorem isVector_vsra (f : VX) : isVector (.vsra f) = true :=
  isVector_of_major _ _ _ rfl 0x15 (major_VX 0x15 _ f)
@[simp] theorem isVector_vpopc (f : VX) : isVector (.vpopc f) = true :=
  isVector_of_major _ _ _ rfl 0x15 (major_VX 0x15 _ f)
@[simp] theorem isVector_vclz (f : VX) : isVector (.vclz f) = true :=
  isVector_of_major _ _ _ rfl 0x15 (major_VX 0x15 _ f)
@[simp] theorem isVector_vbfx (f : VX) : isVector (.vbfx f) = true :=
  isVector_of_major _ _ _ rfl 0x15 (major_VX 0x15 _ f)
@[simp] theorem isVector_vbfi (f : VX) : isVector (.vbfi f) = true :=
  isVector_of_major _ _ _ rfl 0x15 (major_VX 0x15 _ f)
@[simp] theorem isVector_vcmp (f : VX) : isVector (.vcmp f) = true :=
  isVector_of_major _ _ _ rfl 0x16 (major_VX 0x16 _ f)
@[simp] theorem isVector_vsel (f : VX) : isVector (.vsel f) = true :=
  isVector_of_major _ _ _ rfl 0x16 (major_VX 0x16 _ f)
@[simp] theorem isVector_vmov (f : VX) : isVector (.vmov f) = true :=
  isVector_of_major _ _ _ rfl 0x16 (major_VX 0x16 _ f)
@[simp] theorem isVector_vlane (f : VX) : isVector (.vlane f) = true :=
  isVector_of_major _ _ _ rfl 0x16 (major_VX 0x16 _ f)
@[simp] theorem isVector_vins (f : VX) : isVector (.vins f) = true :=
  isVector_of_major _ _ _ rfl 0x16 (major_VX 0x16 _ f)
@[simp] theorem isVector_vfadd (f : VX) : isVector (.vfadd f) = true :=
  isVector_of_major _ _ _ rfl 0x17 (major_VX 0x17 _ f)
@[simp] theorem isVector_vfsub (f : VX) : isVector (.vfsub f) = true :=
  isVector_of_major _ _ _ rfl 0x17 (major_VX 0x17 _ f)
@[simp] theorem isVector_vfmul (f : VX) : isVector (.vfmul f) = true :=
  isVector_of_major _ _ _ rfl 0x17 (major_VX 0x17 _ f)
@[simp] theorem isVector_vfma (f : VX) : isVector (.vfma f) = true :=
  isVector_of_major _ _ _ rfl 0x17 (major_VX 0x17 _ f)
@[simp] theorem isVector_vfdiv (f : VX) : isVector (.vfdiv f) = true :=
  isVector_of_major _ _ _ rfl 0x17 (major_VX 0x17 _ f)
@[simp] theorem isVector_vfsqrt (f : VX) : isVector (.vfsqrt f) = true :=
  isVector_of_major _ _ _ rfl 0x17 (major_VX 0x17 _ f)
@[simp] theorem isVector_vfmin (f : VX) : isVector (.vfmin f) = true :=
  isVector_of_major _ _ _ rfl 0x17 (major_VX 0x17 _ f)
@[simp] theorem isVector_vfmax (f : VX) : isVector (.vfmax f) = true :=
  isVector_of_major _ _ _ rfl 0x17 (major_VX 0x17 _ f)
@[simp] theorem isVector_vfrcpa (f : VX) : isVector (.vfrcpa f) = true :=
  isVector_of_major _ _ _ rfl 0x17 (major_VX 0x17 _ f)
@[simp] theorem isVector_vfrsqa (f : VX) : isVector (.vfrsqa f) = true :=
  isVector_of_major _ _ _ rfl 0x17 (major_VX 0x17 _ f)
@[simp] theorem isVector_vfcmp (f : VX) : isVector (.vfcmp f) = true :=
  isVector_of_major _ _ _ rfl 0x18 (major_VX 0x18 _ f)
@[simp] theorem isVector_vfclass (f : VX) : isVector (.vfclass f) = true :=
  isVector_of_major _ _ _ rfl 0x18 (major_VX 0x18 _ f)
@[simp] theorem isVector_vfrnd (f : VX) : isVector (.vfrnd f) = true :=
  isVector_of_major _ _ _ rfl 0x18 (major_VX 0x18 _ f)
@[simp] theorem isVector_vfcvt (f : VX) : isVector (.vfcvt f) = true :=
  isVector_of_major _ _ _ rfl 0x18 (major_VX 0x18 _ f)
@[simp] theorem isVector_vshuf (f : VX) : isVector (.vshuf f) = true :=
  isVector_of_major _ _ _ rfl 0x19 (major_VX 0x19 _ f)
@[simp] theorem isVector_vbcast (f : VX) : isVector (.vbcast f) = true :=
  isVector_of_major _ _ _ rfl 0x19 (major_VX 0x19 _ f)
@[simp] theorem isVector_vred (f : VX) : isVector (.vred f) = true :=
  isVector_of_major _ _ _ rfl 0x19 (major_VX 0x19 _ f)
@[simp] theorem isVector_vscan (f : VX) : isVector (.vscan f) = true :=
  isVector_of_major _ _ _ rfl 0x19 (major_VX 0x19 _ f)
@[simp] theorem isVector_vld (f : VX) : isVector (.vld f) = true :=
  isVector_of_major _ _ _ rfl 0x1A (major_VX 0x1A _ f)
@[simp] theorem isVector_vst (f : VX) : isVector (.vst f) = true :=
  isVector_of_major _ _ _ rfl 0x1A (major_VX 0x1A _ f)
@[simp] theorem isVector_vldx (f : VX) : isVector (.vldx f) = true :=
  isVector_of_major _ _ _ rfl 0x1A (major_VX 0x1A _ f)
@[simp] theorem isVector_vstx (f : VX) : isVector (.vstx f) = true :=
  isVector_of_major _ _ _ rfl 0x1A (major_VX 0x1A _ f)
@[simp] theorem isVector_vatom (f : VX) : isVector (.vatom f) = true :=
  isVector_of_major _ _ _ rfl 0x1A (major_VX 0x1A _ f)
@[simp] theorem isVector_vslice (f : VX) : isVector (.vslice f) = true :=
  isVector_of_major _ _ _ rfl 0x1B (major_VX 0x1B _ f)
@[simp] theorem isVector_vrand (f : VX) : isVector (.vrand f) = true :=
  isVector_of_major _ _ _ rfl 0x1B (major_VX 0x1B _ f)
@[simp] theorem isVector_tcfg (f : TX) : isVector (.tcfg f) = false :=
  isVector_of_major _ _ _ rfl 0x28 (major_TX 0x28 _ f)
@[simp] theorem isVector_tzero (f : TX) : isVector (.tzero f) = false :=
  isVector_of_major _ _ _ rfl 0x28 (major_TX 0x28 _ f)
@[simp] theorem isVector_tmov (f : TX) : isVector (.tmov f) = false :=
  isVector_of_major _ _ _ rfl 0x28 (major_TX 0x28 _ f)
@[simp] theorem isVector_tflgGet (f : TX) : isVector (.tflgGet f) = false :=
  isVector_of_major _ _ _ rfl 0x28 (major_TX 0x28 _ f)
@[simp] theorem isVector_tflgSet (f : TX) : isVector (.tflgSet f) = false :=
  isVector_of_major _ _ _ rfl 0x28 (major_TX 0x28 _ f)
@[simp] theorem isVector_tld (f : TX) : isVector (.tld f) = false :=
  isVector_of_major _ _ _ rfl 0x29 (major_TX 0x29 _ f)
@[simp] theorem isVector_tldw (f : TX) : isVector (.tldw f) = false :=
  isVector_of_major _ _ _ rfl 0x29 (major_TX 0x29 _ f)
@[simp] theorem isVector_tst (f : TX) : isVector (.tst f) = false :=
  isVector_of_major _ _ _ rfl 0x29 (major_TX 0x29 _ f)
@[simp] theorem isVector_tmma (f : TX) : isVector (.tmma f) = false :=
  isVector_of_major _ _ _ rfl 0x2A (major_TX 0x2A _ f)
@[simp] theorem isVector_tcomb (f : TX) : isVector (.tcomb f) = false :=
  isVector_of_major _ _ _ rfl 0x2A (major_TX 0x2A _ f)
@[simp] theorem isVector_tcvt (f : TX) : isVector (.tcvt f) = false :=
  isVector_of_major _ _ _ rfl 0x2A (major_TX 0x2A _ f)
@[simp] theorem isVector_tadd (f : TX) : isVector (.tadd f) = false :=
  isVector_of_major _ _ _ rfl 0x2A (major_TX 0x2A _ f)
@[simp] theorem isVector_xset (f : CX) : isVector (.xset f) = false :=
  isVector_of_major _ _ _ rfl 0x2E (major_CX 0x2E _ f)
@[simp] theorem isVector_xinv (f : CX) : isVector (.xinv f) = false :=
  isVector_of_major _ _ _ rfl 0x2E (major_CX 0x2E _ f)
@[simp] theorem isVector_grun (f : CX) : isVector (.grun f) = false :=
  isVector_of_major _ _ _ rfl 0x2E (major_CX 0x2E _ f)
@[simp] theorem isVector_gsig (f : CX) : isVector (.gsig f) = false :=
  isVector_of_major _ _ _ rfl 0x2E (major_CX 0x2E _ f)
@[simp] theorem isVector_cfence (f : CX) : isVector (.cfence f) = false :=
  isVector_of_major _ _ _ rfl 0x2E (major_CX 0x2E _ f)
@[simp] theorem isVector_cpy (f : CX) : isVector (.cpy f) = false :=
  isVector_of_major _ _ _ rfl 0x2F (major_CX 0x2F _ f)
@[simp] theorem isVector_cpyx (f : CX) : isVector (.cpyx f) = false :=
  isVector_of_major _ _ _ rfl 0x2F (major_CX 0x2F _ f)
@[simp] theorem isVector_cpyf (f : CX) : isVector (.cpyf f) = false :=
  isVector_of_major _ _ _ rfl 0x2F (major_CX 0x2F _ f)
@[simp] theorem isVector_fat (f : CX) : isVector (.fat f) = false :=
  isVector_of_major _ _ _ rfl 0x30 (major_CX 0x30 _ f)
@[simp] theorem isVector_fred (f : CX) : isVector (.fred f) = false :=
  isVector_of_major _ _ _ rfl 0x30 (major_CX 0x30 _ f)
@[simp] theorem isVector_skget (f : CX) : isVector (.skget f) = false :=
  isVector_of_major _ _ _ rfl 0x31 (major_CX 0x31 _ f)
@[simp] theorem isVector_skput (f : CX) : isVector (.skput f) = false :=
  isVector_of_major _ _ _ rfl 0x31 (major_CX 0x31 _ f)
@[simp] theorem isVector_skrec (f : CX) : isVector (.skrec f) = false :=
  isVector_of_major _ _ _ rfl 0x31 (major_CX 0x31 _ f)
@[simp] theorem isVector_rst (f : QX) : isVector (.rst f) = false :=
  isVector_of_major _ _ _ rfl 0x36 (major_QX 0x36 _ f)
@[simp] theorem isVector_rsig (f : QX) : isVector (.rsig f) = false :=
  isVector_of_major _ _ _ rfl 0x36 (major_QX 0x36 _ f)
@[simp] theorem isVector_rwait (f : QX) : isVector (.rwait f) = false :=
  isVector_of_major _ _ _ rfl 0x36 (major_QX 0x36 _ f)
@[simp] theorem isVector_crun (f : QX) : isVector (.crun f) = false :=
  isVector_of_major _ _ _ rfl 0x36 (major_QX 0x36 _ f)
@[simp] theorem isVector_cbar (f : QX) : isVector (.cbar f) = false :=
  isVector_of_major _ _ _ rfl 0x36 (major_QX 0x36 _ f)
@[simp] theorem isVector_ptime (f : QX) : isVector (.ptime f) = false :=
  isVector_of_major _ _ _ rfl 0x36 (major_QX 0x36 _ f)

end Sys2Proof.Machine
end

