-- ==== Sys2Proof/Laws/Tbl.lean ====
section
/-! SUPPORT. Tables and sparse maps: reading after writing, and the canonical form kept by every operation. -/

namespace Sys2Proof.Machine

variable {α : Type}

/-! ## Reading after writing -/

theorem tget_tput_same (t : Tbl α) (q : Nat) (v : α) : tget (tput t q v) q = some v := by
  induction t with
  | nil => simp [tput, tget]
  | cons p t ih =>
    obtain ⟨k, w⟩ := p
    simp only [tput]
    split
    · simp [tget]
    · split
      · simp [tget]
      · next h1 h2 => simp [tget, Ne.symm h2, ih]

theorem tget_tput_ne (t : Tbl α) {q r : Nat} (v : α) (h : r ≠ q) : tget (tput t q v) r = tget t r := by
  induction t with
  | nil => simp [tput, tget, Ne.symm h]
  | cons p t ih =>
    obtain ⟨k, w⟩ := p
    simp only [tput]
    split
    · simp [tget, Ne.symm h]
    · split
      · next _ h2 => subst h2; simp [tget, Ne.symm h]
      · simp [tget, ih]

theorem tget_tput (t : Tbl α) (q r : Nat) (v : α) :
    tget (tput t q v) r = if r = q then some v else tget t r := by
  by_cases h : r = q
  · subst h; simp [tget_tput_same]
  · simp [h, tget_tput_ne]

theorem tget_tdel (t : Tbl α) (q r : Nat) : tget (tdel t q) r = if r = q then none else tget t r := by
  induction t with
  | nil => simp [tdel, tget]
  | cons p t ih =>
    obtain ⟨k, w⟩ := p
    simp only [tdel]
    split
    · next h => subst h; rw [ih]; by_cases hr : r = k <;> simp [hr, tget, Ne.symm]
    · next h =>
      simp only [tget, ih]
      by_cases hk : k = r
      · subst hk; simp [h]
      · simp [hk]

theorem mget_mset [DecidableEq α] (d : α) (t : Tbl α) (q r : Nat) (v : α) :
    mget d (mset d t q v) r = if r = q then v else mget d t r := by
  simp only [mget, mset]
  by_cases hv : v = d
  · subst hv; simp only [if_true, tget_tdel]; split <;> simp
  · simp only [hv, if_false, tget_tput]; split <;> simp

@[simp] theorem mget_mset_same [DecidableEq α] (d : α) (t : Tbl α) (q : Nat) (v : α) : mget d (mset d t q v) q = v := by
  simp [mget_mset]

theorem mget_mset_ne [DecidableEq α] (d : α) (t : Tbl α) {q r : Nat} (v : α) (h : r ≠ q) :
    mget d (mset d t q v) r = mget d t r := by simp [mget_mset, h]

theorem mget_msetRun_out [DecidableEq α] (d : α) (t : Tbl α) (q r : Nat) (vs : List α)
    (h : r < q ∨ q + vs.length ≤ r) : mget d (msetRun d t q vs) r = mget d t r := by
  induction vs generalizing t q with
  | nil => rfl
  | cons v vs ih =>
    simp only [msetRun, List.length_cons] at h ⊢
    rw [ih _ _ (by omega), mget_mset_ne _ _ _ (by omega)]

theorem mget_msetRun_in [DecidableEq α] (d : α) (t : Tbl α) (q i : Nat) (vs : List α) (h : i < vs.length) :
    mget d (msetRun d t q vs) (q + i) = vs[i] := by
  induction vs generalizing t q i with
  | nil => simp at h
  | cons v vs ih =>
    simp only [msetRun]
    cases i with
    | zero => rw [Nat.add_zero, mget_msetRun_out _ _ _ _ _ (by omega)]; simp
    | succ i =>
      have := ih (mset d t q v) (q + 1) i (by simpa using h)
      rw [show q + (i + 1) = q + 1 + i by omega, this]; simp

theorem mgetRun_length (d : α) (t : Tbl α) (q n : Nat) : (mgetRun d t q n).length = n := by
  induction n generalizing q with
  | zero => rfl
  | succ n ih => simp [mgetRun, ih]

theorem mgetRun_congr (d : α) (t u : Tbl α) (q n : Nat) (h : ∀ r, q ≤ r → r < q + n → mget d t r = mget d u r) :
    mgetRun d t q n = mgetRun d u q n := by
  induction n generalizing q with
  | zero => rfl
  | succ n ih =>
    simp only [mgetRun]
    rw [h q (by omega) (by omega), ih (q + 1) (fun r h1 h2 => h r (by omega) (by omega))]

/-! ## The canonical form -/

theorem tblWf_cons (k : Nat) (w : α) (t : Tbl α) :
    tblWf ((k, w) :: t) = true ↔ (∀ p ∈ t, k < p.1) ∧ tblWf t = true := by
  induction t generalizing k w with
  | nil => simp [tblWf]
  | cons p t ih =>
    obtain ⟨q, v⟩ := p
    simp only [tblWf, Bool.and_eq_true, decide_eq_true_eq]
    constructor
    · rintro ⟨h, hw⟩
      have := (ih q v).1 hw
      exact ⟨by rintro p hp; rcases List.mem_cons.1 hp with rfl | hp
                · exact h
                · exact lt_trans h (this.1 p hp), hw⟩
    · rintro ⟨h, hw⟩
      exact ⟨h (q, v) (by simp), hw⟩

theorem mem_tput (t : Tbl α) (q : Nat) (v : α) (p : Nat × α) (h : p ∈ tput t q v) : p = (q, v) ∨ p ∈ t := by
  induction t with
  | nil => simpa [tput] using h
  | cons r t ih =>
    obtain ⟨k, w⟩ := r
    simp only [tput] at h
    split at h
    · simpa using h
    · split at h
      · rcases List.mem_cons.1 h with h | h
        · exact .inl h
        · exact .inr (by simp [h])
      · rcases List.mem_cons.1 h with h | h
        · exact .inr (by simp [h])
        · rcases ih h with h | h
          · exact .inl h
          · exact .inr (by simp [h])

theorem mem_tdel (t : Tbl α) (q : Nat) (p : Nat × α) (h : p ∈ tdel t q) : p ∈ t := by
  induction t with
  | nil => simp [tdel] at h
  | cons r t ih =>
    obtain ⟨k, w⟩ := r
    simp only [tdel] at h
    split at h
    · exact List.mem_cons_of_mem _ (ih h)
    · rcases List.mem_cons.1 h with h | h
      · simp [h]
      · exact List.mem_cons_of_mem _ (ih h)

theorem tblWf_tput (t : Tbl α) (q : Nat) (v : α) (h : tblWf t = true) : tblWf (tput t q v) = true := by
  induction t with
  | nil => rfl
  | cons r t ih =>
    obtain ⟨k, w⟩ := r
    have hw := (tblWf_cons k w t).1 h
    simp only [tput]
    split
    · next hq => exact (tblWf_cons q v _).2 ⟨by
        rintro p hp
        rcases List.mem_cons.1 hp with rfl | hp
        · exact hq
        · exact lt_trans hq (hw.1 p hp), h⟩
    · split
      · next _ hq => subst hq; exact (tblWf_cons _ _ _).2 hw
      · next h1 h2 =>
        refine (tblWf_cons _ _ _).2 ⟨?_, ih hw.2⟩
        intro p hp
        rcases mem_tput t q v p hp with rfl | hp
        · simp only; omega
        · exact hw.1 p hp

theorem tblWf_tdel (t : Tbl α) (q : Nat) (h : tblWf t = true) : tblWf (tdel t q) = true := by
  induction t with
  | nil => rfl
  | cons r t ih =>
    obtain ⟨k, w⟩ := r
    have hw := (tblWf_cons k w t).1 h
    simp only [tdel]
    split
    · exact ih hw.2
    · exact (tblWf_cons _ _ _).2 ⟨fun p hp => hw.1 p (mem_tdel t q p hp), ih hw.2⟩

theorem mapWf_iff [DecidableEq α] (d : α) (t : Tbl α) :
    mapWf d t = true ↔ tblWf t = true ∧ ∀ p ∈ t, p.2 ≠ d := by
  simp [mapWf]

theorem mapWf_mset [DecidableEq α] (d : α) (t : Tbl α) (q : Nat) (v : α) (h : mapWf d t = true) :
    mapWf d (mset d t q v) = true := by
  rw [mapWf_iff] at h ⊢
  unfold mset
  split
  · exact ⟨tblWf_tdel t q h.1, fun p hp => h.2 p (mem_tdel t q p hp)⟩
  · next hv =>
    refine ⟨tblWf_tput t q v h.1, fun p hp => ?_⟩
    rcases mem_tput t q v p hp with rfl | hp
    · exact hv
    · exact h.2 p hp

theorem mapWf_msetRun [DecidableEq α] (d : α) (t : Tbl α) (q : Nat) (vs : List α) (h : mapWf d t = true) :
    mapWf d (msetRun d t q vs) = true := by
  induction vs generalizing t q with
  | nil => exact h
  | cons v vs ih => exact ih _ _ (mapWf_mset d t q v h)

theorem tblWf_filter (t : Tbl α) (f : Nat × α → Bool) (h : tblWf t = true) : tblWf (t.filter f) = true := by
  induction t with
  | nil => rfl
  | cons r t ih =>
    obtain ⟨k, w⟩ := r
    have hw := (tblWf_cons k w t).1 h
    simp only [List.filter_cons]
    split
    · exact (tblWf_cons _ _ _).2 ⟨fun p hp => hw.1 p (List.mem_filter.1 hp).1, ih hw.2⟩
    · exact ih hw.2

theorem mapWf_filter [DecidableEq α] (d : α) (t : Tbl α) (f : Nat × α → Bool) (h : mapWf d t = true) :
    mapWf d (t.filter f) = true := by
  rw [mapWf_iff] at h ⊢
  exact ⟨tblWf_filter t f h.1, fun p hp => h.2 p (List.mem_filter.1 hp).1⟩

theorem tget_none_of_lt (t : Tbl α) (q : Nat) (h : ∀ p ∈ t, q < p.1) : tget t q = none := by
  induction t with
  | nil => rfl
  | cons r t ih =>
    obtain ⟨k, w⟩ := r
    have hk : q < k := h (k, w) (by simp)
    simp only [tget]
    rw [if_neg (by omega)]
    exact ih (fun p hp => h p (by simp [hp]))

theorem tget_of_mem (t : Tbl α) (hw : tblWf t = true) (p : Nat × α) (h : p ∈ t) : tget t p.1 = some p.2 := by
  induction t with
  | nil => simp at h
  | cons r t ih =>
    obtain ⟨k, w⟩ := r
    have ht := (tblWf_cons k w t).1 hw
    simp only [tget]
    rcases List.mem_cons.1 h with rfl | h
    · simp
    · rw [if_neg (by have := ht.1 p h; omega)]
      exact ih ht.2 h

theorem tget_mem (t : Tbl α) (q : Nat) (v : α) (h : tget t q = some v) : (q, v) ∈ t := by
  induction t with
  | nil => simp [tget] at h
  | cons r t ih =>
    obtain ⟨k, w⟩ := r
    simp only [tget] at h
    split at h
    · next hk => subst hk; simp_all
    · exact List.mem_cons_of_mem _ (ih h)

theorem tbl_ext (t u : Tbl α) (ht : tblWf t = true) (hu : tblWf u = true) (h : ∀ r, tget t r = tget u r) : t = u := by
  induction t generalizing u with
  | nil =>
    cases u with
    | nil => rfl
    | cons p u => obtain ⟨k, w⟩ := p; simpa [tget] using h k
  | cons p t ih =>
    obtain ⟨k, w⟩ := p
    have hk := (tblWf_cons k w t).1 ht
    cases u with
    | nil => simpa [tget] using h k
    | cons r u =>
      obtain ⟨q, v⟩ := r
      have hq := (tblWf_cons q v u).1 hu
      have hkq : k = q := by
        by_contra hne
        rcases lt_or_gt_of_ne hne with hlt | hlt
        · have := h k
          simp only [tget, if_true, Ne.symm hne, if_false] at this
          rw [tget_none_of_lt u k (fun p hp => lt_trans hlt (hq.1 p hp))] at this
          simp at this
        · have := h q
          simp only [tget, if_true, hne, if_false] at this
          rw [tget_none_of_lt t q (fun p hp => lt_trans hlt (hk.1 p hp))] at this
          simp at this
      subst hkq
      have hv : w = v := by simpa [tget] using h k
      subst hv
      congr 1
      refine ih u hk.2 hq.2 (fun r => ?_)
      by_cases hr : k = r
      · subst hr; rw [tget_none_of_lt t k hk.1, tget_none_of_lt u k hq.1]
      · simpa [tget, hr] using h r

/-- Two sparse maps in canonical form that read the same everywhere are the same list. -/
theorem map_ext [DecidableEq α] (d : α) (t u : Tbl α) (ht : mapWf d t = true) (hu : mapWf d u = true)
    (h : ∀ r, mget d t r = mget d u r) : t = u := by
  rw [mapWf_iff] at ht hu
  refine tbl_ext t u ht.1 hu.1 (fun r => ?_)
  have hr := h r
  unfold mget at hr
  cases h1 : tget t r with
  | none =>
    cases h2 : tget u r with
    | none => rfl
    | some v =>
      rw [h1, h2] at hr
      exact absurd hr.symm (hu.2 _ (tget_mem u r v h2))
  | some w =>
    cases h2 : tget u r with
    | none =>
      rw [h1, h2] at hr
      exact absurd hr (ht.2 _ (tget_mem t r w h1))
    | some v => rw [h1, h2] at hr; simpa using hr

end Sys2Proof.Machine
end

