-- ==== Sys2Proof/Laws/State.lean ====
section
/-! SUPPORT. What each update of the state or of a group leaves in each field, so that no proof unfolds a record update. -/

namespace Sys2Proof.Machine

/-! ## One entry of a table replaced -/

@[simp] theorem putCore_cores (s : State) (n : Nat) (x : Core) : (putCore s n x).cores = tput s.cores n x := rfl
@[simp] theorem putCore_pt (s : State) (n : Nat) (x : Core) : (putCore s n x).pt = s.pt := rfl
@[simp] theorem putCore_info (s : State) (n : Nat) (x : Core) : (putCore s n x).info = s.info := rfl
@[simp] theorem putCore_mem (s : State) (n : Nat) (x : Core) : (putCore s n x).mem = s.mem := rfl
@[simp] theorem putCore_mpoison (s : State) (n : Nat) (x : Core) : (putCore s n x).mpoison = s.mpoison := rfl
@[simp] theorem putCore_sk (s : State) (n : Nat) (x : Core) : (putCore s n x).sk = s.sk := rfl
@[simp] theorem putCore_launches (s : State) (n : Nat) (x : Core) : (putCore s n x).launches = s.launches := rfl
@[simp] theorem putCore_wgs (s : State) (n : Nat) (x : Core) : (putCore s n x).wgs = s.wgs := rfl
@[simp] theorem putCore_groups (s : State) (n : Nat) (x : Core) : (putCore s n x).groups = s.groups := rfl
@[simp] theorem putCore_ops (s : State) (n : Nat) (x : Core) : (putCore s n x).ops = s.ops := rfl
@[simp] theorem putCore_graphs (s : State) (n : Nat) (x : Core) : (putCore s n x).graphs = s.graphs := rfl
@[simp] theorem putCore_tables (s : State) (n : Nat) (x : Core) : (putCore s n x).tables = s.tables := rfl
@[simp] theorem putCore_reqs (s : State) (n : Nat) (x : Core) : (putCore s n x).reqs = s.reqs := rfl
@[simp] theorem putCore_coll (s : State) (n : Nat) (x : Core) : (putCore s n x).coll = s.coll := rfl
@[simp] theorem putCore_fe (s : State) (n : Nat) (x : Core) : (putCore s n x).fe = s.fe := rfl
@[simp] theorem putCore_res (s : State) (n : Nat) (x : Core) : (putCore s n x).res = s.res := rfl
@[simp] theorem putCore_evHeld (s : State) (n : Nat) (x : Core) : (putCore s n x).evHeld = s.evHeld := rfl
@[simp] theorem putCore_frozenFns (s : State) (n : Nat) (x : Core) : (putCore s n x).frozenFns = s.frozenFns := rfl
@[simp] theorem putCore_hostData (s : State) (n : Nat) (x : Core) : (putCore s n x).hostData = s.hostData := rfl
@[simp] theorem putCore_harts (s : State) (n : Nat) (x : Core) : (putCore s n x).harts = s.harts := rfl
@[simp] theorem putCore_lines (s : State) (n : Nat) (x : Core) : (putCore s n x).lines = s.lines := rfl
@[simp] theorem putCore_agenda (s : State) (n : Nat) (x : Core) : (putCore s n x).agenda = s.agenda := rfl
@[simp] theorem putCore_cur (s : State) (n : Nat) (x : Core) : (putCore s n x).cur = s.cur := rfl
@[simp] theorem putCore_opNo (s : State) (n : Nat) (x : Core) : (putCore s n x).opNo = s.opNo := rfl
@[simp] theorem putGroup_groups (s : State) (k : Nat) (x : Group) : (putGroup s k x).groups = tput s.groups k x := rfl
@[simp] theorem putGroup_pt (s : State) (k : Nat) (x : Group) : (putGroup s k x).pt = s.pt := rfl
@[simp] theorem putGroup_info (s : State) (k : Nat) (x : Group) : (putGroup s k x).info = s.info := rfl
@[simp] theorem putGroup_mem (s : State) (k : Nat) (x : Group) : (putGroup s k x).mem = s.mem := rfl
@[simp] theorem putGroup_mpoison (s : State) (k : Nat) (x : Group) : (putGroup s k x).mpoison = s.mpoison := rfl
@[simp] theorem putGroup_sk (s : State) (k : Nat) (x : Group) : (putGroup s k x).sk = s.sk := rfl
@[simp] theorem putGroup_cores (s : State) (k : Nat) (x : Group) : (putGroup s k x).cores = s.cores := rfl
@[simp] theorem putGroup_launches (s : State) (k : Nat) (x : Group) : (putGroup s k x).launches = s.launches := rfl
@[simp] theorem putGroup_wgs (s : State) (k : Nat) (x : Group) : (putGroup s k x).wgs = s.wgs := rfl
@[simp] theorem putGroup_ops (s : State) (k : Nat) (x : Group) : (putGroup s k x).ops = s.ops := rfl
@[simp] theorem putGroup_graphs (s : State) (k : Nat) (x : Group) : (putGroup s k x).graphs = s.graphs := rfl
@[simp] theorem putGroup_tables (s : State) (k : Nat) (x : Group) : (putGroup s k x).tables = s.tables := rfl
@[simp] theorem putGroup_reqs (s : State) (k : Nat) (x : Group) : (putGroup s k x).reqs = s.reqs := rfl
@[simp] theorem putGroup_coll (s : State) (k : Nat) (x : Group) : (putGroup s k x).coll = s.coll := rfl
@[simp] theorem putGroup_fe (s : State) (k : Nat) (x : Group) : (putGroup s k x).fe = s.fe := rfl
@[simp] theorem putGroup_res (s : State) (k : Nat) (x : Group) : (putGroup s k x).res = s.res := rfl
@[simp] theorem putGroup_evHeld (s : State) (k : Nat) (x : Group) : (putGroup s k x).evHeld = s.evHeld := rfl
@[simp] theorem putGroup_frozenFns (s : State) (k : Nat) (x : Group) : (putGroup s k x).frozenFns = s.frozenFns := rfl
@[simp] theorem putGroup_hostData (s : State) (k : Nat) (x : Group) : (putGroup s k x).hostData = s.hostData := rfl
@[simp] theorem putGroup_harts (s : State) (k : Nat) (x : Group) : (putGroup s k x).harts = s.harts := rfl
@[simp] theorem putGroup_lines (s : State) (k : Nat) (x : Group) : (putGroup s k x).lines = s.lines := rfl
@[simp] theorem putGroup_agenda (s : State) (k : Nat) (x : Group) : (putGroup s k x).agenda = s.agenda := rfl
@[simp] theorem putGroup_cur (s : State) (k : Nat) (x : Group) : (putGroup s k x).cur = s.cur := rfl
@[simp] theorem putGroup_opNo (s : State) (k : Nat) (x : Group) : (putGroup s k x).opNo = s.opNo := rfl
@[simp] theorem putWg_wgs (s : State) (k : Nat) (x : Workgroup) : (putWg s k x).wgs = tput s.wgs k x := rfl
@[simp] theorem putWg_pt (s : State) (k : Nat) (x : Workgroup) : (putWg s k x).pt = s.pt := rfl
@[simp] theorem putWg_info (s : State) (k : Nat) (x : Workgroup) : (putWg s k x).info = s.info := rfl
@[simp] theorem putWg_mem (s : State) (k : Nat) (x : Workgroup) : (putWg s k x).mem = s.mem := rfl
@[simp] theorem putWg_mpoison (s : State) (k : Nat) (x : Workgroup) : (putWg s k x).mpoison = s.mpoison := rfl
@[simp] theorem putWg_sk (s : State) (k : Nat) (x : Workgroup) : (putWg s k x).sk = s.sk := rfl
@[simp] theorem putWg_cores (s : State) (k : Nat) (x : Workgroup) : (putWg s k x).cores = s.cores := rfl
@[simp] theorem putWg_launches (s : State) (k : Nat) (x : Workgroup) : (putWg s k x).launches = s.launches := rfl
@[simp] theorem putWg_groups (s : State) (k : Nat) (x : Workgroup) : (putWg s k x).groups = s.groups := rfl
@[simp] theorem putWg_ops (s : State) (k : Nat) (x : Workgroup) : (putWg s k x).ops = s.ops := rfl
@[simp] theorem putWg_graphs (s : State) (k : Nat) (x : Workgroup) : (putWg s k x).graphs = s.graphs := rfl
@[simp] theorem putWg_tables (s : State) (k : Nat) (x : Workgroup) : (putWg s k x).tables = s.tables := rfl
@[simp] theorem putWg_reqs (s : State) (k : Nat) (x : Workgroup) : (putWg s k x).reqs = s.reqs := rfl
@[simp] theorem putWg_coll (s : State) (k : Nat) (x : Workgroup) : (putWg s k x).coll = s.coll := rfl
@[simp] theorem putWg_fe (s : State) (k : Nat) (x : Workgroup) : (putWg s k x).fe = s.fe := rfl
@[simp] theorem putWg_res (s : State) (k : Nat) (x : Workgroup) : (putWg s k x).res = s.res := rfl
@[simp] theorem putWg_evHeld (s : State) (k : Nat) (x : Workgroup) : (putWg s k x).evHeld = s.evHeld := rfl
@[simp] theorem putWg_frozenFns (s : State) (k : Nat) (x : Workgroup) : (putWg s k x).frozenFns = s.frozenFns := rfl
@[simp] theorem putWg_hostData (s : State) (k : Nat) (x : Workgroup) : (putWg s k x).hostData = s.hostData := rfl
@[simp] theorem putWg_harts (s : State) (k : Nat) (x : Workgroup) : (putWg s k x).harts = s.harts := rfl
@[simp] theorem putWg_lines (s : State) (k : Nat) (x : Workgroup) : (putWg s k x).lines = s.lines := rfl
@[simp] theorem putWg_agenda (s : State) (k : Nat) (x : Workgroup) : (putWg s k x).agenda = s.agenda := rfl
@[simp] theorem putWg_cur (s : State) (k : Nat) (x : Workgroup) : (putWg s k x).cur = s.cur := rfl
@[simp] theorem putWg_opNo (s : State) (k : Nat) (x : Workgroup) : (putWg s k x).opNo = s.opNo := rfl
@[simp] theorem putLaunch_launches (s : State) (k : Nat) (x : Launch) : (putLaunch s k x).launches = tput s.launches k x := rfl
@[simp] theorem putLaunch_pt (s : State) (k : Nat) (x : Launch) : (putLaunch s k x).pt = s.pt := rfl
@[simp] theorem putLaunch_info (s : State) (k : Nat) (x : Launch) : (putLaunch s k x).info = s.info := rfl
@[simp] theorem putLaunch_mem (s : State) (k : Nat) (x : Launch) : (putLaunch s k x).mem = s.mem := rfl
@[simp] theorem putLaunch_mpoison (s : State) (k : Nat) (x : Launch) : (putLaunch s k x).mpoison = s.mpoison := rfl
@[simp] theorem putLaunch_sk (s : State) (k : Nat) (x : Launch) : (putLaunch s k x).sk = s.sk := rfl
@[simp] theorem putLaunch_cores (s : State) (k : Nat) (x : Launch) : (putLaunch s k x).cores = s.cores := rfl
@[simp] theorem putLaunch_wgs (s : State) (k : Nat) (x : Launch) : (putLaunch s k x).wgs = s.wgs := rfl
@[simp] theorem putLaunch_groups (s : State) (k : Nat) (x : Launch) : (putLaunch s k x).groups = s.groups := rfl
@[simp] theorem putLaunch_ops (s : State) (k : Nat) (x : Launch) : (putLaunch s k x).ops = s.ops := rfl
@[simp] theorem putLaunch_graphs (s : State) (k : Nat) (x : Launch) : (putLaunch s k x).graphs = s.graphs := rfl
@[simp] theorem putLaunch_tables (s : State) (k : Nat) (x : Launch) : (putLaunch s k x).tables = s.tables := rfl
@[simp] theorem putLaunch_reqs (s : State) (k : Nat) (x : Launch) : (putLaunch s k x).reqs = s.reqs := rfl
@[simp] theorem putLaunch_coll (s : State) (k : Nat) (x : Launch) : (putLaunch s k x).coll = s.coll := rfl
@[simp] theorem putLaunch_fe (s : State) (k : Nat) (x : Launch) : (putLaunch s k x).fe = s.fe := rfl
@[simp] theorem putLaunch_res (s : State) (k : Nat) (x : Launch) : (putLaunch s k x).res = s.res := rfl
@[simp] theorem putLaunch_evHeld (s : State) (k : Nat) (x : Launch) : (putLaunch s k x).evHeld = s.evHeld := rfl
@[simp] theorem putLaunch_frozenFns (s : State) (k : Nat) (x : Launch) : (putLaunch s k x).frozenFns = s.frozenFns := rfl
@[simp] theorem putLaunch_hostData (s : State) (k : Nat) (x : Launch) : (putLaunch s k x).hostData = s.hostData := rfl
@[simp] theorem putLaunch_harts (s : State) (k : Nat) (x : Launch) : (putLaunch s k x).harts = s.harts := rfl
@[simp] theorem putLaunch_lines (s : State) (k : Nat) (x : Launch) : (putLaunch s k x).lines = s.lines := rfl
@[simp] theorem putLaunch_agenda (s : State) (k : Nat) (x : Launch) : (putLaunch s k x).agenda = s.agenda := rfl
@[simp] theorem putLaunch_cur (s : State) (k : Nat) (x : Launch) : (putLaunch s k x).cur = s.cur := rfl
@[simp] theorem putLaunch_opNo (s : State) (k : Nat) (x : Launch) : (putLaunch s k x).opNo = s.opNo := rfl
@[simp] theorem putOp_ops (s : State) (n : Nat) (x : EngineOp) : (putOp s n x).ops = tput s.ops n x := rfl
@[simp] theorem putOp_pt (s : State) (n : Nat) (x : EngineOp) : (putOp s n x).pt = s.pt := rfl
@[simp] theorem putOp_info (s : State) (n : Nat) (x : EngineOp) : (putOp s n x).info = s.info := rfl
@[simp] theorem putOp_mem (s : State) (n : Nat) (x : EngineOp) : (putOp s n x).mem = s.mem := rfl
@[simp] theorem putOp_mpoison (s : State) (n : Nat) (x : EngineOp) : (putOp s n x).mpoison = s.mpoison := rfl
@[simp] theorem putOp_sk (s : State) (n : Nat) (x : EngineOp) : (putOp s n x).sk = s.sk := rfl
@[simp] theorem putOp_cores (s : State) (n : Nat) (x : EngineOp) : (putOp s n x).cores = s.cores := rfl
@[simp] theorem putOp_launches (s : State) (n : Nat) (x : EngineOp) : (putOp s n x).launches = s.launches := rfl
@[simp] theorem putOp_wgs (s : State) (n : Nat) (x : EngineOp) : (putOp s n x).wgs = s.wgs := rfl
@[simp] theorem putOp_groups (s : State) (n : Nat) (x : EngineOp) : (putOp s n x).groups = s.groups := rfl
@[simp] theorem putOp_graphs (s : State) (n : Nat) (x : EngineOp) : (putOp s n x).graphs = s.graphs := rfl
@[simp] theorem putOp_tables (s : State) (n : Nat) (x : EngineOp) : (putOp s n x).tables = s.tables := rfl
@[simp] theorem putOp_reqs (s : State) (n : Nat) (x : EngineOp) : (putOp s n x).reqs = s.reqs := rfl
@[simp] theorem putOp_coll (s : State) (n : Nat) (x : EngineOp) : (putOp s n x).coll = s.coll := rfl
@[simp] theorem putOp_fe (s : State) (n : Nat) (x : EngineOp) : (putOp s n x).fe = s.fe := rfl
@[simp] theorem putOp_res (s : State) (n : Nat) (x : EngineOp) : (putOp s n x).res = s.res := rfl
@[simp] theorem putOp_evHeld (s : State) (n : Nat) (x : EngineOp) : (putOp s n x).evHeld = s.evHeld := rfl
@[simp] theorem putOp_frozenFns (s : State) (n : Nat) (x : EngineOp) : (putOp s n x).frozenFns = s.frozenFns := rfl
@[simp] theorem putOp_hostData (s : State) (n : Nat) (x : EngineOp) : (putOp s n x).hostData = s.hostData := rfl
@[simp] theorem putOp_harts (s : State) (n : Nat) (x : EngineOp) : (putOp s n x).harts = s.harts := rfl
@[simp] theorem putOp_lines (s : State) (n : Nat) (x : EngineOp) : (putOp s n x).lines = s.lines := rfl
@[simp] theorem putOp_agenda (s : State) (n : Nat) (x : EngineOp) : (putOp s n x).agenda = s.agenda := rfl
@[simp] theorem putOp_cur (s : State) (n : Nat) (x : EngineOp) : (putOp s n x).cur = s.cur := rfl
@[simp] theorem putOp_opNo (s : State) (n : Nat) (x : EngineOp) : (putOp s n x).opNo = s.opNo := rfl
@[simp] theorem putHart_harts (s : State) (n : Nat) (x : Hart) : (putHart s n x).harts = tput s.harts n x := rfl
@[simp] theorem putHart_pt (s : State) (n : Nat) (x : Hart) : (putHart s n x).pt = s.pt := rfl
@[simp] theorem putHart_info (s : State) (n : Nat) (x : Hart) : (putHart s n x).info = s.info := rfl
@[simp] theorem putHart_mem (s : State) (n : Nat) (x : Hart) : (putHart s n x).mem = s.mem := rfl
@[simp] theorem putHart_mpoison (s : State) (n : Nat) (x : Hart) : (putHart s n x).mpoison = s.mpoison := rfl
@[simp] theorem putHart_sk (s : State) (n : Nat) (x : Hart) : (putHart s n x).sk = s.sk := rfl
@[simp] theorem putHart_cores (s : State) (n : Nat) (x : Hart) : (putHart s n x).cores = s.cores := rfl
@[simp] theorem putHart_launches (s : State) (n : Nat) (x : Hart) : (putHart s n x).launches = s.launches := rfl
@[simp] theorem putHart_wgs (s : State) (n : Nat) (x : Hart) : (putHart s n x).wgs = s.wgs := rfl
@[simp] theorem putHart_groups (s : State) (n : Nat) (x : Hart) : (putHart s n x).groups = s.groups := rfl
@[simp] theorem putHart_ops (s : State) (n : Nat) (x : Hart) : (putHart s n x).ops = s.ops := rfl
@[simp] theorem putHart_graphs (s : State) (n : Nat) (x : Hart) : (putHart s n x).graphs = s.graphs := rfl
@[simp] theorem putHart_tables (s : State) (n : Nat) (x : Hart) : (putHart s n x).tables = s.tables := rfl
@[simp] theorem putHart_reqs (s : State) (n : Nat) (x : Hart) : (putHart s n x).reqs = s.reqs := rfl
@[simp] theorem putHart_coll (s : State) (n : Nat) (x : Hart) : (putHart s n x).coll = s.coll := rfl
@[simp] theorem putHart_fe (s : State) (n : Nat) (x : Hart) : (putHart s n x).fe = s.fe := rfl
@[simp] theorem putHart_res (s : State) (n : Nat) (x : Hart) : (putHart s n x).res = s.res := rfl
@[simp] theorem putHart_evHeld (s : State) (n : Nat) (x : Hart) : (putHart s n x).evHeld = s.evHeld := rfl
@[simp] theorem putHart_frozenFns (s : State) (n : Nat) (x : Hart) : (putHart s n x).frozenFns = s.frozenFns := rfl
@[simp] theorem putHart_hostData (s : State) (n : Nat) (x : Hart) : (putHart s n x).hostData = s.hostData := rfl
@[simp] theorem putHart_lines (s : State) (n : Nat) (x : Hart) : (putHart s n x).lines = s.lines := rfl
@[simp] theorem putHart_agenda (s : State) (n : Nat) (x : Hart) : (putHart s n x).agenda = s.agenda := rfl
@[simp] theorem putHart_cur (s : State) (n : Nat) (x : Hart) : (putHart s n x).cur = s.cur := rfl
@[simp] theorem putHart_opNo (s : State) (n : Nat) (x : Hart) : (putHart s n x).opNo = s.opNo := rfl
@[simp] theorem putGraph_graphs (s : State) (n : Nat) (x : GraphRun) : (putGraph s n x).graphs = tput s.graphs n x := rfl
@[simp] theorem putGraph_pt (s : State) (n : Nat) (x : GraphRun) : (putGraph s n x).pt = s.pt := rfl
@[simp] theorem putGraph_info (s : State) (n : Nat) (x : GraphRun) : (putGraph s n x).info = s.info := rfl
@[simp] theorem putGraph_mem (s : State) (n : Nat) (x : GraphRun) : (putGraph s n x).mem = s.mem := rfl
@[simp] theorem putGraph_mpoison (s : State) (n : Nat) (x : GraphRun) : (putGraph s n x).mpoison = s.mpoison := rfl
@[simp] theorem putGraph_sk (s : State) (n : Nat) (x : GraphRun) : (putGraph s n x).sk = s.sk := rfl
@[simp] theorem putGraph_cores (s : State) (n : Nat) (x : GraphRun) : (putGraph s n x).cores = s.cores := rfl
@[simp] theorem putGraph_launches (s : State) (n : Nat) (x : GraphRun) : (putGraph s n x).launches = s.launches := rfl
@[simp] theorem putGraph_wgs (s : State) (n : Nat) (x : GraphRun) : (putGraph s n x).wgs = s.wgs := rfl
@[simp] theorem putGraph_groups (s : State) (n : Nat) (x : GraphRun) : (putGraph s n x).groups = s.groups := rfl
@[simp] theorem putGraph_ops (s : State) (n : Nat) (x : GraphRun) : (putGraph s n x).ops = s.ops := rfl
@[simp] theorem putGraph_tables (s : State) (n : Nat) (x : GraphRun) : (putGraph s n x).tables = s.tables := rfl
@[simp] theorem putGraph_reqs (s : State) (n : Nat) (x : GraphRun) : (putGraph s n x).reqs = s.reqs := rfl
@[simp] theorem putGraph_coll (s : State) (n : Nat) (x : GraphRun) : (putGraph s n x).coll = s.coll := rfl
@[simp] theorem putGraph_fe (s : State) (n : Nat) (x : GraphRun) : (putGraph s n x).fe = s.fe := rfl
@[simp] theorem putGraph_res (s : State) (n : Nat) (x : GraphRun) : (putGraph s n x).res = s.res := rfl
@[simp] theorem putGraph_evHeld (s : State) (n : Nat) (x : GraphRun) : (putGraph s n x).evHeld = s.evHeld := rfl
@[simp] theorem putGraph_frozenFns (s : State) (n : Nat) (x : GraphRun) : (putGraph s n x).frozenFns = s.frozenFns := rfl
@[simp] theorem putGraph_hostData (s : State) (n : Nat) (x : GraphRun) : (putGraph s n x).hostData = s.hostData := rfl
@[simp] theorem putGraph_harts (s : State) (n : Nat) (x : GraphRun) : (putGraph s n x).harts = s.harts := rfl
@[simp] theorem putGraph_lines (s : State) (n : Nat) (x : GraphRun) : (putGraph s n x).lines = s.lines := rfl
@[simp] theorem putGraph_agenda (s : State) (n : Nat) (x : GraphRun) : (putGraph s n x).agenda = s.agenda := rfl
@[simp] theorem putGraph_cur (s : State) (n : Nat) (x : GraphRun) : (putGraph s n x).cur = s.cur := rfl
@[simp] theorem putGraph_opNo (s : State) (n : Nat) (x : GraphRun) : (putGraph s n x).opNo = s.opNo := rfl
@[simp] theorem putTable_tables (s : State) (n : Nat) (x : TableRun) : (putTable s n x).tables = tput s.tables n x := rfl
@[simp] theorem putTable_pt (s : State) (n : Nat) (x : TableRun) : (putTable s n x).pt = s.pt := rfl
@[simp] theorem putTable_info (s : State) (n : Nat) (x : TableRun) : (putTable s n x).info = s.info := rfl
@[simp] theorem putTable_mem (s : State) (n : Nat) (x : TableRun) : (putTable s n x).mem = s.mem := rfl
@[simp] theorem putTable_mpoison (s : State) (n : Nat) (x : TableRun) : (putTable s n x).mpoison = s.mpoison := rfl
@[simp] theorem putTable_sk (s : State) (n : Nat) (x : TableRun) : (putTable s n x).sk = s.sk := rfl
@[simp] theorem putTable_cores (s : State) (n : Nat) (x : TableRun) : (putTable s n x).cores = s.cores := rfl
@[simp] theorem putTable_launches (s : State) (n : Nat) (x : TableRun) : (putTable s n x).launches = s.launches := rfl
@[simp] theorem putTable_wgs (s : State) (n : Nat) (x : TableRun) : (putTable s n x).wgs = s.wgs := rfl
@[simp] theorem putTable_groups (s : State) (n : Nat) (x : TableRun) : (putTable s n x).groups = s.groups := rfl
@[simp] theorem putTable_ops (s : State) (n : Nat) (x : TableRun) : (putTable s n x).ops = s.ops := rfl
@[simp] theorem putTable_graphs (s : State) (n : Nat) (x : TableRun) : (putTable s n x).graphs = s.graphs := rfl
@[simp] theorem putTable_reqs (s : State) (n : Nat) (x : TableRun) : (putTable s n x).reqs = s.reqs := rfl
@[simp] theorem putTable_coll (s : State) (n : Nat) (x : TableRun) : (putTable s n x).coll = s.coll := rfl
@[simp] theorem putTable_fe (s : State) (n : Nat) (x : TableRun) : (putTable s n x).fe = s.fe := rfl
@[simp] theorem putTable_res (s : State) (n : Nat) (x : TableRun) : (putTable s n x).res = s.res := rfl
@[simp] theorem putTable_evHeld (s : State) (n : Nat) (x : TableRun) : (putTable s n x).evHeld = s.evHeld := rfl
@[simp] theorem putTable_frozenFns (s : State) (n : Nat) (x : TableRun) : (putTable s n x).frozenFns = s.frozenFns := rfl
@[simp] theorem putTable_hostData (s : State) (n : Nat) (x : TableRun) : (putTable s n x).hostData = s.hostData := rfl
@[simp] theorem putTable_harts (s : State) (n : Nat) (x : TableRun) : (putTable s n x).harts = s.harts := rfl
@[simp] theorem putTable_lines (s : State) (n : Nat) (x : TableRun) : (putTable s n x).lines = s.lines := rfl
@[simp] theorem putTable_agenda (s : State) (n : Nat) (x : TableRun) : (putTable s n x).agenda = s.agenda := rfl
@[simp] theorem putTable_cur (s : State) (n : Nat) (x : TableRun) : (putTable s n x).cur = s.cur := rfl
@[simp] theorem putTable_opNo (s : State) (n : Nat) (x : TableRun) : (putTable s n x).opNo = s.opNo := rfl

/-! ## Time and the agenda -/

@[simp] theorem pushNow_agenda (s : State) (i : Instr) : (pushNow s i).agenda = ⟨0, 0, i⟩ :: s.agenda := rfl
@[simp] theorem pushNow_pt (s : State) (i : Instr) : (pushNow s i).pt = s.pt := rfl
@[simp] theorem pushNow_info (s : State) (i : Instr) : (pushNow s i).info = s.info := rfl
@[simp] theorem pushNow_mem (s : State) (i : Instr) : (pushNow s i).mem = s.mem := rfl
@[simp] theorem pushNow_mpoison (s : State) (i : Instr) : (pushNow s i).mpoison = s.mpoison := rfl
@[simp] theorem pushNow_sk (s : State) (i : Instr) : (pushNow s i).sk = s.sk := rfl
@[simp] theorem pushNow_cores (s : State) (i : Instr) : (pushNow s i).cores = s.cores := rfl
@[simp] theorem pushNow_launches (s : State) (i : Instr) : (pushNow s i).launches = s.launches := rfl
@[simp] theorem pushNow_wgs (s : State) (i : Instr) : (pushNow s i).wgs = s.wgs := rfl
@[simp] theorem pushNow_groups (s : State) (i : Instr) : (pushNow s i).groups = s.groups := rfl
@[simp] theorem pushNow_ops (s : State) (i : Instr) : (pushNow s i).ops = s.ops := rfl
@[simp] theorem pushNow_graphs (s : State) (i : Instr) : (pushNow s i).graphs = s.graphs := rfl
@[simp] theorem pushNow_tables (s : State) (i : Instr) : (pushNow s i).tables = s.tables := rfl
@[simp] theorem pushNow_reqs (s : State) (i : Instr) : (pushNow s i).reqs = s.reqs := rfl
@[simp] theorem pushNow_coll (s : State) (i : Instr) : (pushNow s i).coll = s.coll := rfl
@[simp] theorem pushNow_fe (s : State) (i : Instr) : (pushNow s i).fe = s.fe := rfl
@[simp] theorem pushNow_res (s : State) (i : Instr) : (pushNow s i).res = s.res := rfl
@[simp] theorem pushNow_evHeld (s : State) (i : Instr) : (pushNow s i).evHeld = s.evHeld := rfl
@[simp] theorem pushNow_frozenFns (s : State) (i : Instr) : (pushNow s i).frozenFns = s.frozenFns := rfl
@[simp] theorem pushNow_hostData (s : State) (i : Instr) : (pushNow s i).hostData = s.hostData := rfl
@[simp] theorem pushNow_harts (s : State) (i : Instr) : (pushNow s i).harts = s.harts := rfl
@[simp] theorem pushNow_lines (s : State) (i : Instr) : (pushNow s i).lines = s.lines := rfl
@[simp] theorem pushNow_cur (s : State) (i : Instr) : (pushNow s i).cur = s.cur := rfl
@[simp] theorem pushNow_opNo (s : State) (i : Instr) : (pushNow s i).opNo = s.opNo := rfl
@[simp] theorem passTime_info (s : State) (a b : Nat) : (passTime s a b).info = s.info := rfl
@[simp] theorem passTime_mem (s : State) (a b : Nat) : (passTime s a b).mem = s.mem := rfl
@[simp] theorem passTime_mpoison (s : State) (a b : Nat) : (passTime s a b).mpoison = s.mpoison := rfl
@[simp] theorem passTime_sk (s : State) (a b : Nat) : (passTime s a b).sk = s.sk := rfl
@[simp] theorem passTime_launches (s : State) (a b : Nat) : (passTime s a b).launches = s.launches := rfl
@[simp] theorem passTime_wgs (s : State) (a b : Nat) : (passTime s a b).wgs = s.wgs := rfl
@[simp] theorem passTime_groups (s : State) (a b : Nat) : (passTime s a b).groups = s.groups := rfl
@[simp] theorem passTime_ops (s : State) (a b : Nat) : (passTime s a b).ops = s.ops := rfl
@[simp] theorem passTime_graphs (s : State) (a b : Nat) : (passTime s a b).graphs = s.graphs := rfl
@[simp] theorem passTime_tables (s : State) (a b : Nat) : (passTime s a b).tables = s.tables := rfl
@[simp] theorem passTime_reqs (s : State) (a b : Nat) : (passTime s a b).reqs = s.reqs := rfl
@[simp] theorem passTime_coll (s : State) (a b : Nat) : (passTime s a b).coll = s.coll := rfl
@[simp] theorem passTime_fe (s : State) (a b : Nat) : (passTime s a b).fe = s.fe := rfl
@[simp] theorem passTime_res (s : State) (a b : Nat) : (passTime s a b).res = s.res := rfl
@[simp] theorem passTime_evHeld (s : State) (a b : Nat) : (passTime s a b).evHeld = s.evHeld := rfl
@[simp] theorem passTime_frozenFns (s : State) (a b : Nat) : (passTime s a b).frozenFns = s.frozenFns := rfl
@[simp] theorem passTime_hostData (s : State) (a b : Nat) : (passTime s a b).hostData = s.hostData := rfl
@[simp] theorem passTime_harts (s : State) (a b : Nat) : (passTime s a b).harts = s.harts := rfl
@[simp] theorem passTime_lines (s : State) (a b : Nat) : (passTime s a b).lines = s.lines := rfl
@[simp] theorem passTime_agenda (s : State) (a b : Nat) : (passTime s a b).agenda = s.agenda := rfl
@[simp] theorem passTime_cur (s : State) (a b : Nat) : (passTime s a b).cur = s.cur := rfl
@[simp] theorem passTime_opNo (s : State) (a b : Nat) : (passTime s a b).opNo = s.opNo := rfl
@[simp] theorem passTime_pt (s : State) (a b : Nat) : (passTime s a b).pt = s.pt + BitVec.ofNat 64 b := rfl
@[simp] theorem passTime_cores (s : State) (a b : Nat) : (passTime s a b).cores = s.cores.map (fun p => (p.1, clockCore a p.2)) := rfl
@[simp] theorem clockCore_clk (n : Nat) (c : Core) : (clockCore n c).clk = c.clk + BitVec.ofNat 64 n := rfl
@[simp] theorem clockCore_tape (n : Nat) (c : Core) : (clockCore n c).tape = c.tape := rfl
@[simp] theorem clockCore_tag (n : Nat) (c : Core) : (clockCore n c).tag = c.tag := rfl
@[simp] theorem clockCore_picked (n : Nat) (c : Core) : (clockCore n c).picked = if n = 0 then c.picked else [] := rfl
@[simp] theorem popAgenda_agenda (s : State) (a : Agenda) (r : List Agenda) : (popAgenda s a r).agenda = r := rfl
@[simp] theorem popAgenda_info (s : State) (a : Agenda) (r : List Agenda) : (popAgenda s a r).info = s.info := rfl
@[simp] theorem popAgenda_mem (s : State) (a : Agenda) (r : List Agenda) : (popAgenda s a r).mem = s.mem := rfl
@[simp] theorem popAgenda_mpoison (s : State) (a : Agenda) (r : List Agenda) : (popAgenda s a r).mpoison = s.mpoison := rfl
@[simp] theorem popAgenda_sk (s : State) (a : Agenda) (r : List Agenda) : (popAgenda s a r).sk = s.sk := rfl
@[simp] theorem popAgenda_launches (s : State) (a : Agenda) (r : List Agenda) : (popAgenda s a r).launches = s.launches := rfl
@[simp] theorem popAgenda_wgs (s : State) (a : Agenda) (r : List Agenda) : (popAgenda s a r).wgs = s.wgs := rfl
@[simp] theorem popAgenda_groups (s : State) (a : Agenda) (r : List Agenda) : (popAgenda s a r).groups = s.groups := rfl
@[simp] theorem popAgenda_ops (s : State) (a : Agenda) (r : List Agenda) : (popAgenda s a r).ops = s.ops := rfl
@[simp] theorem popAgenda_graphs (s : State) (a : Agenda) (r : List Agenda) : (popAgenda s a r).graphs = s.graphs := rfl
@[simp] theorem popAgenda_tables (s : State) (a : Agenda) (r : List Agenda) : (popAgenda s a r).tables = s.tables := rfl
@[simp] theorem popAgenda_reqs (s : State) (a : Agenda) (r : List Agenda) : (popAgenda s a r).reqs = s.reqs := rfl
@[simp] theorem popAgenda_coll (s : State) (a : Agenda) (r : List Agenda) : (popAgenda s a r).coll = s.coll := rfl
@[simp] theorem popAgenda_fe (s : State) (a : Agenda) (r : List Agenda) : (popAgenda s a r).fe = s.fe := rfl
@[simp] theorem popAgenda_res (s : State) (a : Agenda) (r : List Agenda) : (popAgenda s a r).res = s.res := rfl
@[simp] theorem popAgenda_evHeld (s : State) (a : Agenda) (r : List Agenda) : (popAgenda s a r).evHeld = s.evHeld := rfl
@[simp] theorem popAgenda_frozenFns (s : State) (a : Agenda) (r : List Agenda) : (popAgenda s a r).frozenFns = s.frozenFns := rfl
@[simp] theorem popAgenda_hostData (s : State) (a : Agenda) (r : List Agenda) : (popAgenda s a r).hostData = s.hostData := rfl
@[simp] theorem popAgenda_harts (s : State) (a : Agenda) (r : List Agenda) : (popAgenda s a r).harts = s.harts := rfl
@[simp] theorem popAgenda_lines (s : State) (a : Agenda) (r : List Agenda) : (popAgenda s a r).lines = s.lines := rfl
@[simp] theorem popAgenda_cur (s : State) (a : Agenda) (r : List Agenda) : (popAgenda s a r).cur = s.cur := rfl
@[simp] theorem popAgenda_opNo (s : State) (a : Agenda) (r : List Agenda) : (popAgenda s a r).opNo = s.opNo := rfl

/-! ## Memory -/

@[simp] theorem memWrite_mem (s : State) (a : Nat) (bs : List Byte) : (memWrite s a bs).mem = msetRun 0 s.mem a bs := rfl
@[simp] theorem memWrite_mpoison (s : State) (a : Nat) (bs : List Byte) : (memWrite s a bs).mpoison = clearWhole s.mpoison a bs.length := rfl
@[simp] theorem memWrite_lines (s : State) (a : Nat) (bs : List Byte) : (memWrite s a bs).lines = hitLines s.lines a bs.length := rfl
@[simp] theorem memWrite_pt (s : State) (a : Nat) (bs : List Byte) : (memWrite s a bs).pt = s.pt := rfl
@[simp] theorem memWrite_info (s : State) (a : Nat) (bs : List Byte) : (memWrite s a bs).info = s.info := rfl
@[simp] theorem memWrite_sk (s : State) (a : Nat) (bs : List Byte) : (memWrite s a bs).sk = s.sk := rfl
@[simp] theorem memWrite_cores (s : State) (a : Nat) (bs : List Byte) : (memWrite s a bs).cores = s.cores := rfl
@[simp] theorem memWrite_launches (s : State) (a : Nat) (bs : List Byte) : (memWrite s a bs).launches = s.launches := rfl
@[simp] theorem memWrite_wgs (s : State) (a : Nat) (bs : List Byte) : (memWrite s a bs).wgs = s.wgs := rfl
@[simp] theorem memWrite_groups (s : State) (a : Nat) (bs : List Byte) : (memWrite s a bs).groups = s.groups := rfl
@[simp] theorem memWrite_ops (s : State) (a : Nat) (bs : List Byte) : (memWrite s a bs).ops = s.ops := rfl
@[simp] theorem memWrite_graphs (s : State) (a : Nat) (bs : List Byte) : (memWrite s a bs).graphs = s.graphs := rfl
@[simp] theorem memWrite_tables (s : State) (a : Nat) (bs : List Byte) : (memWrite s a bs).tables = s.tables := rfl
@[simp] theorem memWrite_reqs (s : State) (a : Nat) (bs : List Byte) : (memWrite s a bs).reqs = s.reqs := rfl
@[simp] theorem memWrite_coll (s : State) (a : Nat) (bs : List Byte) : (memWrite s a bs).coll = s.coll := rfl
@[simp] theorem memWrite_fe (s : State) (a : Nat) (bs : List Byte) : (memWrite s a bs).fe = s.fe := rfl
@[simp] theorem memWrite_res (s : State) (a : Nat) (bs : List Byte) : (memWrite s a bs).res = s.res := rfl
@[simp] theorem memWrite_evHeld (s : State) (a : Nat) (bs : List Byte) : (memWrite s a bs).evHeld = s.evHeld := rfl
@[simp] theorem memWrite_frozenFns (s : State) (a : Nat) (bs : List Byte) : (memWrite s a bs).frozenFns = s.frozenFns := rfl
@[simp] theorem memWrite_hostData (s : State) (a : Nat) (bs : List Byte) : (memWrite s a bs).hostData = s.hostData := rfl
@[simp] theorem memWrite_harts (s : State) (a : Nat) (bs : List Byte) : (memWrite s a bs).harts = s.harts := rfl
@[simp] theorem memWrite_agenda (s : State) (a : Nat) (bs : List Byte) : (memWrite s a bs).agenda = s.agenda := rfl
@[simp] theorem memWrite_cur (s : State) (a : Nat) (bs : List Byte) : (memWrite s a bs).cur = s.cur := rfl
@[simp] theorem memWrite_opNo (s : State) (a : Nat) (bs : List Byte) : (memWrite s a bs).opNo = s.opNo := rfl
@[simp] theorem memPut_pt (s : State) (a n v : Nat) : (memPut s a n v).pt = s.pt := rfl
@[simp] theorem memPut_info (s : State) (a n v : Nat) : (memPut s a n v).info = s.info := rfl
@[simp] theorem memPut_sk (s : State) (a n v : Nat) : (memPut s a n v).sk = s.sk := rfl
@[simp] theorem memPut_cores (s : State) (a n v : Nat) : (memPut s a n v).cores = s.cores := rfl
@[simp] theorem memPut_launches (s : State) (a n v : Nat) : (memPut s a n v).launches = s.launches := rfl
@[simp] theorem memPut_wgs (s : State) (a n v : Nat) : (memPut s a n v).wgs = s.wgs := rfl
@[simp] theorem memPut_groups (s : State) (a n v : Nat) : (memPut s a n v).groups = s.groups := rfl
@[simp] theorem memPut_ops (s : State) (a n v : Nat) : (memPut s a n v).ops = s.ops := rfl
@[simp] theorem memPut_graphs (s : State) (a n v : Nat) : (memPut s a n v).graphs = s.graphs := rfl
@[simp] theorem memPut_tables (s : State) (a n v : Nat) : (memPut s a n v).tables = s.tables := rfl
@[simp] theorem memPut_reqs (s : State) (a n v : Nat) : (memPut s a n v).reqs = s.reqs := rfl
@[simp] theorem memPut_coll (s : State) (a n v : Nat) : (memPut s a n v).coll = s.coll := rfl
@[simp] theorem memPut_fe (s : State) (a n v : Nat) : (memPut s a n v).fe = s.fe := rfl
@[simp] theorem memPut_res (s : State) (a n v : Nat) : (memPut s a n v).res = s.res := rfl
@[simp] theorem memPut_evHeld (s : State) (a n v : Nat) : (memPut s a n v).evHeld = s.evHeld := rfl
@[simp] theorem memPut_frozenFns (s : State) (a n v : Nat) : (memPut s a n v).frozenFns = s.frozenFns := rfl
@[simp] theorem memPut_hostData (s : State) (a n v : Nat) : (memPut s a n v).hostData = s.hostData := rfl
@[simp] theorem memPut_harts (s : State) (a n v : Nat) : (memPut s a n v).harts = s.harts := rfl
@[simp] theorem memPut_agenda (s : State) (a n v : Nat) : (memPut s a n v).agenda = s.agenda := rfl
@[simp] theorem memPut_cur (s : State) (a n v : Nat) : (memPut s a n v).cur = s.cur := rfl
@[simp] theorem memPut_opNo (s : State) (a n v : Nat) : (memPut s a n v).opNo = s.opNo := rfl
@[simp] theorem memPut_mpoison (s : State) (a n v : Nat) : (memPut s a n v).mpoison = clearWhole s.mpoison a (bytesOf n v).length := rfl
@[simp] theorem memPut_lines (s : State) (a n v : Nat) : (memPut s a n v).lines = hitLines s.lines a (bytesOf n v).length := rfl
@[simp] theorem memPut_mem (s : State) (a n v : Nat) : (memPut s a n v).mem = msetRun 0 s.mem a (bytesOf n v) := rfl

/-! ## Registers of a group -/

@[simp] theorem setS_sregs (g : Group) (n : Nat) (v : DWord) : (setS g n v).sregs = mset 0 g.sregs n v := rfl
@[simp] theorem setS_launch (g : Group) (n : Nat) (v : DWord) : (setS g n v).launch = g.launch := rfl
@[simp] theorem setS_wg (g : Group) (n : Nat) (v : DWord) : (setS g n v).wg = g.wg := rfl
@[simp] theorem setS_gidx (g : Group) (n : Nat) (v : DWord) : (setS g n v).gidx = g.gidx := rfl
@[simp] theorem setS_id (g : Group) (n : Nat) (v : DWord) : (setS g n v).id = g.id := rfl
@[simp] theorem setS_part (g : Group) (n : Nat) (v : DWord) : (setS g n v).part = g.part := rfl
@[simp] theorem setS_vbase (g : Group) (n : Nat) (v : DWord) : (setS g n v).vbase = g.vbase := rfl
@[simp] theorem setS_tbase (g : Group) (n : Nat) (v : DWord) : (setS g n v).tbase = g.tbase := rfl
@[simp] theorem setS_pc (g : Group) (n : Nat) (v : DWord) : (setS g n v).pc = g.pc := rfl
@[simp] theorem setS_scc (g : Group) (n : Nat) (v : DWord) : (setS g n v).scc = g.scc := rfl
@[simp] theorem setS_vregs (g : Group) (n : Nat) (v : DWord) : (setS g n v).vregs = g.vregs := rfl
@[simp] theorem setS_pal (g : Group) (n : Nat) (v : DWord) : (setS g n v).pal = g.pal := rfl
@[simp] theorem setS_fpc (g : Group) (n : Nat) (v : DWord) : (setS g n v).fpc = g.fpc := rfl
@[simp] theorem setS_xregs (g : Group) (n : Nat) (v : DWord) : (setS g n v).xregs = g.xregs := rfl
@[simp] theorem setS_tc (g : Group) (n : Nat) (v : DWord) : (setS g n v).tc = g.tc := rfl
@[simp] theorem setS_tiles (g : Group) (n : Nat) (v : DWord) : (setS g n v).tiles = g.tiles := rfl
@[simp] theorem setS_tpoison (g : Group) (n : Nat) (v : DWord) : (setS g n v).tpoison = g.tpoison := rfl
@[simp] theorem setS_tflags (g : Group) (n : Nat) (v : DWord) : (setS g n v).tflags = g.tflags := rfl
@[simp] theorem setS_ld (g : Group) (n : Nat) (v : DWord) : (setS g n v).ld = g.ld := rfl
@[simp] theorem setS_st (g : Group) (n : Nat) (v : DWord) : (setS g n v).st = g.st := rfl
@[simp] theorem setS_tile (g : Group) (n : Nat) (v : DWord) : (setS g n v).tile = g.tile := rfl
@[simp] theorem setS_coll (g : Group) (n : Nat) (v : DWord) : (setS g n v).coll = g.coll := rfl
@[simp] theorem setS_handler (g : Group) (n : Nat) (v : DWord) : (setS g n v).handler = g.handler := rfl
@[simp] theorem setS_tickHeld (g : Group) (n : Nat) (v : DWord) : (setS g n v).tickHeld = g.tickHeld := rfl
@[simp] theorem setS_tickDue (g : Group) (n : Nat) (v : DWord) : (setS g n v).tickDue = g.tickDue := rfl
@[simp] theorem setS_log (g : Group) (n : Nat) (v : DWord) : (setS g n v).log = g.log := rfl
@[simp] theorem setS_sp (g : Group) (n : Nat) (v : DWord) : (setS g n v).sp = g.sp := rfl
@[simp] theorem setS_status (g : Group) (n : Nat) (v : DWord) : (setS g n v).status = g.status := rfl
@[simp] theorem setS_barw (g : Group) (n : Nat) (v : DWord) : (setS g n v).barw = g.barw := rfl
@[simp] theorem setS_urg (g : Group) (n : Nat) (v : DWord) : (setS g n v).urg = g.urg := rfl
@[simp] theorem setS_waited (g : Group) (n : Nat) (v : DWord) : (setS g n v).waited = g.waited := rfl
@[simp] theorem setS_hold (g : Group) (n : Nat) (v : DWord) : (setS g n v).hold = g.hold := rfl
@[simp] theorem setS_task (g : Group) (n : Nat) (v : DWord) : (setS g n v).task = g.task := rfl
@[simp] theorem setS_promo (g : Group) (n : Nat) (v : DWord) : (setS g n v).promo = g.promo := rfl
@[simp] theorem setS_reports (g : Group) (n : Nat) (v : DWord) : (setS g n v).reports = g.reports := rfl
@[simp] theorem setS_born (g : Group) (n : Nat) (v : DWord) : (setS g n v).born = g.born := rfl
@[simp] theorem setS_parkPt (g : Group) (n : Nat) (v : DWord) : (setS g n v).parkPt = g.parkPt := rfl
@[simp] theorem setS_parkClk (g : Group) (n : Nat) (v : DWord) : (setS g n v).parkClk = g.parkClk := rfl
@[simp] theorem setS_since (g : Group) (n : Nat) (v : DWord) : (setS g n v).since = g.since := rfl
@[simp] theorem setS_lastRetire (g : Group) (n : Nat) (v : DWord) : (setS g n v).lastRetire = g.lastRetire := rfl
@[simp] theorem setS_lastIssue (g : Group) (n : Nat) (v : DWord) : (setS g n v).lastIssue = g.lastIssue := rfl
@[simp] theorem setS_detCount (g : Group) (n : Nat) (v : DWord) : (setS g n v).detCount = g.detCount := rfl
@[simp] theorem setS_detEnded (g : Group) (n : Nat) (v : DWord) : (setS g n v).detEnded = g.detEnded := rfl
@[simp] theorem setS_detBuf (g : Group) (n : Nat) (v : DWord) : (setS g n v).detBuf = g.detBuf := rfl
@[simp] theorem setS_late (g : Group) (n : Nat) (v : DWord) : (setS g n v).late = g.late := rfl
@[simp] theorem setS_detOps (g : Group) (n : Nat) (v : DWord) : (setS g n v).detOps = g.detOps := rfl
@[simp] theorem setS_fence (g : Group) (n : Nat) (v : DWord) : (setS g n v).fence = g.fence := rfl
@[simp] theorem setS_candidates (g : Group) (n : Nat) (v : DWord) : (setS g n v).candidates = g.candidates := rfl
@[simp] theorem setV_vregs (g : Group) (n : Nat) (v : VReg) : (setV g n v).vregs = mset VReg.zero g.vregs n v := rfl
@[simp] theorem setV_launch (g : Group) (n : Nat) (v : VReg) : (setV g n v).launch = g.launch := rfl
@[simp] theorem setV_wg (g : Group) (n : Nat) (v : VReg) : (setV g n v).wg = g.wg := rfl
@[simp] theorem setV_gidx (g : Group) (n : Nat) (v : VReg) : (setV g n v).gidx = g.gidx := rfl
@[simp] theorem setV_id (g : Group) (n : Nat) (v : VReg) : (setV g n v).id = g.id := rfl
@[simp] theorem setV_part (g : Group) (n : Nat) (v : VReg) : (setV g n v).part = g.part := rfl
@[simp] theorem setV_vbase (g : Group) (n : Nat) (v : VReg) : (setV g n v).vbase = g.vbase := rfl
@[simp] theorem setV_tbase (g : Group) (n : Nat) (v : VReg) : (setV g n v).tbase = g.tbase := rfl
@[simp] theorem setV_pc (g : Group) (n : Nat) (v : VReg) : (setV g n v).pc = g.pc := rfl
@[simp] theorem setV_sregs (g : Group) (n : Nat) (v : VReg) : (setV g n v).sregs = g.sregs := rfl
@[simp] theorem setV_scc (g : Group) (n : Nat) (v : VReg) : (setV g n v).scc = g.scc := rfl
@[simp] theorem setV_pal (g : Group) (n : Nat) (v : VReg) : (setV g n v).pal = g.pal := rfl
@[simp] theorem setV_fpc (g : Group) (n : Nat) (v : VReg) : (setV g n v).fpc = g.fpc := rfl
@[simp] theorem setV_xregs (g : Group) (n : Nat) (v : VReg) : (setV g n v).xregs = g.xregs := rfl
@[simp] theorem setV_tc (g : Group) (n : Nat) (v : VReg) : (setV g n v).tc = g.tc := rfl
@[simp] theorem setV_tiles (g : Group) (n : Nat) (v : VReg) : (setV g n v).tiles = g.tiles := rfl
@[simp] theorem setV_tpoison (g : Group) (n : Nat) (v : VReg) : (setV g n v).tpoison = g.tpoison := rfl
@[simp] theorem setV_tflags (g : Group) (n : Nat) (v : VReg) : (setV g n v).tflags = g.tflags := rfl
@[simp] theorem setV_ld (g : Group) (n : Nat) (v : VReg) : (setV g n v).ld = g.ld := rfl
@[simp] theorem setV_st (g : Group) (n : Nat) (v : VReg) : (setV g n v).st = g.st := rfl
@[simp] theorem setV_tile (g : Group) (n : Nat) (v : VReg) : (setV g n v).tile = g.tile := rfl
@[simp] theorem setV_coll (g : Group) (n : Nat) (v : VReg) : (setV g n v).coll = g.coll := rfl
@[simp] theorem setV_handler (g : Group) (n : Nat) (v : VReg) : (setV g n v).handler = g.handler := rfl
@[simp] theorem setV_tickHeld (g : Group) (n : Nat) (v : VReg) : (setV g n v).tickHeld = g.tickHeld := rfl
@[simp] theorem setV_tickDue (g : Group) (n : Nat) (v : VReg) : (setV g n v).tickDue = g.tickDue := rfl
@[simp] theorem setV_log (g : Group) (n : Nat) (v : VReg) : (setV g n v).log = g.log := rfl
@[simp] theorem setV_sp (g : Group) (n : Nat) (v : VReg) : (setV g n v).sp = g.sp := rfl
@[simp] theorem setV_status (g : Group) (n : Nat) (v : VReg) : (setV g n v).status = g.status := rfl
@[simp] theorem setV_barw (g : Group) (n : Nat) (v : VReg) : (setV g n v).barw = g.barw := rfl
@[simp] theorem setV_urg (g : Group) (n : Nat) (v : VReg) : (setV g n v).urg = g.urg := rfl
@[simp] theorem setV_waited (g : Group) (n : Nat) (v : VReg) : (setV g n v).waited = g.waited := rfl
@[simp] theorem setV_hold (g : Group) (n : Nat) (v : VReg) : (setV g n v).hold = g.hold := rfl
@[simp] theorem setV_task (g : Group) (n : Nat) (v : VReg) : (setV g n v).task = g.task := rfl
@[simp] theorem setV_promo (g : Group) (n : Nat) (v : VReg) : (setV g n v).promo = g.promo := rfl
@[simp] theorem setV_reports (g : Group) (n : Nat) (v : VReg) : (setV g n v).reports = g.reports := rfl
@[simp] theorem setV_born (g : Group) (n : Nat) (v : VReg) : (setV g n v).born = g.born := rfl
@[simp] theorem setV_parkPt (g : Group) (n : Nat) (v : VReg) : (setV g n v).parkPt = g.parkPt := rfl
@[simp] theorem setV_parkClk (g : Group) (n : Nat) (v : VReg) : (setV g n v).parkClk = g.parkClk := rfl
@[simp] theorem setV_since (g : Group) (n : Nat) (v : VReg) : (setV g n v).since = g.since := rfl
@[simp] theorem setV_lastRetire (g : Group) (n : Nat) (v : VReg) : (setV g n v).lastRetire = g.lastRetire := rfl
@[simp] theorem setV_lastIssue (g : Group) (n : Nat) (v : VReg) : (setV g n v).lastIssue = g.lastIssue := rfl
@[simp] theorem setV_detCount (g : Group) (n : Nat) (v : VReg) : (setV g n v).detCount = g.detCount := rfl
@[simp] theorem setV_detEnded (g : Group) (n : Nat) (v : VReg) : (setV g n v).detEnded = g.detEnded := rfl
@[simp] theorem setV_detBuf (g : Group) (n : Nat) (v : VReg) : (setV g n v).detBuf = g.detBuf := rfl
@[simp] theorem setV_late (g : Group) (n : Nat) (v : VReg) : (setV g n v).late = g.late := rfl
@[simp] theorem setV_detOps (g : Group) (n : Nat) (v : VReg) : (setV g n v).detOps = g.detOps := rfl
@[simp] theorem setV_fence (g : Group) (n : Nat) (v : VReg) : (setV g n v).fence = g.fence := rfl
@[simp] theorem setV_candidates (g : Group) (n : Nat) (v : VReg) : (setV g n v).candidates = g.candidates := rfl
@[simp] theorem setX_xregs (g : Group) (n : Nat) (v : XReg) : (setX g n v).xregs = mset XReg.invalid g.xregs n v := rfl
@[simp] theorem setX_launch (g : Group) (n : Nat) (v : XReg) : (setX g n v).launch = g.launch := rfl
@[simp] theorem setX_wg (g : Group) (n : Nat) (v : XReg) : (setX g n v).wg = g.wg := rfl
@[simp] theorem setX_gidx (g : Group) (n : Nat) (v : XReg) : (setX g n v).gidx = g.gidx := rfl
@[simp] theorem setX_id (g : Group) (n : Nat) (v : XReg) : (setX g n v).id = g.id := rfl
@[simp] theorem setX_part (g : Group) (n : Nat) (v : XReg) : (setX g n v).part = g.part := rfl
@[simp] theorem setX_vbase (g : Group) (n : Nat) (v : XReg) : (setX g n v).vbase = g.vbase := rfl
@[simp] theorem setX_tbase (g : Group) (n : Nat) (v : XReg) : (setX g n v).tbase = g.tbase := rfl
@[simp] theorem setX_pc (g : Group) (n : Nat) (v : XReg) : (setX g n v).pc = g.pc := rfl
@[simp] theorem setX_sregs (g : Group) (n : Nat) (v : XReg) : (setX g n v).sregs = g.sregs := rfl
@[simp] theorem setX_scc (g : Group) (n : Nat) (v : XReg) : (setX g n v).scc = g.scc := rfl
@[simp] theorem setX_vregs (g : Group) (n : Nat) (v : XReg) : (setX g n v).vregs = g.vregs := rfl
@[simp] theorem setX_pal (g : Group) (n : Nat) (v : XReg) : (setX g n v).pal = g.pal := rfl
@[simp] theorem setX_fpc (g : Group) (n : Nat) (v : XReg) : (setX g n v).fpc = g.fpc := rfl
@[simp] theorem setX_tc (g : Group) (n : Nat) (v : XReg) : (setX g n v).tc = g.tc := rfl
@[simp] theorem setX_tiles (g : Group) (n : Nat) (v : XReg) : (setX g n v).tiles = g.tiles := rfl
@[simp] theorem setX_tpoison (g : Group) (n : Nat) (v : XReg) : (setX g n v).tpoison = g.tpoison := rfl
@[simp] theorem setX_tflags (g : Group) (n : Nat) (v : XReg) : (setX g n v).tflags = g.tflags := rfl
@[simp] theorem setX_ld (g : Group) (n : Nat) (v : XReg) : (setX g n v).ld = g.ld := rfl
@[simp] theorem setX_st (g : Group) (n : Nat) (v : XReg) : (setX g n v).st = g.st := rfl
@[simp] theorem setX_tile (g : Group) (n : Nat) (v : XReg) : (setX g n v).tile = g.tile := rfl
@[simp] theorem setX_coll (g : Group) (n : Nat) (v : XReg) : (setX g n v).coll = g.coll := rfl
@[simp] theorem setX_handler (g : Group) (n : Nat) (v : XReg) : (setX g n v).handler = g.handler := rfl
@[simp] theorem setX_tickHeld (g : Group) (n : Nat) (v : XReg) : (setX g n v).tickHeld = g.tickHeld := rfl
@[simp] theorem setX_tickDue (g : Group) (n : Nat) (v : XReg) : (setX g n v).tickDue = g.tickDue := rfl
@[simp] theorem setX_log (g : Group) (n : Nat) (v : XReg) : (setX g n v).log = g.log := rfl
@[simp] theorem setX_sp (g : Group) (n : Nat) (v : XReg) : (setX g n v).sp = g.sp := rfl
@[simp] theorem setX_status (g : Group) (n : Nat) (v : XReg) : (setX g n v).status = g.status := rfl
@[simp] theorem setX_barw (g : Group) (n : Nat) (v : XReg) : (setX g n v).barw = g.barw := rfl
@[simp] theorem setX_urg (g : Group) (n : Nat) (v : XReg) : (setX g n v).urg = g.urg := rfl
@[simp] theorem setX_waited (g : Group) (n : Nat) (v : XReg) : (setX g n v).waited = g.waited := rfl
@[simp] theorem setX_hold (g : Group) (n : Nat) (v : XReg) : (setX g n v).hold = g.hold := rfl
@[simp] theorem setX_task (g : Group) (n : Nat) (v : XReg) : (setX g n v).task = g.task := rfl
@[simp] theorem setX_promo (g : Group) (n : Nat) (v : XReg) : (setX g n v).promo = g.promo := rfl
@[simp] theorem setX_reports (g : Group) (n : Nat) (v : XReg) : (setX g n v).reports = g.reports := rfl
@[simp] theorem setX_born (g : Group) (n : Nat) (v : XReg) : (setX g n v).born = g.born := rfl
@[simp] theorem setX_parkPt (g : Group) (n : Nat) (v : XReg) : (setX g n v).parkPt = g.parkPt := rfl
@[simp] theorem setX_parkClk (g : Group) (n : Nat) (v : XReg) : (setX g n v).parkClk = g.parkClk := rfl
@[simp] theorem setX_since (g : Group) (n : Nat) (v : XReg) : (setX g n v).since = g.since := rfl
@[simp] theorem setX_lastRetire (g : Group) (n : Nat) (v : XReg) : (setX g n v).lastRetire = g.lastRetire := rfl
@[simp] theorem setX_lastIssue (g : Group) (n : Nat) (v : XReg) : (setX g n v).lastIssue = g.lastIssue := rfl
@[simp] theorem setX_detCount (g : Group) (n : Nat) (v : XReg) : (setX g n v).detCount = g.detCount := rfl
@[simp] theorem setX_detEnded (g : Group) (n : Nat) (v : XReg) : (setX g n v).detEnded = g.detEnded := rfl
@[simp] theorem setX_detBuf (g : Group) (n : Nat) (v : XReg) : (setX g n v).detBuf = g.detBuf := rfl
@[simp] theorem setX_late (g : Group) (n : Nat) (v : XReg) : (setX g n v).late = g.late := rfl
@[simp] theorem setX_detOps (g : Group) (n : Nat) (v : XReg) : (setX g n v).detOps = g.detOps := rfl
@[simp] theorem setX_fence (g : Group) (n : Nat) (v : XReg) : (setX g n v).fence = g.fence := rfl
@[simp] theorem setX_candidates (g : Group) (n : Nat) (v : XReg) : (setX g n v).candidates = g.candidates := rfl
@[simp] theorem setTc_tc (g : Group) (n : Nat) (v : DWord) : (setTc g n v).tc = mset 0 g.tc n v := rfl
@[simp] theorem setTc_launch (g : Group) (n : Nat) (v : DWord) : (setTc g n v).launch = g.launch := rfl
@[simp] theorem setTc_wg (g : Group) (n : Nat) (v : DWord) : (setTc g n v).wg = g.wg := rfl
@[simp] theorem setTc_gidx (g : Group) (n : Nat) (v : DWord) : (setTc g n v).gidx = g.gidx := rfl
@[simp] theorem setTc_id (g : Group) (n : Nat) (v : DWord) : (setTc g n v).id = g.id := rfl
@[simp] theorem setTc_part (g : Group) (n : Nat) (v : DWord) : (setTc g n v).part = g.part := rfl
@[simp] theorem setTc_vbase (g : Group) (n : Nat) (v : DWord) : (setTc g n v).vbase = g.vbase := rfl
@[simp] theorem setTc_tbase (g : Group) (n : Nat) (v : DWord) : (setTc g n v).tbase = g.tbase := rfl
@[simp] theorem setTc_pc (g : Group) (n : Nat) (v : DWord) : (setTc g n v).pc = g.pc := rfl
@[simp] theorem setTc_sregs (g : Group) (n : Nat) (v : DWord) : (setTc g n v).sregs = g.sregs := rfl
@[simp] theorem setTc_scc (g : Group) (n : Nat) (v : DWord) : (setTc g n v).scc = g.scc := rfl
@[simp] theorem setTc_vregs (g : Group) (n : Nat) (v : DWord) : (setTc g n v).vregs = g.vregs := rfl
@[simp] theorem setTc_pal (g : Group) (n : Nat) (v : DWord) : (setTc g n v).pal = g.pal := rfl
@[simp] theorem setTc_fpc (g : Group) (n : Nat) (v : DWord) : (setTc g n v).fpc = g.fpc := rfl
@[simp] theorem setTc_xregs (g : Group) (n : Nat) (v : DWord) : (setTc g n v).xregs = g.xregs := rfl
@[simp] theorem setTc_tiles (g : Group) (n : Nat) (v : DWord) : (setTc g n v).tiles = g.tiles := rfl
@[simp] theorem setTc_tpoison (g : Group) (n : Nat) (v : DWord) : (setTc g n v).tpoison = g.tpoison := rfl
@[simp] theorem setTc_tflags (g : Group) (n : Nat) (v : DWord) : (setTc g n v).tflags = g.tflags := rfl
@[simp] theorem setTc_ld (g : Group) (n : Nat) (v : DWord) : (setTc g n v).ld = g.ld := rfl
@[simp] theorem setTc_st (g : Group) (n : Nat) (v : DWord) : (setTc g n v).st = g.st := rfl
@[simp] theorem setTc_tile (g : Group) (n : Nat) (v : DWord) : (setTc g n v).tile = g.tile := rfl
@[simp] theorem setTc_coll (g : Group) (n : Nat) (v : DWord) : (setTc g n v).coll = g.coll := rfl
@[simp] theorem setTc_handler (g : Group) (n : Nat) (v : DWord) : (setTc g n v).handler = g.handler := rfl
@[simp] theorem setTc_tickHeld (g : Group) (n : Nat) (v : DWord) : (setTc g n v).tickHeld = g.tickHeld := rfl
@[simp] theorem setTc_tickDue (g : Group) (n : Nat) (v : DWord) : (setTc g n v).tickDue = g.tickDue := rfl
@[simp] theorem setTc_log (g : Group) (n : Nat) (v : DWord) : (setTc g n v).log = g.log := rfl
@[simp] theorem setTc_sp (g : Group) (n : Nat) (v : DWord) : (setTc g n v).sp = g.sp := rfl
@[simp] theorem setTc_status (g : Group) (n : Nat) (v : DWord) : (setTc g n v).status = g.status := rfl
@[simp] theorem setTc_barw (g : Group) (n : Nat) (v : DWord) : (setTc g n v).barw = g.barw := rfl
@[simp] theorem setTc_urg (g : Group) (n : Nat) (v : DWord) : (setTc g n v).urg = g.urg := rfl
@[simp] theorem setTc_waited (g : Group) (n : Nat) (v : DWord) : (setTc g n v).waited = g.waited := rfl
@[simp] theorem setTc_hold (g : Group) (n : Nat) (v : DWord) : (setTc g n v).hold = g.hold := rfl
@[simp] theorem setTc_task (g : Group) (n : Nat) (v : DWord) : (setTc g n v).task = g.task := rfl
@[simp] theorem setTc_promo (g : Group) (n : Nat) (v : DWord) : (setTc g n v).promo = g.promo := rfl
@[simp] theorem setTc_reports (g : Group) (n : Nat) (v : DWord) : (setTc g n v).reports = g.reports := rfl
@[simp] theorem setTc_born (g : Group) (n : Nat) (v : DWord) : (setTc g n v).born = g.born := rfl
@[simp] theorem setTc_parkPt (g : Group) (n : Nat) (v : DWord) : (setTc g n v).parkPt = g.parkPt := rfl
@[simp] theorem setTc_parkClk (g : Group) (n : Nat) (v : DWord) : (setTc g n v).parkClk = g.parkClk := rfl
@[simp] theorem setTc_since (g : Group) (n : Nat) (v : DWord) : (setTc g n v).since = g.since := rfl
@[simp] theorem setTc_lastRetire (g : Group) (n : Nat) (v : DWord) : (setTc g n v).lastRetire = g.lastRetire := rfl
@[simp] theorem setTc_lastIssue (g : Group) (n : Nat) (v : DWord) : (setTc g n v).lastIssue = g.lastIssue := rfl
@[simp] theorem setTc_detCount (g : Group) (n : Nat) (v : DWord) : (setTc g n v).detCount = g.detCount := rfl
@[simp] theorem setTc_detEnded (g : Group) (n : Nat) (v : DWord) : (setTc g n v).detEnded = g.detEnded := rfl
@[simp] theorem setTc_detBuf (g : Group) (n : Nat) (v : DWord) : (setTc g n v).detBuf = g.detBuf := rfl
@[simp] theorem setTc_late (g : Group) (n : Nat) (v : DWord) : (setTc g n v).late = g.late := rfl
@[simp] theorem setTc_detOps (g : Group) (n : Nat) (v : DWord) : (setTc g n v).detOps = g.detOps := rfl
@[simp] theorem setTc_fence (g : Group) (n : Nat) (v : DWord) : (setTc g n v).fence = g.fence := rfl
@[simp] theorem setTc_candidates (g : Group) (n : Nat) (v : DWord) : (setTc g n v).candidates = g.candidates := rfl
@[simp] theorem setPair_launch (g : Group) (n : Nat) (m : Mask) : (setPair g n m).launch = g.launch := rfl
@[simp] theorem setPair_wg (g : Group) (n : Nat) (m : Mask) : (setPair g n m).wg = g.wg := rfl
@[simp] theorem setPair_gidx (g : Group) (n : Nat) (m : Mask) : (setPair g n m).gidx = g.gidx := rfl
@[simp] theorem setPair_id (g : Group) (n : Nat) (m : Mask) : (setPair g n m).id = g.id := rfl
@[simp] theorem setPair_part (g : Group) (n : Nat) (m : Mask) : (setPair g n m).part = g.part := rfl
@[simp] theorem setPair_vbase (g : Group) (n : Nat) (m : Mask) : (setPair g n m).vbase = g.vbase := rfl
@[simp] theorem setPair_tbase (g : Group) (n : Nat) (m : Mask) : (setPair g n m).tbase = g.tbase := rfl
@[simp] theorem setPair_pc (g : Group) (n : Nat) (m : Mask) : (setPair g n m).pc = g.pc := rfl
@[simp] theorem setPair_scc (g : Group) (n : Nat) (m : Mask) : (setPair g n m).scc = g.scc := rfl
@[simp] theorem setPair_vregs (g : Group) (n : Nat) (m : Mask) : (setPair g n m).vregs = g.vregs := rfl
@[simp] theorem setPair_pal (g : Group) (n : Nat) (m : Mask) : (setPair g n m).pal = g.pal := rfl
@[simp] theorem setPair_fpc (g : Group) (n : Nat) (m : Mask) : (setPair g n m).fpc = g.fpc := rfl
@[simp] theorem setPair_xregs (g : Group) (n : Nat) (m : Mask) : (setPair g n m).xregs = g.xregs := rfl
@[simp] theorem setPair_tc (g : Group) (n : Nat) (m : Mask) : (setPair g n m).tc = g.tc := rfl
@[simp] theorem setPair_tiles (g : Group) (n : Nat) (m : Mask) : (setPair g n m).tiles = g.tiles := rfl
@[simp] theorem setPair_tpoison (g : Group) (n : Nat) (m : Mask) : (setPair g n m).tpoison = g.tpoison := rfl
@[simp] theorem setPair_tflags (g : Group) (n : Nat) (m : Mask) : (setPair g n m).tflags = g.tflags := rfl
@[simp] theorem setPair_ld (g : Group) (n : Nat) (m : Mask) : (setPair g n m).ld = g.ld := rfl
@[simp] theorem setPair_st (g : Group) (n : Nat) (m : Mask) : (setPair g n m).st = g.st := rfl
@[simp] theorem setPair_tile (g : Group) (n : Nat) (m : Mask) : (setPair g n m).tile = g.tile := rfl
@[simp] theorem setPair_coll (g : Group) (n : Nat) (m : Mask) : (setPair g n m).coll = g.coll := rfl
@[simp] theorem setPair_handler (g : Group) (n : Nat) (m : Mask) : (setPair g n m).handler = g.handler := rfl
@[simp] theorem setPair_tickHeld (g : Group) (n : Nat) (m : Mask) : (setPair g n m).tickHeld = g.tickHeld := rfl
@[simp] theorem setPair_tickDue (g : Group) (n : Nat) (m : Mask) : (setPair g n m).tickDue = g.tickDue := rfl
@[simp] theorem setPair_log (g : Group) (n : Nat) (m : Mask) : (setPair g n m).log = g.log := rfl
@[simp] theorem setPair_sp (g : Group) (n : Nat) (m : Mask) : (setPair g n m).sp = g.sp := rfl
@[simp] theorem setPair_status (g : Group) (n : Nat) (m : Mask) : (setPair g n m).status = g.status := rfl
@[simp] theorem setPair_barw (g : Group) (n : Nat) (m : Mask) : (setPair g n m).barw = g.barw := rfl
@[simp] theorem setPair_urg (g : Group) (n : Nat) (m : Mask) : (setPair g n m).urg = g.urg := rfl
@[simp] theorem setPair_waited (g : Group) (n : Nat) (m : Mask) : (setPair g n m).waited = g.waited := rfl
@[simp] theorem setPair_hold (g : Group) (n : Nat) (m : Mask) : (setPair g n m).hold = g.hold := rfl
@[simp] theorem setPair_task (g : Group) (n : Nat) (m : Mask) : (setPair g n m).task = g.task := rfl
@[simp] theorem setPair_promo (g : Group) (n : Nat) (m : Mask) : (setPair g n m).promo = g.promo := rfl
@[simp] theorem setPair_reports (g : Group) (n : Nat) (m : Mask) : (setPair g n m).reports = g.reports := rfl
@[simp] theorem setPair_born (g : Group) (n : Nat) (m : Mask) : (setPair g n m).born = g.born := rfl
@[simp] theorem setPair_parkPt (g : Group) (n : Nat) (m : Mask) : (setPair g n m).parkPt = g.parkPt := rfl
@[simp] theorem setPair_parkClk (g : Group) (n : Nat) (m : Mask) : (setPair g n m).parkClk = g.parkClk := rfl
@[simp] theorem setPair_since (g : Group) (n : Nat) (m : Mask) : (setPair g n m).since = g.since := rfl
@[simp] theorem setPair_lastRetire (g : Group) (n : Nat) (m : Mask) : (setPair g n m).lastRetire = g.lastRetire := rfl
@[simp] theorem setPair_lastIssue (g : Group) (n : Nat) (m : Mask) : (setPair g n m).lastIssue = g.lastIssue := rfl
@[simp] theorem setPair_detCount (g : Group) (n : Nat) (m : Mask) : (setPair g n m).detCount = g.detCount := rfl
@[simp] theorem setPair_detEnded (g : Group) (n : Nat) (m : Mask) : (setPair g n m).detEnded = g.detEnded := rfl
@[simp] theorem setPair_detBuf (g : Group) (n : Nat) (m : Mask) : (setPair g n m).detBuf = g.detBuf := rfl
@[simp] theorem setPair_late (g : Group) (n : Nat) (m : Mask) : (setPair g n m).late = g.late := rfl
@[simp] theorem setPair_detOps (g : Group) (n : Nat) (m : Mask) : (setPair g n m).detOps = g.detOps := rfl
@[simp] theorem setPair_fence (g : Group) (n : Nat) (m : Mask) : (setPair g n m).fence = g.fence := rfl
@[simp] theorem setPair_candidates (g : Group) (n : Nat) (m : Mask) : (setPair g n m).candidates = g.candidates := rfl

end Sys2Proof.Machine
end

