-- ==== Sys2Proof/Laws/Issue.lean ====
section
/-! SUPPORT. What issue, retirement and the taking of a trap can do: one lemma for each, which later proofs cite. -/

namespace Sys2Proof.Machine

/-! ## The issuing group -/

/-- What an issuing group's context says. -/
theorem ctxOf_some {s : State} {i : Instr} {c : Ctx} (h : ctxOf s i = some c) :
    s.cur = some (.group c.k) ∧ tget s.groups c.k = some c.g ∧ tget s.wgs (gWg c.g) = some c.w ∧
      tget s.launches c.g.launch = some c.l ∧ c.inst = i ∧ c.len = instBytes i := by
  unfold ctxOf at h
  split at h
  · next k hk =>
    unfold groupCtx at h
    split at h
    · simp at h
    · next g hg =>
      split at h
      · next w l hw hl => simp only [Option.some.injEq] at h; subst h; exact ⟨hk, hg, hw, hl, rfl, rfl⟩
      · simp at h
  · simp at h

/-! ## Issue (R81, R241, R299) -/

/-- Issue with the scoreboard clear and no logged access: the effect settles. -/
theorem issue_ready {i : Instr} {s : State} {c : Ctx} (body : Ctx → Eff) (h : Ready s i c)
    (hv : isVector i = false ∨ execMask c.g ≠ 0) : issue i s body = .next (settle s c (body c)) := by
  obtain ⟨hc, hs, hd⟩ := h
  have he : (isVector i && execMask c.g == 0) = false := by
    rcases hv with hv | hv
    · rw [hv]; rfl
    · rw [beq_false_of_ne hv, Bool.and_false]
  have hd' : (c.g.handler || c.g.log.entries.isEmpty) = true := by
    rcases hd with hd | hd <;> simp [hd]
  simp only [issue, hc, hs, he, hd', if_true, if_false, Bool.false_eq_true]

/-- A vector instruction with no lane to work on retires without effect (R81). -/
theorem issue_skip {i : Instr} {s : State} {c : Ctx} (body : Ctx → Eff) (h : Ready s i c)
    (hv : isVector i = true) (h0 : execMask c.g = 0) : issue i s body = .next (settle s c (.next s c.g)) := by
  obtain ⟨hc, hs, hd⟩ := h
  have hd' : (c.g.handler || c.g.log.entries.isEmpty) = true := by
    rcases hd with hd | hd <;> simp [hd]
  simp [issue, hc, hs, hv, h0, hd']

/-- Issue behind logged accesses. -/
theorem issue_behind {i : Instr} {s : State} {c : Ctx} (body : Ctx → Eff) (h : Behind s i c) :
    issue i s body =
      .next (settleLogged s c (if isVector i && execMask c.g == 0 then .next s c.g else body c)) := by
  obtain ⟨hc, hs, hh, hl⟩ := h
  have hl' : c.g.log.entries.isEmpty = false := by
    cases hlog : c.g.log.entries with
    | nil => exact absurd hlog hl
    | cons _ _ => rfl
  simp [issue, hc, hs, hh, hl']

/-- Nothing issues without a group. -/
theorem issue_nobody {i : Instr} {s : State} (body : Ctx → Eff) (h : ctxOf s i = none) :
    issue i s body = .fault .noIssuer := by simp [issue, h]

/-! ## Retirement (R182, R245, R365) -/

/-- The group as retirement leaves it before the logical tick. -/
def countedGroup (s : State) (c : Ctx) (g : Group) (pc : DWord) : Group :=
  { countRetired s c g with pc := pc, barw := none, since := none }

/-- Whether a logical tick comes due as the group retires (R220). -/
def tickFollows (c : Ctx) (g : Group) : Bool := c.l.kern.logical && (g.sp.ric + 1).toNat % c.l.kern.hbperiod == 0

/-- The group as retirement leaves it. -/
def retiredGroup (s : State) (c : Ctx) (g : Group) (pc : DWord) : Group :=
  if tickFollows c g then { countedGroup s c g pc with tickDue := true } else countedGroup s c g pc

theorem retiredGroup_counted (s : State) (c : Ctx) (g : Group) (pc : DWord) : Counted g (retiredGroup s c g pc) := by
  unfold retiredGroup
  split <;> simp [Counted, countedGroup, countRetired]

@[simp] theorem retiredGroup_pc (s : State) (c : Ctx) (g : Group) (pc : DWord) : (retiredGroup s c g pc).pc = pc := by
  unfold retiredGroup; split <;> rfl

/-- A logical heartbeat tick touches its group's mark alone. -/
theorem logicalTick_eq (s : State) (c : Ctx) (g : Group) :
    logicalTick s c g = if c.l.kern.logical && g.sp.ric.toNat % c.l.kern.hbperiod == 0 then
      putGroup s c.k { g with tickDue := true } else s := rfl

/-- What retiring leaves of a state that has changed in the group alone. -/
theorem retire_spec {s : State} {i : Instr} {c : Ctx} (hc : ctxOf s i = some c) (g1 : Group) (pc : DWord)
    (hl : g1.launch = c.g.launch) (hw : g1.wg = c.g.wg) :
    Outside s (retire s c g1 pc) c ∧
      tget (retire s c g1 pc).groups c.k = some (retiredGroup s c g1 pc) := by
  obtain ⟨-, -, hwg, -, -, -⟩ := ctxOf_some hc
  have hk : gWg (countedGroup s c g1 pc) = gWg c.g := by simp [gWg, countedGroup, countRetired, hl, hw]
  have hcw : countWg s (countedGroup s c g1 pc) = putWg s (gWg c.g) { c.w with retired := c.w.retired + 1 } := by
    simp [countWg, hk, hwg]
  have hr : retire s c g1 pc = logicalTick
      { putGroup (putWg s (gWg c.g) { c.w with retired := c.w.retired + 1 }) c.k (countedGroup s c g1 pc) with cur := none }
      c (countedGroup s c g1 pc) := by rw [← hcw]; rfl
  have ht : (c.l.kern.logical && (countedGroup s c g1 pc).sp.ric.toNat % c.l.kern.hbperiod == 0) = tickFollows c g1 := rfl
  rw [hr, logicalTick_eq, ht]
  unfold retiredGroup
  split
  all_goals
    refine ⟨⟨fun j hj => ?_, fun key hkey => ?_, ?_, rfl⟩, ?_⟩
    · simp [tget_tput_ne _ _ hj]
    · exact tget_tput_ne _ _ hkey
    · exact tget_tput_same _ _ _
    · exact tget_tput_same _ _ _

/-- An instruction whose effect is on its group alone retires, and the next instruction in sequence follows. -/
theorem retires_next {i : Instr} {s : State} {c : Ctx} {body : Ctx → Eff} {g1 : Group} {P : Group → Prop}
    (he : exec i s = issue i s body) (h : Ready s i c) (hv : isVector i = false ∨ execMask c.g ≠ 0)
    (hb : body c = .next s g1) (hl : g1.launch = c.g.launch) (hw : g1.wg = c.g.wg)
    (hP : ∀ g', Counted g1 g' → P g') : Retires i s c (after i c) P := by
  have hlen := (ctxOf_some h.1).2.2.2.2.2
  obtain ⟨ho, hg'⟩ := retire_spec h.1 g1 (c.g.pc + BitVec.ofNat 64 c.len) hl hw
  refine ⟨_, _, ?_, ho, hg', ?_, hP _ (retiredGroup_counted _ _ _ _)⟩
  · rw [he, issue_ready body h hv, hb]; rfl
  · simp [hlen, after]

/-- An instruction whose effect is on its group alone retires, and control goes elsewhere. -/
theorem retires_goto {i : Instr} {s : State} {c : Ctx} {body : Ctx → Eff} {g1 : Group} {pc : DWord} {P : Group → Prop}
    (he : exec i s = issue i s body) (h : Ready s i c) (hv : isVector i = false ∨ execMask c.g ≠ 0)
    (hb : body c = .goto s g1 pc) (hl : g1.launch = c.g.launch) (hw : g1.wg = c.g.wg)
    (hP : ∀ g', Counted g1 g' → P g') : Retires i s c pc P := by
  obtain ⟨ho, hg'⟩ := retire_spec h.1 g1 pc hl hw
  refine ⟨_, _, ?_, ho, hg', retiredGroup_pc _ _ _ _, hP _ (retiredGroup_counted _ _ _ _)⟩
  rw [he, issue_ready body h hv, hb]; rfl

/-! ## Traps (R238, R240) -/

/-- A trap that goes to a handler. -/
theorem takeTrap_handled (s : State) (c : Ctx) (m : Miss) (tpc : DWord) (h : Handled c) :
    Trapped s (takeTrap s c m tpc) c m.cause m.tval m.lanes tpc := by
  have ht : takeTrap s c m tpc = { putGroup s c.k (enterHandler c.g c.l.kern.handler m tpc) with cur := none } := by
    simp only [takeTrap, takeTrapAt, h.1, beq_false_of_ne h.2, Bool.or_false, Bool.false_eq_true, if_false]
  rw [ht]
  exact ⟨tget_tput_same _ _ _, fun j hj => tget_tput_ne _ _ hj, rfl⟩

/-- An instruction whose effect is a precise trap takes it. -/
theorem traps_of_body {i : Instr} {s : State} {c : Ctx} {body : Ctx → Eff} {m : Miss}
    (he : exec i s = issue i s body) (h : Ready s i c) (hv : isVector i = false ∨ execMask c.g ≠ 0)
    (hb : body c = .trap m) (hh : Handled c) : Traps i s c m.cause m.tval m.lanes c.g.pc := by
  refine ⟨_, ?_, takeTrap_handled s c m c.g.pc hh⟩
  rw [he, issue_ready body h hv, hb]; rfl

/-! ## Registers of a group -/

@[simp] theorem sreg_setS_same (g : Group) (n : Nat) (v : DWord) : sreg (setS g n v) n = v := by simp [sreg]

theorem sreg_setS_ne (g : Group) {n m : Nat} (v : DWord) (h : m ≠ n) : sreg (setS g n v) m = sreg g m := by
  simp [sreg, mget_mset_ne _ _ _ h]

@[simp] theorem vreg_setV_same (g : Group) (n : Nat) (v : VReg) : vreg (setV g n v) n = v := by simp [vreg]

theorem vreg_setV_ne (g : Group) {n m : Nat} (v : VReg) (h : m ≠ n) : vreg (setV g n v) m = vreg g m := by
  simp [vreg, mget_mset_ne _ _ _ h]

@[simp] theorem xreg_setX_same (g : Group) (n : Nat) (v : XReg) : xreg (setX g n v) n = v := by simp [xreg]

theorem xreg_setX_ne (g : Group) {n m : Nat} (v : XReg) (h : m ≠ n) : xreg (setX g n v) m = xreg g m := by
  simp [xreg, mget_mset_ne _ _ _ h]

/-- A mask split into a pair of registers and read back. -/
theorem ofPair_lo_hi (m : Mask) : Mask.ofPair m.lo m.hi = m := by
  unfold Mask.ofPair Mask.lo Mask.hi
  apply BitVec.eq_of_getLsbD_eq
  intro i hi
  simp only [BitVec.getLsbD_append, BitVec.getLsbD_extractLsb']
  by_cases h : i < 64
  · simp [h]
  · simp [h, show i - 64 < 64 by omega, show 64 + (i - 64) = i by omega]

@[simp] theorem spair_setPair_same (g : Group) (n : Nat) (m : Mask) : spair (setPair g n m) n = m := by
  simp [spair, setPair, sreg_setS_ne, ofPair_lo_hi]

theorem sreg_setPair_ne (g : Group) {n k : Nat} (m : Mask) (h : k ≠ n) (h1 : k ≠ n + 1) :
    sreg (setPair g n m) k = sreg g k := by
  simp [setPair, sreg_setS_ne _ _ h, sreg_setS_ne _ _ h1]

/-! ## The shapes of results -/

/-- An instruction whose effect is a scalar result writes it. -/
theorem writesScalar_of_body {i : Instr} {s : State} {c : Ctx} {body : Ctx → Eff} {sd : Nat} {v : DWord} {b : Bool}
    (he : exec i s = issue i s body) (h : Ready s i c) (hv : isVector i = false)
    (hb : body c = .next s { setS c.g sd v with scc := b }) : WritesScalar i s c sd v b := by
  refine retires_next he h (.inl hv) hb rfl rfl (fun g' hg => ?_)
  have e : g'.sregs = (setS c.g sd v).sregs := by rw [hg]
  refine ⟨?_, ?_, fun n hn => ?_⟩
  · rw [e]; exact hg
  · simp only [sreg, e]; exact sreg_setS_same _ _ _
  · simp only [sreg, e]; exact sreg_setS_ne _ _ hn

/-- An instruction whose effect is a mask result writes it. -/
theorem writesPair_of_body {i : Instr} {s : State} {c : Ctx} {body : Ctx → Eff} {sd : Nat} {m : Mask} {b : Bool}
    (he : exec i s = issue i s body) (h : Ready s i c) (hv : isVector i = false)
    (hb : body c = .next s { setPair c.g sd m with scc := b }) : WritesPair i s c sd m b := by
  refine retires_next he h (.inl hv) hb rfl rfl (fun g' hg => ?_)
  have e : g'.sregs = (setPair c.g sd m).sregs := by rw [hg]
  refine ⟨?_, ?_, fun n hn hn1 => ?_⟩
  · rw [e]; exact hg
  · simp only [spair, sreg, e]; exact spair_setPair_same _ _ _
  · simp only [sreg, e]; exact sreg_setPair_ne _ _ hn hn1

/-- An instruction of MAJ 0x02. -/
theorem scalarOp_of_arith {i : S2 → Instr} {op op' : S2 → DWord → DWord → DWord}
    (he : ∀ f s, exec (i f) s = issue (i f) s (fun c => arith s c f (op' f))) (hv : ∀ f, isVector (i f) = false)
    (ho : ∀ f d a, op' f d a = op f d a) : ScalarOp i op := by
  intro f s c h
  refine writesScalar_of_body (he f s) h (hv f) ?_
  simp only [arith, ho]
  split <;> rfl

/-- An instruction whose effect parks its group parks it. -/
theorem parks_of_body {i : Instr} {s : State} {c : Ctx} {body : Ctx → Eff} {p : Park}
    (he : exec i s = issue i s body) (h : Ready s i c) (hv : isVector i = false ∨ execMask c.g ≠ 0)
    (hb : body c = .park s c.g p) : Parks i s c p := by
  unfold Parks ParksIn; rw [he, issue_ready body h hv, hb]; rfl

/-- An instruction whose effect waits at issue waits. -/
theorem stalls_of_body {i : Instr} {s : State} {c : Ctx} {body : Ctx → Eff}
    (he : exec i s = issue i s body) (h : Ready s i c) (hv : isVector i = false ∨ execMask c.g ≠ 0)
    (hb : body c = .stall) : Stalls i s c := by
  unfold Stalls; rw [he, issue_ready body h hv, hb]; rfl

/-- The length of an instruction of format S2 in bytes. -/
theorem instBytes_of_length {i : Instr} {n : Nat} (h : (encode i).length = n) : instBytes i = 4 * n := by simp [instBytes, h]

/-! ## Tile operations that leave their counter (R228, log 107) -/

/-- The oldest operation stays while it is not complete. -/
theorem leaveDown_undone (n : Nat) (p : Pend) (t : List Pend) (h : p.done = false) : leaveDown n (p :: t) = (p :: t, []) := by
  simp [leaveDown, h]

/-- None leaves a counter that holds no more than `n`. -/
theorem leaveDown_short (n : Nat) : ∀ t : List Pend, t.length ≤ n → leaveDown n t = (t, [])
  | [], _ => rfl
  | p :: t, h => by
    have h2 : ¬n ≤ t.length := by simp at h; omega
    simp [leaveDown, h2]

/-- Complete operations leave, oldest first, down to the `n` that remain, with all that they report. -/
theorem leaveDown_append (n : Nat) (stay : List Pend) (hs : stay.length = n) :
    ∀ gone : List Pend, (∀ p ∈ gone, p.done = true) → leaveDown n (gone ++ stay) = (stay, gone.filterMap (fun p => p.report))
  | [], _ => leaveDown_short n stay (le_of_eq hs)
  | p :: t, h => by
    have ih := leaveDown_append n stay hs t (fun q hq => h q (List.mem_cons_of_mem _ hq))
    have hp : p.done = true := h p List.mem_cons_self
    have hn : n ≤ (t ++ stay).length := by simp; omega
    simp only [List.cons_append, leaveDown, hp, hn, and_self, if_true, ih]
    cases hr : p.report <;> simp [hr]

/-- Outside a DET launch none waits so. -/
theorem tileLeave_not_det (s : State) (g : Group) (n : Nat) (h : launchDet s g.launch = false) : tileLeave s g n = (s, g) := by
  simp [tileLeave, h]

/-- What leaving changes of a group: its tile counter and its reports. -/
theorem tileLeave_group (s : State) (g : Group) (n : Nat) :
    (tileLeave s g n).2 = { g with tile := (tileLeave s g n).2.tile, reports := (tileLeave s g n).2.reports } := by
  unfold tileLeave
  split <;> rfl

/-- What it changes of the state: the operations in flight and the tape tables. -/
theorem tileLeave_frame (s : State) (g : Group) (n : Nat) :
    ∃ cores ops, (tileLeave s g n).1 = { s with cores := cores, ops := ops } := by
  have h : ∀ (ps : List Pend) (s : State), ∃ cores ops,
      ps.foldl (fun s p => dropTape { s with ops := tdel s.ops p.op } p.op) s = { s with cores := cores, ops := ops } := by
    intro ps
    induction ps with
    | nil => exact fun s => ⟨_, _, rfl⟩
    | cons p t ih =>
      intro s
      obtain ⟨cs, os, e⟩ := ih (dropTape { s with ops := tdel s.ops p.op } p.op)
      exact ⟨cs, os, by rw [List.foldl_cons, e]; rfl⟩
  unfold tileLeave
  split
  · exact h _ s
  · exact ⟨_, _, rfl⟩

end Sys2Proof.Machine
end

