-- ==== Sys2Proof/Laws/Memory.lean ====
section
/-! SUPPORT. Memory: reading after writing, and its canonical form kept by every operation on it. -/

namespace Sys2Proof.Machine

@[simp] theorem memWf_nil : memWf [] = true := rfl

/-- Writing bytes keeps the canonical form. -/
theorem memWrite_wf (s : State) (a : Nat) (bs : List Byte) (h : memWf s.mem = true) : memWf (memWrite s a bs).mem = true :=
  mapWf_msetRun 0 s.mem a bs h

/-- Writing a number keeps the canonical form. -/
theorem memPut_wf (s : State) (a n v : Nat) (h : memWf s.mem = true) : memWf (memPut s a n v).mem = true :=
  memWrite_wf s a _ h

/-- A byte outside what is written reads as before. -/
theorem memByte_memWrite_out (s : State) (a b : Nat) (bs : List Byte) (h : b < a ∨ a + bs.length ≤ b) :
    memByte (memWrite s a bs) b = memByte s b := mget_msetRun_out 0 s.mem a b bs h

/-- A byte that is written reads as written. -/
theorem memByte_memWrite_in (s : State) (a i : Nat) (bs : List Byte) (h : i < bs.length) :
    memByte (memWrite s a bs) (a + i) = bs[i] := mget_msetRun_in 0 s.mem a i bs h

@[simp] theorem bytesOf_length (n v : Nat) : (bytesOf n v).length = n := by simp [bytesOf]

theorem tblWf_append {α : Type} (t u : Tbl α) (ht : tblWf t = true) (hu : tblWf u = true)
    (h : ∀ p ∈ t, ∀ q ∈ u, p.1 < q.1) : tblWf (t ++ u) = true := by
  induction t with
  | nil => exact hu
  | cons r t ih =>
    obtain ⟨k, w⟩ := r
    have hk := (tblWf_cons k w t).1 ht
    refine (tblWf_cons k w _).2 ⟨fun p hp => ?_, ih hk.2 (fun p hp => h p (by simp [hp]))⟩
    rcases List.mem_append.1 hp with hp | hp
    · exact hk.1 p hp
    · exact h (k, w) (by simp) p hp

/-- Putting new entries in place of a range keeps the canonical form. -/
theorem replaceRange_wf {α : Type} [DecidableEq α] (d : α) (m new : Tbl α) (a n : Nat) (hm : mapWf d m = true)
    (hn : mapWf d new = true) (hin : ∀ p ∈ new, a ≤ p.1 ∧ p.1 < a + n) : mapWf d (replaceRange m a n new) = true := by
  rw [mapWf_iff] at hm hn ⊢
  unfold replaceRange
  refine ⟨tblWf_append _ _ (tblWf_append _ _ (tblWf_filter _ _ hm.1) hn.1 ?_) (tblWf_filter _ _ hm.1) ?_, ?_⟩
  · intro p hp q hq
    have h1 := of_decide_eq_true (List.mem_filter.1 hp).2
    have h2 := (hin q hq).1
    omega
  · intro p hp q hq
    have h2 := of_decide_eq_true (List.mem_filter.1 hq).2
    rcases List.mem_append.1 hp with hp | hp
    · have h1 := of_decide_eq_true (List.mem_filter.1 hp).2
      omega
    · have h1 := (hin p hp).2
      omega
  · intro p hp
    rcases List.mem_append.1 hp with hp | hp
    · rcases List.mem_append.1 hp with hp | hp
      · exact hm.2 p (List.mem_filter.1 hp).1
      · exact hn.2 p hp
    · exact hm.2 p (List.mem_filter.1 hp).1

theorem tblWf_shift {α : Type} (t : Tbl α) (lo to' : Nat) (h : tblWf t = true) (hlo : ∀ p ∈ t, lo ≤ p.1) :
    tblWf (t.map (fun e => (e.1 - lo + to', e.2))) = true := by
  induction t with
  | nil => rfl
  | cons r t ih =>
    obtain ⟨k, w⟩ := r
    have hk := (tblWf_cons k w t).1 h
    simp only [List.map_cons]
    refine (tblWf_cons _ _ _).2 ⟨fun p hp => ?_, ih hk.2 (fun p hp => hlo p (by simp [hp]))⟩
    obtain ⟨q, hq, rfl⟩ := List.mem_map.1 hp
    have h1 := hk.1 q hq
    have h2 := hlo (k, w) (by simp)
    simp only at h2 ⊢
    omega

/-- The entries of a range, moved to another address, are canonical and lie in the range they are moved to. -/
theorem movedRange_wf {α : Type} [DecidableEq α] (d : α) (m : Tbl α) (lo n to' : Nat) (hm : mapWf d m = true) :
    mapWf d (movedRange m lo n to') = true ∧ ∀ p ∈ movedRange m lo n to', to' ≤ p.1 ∧ p.1 < to' + n := by
  rw [mapWf_iff] at hm ⊢
  unfold movedRange
  refine ⟨⟨tblWf_shift _ _ _ (tblWf_filter _ _ hm.1) (fun p hp => ?_), fun p hp => ?_⟩, fun p hp => ?_⟩
  · have := (List.mem_filter.1 hp).2
    simp only [Bool.and_eq_true, decide_eq_true_eq] at this
    exact this.1
  · obtain ⟨q, hq, rfl⟩ := List.mem_map.1 hp
    exact hm.2 q (List.mem_filter.1 hq).1
  · obtain ⟨q, hq, rfl⟩ := List.mem_map.1 hp
    have := (List.mem_filter.1 hq).2
    simp only [Bool.and_eq_true, decide_eq_true_eq] at this
    simp only
    omega

end Sys2Proof.Machine
end

