-- ==== Sys2Proof/Laws/PerInstr.lean ====
section
/-! SUPPORT. For every instruction: the LEN field of its first word gives its length in words (R56). -/

namespace Sys2Proof.Laws.Length

/-- An instruction has words exactly when it is no event, and they are as many as the LEN field of the first says (R56). -/
def Statement (i : Instr) : Prop := encode i ≠ [] → (encode i).length = lenWords ((encode i).headD 0)

theorem len_S2 (maj : BitVec 6) (fn : BitVec 4) (f : S2) : ((encS2 maj fn f).headD 0).extractLsb' 30 2 = len0 f.lit := by
  apply BitVec.eq_of_getLsbD_eq
  intro i hi
  simp only [encS2, List.headD_cons, BitVec.getLsbD_extractLsb', BitVec.getLsbD_append, hi, decide_true, Bool.true_and]
  have h : i = 0 ∨ i = 1 := by omega
  rcases h with rfl | rfl <;> rfl

theorem words_S2 (maj : BitVec 6) (fn : BitVec 4) (f : S2) : (encS2 maj fn f).length = lenWords ((encS2 maj fn f).headD 0) := by
  rw [lenWords, len_S2]
  cases h : f.lit <;> simp [encS2, encLit, len0, h]

theorem len_SI (maj : BitVec 6) (f : SI) : ((encSI maj f).headD 0).extractLsb' 30 2 = 0 := by
  apply BitVec.eq_of_getLsbD_eq
  intro i hi
  simp only [encSI, List.headD_cons, BitVec.getLsbD_extractLsb', BitVec.getLsbD_append, hi, decide_true, Bool.true_and]
  have h : i = 0 ∨ i = 1 := by omega
  rcases h with rfl | rfl <;> rfl

theorem words_SI (maj : BitVec 6) (f : SI) : (encSI maj f).length = lenWords ((encSI maj f).headD 0) := by
  rw [lenWords, len_SI]
  simp [encSI]

theorem len_SIL (maj : BitVec 6) (f : SIL) : ((encSIL maj f).headD 0).extractLsb' 30 2 = 2 := by
  apply BitVec.eq_of_getLsbD_eq
  intro i hi
  simp only [encSIL, List.headD_cons, BitVec.getLsbD_extractLsb', BitVec.getLsbD_append, hi, decide_true, Bool.true_and]
  have h : i = 0 ∨ i = 1 := by omega
  rcases h with rfl | rfl <;> rfl

theorem words_SIL (maj : BitVec 6) (f : SIL) : (encSIL maj f).length = lenWords ((encSIL maj f).headD 0) := by
  rw [lenWords, len_SIL]
  simp [encSIL, encLit]

theorem len_SB (maj : BitVec 6) (f : SB) : ((encSB maj f).headD 0).extractLsb' 30 2 = 0 := by
  apply BitVec.eq_of_getLsbD_eq
  intro i hi
  simp only [encSB, List.headD_cons, BitVec.getLsbD_extractLsb', BitVec.getLsbD_append, hi, decide_true, Bool.true_and]
  have h : i = 0 ∨ i = 1 := by omega
  rcases h with rfl | rfl <;> rfl

theorem words_SB (maj : BitVec 6) (f : SB) : (encSB maj f).length = lenWords ((encSB maj f).headD 0) := by
  rw [lenWords, len_SB]
  simp [encSB]

theorem len_WF (maj : BitVec 6) (f : WF) : ((encWF maj f).headD 0).extractLsb' 30 2 = 0 := by
  apply BitVec.eq_of_getLsbD_eq
  intro i hi
  simp only [encWF, List.headD_cons, BitVec.getLsbD_extractLsb', BitVec.getLsbD_append, hi, decide_true, Bool.true_and]
  have h : i = 0 ∨ i = 1 := by omega
  rcases h with rfl | rfl <;> rfl

theorem words_WF (maj : BitVec 6) (f : WF) : (encWF maj f).length = lenWords ((encWF maj f).headD 0) := by
  rw [lenWords, len_WF]
  simp [encWF]

theorem len_SX (maj : BitVec 6) (fn : BitVec 8) (f : SX) : ((encSX maj fn f).headD 0).extractLsb' 30 2 = len1 f.lit := by
  apply BitVec.eq_of_getLsbD_eq
  intro i hi
  simp only [encSX, List.headD_cons, BitVec.getLsbD_extractLsb', BitVec.getLsbD_append, hi, decide_true, Bool.true_and]
  have h : i = 0 ∨ i = 1 := by omega
  rcases h with rfl | rfl <;> rfl

theorem words_SX (maj : BitVec 6) (fn : BitVec 8) (f : SX) : (encSX maj fn f).length = lenWords ((encSX maj fn f).headD 0) := by
  rw [lenWords, len_SX]
  cases h : f.lit <;> simp [encSX, encLit, len1, h]

theorem len_VX (maj : BitVec 6) (fn : BitVec 8) (f : VX) : ((encVX maj fn f).headD 0).extractLsb' 30 2 = len1 f.lit := by
  apply BitVec.eq_of_getLsbD_eq
  intro i hi
  simp only [encVX, List.headD_cons, BitVec.getLsbD_extractLsb', BitVec.getLsbD_append, hi, decide_true, Bool.true_and]
  have h : i = 0 ∨ i = 1 := by omega
  rcases h with rfl | rfl <;> rfl

theorem words_VX (maj : BitVec 6) (fn : BitVec 8) (f : VX) : (encVX maj fn f).length = lenWords ((encVX maj fn f).headD 0) := by
  rw [lenWords, len_VX]
  cases h : f.lit <;> simp [encVX, encLit, len1, h]

theorem len_TX (maj : BitVec 6) (fn : BitVec 8) (f : TX) : ((encTX maj fn f).headD 0).extractLsb' 30 2 = len1 f.lit := by
  apply BitVec.eq_of_getLsbD_eq
  intro i hi
  simp only [encTX, List.headD_cons, BitVec.getLsbD_extractLsb', BitVec.getLsbD_append, hi, decide_true, Bool.true_and]
  have h : i = 0 ∨ i = 1 := by omega
  rcases h with rfl | rfl <;> rfl

theorem words_TX (maj : BitVec 6) (fn : BitVec 8) (f : TX) : (encTX maj fn f).length = lenWords ((encTX maj fn f).headD 0) := by
  rw [lenWords, len_TX]
  cases h : f.lit <;> simp [encTX, encLit, len1, h]

theorem len_CX (maj : BitVec 6) (fn : BitVec 8) (f : CX) : ((encCX maj fn f).headD 0).extractLsb' 30 2 = len1 f.lit := by
  apply BitVec.eq_of_getLsbD_eq
  intro i hi
  simp only [encCX, List.headD_cons, BitVec.getLsbD_extractLsb', BitVec.getLsbD_append, hi, decide_true, Bool.true_and]
  have h : i = 0 ∨ i = 1 := by omega
  rcases h with rfl | rfl <;> rfl

theorem words_CX (maj : BitVec 6) (fn : BitVec 8) (f : CX) : (encCX maj fn f).length = lenWords ((encCX maj fn f).headD 0) := by
  rw [lenWords, len_CX]
  cases h : f.lit <;> simp [encCX, encLit, len1, h]

theorem len_QX (maj : BitVec 6) (fn : BitVec 8) (f : QX) : ((encQX maj fn f).headD 0).extractLsb' 30 2 = len1 f.lit := by
  apply BitVec.eq_of_getLsbD_eq
  intro i hi
  simp only [encQX, List.headD_cons, BitVec.getLsbD_extractLsb', BitVec.getLsbD_append, hi, decide_true, Bool.true_and]
  have h : i = 0 ∨ i = 1 := by omega
  rcases h with rfl | rfl <;> rfl

theorem words_QX (maj : BitVec 6) (fn : BitVec 8) (f : QX) : (encQX maj fn f).length = lenWords ((encQX maj fn f).headD 0) := by
  rw [lenWords, len_QX]
  cases h : f.lit <;> simp [encQX, encLit, len1, h]

theorem nop (f : S2) : Statement (.nop f) := fun _ => words_S2 0x00 _ f
theorem endg (f : S2) : Statement (.endg f) := fun _ => words_S2 0x00 _ f
theorem trap (f : S2) : Statement (.trap f) := fun _ => words_S2 0x00 _ f
theorem rft (f : S2) : Statement (.rft f) := fun _ => words_S2 0x00 _ f
theorem yield (f : S2) : Statement (.yield f) := fun _ => words_S2 0x00 _ f
theorem clkr (f : S2) : Statement (.clkr f) := fun _ => words_S2 0x00 _ f
theorem idr (f : S2) : Statement (.idr f) := fun _ => words_S2 0x00 _ f
theorem sysr (f : S2) : Statement (.sysr f) := fun _ => words_S2 0x00 _ f
theorem sysw (f : S2) : Statement (.sysw f) := fun _ => words_S2 0x00 _ f
theorem fence (f : S2) : Statement (.fence f) := fun _ => words_S2 0x00 _ f
theorem ret (f : S2) : Statement (.ret f) := fun _ => words_S2 0x00 _ f
theorem jmp (f : S2) : Statement (.jmp f) := fun _ => words_S2 0x00 _ f
theorem wait (f : WF) : Statement (.wait f) := fun _ => words_WF 0x01 f
theorem sadd (f : S2) : Statement (.sadd f) := fun _ => words_S2 0x02 _ f
theorem ssub (f : S2) : Statement (.ssub f) := fun _ => words_S2 0x02 _ f
theorem smul (f : S2) : Statement (.smul f) := fun _ => words_S2 0x02 _ f
theorem smulh (f : S2) : Statement (.smulh f) := fun _ => words_S2 0x02 _ f
theorem sand (f : S2) : Statement (.sand f) := fun _ => words_S2 0x02 _ f
theorem sor (f : S2) : Statement (.sor f) := fun _ => words_S2 0x02 _ f
theorem sxor (f : S2) : Statement (.sxor f) := fun _ => words_S2 0x02 _ f
theorem sandn (f : S2) : Statement (.sandn f) := fun _ => words_S2 0x02 _ f
theorem sshl (f : S2) : Statement (.sshl f) := fun _ => words_S2 0x02 _ f
theorem sshr (f : S2) : Statement (.sshr f) := fun _ => words_S2 0x02 _ f
theorem ssra (f : S2) : Statement (.ssra f) := fun _ => words_S2 0x02 _ f
theorem smin (f : S2) : Statement (.smin f) := fun _ => words_S2 0x02 _ f
theorem smax (f : S2) : Statement (.smax f) := fun _ => words_S2 0x02 _ f
theorem smov (f : S2) : Statement (.smov f) := fun _ => words_S2 0x02 _ f
theorem spopc (f : S2) : Statement (.spopc f) := fun _ => words_S2 0x02 _ f
theorem sclz (f : S2) : Statement (.sclz f) := fun _ => words_S2 0x02 _ f
theorem saddi (f : SI) : Statement (.saddi f) := fun _ => words_SI 0x03 f
theorem sli (f : SI) : Statement (.sli f) := fun _ => words_SI 0x04 f
theorem sliLit (f : SIL) : Statement (.sliLit f) := fun _ => words_SIL 0x04 f
theorem brc (f : SB) : Statement (.brc f) := fun _ => words_SB 0x05 f
theorem call (f : SB) : Statement (.call f) := fun _ => words_SB 0x06 f
theorem scmp (f : SX) : Statement (.scmp f) := fun _ => words_SX 0x07 _ f
theorem ssel (f : SX) : Statement (.ssel f) := fun _ => words_SX 0x07 _ f
theorem sbfx (f : SX) : Statement (.sbfx f) := fun _ => words_SX 0x07 _ f
theorem sbfi (f : SX) : Statement (.sbfi f) := fun _ => words_SX 0x07 _ f
theorem sld (f : SX) : Statement (.sld f) := fun _ => words_SX 0x08 _ f
theorem sst (f : SX) : Statement (.sst f) := fun _ => words_SX 0x08 _ f
theorem slda (f : SX) : Statement (.slda f) := fun _ => words_SX 0x08 _ f
theorem msplit (f : SX) : Statement (.msplit f) := fun _ => words_SX 0x09 _ f
theorem mopen (f : SX) : Statement (.mopen f) := fun _ => words_SX 0x09 _ f
theorem marrive (f : SX) : Statement (.marrive f) := fun _ => words_SX 0x09 _ f
theorem mjoin (f : SX) : Statement (.mjoin f) := fun _ => words_SX 0x09 _ f
theorem mmov (f : SX) : Statement (.mmov f) := fun _ => words_SX 0x09 _ f
theorem mpopc (f : SX) : Statement (.mpopc f) := fun _ => words_SX 0x09 _ f
theorem palset (f : SX) : Statement (.palset f) := fun _ => words_SX 0x0A _ f
theorem palget (f : SX) : Statement (.palget f) := fun _ => words_SX 0x0A _ f
theorem fpcset (f : SX) : Statement (.fpcset f) := fun _ => words_SX 0x0A _ f
theorem fpcget (f : SX) : Statement (.fpcget f) := fun _ => words_SX 0x0A _ f
theorem fork (f : SX) : Statement (.fork f) := fun _ => words_SX 0x0B _ f
theorem vfork (f : SX) : Statement (.vfork f) := fun _ => words_SX 0x0B _ f
theorem join (f : SX) : Statement (.join f) := fun _ => words_SX 0x0B _ f
theorem taskend (f : SX) : Statement (.taskend f) := fun _ => words_SX 0x0B _ f
theorem launch (f : SX) : Statement (.launch f) := fun _ => words_SX 0x0B _ f
theorem waitw (f : SX) : Statement (.waitw f) := fun _ => words_SX 0x0C _ f
theorem bara (f : SX) : Statement (.bara f) := fun _ => words_SX 0x0C _ f
theorem barw (f : SX) : Statement (.barw f) := fun _ => words_SX 0x0C _ f
theorem baraw (f : SX) : Statement (.baraw f) := fun _ => words_SX 0x0C _ f
theorem vadd (f : VX) : Statement (.vadd f) := fun _ => words_VX 0x14 _ f
theorem vsub (f : VX) : Statement (.vsub f) := fun _ => words_VX 0x14 _ f
theorem vmul (f : VX) : Statement (.vmul f) := fun _ => words_VX 0x14 _ f
theorem vmulh (f : VX) : Statement (.vmulh f) := fun _ => words_VX 0x14 _ f
theorem vmad (f : VX) : Statement (.vmad f) := fun _ => words_VX 0x14 _ f
theorem vabs (f : VX) : Statement (.vabs f) := fun _ => words_VX 0x14 _ f
theorem vmin (f : VX) : Statement (.vmin f) := fun _ => words_VX 0x14 _ f
theorem vmax (f : VX) : Statement (.vmax f) := fun _ => words_VX 0x14 _ f
theorem vand (f : VX) : Statement (.vand f) := fun _ => words_VX 0x15 _ f
theorem vor (f : VX) : Statement (.vor f) := fun _ => words_VX 0x15 _ f
theorem vxor (f : VX) : Statement (.vxor f) := fun _ => words_VX 0x15 _ f
theorem vandn (f : VX) : Statement (.vandn f) := fun _ => words_VX 0x15 _ f
theorem vshl (f : VX) : Statement (.vshl f) := fun _ => words_VX 0x15 _ f
theorem vshr (f : VX) : Statement (.vshr f) := fun _ => words_VX 0x15 _ f
theorem vsra (f : VX) : Statement (.vsra f) := fun _ => words_VX 0x15 _ f
theorem vpopc (f : VX) : Statement (.vpopc f) := fun _ => words_VX 0x15 _ f
theorem vclz (f : VX) : Statement (.vclz f) := fun _ => words_VX 0x15 _ f
theorem vbfx (f : VX) : Statement (.vbfx f) := fun _ => words_VX 0x15 _ f
theorem vbfi (f : VX) : Statement (.vbfi f) := fun _ => words_VX 0x15 _ f
theorem vcmp (f : VX) : Statement (.vcmp f) := fun _ => words_VX 0x16 _ f
theorem vsel (f : VX) : Statement (.vsel f) := fun _ => words_VX 0x16 _ f
theorem vmov (f : VX) : Statement (.vmov f) := fun _ => words_VX 0x16 _ f
theorem vlane (f : VX) : Statement (.vlane f) := fun _ => words_VX 0x16 _ f
theorem vins (f : VX) : Statement (.vins f) := fun _ => words_VX 0x16 _ f
theorem vfadd (f : VX) : Statement (.vfadd f) := fun _ => words_VX 0x17 _ f
theorem vfsub (f : VX) : Statement (.vfsub f) := fun _ => words_VX 0x17 _ f
theorem vfmul (f : VX) : Statement (.vfmul f) := fun _ => words_VX 0x17 _ f
theorem vfma (f : VX) : Statement (.vfma f) := fun _ => words_VX 0x17 _ f
theorem vfdiv (f : VX) : Statement (.vfdiv f) := fun _ => words_VX 0x17 _ f
theorem vfsqrt (f : VX) : Statement (.vfsqrt f) := fun _ => words_VX 0x17 _ f
theorem vfmin (f : VX) : Statement (.vfmin f) := fun _ => words_VX 0x17 _ f
theorem vfmax (f : VX) : Statement (.vfmax f) := fun _ => words_VX 0x17 _ f
theorem vfrcpa (f : VX) : Statement (.vfrcpa f) := fun _ => words_VX 0x17 _ f
theorem vfrsqa (f : VX) : Statement (.vfrsqa f) := fun _ => words_VX 0x17 _ f
theorem vfcmp (f : VX) : Statement (.vfcmp f) := fun _ => words_VX 0x18 _ f
theorem vfclass (f : VX) : Statement (.vfclass f) := fun _ => words_VX 0x18 _ f
theorem vfrnd (f : VX) : Statement (.vfrnd f) := fun _ => words_VX 0x18 _ f
theorem vfcvt (f : VX) : Statement (.vfcvt f) := fun _ => words_VX 0x18 _ f
theorem vshuf (f : VX) : Statement (.vshuf f) := fun _ => words_VX 0x19 _ f
theorem vbcast (f : VX) : Statement (.vbcast f) := fun _ => words_VX 0x19 _ f
theorem vred (f : VX) : Statement (.vred f) := fun _ => words_VX 0x19 _ f
theorem vscan (f : VX) : Statement (.vscan f) := fun _ => words_VX 0x19 _ f
theorem vld (f : VX) : Statement (.vld f) := fun _ => words_VX 0x1A _ f
theorem vst (f : VX) : Statement (.vst f) := fun _ => words_VX 0x1A _ f
theorem vldx (f : VX) : Statement (.vldx f) := fun _ => words_VX 0x1A _ f
theorem vstx (f : VX) : Statement (.vstx f) := fun _ => words_VX 0x1A _ f
theorem vatom (f : VX) : Statement (.vatom f) := fun _ => words_VX 0x1A _ f
theorem vslice (f : VX) : Statement (.vslice f) := fun _ => words_VX 0x1B _ f
theorem vrand (f : VX) : Statement (.vrand f) := fun _ => words_VX 0x1B _ f
theorem tcfg (f : TX) : Statement (.tcfg f) := fun _ => words_TX 0x28 _ f
theorem tzero (f : TX) : Statement (.tzero f) := fun _ => words_TX 0x28 _ f
theorem tmov (f : TX) : Statement (.tmov f) := fun _ => words_TX 0x28 _ f
theorem tflgGet (f : TX) : Statement (.tflgGet f) := fun _ => words_TX 0x28 _ f
theorem tflgSet (f : TX) : Statement (.tflgSet f) := fun _ => words_TX 0x28 _ f
theorem tld (f : TX) : Statement (.tld f) := fun _ => words_TX 0x29 _ f
theorem tldw (f : TX) : Statement (.tldw f) := fun _ => words_TX 0x29 _ f
theorem tst (f : TX) : Statement (.tst f) := fun _ => words_TX 0x29 _ f
theorem tmma (f : TX) : Statement (.tmma f) := fun _ => words_TX 0x2A _ f
theorem tcomb (f : TX) : Statement (.tcomb f) := fun _ => words_TX 0x2A _ f
theorem tcvt (f : TX) : Statement (.tcvt f) := fun _ => words_TX 0x2A _ f
theorem tadd (f : TX) : Statement (.tadd f) := fun _ => words_TX 0x2A _ f
theorem xset (f : CX) : Statement (.xset f) := fun _ => words_CX 0x2E _ f
theorem xinv (f : CX) : Statement (.xinv f) := fun _ => words_CX 0x2E _ f
theorem grun (f : CX) : Statement (.grun f) := fun _ => words_CX 0x2E _ f
theorem gsig (f : CX) : Statement (.gsig f) := fun _ => words_CX 0x2E _ f
theorem cfence (f : CX) : Statement (.cfence f) := fun _ => words_CX 0x2E _ f
theorem cpy (f : CX) : Statement (.cpy f) := fun _ => words_CX 0x2F _ f
theorem cpyx (f : CX) : Statement (.cpyx f) := fun _ => words_CX 0x2F _ f
theorem cpyf (f : CX) : Statement (.cpyf f) := fun _ => words_CX 0x2F _ f
theorem fat (f : CX) : Statement (.fat f) := fun _ => words_CX 0x30 _ f
theorem fred (f : CX) : Statement (.fred f) := fun _ => words_CX 0x30 _ f
theorem skget (f : CX) : Statement (.skget f) := fun _ => words_CX 0x31 _ f
theorem skput (f : CX) : Statement (.skput f) := fun _ => words_CX 0x31 _ f
theorem skrec (f : CX) : Statement (.skrec f) := fun _ => words_CX 0x31 _ f
theorem rst (f : QX) : Statement (.rst f) := fun _ => words_QX 0x36 _ f
theorem rsig (f : QX) : Statement (.rsig f) := fun _ => words_QX 0x36 _ f
theorem rwait (f : QX) : Statement (.rwait f) := fun _ => words_QX 0x36 _ f
theorem crun (f : QX) : Statement (.crun f) := fun _ => words_QX 0x36 _ f
theorem cbar (f : QX) : Statement (.cbar f) := fun _ => words_QX 0x36 _ f
theorem ptime (f : QX) : Statement (.ptime f) := fun _ => words_QX 0x36 _ f
theorem submit (f : RT) : Statement (.submit f) := by
  intro _
  have h : (((0 : BitVec 7) ++ f.rs2 ++ f.rs1 ++ (0 : BitVec 3) ++ f.rd ++ (0x0B : BitVec 7) : BitVec 32)).extractLsb' 30 2 = 0 := by
    apply BitVec.eq_of_getLsbD_eq
    intro i hi
    simp only [BitVec.getLsbD_extractLsb', BitVec.getLsbD_append, hi, decide_true, Bool.true_and]
    have h : i = 0 ∨ i = 1 := by omega
    rcases h with rfl | rfl <;> rfl
  simp only [encode, List.headD_cons, lenWords, h]
  rfl
theorem operandLogTimeout (group : Nat) : Statement (.operandLogTimeout group) := fun h => absurd rfl h
theorem partitionIssueSelect (core : Nat) (part : Nat) : Statement (.partitionIssueSelect core part) := fun h => absurd rfl h
theorem timedHeartbeatTick (core : Nat) : Statement (.timedHeartbeatTick core) := fun h => absurd rfl h
theorem logicalHeartbeatTick (group : Nat) : Statement (.logicalHeartbeatTick group) := fun h => absurd rfl h
theorem waitwRecheck (group : Nat) : Statement (.waitwRecheck group) := fun h => absurd rfl h
theorem rwaitRecheck (group : Nat) : Statement (.rwaitRecheck group) := fun h => absurd rfl h
theorem copyOpComplete (op : Nat) : Statement (.copyOpComplete op) := fun h => absurd rfl h
theorem tileOpComplete (op : Nat) : Statement (.tileOpComplete op) := fun h => absurd rfl h
theorem collOpComplete (op : Nat) (reply : Option Reply) : Statement (.collOpComplete op reply) := fun h => absurd rfl h
theorem farAtomicAtHome (op : Nat) (cell : Nat) : Statement (.farAtomicAtHome op cell) := fun h => absurd rfl h
theorem farAtomicResend (op : Nat) (cell : Nat) : Statement (.farAtomicResend op cell) := fun h => absurd rfl h
theorem skGetAtHome (op : Nat) (cell : Nat) : Statement (.skGetAtHome op cell) := fun h => absurd rfl h
theorem skPutAtHome (op : Nat) (lane : Nat) : Statement (.skPutAtHome op lane) := fun h => absurd rfl h
theorem skReconcileAtHome (op : Nat) (cell : Nat) : Statement (.skReconcileAtHome op cell) := fun h => absurd rfl h
theorem graphNodeStart (graph : Nat) (node : Nat) : Statement (.graphNodeStart graph node) := fun h => absurd rfl h
theorem graphNodeFinish (graph : Nat) (node : Nat) : Statement (.graphNodeFinish graph node) := fun h => absurd rfl h
theorem graphLaunchRetry (graph : Nat) (node : Nat) : Statement (.graphLaunchRetry graph node) := fun h => absurd rfl h
theorem graphTimeout (graph : Nat) : Statement (.graphTimeout graph) := fun h => absurd rfl h
theorem stepNop (table : Nat) : Statement (.stepNop table) := fun h => absurd rfl h
theorem stepPut (table : Nat) : Statement (.stepPut table) := fun h => absurd rfl h
theorem stepSig (table : Nat) : Statement (.stepSig table) := fun h => absurd rfl h
theorem stepWait (table : Nat) : Statement (.stepWait table) := fun h => absurd rfl h
theorem stepDone (table : Nat) : Statement (.stepDone table) := fun h => absurd rfl h
theorem crunTimeout (table : Nat) : Statement (.crunTimeout table) := fun h => absurd rfl h
theorem beacon (die : Nat) (port : Nat) (domain : Nat) : Statement (.beacon die port domain) := fun h => absurd rfl h
theorem orderedPacketArrival (port : Nat) (domain : Nat) (watermark : BitVec 48) (packet : Option RemotePacket) : Statement (.orderedPacketArrival port domain watermark packet) := fun h => absurd rfl h
theorem orderedDelivery (domain : Nat) : Statement (.orderedDelivery domain) := fun h => absurd rfl h
theorem unorderedDelivery (arrival : PortPacket) : Statement (.unorderedDelivery arrival) := fun h => absurd rfl h
theorem remoteResend (op : Nat) (reqId : Nat) : Statement (.remoteResend op reqId) := fun h => absurd rfl h
theorem watermarkStall (domain : Nat) : Statement (.watermarkStall domain) := fun h => absurd rfl h
theorem sourceExclusion (what : PortSource) : Statement (.sourceExclusion what) := fun h => absurd rfl h
theorem podBarrierArrival (package : Nat) (job : BitVec 32) (bar : Nat) (count : Nat) (root : Nat) (agree : Bool) : Statement (.podBarrierArrival package job bar count root agree) := fun h => absurd rfl h
theorem podBarrierRelease (job : BitVec 32) (bar : Nat) (ok : Bool) : Statement (.podBarrierRelease job bar ok) := fun h => absurd rfl h
theorem podSyncChange (podstate : BitVec 8) : Statement (.podSyncChange podstate) := fun h => absurd rfl h
theorem tail (door : Doorbell) (off : Nat) (size : Nat) (value : DWord) : Statement (.tail door off size value) := fun h => absurd rfl h
theorem reconcilePass : Statement (.reconcilePass) := fun h => absurd rfl h
theorem queueDeactivation (q : Nat) : Statement (.queueDeactivation q) := fun h => absurd rfl h
theorem workerQueueSelect (worker : Nat) : Statement (.workerQueueSelect worker) := fun h => absurd rfl h
theorem sliceExpiry (worker : Nat) : Statement (.sliceExpiry worker) := fun h => absurd rfl h
theorem nopPacket (worker : Nat) : Statement (.nopPacket worker) := fun h => absurd rfl h
theorem launchPacket (worker : Nat) : Statement (.launchPacket worker) := fun h => absurd rfl h
theorem writePacket (worker : Nat) : Statement (.writePacket worker) := fun h => absurd rfl h
theorem signalPacket (worker : Nat) : Statement (.signalPacket worker) := fun h => absurd rfl h
theorem wrsigPacket (worker : Nat) : Statement (.wrsigPacket worker) := fun h => absurd rfl h
theorem waitsigPacket (worker : Nat) : Statement (.waitsigPacket worker) := fun h => absurd rfl h
theorem graphPacket (worker : Nat) : Statement (.graphPacket worker) := fun h => absurd rfl h
theorem fencePacket (worker : Nat) : Statement (.fencePacket worker) := fun h => absurd rfl h
theorem leaseHold (worker : Nat) : Statement (.leaseHold worker) := fun h => absurd rfl h
theorem leaseDrop (worker : Nat) : Statement (.leaseDrop worker) := fun h => absurd rfl h
theorem copyPacket (worker : Nat) : Statement (.copyPacket worker) := fun h => absurd rfl h
theorem leaseWalkRetry (q : Nat) : Statement (.leaseWalkRetry q) := fun h => absurd rfl h
theorem launchEnd (launch : Nat) : Statement (.launchEnd launch) := fun h => absurd rfl h
theorem workgroupPlace : Statement (.workgroupPlace) := fun h => absurd rfl h
theorem workgroupResume (launch : Nat) (wg : Nat) : Statement (.workgroupResume launch wg) := fun h => absurd rfl h
theorem preemptChoice (launch : Nat) (wg : Nat) : Statement (.preemptChoice launch wg) := fun h => absurd rfl h
theorem save (launch : Nat) (wg : Nat) (pa : Nat) : Statement (.save launch wg pa) := fun h => absurd rfl h
theorem flush (launch : Nat) (wg : Nat) : Statement (.flush launch wg) := fun h => absurd rfl h
theorem drainTimeout (launch : Nat) (wg : Nat) : Statement (.drainTimeout launch wg) := fun h => absurd rfl h
theorem forwardProgressSave (core : Nat) : Statement (.forwardProgressSave core) := fun h => absurd rfl h
theorem quantumEnd (group : Nat) : Statement (.quantumEnd group) := fun h => absurd rfl h
theorem detCommit (launch : Nat) : Statement (.detCommit launch) := fun h => absurd rfl h
theorem notifyWindowClose (launch : Nat) (range : Nat) (misses : Nat) (majdie : Nat) : Statement (.notifyWindowClose launch range misses majdie) := fun h => absurd rfl h
theorem notifyRdidxWrite (rdidx : BitVec 32) : Statement (.notifyRdidxWrite rdidx) := fun h => absurd rfl h
theorem notifyEnable (automig : Bool) : Statement (.notifyEnable automig) := fun h => absurd rfl h
theorem migrationUnit (asid : Nat) (va : DWord) (place : NewPlace) (outcome : MigrationOutcome) : Statement (.migrationUnit asid va place outcome) := fun h => absurd rfl h
theorem hostSkAccess (fn : Nat) (access : HostAccess) : Statement (.hostSkAccess fn access) := fun h => absurd rfl h
theorem hostFunctionFreeze (fn : Nat) (addr : DWord) : Statement (.hostFunctionFreeze fn addr) := fun h => absurd rfl h
theorem functionLevelReset (fn : Nat) : Statement (.functionLevelReset fn) := fun h => absurd rfl h
theorem ioDieReset (choice : BootChoice) : Statement (.ioDieReset choice) := fun h => absurd rfl h
theorem attestationRequest (half : Attestation) : Statement (.attestationRequest half) := fun h => absurd rfl h
theorem lockstep : Statement (.lockstep) := fun h => absurd rfl h
theorem pwrlimWrite (write : LimitWrite) : Statement (.pwrlimWrite write) := fun h => absurd rfl h
theorem infoBlockWrite (place : InfoPlace) (bytes : List Byte) : Statement (.infoBlockWrite place bytes) := fun h => absurd rfl h
theorem telemetryRefresh (pwr : BitVec 32) (tjmax : BitVec 16) (clk : BitVec 16) : Statement (.telemetryRefresh pwr tjmax clk) := fun h => absurd rfl h
theorem thermal (tj : BitVec 16) : Statement (.thermal tj) := fun h => absurd rfl h
theorem linkTraining (port : Nat) (trained : Bool) (farEnd : DWord) : Statement (.linkTraining port trained farEnd) := fun h => absurd rfl h
theorem eccCorrected (errors : Corrections) : Statement (.eccCorrected errors) := fun h => absurd rfl h
theorem eccUncorrectable (target : EccTarget) : Statement (.eccUncorrectable target) := fun h => absurd rfl h
theorem scrubbing (pa : Nat) : Statement (.scrubbing pa) := fun h => absurd rfl h
theorem hbmRowRepair (pa : Nat) : Statement (.hbmRowRepair pa) := fun h => absurd rfl h
theorem eventRecord (r : EventRec) : Statement (.eventRecord r) := fun h => absurd rfl h
theorem eventRingRoom (rdidx : BitVec 32) : Statement (.eventRingRoom rdidx) := fun h => absurd rfl h
theorem waitsigRecheck (q : Nat) : Statement (.waitsigRecheck q) := fun h => absurd rfl h
theorem hostCxlMemAccess (fn : Nat) (access : HostAccess) : Statement (.hostCxlMemAccess fn access) := fun h => absurd rfl h
theorem notifyDisable : Statement (.notifyDisable) := fun h => absurd rfl h
theorem firmwareLaunchHalt (launch : Nat) : Statement (.firmwareLaunchHalt launch) := fun h => absurd rfl h
theorem activeSetRemoval (port : Nat) : Statement (.activeSetRemoval port) := fun h => absurd rfl h

end Sys2Proof.Laws.Length
end

