-- ==== Sys2Proof/Laws/Pool.lean ====
section
/-! SUPPORT. The context pool: a record has room exactly when some place is free for it (R365, R369). -/

namespace Sys2Proof.Machine

/-- A list has a least element exactly when it is not empty. -/
theorem minList_isSome (ns : List Nat) : (minList ns).isSome = true ↔ ns ≠ [] := by
  cases ns <;> simp [minList]

/-- A place free for a record, in numbers. -/
theorem poolFree_iff (s : State) (key pa n : Nat) :
    poolFree s key pa n = true ↔ pa % 64 = 0 ∧ s.fe.poolBase ≤ pa ∧ pa + n ≤ s.fe.poolBase + s.fe.poolSize ∧
      ∀ u ∈ poolRecords s key, u.1 + u.2 ≤ pa ∨ pa + n ≤ u.1 := by
  simp only [poolFree, meets, Bool.and_eq_true, beq_iff_eq, decide_eq_true_eq, Bool.not_eq_true', List.any_eq_false, not_and, not_lt,
    and_assoc]
  refine and_congr_right fun _ => and_congr_right fun _ => and_congr_right fun _ => forall₂_congr fun u _ => ?_
  omega

/-- A free place can be moved down to the start of the pool or to the end of a record. -/
theorem poolFree_low {s : State} {key pa n : Nat} (h : poolFree s key pa n = true)
    (hmin : ∀ q, q < pa → poolFree s key q n = false) :
    pa = (s.fe.poolBase + 63) / 64 * 64 ∨ ∃ u ∈ poolRecords s key, pa = (u.1 + u.2 + 63) / 64 * 64 := by
  obtain ⟨ha, hb, hc, hd⟩ := (poolFree_iff ..).1 h
  by_cases hp : pa < s.fe.poolBase + 64
  · left; omega
  · right
    by_contra hno
    simp only [not_exists, not_and] at hno
    have := hmin (pa - 64) (by omega)
    rw [Bool.eq_false_iff] at this
    refine this ((poolFree_iff ..).2 ⟨by omega, by omega, by omega, fun u hu => ?_⟩)
    have := hd u hu; have := hno u hu
    omega

/-- The pool has room for a record exactly when some place in it is free (R365, log 41). -/
theorem poolRoom_iff (s : State) (key : Nat) (k : Kernel) :
    poolRoom s key k = true ↔ ∃ pa, poolFree s key pa (recordSize s key k) = true := by
  rw [poolRoom, poolPlace, minList_isSome]
  constructor
  · intro h
    obtain ⟨pa, hpa⟩ := List.exists_mem_of_ne_nil _ h
    exact ⟨pa, (List.mem_filter.1 hpa).2⟩
  · rintro hex
    classical
    have hf := Nat.find_spec hex
    have hm : ∀ q, q < Nat.find hex → poolFree s key q (recordSize s key k) = false := fun q hq =>
      Bool.eq_false_iff.2 (Nat.find_min hex hq)
    refine List.ne_nil_of_mem (a := Nat.find hex) (List.mem_filter.2 ⟨?_, hf⟩)
    rcases poolFree_low hf hm with h | ⟨u, hu, h⟩
    · simp [← h]
    · exact List.mem_cons_of_mem _ (List.mem_map.2 ⟨u, hu, h.symm⟩)

end Sys2Proof.Machine
end

