-- ==== Sys2Proof/Laws/Vector.lean ====
section
/-! SUPPORT. Vector registers: what writing lanes does, lanes of operands, and instructions that write a vector result. -/

namespace Sys2Proof.Machine

@[simp] theorem laneIds_length : laneIds.length = 128 := by simp [laneIds, Config.lanes]

theorem laneIds_get {l : Nat} (h : l < 128) : laneIds[l]? = some l := by
  simp only [laneIds, Config.lanes]
  rw [List.getElem?_range h]

/-- A lane of a list made lane by lane. -/
theorem laneAt_map (f : Nat → DWord) {l : Nat} (h : l < 128) : laneAt (laneIds.map f) l = f l := by
  simp [laneAt, List.getD, laneIds_get h]

/-- The same for words. -/
theorem getD_laneIds_map {α : Type} (f : Nat → α) (d : α) {l : Nat} (h : l < 128) : (laneIds.map f).getD l d = f l := by
  simp [List.getD, laneIds_get h]

/-- A lane of a mask as a list. -/
theorem maskLanes_getD (m : Mask) {l : Nat} (h : l < 128) : (maskLanes m).getD l false = m.getLsbD l := by
  simp [maskLanes, List.getD, laneIds_get h]

theorem mergeLanes_getD (act : List Bool) (old new : List Word) {l : Nat} (h : l < 128) :
    (mergeLanes act old new).getD l 0 = if act.getD l false then new.getD l 0 else old.getD l 0 := by
  simp only [mergeLanes]; exact getD_laneIds_map _ _ h

theorem getD_map_word (r : Lanes) (f : DWord → Word) (h0 : f 0 = 0) (l : Nat) : (r.map f).getD l 0 = f (laneAt r l) := by
  simp only [List.getD, List.getElem?_map, laneAt]
  cases r[l]? with
  | none => exact h0.symm
  | some _ => rfl

/-- Lanes of a register just written. -/
theorem vlane_setV_same (g : Group) (n l : Nat) (v : VReg) : vlane (setV g n v) n l = v.getD l 0 := by
  simp [vlane]

theorem vlane_setV_ne (g : Group) {n m : Nat} (l : Nat) (v : VReg) (h : m ≠ n) : vlane (setV g n v) m l = vlane g m l := by
  simp [vlane, vreg_setV_ne _ _ h]

/-- Writing lanes does what `LanesWritten` says. -/
theorem writeLanes_written (g : Group) (vd w : Nat) (act : List Bool) (r : Lanes) :
    LanesWritten g (writeLanes g vd w act r) vd w (fun l => act.getD l false) (laneAt r) := by
  unfold LanesWritten writeLanes
  by_cases h384 : 384 ≤ vd
  · simp [h384]
  · simp only [h384, if_false]
    by_cases hw : w = 64
    · simp only [hw, if_true, true_imp_iff]
      refine ⟨fun l hl => ?_, fun l hl => ?_, fun n hn hn1 => ?_⟩
      · rw [vlane_setV_ne _ _ _ (by omega), vlane_setV_same, mergeLanes_getD _ _ _ hl, getD_map_word _ _ (by decide)]
        rfl
      · rw [vlane_setV_same, mergeLanes_getD _ _ _ hl, getD_map_word _ _ (by decide)]; rfl
      · rw [vreg_setV_ne _ _ hn1, vreg_setV_ne _ _ hn]
    · simp only [hw, if_false, false_imp_iff, true_and]
      refine ⟨fun l hl => ?_, fun n hn => ?_⟩
      · rw [vlane_setV_same, mergeLanes_getD _ _ _ hl, getD_map_word _ _ (by decide)]; rfl
      · intro _; rw [vreg_setV_ne _ _ hn]

/-- `LanesWritten` looks at the lanes 0 to 127 alone. -/
theorem LanesWritten.congr {g g' : Group} {vd w : Nat} {act act' : Nat → Bool} {r r' : Nat → DWord}
    (h : LanesWritten g g' vd w act r) (ha : ∀ l, l < 128 → act l = act' l) (hr : ∀ l, l < 128 → act' l = true → r l = r' l) :
    LanesWritten g g' vd w act' r' := by
  unfold LanesWritten at *
  split
  · next hv => simpa [hv] using h
  · next hv =>
    simp only [hv, if_false] at h
    refine ⟨fun l hl => ?_, fun hw l hl => ?_, h.2.2⟩
    · rw [h.1 l hl, ha l hl]; split
      · next hb => rw [hr l hl hb]
      · rfl
    · rw [h.2.1 hw l hl, ha l hl]; split
      · next hb => rw [hr l hl hb]
      · rfl

/-- `LanesWritten` looks at the vector registers of the new group alone. -/
theorem LanesWritten.of_vregs {g g' g'' : Group} {vd w : Nat} {act : Nat → Bool} {r : Nat → DWord}
    (h : LanesWritten g g' vd w act r) (hv : g''.vregs = g'.vregs) : LanesWritten g g'' vd w act r := by
  unfold LanesWritten at *
  simp only [vlane, vreg, hv] at *
  exact h

/-- Writing lanes changes the vector registers alone. -/
theorem writeLanes_eq (g : Group) (vd w : Nat) (act : List Bool) (r : Lanes) :
    writeLanes g vd w act r = { g with vregs := (writeLanes g vd w act r).vregs } := by
  unfold writeLanes setV
  split
  · rfl
  · simp only; split <;> rfl

/-- An instruction whose effect is a vector result writes it. -/
theorem writesLanes_of_body {i : Instr} {s : State} {c : Ctx} {body : Ctx → Eff} {vd w : Nat} {act : List Bool} {x : Lanes}
    {a : Nat → Bool} {r : Nat → DWord} {fpc : Word}
    (he : exec i s = issue i s body) (h : ReadyLanes s i c) (hb : body c = .next s { writeLanes c.g vd w act x with fpc := fpc })
    (ha : ∀ l, l < 128 → act.getD l false = a l) (hr : ∀ l, l < 128 → a l = true → laneAt x l = r l) :
    WritesLanes i s c vd w a fpc r := by
  have hw := writeLanes_eq c.g vd w act x
  refine retires_next he h.1 (.inr h.2) hb ?_ ?_ (fun g' hg => ?_)
  · rw [hw]
  · rw [hw]
  · have hv : g'.vregs = (writeLanes c.g vd w act x).vregs := by rw [hg]
    refine ⟨?_, ((writeLanes_written c.g vd w act x).congr ha hr).of_vregs hv⟩
    rw [hv]
    rw [hw] at hg
    exact hg

theorem actLanes_getD (c : Ctx) (f : VX) {l : Nat} (h : l < 128) : (actLanes c f).getD l false = active c f.sp l :=
  maskLanes_getD _ h

/-! ## Lanes of operands -/

/-- Every operand has 128 lanes. -/
theorem srcLanes_length (s : State) (c : Ctx) (lit : Lit) (idx t : Nat) : (srcLanes s c lit idx t).length = 128 := by
  unfold srcLanes regLanes splat
  split
  · simp
  · split
    · simp
    · simp [Config.lanes]

theorem laneAt_map_of_length (x : Lanes) (f : DWord → DWord) (hx : x.length = 128) {l : Nat} (h : l < 128) :
    laneAt (x.map f) l = f (laneAt x l) := by
  have : l < x.length := by omega
  simp [laneAt, List.getD, this]

theorem laneAt_zipWith {α : Type} (f : DWord → α → DWord) (x : Lanes) (y : List α) (d : α) (hx : x.length = 128) (hy : y.length = 128)
    {l : Nat} (h : l < 128) : laneAt (List.zipWith f x y) l = f (laneAt x l) (y.getD l d) := by
  have h1 : l < x.length := by omega
  have h2 : l < y.length := by omega
  simp [laneAt, List.getD, h1, h2]

end Sys2Proof.Machine
end

