-- ==== Sys2Proof/Tests/Slice0.lean ====
section
/-! SUPPORT. Tests: ill-formed terms that the checks refuse, words written out from the encodings of the manual, results worked out by
hand from its rules, and for every statement with hypotheses a state and operands that meet them. -/

namespace Sys2Proof.Tests

set_option Elab.async false

open Sys2Proof.Machine

/-! ## Ill-formed terms (R78, R79, R80) -/

/-- What the checks make of a word under 384 declared registers. -/
def refuses (i : Instr) (b : Bad) : Bool := decide (check 384 i = some b)

/-- Step 4 of R80: undefined MOD and MOD2 bits, codes the entry calls ILLEGAL, COND, unused fields, reserved values. -/
theorem test_ill_formed_reserved :
    refuses (.sadd { md := 1 }) (.illegal 3) = true ∧ refuses (.nop { md := 1 }) (.illegal 5) = true ∧
    refuses (.nop { sd := 1 }) (.illegal 5) = true ∧ refuses (.scmp { md := 6 }) (.illegal 3) = true ∧
    refuses (.ssel { md2 := 1 }) (.illegal 4) = true ∧ refuses (.vadd { md := 1 }) (.illegal 3) = true ∧
    refuses (.vadd { vc := 1 }) (.illegal 5) = true ∧ refuses (.tzero { ta := 1 }) (.illegal 5) = true ∧
    refuses (.xinv { sd := 1 }) (.illegal 5) = true ∧ refuses (.sliLit { imm := 1 }) (.illegal 5) = true ∧
    refuses (.fat { md := 13 }) (.illegal 3) = true ∧ refuses (.vslice { ty := 7, imm := 16 }) (.illegal 5) = true := by
  decide +kernel

/-- COND above 6 is reserved (R64). -/
theorem test_ill_formed_condition : (match decode 384 [0x05700000] with
    | .error (.illegal v) => v == 0x0000000505700000
    | _ => false) = true := by decide +kernel

/-- Step 5: a literal no field names, and a field that names a literal which is not there (R61). -/
theorem test_ill_formed_literal :
    refuses (.sadd { sa := 3, lit := some 1 }) (.illegal 0) = true ∧ refuses (.sadd { sa := 255 }) (.operand 13) = true ∧
    refuses (.vadd { va := 511 }) (.operand 8) = true := by decide +kernel

/-- Step 6: register numbers, pairs, operand indices, TYPE, SP, SCOPE, ORD, numbers, and combinations (R60, R71 to R73, R75). -/
theorem test_ill_formed_operands :
    refuses (.sadd { sd := 160 }) (.operand 12) = true ∧ refuses (.sadd { sa := 254 }) (.operand 13) = true ∧
    refuses (.mmov { sd := 11, sa := 10 }) (.operand 12) = true ∧ refuses (.mopen { sd := 6, imm := 1 }) (.operand 12) = true ∧
    refuses (.vadd { vd := 384 }) (.operand 7) = true ∧ refuses (.vadd { va := 480 }) (.operand 8) = true ∧
    refuses (.vadd { ty := 2, vd := 2, va := 4, vb := 7 }) (.operand 9) = true ∧ refuses (.vadd { ty := 4 }) (.operand 6) = true ∧
    refuses (.vadd { sp := 41 }) (.operand 11) = true ∧ refuses (.fence { sa := 8 }) (.operand 13) = true ∧
    refuses (.cbar { scope := 4 }) (.operand 21) = true ∧ refuses (.crun { scope := 6, ord := 1 }) (.operand 22) = true ∧
    refuses (.sysr { sa := 14 }) (.operand 13) = true ∧ refuses (.sysw { sd := 14 }) (.operand 12) = true ∧
    refuses (.vld { va := 3 }) (.operand 8) = true ∧ refuses (.slda { md := 0x91 }) (.operand 3) = true ∧
    refuses (.mopen { imm := 256 }) (.operand 23) = true ∧ refuses (.slda { md := 0x93 }) (.operand 23) = true ∧
    decide (check 8 (.vadd { va := 8 }) = some (.operand 8)) = true := by decide +kernel

/-- Well-formed words pass; an event and SUBMIT are no words of a compute core. -/
theorem test_well_formed :
    (Instr.nop {}).wellFormed 0 = true ∧ (Instr.vadd { va := 7 }).wellFormed 8 = true ∧ (Instr.vadd { va := 8 }).wellFormed 8 = false ∧
    (Instr.submit {}).isWord = false ∧ Instr.reconcilePass.isWord = false := by decide +kernel

/-! ## Words written out from R56, R62 to R70 and R76 -/

/-- The decoder reads the words as the instruction. -/
def reads (ws : List Word) (i : Instr) : Bool := decide (decode 384 ws = .ok i)

theorem test_words_of_major_00 :
  reads [0x00000000] (.nop {}) = true ∧
  reads [0x00100000] (.endg {}) = true ∧
  reads [0x00200090] (.trap { sa := 9 }) = true ∧
  reads [0x00300001] (.rft { md := 1 }) = true ∧
  reads [0x00400000] (.yield {}) = true ∧
  reads [0x00504000] (.clkr { sd := 4 }) = true ∧
  reads [0x00604006] (.idr { sd := 4, md := 6 }) = true ∧
  reads [0x007040D0] (.sysr { sd := 4, sa := 13 }) = true ∧
  reads [0x00807040] (.sysw { sd := 7, sa := 4 }) = true ∧
  reads [0x00900073] (.fence { sa := 7, md := 3 }) = true ∧
  reads [0x00A00000] (.ret {}) = true ∧
  reads [0x00B009B1] (.jmp { sa := 155, md := 1 }) = true ∧
  reads [0x80200FF0, 0x89ABCDEF, 0x01234567] (.trap { sa := 255, lit := some 0x123456789abcdef }) = true := by decide +kernel

theorem test_words_of_major_01 :
  reads [0x010420C4] (.wait { ld := 1, st := 2, tile := 3, coll := 4 }) = true := by decide +kernel

theorem test_words_of_major_02 :
  reads [0x0209A052] (.sadd { sd := 154, sa := 5, md := 2 }) = true ∧
  reads [0x0219A052] (.ssub { sd := 154, sa := 5, md := 2 }) = true ∧
  reads [0x0229A052] (.smul { sd := 154, sa := 5, md := 2 }) = true ∧
  reads [0x0239A052] (.smulh { sd := 154, sa := 5, md := 2 }) = true ∧
  reads [0x0249A052] (.sand { sd := 154, sa := 5, md := 2 }) = true ∧
  reads [0x0259A052] (.sor { sd := 154, sa := 5, md := 2 }) = true ∧
  reads [0x0269A052] (.sxor { sd := 154, sa := 5, md := 2 }) = true ∧
  reads [0x0279A052] (.sandn { sd := 154, sa := 5, md := 2 }) = true ∧
  reads [0x0289A052] (.sshl { sd := 154, sa := 5, md := 2 }) = true ∧
  reads [0x0299A052] (.sshr { sd := 154, sa := 5, md := 2 }) = true ∧
  reads [0x02A9A052] (.ssra { sd := 154, sa := 5, md := 2 }) = true ∧
  reads [0x02B9A052] (.smin { sd := 154, sa := 5, md := 2 }) = true ∧
  reads [0x02C9A052] (.smax { sd := 154, sa := 5, md := 2 }) = true ∧
  reads [0x02D9A052] (.smov { sd := 154, sa := 5, md := 2 }) = true ∧
  reads [0x02E9A052] (.spopc { sd := 154, sa := 5, md := 2 }) = true ∧
  reads [0x02F9A052] (.sclz { sd := 154, sa := 5, md := 2 }) = true ∧
  reads [0x82D03FF0, 0x89ABCDEF, 0x01234567] (.smov { sd := 3, sa := 255, lit := some 0x123456789abcdef }) = true := by decide +kernel

theorem test_words_of_major_03 :
  reads [0x03078001] (.saddi { sd := 7, imm := 0x8001 }) = true := by decide +kernel

theorem test_words_of_major_04 :
  reads [0x0409FFFE] (.sli { sd := 9, imm := 0xfffe }) = true ∧
  reads [0x840A0000, 0x89ABCDEF, 0x01234567] (.sliLit { sd := 10, imm := 0, lit := 0x123456789abcdef }) = true := by decide +kernel

theorem test_words_of_major_05 :
  reads [0x05680001] (.brc { cond := 6, off := 0x80001 }) = true := by decide +kernel

theorem test_words_of_major_06 :
  reads [0x0617FFFF] (.call { cond := 1, off := 0x7ffff }) = true := by decide +kernel

theorem test_words_of_major_07 :
  reads [0x4700000D, 0x03040000, 0x00000000] (.scmp { md := 13, sa := 3, sb := 4 }) = true ∧
  reads [0x47010100, 0x03040000, 0x00000000] (.ssel { sd := 1, sa := 3, sb := 4 }) = true ∧
  reads [0x47020103, 0x03040000, 0x00000000] (.sbfx { sd := 1, md := 3, sa := 3, sb := 4 }) = true ∧
  reads [0x47030100, 0x03000000, 0x00000810] (.sbfi { sd := 1, sa := 3, imm := 0x810 }) = true ∧
  reads [0xC7010100, 0xFF040000, 0x00000000, 0x89ABCDEF, 0x01234567] (.ssel { sd := 1, sa := 255, sb := 4, lit := some 0x123456789abcdef }) = true := by decide +kernel

theorem test_words_of_major_08 :
  reads [0x48000107, 0x02000009, 0xFFFFFFF8] (.sld { sd := 1, md := 7, sa := 2, md2 := 9, imm := 0xfffffff8 }) = true ∧
  reads [0x48010002, 0x02030010, 0x00000004] (.sst { md := 2, sa := 2, sb := 3, md2 := 16, imm := 4 }) = true ∧
  reads [0x48020183, 0x02030400, 0x00000008] (.slda { sd := 1, md := 131, sa := 2, sb := 3, sc := 4, imm := 8 }) = true := by decide +kernel

theorem test_words_of_major_09 :
  reads [0x49001400, 0x9C000000, 0x00000000] (.msplit { sd := 20, sa := 156 }) = true ∧
  reads [0x49019400, 0x00000000, 0x00000040] (.mopen { sd := 148, imm := 64 }) = true ∧
  reads [0x49029400, 0x00000000, 0x00000000] (.marrive { sd := 148 }) = true ∧
  reads [0x49030000, 0x00000000, 0x00000000] (.mjoin { sd := 0 }) = true ∧
  reads [0x49040A03, 0x9E000000, 0x00000000] (.mmov { sd := 10, md := 3, sa := 158 }) = true ∧
  reads [0x49050300, 0x9E000000, 0x00000000] (.mpopc { sd := 3, sa := 158 }) = true := by decide +kernel

theorem test_words_of_major_0A :
  reads [0x4A000001, 0x02030000, 0x00000000] (.palset { md := 1, sa := 2, sb := 3 }) = true ∧
  reads [0x4A010301, 0x00000000, 0x00000000] (.palget { sd := 3, md := 1 }) = true ∧
  reads [0x4A020000, 0x02000000, 0x00000000] (.fpcset { sa := 2 }) = true ∧
  reads [0x4A030300, 0x00000000, 0x00000000] (.fpcget { sd := 3 }) = true := by decide +kernel

theorem test_words_of_major_0B :
  reads [0x4B000007, 0x04090000, 0x00000040] (.fork { md := 7, sa := 4, sb := 9, imm := 64 }) = true ∧
  reads [0x4B010302, 0x00090005, 0x00000040] (.vfork { sd := 3, md := 2, sb := 9, md2 := 5, imm := 64 }) = true ∧
  reads [0x4B020800, 0x00000000, 0x00000000] (.join { sd := 8 }) = true ∧
  reads [0x4B030001, 0x02000000, 0x00000000] (.taskend { md := 1, sa := 2 }) = true ∧
  reads [0x4B040100, 0x02030000, 0x00000000] (.launch { sd := 1, sa := 2, sb := 3 }) = true := by decide +kernel

theorem test_words_of_major_0C :
  reads [0x4C000113, 0x02030001, 0x00000008] (.waitw { sd := 1, md := 19, sa := 2, sb := 3, md2 := 1, imm := 8 }) = true ∧
  reads [0x4C010100, 0x02000001, 0x00000010] (.bara { sd := 1, sa := 2, md2 := 1, imm := 16 }) = true ∧
  reads [0x4C020000, 0x02030001, 0x00000010] (.barw { sa := 2, sb := 3, md2 := 1, imm := 16 }) = true ∧
  reads [0x4C030101, 0x00000004, 0x0000000F] (.baraw { sd := 1, md := 1, md2 := 4, imm := 15 }) = true := by decide +kernel

theorem test_words_of_major_14 :
  reads [0x54000000, 0x00808060, 0x007F8000] (.vadd { ty := 0, vd := 1, va := 2, vb := 3 }) = true ∧
  reads [0x54010000, 0x00808060, 0x007F8000] (.vsub { ty := 0, vd := 1, va := 2, vb := 3 }) = true ∧
  reads [0x54020000, 0x00808060, 0x007F8000] (.vmul { ty := 0, vd := 1, va := 2, vb := 3 }) = true ∧
  reads [0x54030000, 0x00808060, 0x007F8000] (.vmulh { ty := 0, vd := 1, va := 2, vb := 3 }) = true ∧
  reads [0x54042000, 0x01013000, 0xE0050000] (.vmad { ty := 2, vd := 2, va := 4, vb := 384, vc := 448, sp := 10 }) = true ∧
  reads [0x54050000, 0xBFF40000, 0x007F8000] (.vabs { ty := 0, vd := 383, va := 464 }) = true ∧
  reads [0x54061000, 0xE000B820, 0x007F8000] (.vmin { ty := 1, vd := 448, va := 2, vb := 449 }) = true ∧
  reads [0x54079000, 0x00808060, 0x007F8000] (.vmax { ty := 9, vd := 1, va := 2, vb := 3 }) = true ∧
  reads [0xD4002000, 0x017FC080, 0x007F8000, 0x89ABCDEF, 0x01234567] (.vadd { ty := 2, vd := 2, va := 511, vb := 4, lit := some 0x123456789abcdef }) = true := by decide +kernel

theorem test_words_of_major_15 :
  reads [0x55000000, 0x00808060, 0x007F8000] (.vand { ty := 0, vd := 1, va := 2, vb := 3 }) = true ∧
  reads [0x55010000, 0x00808060, 0x007F8000] (.vor { ty := 0, vd := 1, va := 2, vb := 3 }) = true ∧
  reads [0x55020000, 0x00808060, 0x007F8000] (.vxor { ty := 0, vd := 1, va := 2, vb := 3 }) = true ∧
  reads [0x55030000, 0x00808060, 0x007F8000] (.vandn { ty := 0, vd := 1, va := 2, vb := 3 }) = true ∧
  reads [0x55040000, 0x00808060, 0x007F8000] (.vshl { ty := 0, vd := 1, va := 2, vb := 3 }) = true ∧
  reads [0x55050000, 0x00808060, 0x007F8000] (.vshr { ty := 0, vd := 1, va := 2, vb := 3 }) = true ∧
  reads [0x55060000, 0x00808060, 0x007F8000] (.vsra { ty := 0, vd := 1, va := 2, vb := 3 }) = true ∧
  reads [0x55070000, 0x00808000, 0x007F8000] (.vpopc { ty := 0, vd := 1, va := 2 }) = true ∧
  reads [0x55080000, 0x00808000, 0x007F8000] (.vclz { ty := 0, vd := 1, va := 2 }) = true ∧
  reads [0x55090000, 0x00808060, 0x007F8000] (.vbfx { ty := 0, vd := 1, va := 2, vb := 3 }) = true ∧
  reads [0x550A0000, 0x00808060, 0x027F8000] (.vbfi { ty := 0, vd := 1, va := 2, vb := 3, vc := 4 }) = true := by decide +kernel

theorem test_words_of_major_16 :
  reads [0x56001005, 0x00008060, 0x00140000] (.vcmp { ty := 1, md := 5, va := 2, vb := 3, sp := 40 }) = true ∧
  reads [0x56010000, 0x00808060, 0x007F8000] (.vsel { ty := 0, vd := 1, va := 2, vb := 3 }) = true ∧
  reads [0x5602B000, 0x00808000, 0x007F8000] (.vmov { ty := 11, vd := 1, va := 2 }) = true ∧
  reads [0x56030001, 0x0080B200, 0x027F8000] (.vlane { ty := 0, md := 1, vd := 1, va := 2, vb := 400, vc := 4 }) = true ∧
  reads [0x56040000, 0x0080B200, 0x007F8000] (.vins { ty := 0, vd := 1, va := 2, vb := 400 }) = true := by decide +kernel

theorem test_words_of_major_17 :
  reads [0x57006000, 0x00808060, 0x007F8000] (.vfadd { ty := 6, vd := 1, va := 2, vb := 3 }) = true ∧
  reads [0x57016000, 0x00808060, 0x007F8000] (.vfsub { ty := 6, vd := 1, va := 2, vb := 3 }) = true ∧
  reads [0x57026000, 0x00808060, 0x007F8000] (.vfmul { ty := 6, vd := 1, va := 2, vb := 3 }) = true ∧
  reads [0x57037000, 0x010100C0, 0x047F8000] (.vfma { ty := 7, vd := 2, va := 4, vb := 6, vc := 8 }) = true ∧
  reads [0x57046000, 0x00808060, 0x007F8000] (.vfdiv { ty := 6, vd := 1, va := 2, vb := 3 }) = true ∧
  reads [0x57056000, 0x00808000, 0x007F8000] (.vfsqrt { ty := 6, vd := 1, va := 2 }) = true ∧
  reads [0x57064000, 0x00808060, 0x007F8000] (.vfmin { ty := 4, vd := 1, va := 2, vb := 3 }) = true ∧
  reads [0x57075000, 0x00808060, 0x007F8000] (.vfmax { ty := 5, vd := 1, va := 2, vb := 3 }) = true ∧
  reads [0x57086000, 0x00808000, 0x007F8000] (.vfrcpa { ty := 6, vd := 1, va := 2 }) = true ∧
  reads [0x57096000, 0x00808000, 0x007F8000] (.vfrsqa { ty := 6, vd := 1, va := 2 }) = true := by decide +kernel

theorem test_words_of_major_18 :
  reads [0x5800600B, 0x00008060, 0x007F8000] (.vfcmp { ty := 6, md := 11, va := 2, vb := 3 }) = true ∧
  reads [0x58016000, 0x00808000, 0x007F8000] (.vfclass { ty := 6, vd := 1, va := 2 }) = true ∧
  reads [0x58026040, 0x00808000, 0x007F8000] (.vfrnd { ty := 6, md := 64, vd := 1, va := 2 }) = true ∧
  reads [0x58036027, 0x00808000, 0x007F8000] (.vfcvt { ty := 6, md := 39, vd := 1, va := 2 }) = true := by decide +kernel

theorem test_words_of_major_19 :
  reads [0x59000001, 0x00808060, 0x007F8000] (.vshuf { ty := 0, md := 1, vd := 1, va := 2, vb := 3 }) = true ∧
  reads [0x59010000, 0x0080B800, 0x007F8000] (.vbcast { ty := 0, vd := 1, va := 2, vb := 448 }) = true ∧
  reads [0x59020005, 0x00808000, 0x007F8000] (.vred { ty := 0, md := 5, vd := 1, va := 2 }) = true ∧
  reads [0x5903600A, 0x00808000, 0x007F8000] (.vscan { ty := 6, md := 10, vd := 1, va := 2 }) = true := by decide +kernel

theorem test_words_of_major_1A :
  reads [0x5A000008, 0x00E00000, 0x007FFFFF] (.vld { ty := 0, md := 8, vd := 1, va := 384, imm := 0x7fff }) = true ∧
  reads [0x5A010010, 0x00604060, 0x007F8004] (.vst { ty := 0, md := 16, va := 385, vb := 3, imm := 4 }) = true ∧
  reads [0x5A022000, 0x0100C000, 0x007F8000] (.vldx { ty := 2, vd := 2, va := 3 }) = true ∧
  reads [0x5A034000, 0x0000C060, 0x007F8000] (.vstx { ty := 4, va := 3, vb := 3 }) = true ∧
  reads [0x5A041118, 0x00808060, 0x027F8000] (.vatom { ty := 1, md := 280, vd := 1, va := 2, vb := 3, vc := 4 }) = true := by decide +kernel

theorem test_words_of_major_1B :
  reads [0x5B007000, 0x00808060, 0x007F8008] (.vslice { ty := 7, vd := 1, va := 2, vb := 3, imm := 8 }) = true ∧
  reads [0x5B011000, 0x02023000, 0x007F8000] (.vrand { ty := 1, vd := 4, va := 8, vb := 384 }) = true := by decide +kernel

theorem test_words_of_major_28 :
  reads [0x68005000, 0x03000000, 0x00000000] (.tcfg { td := 5, sa := 3 }) = true ∧
  reads [0x6801F000, 0x00000000, 0x00000000] (.tzero { td := 15 }) = true ∧
  reads [0x68025600, 0x00000000, 0x00000000] (.tmov { td := 5, ta := 6 }) = true ∧
  reads [0x68030000, 0x03000000, 0x00000000] (.tflgGet { sa := 3 }) = true ∧
  reads [0x68030000, 0x03040001, 0x00000000] (.tflgSet { sa := 3, sb := 4, md := 1 }) = true := by decide +kernel

theorem test_words_of_major_29 :
  reads [0x69005000, 0x03040000, 0x00000008] (.tld { td := 5, sa := 3, sb := 4, imm := 8 }) = true ∧
  reads [0x69015000, 0x03040500, 0x00000008] (.tldw { td := 5, sa := 3, sb := 4, sc := 5, imm := 8 }) = true ∧
  reads [0x69020500, 0x03040000, 0x00000008] (.tst { ta := 5, sa := 3, sb := 4, imm := 8 }) = true ∧
  reads [0xE9005000, 0xFF040000, 0x00000000, 0x89ABCDEF, 0x01234567] (.tld { td := 5, sa := 255, sb := 4, lit := some 0x123456789abcdef }) = true := by decide +kernel

theorem test_words_of_major_2A :
  reads [0x6A005670, 0x00000001, 0x00000000] (.tmma { td := 5, ta := 6, tb := 7, md := 1 }) = true ∧
  reads [0x6A015600, 0x00000000, 0x00000003] (.tcomb { td := 5, ta := 6, imm := 3 }) = true ∧
  reads [0x6A020600, 0x03040500, 0x00000008] (.tcvt { ta := 6, sa := 3, sb := 4, sc := 5, imm := 8 }) = true ∧
  reads [0x6A035670, 0x00000000, 0x00000000] (.tadd { td := 5, ta := 6, tb := 7 }) = true := by decide +kernel

theorem test_words_of_major_2E :
  reads [0x6E00A000, 0x00000000, 0x03040006] (.xset { xr := 5, sa := 3, sb := 4, sd := 6 }) = true ∧
  reads [0x6E01E000, 0x00000000, 0x00000000] (.xinv { xr := 7 }) = true ∧
  reads [0x6E023000, 0x00000001, 0x03040506] (.grun { xr := 1, scope := 4, md2 := 1, sa := 3, sb := 4, sc := 5, sd := 6 }) = true ∧
  reads [0x6E032E00, 0x00000000, 0x03040000] (.gsig { xr := 1, scope := 3, ord := 2, sa := 3, sb := 4 }) = true ∧
  reads [0x6E041400, 0x00000000, 0x00000000] (.cfence { scope := 5 }) = true := by decide +kernel

theorem test_words_of_major_2F :
  reads [0x6F004B01, 0x00000000, 0x03040500] (.cpy { xr := 2, scope := 2, ord := 3, md := 1, sa := 3, sb := 4, sc := 5 }) = true ∧
  reads [0x6F012811, 0x00008000, 0x03040000] (.cpyx { xr := 1, scope := 2, md := 17, va := 2, sa := 3, sb := 4 }) = true ∧
  reads [0x6F022001, 0x00000000, 0x03040500] (.cpyf { xr := 1, md := 1, sa := 3, sb := 4, sc := 5 }) = true ∧
  reads [0xEF004000, 0x00000000, 0xFF040500, 0x89ABCDEF, 0x01234567] (.cpy { xr := 2, sa := 255, sb := 4, sc := 5, lit := some 0x123456789abcdef }) = true := by decide +kernel

theorem test_words_of_major_30 :
  reads [0x70003710, 0x010100C0, 0x00030000] (.fat { xr := 1, scope := 5, ord := 3, md := 16, vd := 2, va := 4, vb := 6, sb := 3 }) = true ∧
  reads [0x70012000, 0x000100C0, 0x00030000] (.fred { xr := 1, va := 4, vb := 6, sb := 3 }) = true := by decide +kernel

theorem test_words_of_major_31 :
  reads [0x71002000, 0x00010000, 0x03050000] (.skget { xr := 1, va := 4, sa := 3, sb := 5 }) = true ∧
  reads [0x71012000, 0x00010100, 0x00000000] (.skput { xr := 1, va := 4, vb := 8 }) = true ∧
  reads [0x71022000, 0x00010000, 0x00000000] (.skrec { xr := 1, va := 4 }) = true := by decide +kernel

theorem test_words_of_major_36 :
  reads [0x76001801, 0x03040500, 0x00000000] (.rst { scope := 6, md := 1, sa := 3, sb := 4, sc := 5 }) = true ∧
  reads [0x76011800, 0x03040000, 0x00000000] (.rsig { scope := 6, sa := 3, sb := 4 }) = true ∧
  reads [0x76020000, 0x03040001, 0x00000000] (.rwait { sd := 1, sa := 3, sb := 4 }) = true ∧
  reads [0x76033800, 0x03040000, 0x00000000] (.crun { xr := 1, scope := 6, sa := 3, sb := 4 }) = true ∧
  reads [0x76041400, 0x00000000, 0x00000003] (.cbar { scope := 5, imm := 3 }) = true ∧
  reads [0x76050000, 0x00000003, 0x00000000] (.ptime { sd := 3 }) = true ∧
  reads [0xF6011800, 0xFF040000, 0x00000000, 0x89ABCDEF, 0x01234567] (.rsig { scope := 6, sa := 255, sb := 4, lit := some 0x123456789abcdef }) = true := by decide +kernel

/-- SUBMIT is the custom-0 word with funct3 0 and funct7 0 (R77): submit x10, x11, x12; funct3 1 is no SUBMIT. -/
theorem test_words_of_submit : decodeSubmit 0x00C5850B = some { rd := 10, rs1 := 11, rs2 := 12 } ∧ decodeSubmit 0x00C5950B = none := by
  decide +kernel

/-! ## States for the tests -/

/-- An instruction as the only one of a program that issues next (log 8). -/
def prog (i : Instr) : State := placeProgram State.reset (encode i)

/-- The issuing group of a state. -/
def cx (s : State) (i : Instr) : Ctx :=
  (ctxOf s i).getD ⟨0, groupStart 0 0 0 0 0 0 0 0, wgStart 0 0 0 0 0 0 0 0 [0] [] 0 0, bareLaunch probeKernel [], i, 0⟩

/-- Changes to every group, workgroup, launch and kernel of a state. -/
def onG (f : Group → Group) (s : State) : State := { s with groups := s.groups.map (fun p => (p.1, f p.2)) }
def onW (f : Workgroup → Workgroup) (s : State) : State := { s with wgs := s.wgs.map (fun p => (p.1, f p.2)) }
def onL (f : Launch → Launch) (s : State) : State := { s with launches := s.launches.map (fun p => (p.1, f p.2)) }
def onK (f : Kernel → Kernel) (s : State) : State := onL (fun l => { l with kern := f l.kern }) s

/-- Scalar registers set, in order. -/
def withS (rs : List (Nat × DWord)) (s : State) : State := onG (fun g => rs.foldl (fun g p => setS g p.1 p.2) g) s
/-- A vector register set to one value in every lane. -/
def withV (n : Nat) (v : Word) (s : State) : State := onG (fun g => setV g n (List.replicate 128 v)) s
/-- A kernel with a handler at 0x2000. -/
def handled (s : State) : State := onK (fun k => { k with handler := 0x2000 }) s
/-- A group in handler mode. -/
def inHandler (s : State) : State := onG (fun g => { g with handler := true }) s
/-- A DET launch. -/
def inDet (s : State) : State := onK (fun k => { k with det := true }) s

/-- Whether the state's group issues the instruction. -/
def rdy (s : State) (i : Instr) : Bool := decide (Ready s i (cx s i))
/-- Whether the state's group issues the vector instruction with a lane to work on. -/
def rdyV (s : State) (i : Instr) : Bool := decide (ReadyLanes s i (cx s i))
/-- Whether each instruction issues as a program of its own. -/
def issued (is : List Instr) : Bool := is.all (fun i => rdy (prog i) i)
/-- Whether each vector instruction issues as a program of its own with every lane live. -/
def issuedV (is : List Instr) : Bool := is.all (fun i => rdyV (prog i) i)

theorem ready_of_rdy (s : State) (i : Instr) (h : rdy s i = true) : ∃ c, Ready s i c := ⟨cx s i, of_decide_eq_true h⟩
theorem ready_of_rdyV (s : State) (i : Instr) (h : rdyV s i = true) : ∃ c, ReadyLanes s i c := ⟨cx s i, of_decide_eq_true h⟩

/-- The group after a step, when the step answers a next state. -/
def gAfter (s : State) : Group :=
  match step s with
  | .next t => (tget t.groups 0).getD (groupStart 0 0 0 0 0 0 0 0)
  | _ => groupStart 0 0 0 0 0 0 0 0

/-! ## Results worked out by hand from the rules -/

/-- A scalar register after one step of an instruction with s3 and s5 set. -/
def sRes (i : Instr) (a b : DWord) (n : Nat) : DWord := sreg (gAfter (withS [(3, a), (5, b)] (prog i))) n

/-- MAJ 0x02 at the ends of its ranges (R187): wraps, the sign of a shift, a shift amount of 64 taken as 0. -/
theorem test_scalar_arithmetic :
    sRes (.sadd { sd := 3, sa := 5 }) 0xFFFFFFFFFFFFFFFF 2 3 = 1 ∧ sRes (.ssub { sd := 3, sa := 5 }) 1 2 3 = 0xFFFFFFFFFFFFFFFF ∧
    sRes (.smul { sd := 3, sa := 5 }) 0x8000000000000001 2 3 = 2 ∧
    sRes (.smulh { sd := 3, sa := 5 }) 0xFFFFFFFFFFFFFFFF 2 3 = 0xFFFFFFFFFFFFFFFF ∧
    sRes (.smulh { sd := 3, sa := 5, md := 1 }) 0xFFFFFFFFFFFFFFFF 2 3 = 1 ∧
    sRes (.sand { sd := 3, sa := 5 }) 0xF0 0x3C 3 = 0x30 ∧ sRes (.sor { sd := 3, sa := 5 }) 0xF0 0x3C 3 = 0xFC ∧
    sRes (.sxor { sd := 3, sa := 5 }) 0xF0 0x3C 3 = 0xCC ∧ sRes (.sandn { sd := 3, sa := 5 }) 0xF0 0x3C 3 = 0xC0 ∧
    sRes (.sshl { sd := 3, sa := 5 }) 1 63 3 = 0x8000000000000000 ∧ sRes (.sshr { sd := 3, sa := 5 }) 0x8000000000000000 64 3 = 0x8000000000000000 ∧
    sRes (.ssra { sd := 3, sa := 5 }) 0x8000000000000000 63 3 = 0xFFFFFFFFFFFFFFFF ∧
    sRes (.smin { sd := 3, sa := 5 }) 0xFFFFFFFFFFFFFFFF 1 3 = 0xFFFFFFFFFFFFFFFF ∧
    sRes (.smin { sd := 3, sa := 5, md := 1 }) 0xFFFFFFFFFFFFFFFF 1 3 = 1 ∧
    sRes (.smax { sd := 3, sa := 5 }) 0xFFFFFFFFFFFFFFFF 1 3 = 1 ∧ sRes (.smov { sd := 3, sa := 5 }) 9 7 3 = 7 ∧
    sRes (.spopc { sd := 3, sa := 5 }) 0 0x8000000000000001 3 = 2 ∧ sRes (.sclz { sd := 3, sa := 5 }) 7 0 3 = 64 ∧
    sRes (.sclz { sd := 3, sa := 5 }) 7 1 3 = 63 := by decide +kernel

/-- Immediates, selects and bitfields (R188 to R192). -/
theorem test_scalar_immediates :
    sRes (.saddi { sd := 3, imm := 0xFFFF }) 0 0 3 = 0xFFFFFFFFFFFFFFFF ∧ sRes (.sli { sd := 3, imm := 0x8000 }) 0 0 3 = 0xFFFFFFFFFFFF8000 ∧
    sRes (.sliLit { sd := 3, lit := 0x8000 }) 0 0 3 = 0x8000 ∧ sRes (.ssel { sd := 4, sa := 3, sb := 5 }) 1 2 4 = 2 ∧
    (gAfter (withS [(3, 0xFFFFFFFFFFFFFFFF), (5, 1)] (prog (.scmp { sa := 3, sb := 5, md := 2 })))).scc = true ∧
    (gAfter (withS [(3, 0xFFFFFFFFFFFFFFFF), (5, 1)] (prog (.scmp { sa := 3, sb := 5, md := 10 })))).scc = false ∧
    sRes (.sbfx { sd := 4, sa := 3, imm := 0x0804, md := 1 }) 0xF80 0 4 = 0xFFFFFFFFFFFFFFF8 ∧
    sRes (.sbfi { sd := 5, sa := 3, imm := 0x0404 }) 0xA 0xFFFF 5 = 0xFFAF := by decide +kernel

/-- A branch taken backwards by one word, a call's link, a jump to an address with bit 1 set (R57, R64, R65, R196, R197). -/
theorem test_control :
    (gAfter (prog (.brc { cond := 0, off := 0xFFFFF }))).pc = 0xFFFFFFFFC ∧ (gAfter (prog (.brc { cond := 1, off := 5 }))).pc = 0x1000000004 ∧
    (gAfter (prog (.call { cond := 0, off := 2 }))).pc = 0x1000000008 ∧ sreg (gAfter (prog (.call { cond := 0, off := 2 }))) 155 = 0x1000000004 ∧
    (gAfter (handled (withS [(3, 0x1002)] (prog (.jmp { sa := 3 }))))).pc = 0x2000 ∧
    (gAfter (handled (withS [(3, 0x1002)] (prog (.jmp { sa := 3 }))))).sp.tcause = 5 ∧
    (gAfter (handled (withS [(3, 0x1002)] (prog (.jmp { sa := 3 }))))).sp.tval = 0x1002 := by decide +kernel

/-- TRAP saves the next address, the value and SCC in bit 7 of TCAUSE (R238). -/
theorem test_trap : let g := gAfter (handled (onG (fun g => { g with scc := true }) (withS [(9, 77)] (prog (.trap { sa := 9 })))))
    g.pc = 0x2000 ∧ g.handler = true ∧ g.sp.tpc = 0x1000000004 ∧ g.sp.tcause = 0x8A ∧ g.sp.tval = 77 ∧ g.sp.ric = 0 := by decide +kernel

/-- A store and a load at scratchpad offset 8, the load's sign extension, and a misaligned load (R160, R193, R194). -/
theorem test_scalar_memory :
    sreg (gAfter (onW (fun w => { w with scratch := [(8, 0xFF), (9, 0x80)] }) (prog (.sld { sd := 4, sa := 3, md := 5, imm := 8 })))) 4 =
      0xFFFFFFFFFFFF80FF ∧
    (gAfter (handled (prog (.sld { sd := 4, sa := 3, md := 1, imm := 9 })))).sp.tcause = 5 ∧
    (gAfter (handled (prog (.sld { sd := 4, sa := 3, md := 3, imm := 4096 })))).sp.tcause = 4 := by decide +kernel

/-- A vector lane after one step of an instruction with v2 and v3 set. -/
def vRes (i : Instr) (a b : Word) (l : Nat) : Word := vlane (gAfter (withV 2 a (withV 3 b (prog i)))) 1 l

/-- Integer lanes at the ends of their ranges (R144, R145), and an 8-bit result zero-extended (R121). -/
theorem test_vector_integers :
    vRes (.vadd { vd := 1, va := 2, vb := 3 }) 0xFFFFFFFF 2 127 = 1 ∧ vRes (.vsub { ty := 8, vd := 1, va := 2, vb := 3 }) 0 1 0 = 0xFF ∧
    vRes (.vmulh { ty := 0, vd := 1, va := 2, vb := 3 }) 0xFFFFFFFF 2 5 = 0xFFFFFFFF ∧
    vRes (.vmulh { ty := 1, vd := 1, va := 2, vb := 3 }) 0xFFFFFFFF 2 5 = 1 ∧ vRes (.vabs { vd := 1, va := 2 }) 0x80000000 0 0 = 0x80000000 ∧
    vRes (.vsra { ty := 8, vd := 1, va := 2, vb := 3 }) 0x80 7 0 = 0xFF ∧ vRes (.vclz { ty := 8, vd := 1, va := 2 }) 0x100 0 0 = 8 ∧
    vRes (.vmov { vd := 1, va := 464 }) 0 0 127 = 127 := by decide +kernel

/-- F32: 1 + 1 = 2, 1 / 0 = +∞ with DZ sticky, 0 × ∞ the canonical NaN, the square root of 4 (R126, R134, R149). -/
theorem test_vector_floats :
    vRes (.vfadd { ty := 6, vd := 1, va := 2, vb := 3 }) 0x3F800000 0x3F800000 0 = 0x40000000 ∧
    vRes (.vfdiv { ty := 6, vd := 1, va := 2, vb := 3 }) 0x3F800000 0 0 = 0x7F800000 ∧
    vRes (.vfmul { ty := 6, vd := 1, va := 2, vb := 3 }) 0 0x7F800000 0 = 0x7FC00000 ∧
    vRes (.vfsqrt { ty := 6, vd := 1, va := 2 }) 0x40800000 0 0 = 0x40000000 := by decide +kernel

/-! ## What the statements suppose, met: scalar instructions -/

/-- ScalarArithmeticResults. -/
theorem witness_scalar_arithmetic : issued [.sadd {}, .ssub {}, .smul {}, .smulh {}, .sand {}, .sor {}, .sxor {}, .sandn {}, .sshl {}, .sshr {},
    .ssra {}, .smin {}, .smax {}, .smov {}, .spopc {}, .sclz {}] = true := by decide +kernel

/-- ScalarImmediateCompareBitfield: the predicates 0 to 5 with r as equal operands give it, and both sources of position and length. -/
theorem witness_scalar_immediates :
    issued [.saddi {}, .sli {}, .sliLit {}, .ssel {}, .sbfx {}, .sbfx { md := 2 }, .sbfi {}, .sbfi { md := 2 }] = true ∧
    (∀ m, m < 6 → rdy (prog (.scmp { md := BitVec.ofNat 8 m })) (.scmp { md := BitVec.ofNat 8 m }) = true) ∧
    (∀ m, m < 6 → rdy (prog (.scmp { md := BitVec.ofNat 8 (m + 8) })) (.scmp { md := BitVec.ofNat 8 (m + 8) }) = true) ∧
    (∀ j, j < 64 → (0xFF0 : DWord).getLsbD j = if 4 ≤ j ∧ j < 4 + 8 then (0xFF : DWord).getLsbD (j - 4) else (0 : DWord).getLsbD j) := by
  decide +kernel

/-- JumpsCallsAndReturns: each condition, taken and not; aligned and misaligned targets. -/
theorem witness_jumps :
    (∀ k, k < 7 → rdy (prog (.brc { cond := BitVec.ofNat 4 k })) (.brc { cond := BitVec.ofNat 4 k }) = true) ∧
    (∀ k, k < 7 → rdy (prog (.call { cond := BitVec.ofNat 4 k })) (.call { cond := BitVec.ofNat 4 k }) = true) ∧
    issued [.ret {}, .jmp { sa := 3 }, .jmp { sa := 3, md := 1 }] = true ∧
    rdy (handled (withS [(155, 1), (3, 2)] (prog (.ret {})))) (.ret {}) = true ∧
    Handled (cx (handled (withS [(155, 1), (3, 2)] (prog (.ret {})))) (.ret {})) ∧
    rdy (handled (withS [(155, 1), (3, 2)] (prog (.jmp { sa := 3 })))) (.jmp { sa := 3 }) = true := by decide +kernel

/-- PcOnlyPaletteAndFpc: sound and unsound values at their bounds. -/
theorem witness_palette :
    issued [.nop {}, .fence {}, .yield {}, .cfence {}, .palget {}, .fpcget {}, .palset { sa := 3 }, .palset { sa := 3, sb := 5, md := 1 },
      .fpcset { sa := 3 }] = true ∧
    PalSound 0x1000 ∧ PalSound 0x600 ∧ ¬PalSound 0x400 ∧ ¬PalSound 0x1200 ∧
    (let s := handled (withS [(3, 0x2000)] (prog (.fpcset { sa := 3 })))
     rdy s (.fpcset { sa := 3 }) = true ∧ Handled (cx s (.fpcset { sa := 3 })) ∧ 2 ^ 13 ≤ (sval (cx s (.fpcset { sa := 3 })).g none 3).toNat) := by
  decide +kernel

/-- SpecialRegisters: reads in both modes, the identity values, and each way a write ends. -/
theorem witness_special_registers :
    issued [.clkr {}, .sysr { sa := 7 }, .sysr { sa := 13 }] = true ∧
    (∀ m, m < 7 → rdy (prog (.idr { md := BitVec.ofNat 4 m })) (.idr { md := BitVec.ofNat 4 m }) = true) ∧
    (∀ n, n < 14 → ((specialTable (cx (prog (.nop {})) (.nop {})).g)[n]?).isSome = true) ∧
    rdy (inHandler (prog (.sysr { sa := 6 }))) (.sysr { sa := 6 }) = true ∧ rdy (handled (prog (.sysr { sa := 6 }))) (.sysr { sa := 6 }) = true ∧
    rdy (inHandler (prog (.sysw { sd := 0, sa := 3 }))) (.sysw { sd := 0, sa := 3 }) = true ∧
    rdy (withS [(3, 4096)] (prog (.sysw { sd := 9, sa := 3 }))) (.sysw { sd := 9, sa := 3 }) = true ∧
    rdy (handled (withS [(3, 4160)] (prog (.sysw { sd := 9, sa := 3 })))) (.sysw { sd := 9, sa := 3 }) = true ∧
    rdy (handled (withS [(3, 0x200000)] (prog (.sysw { sd := 9, sa := 3 })))) (.sysw { sd := 9, sa := 3 }) = true ∧
    (cx (prog (.sysw { sd := 9, sa := 3 })) (.nop {})).l.kern.scratch = 4096 := by decide +kernel

/-- TrapsTakenAndLeft: a handler, none, a second trap in handler mode; returns with an empty log, with one logged access, in user mode. -/
theorem witness_traps :
    rdy (handled (prog (.trap { sa := 9 }))) (.trap { sa := 9 }) = true ∧ Handled (cx (handled (prog (.trap { sa := 9 }))) (.trap { sa := 9 })) ∧
    (cx (prog (.trap { sa := 9 })) (.trap { sa := 9 })).l.kern.handler = 0 ∧
    rdy (inHandler (prog (.trap { sa := 9 }))) (.trap { sa := 9 }) = true ∧
    rdy (inHandler (prog (.rft {}))) (.rft {}) = true ∧ rdy (inHandler (prog (.rft { md := 1 }))) (.rft { md := 1 }) = true ∧
    rdy (inHandler (onG (fun g => { g with log := ⟨[⟨0, .sld {}⟩], 0, 0, 0, 0⟩ }) (prog (.rft { md := 1 })))) (.rft { md := 1 }) = true ∧
    rdy (handled (prog (.rft {}))) (.rft {}) = true := by decide +kernel

/-- A group with an operation outstanding on every counter. -/
def busy (s : State) : State :=
  onG (fun g => { g with ld := [⟨7, false, none⟩], st := [⟨7, false, none⟩], tile := [⟨7, false, none⟩], coll := [⟨7, false, none⟩] }) s

/-- WaitsForCountersAndWords: met, met with a report, not met, in a DET launch with the tile counter alone unmet; a word that meets each
condition, one that does not, and a misaligned one. -/
theorem witness_waits :
    let w : WF := { ld := 0, st := 0, tile := 0, coll := 0 }
    let u : WF := { tile := 0 }
    rdy (prog (.wait w)) (.wait w) = true ∧ rdy (handled (onG (fun g => { g with reports := [4] }) (prog (.wait w)))) (.wait w) = true ∧
    rdy (busy (prog (.wait w))) (.wait w) = true ∧ (cx (busy (prog (.wait w))) (.wait w)).g.ld.length = 1 ∧
    rdy (inDet (busy (prog (.wait u)))) (.wait u) = true ∧
    (let s := prog (.waitw { sd := 1, sa := 2, sb := 3, md2 := 1 })
     rdy s (.waitw { sd := 1, sa := 2, sb := 3, md2 := 1 }) = true ∧ checkAcc s (cx s (.nop {})) false true false [⟨0, 0, 4⟩] = none ∧
     scratchNat s (cx s (.nop {})).g 0 4 = 0) ∧
    (∀ m, m < 4 → rdy (prog (.waitw { md := BitVec.ofNat 8 m })) (.waitw { md := BitVec.ofNat 8 m }) = true) ∧
    (let s := handled (prog (.waitw { imm := 2 }))
     rdy s (.waitw { imm := 2 }) = true ∧ Handled (cx s (.nop {})) ∧ checkAcc s (cx s (.nop {})) false true false [⟨0, 2, 4⟩] = some ⟨5, 2, 0⟩) := by
  decide +kernel

/-- WaitsForCountersAndWords: in a DET launch, tile operations that are complete and still counted behind one that is not, with a report and
without; a WAIT that the oldest lets go on, and one for none outstanding. -/
theorem witness_det_waits :
    let w (n : BitVec 6) : Instr := .wait { tile := n }
    let kept (r : Option DWord) (n : BitVec 6) : State := handled (inDet (onG (fun g => { g with tile := [⟨7, true, r⟩, ⟨8, false, none⟩] }) (prog (w n))))
    [none, some 4].all (fun r => rdy (kept r 0) (w 0) && rdy (kept r 1) (w 1)) = true ∧
    (let c := cx (kept (some 4) 1) (.nop {})
     c.l.kern.det = true ∧ c.g.tile = [⟨7, true, some 4⟩, ⟨8, false, none⟩] ∧ c.g.reports = [] ∧ Handled c) := by decide +kernel

/-- AccessChecksInOrder: accesses that fail each check first, at the bounds of the allocation. -/
theorem witness_access_checks :
    let s := { prog (.nop {}) with cores := [(0, ⟨0, [⟨5, 64, 72, true, none, none⟩], 0, 0, 0, []⟩)] }
    let p := onW (fun w => { w with spoison := [(2, true)] }) s
    let c := cx p (.nop {})
    checkAcc p c true true false [⟨3, 4093, 4⟩, ⟨5, -4, 4⟩] = some ⟨5, 4093, 8⟩ ∧ checkAcc p c true true false [⟨3, 4092, 4⟩, ⟨5, 4096, 4⟩, ⟨6, -4, 4⟩] =
      some ⟨4, 4096, 96⟩ ∧
    checkAcc p c true true false [⟨3, 68, 4⟩, ⟨5, 16, 4⟩] = some ⟨6, 68, 8⟩ ∧ checkAcc p c true true false [⟨3, 72, 4⟩, ⟨5, 16, 4⟩] = some ⟨7, 16, 32⟩ ∧
    checkAcc p c true true false [⟨3, 72, 4⟩, ⟨5, 24, 4⟩] = none := by decide +kernel

/-- A tape entry of a reading operation over scratchpad offsets 64 to 71, in the issuing group's core. -/
def taped (s : State) : State := { s with cores := [(0, ⟨0, [⟨5, 64, 72, true, none, none⟩], 0, 0, 0, []⟩)] }

/-- ScalarLoadsAndStores: performed, in a DET launch, failing, and meeting the tape table. -/
theorem witness_scalar_memory :
    issued [.sld {}, .sst {}] = true ∧ rdy (inDet (prog (.sst {}))) (.sst {}) = true ∧
    rdy (handled (prog (.sld { md := 1, imm := 1 }))) (.sld { md := 1, imm := 1 }) = true ∧
    rdy (handled (prog (.sst { md := 1, imm := 1 }))) (.sst { md := 1, imm := 1 }) = true ∧
    rdy (taped (prog (.sld { imm := 64 }))) (.sld { imm := 64 }) = true ∧ rdy (taped (prog (.sst { imm := 71 }))) (.sst { imm := 71 }) = true ∧
    (let c := cx (taped (prog (.sst { imm := 71 }))) (.nop {})
     checkAcc (taped (prog (.sst { imm := 71 }))) c false false true [⟨0, 71, 1⟩] = some ⟨6, 71, 0⟩ ∧
     checkAcc (taped (prog (.sst { imm := 71 }))) c false false true [⟨0, 72, 1⟩] = none) := by decide +kernel

/-- ScalarAndLaneAtomics: in a DET launch and outside one, every lane at one address. -/
theorem witness_atomics :
    rdy (prog (.slda { md := 2 })) (.slda { md := 2 }) = true ∧ rdy (inDet (prog (.slda { md := 3 }))) (.slda { md := 3 }) = true ∧
    (let s := prog (.slda { md := 3 })
     (cx s (.nop {})).l.kern.det = false ∧ checkAcc s (cx s (.nop {})) false true true [⟨0, 0, 8⟩] = none ∧
     checkAcc s (cx s (.nop {})) true true true ((List.range 128).map (fun (l : Nat) => ⟨l, 0, 4⟩)) = none) ∧
    issuedV [.vatom {}] = true ∧ rdyV (inDet (prog (.vatom {}))) (.vatom {}) = true := by decide +kernel

/-- ScalarAndLaneAtomics, VectorLoadsAndStores: accesses that meet the tape table, and accesses past the end of the allocation. -/
theorem witness_tape_hits :
    (let s := taped (prog (.slda { md := 3, imm := 64 }))
     rdy s (.slda { md := 3, imm := 64 }) = true ∧ checkAcc s (cx s (.nop {})) false true true [⟨0, 64, 8⟩] = some ⟨6, 64, 0⟩) ∧
    (∀ i ∈ [Instr.vatom { imm := 64 }, .vld { va := 448, imm := 64 }, .vst { va := 448, imm := 64 }, .vldx { imm := 64 }, .vstx { imm := 64 }],
      rdyV (taped (prog i)) i = true) ∧
    (let s := taped (prog (.nop {}))
     let c := cx s (.nop {})
     checkAcc s c true true true ((List.range 128).map (fun (l : Nat) => ⟨l, 64, 4⟩)) = some ⟨6, 64, 2 ^ 128 - 1⟩ ∧
     (checkAcc s c true false true ((List.range 128).map (fun (l : Nat) => ⟨l, 64 + (l : Int) * 4, 4⟩))).map (fun m => m.cause) = some 6 ∧
     (checkAcc s c true true true ((List.range 128).map (fun (l : Nat) => ⟨l, 4096, 4⟩))).map (fun m => m.cause) = some 4 ∧ c.g.handler = false) ∧
    rdy (handled (prog (.slda { md := 3, imm := 4 }))) (.slda { md := 3, imm := 4 }) = true ∧
    rdyV (handled (prog (.vatom { imm := 4096 }))) (.vatom { imm := 4096 }) = true := by decide +kernel

/-- AtomicOperations: old value, operand and bound at the top of 32 bits. -/
theorem witness_atomic_operations : (0 : Nat) < 32 ∧ 2 ^ 32 - 1 < 2 ^ 32 ∧ atomNew 0 32 true (2 ^ 32 - 1) 1 0 = 0 ∧
    atomNew 12 32 true 5 (2 ^ 31 - 1) 7 = 7 ∧ atomNew 11 32 false 3 0 3 = 0 ∧ atomNew 2 32 true 0 (2 ^ 32 - 1) 0 = 2 ^ 32 - 1 := by decide +kernel

/-- MasksAndRejoin: a sound record with as many arrivals as expected and with too few, and a record with no expected arrival. -/
theorem witness_masks :
    issued [.msplit { sd := 156, sa := 10 }, .mmov { md := 0 }, .mmov { md := 1 }, .mmov { md := 2 }, .mmov { md := 3 }, .mpopc {},
      .mopen { imm := 255 }] = true ∧
    (let s := handled (onK (fun k => { k with joinchk := true }) (withS [(2, 0x1000), (3, 0x0101)] (prog (.mjoin {}))))
     rdy s (.mjoin {}) = true ∧ Handled (cx s (.nop {})) ∧ PalSound 0x1000 ∧ sreg (cx s (.nop {})).g 3 = 0x0101) ∧
    (let s := handled (onK (fun k => { k with joinchk := true }) (withS [(2, 0x1000), (3, 0x0201)] (prog (.mjoin {}))))
     rdy s (.mjoin {}) = true) ∧
    rdy (withS [(2, 0x1000), (3, 0xFF01)] (prog (.marrive {}))) (.marrive {}) = true ∧
    rdy (handled (prog (.marrive {}))) (.marrive {}) = true ∧ rdy (handled (prog (.mjoin {}))) (.mjoin {}) = true := by decide +kernel

/-! ## What the statements suppose, met: frames, groups and barriers -/

/-- A frame stack of one slot of 64 bytes from 512 to 576; full when the flag is set. -/
def stack (full : Bool) (s : State) : State :=
  onG (fun g => { g with sp := { g.sp with fbase := 512, fsp := if full then 576 else 512, flim := 576 } }) s

/-- JoinsAndTaskEnds: a frame that is not promoted, one that is with its join word at zero and at one, an empty stack; a group that
ends, one with operations outstanding, one with a frame; tasks of an L and a G frame. -/
theorem witness_joins :
    (let s := handled (onK (fun k => { k with codesize := 4096 }) (stack true (prog (.join { sd := 8 }))))
     rdy s (.join { sd := 8 }) = true ∧ checkAcc s (cx s (.nop {})) false true false [⟨0, 512, 64⟩] = none ∧
     frameOk (cx s (.nop {})).l (readFrame s (cx s (.nop {})).g 512) = true ∧ (readFrame s (cx s (.nop {})).g 512).prom = false) ∧
    (let s := onW (fun w => { w with scratch := [(516, 4)] }) (onK (fun k => { k with codesize := 4096 }) (stack true (prog (.join {}))))
     rdy s (.join {}) = true ∧ frameOk (cx s (.nop {})).l (readFrame s (cx s (.nop {})).g 512) = true ∧
     (readFrame s (cx s (.nop {})).g 512).prom = true ∧ scratchNat s (cx s (.nop {})).g 0 8 = 0) ∧
    (let s := onW (fun w => { w with scratch := [(0, 1), (516, 4)] }) (onK (fun k => { k with codesize := 4096 }) (stack true (prog (.join {}))))
     rdy s (.join {}) = true ∧ (readFrame s (cx s (.nop {})).g 512).joinOff = 0 ∧ scratchNat s (cx s (.nop {})).g 0 8 = 1) ∧
    rdy (handled (stack false (prog (.join {})))) (.join {}) = true ∧
    issued [.endg {}] = true ∧ rdy (busy (prog (.endg {}))) (.endg {}) = true ∧ rdy (handled (stack true (prog (.endg {})))) (.endg {}) = true ∧
    (let s := onG (fun g => { g with task := some ⟨0, 512, false⟩ }) (prog (.taskend {}))
     rdy s (.taskend {}) = true ∧ (tget s.wgs (wgKey (cx s (.nop {})).g.launch 0)).isSome = true) ∧
    rdy (onG (fun g => { g with task := some ⟨0, 512, true⟩ }) (prog (.taskend { md := 1 }))) (.taskend { md := 1 }) = true ∧
    rdy (handled (prog (.taskend {}))) (.taskend {}) = true := by decide +kernel

/-- JoinsAndTaskEnds: a frame with seven arguments, one whose bytes meet the tape table, a promoted one whose join word does, and a candidate; tasks
that end with operations outstanding, in a DET launch, and with a frame that meets the tape table. -/
theorem witness_join_traps :
    let at512 (b : List (Nat × Byte)) (f : Kernel → Kernel) : State :=
      handled (onW (fun w => { w with scratch := b }) (onK (fun k => f { k with codesize := 4096 }) (stack true (prog (.join {})))))
    let hit (a b : Nat) (s : State) : State := { s with cores := [(0, ⟨0, [⟨5, a, b, true, none, none⟩], 0, 0, 0, []⟩)] }
    (let s := at512 [(519, 7)] id
     let c := cx s (.nop {})
     rdy s (.join {}) = true ∧ Handled c ∧ checkAcc s c false true false [⟨0, 512, 64⟩] = none ∧ frameOk c.l (readFrame s c.g 512) = false) ∧
    (let s := hit 575 576 (at512 [] id)
     rdy s (.join {}) = true ∧ (checkAcc s (cx s (.nop {})) false true false [⟨0, 512, 64⟩]).map (fun m => m.cause) = some 6) ∧
    (let s := hit 64 72 (at512 [(516, 4), (520, 64)] id)
     let c := cx s (.nop {})
     rdy s (.join {}) = true ∧ checkAcc s c false true false [⟨0, 512, 64⟩] = none ∧ frameOk c.l (readFrame s c.g 512) = true ∧
     (readFrame s c.g 512).prom = true ∧ (readFrame s c.g 512).joinOff = 64 ∧ checkAcc s c false true false [⟨0, 64, 8⟩] = some ⟨6, 64, 0⟩ ∧
     checkAcc s c false true false [⟨0, 72, 8⟩] = none) ∧
    (let s := onG (fun g => { g with candidates := [(512, 0)] }) (at512 [] (fun k => { k with det := true }))
     rdy s (.join {}) = true ∧ (cx s (.nop {})).g.candidates.any (fun x => x.1 == 512) = true) ∧
    (let t (i : Instr) : State := handled (onG (fun g => { g with task := some ⟨0, 512, false⟩ }) (prog i))
     rdy (busy (t (.taskend {}))) (.taskend {}) = true ∧ rdy (inDet (t (.taskend {}))) (.taskend {}) = true ∧
     taskendCheck (t (.taskend {})) (cx (t (.taskend {})) (.nop {})) ⟨0, 512, false⟩ (some 5) = none ∧
     rdy (hit 512 513 (t (.taskend {}))) (.taskend {}) = true ∧
     (taskendCheck (hit 512 513 (t (.taskend {}))) (cx (hit 512 513 (t (.taskend {}))) (.nop {})) ⟨0, 512, false⟩ none).isSome = true) := by
  decide +kernel

/-- ForksPushFrames: room for exactly one frame, none, in a DET launch, and each check of the offsets failing; one lane live and none. -/
theorem witness_forks :
    let f : SX := { md := 2, sa := 4, sb := 9, imm := 16 }
    let v : SX := { sd := 1, sb := 9, imm := 16 }
    rdy (stack false (prog (.fork f))) (.fork f) = true ∧ rdy (stack true (prog (.fork f))) (.fork f) = true ∧
    rdy (inDet (stack false (prog (.fork f)))) (.fork f) = true ∧
    tapeHit (getCore (prog (.fork f)) 0) 0 512 576 true false = false ∧
    ([0x10000000000, 4, 0x400000, 4096, 0x100000000] : List DWord).all
      (fun x => rdy (handled (stack false (withS [(9, x)] (prog (.fork f))))) (.fork f)) = true ∧
    rdy (stack true (prog (.vfork v))) (.vfork v) = true ∧
    rdy (stack false (withS [(158, 1), (159, 0)] (prog (.vfork v)))) (.vfork v) = true ∧
    rdy (stack false (withS [(158, 0), (159, 0)] (prog (.vfork v)))) (.vfork v) = true := by decide +kernel

/-- ForksPushFrames: a frame that meets the tape table, VFORK with one lane live, in a DET launch, and each of its checks failing. -/
theorem witness_fork_traps :
    let f : SX := { md := 2, sa := 4, sb := 9, imm := 16 }
    let v : SX := { sd := 1, sb := 9, imm := 16 }
    let hit (s : State) : State := { s with cores := [(0, ⟨0, [⟨5, 575, 576, false, none, none⟩], 0, 0, 0, []⟩)] }
    let one (i : Instr) : State := stack false (withS [(158, 1), (159, 0)] (prog i))
    rdy (handled (hit (stack false (prog (.fork f))))) (.fork f) = true ∧ tapeHit (getCore (hit (prog (.fork f))) 0) 0 512 576 true false = true ∧
    rdy (handled (hit (one (.vfork v)))) (.vfork v) = true ∧ rdy (inDet (one (.vfork v))) (.vfork v) = true ∧
    ([0x10000000000, 4, 0x400000, 4096, 0x100000000] : List DWord).all
      (fun x => rdy (handled (onG (fun g => setS g 9 x) (one (.vfork v)))) (.vfork v)) = true := by decide +kernel

/-- Queue 3's descriptor at 0x4000: its ring at 0x10000, 4 slots, of an address space, with QCTL as given, and its index words. -/
def queued (ctl asid rd wr : Nat) (s : State) : State :=
  memPut (memPut (memPut (memPut (memPut (memPut { s with info := { s.info with qtbase := 0x4000, bootstate := 1 } }
    (0x4000 + 3 * 128) 8 0x10000) (0x4000 + 3 * 128 + 8) 1 2) (0x4000 + 3 * 128 + 10) 1 ctl) (0x4000 + 3 * 128 + 16) 2 asid)
    (0x4000 + 3 * 128 + 24) 4 rd) (0x4000 + 3 * 128 + 28) 4 wr

/-- ScalarArithmeticResults, ScalarImmediateCompareBitfield, PcOnlyPaletteAndFpc, MasksAndRejoin: words with one field that the entry
reserves or leaves unused, and words that fail a check of their operands alone. -/
theorem witness_reserved_fields :
    (13 : BitVec 4) &&& 1 ≠ 0 ∧ (12 : BitVec 4) &&& 4 ≠ 0 ∧ (6 : BitVec 8).extractLsb' 0 3 = 6 ∧ (16 : BitVec 8).extractLsb' 4 4 ≠ 0 ∧
    (4 : BitVec 8).extractLsb' 2 6 ≠ 0 ∧ (0x83000000 : Word).extractLsb' 30 2 = 2 ∧ (0x83000000 : Word).extractLsb' 24 6 = 3 ∧
    (let f : SX := { sd := 3, sa := 4, sb := 5, md := 2, imm := 1 }
     check 384 (.sbfx { f with imm := 0 }) = none ∧ check 384 (.sbfi { f with imm := 0 }) = none ∧ f.md.getLsbD 1 = true) ∧
    (let f : SX := { sd := 3, sa := 4, imm := 0x10000 }
     check 384 (.sbfx { f with imm := 0 }) = none ∧ check 384 (.sbfi { f with imm := 0 }) = none ∧ f.imm.extractLsb' 16 16 ≠ 0) ∧
    check 384 (.msplit { ({ sd := 158, sa := 10 } : SX) with sd := 0 }) = none := by decide +kernel
/-- Address space 0 mapped onto itself from 0 to 2^30 with one leaf that may be read, written and executed (R382). -/
def mapped (s : State) : State :=
  memPut (memPut (memPut (memPut { s with info := { s.info with asidtab := 0x2000 } } 0x2000 8 0x100001) 0x100000 8 0x200001)
    0x200000 8 0x300001) 0x300000 8 31

/-- LaunchAppendsPacket: each answer of the queue, and a slot of its ring that can be written. -/
theorem witness_launch :
    let f : SX := { sd := 1, sa := 2, sb := 3 }
    let st (ctl asid wr : Nat) : State :=
      onW (fun w => { w with scratch := [(0, 1)] }) (mapped (memPut (queued ctl asid 0 wr (withS [(2, 3)] (prog (.launch f)))) (0x4000 + 3 * 128 + 12) 4 1))
    (∀ p ∈ [(1, 0, 0), (1, 0, 4), (0, 0, 0), (3, 0, 0), (1, 1, 0)], rdy (st p.1 p.2.1 p.2.2) (.launch f) = true) ∧
    rdy (inDet (prog (.launch f))) (.launch f) = true ∧ (cx (inDet (prog (.launch f))) (.launch f)).g.barw = none ∧
    (let s := lookQueue (st 1 0 0) 3
     let c := cx s (.nop {})
     checkAcc s c false true false ((List.range 8).map (fun (j : Nat) => ⟨0, 8 * (j : Int), 8⟩)) = none ∧
     ((scratchRead s c.g 0 64).map (fun b => b.1)).headD 0 = 1 ∧ (qDesc s 3).active = true ∧ (qDesc s 3).submit = false ∧ (qDesc s 3).asid = c.l.asid ∧
     (getQ s 3).wridx = 0 ∧
     (match spRead s (.asid 0) 0x10000 64 with | .ok (ds, _) => ds.all (fun b => !b.2) | .error _ => false) = true ∧
     (match spWrite s (.asid 0) 0x10000 (clean ((scratchRead s c.g 0 64).map (fun b => b.1))) with
      | .ok (_, seen) => !seen.testBit 3
      | .error _ => false) = true) ∧
    ((getQ (lookQueue (st 1 0 4) 3) 3).wridx - (getQ (lookQueue (st 1 0 4) 3) 3).rdidx).toNat = 2 ^ (qDesc (st 1 0 4) 3).logsize ∧
    (qDesc (st 0 0 0) 3).active = false ∧ (qDesc (st 3 0 0) 3).submit = true ∧ (qDesc (st 1 1 0) 3).asid ≠ 0 := by decide +kernel

/-- LaunchAppendsPacket: a queue number that is too large, a misaligned image, one that is no LAUNCH packet, and one that is poisoned. -/
theorem witness_launch_traps :
    let f : SX := { sd := 1, sa := 2, sb := 3 }
    let s (q o : DWord) (w : Workgroup → Workgroup) : State := handled (onW w (withS [(2, q), (3, o)] (prog (.launch f))))
    let reads (t : State) : Option Miss := checkAcc t (cx t (.nop {})) false true false ((List.range 8).map (fun (j : Nat) => ⟨0, 8 * (j : Int), 8⟩))
    rdy (s 1024 0 id) (.launch f) = true ∧ rdy (s 3 8 id) (.launch f) = true ∧ rdy (s 3 0 id) (.launch f) = true ∧
    (let t := s 3 0 id
     reads t = none ∧ ((scratchRead t (cx t (.nop {})).g 0 64).map (fun b => b.1)).headD 0 ≠ 1 ∧ Handled (cx t (.nop {}))) ∧
    (let t := s 3 0 (fun w => { w with spoison := [(1, true)] })
     rdy t (.launch f) = true ∧ (reads t).map (fun m => m.cause) = some 7) := by decide +kernel

/-- A barrier word at scratchpad offset 16: phase, arrivals and expected arrivals. -/
def barWord (phase arrived expected : Nat) (s : State) : State :=
  onW (fun w => { w with scratch := msetRun 0 [] 16 (bytesOf 8 (phase * 2 ^ 32 + arrived * 2 ^ 16 + expected)) }) s

/-- WorkgroupBarriers: the word form with the last arrival and an earlier one, a phase that differs from the token and one that does not, in
a DET launch; the named form, of a number that is too large, and of a task. -/
theorem witness_barriers :
    let f : SX := { sd := 1, sb := 3, md2 := 1, imm := 16 }
    let n : SX := { sd := 1, sb := 3, md := 1, md2 := 2, imm := 15 }
    let m : SX := { sd := 1, sb := 3, md := 1, md2 := 2, imm := 16 }
    (∀ i ∈ [Instr.bara f, .barw f, .baraw f], rdy (barWord 4 0 1 (prog i)) i = true ∧ rdy (barWord 0 0 2 (prog i)) i = true ∧
      rdy (inDet (barWord 4 0 1 (prog i))) i = true ∧ rdy (inDet (barWord 0 0 2 (prog i))) i = true) ∧
    (let s := barWord 4 1 3 (prog (.bara f))
     checkAcc s (cx s (.nop {})) false true true [⟨0, 16, 8⟩] = none ∧ scratchNat s (cx s (.nop {})).g 16 8 = 4 * 2 ^ 32 + 2 ^ 16 + 3 ∧
     (cx s (.nop {})).g.barw = none ∧ (cx s (.nop {})).g.detBuf = []) ∧
    (∀ i ∈ [Instr.bara n, .barw n, .baraw n], rdy (prog i) i = true) ∧
    (∀ i ∈ [Instr.bara m, .barw m, .baraw m], rdy (handled (prog i)) i = true) ∧
    (cx (prog (.bara n)) (.nop {})).l.kern.barriers = 16 ∧
    rdy (handled (onG (fun g => { g with task := some ⟨0, 512, false⟩ }) (prog (.bara n)))) (.bara n) = true := by decide +kernel

/-! ## What the statements suppose, met: vector and tile instructions -/

/-- VectorOperandsAndEmptyExec: operand indices at the ends of their ranges, and a vector instruction with no lane live. -/
theorem witness_vector_operands :
    let s := prog (.vadd {})
    let c := cx s (.vadd {})
    lane (srcLanes s c none 383 2) 127 = 0 ∧ lane (srcLanes s c none 384 0) 0 = 0 ∧ lane (srcLanes s c none 447 0) 127 = 0 ∧
    lane (srcLanes s c none 449 0) 0 = 1 ∧ lane (srcLanes s c none 463 0) 0 = 32 ∧ lane (srcLanes s c none 460 6) 0 = 0xFF800000 ∧
    lane (srcLanes s c none 464 0) 127 = 127 ∧ lane (srcLanes s c none 476 0) 33 = 2 ∧ lane (srcLanes s c (some 7) 511 2) 5 = 7 ∧
    (let e := withS [(158, 0), (159, 0)] s
     rdy e (.vadd {}) = true ∧ isVector (.vadd {}) = true ∧ execMask (cx e (.vadd {})).g = 0) := by decide +kernel

/-- VectorIntegerArithmetic, VectorBitOperations. -/
theorem witness_vector_integers :
    issuedV [.vadd {}, .vsub {}, .vmul {}, .vmulh {}, .vmad {}, .vabs {}, .vmin {}, .vmax {}, .vand {}, .vor {}, .vxor {}, .vandn {}, .vshl {},
      .vshr {}, .vsra {}, .vpopc {}, .vclz {}, .vbfx {}, .vbfi {}] = true := by decide +kernel

/-- VectorBitOperations, VBFI: values r that its premise asks for, with no bit inserted. -/
theorem witness_vbfi : let s := prog (.vbfi {})
    let c := cx s (.vbfi {})
    ∀ j, j < 64 → (0 : DWord).getLsbD j = (decide (j < typeBits 0) &&
      (if ((lane (amountB s c {}) 127).extractLsb' 0 8).toNat ≤ j ∧
          j < ((lane (amountB s c {}) 127).extractLsb' 0 8).toNat + ((lane (amountB s c {}) 127).extractLsb' 8 8).toNat
       then (lane (opA s c {}) 127).getLsbD (j - ((lane (amountB s c {}) 127).extractLsb' 0 8).toNat)
       else (lane (opC s c {}) 127).getLsbD j)) := by decide +kernel

/-- ComparesSelectsAndMoves: the mask of an equality of equal operands is EXEC, of an inequality empty. -/
theorem witness_compares :
    (∀ m, m < 6 → rdyV (prog (.vcmp { md := BitVec.ofNat 10 m })) (.vcmp { md := BitVec.ofNat 10 m }) = true) ∧
    issuedV [.vsel {}, .vmov {}, .vlane { vb := 449 }, .vlane { vb := 454, md := 1 }, .vins { vb := 448 }, .vshuf {}, .vshuf { md := 1 },
      .vbcast { vb := 448 }] = true ∧
    (let s := prog (.vcmp {})
     let c := cx s (.vcmp {})
     ∀ l, l < 128 → ((BitVec.allOnes 128 : Mask).getLsbD l = true ↔
       (execMask c.g).getLsbD l = true ∧ laneInt 0 (opA s c {}) l = laneInt 0 (opB s c {}) l)) := by decide +kernel

/-- FloatArithmetic, FloatComparesAndConversions: lanes that raise nothing, and with a trap enabled for DZ a lane that raises it. -/
theorem witness_floats :
    issuedV [.vfadd { ty := 6 }, .vfsub { ty := 6 }, .vfmul { ty := 6 }, .vfma { ty := 6 }, .vfdiv { ty := 6 }, .vfsqrt { ty := 6 },
      .vfmin { ty := 6 }, .vfmax { ty := 6 }, .vfrcpa { ty := 6 }, .vfrsqa { ty := 6 }, .vfcmp { ty := 6 }, .vfclass { ty := 6 },
      .vfrnd { ty := 6 }, .vfcvt { ty := 6, md := 7 }, .vslice { ty := 7, imm := 8 }] = true ∧
    (let s := handled (onG (fun g => { g with fpc := 0x1F00 }) (withV 2 0x3F800000 (prog (.vfdiv { ty := 6, va := 2 }))))
     rdyV s (.vfdiv { ty := 6, va := 2 }) = true ∧ Handled (cx s (.nop {})) ∧
     (gAfter s).sp.tcause = 8) := by decide +kernel

/-- FloatRoundingAndSpecialValues: a tie, and its distance from the place it is rounded at. -/
theorem witness_rounding : ((2 : Nat) : Int) = (2 : Int) - 0 ∧ 2 * (6 % 2 ^ 2) = 2 ^ 2 ∧ (roundTo .rne false 6 0 2).1 = 2 ∧
    (roundTo .rup false 5 0 2).1 = 2 ∧ (FVal.nan true).isNaN = true ∧ (1 : Nat) ≠ 0 := by decide +kernel

/-- FloatArithmetic: 1 / 3 and the root of 2 as F32 before they are rounded. -/
theorem witness_quotient_and_root :
    (29 = f32.f + 4 + bitLen 3 ∧ 178956970 * 3 ≤ 1 * 2 ^ 29 ∧ 1 * 2 ^ 29 < (178956970 + 1) * 3) ∧
    ((2 : Nat) = 2 ∧ (0 : Int) = 2 * 0) ∧ 189812531 * 189812531 ≤ 2 * 4 ^ (f32.f + 4) ∧ 2 * 4 ^ (f32.f + 4) < (189812531 + 1) * (189812531 + 1) := by
  decide

/-- FloatComparesAndConversions: values of each kind, and the grid places that a slice's operand leaves and fits. -/
theorem witness_values :
    decodeF f32 0x7FC00000 = .nan false ∧ decodeF f32 0xFF800000 = .inf true ∧ decodeF f64 0x3FF0000000000000 = .fin false (2 ^ 52) (-52) ∧
    ((0 : Int) < (bitLen (2 ^ 52) : Int) + -52) ∧ ¬((1 : Int) < (bitLen (2 ^ 52) : Int) + -52) ∧ (-1 : Int) ≤ 0 := by decide +kernel

/-- ReductionsScansAndRandom: an integer sum of zeros is zero; floating-point forms; VRAND. -/
theorem witness_reductions :
    issuedV [.vred {}, .vscan {}, .vscan { md := 8 }, .vred { ty := 6 }, .vscan { ty := 6 }, .vscan { ty := 6, md := 8 },
      .vrand { ty := 1, vd := 4, va := 8, vb := 448 }] = true ∧ floatType 0 = false ∧ floatType 6 = true ∧
    (gAfter (prog (.vred { vd := 1, va := 464 }))).vregs ≠ [] ∧ vlane (gAfter (prog (.vred { vd := 1, va := 464 }))) 1 0 = 8128 := by
  decide +kernel

/-- VectorLoadsAndStores: all lanes inside the allocation, in a DET launch, and one lane beyond its end. -/
theorem witness_vector_memory :
    issuedV [.vld { va := 448 }, .vst { va := 448 }, .vldx {}, .vstx {}] = true ∧
    (let s := prog (.vld { va := 448, imm := 3584 })
     let c := cx s (.nop {})
     checkAcc s c true true false ((List.range 128).map (fun (l : Nat) => ⟨l, 3584 + (l : Int) * 4, 4⟩)) = none ∧
     checkAcc s c true true false ((List.range 128).map (fun (l : Nat) => ⟨l, 3588 + (l : Int) * 4, 4⟩)) = some ⟨4, 4096, 2 ^ 127⟩) ∧
    (let s := inDet (prog (.vst { va := 448, imm := 3584 }))
     rdyV s (.vst { va := 448, imm := 3584 }) = true ∧ (cx s (.nop {})).l.kern.det = true ∧
     checkAcc s (cx s (.nop {})) true false true ((List.range 128).map (fun (l : Nat) => ⟨l, 3584 + (l : Int) * 4, 4⟩)) = none) ∧
    rdyV (handled (prog (.vld { va := 448, imm := 3588 }))) (.vld { va := 448, imm := 3588 }) = true ∧
    rdyV (handled (prog (.vst { va := 448, imm := 3588 }))) (.vst { va := 448, imm := 3588 }) = true := by decide +kernel

/-- A tile control of a format, rows, bytes of a row and offset (R286). -/
def tdesc (fmt rows rowb off : Nat) : DWord := BitVec.ofNat 64 (2 ^ 63 + fmt + rows * 2 ^ 4 + rowb * 2 ^ 11 + off * 2 ^ 21)

/-- Tiles 1 to 6: BF16 of 2 rows and 4 elements, the same again, F32 of 2 rows and 2 elements, W4 of 1 row and 64 elements, FX32 of 1 row
and 1 element, and FX128 of 1 row and 1 element. -/
def tiled (s : State) : State :=
  onG (fun g => { g with tc := [(1, tdesc 0 2 8 0), (2, tdesc 0 2 8 64), (3, tdesc 6 2 8 128), (4, tdesc 3 1 32 192), (5, tdesc 7 1 4 256),
                                (6, tdesc 8 1 16 320)] }) s

/-- TileInstructionsIssue: every form with sound tiles, its scratchpad ranges ending at the end of the allocation. -/
theorem witness_tiles_issue :
    (∀ i ∈ [Instr.tcfg { td := 1, sa := 3 }, .tzero { td := 1 }, .tmov { td := 1, ta := 2 }, .tflgGet { sa := 3 }, .tflgSet { sa := 3, sb := 5, md := 1 },
      .tld { td := 1, sa := 3, sb := 5, imm := 4080 }, .tldw { td := 4, sa := 3, sb := 5, sc := 6, imm := 4064 }, .tst { ta := 1, sa := 3, sb := 5 },
      .tmma { td := 3, ta := 1, tb := 2 }, .tcomb { td := 6, ta := 5 }, .tcvt { ta := 6, sa := 3, sb := 5, sc := 6 }, .tadd { td := 3, ta := 3, tb := 3 }],
      rdy (tiled (prog i)) i = true) ∧
    (let s := tiled (prog (.tzero { td := 1 }))
     let c := cx s (.nop {})
     (∀ n ∈ [1, 2, 3, 4, 5, 6], tSound (tctl c.g n) = true ∧ tAlloc (tctl c.g n) = true) ∧ tcfgBad c 1 (tdesc 0 2 8 0) = false ∧
     movPair (tctl c.g 1) (tctl c.g 2) = true ∧ tOverlap (tctl c.g 1) (tctl c.g 2) = false ∧ isWeight (tFmt (tctl c.g 4)) = true ∧
     mmaMode 0 = some (0, 0, 6) ∧ tElems (tctl c.g 1) = 4 ∧ mmaShape 0 (tctl c.g 3) (tctl c.g 1) (tctl c.g 2) { td := 3, ta := 1, tb := 2 } 0 0 6 = none ∧
     tileOps s c.g = [] ∧ Room s c .tile 3 ∧ spansTape s c [⟨4080, 4096, false⟩] = none ∧ tScaleBytes (tctl c.g 4) = 4) := by decide +kernel

/-- An operation of the test's group, in flight. -/
def opOf (ctr : Option Ctr) (act : OpAct) : EngineOp :=
  { group := 0, gidx := 0, launch := 0, wg := 0, core := 0, tag := 0, pc := 0, ctr := ctr, scope := 0, ord := 0, record := none, act := act,
    seen := 0, cause := 0, lane := 255, addr := 0, cells := [], cellSeen := [], vals := [], fence := 0, performed := false, exited := false, deferred := false,
    quantum := none, seq := 0, src := none, lost := false }

/-- Operation 7 of an action in flight, counted, with nobody issuing. -/
def flying (ctr : Option Ctr) (act : OpAct) (s : State) : State := { busy s with ops := [(7, opOf ctr act)], opNo := 8, cur := none }

/-- TileOperationsComplete: every action, ready. -/
theorem witness_tiles_complete :
    ∀ act ∈ [TileAct.tzero (tdesc 0 2 8 0), .tmov (tdesc 0 2 8 0) (tdesc 0 2 8 64), .tmov (tdesc 0 2 4 0) (tdesc 6 2 8 128), .tflgGet 3, .tflgSet 1 1,
      .tld (tdesc 0 2 8 0) 0 8, .tldw (tdesc 3 1 32 192) 0 32 64, .tldw (tdesc 4 1 32 192) 0 32 64, .tst (tdesc 0 2 8 0) 0 8, .tmma (tdesc 6 2 8 128) (tdesc 0 2 8 0) (tdesc 0 2 8 64) true,
      .tmma (tdesc 7 1 4 256) (tdesc 5 1 4 0) (tdesc 5 1 4 64) false, .tcomb (tdesc 8 1 16 320) (tdesc 7 1 4 256) 16 0,
      .tadd (tdesc 7 1 4 256) (tdesc 7 1 4 0) (tdesc 7 1 4 64), .tadd (tdesc 6 2 8 128) (tdesc 6 2 8 0) (tdesc 6 2 8 64), .tcvt (tdesc 8 1 16 320) 0 64 128 8],
      let s := flying (some .tile) (.tile act 0 0 [] []) (tiled (prog (.nop {})))
      let o := opOf (some .tile) (.tile act 0 0 [] [])
      (match opAt s o with | some (_, g) => tileReady s g 7 o act | none => false) = true ∧ launchDet s 0 = false ∧
        (tget s.wgs (wgKey 0 0)).isSome = true := by decide +kernel

/-! ## What the statements suppose, met: the copy engine, the graph machine and the collective engine at issue -/

/-- TileInstructionsIssue: behind a TFLG, behind an operation that it meets, and without room. -/
theorem witness_tiles_wait :
    let i : Instr := .tzero { td := 1 }
    let behind (act : TileAct) (wr : List Nat) : State :=
      { onG (fun g => { g with tile := [⟨7, false, none⟩] }) (tiled (prog i)) with ops := [(7, opOf (some .tile) (.tile act 0 0 wr []))], opNo := 8 }
    let full : State := onG (fun g => { g with tile := (List.range Config.counterMax).map (fun (n : Nat) => ⟨n, false, none⟩) }) (tiled (prog i))
    (let s := behind (.tflgGet 3) []
     rdy s i = true ∧ (tileOps s (cx s i).g).any (fun p => isTflg p.2) = true) ∧
    (let s := behind (.tzero (tdesc 0 2 8 0)) [1]
     rdy s i = true ∧ (tileOps s (cx s i).g).all (fun p => !isTflg p.2 && tileClash p.2 [1] []) = true ∧ (tileOps s (cx s i).g).length = 1 ∧
     Room s (cx s i) .tile 0) ∧
    (let s := behind (.tzero (tdesc 0 2 8 64)) [2]
     rdy s i = true ∧ (tileOps s (cx s i).g).all (fun p => !tileClash p.2 [1] []) = true) ∧
    rdy full i = true ∧ ¬Room full (cx full i) .tile 0 ∧ tileOps full (cx full i).g = [] := by decide +kernel

/-- A launch that leases the page from 0x10000 for reading and writing, which maps onto itself, with x1 set to its first 4,096 bytes. -/
def leased (s : State) : State :=
  onG (fun g => { g with xregs := [(1, ⟨true, 0x10000, 4096, 4096⟩)] })
    (onL (fun l => { l with ranges := [⟨0x10000, 65536, 3, 0, 0, 0⟩], leaves := [⟨0x10000, 65536, 0x10000, true, true, false, 0, false, 0⟩] }) s)

/-- TranslationRegisters: the whole page, one byte beyond it, no length. -/
theorem witness_translation :
    let f : CX := { xr := 1, sa := 3, sb := 5, sd := 6 }
    rdy (leased (withS [(3, 0x10000), (5, 65536)] (prog (.xset f)))) (.xset f) = true ∧ issued [.xinv { xr := 1 }] = true ∧
    rdy (handled (leased (prog (.xset f)))) (.xset f) = true ∧
    (let c := cx (leased (prog (.xset f))) (.nop {})
     findLeaf c.l.leaves 0x10000 = some ⟨0x10000, 65536, 0x10000, true, true, false, 0, false, 0⟩ ∧ findLeaf c.l.leaves 0x20000 = none) ∧
    (let s := withS [(3, 0x10000), (5, 1)] (prog (.xset f))
     rdy s (.xset f) = true ∧ (cx s (.nop {})).l.ranges = [] ∧ (cx s (.nop {})).l.status = .running) := by decide +kernel

/-- TranslationRegisters: every byte of the page lies in the lease's range. -/
theorem witness_leased_page : ∀ b, 0x10000 ≤ b → b < 0x10000 + 65536 →
    ∃ r ∈ (cx (leased (prog (.nop {}))) (.nop {})).l.ranges, r.base.toNat ≤ b ∧ b < r.base.toNat + r.len := by
  intro b h1 h2
  have h : (cx (leased (prog (.nop {}))) (.nop {})).l.ranges = [⟨0x10000, 65536, 3, 0, 0, 0⟩] := by decide +kernel
  rw [h]
  exact ⟨_, List.mem_singleton.2 rfl, h1, h2⟩

/-- CopiesIssue: each direction and form with operands at their bounds; an invalid translation register and a length of 0. -/
theorem witness_copies_issue :
    (∀ m, m < 3 → let i : Instr := .cpy { xr := 1, md := BitVec.ofNat 8 m, sa := 3, sb := 4, sc := 5 }
      rdy (leased (withS [(5, 4096)] (prog i))) i = true ∧
      (let j : Instr := .cpy { xr := 1, md := BitVec.ofNat 8 (m + 4), sa := 3, sb := 4, sc := 5, va := 448 }
       rdy (leased (withS [(5, 0x100001)] (prog j))) j = true) ∧
      let k : Instr := .cpyx { xr := 1, md := BitVec.ofNat 8 (m + 8), sa := 3, sb := 4 }
      rdy (leased (prog k)) k = true) ∧
    (let i : Instr := .cpy { xr := 1, sa := 3, sb := 4, sc := 5 }
     rdy (handled (leased (prog i))) i = true ∧ rdy (handled (prog i)) i = true ∧ Handled (cx (handled (prog i)) i) ∧
     (xreg (cx (prog i) i).g 1).valid = false ∧ (xreg (cx (leased (prog i)) i).g 1).valid = true ∧ Room (leased (prog i)) (cx (leased (prog i)) i) .ld 2) ∧
    (∀ m, m < 2 → let i : Instr := .cpyf { xr := 1, md := BitVec.ofNat 8 m, sa := 3, sb := 4, sc := 5 }
      rdy (leased (withS [(5, 4096)] (prog i))) i = true) := by decide +kernel

/-- FarAndGraphOperationsIssue: every instruction, a misaligned offset, a node number out of range, and sixteen graphs running. -/
theorem witness_far_issue :
    (∀ i ∈ [Instr.fat { xr := 1, va := 448, vb := 4, vd := 2 }, .fred { xr := 1, va := 448, vb := 4 }, .skget { xr := 1, va := 448, sa := 3, sb := 5 },
      .skput { xr := 1, va := 448, vb := 4 }, .skrec { xr := 1, va := 448 }, .gsig { xr := 1, sa := 3, sb := 5 }],
      rdy (onK (fun k => { k with scratch := 8192 }) (leased (prog i))) i = true) ∧
    (let g : CX := { xr := 1, sa := 3, sb := 5, sc := 6 }
     rdy (leased (withS [(5, 65535)] (prog (.grun g)))) (.grun g) = true ∧
     rdy (inDet (leased (withS [(5, 65535)] (prog (.grun g))))) (.grun g) = true ∧
     (let s := { leased (withS [(5, 65535)] (prog (.grun g))) with
        ops := (List.range 16).map (fun n => (n, opOf (some .st) (.grun ⟨true, 0x10000, 4096, 4096⟩ 0 1 0))) }
      rdy s (.grun g) = true ∧ (s.ops.filter (fun p => p.2.core == 0 && runsGraph p.2 && !p.2.performed)).length = 16)) ∧
    rdy (handled (leased (withS [(3, 4)] (prog (.skget { xr := 1, va := 448, sa := 3, sb := 5 }))))) (.skget { xr := 1, va := 448, sa := 3, sb := 5 }) = true ∧
    rdy (handled (leased (withS [(5, 65535)] (prog (.gsig { xr := 1, sa := 3, sb := 5 }))))) (.gsig { xr := 1, sa := 3, sb := 5 }) = true := by
  decide +kernel

/-- RemoteOperationsIssue: a store of 256 bytes within one line, a signal, a misaligned one, a step table, and sixteen tables. -/
theorem witness_remote_issue :
    let r : QX := { scope := 6, sa := 3, sb := 4, sc := 5, imm := 256 }
    let g : QX := { scope := 6, sa := 3, sb := 4, sc := 5 }
    let u : QX := { xr := 1, scope := 6, sa := 3, sb := 4, sc := 5 }
    (let s := leased (withS [(4, 0x10000)] (prog (.rst r)))
     rdy s (.rst r) = true ∧ CollRoom s (cx s (.nop {})) r 1 ∧ s.info.pkgnum = 0) ∧
    rdy (inDet (leased (withS [(4, 0x10000)] (prog (.rst r))))) (.rst r) = true ∧ rdy (leased (prog (.rsig g))) (.rsig g) = true ∧
    rdy (handled (leased (withS [(4, 4)] (prog (.rsig g))))) (.rsig g) = true ∧
    (let s := leased (withS [(4, 65535)] (prog (.crun u)))
     rdy s (.crun u) = true ∧ tablesHeld s 0 = 0 ∧ rdy (inDet s) (.crun u) = true) ∧
    (let s := { leased (withS [(4, 65535)] (prog (.crun u))) with
      ops := (List.range 16).map (fun n => (n, opOf (some .coll) (.crun ⟨true, 0x10000, 4096, 4096⟩ 0 1 0))) }
     rdy s (.crun u) = true ∧ tablesHeld s 0 = 16) := by decide +kernel

/-- CollectiveAndRemoteWaits: the barrier of a launch with one group, and of one with two; at POD scope; a word that has reached its threshold, one
that has not with no limit and with its time over, an invalid register and a misaligned offset; PTIME. -/
theorem witness_remote_waits :
    let b : QX := { scope := 5, imm := 15 }
    let p : QX := { scope := 6, sb := 3, sc := 4 }
    let f : QX := { xr := 1, sa := 3, sb := 4, sd := 5 }
    (let s := leased (prog (.cbar b))
     rdy s (.cbar b) = true ∧ CollRoom s (cx s (.nop {})) b 0 ∧ (getCBar (cx s (.nop {})).l 15).waiting = [] ∧
     (s.groups.filter (fun q => q.2.launch == 0 && q.2.task.isNone && (tget s.wgs (gWg q.2)).isSome)).length = 1) ∧
    (let s := prog (.cbar b)
     rdy { s with groups := s.groups ++ (s.groups.map (fun q => (1, { q.2 with gidx := 1 }))) } (.cbar b) = true) ∧
    rdy (inDet (prog (.cbar b))) (.cbar b) = true ∧ rdy (withS [(3, 1)] (prog (.cbar p))) (.cbar p) = true ∧
    (let s := leased (prog (.rwait f))
     let c := cx s (.nop {})
     rdy s (.rwait f) = true ∧ firstBad s (.window c.l (xreg c.g 1)) 0x10000 8 false = none ∧
     spacePa s (.window c.l (xreg c.g 1)) 0x10000 false = some (0x10000, false) ∧ poisonIn s.mpoison 0x10000 8 = false ∧ memNat s 0x10000 8 = 0) ∧
    rdy (leased (withS [(4, 1)] (prog (.rwait f)))) (.rwait f) = true ∧
    (let l : QX := { f with imm := 1 }
     rdy { leased (onG (fun g => { g with since := some 0 }) (withS [(4, 1)] (prog (.rwait l)))) with pt := 4000 } (.rwait l) = true ∧
       Config.ticksPerUs = 4000) ∧
    (let s := { onL (fun l => { l with leaves := l.leaves.map (fun e => { e with type := 3 }) }) (leased (prog (.rwait f))) with
       ops := [(7, opOf (some .coll) (.crun ⟨true, 0x10000, 4096, 4096⟩ 0 1 0))], opNo := 8 }
     rdy s (.rwait f) = true ∧ rdy (inDet s) (.rwait f) = true ∧ memType s 0 0x10000 = 3 ∧
     spacePa s (.window (cx s (.nop {})).l (xreg (cx s (.nop {})).g 1)) 0x10000 false = some (0x10000, false)) ∧
    rdy (handled (prog (.rwait f))) (.rwait f) = true ∧ rdy (handled (leased (withS [(3, 4)] (prog (.rwait f))))) (.rwait f) = true ∧
    issued [.ptime {}] = true ∧ rdy (inDet (prog (.ptime {}))) (.ptime {}) = true := by decide +kernel

/-- Hart 0 with two registers set. -/
def hart (a b : DWord) (s : State) : State := { s with harts := [(0, { Hart.init with regs := [(11, a), (12, b)] })], cur := some (.hart 0) }

/-- SubmitAnswers: a queue that is not in SUBMIT mode, a number out of range, a stale index, an index taken. -/
theorem witness_submit :
    let s := memPut (queued 3 0 0 0 State.reset) (0x4000 + 3 * 128 + 12) 4 1
    let d := qDesc (lookQueue s 3) 3
    (hart 3 4 s).cur = some (.hart 0) ∧ d.active = true ∧ d.submit = true ∧ d.asid = 0 ∧ d.logsize = 2 ∧ (getQ (lookQueue s 3) 3).rdidx = 0 ∧
    (qDesc (memPut (queued 1 0 0 0 State.reset) (0x4000 + 3 * 128 + 12) 4 1) 3).submit = false ∧ mget 0 (getHart (hart 1024 5 s) 0).regs 11 = 1024 := by
  decide +kernel

/-- A status record at its bounds for CopiesIssue and FarAndGraphOperationsIssue (IssuesCopy): sound, misaligned, beyond the end; no room. -/
theorem witness_records :
    let i : Instr := .cpy { xr := 1, md2 := 1, sa := 3, sb := 4, sc := 5, sd := 6 }
    (let s := leased (withS [(5, 16), (6, 4080)] (prog i))
     rdy s i = true ∧ RecordFits (cx s i) 4080 ∧ Room s (cx s i) .ld 2) ∧
    ¬RecordFits (cx (prog i) i) 4096 ∧ ¬RecordFits (cx (prog i) i) 8 ∧ rdy (handled (leased (withS [(5, 16), (6, 4096)] (prog i)))) i = true ∧
    rdy (handled (leased (withS [(5, 16), (6, 8)] (prog i)))) i = true ∧
    (let s := onG (fun g => { g with ld := (List.range Config.counterMax).map (fun (n : Nat) => ⟨n, false, none⟩) }) (leased (withS [(5, 16)] (prog i)))
     rdy s i = true ∧ ¬Room s (cx s i) .ld 2) := by decide +kernel

/-! ## What the statements suppose, met: events of groups and operations -/

/-- A launch with one workgroup of one group, with nobody issuing. -/
def ev : State := { prog (.nop {}) with cur := none }

/-- The group, workgroup and launch of a state of the tests. -/
def g0 (s : State) : Group := (cx { s with cur := some (.group 0) } (.nop {})).g
def w0 (s : State) : Workgroup := (cx { s with cur := some (.group 0) } (.nop {})).w
def l0 (s : State) : Launch := (cx { s with cur := some (.group 0) } (.nop {})).l

/-- Whether group 0 is resident. -/
def res0 (s : State) : Bool := decide (Resident s 0 (g0 s) (w0 s) (l0 s))

/-- GroupEvents: a logged access, a ready group, groups parked for a word of scratchpad and of memory; a partition that has picked no group in this
clock, its only group, and two. -/
theorem witness_group_events :
    (let s := handled (onG (fun g => { g with log := ⟨[⟨4, .sld {}⟩], 0, 0, 0, 0⟩ }) ev)
     res0 s = true ∧ (g0 s).handler = false ∧ (g0 s).log.entries = [⟨4, .sld {}⟩] ∧ (g0 s).status ≠ .frozen ∧ s.cur ≠ some (.group 0) ∧
     (l0 s).kern.handler ≠ 0) ∧
    ev.cur = none ∧ readyGroups ev 0 0 ≠ [] ∧ (getCore ev 0).picked = [] ∧
    (∀ picked ∈ [[(0, 0)], [(0, 64), (0, 0)]], let s := { ev with cores := [(0, ⟨0, [], 0, 0, 0, picked⟩)] }
      s.cur = none ∧ (readyGroups s 0 0).all (fun p => (getCore s 0).picked.contains (0, p.1)) = true ∧
      (2 ≤ ((getCore s 0).picked.filter (fun x => x.1 == 0)).length ↔ picked.length = 2)) ∧
    (tget (onG (fun g => { g with status := .parked .waitw }) ev).groups 0).map (fun g => g.status) = some (.parked .waitw) ∧
    (tget (onG (fun g => { g with status := .parked .rwait }) ev).groups 0).map (fun g => g.status) = some (.parked .rwait) := by decide +kernel

/-- HeartbeatTicks: a group of a logical launch, and a frame of depth 1 that a tick promotes into a spare slot. -/
theorem witness_heartbeat :
    (let s := onK (fun k => { k with logical := true }) ev
     res0 s = true ∧ (l0 s).kern.logical = true ∧ (g0 s).status ≠ .frozen) ∧
    (let s := onW (fun w => { w with scratch := [(518, 1)], slots := [0, 1], spareBase := [(0, 0)] })
      (onK (fun k => { k with codesize := 4096, maxdepth := 1, spare := 1 }) (stack true ev))
     res0 s = true ∧ (g0 s).detBuf = [] ∧ (promote s 0 512).isSome = true) := by decide +kernel

/-- An operation of the tests may be performed, of its group, with a resident workgroup, on pages that are neither DEV nor SO. -/
def may (s : State) (ctr : Ctr) (act : OpAct) : Bool :=
  decide (tget s.ops 7 = some (opOf (some ctr) act)) && mayPerform s 7 (opOf (some ctr) act) &&
    decide (opAt s (opOf (some ctr) act) = some (0, g0 s)) && decide (tget s.wgs (gWg (g0 s)) = some (w0 s)) &&
    decide ((w0 s).status = .resident) && decide (tget s.launches 0 = some (l0 s)) && !onDev s (opOf (some ctr) act)

/-- What `may` says. -/
theorem performs_of_may (s : State) (ctr : Ctr) (act : OpAct) (h : may s ctr act = true) :
    Performs s 7 (opOf (some ctr) act) 0 (g0 s) (w0 s) (l0 s) ctr := by
  simp only [may, Bool.and_eq_true, decide_eq_true_eq] at h
  obtain ⟨⟨⟨⟨⟨⟨h1, h2⟩, h3⟩, h4⟩, h5⟩, h6⟩, h7⟩ := h
  exact ⟨h1, h2, h3, h4, h5, h6, by simpa using h7, rfl, rfl, by simp [opOf], rfl, rfl, rfl, rfl⟩

/-- Translation register 1 of the tests. -/
def x1 : XReg := ⟨true, 0x10000, 4096, 4096⟩

/-- CopyOperationsComplete: a copy in and out of two rows, an indexed one, a fill, a far atomic performed at its cell, and a task's end. -/
theorem witness_copies_complete :
    (let act : OpAct := .cpy .inn x1 4080 0 8 2 8 8
     let s := flying (some .ld) act (leased ev)
     may s .ld act = true ∧ ∀ r : Nat, r < 2 → ∀ j : Nat, j < 8 → xPa (l0 s) x1 ((r : Int) * 8 + j) false = some (0x10000 + 8 * r + j, false)) ∧
    (let act : OpAct := .cpy .out x1 4080 4080 8 2 8 8
     let s := flying (some .st) act (leased ev)
     may s .st act = true ∧ ∀ r : Nat, r < 2 → ∀ j : Nat, j < 8 → xPa (l0 s) x1 (4080 + (r : Int) * 8 + j) true = some (0x10FF0 + 8 * r + j, false)) ∧
    (let act : OpAct := .cpyx .inn x1 4 0 0 [(0, 1023), (127, 0)]
     let s := flying (some .ld) act (leased ev)
     may s .ld act = true ∧ ∀ j : Nat, j < 4 → xPa (l0 s) x1 (4092 + (j : Int)) false = some (0x10FFC + j, false)) ∧
    (let act : OpAct := .cpyf none 4080 0x0102030405060708 16
     may (flying (some .ld) act (leased ev)) .ld act = true) ∧
    (let act : OpAct := .far x1 0 true false 0 (some 2) [⟨0, 4088, 1, 0⟩]
     let s := withV 2 1 (withV 3 1 (flying (some .ld) act (leased ev)))
     may s .ld act = true ∧ (vreg (g0 s) 2).length = 128 ∧ (vreg (g0 s) 3).length = 128) ∧
    (let act : OpAct := .taskend ⟨0, 512, true⟩ (some 5)
     let s := flying none act (leased ev)
     mayPerform s 7 (opOf none act) = true ∧ tget s.ops 7 = some (opOf none act) ∧ (w0 s).status = .resident) := by decide +kernel

/-- FarAtomicsAtHome: a cell at the end of the page that is sound, one that is poisoned, a request sent 8 µs ago for the first time and for
the last. -/
theorem witness_far_home :
    let act : OpAct := .far x1 0 true false 0 (some 2) [⟨0, 4088, 1, 0⟩]
    let s := flying (some .ld) act (leased ev)
    let o := opOf (some .ld) act
    mayPerform s 7 o = true ∧ devAt s 0 (xVa x1 4088).toNat = false ∧ known s 7 4088 o = false ∧
    cellAt (l0 s) x1 4088 8 false true true = .ok 0x10FF8 ∧ reqFor s 7 4088 = none ∧ s.reqs = [] ∧
    poisonIn s.mpoison 0x10FF8 8 = false ∧ poisonIn [(0x10FF8 / 8, true)] 0x10FF8 8 = true ∧
    (let r : FarReq := ⟨0, 0, 0, 7, 4088, 0, 0, none⟩
     reqFor { s with reqs := [r] } 7 4088 = some r ∧ r.sent.toNat + 32000 * (r.resends + 1) ≤ (32000 : DWord).toNat ∧
     r.sent.toNat + 32000 * (8 + 1) ≤ (288000 : DWord).toNat) := by decide +kernel

/-- FarAtomicsAtHome: on a DEV page, a cell behind a lower one that is not performed yet, and the lower one. -/
theorem witness_far_on_dev :
    let act : OpAct := .far x1 0 true false 0 (some 2) [⟨0, 4080, 1, 0⟩, ⟨1, 4088, 1, 0⟩]
    let s := onL (fun l => { l with leaves := l.leaves.map (fun e => { e with type := 2 }) }) (flying (some .ld) act (leased ev))
    let o := opOf (some .ld) act
    tget s.ops 7 = some o ∧ mayPerform s 7 o = true ∧ devAt s 0 (xVa x1 4080).toNat = true ∧ devAt s 0 (xVa x1 4088).toNat = true ∧ o.cells = [] ∧
    known s 7 4080 o = false ∧ cellAt (l0 s) x1 4080 8 false true true = .ok 0x10FF0 ∧ s.reqs = [] := by decide +kernel

/-- The page of the tests as a sibling-keeping page with one cell of siblings. -/
def skPage (sibs : List Sibling) (s : State) : State :=
  { onL (fun l => { l with leaves := [⟨0x10000, 65536, 0x10000, true, true, false, 0, true, 0⟩] }) (leased s) with
    sk := [(0x10000 / 8, ⟨1, 4, 0, sibs⟩)] }

/-- SiblingCellsAtHome: a cell read, one with room and one with four siblings written, one reconciled. -/
theorem witness_siblings :
    let sib (v : DWord) (n : BitVec 24) : Sibling := ⟨v, 1, n, false⟩
    let four := [sib 1 1, sib 2 2, sib 3 3, sib 4 4]
    (let act : OpAct := .skget x1 0 [⟨3, 0, 0, none⟩]
     let s := flying (some .ld) act (skPage four ev)
     mayPerform s 7 (opOf (some .ld) act) = true ∧ cellAt (l0 s) x1 0 8 true true false = .ok 0x10000 ∧ (readCell s (0x10000 / 8)).sibs = four ∧
     (opScratch s (opOf (some .ld) act)).isSome = true) ∧
    (∀ sibs ∈ [[], four], let act : OpAct := .skput x1 [⟨3, 0, 9, none⟩]
     let s := flying (some .st) act (skPage sibs ev)
     mayPerform s 7 (opOf (some .st) act) = true ∧ known s 7 3 (opOf (some .st) act) = false ∧
     cellAt (l0 s) x1 0 8 true false true = .ok 0x10000 ∧ (readCell s (0x10000 / 8)).ctr ≠ BitVec.allOnes 24) ∧
    (let act : OpAct := .skrec x1 1 true [⟨3, 0, 0, none⟩]
     let s := flying (some .st) act (skPage four ev)
     mayPerform s 7 (opOf (some .st) act) = true ∧ known s 7 0 (opOf (some .st) act) = false ∧ cellAt (l0 s) x1 0 8 true false true = .ok 0x10000) := by
  decide +kernel

/-! ## What the statements suppose, met: graphs, step tables, remote packets -/

/-- A graph of a launch of the tests at its window's base, of two nodes, about to begin node 0 or with node 0 under way. -/
def graphOf (running : Bool) (node : List Byte) : GraphRun :=
  { owner := .op 7, launch := some 0, asid := 0, core := 0, x := x1, base := 0x10000, nodes := 2, scope := 0, start := 0, limit := 1, begun := true,
    ready := if running then [] else [0], running := if running then [(0, NodeRun.fresh node true)] else [], doneCount := 0, seen := 0, cause := 0,
    addr := 0, node := 0, closed := false, late := false }

/-- A signal node that adds 5 to the word at 0x10200, and a launch node with its packet at 0x10200 for queue 3. -/
def signalNode : List Byte := [3, 0, 0, 0] ++ List.replicate 20 0 ++ bytesOf 8 0x10200 ++ bytesOf 8 5 ++ List.replicate 24 0
def launchNode : List Byte := [2, 0, 0, 0] ++ List.replicate 20 0 ++ bytesOf 8 0x10200 ++ bytesOf 8 3 ++ List.replicate 24 0

/-- GraphEvents: a node of kind NONE starts; it and a signal node finish; a decrement at 1 and at 0; a packet that the queue takes; a time
limit reached, with a node running and with none. -/
theorem witness_graphs :
    (let s := { leased ev with graphs := [(9, graphOf false [])] }
     graphHalted s (graphOf false []) = false ∧ graphSpaces s (graphOf false []) = some (.window (l0 s) x1, .lease (l0 s)) ∧
     MapsTo s (.window (l0 s) x1) 0x10000 64 0x10000 ∧ poisonIn s.mpoison 0x10000 64 = false ∧ nodeSound (bytesAt s 0x10000 64) 2 = true ∧
     memByte s 0x10000 = 0) ∧
    (let gr := graphOf true signalNode
     let s := { leased ev with graphs := [(9, gr)] }
     graphHalted s gr = false ∧ gr.doneCount + 1 ≠ gr.nodes ∧ nSucc signalNode = [] ∧ nKind signalNode = 3 ∧ fld signalNode 24 8 = 0x10200 ∧
     MapsTo s (.lease (l0 s)) 0x10200 8 0x10200 ∧ poisonIn s.mpoison 0x10200 8 = false) ∧
    MapsTo (leased ev) (.window (l0 (leased ev)) x1) 0x10044 4 0x10044 ∧
    (let s := memPut { leased ev with graphs := [(9, graphOf false [])] } 0x10044 4 1
     memNat s 0x10044 4 = 1 ∧ spacePa s (.window (l0 s) x1) 0x10004 false = some (0x10004, false) ∧
     spacePa s (.window (l0 s) x1) 0x10044 false = some (0x10044, false) ∧
     (tget (releaseNode s (.window (l0 s) x1) 0x10000 1).1.graphs 9).map (fun g => g.ready) = some [0, 1]) ∧
    (let gr := graphOf true launchNode
     let s := memPut (memPut (queued 1 0 0 0 (mapped { leased ev with graphs := [(9, gr)] })) (0x4000 + 3 * 128 + 12) 4 1) 0x10200 8 1
     nKind launchNode = 2 ∧ fld launchNode 32 2 = 3 ∧
     (match spRead s (.lease (l0 s)) 0x10200 64 with
      | .ok (ds, _) => ds.all (fun d => !d.2) && decide (ds.head? = some (1, false)) && decide ((appendLaunch s 3 0 (ds.map (fun d => d.1))).2 = 0)
      | .error _ => false) = true) ∧
    (graphOf true []).start.toNat + (graphOf true []).limit * 4000 ≤ (4000 : DWord).toNat ∧ (graphOf true []).closed = false := by decide +kernel

/-- GraphEvents: a queue's graph on a package that has stopped and on one that has not, and a launch's. -/
theorem witness_stopped_graphs :
    let gr : GraphRun := { graphOf false [] with launch := none }
    let s : State := { leased ev with graphs := [(9, gr)], fe := { ev.fe with stopped := true } }
    tget s.graphs 9 = some gr ∧ graphStopped s gr = true ∧ graphStopped ev gr = false ∧ graphStopped s (graphOf false []) = false := by decide +kernel

/-- GraphEvents: the window of the nodes is no address space. -/
theorem witness_graph_space (l : Launch) : ∀ a, Space.window l x1 ≠ .asid a := by intro a h; cases h

/-- A step table of the tests at its window's base, of two entries, the first under way. -/
def tableOf (entry : List Byte) : TableRun :=
  { owner := .op 7, launch := some 0, asid := 0, die := 0, x := some x1, base := 0x10000, count := 2, cur := 0, started := true, entry := entry,
    sound := true, sentBytes := 0, waiting := [], complete := false, stepSeen := 0, sentIn := 0, seen := 0,
    cause := 0, addr := 0, scope := 0, start := 0, limit := 1 }

/-- A step of a kind with its words SRC, DST and N or its threshold. -/
def stepEntry (kind src dst n : Nat) : List Byte := [BitVec.ofNat 8 kind] ++ List.replicate 7 0 ++ bytesOf 8 src ++ bytesOf 8 dst ++ bytesOf 8 n ++ List.replicate 32 0

/-- StepTableEvents: the table runs. -/
theorem witness_step_runs (kind : Nat) (e : List Byte) (s : State) (h : s = { leased ev with tables := [(9, tableOf e)] }) (hk : fld e 0 1 = kind) :
    StepRuns s 9 (tableOf e) (.window (l0 (leased ev)) x1) (.lease (l0 (leased ev))) kind := by
  subst h
  exact ⟨rfl, by rfl, by rfl, by rfl, rfl, hk, rfl, by rfl, fun lid l h1 h2 => by cases h1; cases h2; rfl⟩

/-- StepTableEvents: a PUT of 300 bytes, a SIG, a WAIT for 0 and for 1, a step that is complete with a successor, a time limit reached. -/
theorem witness_steps :
    (∀ k, k < 4 → fld (stepEntry k 0x10000 0x10000 0) 0 1 = k) ∧
    (let s := { leased ev with tables := [(9, tableOf (stepEntry 1 0x10000 0x10080 300))] }
     fld (stepEntry 1 0x10000 0x10080 300) 24 8 = 300 ∧ fld (stepEntry 1 0x10000 0x10080 300) 16 8 = 0x10080 ∧
     (match spRead s (.lease (l0 s)) 0x10000 128 with | .ok (_, seen) => !seen.testBit 4 | .error _ => false) = true ∧
     fld (stepEntry 1 0x10000 0x10080 300) 2 2 = s.info.pkgnum.toNat) ∧
    (let s := leased ev
     (match spRead s (.lease (l0 s)) 0x10000 8 with
      | .ok (ds, _) => ds.all (fun d => !d.2) && ofBytes (ds.map (fun d => d.1)) == 0
      | .error _ => false) = true ∧
     MapsTo s (.window (l0 s) x1) 0x10000 64 0x10000) ∧
    (tableOf []).start.toNat + (tableOf []).limit * 4000 ≤ (4000 : DWord).toNat := by decide +kernel

/-- A packet of the tests' package: an addition to the word at 0x10200, ordered or not. -/
def packetOf (ordered : Bool) (stamp : BitVec 48) : RemotePacket :=
  { src := 0, dest := 0, ordered := ordered, domain := 0, stamp := stamp, reqId := 5, job := 0, ocpm := false, addr := 0x10200, rel := false,
    scope := 6, acks := [], act := .add 1 }

/-- An operation of the tests that waits for that packet. -/
def sent (p : RemotePacket) (resends : Nat) (s : State) : State :=
  { flying (some .coll) (.remote p 0 0) s with
    coll := { s.coll with unacked := [(5, ⟨p, some 7, none, 0, resends, false, 0⟩)], active := [] } }

/-- CollectiveOperationsComplete: a barrier that is over, a packet with its reply in the cache, one sent 8 µs ago for the first and the last time. -/
theorem witness_collectives :
    (let o := { opOf (some .coll) (.cbar false 0 0 0) with performed := true }
     let s := { flying (some .coll) (.cbar false 0 0 0) ev with ops := [(7, o)] }
     awaited s 7 = none ∧ opAt s o = some (0, g0 s) ∧ statusOf o.seen = 0) ∧
    (let s := sent (packetOf false 0) 0 ev
     let c := { s with coll := { s.coll with replies := [(16, 0, 5, .ok)] } }
     awaited c 7 = some (5, ⟨packetOf false 0, some 7, none, 0, 0, false, 0⟩) ∧
     localReply c ⟨packetOf false 0, some 7, none, 0, 0, false, 0⟩ = some .ok) ∧
    (let s := sent (packetOf false 0) 8 ev
     s.coll.unacked.find? (fun p => (p.2.op == some 7 || p.2.table == some 7) && p.2.p.reqId.toNat == 5) =
       some (5, ⟨packetOf false 0, some 7, none, 0, 8, false, 0⟩) ∧ 32000 * (8 + 1) ≤ (288000 : DWord).toNat) := by decide +kernel

/-- RemotePacketsDelivered: a watermark to send, an arrival in time and one too late, a packet whose stamp is reached, an unordered one. -/
theorem witness_packets :
    (let s := { ev with pt := 1000 }
     dieW s 3 0 = some 999 ∧ cached s (packetOf true 5) = false ∧ (getPoint s 0).waiting = [] ∧ stampReached s 0 5 = true ∧
     stampReached s 0 1000 = false ∧ s.coll.excluded = []) ∧
    (let s := { ev with pt := 1000, coll := { ev.coll with points := [(0, ⟨[], [packetOf true 5], 0, 0, 0, false⟩)] } }
     packetOf true 5 ∈ (getPoint s 0).waiting ∧ stampReached s 0 5 = true ∧ mayDeliver s (packetOf true 5) = true ∧
     sentDet s (packetOf true 5) = false) ∧
    (let s := sent (packetOf false 0) 0 ev
     cached s (packetOf false 0) = false ∧ (tget s.coll.unacked 5).isSome = true ∧ (packetOf false 0).src / 4 = s.info.pkgnum.toNat) := by
  decide +kernel

/-- PodEvents: a point that has not advanced for the stall time, an active port, an arrival at a root and the last one, a release that waits. -/
theorem witness_pod :
    (let s := { ev with pt := 400000, coll := { ev.coll with active := [2], points := [(0, ⟨[(2, 7)], [packetOf true 5000], 7, 0, 0, false⟩)] } }
     let d := getPoint s 0
     lowest d.waiting = some (packetOf true 5000) ∧ laggard (pointInputs s 0) = some (2, some 7) ∧ pointW s 0 = some d.lastW ∧
     stampReached s 0 5000 = false ∧ d.advanced.toNat + s.coll.stallTicks ≤ s.pt.toNat ∧ 2 ∈ s.coll.active) ∧
    (getPodBar ev 4 0).arrivals = [] ∧
    (let s := onL (fun l => { l with job := 4, cbars := [⟨true, 0, 0, [], [7], 0, 0, true⟩] }) ev
     (jobLaunch s 4).isSome = true ∧ (getCBar (l0 s) 0).waiting = [7] ∧ (l0 s).cbars = [getCBar (l0 s) 0] ∧
       (jobLaunch (inDet s) 4).isSome = true ∧ (l0 (inDet s)).kern.det = true ∧ (l0 (inDet s)).status = .running) := by decide +kernel

/-! ## Reading through the tests' address space -/

/-- The leaf of the tests' address space. -/
def bigLeaf : Leaf := ⟨0, 2 ^ 30, 0, true, true, true, 0, false, 0⟩

/-- The words of the tests' page tables. -/
def Big (s : State) : Prop :=
  s.info.asidtab = 0x2000 ∧ memNat s 0x2000 8 = 0x100001 ∧ memNat s 0x100000 8 = 0x200001 ∧ memNat s 0x101000 8 = 0 ∧
    memNat s 0x200000 8 = 0x300001 ∧ memNat s 0x201000 8 = 0 ∧ memNat s 0x300000 8 = 31 ∧ memNat s 0x301000 8 = 0

/-- Whether they are those. -/
def big (s : State) : Bool :=
  s.info.asidtab == 0x2000 && memNat s 0x2000 8 == 0x100001 && memNat s 0x100000 8 == 0x200001 && memNat s 0x101000 8 == 0 &&
    memNat s 0x200000 8 == 0x300001 && memNat s 0x201000 8 == 0 && memNat s 0x300000 8 == 31 && memNat s 0x301000 8 == 0

theorem Big_of_big (s : State) (h : big s = true) : Big s := by
  simpa [big, Big, and_assoc] using h

/-- Every address below 2^30 is mapped onto itself. -/
theorem walk_of_Big (s : State) (h : Big s) (va : Nat) (hv : va < 2 ^ 30) : walk s 0 va = some bigLeaf := by
  obtain ⟨h0, v0, v1, b1, v2, b2, v3, b3⟩ := h
  have i4 : va / 281474976710656 % 512 = 0 := by omega
  have i3 : va / 549755813888 % 512 = 0 := by omega
  have i2 : va / 1073741824 % 512 = 0 := by omega
  have j2 : va / 1073741824 = 0 := by omega
  have c : canonical57 va = true := by simp [canonical57]; omega
  have e4 : entrySound 4 0x200001 0 = true := by decide
  have e3 : entrySound 3 0x300001 0 = true := by decide
  have e2 : entrySound 2 31 0 = true := by decide
  have t4 : Nat.testBit 0x200001 1 = false := by decide
  have t3 : Nat.testBit 0x300001 1 = false := by decide
  have t2 : Nat.testBit 31 1 = true := by decide
  have q : Nat.testBit 0x100001 0 = true := by decide
  have w0 : memNat s (s.info.asidtab.toNat + 8 * 0) 8 = 0x100001 := by rw [h0]; exact v0
  have l4 : walkFrom s va 5 0x100000 = walkFrom s va 4 0x200000 := by
    rw [walkFrom]; norm_num [levelShift, levelEntries, i4, v1, b1, e4, t4]
  have l3 : walkFrom s va 4 0x200000 = walkFrom s va 3 0x300000 := by
    rw [walkFrom]; norm_num [levelShift, levelEntries, i3, v2, b2, e3, t3]
  have l2 : walkFrom s va 3 0x300000 = some bigLeaf := by
    rw [walkFrom]; norm_num [levelShift, levelEntries, i2, j2, v3, b3, e2, t2, bigLeaf]
    decide
  rw [walk, w0]
  simp only [c, q, Bool.not_true, Bool.or_self]
  norm_num
  exact l4.trans (l3.trans l2)

/-- Where a byte lies. -/
theorem spacePa_of_Big (s : State) (h : Big s) (va : Nat) (w : Bool) (hv : va < 2 ^ 30) : spacePa s (.asid 0) va w = some (va, false) := by
  cases w <;> simp [spacePa, walk_of_Big s h va hv, bigLeaf, leafPa]

/-- Where a run of bytes lies. -/
theorem mapsTo_of_Big (s : State) (h : Big s) (va n : Nat) (hv : va + n ≤ 2 ^ 30) : MapsTo s (.asid 0) va n va := by
  intro i hi w
  rw [Nat.mod_eq_of_lt (by omega)]
  exact spacePa_of_Big s h (va + i) w (by omega)

/-- A read of a run without poison. -/
theorem spRead_of_Big (s : State) (h : Big s) (hp : s.mpoison = []) (va n : Nat) (hn : 0 < n) (hv : va + n ≤ 2 ^ 30) :
    spRead s (.asid 0) va n = .ok ((memBytes s va n).map (fun b => (b, false)), seenOK) := by
  have hs : ∀ i w, i < n → spacePa s (.asid 0) ((va + i) % 2 ^ 64) w = some (va + i, false) :=
    fun i w hi => mapsTo_of_Big s h va n hv i hi w
  have hb : firstBad s (.asid 0) va n false = none := by
    simp only [firstBad, Option.map_eq_none_iff, List.find?_eq_none, List.mem_range]
    intro j hj
    rw [hs j false hj]
    simp
  have hr : ∀ k, homeRead s false k 1 = ([(memByte s k, false)], seenOK) := by
    intro k
    simp [homeRead, hp, mget, tget, List.range_succ]
    rfl
  have key : ∀ m a, a + m ≤ va + n → va ≤ a → (List.range' (a - va) m).foldr
      (fun j r => match spacePa s (.asid 0) ((va + j) % 2 ^ 64) false with
        | some (pa, sk) => let h := homeRead s sk pa 1; (h.1 ++ r.1, h.2 ||| r.2)
        | none => r) ([], 0) = ((memBytes s a m).map (fun b => (b, false)), if m = 0 then 0 else seenOK) := by
    intro m
    induction m with
    | zero => intro a _ _; rfl
    | succ m ih =>
      intro a h1 h2
      have e : va + (a - va) = a := by omega
      have e1 : a - va + 1 = a + 1 - va := by omega
      rw [List.range'_succ, List.foldr_cons, e1, ih (a + 1) (by omega) (by omega)]
      have := hs (a - va) false (by omega)
      rw [e] at this ⊢
      rw [this]
      simp only [hr, memBytes, mgetRun, memByte]
      by_cases hm : m = 0 <;> simp [hm, seenOK]
  have := key n va (by omega) (by omega)
  rw [Nat.sub_self, ← List.range_eq_range', if_neg (by omega)] at this
  unfold spRead
  rw [hb]
  exact congrArg Except.ok this

/-- A read of the front end. -/
theorem feRead_of_Big (s : State) (h : Big s) (hp : s.mpoison = []) (va n : Nat) (hn : 0 < n) (hv : va + n ≤ 2 ^ 30) : feRead s 0 va n = .ok (memBytes s va n) := by
  unfold feRead
  rw [spRead_of_Big s h hp va n hn hv]
  dsimp only
  split
  · rename_i j hj
    have := List.find?_some hj
    revert this
    simp only [List.getElem?_map]
    cases (memBytes s va n)[j]? <;> simp
  · simp [Function.comp_def]

/-- The packet of a queue of address space 0 is what memory holds at its slot. -/
theorem packetAt_of_Big (s : State) (q va : Nat) (h : Big s) (hp : s.mpoison = []) (ha : (qDesc s q).asid = 0)
    (hv : (qDesc s q).rbase + 64 * ((getQ s q).rdidx.toNat % 2 ^ (qDesc s q).logsize) = va) (hl : va + 64 ≤ 2 ^ 30) :
    packetAt s q = .ok (memBytes s va 64) := by
  unfold packetAt
  dsimp only
  rw [if_neg (by simp [hp, poisonIn]), ha, hv, spRead_of_Big s h hp va 64 (by norm_num) hl]
  dsimp only
  split
  · rename_i j hj
    have := List.find?_some hj
    revert this
    simp only [List.getElem?_map]
    cases (memBytes s va 64)[j]? <;> simp
  · simp [Function.comp_def]

/-! ## What the statements suppose, met: queues and packets -/

/-- Queue 3 of the tests, active, with its first packet `p` at 0x10000 and worker 0 on it, kept as `x`. -/
def serving (p : List Byte) (x : Queue) : State :=
  let s := memWrite (memPut (queued 1 0 0 1 (mapped State.reset)) (0x4000 + 3 * 128 + 12) 4 1) 0x10000 p
  { s with fe := { s.fe with queues := [(3, x)], workers := [(0, 3)] } }

/-- What the front end keeps of a queue with one packet. -/
def q1 : Queue := { Queue.init with known := true, qstate := 1, wridx := 1 }

/-- Whether worker 0 serves queue 3 with that packet, of a type, and memory holds the tests' page tables. -/
def quick (s : State) (p : List Byte) (kind : Nat) : Bool :=
  decide (servedQueue s 0 = some 3) && decide ((getQ s 3).packet = none) && big s && s.mpoison.isEmpty && (qDesc s 3).asid == 0 &&
    (qDesc s 3).rbase + 64 * ((getQ s 3).rdidx.toNat % 2 ^ (qDesc s 3).logsize) == 0x10000 && decide (memBytes s 0x10000 64 = p) &&
    fld p 0 1 == kind && decide (badField p = none)

theorem Serves_of_quick (s : State) (p : List Byte) (kind : Nat) (h : quick s p kind = true) :
    Serves s 0 3 p kind ∧ Big s ∧ s.mpoison = [] := by
  simp only [quick, Bool.and_eq_true, decide_eq_true_eq, beq_iff_eq, List.isEmpty_iff] at h
  obtain ⟨⟨⟨⟨⟨⟨⟨⟨h1, h0⟩, h2⟩, h3⟩, h4⟩, h5⟩, h6⟩, h7⟩, h8⟩ := h
  have hn : packetNow s 3 = packetAt s 3 := by rw [packetNow, h0]
  exact ⟨⟨h1, hn.trans ((packetAt_of_Big s 3 0x10000 (Big_of_big s h2) h3 h4 h5 (by norm_num)).trans (congrArg Except.ok h6)), h7, h8⟩,
    Big_of_big s h2, h3⟩

/-- A packet of a type, the byte that follows its two first, and four words of 8 bytes from offset 8. -/
def packet (kind b2 w1 w2 w3 w4 : Nat) : List Byte :=
  [BitVec.ofNat 8 kind, 0, BitVec.ofNat 8 b2, 0, 0, 0, 0, 0] ++ bytesOf 8 w1 ++ bytesOf 8 w2 ++ bytesOf 8 w3 ++ bytesOf 8 w4 ++ List.replicate 24 0

/-- QueueEvents: a doorbell write taken with the sequence number 1 and 32,767 ahead and one not taken at 0; a queue that is deactivated; the one
queue that a worker may take; a slice that is over. -/
theorem witness_queues :
    (let s := memPut (queued 1 0 0 0 State.reset) (0x4000 + 3 * 128 + 12) 4 1
     let x := getQ (lookQueue s 3) 3
     s.info.bootstate ≠ 2 ∧ (qDesc s 3).active = true ∧ (qDesc s 3).submit = false ∧ x.known = true ∧ x.lastseq = 0 ∧
     ((4 : Word) - x.rdidx).toNat ≤ 2 ^ (qDesc s 3).logsize ∧ ¬((5 : Word) - x.rdidx).toNat ≤ 2 ^ (qDesc s 3).logsize ∧
     (0x0003000100000004 : DWord).toNat / 2 ^ 48 = 3 ∧ feStopped s = false ∧ hostMay s 3 = true) ∧
    (let s := memPut (queued 0 0 0 0 State.reset) (0x4000 + 3 * 128 + 12) 4 1
     (qDesc s 3).active = false ∧ underWay (getQ (lookQueue s 3) 3) = false ∧ feStopped s = false ∧
     feStopped { s with fe := { s.fe with stopped := true } } = true ∧ feStopped { s with info := { s.info with bootstate := 2 } } = true) ∧
    (let s : State := { State.reset with fe := { State.reset.fe with queues := [(3, q1)] } }
     (getQ s 3).known = true ∧ (qDesc s 3).active = false ∧ (getQ s 3).qstate = 1 ∧ (getQ s 3).stepc = 0) ∧
    (let s : State := { serving [] q1 with fe := { (serving [] q1).fe with workers := [] } }
     takeable s 3 = true ∧ tget s.fe.workers 0 = none ∧ feStopped s = false ∧ s.fe.queues.map (fun p => p.1) = [3]) ∧
    (getQ (serving [] q1) 3).sliceFrom.toNat + (qDesc (serving [] q1) 3).slice * 4000 ≤ (4000 : DWord).toNat ∧
    tget (serving [] q1).fe.workers 0 = some 3 := by decide +kernel

/-- PacketsActOnMemory: one packet of each type, the shortest WRITE, units of a block at its start and its end, a reserved
type. -/
theorem witness_packets_act :
    quick (serving (packet 0 0 0 0 0 0) q1) (packet 0 0 0 0 0 0) 0 = true ∧
    (servedQueue (serving (packet 10 0 0 0 0 0) q1) 0 = some 3 ∧ 9 < fld (packet 10 0 0 0 0 0) 0 1) ∧
    quick (serving (packet 2 1 0x10200 1 0 0) q1) (packet 2 1 0x10200 1 0 0) 2 = true ∧
    badField (packet 2 48 0x10200 1 0 0) = none ∧ badField (packet 2 49 0x10200 1 0 0) = some 2 ∧
    quick (serving (packet 3 1 0x10200 5 0 0) q1) (packet 3 1 0x10200 5 0 0) 3 = true ∧
    quick (serving (packet 4 0 0x10200 0x10300 200 0x10400) q1) (packet 4 0 0x10200 0x10300 200 0x10400) 4 = true ∧
    quick (serving (packet 4 0 0x10200 0x10300 200 0x10400) { q1 with stepc := 1, bytec := 200 }) (packet 4 0 0x10200 0x10300 200 0x10400) 4 = true ∧
    unitLen (packet 4 0 0x10200 0x10300 200 0x10400) q1 = 128 ∧ unitLen (packet 9 0 0x10200 0x10300 200 0) { q1 with bytec := 128 } = 72 ∧
    quick (serving (packet 9 0 0x10200 0x10300 200 0) { q1 with bytec := 128 }) (packet 9 0 0x10200 0x10300 200 0) 9 = true ∧
    quick (serving (packet 6 0 0x10200 1 0 0) q1) (packet 6 0 0x10200 1 0 0) 6 = true ∧
    quick (serving (packet 7 0 0 0 0 0) q1) (packet 7 0 0 0 0 0) 7 = true := by decide +kernel

/-- PacketsActOnMemory: each of those is served, and the last unit of a block can be moved. -/
theorem witness_unit (p : List Byte) (x : Queue) (kind : Nat) (h : quick (serving p x) p kind = true) :
    Serves (serving p x) 0 3 p kind ∧ MapsTo (serving p x) (.asid 0) 0x10200 8 0x10200 ∧ MapsTo (serving p x) (.asid 0) 0x10380 72 0x10380 ∧
    spRead (serving p x) (.asid 0) 0x10280 72 = .ok ((memBytes (serving p x) 0x10280 72).map (fun b => (b, false)), seenOK) := by
  obtain ⟨hs, hb, hp⟩ := Serves_of_quick _ p kind h
  exact ⟨hs, mapsTo_of_Big _ hb _ _ (by norm_num), mapsTo_of_Big _ hb _ _ (by norm_num), spRead_of_Big _ hb hp _ _ (by norm_num) (by norm_num)⟩

/-- PacketsActOnMemory: the node array of a GRAPH packet that can be reached, and one whose first byte cannot. -/
theorem witness_graph_packets :
    (let p := packet 6 0 0x10200 1 0 0
     Serves (serving p q1) 0 3 p 6 ∧ badNodes (serving p q1) 0 (fld p 8 8) (fld p 16 2) = none ∧ (qDesc (serving p q1) 3).asid = 0) ∧
    (let p := packet 6 0 0x40000000 1 0 0
     Serves (serving p q1) 0 3 p 6 ∧ badNodes (serving p q1) 0 (fld p 8 8) (fld p 16 2) = some 0x40000000) := by
  obtain ⟨h1, hb, -⟩ := Serves_of_quick (serving (packet 6 0 0x10200 1 0 0) q1) (packet 6 0 0x10200 1 0 0) 6 (by decide +kernel)
  obtain ⟨h2, -, -⟩ := Serves_of_quick (serving (packet 6 0 0x40000000 1 0 0) q1) (packet 6 0 0x40000000 1 0 0) 6 (by decide +kernel)
  have reach : ∀ w, firstBad (serving (packet 6 0 0x10200 1 0 0) q1) (.asid 0) 0x10200 64 w = none := by
    intro w
    rw [firstBad, Option.map_eq_none_iff, List.find?_eq_none]
    intro j hj
    have hj := List.mem_range.1 hj
    rw [Nat.mod_eq_of_lt (by omega), spacePa_of_Big _ hb _ w (by omega)]
    simp
  have hf : fld (packet 6 0 0x10200 1 0 0) 8 8 = 0x10200 ∧ fld (packet 6 0 0x10200 1 0 0) 16 2 = 1 := by decide +kernel
  refine ⟨⟨h1, ?_, by decide +kernel⟩, h2, by decide +kernel⟩
  rw [badNodes, hf.1, hf.2, reach false, reach true]

/-- The smallest kernel descriptor: one group, one register, 128 bytes of scratchpad and one word of code at 0x10400. -/
def kernelBytes : List Byte :=
  bytesOf 2 1 ++ bytesOf 2 128 ++ bytesOf 4 0 ++ bytesOf 8 0x10400 ++ bytesOf 8 0 ++ bytesOf 4 0x00010001 ++ bytesOf 4 0 ++ bytesOf 4 256 ++ bytesOf 4 0 ++
    bytesOf 4 0 ++ bytesOf 4 128 ++ bytesOf 4 0 ++ bytesOf 4 4 ++ bytesOf 8 0 ++ bytesOf 4 1 ++ bytesOf 4 512 ++ bytesOf 4 0 ++ List.replicate 52 0

/-- That kernel. -/
def tinyKernel : Kernel :=
  { det := false, idemp := false, pinned := false, joinchk := false, entry := 0x10400, handler := 0, groups := 1, spare := 0, vregs := 1, barriers := 0,
    maxdepth := 0, logical := false, hbperiod := 256, quantum := 0, tilebytes := 0, scratch := 128, kargs := 0, codesize := 4, expected := 0 }

/-- A LAUNCH packet of that kernel for a grid of one workgroup, with nothing leased, and the state in which it is served. -/
def launchPacket : List Byte := packet 1 0 0x10200 0 0 0x0001000100000001
def launching : State := memWrite (serving launchPacket q1) 0x10200 kernelBytes

/-- PacketsLaunchAndWait: the launch's descriptor, ranges and argument block. -/
theorem witness_launch_packet :
    Serves launching 0 3 launchPacket 1 ∧ fld launchPacket 8 8 % 64 = 0 ∧ jobBusy launching 0 = false ∧ feRead launching 0 0x10200 128 = .ok kernelBytes ∧
    kernelOf kernelBytes = some tinyKernel ∧ readRanges launching 0 0 = .ok [] ∧ kargWalk launching 0 0 0 = .ok [] := by
  obtain ⟨hs, hb, hp⟩ := Serves_of_quick launching launchPacket 1 (by decide +kernel)
  refine ⟨hs, by decide +kernel, by decide +kernel, ?_, by decide +kernel, rfl, rfl⟩
  rw [feRead_of_Big launching hb hp 0x10200 128 (by norm_num) (by norm_num)]
  exact congrArg Except.ok (by decide +kernel)

/-- A number in memory is its bytes'. -/
theorem memNat_eq_of_bytes (m s : State) (a n : Nat) (h : ∀ i, i < n → memByte m (a + i) = memByte s (a + i)) : memNat m a n = memNat s a n := by
  have : ∀ (n a : Nat), (∀ i, i < n → memByte m (a + i) = memByte s (a + i)) → memBytes m a n = memBytes s a n := by
    intro n
    induction n with
    | zero => intro a _; rfl
    | succ n ih =>
      intro a h
      have h0 := h 0 (by omega)
      have h1 := ih (a + 1) (fun i hi => by have := h (i + 1) (by omega); rwa [Nat.add_comm i 1, ← Nat.add_assoc] at this)
      simp only [memBytes, mgetRun, memByte, Nat.add_zero] at *
      rw [h0, h1]
  rw [memNat, memNat, this n a h]

/-- The walks of a launch of one word of code grant, whatever stands in the queue's descriptor. -/
theorem walks_of_Big (s : State) (k : Kernel) (hb : Big s) (hq : s.info.qtbase.toNat = 0x4000) (hu : s.res.units = [])
    (he : k.entry = 0x10400) (hc : k.codesize = 4) (ha : k.handler = 0) : WalksGrant s 3 0 [] k [] [bigLeaf] := by
  intro m hm hi hr
  have hn : ∀ a, (a + 8 ≤ 0x4180 ∨ 0x4200 ≤ a) → memNat m a 8 = memNat s a 8 := by
    intro a ha
    apply memNat_eq_of_bytes
    intro i hi
    apply hm
    simp only [OutsideDesc, hq]
    omega
  obtain ⟨h0, v0, v1, b1, v2, b2, v3, b3⟩ := hb
  have hm : Big m := ⟨by rw [hi]; exact h0, (hn _ (by omega)).trans v0, (hn _ (by omega)).trans v1, (hn _ (by omega)).trans b1,
    (hn _ (by omega)).trans v2, (hn _ (by omega)).trans b2, (hn _ (by omega)).trans v3, (hn _ (by omega)).trans b3⟩
  have hw := walk_of_Big m hm 0x10400 (by norm_num)
  have hh : m.res.units = [] := by rw [hr]; exact hu
  refine ⟨rfl, ?_⟩
  have hp : rangePages m 0 0x10400 4 = [(0, some bigLeaf)] := by
    simp [rangePages, walkRange, hw, bigLeaf]
  simp [walkCode, walkPages, he, hc, ha, hp, bigLeaf, leafHeld, hh, Walked.both]

/-- PacketsLaunchAndWait: the walks of that launch. -/
theorem witness_walks : WalksGrant launching 3 0 [] tinyKernel [] [bigLeaf] :=
  walks_of_Big _ _ (Serves_of_quick launching launchPacket 1 (by decide +kernel)).2.1 (by decide +kernel) (by decide +kernel) rfl rfl rfl

/-- A LAUNCH packet of pod job 1 and of a DET kernel, while fifteen DET launches of other jobs are resident. -/
def jobPacket : List Byte := launchPacket.take 4 ++ bytesOf 4 1 ++ launchPacket.drop 8
def detKernelBytes : List Byte := kernelBytes.take 4 ++ bytesOf 4 1 ++ (kernelBytes.drop 8).take 22 ++ [1] ++ (kernelBytes.drop 31).take 5 ++ bytesOf 4 64 ++ kernelBytes.drop 40
def detKernel : Kernel := { tinyKernel with det := true, logical := true, quantum := 64 }
def crowdedJobs : State :=
  { memWrite (serving jobPacket q1) 0x10200 detKernelBytes with
    launches := (List.range 15).map (fun n => (n + 2, { bareLaunch detKernel [] with job := BitVec.ofNat 32 (n + 2), domain := n + 1 })) }

/-- PacketsLaunchAndWait: the packet of a sixteenth DET pod job. -/
theorem witness_job_packet :
    Serves crowdedJobs 0 3 jobPacket 1 ∧ fld jobPacket 8 8 % 64 = 0 ∧ jobBusy crowdedJobs 1 = false ∧
    feRead crowdedJobs 0 0x10200 128 = .ok detKernelBytes ∧ kernelOf detKernelBytes = some detKernel ∧ readRanges crowdedJobs 0 0 = .ok [] ∧
    kargWalk crowdedJobs 0 0 0 = .ok [] ∧ WalksGrant crowdedJobs 3 0 [] detKernel [] [bigLeaf] ∧ fld jobPacket 4 4 = 1 ∧
    ((tput crowdedJobs.launches (crowdedJobs.fe.nextLaunch + 1).toNat (bareLaunch detKernel [])).filter
      (fun e => e.2.status != .ended && e.2.domain != 0)).length = 15 ∧
    awaitsDomain crowdedJobs { bareLaunch detKernel [] with job := 1 } = true ∧ awaitsDomain launching { bareLaunch detKernel [] with job := 1 } = false := by
  obtain ⟨hs, hb, hp⟩ := Serves_of_quick crowdedJobs jobPacket 1 (by decide +kernel)
  refine ⟨hs, by decide +kernel, by decide +kernel, ?_, by decide +kernel, rfl, rfl,
    walks_of_Big _ _ hb (by decide +kernel) (by decide +kernel) rfl rfl rfl, by decide +kernel, by decide +kernel, by decide +kernel, by decide +kernel⟩
  rw [feRead_of_Big crowdedJobs hb hp 0x10200 128 (by norm_num) (by norm_num)]
  exact congrArg Except.ok (by decide +kernel)

/-- A state in which queue 3 is being granted launch 4. -/
def granted : State := { launching with
  fe := { launching.fe with queues := [(3, { q1 with qstate := 2, granting := some 4 })] },
  launches := [(4, { bareLaunch tinyKernel [] with q := 3, status := .granting })] }

/-- PacketsLaunchAndWait: a wait whose condition holds, one whose does not with no limit and with its time over; a lease taken and dropped; a delayed
launch. -/
theorem witness_packets_wait :
    quick (serving (packet 5 0 0x10200 1 0 0) q1) (packet 5 0 0x10200 1 0 0) 5 = true ∧
    quick (serving (packet 5 2 0x10200 0 1 0) q1) (packet 5 2 0x10200 0 1 0) 5 = true ∧
    memBytes (serving (packet 5 0 0x10200 1 0 0) q1) 0x10200 8 = List.replicate 8 0 ∧
    fld (packet 5 2 0x10200 0 1 0) 24 4 = 1 ∧ 0 + 1 * 4000 ≤ (4000 : DWord).toNat ∧
    quick (serving (packet 8 0 0 7 0 0) q1) (packet 8 0 0 7 0 0) 8 = true ∧
    quick (serving (packet 8 1 0 7 0 0) { q1 with leases := [(7, [])] }) (packet 8 1 0 7 0 0) 8 = true ∧
    (getQ granted 3).qstate = 2 ∧ noteWaits granted 3 = false ∧ (getQ granted 3).granting = some 4 := by decide +kernel

/-- PacketsLaunchAndWait: an empty range list grants, and so does the code of that kernel. -/
theorem witness_granted : (∀ s : State, readRanges s 0 0 = .ok [] ∧ walkRanges s 0 [] = .grant []) ∧ walkCode granted 0 tinyKernel = .grant [bigLeaf] := by
  have hb : Big granted := Big_of_big granted (by decide +kernel)
  have hw := walk_of_Big granted hb 0x10400 (by norm_num)
  have hh : granted.res.units = [] := rfl
  have hp : rangePages granted 0 0x10400 4 = [(0, some bigLeaf)] := by
    simp [rangePages, walkRange, hw, bigLeaf]
  exact ⟨fun s => ⟨rfl, rfl⟩, by simp [walkCode, walkPages, tinyKernel, hp, bigLeaf, leafHeld, hh, Walked.both]⟩

/-! ## What the statements suppose, met: the dispatcher, pre-emption and deterministic launches -/

/-- A workgroup of launch 0 as it stands after a save. -/
def savedWg : Workgroup :=
  { wgStart 0 0 0 0 0 0 0 0 [] [] 0 0 with status := .saved, spareHeld := false, saved := [(0, groupStart 0 0 0 0 0 0 0 0x10400)] }

/-- WorkgroupsPlacedAndResumed: the next workgroup of a grid of two, and one that is saved. -/
theorem witness_placing :
    (let s := onL (fun l => { l with gx := 2 }) ev
     (nextPlaced s).map (fun p => (p.1.lid, p.1.idx, p.1.saved)) = some (0, 1, false)) ∧
    (let s : State := { ev with wgs := [(wgKey 0 0, savedWg)], groups := [] }
     (nextPlaced s).map (fun p => (p.1.lid, p.1.idx, p.1.saved, p.2.fit.map (fun f => f.slots.length))) = some (0, 0, true, some 1) ∧ savedWg.saved.map (fun p => p.1) = [0]) ∧
    (let s : State := memPut { ev with wgs := [(wgKey 0 0, { savedWg with recAt := some 0x20000, recSize := 4096 })], groups := [] } 0x20010 8 1
     (nextPlaced s).map (fun p => (p.1.lid, p.1.idx, p.1.saved)) = some (0, 0, true) ∧
     (List.range (probeKernel.groups + probeKernel.spare)).filter (fun i => (memNat s 0x20010 8).testBit i) = [0]) := by
  decide +kernel

/-- A package every core of which is taken by a workgroup of launch 0, of PRIO 1 and with the whole scratchpad, while launch 1 of PRIO 0 waits. -/
def crowded (k : Kernel) : State :=
  { State.reset with
    launches := [(0, { bareLaunch { k with scratch := 1048576 } [] with prio := 1 }), (1, { bareLaunch tinyKernel [] with nextWg := 0 })],
    wgs := (List.range Config.cores).map (fun n => (wgKey 0 n, wgStart 0 n 0 0 0 n n 0 [0] [] 0 0)) }

/-- A DET launch whose logical cores 0 and 1 share package core 0, which the workgroup of the one has filled and used for its quantum, while that of the
other is saved. -/
def rotating : State :=
  let k := { tinyKernel with det := true, logical := true, quantum := 64, scratch := 1048576 }
  let g (wg : Nat) (ended : Bool) : Group := { groupStart 0 wg 0 wg 0 0 0 0x10400 with detEnded := ended }
  { State.reset with
    launches := [(0, { bareLaunch k [] with gx := 2, nextWg := 2 })],
    wgs := [(wgKey 0 0, wgStart 0 0 0 0 0 0 0 0 [0] [] 0 0),
            (wgKey 0 1, { wgStart 0 1 1 0 0 0 1 0 [] [] 0 0 with status := .saved, spareHeld := false, saved := [(0, g 1 false)] })],
    groups := [(0, g 0 true)], fe := { State.reset.fe with poolSize := 2 ^ 24, remap := [(0, 0), (1, 0)] } }

/-- Preemption: room in the pool and none, and a DET workgroup whose turn of the quantum is over. -/
theorem witness_rotation :
    (let s := { crowded tinyKernel with fe := { State.reset.fe with poolSize := 2 ^ 24 } }
     (wgKern s (wgStart 0 0 0 0 0 0 0 0 [0] [] 0 0)).any (fun k => poolFree s (wgKey 0 0) 0 (recordSize s (wgKey 0 0) k)) = true) ∧
    (crowded tinyKernel).fe.poolSize = 0 ∧
    ((waiting rotating).find? (fun x => x.lid == 0 && x.idx == 1)).any (fun c => decide (candFit rotating c = none) && !inHand rotating c && c.saved &&
      (match tget rotating.launches 0 with
       | some l => !mustWait rotating c l && decide (chooseVictims rotating c l = some (0, [wgKey 0 0]))
       | none => false)) = true ∧
    (match tget rotating.wgs (wgKey 0 0), tget rotating.wgs (wgKey 0 1) with
     | some w, some v => v.lcore != w.lcore && remapCore rotating v.lcore == remapCore rotating w.lcore && !wgOver rotating (wgKey 0 1) v &&
         wgOver rotating (wgKey 0 0) w
     | _, _ => false) = true := by decide +kernel

/-- Preemption: a waiting workgroup that fits nowhere, with one victim; a workgroup at a save point; a drain that has lasted four times its budget; a
core on which nothing has retired for 65,536 clocks. -/
theorem witness_preemption :
    (let s := crowded tinyKernel
     ((waiting s).find? (fun x => x.lid == 1 && x.idx == 0)).any (fun c => decide (candFit s c = none) && !inHand s c &&
       (match tget s.launches 1 with
        | some l => decide (chooseVictims s c l = some (0, [wgKey 0 0]))
        | none => false)) = true ∧ feStopped s = false) ∧
    (let s := onW (fun w => { w with status := .saving }) ev
     atSavePoint s 0 0 = true ∧ (w0 s).exported = false ∧ s.fe.poolBase ≤ 0 ∧ (w0 s).launch = 0 ∧ (w0 s).idx = 0) ∧
    atSavePoint (onW (fun w => { w with status := .flushing }) ev) 0 0 = true ∧
    (0 : DWord).toNat + 4 * ev.fe.drainBudget * 4000 ≤ (800000 : DWord).toNat ∧ (wgKern ev (w0 ev)).isSome = true ∧
    (let s : State := { onL (fun l => { l with gx := 2 }) ev with cores := [(0, ⟨65536, [], 0, 0, 0, []⟩)], fe := { ev.fe with poolSize := 2 ^ 24 } }
     coreIdle s 0 = true ∧
     ((progressVictims s 0).findSome? (fun p => (waitingFor s 0 p.1).map (fun c => (p.1, c)))).map (fun p => p.1) = some (wgKey 0 0)) := by decide +kernel

/-- LaunchesCommitAndEnd: a group that has retired its quantum, one that has parked, a commit that is due with stores buffered, a launch that is over with
a signal to add to. -/
theorem witness_commits :
    (let s := inDet ev
     res0 s = true ∧ (l0 s).kern.quantum ≤ (g0 s).detCount) ∧
    isParked (g0 (onG (fun g => { g with status := .parked .join }) (inDet ev))) = true ∧
    (let s := inDet (onG (fun g => { g with detEnded := true, detBuf := [(8, [(1, false)])] }) ev)
     commitReady s 0 (l0 s) = true ∧ s.groups.length = 1 ∧ s.ops = [] ∧ (getPoint s (l0 s).domain).waiting = [] ∧ (g0 s).status = .run) ∧
    (let s : State := { onW (fun w => { w with status := .ended }) (onL (fun l => { l with sigva := 0x10200 }) (mapped ev)) with groups := [] }
     (match tget s.launches 0 with
      | some l => launchOver s 0 l && decide (l.sigva = 0x10200)
      | none => false) = true ∧ MapsTo s (.asid 0) 0x10200 8 0x10200) ∧
    (l0 ev).status = .running := by decide +kernel

/-- A DET launch of one group that has parked at an instruction until the commit, with scratchpad bytes as given. -/
def parkedAt (b : List (Nat × Byte)) (i : Instr) : State :=
  onG (fun g => { g with status := .parked .commit }) (inDet (onW (fun w => { w with scratch := b }) { prog i with cur := none }))

/-- The group as it runs at the commit. -/
def atCommit0 (b : List (Nat × Byte)) (i : Instr) : State := atCommitOf (parkedAt b i) 0 0 (g0 (parkedAt b i))

/-- Whether the commit finds it. -/
def parkedAlone (b : List (Nat × Byte)) (i : Instr) : Bool :=
  let s := parkedAt b i
  let g := g0 s
  let l := l0 s
  decide (tget s.launches 0 = some l) && commitReady s 0 l && decide (s.groups = [(0, g)]) && g.launch == 0 && decide (g.status = .parked .commit) &&
    s.ops.isEmpty && s.tables.isEmpty && (getPoint s l.domain).waiting.isEmpty && l.left.isEmpty &&
    l.carried.isEmpty && l.cbars.isEmpty && g.detBuf.isEmpty && g.detOps.isEmpty && g.late.isEmpty && g.tile.isEmpty && g.candidates.isEmpty &&
    g.log.entries.isEmpty && decide (g.sp.fsp = g.sp.fbase) && s.wgs.all (fun e => decide (e.2.status ≠ .saved)) &&
    (match groupFetch (atCommitOf s 0 0 g) 0 with | .run j => decide (j = i) | _ => false) &&
    decide (groupCtx (atCommitOf s 0 0 g) 0 i = some (cx { atCommitOf s 0 0 g with cur := some (.group 0) } i))

theorem ParkedAlone_of (b : List (Nat × Byte)) (i : Instr) (h : parkedAlone b i = true) :
    ParkedAlone (parkedAt b i) 0 0 i (cx { atCommit0 b i with cur := some (.group 0) } i) (g0 (parkedAt b i)) (l0 (parkedAt b i)) := by
  simp only [parkedAlone, Bool.and_eq_true, decide_eq_true_eq, beq_iff_eq, List.isEmpty_iff, List.all_eq_true] at h
  obtain ⟨⟨⟨⟨⟨⟨⟨⟨⟨⟨⟨⟨⟨⟨⟨⟨⟨⟨⟨⟨h1, h2⟩, h3⟩, h4⟩, h5⟩, h8⟩, h9⟩, h10⟩, h11⟩, h12⟩, h13⟩, h14⟩, h15⟩, h16⟩, h17⟩, h18⟩, h19⟩, h20⟩, h21⟩,
    h22⟩, h23⟩ := h
  refine ⟨h1, h2, h3, h4, h5, ⟨h8, h9, h10, h11, h12, h13⟩, ⟨h14, h15, h16, h17, h18, h19, h20⟩, fun e he _ => h21 e he, ?_, h23⟩
  split at h22
  · rename_i j hj; rw [hj, of_decide_eq_true h22]
  · cases h22

/-- LaunchesCommitAndEnd: parked at each instruction that the commit performs; a barrier word that the arrival completes and one that it does not;
the accesses of each sound. -/
theorem witness_parked_at_commits :
    parkedAlone [] (.slda { md := 3 }) = true ∧ parkedAlone [] (.vatom {}) = true ∧ parkedAlone [(0, 1)] (.launch { sd := 1, sa := 2, sb := 3 }) = true ∧
    (∀ b ∈ [[(16, 1)], [(16, 2)]], ∀ i ∈ [Instr.bara { sd := 1, md2 := 1, imm := 16 }, .baraw { sd := 1, md2 := 1, imm := 16 }], parkedAlone b i = true ∧
      (let s := atCommit0 b i
       let c := cx { s with cur := some (.group 0) } i
       c.g.barw = none ∧ checkAcc s c false true true [⟨0, 16, 8⟩] = none ∧ numAt (padOf c.w) 16 8 = (b.map (fun p => p.2.toNat)).headD 0)) ∧
    (let s := atCommit0 [(0, 1)] (.launch { sd := 1, sa := 2, sb := 3 })
     let c := cx { s with cur := some (.group 0) } (.nop {})
     checkAcc s c false true true [⟨0, 0, 8⟩] = none ∧ checkAcc s c true true true ((List.range 128).map (fun (l : Nat) => ⟨l, 0, 4⟩)) = none ∧
     checkAcc s c false true false ((List.range 8).map (fun (j : Nat) => ⟨0, 8 * (j : Int), 8⟩)) = none ∧
     ((scratchRead s c.g 0 64).map (fun b => b.1)).headD 0 = 1 ∧ (sval c.g none 2).toNat ≤ 1023) := by decide +kernel

/-! ## What the statements suppose, met: residency and the I/O die -/

/-- The notification ring's header at 0x6000: 4 entries at 0x7000, enabled. -/
def notified (s : State) : State :=
  memPut (memPut (memPut { s with info := { s.info with nqhdr := 0x6000 } } 0x6000 8 0x7000) 0x6008 1 2) 0x6009 1 1

/-- ResidencyEvents: a window that is over, of a class at its bound. -/
theorem witness_residency :
    let s := notified (onL (fun l => { l with ranges := [⟨0x10000, 65536, 3, 2, 0, 0⟩] }) ev)
    let t : State := { s with res := { s.res with full := [(0, 0, 2)] } }
    notifyOn t = true ∧ ringFull t t.info.nqhdr.toNat = false ∧ (l0 t).queued = [] ∧ (l0 t).status ≠ .ended ∧ t.res.kept = [] ∧
      (0, 0, 2) ∈ t.res.full ∧ 7 * 2 ^ 20 < 8 * 2 ^ 20 ∧ 4 * 0 < 2 ^ 20 ∧ t.info.bootstate ≠ 2 := by
  decide +kernel

/-- A unit of one page of 2 MiB that is to move to die 0, everything the tests place lying from an address on. -/
def migrating (b : Nat) : State :=
  { memPut (memPut (memPut (memPut (memPut State.reset (b + 0x2000) 8 (b + 0x100001)) (b + 0x100000) 8 (b + 0x200001)) (b + 0x200000) 8 (b + 0x300001))
      (b + 0x300000) 8 (b + 0x380001)) (b + 0x380008) 8 (b + 0x40001F) with
    info := { Info.init with asidtab := BitVec.ofNat 64 (b + 0x2000), nqhdr := BitVec.ofNat 64 (b + 0x6000) },
    res := { State.reset.res with units := [⟨0, 0x200000, 0, false, 0, false, false⟩] } }

/-- The leaf of that page. -/
def movedLeaf (b : Nat) : Leaf := ⟨0x200000, 0x200000, b + 0x400000, true, true, true, 0, false, 0⟩

/-- What the statement asks of the unit, its page and its tables, wherever the frame lies. -/
def unitMoves (b : Nat) : Bool :=
  let s := migrating b
  decide (unitLeaves s 0 0x200000 = [movedLeaf b]) && !unitPinned s [movedLeaf b] && !unitPoisoned s [movedLeaf b] && !notifyOn s && !feStopped s &&
    decide (pteAddr s 0 0x200000 = b + 0x380008) && decide (s.info.nqhdr.toNat = b + 0x6000)

/-- Some block of 2 MiB is HBM of die 0 (log 7). -/
theorem run_inHbm (a : Nat) (h : a = Config.hbmBlock.val * 2097152) : ∀ n, n ≤ 2097152 → Config.inHbmRun 0 a n = true
  | 0, _ => rfl
  | n + 1, hn => by
    have hd : (a + n) / 2097152 = Config.hbmBlock.val := by omega
    simp [Config.inHbmRun, Config.inHbm, Config.ownerDie, Config.hostMemory, hd, run_inHbm a h n (by omega)]

/-- The block's number is small. -/
theorem exists_block : ∃ n, n = Config.hbmBlock.val ∧ n < 2147483648 := ⟨_, rfl, Config.hbmBlock.isLt⟩

/-- A frame that is free for a page that is not sibling-keeping. -/
theorem frameFree_of (s : State) (u : MigUnit) (f : Leaf) (frame : Nat) (hr : s.res.redirects = []) (ha : frame % unitBytes = 0)
    (hl : frame + unitBytes ≤ 2 ^ 52) (hi : Config.inHbmRun u.die frame unitBytes = true) (hs : f.sk = false)
    (ho : runsMeet (frame, unitBytes) (f.pa, f.size) = false) : frameFree s u [f] frame 0 = true := by
  simp only [frameFree, areaFree, unitAreas, List.flatMap_cons, List.flatMap_nil, List.any_cons, List.any_nil, hr, ha, hi, hs, ho,
    decide_eq_true hl, List.all_nil, List.all_cons, Bool.not_false, Bool.true_or, Bool.and_true, beq_self_eq_true, Bool.false_eq_true, if_false,
    List.append_nil, Bool.or_false]

/-- ResidencyEvents: a unit that no lease pins, and a free frame beside its page, its leaf and the header of the notification ring. -/
theorem witness_migration : ∃ b frame, unitMoves b = true ∧ frameFree (migrating b) ⟨0, 0x200000, 0, false, 0, false, false⟩ [movedLeaf b] frame 0 = true ∧ frame < 2 ^ 64 ∧
    (b + 0x800000 ≤ frame ∨ frame + 0x200000 ≤ b) := by
  obtain ⟨n, hn, hb⟩ := exists_block
  have free : ∀ b, b + 0x800000 ≤ n * 2097152 ∨ n * 2097152 + 0x200000 ≤ b →
      frameFree (migrating b) ⟨0, 0x200000, 0, false, 0, false, false⟩ [movedLeaf b] (n * 2097152) 0 = true := by
    intro b hf
    have hl : n * 2097152 + unitBytes ≤ 2 ^ 52 := by rw [show unitBytes = 2097152 from rfl]; omega
    exact frameFree_of _ _ _ _ rfl (by rw [show unitBytes = 2097152 from rfl]; exact Nat.mul_mod_left _ _) hl
      (run_inHbm (n * 2097152) (by rw [hn]) unitBytes (by decide)) rfl (by
        have hu : unitBytes = 2097152 := rfl
        have hm : (movedLeaf b).pa = b + 0x400000 ∧ (movedLeaf b).size = 0x200000 := ⟨rfl, rfl⟩
        simp only [runsMeet, hm.1, hm.2, hu, Bool.and_eq_false_iff, decide_eq_false_iff_not]
        omega)
  by_cases h : n ≤ 3
  · exact ⟨0x1000000, n * 2097152, by decide +kernel, free _ (by omega), by omega, by omega⟩
  · exact ⟨0, n * 2097152, by decide +kernel, free _ (by omega), by omega, by omega⟩

/-- HostAccesses: a function that may, and one that is frozen; a cell with three siblings. -/
theorem witness_host :
    hostMay ev 3 = true ∧ accessHeld ev (.write 8 (List.replicate 8 1)) = false ∧ ev.res.redirects = [] ∧
    (let s : State := { ev with sk := [(1, ⟨1, 4, 0, [⟨1, 1, 1, false⟩, ⟨2, 1, 2, false⟩, ⟨3, 1, 3, false⟩]⟩)] }
     (readCell s (8 / 8)).sibs.length = 3 ∧ (readCell s (8 / 8)).ctr ≠ BitVec.allOnes 24) ∧
    3 ∈ ({ ev with frozenFns := [3] } : State).frozenFns ∧ 3 ∉ ev.frozenFns := by decide +kernel

/-- An image that passes its checks or not, and a boot of three of them with the queue table at an address. -/
def image (ok : Bool) : BootImage := ⟨1, 2, List.replicate 64 3, ok, true⟩
def choice (ok : Bool) (qtbase : DWord) : BootChoice :=
  { lockstepImage := image true, workerImage := image ok, staithImage := image true, qtbase := qtbase, asidtab := 0x2000, nqhdr := 0, evhdr := 0,
    attreport := 0x8000, logaddr := 0x9000, porttab := 0xA000, poolBase := 0, poolSize := 0, pkgnum := 0, remap := [3], drainBudget := 50,
    stallUs := 100, fnPages := [], ports := [some 0x4000, none, some 5], clocks := [7, 0, 9] }

/-- BootAndTrust: a boot whose images pass, with a queue table in HBM of die 0 (log 7). -/
theorem witness_boot_choice : ∃ q, choiceOk (choice true q) = true := by
  obtain ⟨n, hn, hb⟩ := exists_block
  have h : (BitVec.ofNat 64 (n * 2097152)).toNat = n * 2097152 := by rw [BitVec.toNat_ofNat, Nat.mod_eq_of_lt (by omega)]
  have hm : n * 2097152 % qtBytes = 0 := by
    rw [show qtBytes = 131072 from rfl, Nat.mul_mod]
    norm_num
  have hi := run_inHbm (n * 2097152) (by rw [hn]) qtBytes (by decide)
  refine ⟨BitVec.ofNat 64 (n * 2097152), ?_⟩
  simp only [choiceOk, choice, h, hi, hm]
  rfl

/-- BootAndTrust: its images pass and its tables lie apart; a boot one image of which fails; a nonce of 32 bytes. -/
theorem witness_boot :
    (let c := choice true 0
     (∀ i ∈ bootImages c, i.digestOk = true ∧ i.signatureOk = true) ∧ c.logaddr.toNat + (bootLog c).length ≤ c.porttab.toNat) ∧
    (∃ i ∈ bootImages (choice false 0), i.digestOk = false ∨ i.signatureOk = false) ∧
    ({ Info.init with bootstate := 1, attctl := 1, attnonce := List.replicate 32 7 }).attnonce.length = 32 ∧ (l0 ev).status ≠ .ended := by decide +kernel

/-- PowerLinksAndErrors: limits at their bounds, temperatures at theirs, a port, a word without siblings, a scratchpad offset, a resident group. -/
theorem witness_power :
    (500 ≤ (500 : BitVec 32).toNat ∧ (2000 : BitVec 32).toNat ≤ 2000 ∧ ¬500 ≤ (499 : BitVec 32).toNat) ∧
    (800 < (801 : BitVec 16).toNat ∧ (800 : BitVec 16).toNat ≤ 800 ∧ 880 < (881 : BitVec 16).toNat) ∧ (0 : DWord).toNat.testBit 14 = false ∧
    tget ev.sk 5 = none ∧ 4095 < (l0 ev).kern.scratch ∧ res0 ev = true ∧ ev.evHeld = [] ∧ ev.info.bootstate ≠ 2 ∧
    (let s : State := { memPut (queued 1 0 0 0 State.reset) (0x4000 + 3 * 128 + 12) 4 1 with fe := { State.reset.fe with queues := [(3, q1)] } }
     s.info.bootstate = 1 ∧ (qDesc s 3).active = true ∧ (getQ s 3).known = true ∧ (getQ s 3).qstate ≠ 3 ∧
     s.info.qtbase.toNat + 128 * 3 ≤ 0x41FF ∧ 0x41FF < s.info.qtbase.toNat + 128 * 3 + 128 ∧ tget s.sk (0x41FF / 8) = none) := by decide +kernel

/-- PowerLinksAndErrors: no active queue's descriptor lies at an address. -/
theorem witness_no_descriptor (q : Nat) (h : ev.info.qtbase.toNat + 128 * q ≤ 40) : (qDesc ev q).active = false := by
  have h0 : ev.info.qtbase.toNat = 0 := by decide +kernel
  obtain rfl : q = 0 := by omega
  decide +kernel

/-! ## What the statements suppose, met: encoding, fetching, the operand log -/

/-- DecodeOfEncode, EncodeOfDecode: a well-formed word with a literal, and words that decode. -/
theorem witness_encoding : (Instr.vadd { ty := 2, vd := 2, va := 511, vb := 4, lit := some 9 }).wellFormed 384 = true ∧
    decode 384 [0x02003050, 0] = .ok (.sadd { sd := 3, sa := 5 }) := by decide +kernel

/-- StepRunsTheDecodedInstruction: a group about to issue, one whose word is ILLEGAL, one whose operand is not sound, one whose code ends; a hart at a
SUBMIT; an event at the head of the agenda. -/
theorem witness_steps_decode :
    (let s := prog (.sadd { sd := 3, sa := 5 })
     let c := cx s (.nop {})
     groupCtx s 0 (.nop {}) = some c ∧ c.g.status = .run ∧ c.l.status = .running ∧ fetchWords s c.l c.g.pc.toNat = .ok [0x02003050] ∧
     decode c.l.kern.vregs [0x02003050] = .ok (.sadd { sd := 3, sa := 5 })) ∧
    (let s := handled (placeProgram State.reset [0x0D000000])
     fetchWords s (l0 s) (g0 s).pc.toNat = .ok [0x0D000000] ∧ decode 384 [0x0D000000] = .error (.illegal 0x000000010D000000)) ∧
    (let s := handled (placeProgram State.reset [0x020A0050])
     fetchWords s (l0 s) (g0 s).pc.toNat = .ok [0x020A0050] ∧ decode 384 [0x020A0050] = .error (.operand 0x0000000C020A0050)) ∧
    (let s := handled (onG (fun g => { g with pc := 0x1000000014 }) (prog (.nop {})))
     fetchWords s (l0 s) (g0 s).pc.toNat = .error 0x1000000014 ∧ (g0 s).log.entries = [] ∧ Handled (cx s (.nop {}))) ∧
    (let s := placeSubmit State.reset 0x00C5850B
     decodeSubmit (BitVec.ofNat 32 (memNat s (getHart s 0).pc.toNat 4)) = some { rd := 10, rs1 := 11, rs2 := 12 }) ∧
    encode .reconcilePass = [] := by decide +kernel

/-- A group of the tests with `n` logged loads of s7, `done` independent instructions retired behind them. -/
def logged (n done : Nat) (s : State) : State :=
  handled (onG (fun g => { g with log := ⟨List.replicate n ⟨4, .sld { sd := 7, sa := 8 }⟩, done, 0, 64, 0⟩ }) s)

/-- TheOperandLog: room for the fourth entry and for none, an instruction that is not independent, an independent one as the seventh and the eighth. -/
theorem witness_log :
    (∀ n ∈ [3, 4], Behind (logged n 0 (prog (.sst {}))) (.sst {}) (cx (logged n 0 (prog (.sst {}))) (.sst {}))) ∧ loggable (.sst {}) = true ∧
    Behind (logged 1 0 (prog (.smov { sa := 7 }))) (.smov { sa := 7 }) (cx (logged 1 0 (prog (.smov { sa := 7 }))) (.smov { sa := 7 })) ∧
    independentOf (cx (logged 1 0 (prog (.nop {}))) (.nop {})).g.log (.smov { sa := 7 }) = false ∧
    (∀ n ∈ [6, 7], Behind (logged 1 n (prog (.smov { sd := 1, sa := 2 }))) (.smov { sd := 1, sa := 2 })
      (cx (logged 1 n (prog (.smov { sd := 1, sa := 2 }))) (.smov { sd := 1, sa := 2 }))) ∧
    independentOf (cx (logged 1 0 (prog (.nop {}))) (.nop {})).g.log (.smov { sd := 1, sa := 2 }) = true ∧
    (∀ i ∈ [Instr.fpcset { sa := 3 }, .fpcget { sd := 1 }],
      let s := handled (onG (fun g => { g with log := ⟨[⟨4, .vld { va := 448, vd := 1 }⟩], 0, 0, 64, 0⟩ }) (prog i))
      Behind s i (cx s i) ∧ independentOf (cx s i).g.log i = true ∧ isVector (.vld { va := 448, vd := 1 }) = true) := by decide +kernel

/-- StepKeepsTheCanonicalForms: a state in form that steps. -/
theorem witness_canonical_forms : let s := prog (.sst {})
    memWf s.mem = true ∧ mapWf false s.mpoison = true ∧ tblWf s.sk = true ∧ isNext (step s) = true := by decide +kernel


end Sys2Proof.Tests
end

