-- ==== Sys2Proof/Proofs/Canonical.lean ====
section

/-! # Every step keeps the canonical forms (O59)

`InForm` says that memory, its poison marks and the sibling cells are in canonical form. Each function of
the model that gives a state keeps it: `inForm_f` for a function that always gives one, `gives_f` and
`givesOk_f` for one that may give none, `effInForm_f` for the effect of an instruction, `keeps_execI` for an
instruction or event. The accesses of `Home` are where the forms could break: everything else goes through
them or leaves the three tables alone. -/

namespace Sys2Proof.Machine

/-- Memory, its poison marks and the sibling cells are in canonical form. -/
def InForm (s : State) : Prop := memWf s.mem = true ∧ mapWf false s.mpoison = true ∧ tblWf s.sk = true

/-- The state that an effect names, if any, is in form. -/
def Eff.InForm : Eff → Prop
  | .next s _ | .goto s _ _ | .trapAt _ _ s _ | .park s _ _ | .gone s => Sys2Proof.Machine.InForm s
  | .trap _ | .tape _ | .stall | .recorded _ _ => True

/-- The next state of an outcome, if there is one, is in form. -/
def Keeps : Host.Outcome State Fault Refusal → Prop
  | .next s => InForm s
  | .fault _ | .refused _ => True

/-- What a computation may give has a property whenever it gives something. -/
def Gives {α : Type} (P : α → Prop) (o : Option α) : Prop := ∀ a, o = some a → P a

/-- What a computation may give has a property whenever it does not fail. -/
def GivesOk {ε α : Type} (P : α → Prop) (x : Except ε α) : Prop := ∀ a, x = .ok a → P a

theorem gives_none {α : Type} {P : α → Prop} : Gives P none := fun _ e => nomatch e
theorem gives_some {α : Type} {P : α → Prop} {a : α} (h : P a) : Gives P (some a) := fun _ e => Option.some.inj e ▸ h
theorem givesOk_error {ε α : Type} {P : α → Prop} {x : ε} : GivesOk P (.error x) := fun _ e => nomatch e
theorem givesOk_ok {ε α : Type} {P : α → Prop} {a : α} (h : P a) : GivesOk (ε := ε) P (.ok a) := fun _ e => Except.ok.inj e ▸ h
theorem gives_ite {α : Type} {P : α → Prop} {p : Prop} [Decidable p] {a b : Option α} (ha : Gives P a) (hb : Gives P b) :
    Gives P (if p then a else b) := by
  split <;> assumption
theorem givesOk_ite {ε α : Type} {P : α → Prop} {p : Prop} [Decidable p] {a b : Except ε α} (ha : GivesOk P a) (hb : GivesOk P b) :
    GivesOk P (if p then a else b) := by
  split <;> assumption
theorem keeps_next {s : State} (h : InForm s) : Keeps (.next s) := h
theorem effInForm_next {s : State} {g : Group} (h : InForm s) : (Eff.next s g).InForm := h
theorem effInForm_goto {s : State} {g : Group} {pc : DWord} (h : InForm s) : (Eff.goto s g pc).InForm := h
theorem effInForm_trapAt {m : Miss} {pc : DWord} {s : State} {g : Group} (h : InForm s) : (Eff.trapAt m pc s g).InForm := h
theorem effInForm_park {s : State} {g : Group} {p : Park} (h : InForm s) : (Eff.park s g p).InForm := h
theorem effInForm_gone {s : State} (h : InForm s) : (Eff.gone s).InForm := h
theorem inForm_ite {p : Prop} [Decidable p] {s t : State} (hs : InForm s) (ht : InForm t) : InForm (if p then s else t) := by
  split <;> assumption
theorem inForm_ite_fst {α : Type} {p : Prop} [Decidable p] {s t : State × α} (hs : InForm s.1) (ht : InForm t.1) :
    InForm (if p then s else t).1 := by
  split <;> assumption
theorem effInForm_ite {p : Prop} [Decidable p] {a b : Eff} (ha : a.InForm) (hb : b.InForm) : (if p then a else b).InForm := by
  split <;> assumption
theorem keeps_ite {p : Prop} [Decidable p] {a b : Host.Outcome State Fault Refusal} (ha : Keeps a) (hb : Keeps b) :
    Keeps (if p then a else b) := by
  split <;> assumption

/-- A fold keeps the forms when each of its steps does. -/
theorem inForm_foldl {α : Type} {f : State → α → State} {xs : List α} {s : State} (hf : ∀ s x, InForm s → InForm (f s x)) (h : InForm s) :
    InForm (xs.foldl f s) := by
  induction xs generalizing s with
  | nil => exact h
  | cons x xs ih => exact ih (hf s x h)

/-- A fold over a state and something beside it keeps the forms when each of its steps does. -/
theorem inForm_foldl_fst {α β : Type} {f : State × β → α → State × β} {xs : List α} {p : State × β} (hf : ∀ p x, InForm p.1 → InForm (f p x).1)
    (h : InForm p.1) : InForm (xs.foldl f p).1 := by
  induction xs generalizing p with
  | nil => exact h
  | cons x xs ih => exact ih (hf p x h)

/-- A fold over a state and two things beside it keeps the forms when each of its steps does. -/
theorem inForm_foldl_fst_fst {α β γ : Type} {f : (State × β) × γ → α → (State × β) × γ} {xs : List α} {p : (State × β) × γ}
    (hf : ∀ p x, InForm p.1.1 → InForm (f p x).1.1) (h : InForm p.1.1) : InForm (xs.foldl f p).1.1 := by
  induction xs generalizing p with
  | nil => exact h
  | cons x xs ih => exact ih (hf p x h)

theorem gives_map {α β : Type} {P : β → Prop} {o : Option α} {f : α → β} (hf : ∀ a, P (f a)) : Gives P (o.map f) := by
  cases o with
  | none => exact gives_none
  | some a => exact gives_some (hf a)

/-- The state of a pair that a computation has given. -/
theorem inForm_fst {α : Type} {p : State × α} {s : State} {a : α} (h : InForm p.1) (e : p = (s, a)) : InForm s := by
  rw [e] at h
  exact h

/-- The state of a pair that a computation comes to. -/
theorem inForm_pair {α : Type} {p : State × α} {s : State} {a : α} (h : InForm s) (e : p = (s, a)) : InForm p.1 := by
  rw [e]
  exact h

/-- The state that an effect goes on with. -/
theorem inForm_of_next {e : Eff} {s : State} {g : Group} (h : e.InForm) (he : e = .next s g) : InForm s := by
  rw [he] at h
  exact h

theorem inForm_getD {o : Option State} {s : State} (ho : Gives InForm o) (h : InForm s) : InForm (o.getD s) := by
  cases o with
  | none => exact h
  | some t => exact ho t rfl

theorem gives_bind {α β : Type} {P : β → Prop} {o : Option α} {f : α → Option β} (hf : ∀ a, Gives P (f a)) : Gives P (o.bind f) := by
  cases o with
  | none => exact gives_none
  | some a => exact hf a

/-! ## Memory's own operations -/

theorem mapWf_clearWhole {p : Marks} {a n : Nat} (h : mapWf false p = true) : mapWf false (clearWhole p a n) = true := mapWf_filter false p _ h

theorem inForm_memWrite {s : State} {pa : Nat} {bs : List Byte} (h : InForm s) : InForm (memWrite s pa bs) := by
  obtain ⟨hm, hp, hk⟩ := h
  exact ⟨memWrite_wf s pa bs hm, mapWf_clearWhole hp, hk⟩

/-- Marking a word keeps the forms. -/
theorem inForm_mark {s : State} {word : Nat} {b : Bool} (h : InForm s) : InForm { s with mpoison := markWord s.mpoison word b } := by
  obtain ⟨hm, hp, hk⟩ := h
  exact ⟨hm, mapWf_mset false _ _ _ hp, hk⟩

theorem inForm_putCell {s : State} {cell : Nat} {c : SkCell} (h : InForm s) : InForm (putCell s cell c) := by
  obtain ⟨hm, hp, hk⟩ := inForm_memWrite (pa := 8 * cell) (bs := bytesOf 8 (c.sibs.headD ⟨0, 0, 0, false⟩).v.toNat) h
  exact ⟨hm, mapWf_mset false _ _ _ hp, tblWf_tput _ _ _ hk⟩

/-- Forgetting cells keeps the forms. -/
theorem inForm_keptCells {s t : State} (h : InForm t) : InForm { t with sk := keptCells s t } := by
  obtain ⟨hm, hp, hk⟩ := h
  exact ⟨hm, hp, tblWf_filter _ _ hk⟩

/-! ### Memory -/

theorem inForm_memPut {s pa n v} (h : InForm s) : InForm (memPut s pa n v) :=
  inForm_memWrite h

/-! ### Plain accesses of memory and of sibling cells -/

theorem inForm_activated {s t : State} {a n : Nat} (h : InForm t) : InForm (activated s t a n) := by
  unfold activated
  dsimp only
  split
  · exact inForm_ite h h
  · exact h

theorem inForm_writePlain {s : State} {a : Nat} {c : List PByte} (h : InForm s) : InForm (writePlain s a c) := by
  have h0 : InForm { s with sk := tdel s.sk (a / 8) } := by
    obtain ⟨hm, hp, hk⟩ := h
    exact ⟨hm, hp, tblWf_tdel _ _ hk⟩
  have h1 := inForm_keptCells (s := s) (inForm_memWrite (pa := a) (bs := c.map (fun b => b.1)) h0)
  exact inForm_activated (inForm_ite (inForm_mark h1) h1)

theorem inForm_writeSk {s n x} (h : InForm s) : InForm (writeSk s n x).1 := by
  unfold writeSk
  split
  · exact h
  · split
    · exact h
    · exact inForm_putCell h

theorem inForm_homeWrite {s sk pa ds} (h : InForm s) : InForm (homeWrite s sk pa ds).1 :=
  inForm_foldl_fst (fun _ _ h => inForm_ite_fst (inForm_writeSk h) (inForm_writePlain h)) h

/-! ### The event ring, counted accesses, faults -/

theorem inForm_ringPut {s hdr entry} (h : InForm s) : InForm (ringPut s hdr entry) :=
  inForm_memPut (inForm_memWrite h)

theorem inForm_ringBump {s hdr off} (h : InForm s) : InForm (ringBump s hdr off) :=
  inForm_memPut h

theorem inForm_raiseEvent {s r} (h : InForm s) : InForm (raiseEvent s r) :=
  inForm_ite h (inForm_ite (inForm_ringPut h) (inForm_ite (inForm_memPut h) (inForm_ringBump h)))

theorem inForm_drainEvents {n : Nat} {s : State} (h : InForm s) : InForm (drainEvents n s) := by
  induction n generalizing s with
  | zero => exact h
  | succ n ih =>
    unfold drainEvents
    split
    · exact h
    · exact inForm_ite h (ih (inForm_memPut (inForm_ringPut h)))

theorem inForm_countLine {s lid die va} (h : InForm s) : InForm (countLine s lid die va) := by
  unfold countLine
  split
  · exact h
  · split
    · exact h
    · exact inForm_ite h h

theorem inForm_countLines {s lid die va n} (h : InForm s) : InForm (countLines s lid die va n) :=
  inForm_foldl (fun _ _ h => inForm_countLine h) h

theorem inForm_vaWrite {s lid asid va bs} (h : InForm s) : InForm (vaWrite s lid asid va bs) := by
  unfold vaWrite
  split
  · exact inForm_ite (inForm_countLines (inForm_homeWrite h)) h
  · exact h

theorem inForm_recordFault {s lid f} (h : InForm s) : InForm (recordFault s lid f) := by
  unfold recordFault
  split
  · exact h
  · exact inForm_ite (inForm_ite h (inForm_vaWrite h)) (inForm_ite h (inForm_vaWrite h))

theorem inForm_haltLaunch {s lid} (h : InForm s) : InForm (haltLaunch s lid) := by
  unfold haltLaunch
  split <;> exact h

theorem inForm_faultAndHalt {s lid f srckind arg0 arg1} (h : InForm s) : InForm (faultAndHalt s lid f srckind arg0 arg1) :=
  inForm_ite (inForm_raiseEvent (inForm_haltLaunch (inForm_recordFault h))) (inForm_haltLaunch (inForm_recordFault h))

/-! ### What a group's instructions share -/

theorem inForm_scratchPut {s n n2 x} (h : InForm s) : InForm (scratchPut s n n2 x) := by
  unfold scratchPut
  split <;> exact h

theorem inForm_threadStore {s x x2 n x3} (h : InForm s) : InForm (threadStore s x x2 n x3).1 :=
  inForm_ite_fst h (inForm_scratchPut h)

theorem effInForm_raise {cause : Nat} {tval : DWord} : (Eff.raise cause tval).InForm := trivial

theorem effInForm_operandTrap {c : Ctx} {code : Nat} : (operandTrap c code).InForm := trivial

theorem inForm_countWg {s g} (h : InForm s) : InForm (countWg s g) := by
  unfold countWg
  split <;> exact h

theorem inForm_logicalTick {s c g} (h : InForm s) : InForm (logicalTick s c g) :=
  inForm_ite h h

theorem inForm_retire {s c g pc} (h : InForm s) : InForm (retire s c g pc) :=
  inForm_logicalTick (inForm_countWg h)

theorem inForm_freezeHalt {s c cause pc addr lane} (h : InForm s) : InForm (freezeHalt s c cause pc addr lane) :=
  inForm_faultAndHalt h

theorem inForm_takeTrapAt {s c m pc tpc} (h : InForm s) : InForm (takeTrapAt s c m pc tpc) :=
  inForm_ite (inForm_freezeHalt h) h

theorem inForm_takeTrap {s c m tpc} (h : InForm s) : InForm (takeTrap s c m tpc) :=
  inForm_takeTrapAt h

theorem inForm_takeLogTrap {s c g resume} (h : InForm s) : InForm (takeLogTrap s c g resume) :=
  inForm_takeTrap h

theorem inForm_settle {s c e} (hs : InForm s) (he : e.InForm) : InForm (settle s c e) := by
  unfold settle
  split
  · exact inForm_retire he
  · exact inForm_retire he
  · exact inForm_takeTrap hs
  · exact inForm_ite (inForm_takeTrap hs) hs
  · exact inForm_takeTrapAt he
  · exact he
  · exact hs
  · exact inForm_freezeHalt hs
  · exact he

theorem inForm_settleLogged {s c e} (hs : InForm s) (he : e.InForm) : InForm (settleLogged s c e) := by
  unfold settleLogged
  split
  · exact inForm_ite hs hs
  · split
    · split
      · exact hs
      · split
        · dsimp only
          split
          · exact inForm_retire he
          · split
            · exact inForm_takeLogTrap (inForm_retire he)
            · exact inForm_retire he
        · exact inForm_takeLogTrap hs
    · exact inForm_takeLogTrap hs

theorem keeps_issue {i : Instr} {s : State} {body : Ctx → Eff} (h : InForm s) (hb : ∀ c, (body c).InForm) : Keeps (issue i s body) := by
  unfold issue
  split
  · exact trivial
  next c _ =>
    have he := effInForm_ite (p := (isVector i && execMask c.g == 0) = true) (a := .next s c.g) h (hb c)
    exact keeps_ite (keeps_next (inForm_settle h trivial)) (keeps_ite (keeps_next (inForm_settle h he)) (keeps_next (inForm_settleLogged h he)))

/-! ### Barriers and the end of groups -/

theorem inForm_completeBar {s lid x} (h : InForm s) : InForm (completeBar s lid x) := by
  unfold completeBar
  split
  · exact h
  · exact inForm_ite h h

theorem inForm_completeBars {s lid} (h : InForm s) : InForm (completeBars s lid) := by
  unfold completeBars
  split
  · exact h
  · exact inForm_foldl (fun _ _ h => inForm_completeBar h) h

theorem inForm_completeCBar {s lid x} (h : InForm s) : InForm (completeCBar s lid x) := by
  unfold completeCBar
  split
  · exact h
  · exact inForm_ite (inForm_ite h (inForm_ite (inForm_ite h h) h)) h

theorem inForm_completeCBars {s lid} (h : InForm s) : InForm (completeCBars s lid) := by
  unfold completeCBars
  split
  · exact h
  · exact inForm_foldl (fun _ _ h => inForm_completeCBar h) h

theorem inForm_endWg {s key} (h : InForm s) : InForm (endWg s key) := by
  unfold endWg
  split
  · exact h
  · exact inForm_ite h h

theorem inForm_freeSlot {s g k} (h : InForm s) : InForm (freeSlot s g k) := by
  unfold freeSlot
  split
  · exact h
  · split <;> exact h

theorem inForm_leaveBehind {s g} (h : InForm s) : InForm (leaveBehind s g) := by
  unfold leaveBehind
  split <;> exact h

theorem inForm_endGroup {s k g} (h : InForm s) : InForm (endGroup s k g) :=
  inForm_ite (inForm_leaveBehind (inForm_freeSlot h)) (inForm_endWg (inForm_completeCBars (inForm_completeBars (inForm_freeSlot h))))

/-! ### Fetching -/

theorem inForm_fetchTrap {s c cause tval tpc} (h : InForm s) : InForm (fetchTrap s c cause tval tpc) :=
  inForm_ite (inForm_takeLogTrap h) (inForm_takeTrap h)

/-- The state in which a fetch has taken a trap, if it has, is in form. -/
def Fetched.InForm : Fetched → Prop
  | .take s => Sys2Proof.Machine.InForm s
  | .run _ | .base => True

theorem fetchedInForm_groupFetch {s : State} {k : Nat} (h : InForm s) : (groupFetch s k).InForm := by
  unfold groupFetch
  split
  · exact h
  · split
    · exact h
    · split
      · exact inForm_fetchTrap h
      · split
        · trivial
        · exact inForm_fetchTrap h
        · exact inForm_fetchTrap h
        · exact inForm_fetchTrap h

theorem fetchedInForm_hartFetch {s : State} {i : Nat} (h : InForm s) : (hartFetch s i).InForm := by
  unfold hartFetch
  dsimp only
  split
  · trivial
  · split
    · exact h
    · trivial

theorem fetchedInForm_fetched {s : State} {who : Issuer} (h : InForm s) : (fetched s who).InForm := by
  unfold fetched
  split
  · exact fetchedInForm_groupFetch h
  · split
    · exact fetchedInForm_hartFetch h
    · exact h

/-! ### Latent frames, ticks, promotion -/

theorem gives_promote {s k off} (h : InForm s) : Gives InForm (promote s k off) := by
  unfold promote
  split
  · exact gives_none
  · split
    · exact gives_none
    · dsimp only
      split
      · exact gives_none
      · exact gives_some (inForm_scratchPut (inForm_scratchPut h))

theorem inForm_promoteFirst {s : State} {k : Nat} {offs : List Nat} (h : InForm s) : InForm (promoteFirst s k offs) := by
  induction offs with
  | nil => exact h
  | cons off offs ih =>
    unfold promoteFirst
    split
    next e => exact gives_promote h _ e
    · exact ih

theorem inForm_deliverTick {s k} (h : InForm s) : InForm (deliverTick s k) := by
  unfold deliverTick
  split
  · exact h
  · dsimp only
    split
    · exact inForm_ite h h
    · split
      · split <;> exact h
      · exact inForm_promoteFirst h

theorem inForm_timedTicks {n : Nat} {s : State} {core : Nat} (h : InForm s) : InForm (timedTicks n s core) := by
  induction n generalizing s with
  | zero => exact h
  | succ n ih => exact ih (inForm_foldl (fun _ _ h => inForm_deliverTick h) h)

theorem inForm_giveTick {s group} (h : InForm s) : InForm (giveTick s group) := by
  unfold giveTick
  split
  · exact inForm_ite (inForm_deliverTick h) h
  · exact h

theorem gives_forkCheck {c f slots} : Gives Eff.InForm (forkCheck c f slots) := by
  unfold forkCheck
  dsimp only
  split
  · exact gives_some effInForm_operandTrap
  · split
    · exact gives_some effInForm_operandTrap
    · split
      · exact gives_some effInForm_raise
      · split
        · exact gives_some effInForm_raise
        · exact gives_none

theorem inForm_exportWg {s key} (h : InForm s) : InForm (exportWg s key) := by
  unfold exportWg
  split <;> exact h

theorem effInForm_pushFrames {s c f frames} (h : InForm s) : (pushFrames s c f frames).InForm := by
  unfold pushFrames
  dsimp only
  split
  · exact effInForm_raise
  · exact effInForm_next (inForm_ite (inForm_exportWg (inForm_foldl_fst (fun _ _ h => inForm_threadStore h) h))
      (inForm_foldl_fst (fun _ _ h => inForm_threadStore h) h))

theorem keeps_execFork {s f} (h : InForm s) : Keeps (execFork f s) := by
  unfold execFork
  refine keeps_issue h ?_
  intro c
  split
  next e2 => exact gives_forkCheck _ e2
  · exact effInForm_ite h (effInForm_pushFrames h)

theorem keeps_execVfork {s f} (h : InForm s) : Keeps (execVfork f s) := by
  unfold execVfork
  refine keeps_issue h ?_
  intro c
  dsimp only
  split
  next e2 => exact gives_forkCheck _ e2
  · split
    · exact h
    · split
      · exact h
      · split
        next e3 => exact effInForm_next (inForm_of_next (effInForm_pushFrames h) e3 :)
        · exact effInForm_pushFrames h

theorem keeps_execJoin {s f} (h : InForm s) : Keeps (execJoin f s) := by
  unfold execJoin
  refine keeps_issue h ?_
  intro c
  dsimp only
  split
  · exact effInForm_raise
  · split
    · exact trivial
    · split
      · exact effInForm_raise
      · split
        · exact h
        · split
          · exact h
          · split
            · exact trivial
            · exact effInForm_ite h h

theorem inForm_taskendLocal {s c link result} (h : InForm s) : InForm (taskendLocal s c link result) := by
  unfold taskendLocal
  refine inForm_endGroup ?_
  refine inForm_countWg ?_
  refine inForm_scratchPut ?_
  refine inForm_scratchPut ?_
  split
  · exact inForm_scratchPut h
  · exact h

theorem inForm_taskendGlobal {s c link result} (h : InForm s) : InForm (taskendGlobal s c link result) :=
  inForm_endGroup (inForm_countWg h)

theorem effInForm_taskendDo {s f c link} (h : InForm s) : (taskendDo f s c link).InForm := by
  unfold taskendDo
  dsimp only
  split
  · exact effInForm_gone (inForm_taskendGlobal h)
  · split
    · exact trivial
    · exact effInForm_gone (inForm_taskendLocal h)

theorem keeps_execTaskend {s f} (h : InForm s) : Keeps (execTaskend f s) := by
  unfold execTaskend
  refine keeps_issue h ?_
  intro c
  split
  · exact effInForm_operandTrap
  · exact effInForm_ite effInForm_operandTrap (effInForm_ite h (effInForm_ite h (effInForm_taskendDo h)))

/-! ### The on-chip map -/

theorem inForm_filePutAt {s k tile off ds} (h : InForm s) : InForm (filePutAt s k tile off ds) := by
  unfold filePutAt
  split
  · split <;> exact h
  · exact h

theorem inForm_exportAll {s keys} (h : InForm s) : InForm (exportAll s keys) :=
  inForm_foldl (fun _ _ h => inForm_exportWg h) h

theorem gives_ocpmPut {s lid addr ds} (h : InForm s) : Gives InForm (ocpmPut s lid addr ds) := by
  unfold ocpmPut
  split
  · exact gives_none
  · dsimp only
    split
    · split
      · exact gives_some (inForm_exportAll h)
      · exact gives_none
    · exact gives_some (inForm_foldl (fun _ _ h => inForm_filePutAt h) (inForm_exportAll h))

theorem inForm_exportNamed {s lid act} (h : InForm s) : InForm (exportNamed s lid act) := by
  unfold exportNamed
  split
  · exact h
  · exact inForm_exportAll h

/-! ### What the engines share -/

theorem inForm_tileLeave {s g n} (h : InForm s) : InForm (tileLeave s g n).1 :=
  inForm_ite_fst (inForm_foldl (fun _ _ h => h) h) h

theorem inForm_writeSaved {s x n x2} (h : InForm s) : InForm (writeSaved s x n x2) := by
  unfold writeSaved
  split
  · exact inForm_homeWrite h
  · exact h

theorem inForm_opWrite {s x n x2} (h : InForm s) : InForm (opWrite s x n x2) := by
  unfold opWrite
  split
  · exact inForm_writeSaved h
  · exact h

theorem gives_issueWait {s c ctr need} (h : InForm s) : Gives Eff.InForm (issueWait s c ctr need) :=
  gives_ite (gives_ite (gives_some trivial) gives_none) (gives_ite (gives_ite (gives_some h) gives_none)
    (gives_ite (gives_some h) (gives_ite (gives_some trivial) gives_none)))

theorem effInForm_issueOp {s c ctr o spans} (h : InForm s) : (issueOp s c ctr o spans).InForm := by
  unfold issueOp
  dsimp only
  split
  next e2 => exact gives_issueWait h _ e2
  · exact effInForm_ite h (effInForm_next (inForm_exportNamed h))

theorem inForm_finishOp {s n o report} (h : InForm s) : InForm (finishOp s n o report) := by
  unfold finishOp
  dsimp only
  split
  · refine inForm_faultAndHalt ?_
    split
    · split
      · split
        · exact inForm_opWrite h
        · exact h
      · split
        · exact inForm_opWrite h
        · exact h
    · split
      · split
        · exact inForm_opWrite h
        · exact h
      · split
        · exact inForm_opWrite h
        · exact h
  · split
    · split
      · split
        · exact inForm_opWrite h
        · exact h
      · split
        · exact inForm_opWrite h
        · exact h
    · split
      · split
        · exact inForm_opWrite h
        · exact h
      · split
        · exact inForm_opWrite h
        · exact h

theorem inForm_countOp {s o} (h : InForm s) : InForm (countOp s o) :=
  inForm_ite (inForm_foldl (fun _ _ h => inForm_countLines h) h) h

theorem inForm_performedOp {s n o report} (h : InForm s) : InForm (performedOp s n o report) :=
  inForm_ite (inForm_countOp h) (inForm_finishOp (inForm_countOp h))

/-! ### The copy engine -/

theorem effInForm_copyIssue {foot : List (Int × Int)} {s c f ctr act spans} (h : InForm s) : (copyIssue s c f ctr act foot spans).InForm := by
  unfold copyIssue
  split
  · exact trivial
  · split
    · dsimp only
      split
      · exact trivial
      · exact effInForm_issueOp h
    · exact effInForm_issueOp h

theorem effInForm_withX {body : XReg → Eff} {c f} (h : ∀ x, (body x).InForm) : (withX c f body).InForm :=
  effInForm_ite (h _) effInForm_operandTrap

theorem effInForm_dirX {body : XReg → Eff} {c f d} (h : ∀ x, (body x).InForm) : (dirX c f d body).InForm :=
  effInForm_ite (h _) (effInForm_withX (fun _ => h _))

theorem keeps_execCpy {s f} (h : InForm s) : Keeps (execCpy f s) := by
  unfold execCpy
  refine keeps_issue h ?_
  intro c
  refine effInForm_dirX ?_
  intro x
  split
  · exact effInForm_operandTrap
  · exact effInForm_copyIssue h

theorem keeps_execCpyf {f : CX} {s : State} (h : InForm s) : Keeps (execCpyf f s) := by
  refine keeps_issue h (fun c => ?_)
  dsimp only
  split
  · exact effInForm_withX (fun _ => effInForm_ite trivial (effInForm_copyIssue h))
  · exact effInForm_ite trivial (effInForm_copyIssue h)

theorem inForm_ocpmWrite {p : State × EngineOp} {lid addr ds lane} (h : InForm p.1) : InForm (ocpmWrite lid p addr ds lane).1 := by
  unfold ocpmWrite
  refine inForm_foldl_fst ?_ h
  intro p x1 h
  split
  next e2 => exact gives_ocpmPut h _ e2
  · exact h

theorem inForm_ocpmWriteAt {p : State × EngineOp} {lid addr ds lane} (h : InForm p.1) : InForm (ocpmWriteAt lid p addr ds lane).1 :=
  inForm_ite_fst (inForm_ocpmWrite h) (inForm_ocpmWrite h)

theorem inForm_gWriteUnit {p : State × EngineOp} {l x lane off ds} (h : InForm p.1) : InForm (gWriteUnit l x lane p off ds).1 := by
  unfold gWriteUnit
  refine inForm_foldl_fst ?_ h
  intro p x1 h
  split
  · exact h
  · exact inForm_homeWrite h

theorem inForm_gWrite {p : State × EngineOp} {l x lane off ds} (h : InForm p.1) : InForm (gWrite l x lane p off ds).1 :=
  inForm_foldl_fst (fun _ _ h => inForm_gWriteUnit h) h

theorem inForm_putRuns {s x n x2} (h : InForm s) : InForm (putRuns s x n x2) :=
  inForm_foldl (fun _ _ h => inForm_opWrite h) h

theorem inForm_copyRun {x4 : State × EngineOp} {x x2 x3 n n2 x5 n3} (h : InForm x4.1) : InForm (copyRun x x2 x3 n x4 n2 x5 n3).1 := by
  unfold copyRun
  split
  · exact inForm_putRuns h
  · exact inForm_gWrite h
  · exact inForm_ocpmWriteAt h

theorem inForm_cpyPerform {p : State × EngineOp} {l dir x sa sb rowb rows sstr gstr} (h : InForm p.1) : InForm
    (cpyPerform l dir x sa sb rowb rows sstr gstr p).1 :=
  inForm_foldl_fst (fun _ _ h => inForm_copyRun h) h

theorem inForm_elemPiece {q : (State × EngineOp) × Tbl Nat} {l dir x e} (h : InForm q.1.1) : InForm (elemPiece l dir x q e).1.1 :=
  inForm_copyRun h

theorem inForm_cpyxPerform {idx : List (Nat × Nat)} {p : State × EngineOp} {l dir x w sa sb} (h : InForm p.1) : InForm
    (cpyxPerform l dir x w sa sb idx p).1 :=
  inForm_foldl_fst_fst (fun _ _ h => inForm_elemPiece h) h

theorem inForm_cpyfPerform {p : State × EngineOp} {l x sa pattern n} (h : InForm p.1) : InForm (cpyfPerform l x sa pattern n p).1 := by
  unfold cpyfPerform
  split
  · exact inForm_gWrite h
  · exact inForm_opWrite h

theorem gives_ocpmPut8 {s lid addr v} (h : InForm s) : Gives InForm (ocpmPut8 s lid addr v) :=
  gives_ite gives_none (gives_some (inForm_foldl (fun _ _ h => inForm_getD (gives_ocpmPut h) h) h))

theorem inForm_taskendStep {f : Nat → Nat} {p : State × EngineOp} {w off} (h : InForm p.1) : InForm (taskendStep w off f p).1 := by
  unfold taskendStep
  split
  · exact h
  · dsimp only
    split
    next e2 => exact gives_bind (fun _ => gives_ocpmPut8 h) _ e2
    · exact h

theorem inForm_taskendPerform {p : State × EngineOp} {link result} (h : InForm p.1) : InForm (taskendPerform link result p).1 := by
  unfold taskendPerform
  split
  · exact h
  · refine inForm_taskendStep ?_
    refine inForm_taskendStep ?_
    split
    · exact inForm_taskendStep h
    · exact h

theorem gives_copyPerform {s o} (h : InForm s) : Gives (fun r => InForm r.1) (copyPerform s o) := by
  unfold copyPerform
  split
  · exact gives_none
  · split
    · exact gives_some (inForm_cpyPerform h)
    · exact gives_some (inForm_cpyxPerform h)
    · exact gives_some (inForm_cpyfPerform h)
    · exact gives_some (inForm_taskendPerform h)
    · exact gives_ite (gives_some h) gives_none
    · exact gives_ite (gives_some h) gives_none
    · exact gives_ite (gives_some h) gives_none
    · exact gives_ite (gives_some h) gives_none
    · exact gives_none

/-! ### Memory by virtual address -/

theorem givesOk_spWrite {s sp va ds} (h : InForm s) : GivesOk (fun r => InForm r.1) (spWrite s sp va ds) := by
  unfold spWrite
  split
  · exact givesOk_error
  · split
    · exact givesOk_error
    · refine givesOk_ok ?_
      refine inForm_foldl_fst ?_ h
      intro p x1 h
      split
      · exact inForm_homeWrite h
      · exact h

theorem givesOk_spRmw {f : Nat → Nat} {s sp va n} (h : InForm s) : GivesOk (fun r => InForm r.1) (spRmw s sp va n f) := by
  unfold spRmw
  split
  · exact givesOk_error
  · split
    · exact givesOk_error
    · exact givesOk_ite givesOk_error (givesOk_ite (givesOk_ok h) (givesOk_ok (inForm_writePlain h)))

theorem inForm_copyUnit {p : State × CopyMet} {u : Nat × Nat} {sp src dst} (h : InForm p.1) : InForm (copyUnit sp src dst p u).1 := by
  unfold copyUnit
  split
  · exact h
  · split
    · exact h
    next e3' => exact givesOk_spWrite h _ e3'

theorem inForm_copyBlock {s sp src dst n} (h : InForm s) : InForm (copyBlock s sp src dst n).1 :=
  inForm_foldl_fst (fun _ _ h => inForm_copyUnit h) h

theorem givesOk_decPred {s sp base j} (h : InForm s) : GivesOk (fun r => InForm r.1) (decPred s sp base j) := by
  unfold decPred
  split
  · exact givesOk_error
  · split
    · exact givesOk_error
    next e4 =>
      exact givesOk_ite (givesOk_ite (givesOk_ok (givesOk_spRmw h _ e4)) (givesOk_ok (givesOk_spRmw h _ e4))) (givesOk_ok (givesOk_spRmw h _ e4))

theorem inForm_releaseNode {s sp base j} (h : InForm s) : InForm (releaseNode s sp base j).1 := by
  unfold releaseNode
  split
  · exact h
  next e4 =>
    dsimp only
    split <;> exact givesOk_decPred h _ e4

theorem inForm_releaseNodes {s sp base js} (h : InForm s) : InForm (releaseNodes s sp base js).1 :=
  inForm_foldl_fst (fun _ _ h => inForm_releaseNode h) h

/-! ### Control and system instructions -/

theorem effInForm_jumpTo {s g target} (h : InForm s) : (jumpTo s g target).InForm :=
  effInForm_ite effInForm_raise h

theorem keeps_execEndg {s f} (h : InForm s) : Keeps (execEndg f s) :=
  keeps_issue h (fun _ => effInForm_ite effInForm_operandTrap (effInForm_ite effInForm_operandTrap
    (effInForm_ite h (effInForm_gone (inForm_endGroup (inForm_countWg h))))))

theorem effInForm_privTrap {c} : (privTrap c).InForm :=
  effInForm_raise

theorem keeps_execSysw {s f} (h : InForm s) : Keeps (execSysw f s) :=
  keeps_issue h (fun _ => effInForm_ite effInForm_privTrap (effInForm_ite effInForm_privTrap
    (effInForm_ite effInForm_operandTrap (effInForm_ite effInForm_operandTrap h))))

theorem keeps_execPartitionIssueSelect {s core part} (h : InForm s) : Keeps (execPartitionIssueSelect core part s) := by
  unfold execPartitionIssueSelect
  split <;> exact h

/-! ### Scalar instructions -/

theorem effInForm_arith {op : DWord → DWord → DWord} {s c f} (h : InForm s) : (arith s c f op).InForm :=
  h

theorem effInForm_missEff {m} : (missEff m).InForm :=
  effInForm_ite trivial trivial

theorem effInForm_sldEff {s f c} (h : InForm s) : (sldEff f s c).InForm := by
  unfold sldEff
  dsimp only
  split
  · exact effInForm_missEff
  · exact h

theorem effInForm_sstEff {s f c} (h : InForm s) : (sstEff f s c).InForm := by
  unfold sstEff
  dsimp only
  split
  · exact effInForm_missEff
  · exact effInForm_next (inForm_threadStore h)

theorem effInForm_sldaDo {s f c} (h : InForm s) : (sldaDo f s c).InForm := by
  unfold sldaDo
  dsimp only
  split
  · exact effInForm_missEff
  · exact effInForm_next (inForm_scratchPut h)

theorem effInForm_sldaEff {s f c} (h : InForm s) : (sldaEff f s c).InForm :=
  effInForm_ite h (effInForm_sldaDo h)

/-! ### Waiting and barriers -/

theorem keeps_execWait {s f} (h : InForm s) : Keeps (execWait f s) := by
  unfold execWait
  refine keeps_issue h ?_
  intro c
  dsimp only
  split
  · split
    · exact effInForm_next (inForm_tileLeave h)
    · exact effInForm_trapAt (inForm_tileLeave h)
  · exact effInForm_ite trivial h

theorem inForm_watchUnit {s c unit} (h : InForm s) : InForm (watchUnit s c unit) := by
  unfold watchUnit
  split <;> exact h

theorem keeps_execWaitw {s f} (h : InForm s) : Keeps (execWaitw f s) := by
  unfold execWaitw
  refine keeps_issue h ?_
  intro c
  dsimp only
  split
  · exact trivial
  · exact effInForm_ite h (effInForm_park (inForm_watchUnit h))

theorem givesOk_barArrive {s c off} (h : InForm s) : GivesOk (fun r => InForm r.1) (barArrive s c off) := by
  unfold barArrive
  split
  · exact givesOk_error
  · exact givesOk_ok (inForm_ite (inForm_scratchPut h) (inForm_scratchPut h))

theorem effInForm_baraWord {s f c} (h : InForm s) : (baraWord f s c).InForm := by
  unfold baraWord
  split
  · exact trivial
  next e3 => exact effInForm_next (givesOk_barArrive h _ e3)

theorem effInForm_barWaitWord {s c g off token} (h : InForm s) : (barWaitWord s c g off token).InForm := by
  unfold barWaitWord
  split
  · exact trivial
  · exact effInForm_ite h h

theorem effInForm_barawWord {s f c} (h : InForm s) : (barawWord f s c).InForm := by
  unfold barawWord
  split
  · exact effInForm_barWaitWord h
  · split
    · exact trivial
    next e3 => exact effInForm_barWaitWord (givesOk_barArrive h _ e3)

theorem inForm_namedArrive {s c f} (h : InForm s) : InForm (namedArrive s c f) :=
  inForm_completeBar h

theorem effInForm_baraNamed {s f c} (h : InForm s) : (baraNamed f s c).InForm :=
  effInForm_ite effInForm_operandTrap (effInForm_next (inForm_namedArrive h))

theorem effInForm_barWaitNamed {s c g f token} (h : InForm s) : (barWaitNamed s c g f token).InForm :=
  effInForm_ite h h

theorem effInForm_barawNamed {s f c} (h : InForm s) : (barawNamed f s c).InForm := by
  unfold barawNamed
  split
  · exact effInForm_operandTrap
  · split
    · exact effInForm_barWaitNamed h
    · exact effInForm_barWaitNamed (inForm_namedArrive h)

theorem effInForm_baraDo {s f c} (h : InForm s) : (baraDo f s c).InForm :=
  effInForm_ite (effInForm_baraNamed h) (effInForm_baraWord h)

theorem effInForm_barwDo {s f c} (h : InForm s) : (barwDo f s c).InForm :=
  effInForm_ite (effInForm_ite effInForm_operandTrap (effInForm_barWaitNamed h)) (effInForm_barWaitWord h)

theorem effInForm_barawDo {s f c} (h : InForm s) : (barawDo f s c).InForm :=
  effInForm_ite (effInForm_barawNamed h) (effInForm_barawWord h)

theorem effInForm_orCommit {s c e} (hs : InForm s) (he : e.InForm) : (orCommit s c e).InForm :=
  effInForm_ite hs he

theorem inForm_wake {s k} (h : InForm s) : InForm (wake s k) := by
  unfold wake
  split
  · split <;> exact h
  · exact h

theorem keeps_execWaitwRecheck {s group} (h : InForm s) : Keeps (execWaitwRecheck group s) := by
  unfold execWaitwRecheck
  split
  · exact keeps_next (inForm_ite (inForm_wake h) h)
  · exact h

theorem keeps_execRwaitRecheck {s group} (h : InForm s) : Keeps (execRwaitRecheck group s) := by
  unfold execRwaitRecheck
  split
  · exact keeps_next (inForm_ite (inForm_wake h) h)
  · exact h

theorem keeps_execOperandLogTimeout {s group} (h : InForm s) : Keeps (execOperandLogTimeout group s) := by
  unfold execOperandLogTimeout
  split
  · exact keeps_ite h (keeps_next (inForm_takeLogTrap h))
  · exact h

/-! ### Queues and the doorbell -/

theorem inForm_putQ {s q x also} (h : InForm s) : InForm (putQ s q x also) :=
  inForm_foldl (fun _ _ h => inForm_ite h (inForm_memPut h)) h

theorem inForm_lookQueue {s q} (h : InForm s) : InForm (lookQueue s q) :=
  inForm_ite h (inForm_ite h (inForm_ite (inForm_ite h (inForm_putQ h)) h))

theorem inForm_dropGranting {s q} (h : InForm s) : InForm (dropGranting s q) := by
  unfold dropGranting
  split <;> exact h

theorem inForm_queueFault {s q code arg} (h : InForm s) : InForm (queueFault s q code arg) :=
  inForm_raiseEvent (inForm_putQ (inForm_dropGranting h))

theorem inForm_discardTail {s q} (h : InForm s) : InForm (discardTail s q) :=
  inForm_ite (inForm_putQ h) (inForm_memPut h)

theorem inForm_freezeFn {s fn addr} (h : InForm s) : InForm (freezeFn s fn addr) :=
  inForm_ite h (inForm_raiseEvent h)

theorem inForm_tailDo {s q off size value} (h : InForm s) : InForm (tailDo s q off size value) :=
  inForm_ite (inForm_putQ (inForm_lookQueue h)) (inForm_discardTail (inForm_lookQueue h))

theorem keeps_execTail {s door off size value} (h : InForm s) : Keeps (execTail door off size value s) := by
  unfold execTail
  split
  · exact h
  · split
    · exact keeps_next (inForm_freezeFn h)
    · split
      · exact keeps_next (inForm_ite (inForm_tailDo h) h)
      · exact h

theorem inForm_reconcileQueue {s q} (h : InForm s) : InForm (reconcileQueue s q) :=
  inForm_ite (inForm_putQ (inForm_lookQueue h)) (inForm_lookQueue h)

theorem inForm_submitDo {s n x x2} (h : InForm s) : InForm (submitDo s n x x2).1 :=
  inForm_ite_fst h (inForm_ite_fst (inForm_lookQueue h) (inForm_ite_fst (inForm_lookQueue h) (inForm_putQ (inForm_lookQueue h))))

theorem keeps_execSubmit {s f} (h : InForm s) : Keeps (execSubmit f s) := by
  unfold execSubmit
  split
  · exact keeps_ite trivial (keeps_next (inForm_submitDo h))
  · exact trivial

theorem inForm_appendLaunch {s q asid packet} (h : InForm s) : InForm (appendLaunch s q asid packet).1 := by
  unfold appendLaunch
  dsimp only
  split
  · exact inForm_lookQueue h
  · split
    · exact inForm_lookQueue h
    · split
      · split
        · exact inForm_lookQueue h
        · split
          · exact inForm_lookQueue h
          next e3' => exact inForm_ite_fst (inForm_lookQueue h) (inForm_putQ (givesOk_spWrite (inForm_lookQueue h) _ e3'))
      · split
        · exact inForm_lookQueue h
        · split
          · exact inForm_lookQueue h
          next e3 => exact inForm_ite_fst (inForm_lookQueue h) (inForm_putQ (givesOk_spWrite (inForm_lookQueue h) _ e3))

theorem effInForm_launchDo {s f c} (h : InForm s) : (launchDo f s c).InForm := by
  unfold launchDo
  dsimp only
  split
  · exact effInForm_operandTrap
  · split
    · exact effInForm_raise
    · split
      · exact trivial
      · exact effInForm_ite effInForm_operandTrap (effInForm_next (inForm_appendLaunch h))

theorem inForm_packetDone {s q} (h : InForm s) : InForm (packetDone s q) :=
  inForm_ite (inForm_putQ h) (inForm_putQ h)

theorem inForm_packetWaits {s q} (h : InForm s) : InForm (packetWaits s q) :=
  inForm_putQ h

theorem keeps_execWorkerQueueSelect {s worker} (h : InForm s) : Keeps (execWorkerQueueSelect worker s) := by
  unfold execWorkerQueueSelect
  split
  · split
    · exact h
    · exact keeps_next (inForm_putQ h)
  · exact h

theorem keeps_execSliceExpiry {s worker} (h : InForm s) : Keeps (execSliceExpiry worker s) := by
  unfold execSliceExpiry
  split
  · exact keeps_ite h h
  · exact h

/-! ### Graphs -/

theorem inForm_startGraph {s n} (h : InForm s) : InForm (startGraph s n) := by
  unfold startGraph
  split
  · split <;> exact h
  · exact h

theorem keeps_execGrun {s f} (h : InForm s) : Keeps (execGrun f s) := by
  unfold execGrun
  refine keeps_issue h ?_
  intro c
  refine effInForm_withX ?_
  intro x
  dsimp only
  split
  · exact effInForm_operandTrap
  · split
    · exact effInForm_operandTrap
    · split
      · exact trivial
      · split
        next e3 =>
          exact effInForm_next (inForm_ite (inForm_of_next (effInForm_copyIssue h) e3 :)
            (inForm_startGraph (inForm_of_next (effInForm_copyIssue h) e3 :)))
        · exact effInForm_copyIssue h

theorem inForm_gsigPerform {s : State} {o : EngineOp} {x : XReg} {off node : Nat} (h : InForm s) : InForm (gsigPerform s o x off node).1 := by
  unfold gsigPerform
  split
  · exact h
  · exact inForm_pair (inForm_releaseNode h) rfl

theorem keeps_execCopyOpComplete {s op} (h : InForm s) : Keeps (execCopyOpComplete op s) := by
  unfold execCopyOpComplete
  split
  · split
    · split
      · exact keeps_next (inForm_performedOp (inForm_gsigPerform h))
      · split
        next e3 => exact keeps_next (inForm_performedOp (gives_copyPerform h _ e3))
        · exact h
    · exact keeps_ite (keeps_next (inForm_finishOp h)) h
  · exact h

theorem inForm_addSignal {s asid va add} (h : InForm s) : InForm (addSignal s asid va add) := by
  unfold addSignal
  split
  next e4 => exact givesOk_spRmw h _ e4
  · exact h

theorem inForm_graphTell {s gr} (h : InForm s) : InForm (graphTell s gr) := by
  unfold graphTell
  split
  · split
    · exact inForm_performedOp h
    · exact h
  · exact inForm_ite (inForm_ite h (inForm_ite (inForm_queueFault h) (inForm_queueFault h))) (inForm_addSignal h)

theorem inForm_settleGraph {s n gr} (h : InForm s) : InForm (settleGraph s n gr) :=
  inForm_ite (inForm_ite h h) (inForm_ite (inForm_graphTell (inForm_ite h h)) (inForm_ite (inForm_graphTell h) h))

theorem inForm_nodeLaunch {s gr sp r} (h : InForm s) : InForm (nodeLaunch s gr sp r).1 := by
  unfold nodeLaunch
  dsimp only
  split
  · exact h
  · exact inForm_ite_fst h (inForm_ite_fst h (inForm_ite_fst (inForm_appendLaunch h)
      (inForm_ite_fst (inForm_appendLaunch h) (inForm_appendLaunch h))))

theorem inForm_nodeStart {s n gr sp pay node b} (h : InForm s) : InForm (nodeStart s n gr sp pay node b) := by
  unfold nodeStart
  dsimp only
  split
  · split <;> exact h
  next e3 =>
    split
    · split <;> exact inForm_nodeLaunch (givesOk_spWrite h _ e3)
    · split
      · split <;> exact givesOk_spWrite h _ e3
      · split <;> exact givesOk_spWrite h _ e3

theorem keeps_execGraphNodeStart {s graph node} (h : InForm s) : Keeps (execGraphNodeStart graph node s) := by
  unfold execGraphNodeStart
  split
  · exact h
  · split
    · exact h
    · split
      · exact keeps_next (inForm_settleGraph h)
      · split
        · exact h
        · split
          · exact h
          · split
            · exact keeps_next (inForm_settleGraph h)
            · split
              · exact h
              · dsimp only
                split
                · exact h
                · exact keeps_ite h (keeps_ite h (keeps_ite h (keeps_next (inForm_nodeStart h))))

theorem gives_nodeAct {r : NodeRun} {s pay} (h : InForm s) : Gives (fun r => InForm r.1) (nodeAct s pay r) := by
  unfold nodeAct
  split
  · exact gives_some h
  · split
    · exact gives_some h
    · split
      · exact gives_some (inForm_copyBlock h)
      · split
        · split
          · exact gives_some h
          · split
            · exact gives_some h
            next e4 => exact gives_some (givesOk_spRmw h _ e4)
        · exact gives_none

theorem inForm_nodeDone {s graph node gr sp r} (h : InForm s) : InForm (nodeDone s graph node gr sp r) := by
  unfold nodeDone
  dsimp only
  split
  · split
    · refine inForm_releaseNodes ?_
      split
      next e3 => exact givesOk_spWrite h _ e3
      · exact h
    · dsimp only
      split
      next e3 => exact givesOk_spWrite h _ e3
      · exact h
  · refine inForm_settleGraph ?_
    split
    · refine inForm_releaseNodes ?_
      split
      next e3 => exact givesOk_spWrite h _ e3
      · exact h
    · dsimp only
      split
      next e3 => exact givesOk_spWrite h _ e3
      · exact h

theorem keeps_execGraphNodeFinish {s graph node} (h : InForm s) : Keeps (execGraphNodeFinish graph node s) := by
  unfold execGraphNodeFinish
  split
  · exact h
  · split
    · split
      next e3 => exact keeps_next (inForm_nodeDone (gives_nodeAct h _ e3))
      · exact h
    · exact h

theorem keeps_execGraphLaunchRetry {s graph node} (h : InForm s) : Keeps (execGraphLaunchRetry graph node s) := by
  unfold execGraphLaunchRetry
  split
  · exact h
  · split
    · split
      · dsimp only
        split
        · exact keeps_next (inForm_nodeLaunch h)
        · exact h
      · exact h
    · exact h

theorem keeps_execGraphTimeout {s graph} (h : InForm s) : Keeps (execGraphTimeout graph s) := by
  unfold execGraphTimeout
  split
  · exact h
  · exact keeps_ite (keeps_next (inForm_settleGraph h)) h

/-! ### The collective engine at the source -/

theorem inForm_sendW {s die port domain} (h : InForm s) : InForm (sendW s die port domain) := by
  unfold sendW
  split <;> exact h

theorem inForm_noteSent {s p} (h : InForm s) : InForm (noteSent s p) := by
  unfold noteSent
  split
  · exact h
  · split
    · exact inForm_sendW h
    · exact h

theorem inForm_discardRecord {s port p} (h : InForm s) : InForm (discardRecord s port p) :=
  inForm_raiseEvent h

theorem inForm_inject {s key u base} (h : InForm s) : InForm (inject s key u base) :=
  inForm_ite (inForm_noteSent h) (inForm_ite (inForm_discardRecord h) h)

theorem inForm_sendPacket {s die p op table base} (h : InForm s) : InForm (sendPacket s die p op table base) :=
  inForm_ite (inForm_noteSent h) (inForm_ite (inForm_inject h) h)

theorem inForm_cbarArrive {s n o pod b count root} (h : InForm s) : InForm (cbarArrive s n o pod b count root) := by
  unfold cbarArrive
  split
  · exact h
  · exact inForm_completeCBar h

theorem inForm_activate {s n} (h : InForm s) : InForm (activate s n) := by
  unfold activate
  split
  · exact h
  · split
    · dsimp only
      split
      · exact inForm_sendPacket h
      · exact h
    · exact h
    · exact inForm_cbarArrive h
    · exact inForm_startGraph h
    · exact h

theorem effInForm_collIssue {s c f act spans} (h : InForm s) : (collIssue s c f act spans).InForm := by
  unfold collIssue
  dsimp only
  split
  · split
    · exact trivial
    · split
      next e3 =>
        exact effInForm_next (inForm_ite (inForm_of_next (effInForm_issueOp h) e3 :) (inForm_activate (inForm_of_next (effInForm_issueOp h) e3 :)))
      · exact effInForm_issueOp h
  · split
    next e3 =>
      exact effInForm_next (inForm_ite (inForm_of_next (effInForm_issueOp h) e3 :) (inForm_activate (inForm_of_next (effInForm_issueOp h) e3 :)))
    · exact effInForm_issueOp h

theorem keeps_execRst {s f} (h : InForm s) : Keeps (execRst f s) := by
  unfold execRst
  refine keeps_issue h ?_
  intro c
  dsimp only
  split
  · exact effInForm_operandTrap
  · split
    · exact effInForm_operandTrap
    · split
      · exact effInForm_operandTrap
      · split
        · exact effInForm_operandTrap
        · split
          · exact trivial
          · exact effInForm_collIssue h

theorem keeps_execRsig {s f} (h : InForm s) : Keeps (execRsig f s) :=
  keeps_issue h (fun _ => effInForm_ite effInForm_operandTrap (effInForm_ite effInForm_operandTrap
    (effInForm_ite effInForm_raise (effInForm_collIssue h))))

theorem keeps_execRwait {f : QX} {s : State} (h : InForm s) : Keeps (execRwait f s) := by
  rw [execRwait]
  refine keeps_issue h (fun c => effInForm_ite effInForm_operandTrap (effInForm_ite effInForm_raise ?_))
  generalize firstBad _ _ _ _ _ = bad
  cases bad with
  | some => exact trivial
  | none =>
    generalize spacePa _ _ _ _ = place
    cases place with
    | none => exact trivial
    | some =>
      exact effInForm_ite trivial (effInForm_ite trivial (effInForm_ite (effInForm_ite h trivial) (effInForm_ite effInForm_raise
        (effInForm_ite h h))))

theorem keeps_execCrun {s f} (h : InForm s) : Keeps (execCrun f s) :=
  keeps_issue h (fun _ => effInForm_ite effInForm_operandTrap (effInForm_ite effInForm_operandTrap
    (effInForm_ite effInForm_raise (effInForm_ite trivial (effInForm_collIssue h)))))

theorem keeps_execCbar {s f} (h : InForm s) : Keeps (execCbar f s) :=
  keeps_issue h (fun _ => effInForm_ite effInForm_operandTrap (effInForm_ite (effInForm_collIssue h)
    (effInForm_ite effInForm_operandTrap (effInForm_ite effInForm_operandTrap (effInForm_collIssue h)))))

theorem inForm_beginStep {s t sp} (h : InForm s) : InForm (beginStep s t sp).1 := by
  unfold beginStep
  split
  · exact h
  · dsimp only
    split
    · exact h
    · split
      · exact h
      · split
        · exact h
        next e3' => exact inForm_ite_fst (givesOk_spWrite h _ e3') (givesOk_spWrite h _ e3')

theorem inForm_endTable {s n t} (h : InForm s) : InForm (endTable s n t) := by
  unfold endTable
  dsimp only
  split
  · split
    · exact inForm_performedOp h
    · exact h
  · split
    · split <;> exact h
    · exact h

theorem inForm_stepEvent {act : State → TableRun → Space → State × TableRun} {s n k} (h : InForm s) (ha : ∀ s t sp, InForm s → InForm (act s t sp).1)
    : InForm (stepEvent s n k act) := by
  unfold stepEvent
  split
  · exact h
  · split
    · exact inForm_endTable h
    · split
      · exact h
      · split
        · exact h
        · exact inForm_ite (inForm_beginStep h) (inForm_ite h (ha _ _ _ (inForm_beginStep h)))

theorem inForm_stepSend {s n t p} (h : InForm s) : InForm (stepSend s n t p).1 :=
  inForm_ite_fst h (inForm_sendPacket h)

theorem inForm_nopStep {s table} (h : InForm s) : InForm (nopStep s table) :=
  inForm_stepEvent h (fun _ _ _ h => h)

theorem inForm_putStep {s table} (h : InForm s) : InForm (putStep s table) := by
  unfold putStep
  refine inForm_stepEvent h ?_
  intro s t sp h
  dsimp only
  split
  · exact h
  · split
    · exact h
    · exact inForm_stepSend h

theorem inForm_sigStep {s table} (h : InForm s) : InForm (sigStep s table) :=
  inForm_stepEvent h (fun _ _ _ h => inForm_ite_fst h (inForm_stepSend h))

theorem inForm_waitStep {s table} (h : InForm s) : InForm (waitStep s table) := by
  unfold waitStep
  refine inForm_stepEvent h ?_
  intro s t sp h
  split
  · exact h
  · exact inForm_ite_fst h h

theorem inForm_doneStep {s table} (h : InForm s) : InForm (doneStep s table) := by
  unfold doneStep
  split
  · exact h
  · split
    · exact h
    · split
      · exact h
      · dsimp only
        split
        · split
          next e3' =>
            exact inForm_ite (inForm_endTable (inForm_releaseNodes (givesOk_spWrite h _ e3'))) (inForm_releaseNodes (givesOk_spWrite h _ e3'))
          · exact inForm_ite (inForm_endTable (inForm_releaseNodes h)) (inForm_releaseNodes h)
        · split
          next e3' => exact inForm_ite (inForm_endTable (givesOk_spWrite h _ e3')) (givesOk_spWrite h _ e3')
          · exact inForm_ite (inForm_endTable h) h

theorem inForm_advanceTable {n : Nat} {s : State} {table q : Nat} (h : InForm s) : InForm (advanceTable n s table q) := by
  induction n generalizing s with
  | zero => exact h
  | succ n ih =>
    have h1 : InForm (waitStep (sigStep (putStep (nopStep s table) table) table) table) :=
      inForm_waitStep (inForm_sigStep (inForm_putStep (inForm_nopStep h)))
    have h2 := inForm_ite (p := stepOld (waitStep (sigStep (putStep (nopStep s table) table) table) table) table q = true)
      (inForm_doneStep (table := table) h1) h1
    exact inForm_ite h2 (ih h2)

theorem keeps_execCrunTimeout {s table} (h : InForm s) : Keeps (execCrunTimeout table s) := by
  unfold execCrunTimeout
  split
  · exact h
  · exact keeps_ite (keeps_next (inForm_endTable h)) h

theorem inForm_answer {s key u r} (h : InForm s) : InForm (answer s key u r) := by
  unfold answer
  dsimp only
  split
  · split
    · exact inForm_performedOp h
    · exact h
  · split
    · exact inForm_ite h h
    · exact h
  · exact h

theorem inForm_remoteReads {s n o} (h : InForm s) : InForm (remoteReads s n o) := by
  unfold remoteReads
  dsimp only
  split <;> exact h

theorem keeps_execCollOpComplete {s op reply} (h : InForm s) : Keeps (execCollOpComplete op reply s) := by
  unfold execCollOpComplete
  split
  · exact keeps_next (inForm_remoteReads h)
  · split
    · split
      · exact h
      · split
        · exact keeps_next (inForm_answer h)
        · exact h
    · split
      · exact keeps_next (inForm_ite (inForm_finishOp h) h)
      · exact h

theorem keeps_execRemoteResend {s op reqId} (h : InForm s) : Keeps (execRemoteResend op reqId s) := by
  unfold execRemoteResend
  split
  · exact keeps_ite h (keeps_ite (keeps_next (inForm_noteSent h)) (keeps_next (inForm_answer h)))
  · exact h

/-! ### The delivery points -/

theorem inForm_notePoint {s domain} (h : InForm s) : InForm (notePoint s domain) := by
  unfold notePoint
  dsimp only
  split
  · exact inForm_ite h (inForm_ite h h)
  · exact h

theorem inForm_noteAll {s} (h : InForm s) : InForm (noteAll s) :=
  inForm_foldl (fun _ _ h => inForm_notePoint h) h

theorem inForm_ocpmStore {s lid l addr ds} (h : InForm s) : InForm (ocpmStore s lid l addr ds).1 := by
  unfold ocpmStore
  split
  · exact h
  · refine inForm_foldl ?_ h
    intro s x1 h
    split
    next e2 => exact gives_ocpmPut h _ e2
    · exact h

theorem inForm_ocpmAdd {s lid l addr v} (h : InForm s) : InForm (ocpmAdd s lid l addr v).1 := by
  unfold ocpmAdd
  split
  · exact h
  · exact inForm_ite_fst h (inForm_ite_fst h (inForm_ocpmStore h))

theorem inForm_performPacket {s : State} {p : RemotePacket} (h : InForm s) : InForm (performPacket s p).1 := by
  unfold performPacket
  split
  · exact h
  · refine inForm_ite_fst h ?_
    split
    · split
      · exact h
      · split
        · exact inForm_ocpmStore h
        · exact inForm_ite_fst h (inForm_ocpmAdd h)
    · split
      · split
        · exact h
        next e => exact givesOk_spWrite h _ e
      · refine inForm_ite_fst h ?_
        split
        · exact h
        next e => exact givesOk_spRmw h _ e

theorem inForm_countPacket {s p} (h : InForm s) : InForm (countPacket s p) := by
  unfold countPacket
  split
  · exact inForm_countLines h
  · exact h

theorem inForm_deliver {s p} (h : InForm s) : InForm (deliver s p) :=
  inForm_performPacket (inForm_countPacket h)

theorem inForm_arrive {s port w p} (h : InForm s) : InForm (arrive s port w p) :=
  inForm_ite (inForm_discardRecord h) (inForm_ite h (inForm_ite (inForm_raiseEvent h) h))

theorem keeps_execOrderedPacketArrival {s port domain watermark packet} (h : InForm s) : Keeps
    (execOrderedPacketArrival port domain watermark packet s) := by
  unfold execOrderedPacketArrival
  split
  · exact h
  · refine keeps_next ?_
    refine inForm_notePoint ?_
    split
    · exact inForm_ite (inForm_arrive h) h
    · exact h

theorem inForm_performWaiting {s domain p} (h : InForm s) : InForm (performWaiting s domain p) :=
  inForm_deliver h

theorem gives_deliverNext {s domain} (h : InForm s) : Gives InForm (deliverNext s domain) := by
  unfold deliverNext
  dsimp only
  split
  · exact gives_none
  · exact gives_ite (gives_some (inForm_performWaiting (inForm_notePoint h))) gives_none

theorem keeps_execWatermarkStall {s domain} (h : InForm s) : Keeps (execWatermarkStall domain s) := by
  unfold execWatermarkStall
  dsimp only
  split
  · exact keeps_ite (keeps_next (inForm_raiseEvent (inForm_notePoint h))) (keeps_next (inForm_notePoint h))
  · exact keeps_next (inForm_notePoint h)

theorem inForm_exclude {s port src} (h : InForm s) : InForm (exclude s port src) :=
  inForm_ite h (inForm_noteAll (inForm_raiseEvent h))

theorem keeps_execPodBarrierArrival {s package job bar count root agree} (h : InForm s) : Keeps
    (execPodBarrierArrival package job bar count root agree s) := by
  unfold execPodBarrierArrival
  dsimp only
  split
  · exact h
  · split
    · exact h
    · exact keeps_ite h h

theorem keeps_execPodBarrierRelease {s job bar ok} (h : InForm s) : Keeps (execPodBarrierRelease job bar ok s) := by
  unfold execPodBarrierRelease
  split
  · exact h
  · exact keeps_ite h (keeps_ite h (keeps_next (inForm_completeCBars h)))

theorem inForm_injectHeld {s} (h : InForm s) : InForm (injectHeld s) :=
  inForm_foldl (fun _ _ h => inForm_inject h) h

/-! ### Leases and the notification ring -/

theorem inForm_drainKept {n : Nat} {s : State} (h : InForm s) : InForm (drainKept n s) := by
  induction n generalizing s with
  | zero => exact h
  | succ n ih =>
    unfold drainKept
    split
    · exact h
    · exact inForm_ite h (ih (inForm_ringPut h))

theorem inForm_noteKept {s asid e} (h : InForm s) : InForm (noteKept s asid e) :=
  inForm_drainKept h

theorem inForm_tellMissing {pages : List (Nat × Nat)} {s q launch} (h : InForm s) : InForm (tellMissing s q launch pages) :=
  inForm_foldl (fun _ _ h => inForm_ite h (inForm_noteKept h)) h

theorem inForm_grantLaunch {s q lid} (h : InForm s) : InForm (grantLaunch s q lid) := by
  unfold grantLaunch
  split
  · exact h
  · split
    · exact h
    · split
      · exact inForm_ite (inForm_packetWaits (inForm_putQ h)) (inForm_packetDone h)
      · split
        · exact inForm_queueFault h
        · exact inForm_packetWaits (inForm_putQ (inForm_tellMissing h))
        · exact h

/-! ### Packets of queues -/

theorem keeps_onPacket {ok : Nat → Bool} {body : State → Nat → List Byte → State} {s worker} (h : InForm s)
    (hb : ∀ s q p, InForm s → InForm (body s q p)) : Keeps (onPacket s worker ok body) := by
  unfold onPacket
  split
  · exact h
  · split
    · exact keeps_next (inForm_queueFault h)
    · split
      · exact h
      · split
        · exact keeps_next (inForm_queueFault h)
        · exact keeps_next (hb _ _ _ h)

theorem keeps_execNopPacket {s worker} (h : InForm s) : Keeps (execNopPacket worker s) := by
  unfold execNopPacket
  split
  · exact h
  · split
    · exact keeps_next (inForm_queueFault h)
    next p _ => exact keeps_ite (keeps_next (inForm_queueFault h)) (keeps_onPacket h (fun _ _ _ h => inForm_packetDone h))

theorem inForm_launchPacketDo {s q p} (h : InForm s) : InForm (launchPacketDo s q p) := by
  unfold launchPacketDo
  dsimp only
  split
  · exact inForm_queueFault h
  · split
    · exact inForm_packetWaits h
    · split
      · exact inForm_queueFault h
      · split
        · exact inForm_queueFault h
        · split
          · exact inForm_queueFault h
          · split
            · exact inForm_queueFault h
            · exact inForm_grantLaunch (inForm_putQ h)

theorem keeps_execLaunchPacket {s worker} (h : InForm s) : Keeps (execLaunchPacket worker s) :=
  keeps_onPacket h (fun _ _ _ h => inForm_launchPacketDo h)

theorem inForm_writeDo {s q va bs} (h : InForm s) : InForm (writeDo s q va bs) := by
  unfold writeDo
  split
  · exact inForm_queueFault h
  next e3 => exact inForm_ite (inForm_queueFault (givesOk_spWrite h _ e3)) (inForm_packetDone (givesOk_spWrite h _ e3))

theorem keeps_execWritePacket {s worker} (h : InForm s) : Keeps (execWritePacket worker s) :=
  keeps_onPacket h (fun _ _ _ h => inForm_writeDo h)

theorem inForm_signalDo {f : Nat → Nat} {s q va} (h : InForm s) : InForm (signalDo s q va f) := by
  unfold signalDo
  split
  · exact inForm_queueFault h
  next e4 => exact inForm_ite (inForm_queueFault (givesOk_spRmw h _ e4)) (inForm_packetDone (givesOk_spRmw h _ e4))

theorem keeps_execSignalPacket {s worker} (h : InForm s) : Keeps (execSignalPacket worker s) :=
  keeps_onPacket h (fun _ _ _ h => inForm_signalDo h)

theorem keeps_execGraphPacket {s worker} (h : InForm s) : Keeps (execGraphPacket worker s) := by
  unfold execGraphPacket
  refine keeps_onPacket h ?_
  intro s q p h
  split
  · exact inForm_queueFault h
  · exact inForm_packetDone h

theorem inForm_copyStep {s q p signal} (h : InForm s) : InForm (copyStep s q p signal) := by
  unfold copyStep
  dsimp only
  split
  · exact inForm_signalDo h
  · split
    · exact inForm_queueFault h
    · split
      · exact inForm_queueFault h
      · split
        · exact inForm_queueFault h
        next e3' =>
          exact inForm_ite (inForm_queueFault (givesOk_spWrite h _ e3'))
            (inForm_ite (inForm_putQ (givesOk_spWrite h _ e3')) (inForm_ite (inForm_putQ (givesOk_spWrite h _ e3'))
              (inForm_packetDone (givesOk_spWrite h _ e3'))))

theorem keeps_execWrsigPacket {s worker} (h : InForm s) : Keeps (execWrsigPacket worker s) :=
  keeps_onPacket h (fun _ _ _ h => inForm_copyStep h)

theorem keeps_execCopyPacket {s worker} (h : InForm s) : Keeps (execCopyPacket worker s) :=
  keeps_onPacket h (fun _ _ _ h => inForm_copyStep h)

theorem inForm_waitsigLook {s q p} (h : InForm s) : InForm (waitsigLook s q p) := by
  unfold waitsigLook
  dsimp only
  split
  · exact inForm_queueFault h
  · exact inForm_ite (inForm_packetDone h) (inForm_ite (inForm_queueFault h) (inForm_packetWaits h))

theorem keeps_execWaitsigPacket {s worker} (h : InForm s) : Keeps (execWaitsigPacket worker s) :=
  keeps_onPacket h (fun _ _ _ h => inForm_waitsigLook h)

theorem keeps_execWaitsigRecheck {s q} (h : InForm s) : Keeps (execWaitsigRecheck q s) := by
  unfold execWaitsigRecheck
  split
  · exact h
  · split
    · exact keeps_next (inForm_ite (inForm_waitsigLook h) h)
    · exact keeps_next (inForm_queueFault h)

theorem keeps_execFencePacket {s worker} (h : InForm s) : Keeps (execFencePacket worker s) :=
  keeps_onPacket h (fun _ _ _ h => inForm_ite (inForm_packetDone h) (inForm_packetWaits h))

theorem inForm_holdWalk {s q id rs} (h : InForm s) : InForm (holdWalk s q id rs) := by
  unfold holdWalk
  dsimp only
  split
  · exact inForm_queueFault h
  · exact inForm_packetWaits (inForm_tellMissing h)
  · exact inForm_packetDone h

theorem inForm_holdDo {s q p} (h : InForm s) : InForm (holdDo s q p) := by
  unfold holdDo
  dsimp only
  split
  · exact inForm_queueFault h
  · split
    · exact inForm_queueFault h
    · exact inForm_holdWalk h

theorem keeps_execLeaseHold {s worker} (h : InForm s) : Keeps (execLeaseHold worker s) :=
  keeps_onPacket h (fun _ _ _ h => inForm_ite (inForm_holdDo h) h)

theorem keeps_execLeaseDrop {s worker} (h : InForm s) : Keeps (execLeaseDrop worker s) :=
  keeps_onPacket h (fun _ _ _ h => inForm_ite h (inForm_ite (inForm_queueFault h) (inForm_packetDone (inForm_putQ h))))

theorem keeps_execLeaseWalkRetry {s q} (h : InForm s) : Keeps (execLeaseWalkRetry q s) := by
  unfold execLeaseWalkRetry
  dsimp only
  split
  · exact h
  · split
    · exact keeps_next (inForm_grantLaunch h)
    · exact keeps_next (inForm_holdWalk h)
    · exact h

/-! ### The dispatcher -/

theorem inForm_countKargs {s lid l} (h : InForm s) : InForm (countKargs s lid l) :=
  inForm_ite h (inForm_countLines h)

theorem inForm_placeWg {s lid idx l p fresh} (h : InForm s) : InForm (placeWg s lid idx l p fresh) := by
  unfold placeWg
  dsimp only
  split
  · exact inForm_foldl (fun _ _ h => h) (inForm_countKargs h)
  · exact inForm_countKargs h

theorem keeps_execWorkgroupPlace {s} (h : InForm s) : Keeps (execWorkgroupPlace s) := by
  unfold execWorkgroupPlace
  split
  · split
    · exact h
    · split
      · exact keeps_next (inForm_placeWg h)
      · exact h
  · exact h

theorem inForm_rearrive {s lid lcore g} (h : InForm s) : InForm (rearrive s lid lcore g) := by
  unfold rearrive
  split
  · exact inForm_ite h (inForm_ite (inForm_completeBar h) h)
  · exact h

theorem inForm_restoreTape {slot : Nat → Nat} {s core sbase held} (h : InForm s) : InForm (restoreTape s core sbase slot held) :=
  inForm_ite h h

theorem inForm_resumeWg {s lid idx l w core f} (h : InForm s) : InForm (resumeWg s lid idx l w core f) :=
  inForm_ite (inForm_faultAndHalt (inForm_foldl (fun _ _ h => inForm_rearrive h) (inForm_foldl (fun _ _ h => h) (inForm_restoreTape h))))
    (inForm_foldl (fun _ _ h => inForm_rearrive h) (inForm_foldl (fun _ _ h => h) (inForm_restoreTape h)))

theorem keeps_execWorkgroupResume {s launch wg} (h : InForm s) : Keeps (execWorkgroupResume launch wg s) := by
  unfold execWorkgroupResume
  split
  · split
    · split
      · exact keeps_next (inForm_resumeWg h)
      · exact h
    · exact h
  · exact h

theorem inForm_clearDomain {s l} (h : InForm s) : InForm (clearDomain s l) :=
  inForm_ite h h

theorem inForm_clearLaunch {s lid l} (h : InForm s) : InForm (clearLaunch s lid l) :=
  inForm_clearDomain h

theorem keeps_execLaunchEnd {s launch} (h : InForm s) : Keeps (execLaunchEnd launch s) := by
  unfold execLaunchEnd
  split
  · exact keeps_ite (keeps_next (inForm_clearLaunch (inForm_ite h (inForm_addSignal (inForm_countLines h))))) h
  · exact h

/-! ### Preemption and saving -/

theorem inForm_writeRecord {gs : List (Nat × Group)} {s pa k w} (h : InForm s) : InForm (writeRecord s pa k w gs) :=
  inForm_homeWrite h

theorem inForm_treat {s key how} (h : InForm s) : InForm (treat s key how) := by
  unfold treat
  split
  · exact h
  · split
    · exact h
    · exact h
    · split <;> exact h

theorem inForm_treatAll {s c keys} (h : InForm s) : InForm (treatAll s c keys) := by
  unfold treatAll
  refine inForm_foldl ?_ h
  intro s x1 h
  split
  · split
    · exact inForm_treat h
    · exact h
  · exact h

theorem keeps_execPreemptChoice {s launch wg} (h : InForm s) : Keeps (execPreemptChoice launch wg s) := by
  unfold execPreemptChoice
  split
  · split
    · exact h
    · split
      · exact keeps_ite h (keeps_next (inForm_treatAll h))
      · exact h
  · exact h

theorem inForm_readSources {s lid idx w lost} (h : InForm s) : InForm (readSources s lid idx w lost) :=
  inForm_ite h h

theorem inForm_withdraw {s lid idx} (h : InForm s) : InForm (withdraw s lid idx) := by
  unfold withdraw
  split <;> exact h

theorem inForm_vacate {s lid idx w0} (h : InForm s) : InForm (vacate s lid idx w0) :=
  inForm_ite (inForm_ite h (inForm_withdraw h)) (inForm_completeCBars (inForm_completeBars (inForm_ite h (inForm_withdraw h))))

theorem keeps_execSave {launch wg pa : Nat} {s : State} (h : InForm s) : Keeps (execSave launch wg pa s) := by
  unfold execSave
  dsimp only
  split
  next w l _ _ =>
    have hr := inForm_readSources (lid := launch) (idx := wg) (w := w) (lost := false)
      (inForm_writeRecord (pa := pa) (k := l.kern) (w := w) (gs := wgGroups s (wgKey launch wg)) h)
    refine keeps_ite h (keeps_ite h (keeps_ite h (keeps_ite h (keeps_ite h (keeps_next (inForm_vacate ?_))))))
    generalize readSources _ _ _ _ _ = t at hr ⊢
    exact hr
  · exact h

theorem inForm_flushOut {s key} (h : InForm s) : InForm (flushOut s key) := by
  unfold flushOut
  split <;> exact h

theorem keeps_execFlush {s launch wg} (h : InForm s) : Keeps (execFlush launch wg s) := by
  unfold execFlush
  dsimp only
  split
  · exact keeps_ite h (keeps_ite h (keeps_ite h (keeps_next (inForm_flushOut (inForm_vacate (inForm_readSources h))))))
  · exact h

theorem keeps_execDrainTimeout {s launch wg} (h : InForm s) : Keeps (execDrainTimeout launch wg s) := by
  unfold execDrainTimeout
  dsimp only
  split
  · split
    · exact keeps_ite h (keeps_next (inForm_treat h))
    · exact h
  · exact h

theorem keeps_execForwardProgressSave {s core} (h : InForm s) : Keeps (execForwardProgressSave core s) := by
  unfold execForwardProgressSave
  split
  · exact h
  · split
    · exact keeps_next (inForm_ite h (inForm_treat h))
    · exact h

/-! ### Vector integer instructions -/

theorem effInForm_vecResult {s c f r} (h : InForm s) : (vecResult s c f r).InForm :=
  h

theorem effInForm_intOp1 {op : Int → Int} {s c f} (h : InForm s) : (intOp1 s c f op).InForm :=
  effInForm_vecResult h

theorem effInForm_intOp2 {op : Int → Int → Int} {s c f} (h : InForm s) : (intOp2 s c f op).InForm :=
  effInForm_vecResult h

theorem effInForm_bitOp2 {op : DWord → DWord → DWord} {s c f} (h : InForm s) : (bitOp2 s c f op).InForm :=
  effInForm_vecResult h

theorem effInForm_shiftOp {op : DWord → Nat → DWord} {s c f} (h : InForm s) : (shiftOp s c f op).InForm :=
  effInForm_vecResult h

/-! ### Vector accesses of scratchpad -/

theorem effInForm_loadLanes {s f c accs} (h : InForm s) : (loadLanes f s c accs).InForm := by
  unfold loadLanes
  split
  · exact effInForm_missEff
  · exact effInForm_vecResult h

theorem effInForm_storeLanes {s f c accs} (h : InForm s) : (storeLanes f s c accs).InForm := by
  unfold storeLanes
  split
  · exact effInForm_missEff
  · exact effInForm_next (inForm_foldl_fst (fun _ _ h => inForm_threadStore h) h)

theorem effInForm_vldEff {s f c} (h : InForm s) : (vldEff f s c).InForm :=
  effInForm_loadLanes h

theorem effInForm_vstEff {s f c} (h : InForm s) : (vstEff f s c).InForm :=
  effInForm_storeLanes h

theorem effInForm_vldxEff {s f c} (h : InForm s) : (vldxEff f s c).InForm :=
  effInForm_loadLanes h

theorem effInForm_vstxEff {s f c} (h : InForm s) : (vstxEff f s c).InForm :=
  effInForm_storeLanes h

theorem inForm_atomLane {s f c off v b} (h : InForm s) : InForm (atomLane f s c off v b).1 :=
  inForm_scratchPut h

theorem inForm_atomLanes {f : VX} {c : Ctx} {xs : List (Option Nat × DWord × DWord)} {s : State} (h : InForm s) : InForm (atomLanes f c xs s).1 := by
  induction xs generalizing s with
  | nil => exact h
  | cons x xs ih =>
    obtain ⟨off, v, b⟩ := x
    cases off with
    | none => exact ih h
    | some off => exact ih (inForm_atomLane h)

theorem effInForm_vatomDo {s f c} (h : InForm s) : (vatomDo f s c).InForm := by
  unfold vatomDo
  split
  · exact effInForm_missEff
  · exact effInForm_vecResult (inForm_atomLanes h)

theorem effInForm_vatomEff {s f c} (h : InForm s) : (vatomEff f s c).InForm :=
  effInForm_ite h (effInForm_vatomDo h)

/-! ### The return from a trap and the operand log -/

theorem gives_memEff {s i c} (h : InForm s) : Gives Eff.InForm (memEff i s c) := by
  unfold memEff
  split
  · exact gives_some (effInForm_sldEff h)
  · exact gives_some (effInForm_sstEff h)
  · exact gives_some (effInForm_sldaEff h)
  · exact gives_some (effInForm_vldEff h)
  · exact gives_some (effInForm_vstEff h)
  · exact gives_some (effInForm_vldxEff h)
  · exact gives_some (effInForm_vstxEff h)
  · exact gives_some (effInForm_vatomEff h)
  · exact gives_none

theorem gives_memDo {s i c} (h : InForm s) : Gives Eff.InForm (memDo i s c) := by
  unfold memDo
  split
  · exact gives_some (effInForm_sldaDo h)
  · exact gives_some (effInForm_vatomDo h)
  · exact gives_memEff h

theorem inForm_replayOne {perform : Instr → State → Ctx → Option Eff} {s : State} {k : Nat} {e : LogEntry} (h : InForm s)
    (hp : ∀ i c, Gives Eff.InForm (perform i s c)) : InForm (replayOne perform s k e).1 := by
  unfold replayOne
  split
  · exact h
  next c _ =>
    have he := gives_ite (p := (isVector e.inst && execMask c.g == 0) = true) (gives_some (effInForm_next (g := c.g) h)) (hp e.inst c)
    dsimp only
    split
    next e1 => exact inForm_logicalTick (inForm_countWg (he _ e1))
    · exact inForm_takeTrap h
    · exact inForm_takeTrap h
    next e1 => exact he _ e1
    · exact h

theorem inForm_replay {n : Nat} {s : State} {k : Nat} (h : InForm s) : InForm (replay n s k) := by
  induction n generalizing s with
  | zero => exact h
  | succ n ih =>
    unfold replay
    split
    · exact h
    · split
      · exact h
      · have hr := inForm_replayOne (perform := memEff) (k := k) (e := ‹LogEntry›) h (fun _ _ => gives_memEff h)
        exact inForm_ite (ih hr) hr

theorem inForm_heldTick {s k} (h : InForm s) : InForm (heldTick s k) := by
  unfold heldTick
  split
  · exact inForm_ite (inForm_deliverTick h) h
  · exact h

theorem effInForm_rftEff {s f c} (h : InForm s) : (rftEff f s c).InForm :=
  effInForm_ite effInForm_privTrap (effInForm_ite (effInForm_jumpTo h) h)

theorem inForm_rftAfter {s k} (h : InForm s) : InForm (rftAfter s k) :=
  inForm_heldTick (inForm_replay h)

theorem keeps_execRft {f : S2} {s : State} (h : InForm s) : Keeps (execRft f s) := by
  have hi := keeps_issue (i := .rft f) (body := rftEff f s) h (fun _ => effInForm_rftEff h)
  unfold execRft
  split
  next t e =>
    rw [e] at hi
    split
    · exact keeps_next (inForm_ite (inForm_rftAfter hi) hi)
    · exact hi
  · exact hi

/-! ### Commits of DET launches -/

theorem keeps_execQuantumEnd {s group} (h : InForm s) : Keeps (execQuantumEnd group s) := by
  unfold execQuantumEnd
  split
  · exact keeps_ite h h
  · exact h

theorem inForm_bringBack {s groups key w} (h : InForm s) : InForm (bringBack groups s key w) :=
  inForm_foldl (fun _ _ h => h) (inForm_restoreTape h)

theorem inForm_rewriteRecord {gs : List (Nat × Group)} {s key k w} (h : InForm s) : InForm (rewriteRecord s key k w gs) := by
  unfold rewriteRecord
  dsimp only
  split
  · exact inForm_writeRecord h
  · exact h

theorem inForm_sendBack {s key w0} (h : InForm s) : InForm (sendBack s key w0) := by
  unfold sendBack
  split
  · exact h
  · dsimp only
    split
    · exact inForm_ite h (inForm_rewriteRecord h)
    · exact h

theorem inForm_leaveTiles {s lid} (h : InForm s) : InForm (leaveTiles s lid) :=
  inForm_foldl (fun _ _ h => inForm_tileLeave h) h

theorem inForm_closePhases {s lid} (h : InForm s) : InForm (closePhases s lid) := by
  unfold closePhases
  split <;> exact h

theorem inForm_finishReady {s lid k} (h : InForm s) : InForm (finishReady s lid k) :=
  inForm_closePhases (inForm_foldl (fun _ _ h => inForm_finishOp h) h)

theorem inForm_deliverQuantum {n : Nat} {s : State} {domain : Nat} {lim : BitVec 48} (h : InForm s) : InForm (deliverQuantum n s domain lim) := by
  induction n generalizing s with
  | zero => exact h
  | succ n ih =>
    unfold deliverQuantum
    split
    · split
      · split
        next e => exact ih (gives_deliverNext h _ e)
        · exact h
      · exact h
    · exact h

theorem inForm_deliverOwn {s lid k} (h : InForm s) : InForm (deliverOwn s lid k) :=
  inForm_foldl (fun _ _ h => inForm_ite h (inForm_deliver h)) h

theorem inForm_deliver0 {n : Nat} {s : State} {ps : List RemotePacket} (h : InForm s) : InForm (deliver0 n s ps) := by
  induction n generalizing s ps with
  | zero => exact h
  | succ n ih =>
    unfold deliver0
    split
    · exact ih (inForm_performWaiting h)
    · exact h

theorem inForm_setShown {s lid on} (h : InForm s) : InForm (setShown s lid on) := by
  unfold setShown
  dsimp only
  split <;> exact h

theorem inForm_applyStores {s k} (h : InForm s) : InForm (applyStores s k) := by
  unfold applyStores
  split
  · exact h
  · split <;> exact h

theorem gives_commitEff {s i c} (h : InForm s) : Gives Eff.InForm (commitEff i s c) := by
  unfold commitEff
  split
  · exact gives_some (effInForm_sldaDo h)
  · exact gives_some (effInForm_vatomDo h)
  · exact gives_some (effInForm_baraDo h)
  · exact gives_some (effInForm_barawDo h)
  · exact gives_some (effInForm_launchDo h)
  · exact gives_map (fun _ => effInForm_taskendDo h)
  · exact gives_none

theorem inForm_commitGroup {s : State} {k : Nat} (h : InForm s) : InForm (commitGroup s k) := by
  unfold commitGroup
  split
  · exact h
  next g _ =>
    refine inForm_ite h ?_
    have h1 : InForm (putGroup s k { g with status := .run }) := h
    dsimp only
    split
    · have hr := inForm_replayOne (perform := memDo) (k := k) (e := ‹LogEntry›) h1 (fun _ _ => gives_memDo h1)
      exact inForm_ite (inForm_heldTick (inForm_replay hr)) hr
    · split
      · split
        · split
          next e => exact inForm_settle h1 (gives_commitEff h1 _ e)
          · exact h1
        · exact h1
      · exact h1

theorem inForm_applyLeft {s x} (h : InForm s) : InForm (applyLeft s x) := by
  unfold applyLeft
  split <;> exact h

theorem inForm_commitOne {s x} (h : InForm s) : InForm (commitOne s x) := by
  unfold commitOne
  split
  · exact inForm_giveTick (inForm_commitGroup (inForm_applyStores h))
  · exact inForm_applyLeft h

theorem inForm_promoteCandidates {s lid} (h : InForm s) : InForm (promoteCandidates s lid) :=
  inForm_foldl (fun _ _ h => inForm_getD (gives_promote h) h) h

theorem inForm_issueDeferred {x : Nat × Nat} {s lid k} (h : InForm s) : InForm (issueDeferred lid k s x) := by
  unfold issueDeferred
  split
  · exact inForm_ite h (inForm_activate (inForm_exportNamed h))
  · exact h

theorem inForm_advanceTables {s lid lcore k} (h : InForm s) : InForm (advanceTables s lid lcore k) :=
  inForm_foldl (fun _ _ h => inForm_advanceTable h) h

theorem inForm_issueAll {ops : List (Nat × Nat)} {s lid k} (h : InForm s) : InForm (issueAll s lid k ops) :=
  inForm_foldl (fun _ _ h => inForm_advanceTables (inForm_foldl (fun _ _ h => inForm_issueDeferred h) h)) h

theorem inForm_endQuantum {s lid groups left} (h : InForm s) : InForm (endQuantum s lid groups left) :=
  inForm_foldl (fun _ _ h => inForm_endWg h) h

theorem inForm_commitSteps {s : State} {lid : Nat} {l : Launch} (h : InForm s) : InForm (commitSteps s lid l) := by
  have h1 := inForm_ite (p := l.domain = 0) (inForm_deliver0 (n := (before0 s lid l.quantum).length) (ps := before0 s lid l.quantum) h)
    (inForm_deliverQuantum (n := (getPoint s l.domain).waiting.length) (domain := l.domain)
      (lim := BitVec.ofNat 48 (l.quantum % 2 ^ 20 * 2 ^ 28)) h)
  have h2 := inForm_deliverOwn (lid := lid) (k := l.quantum) h1
  unfold commitSteps
  dsimp only
  generalize deliverOwn _ _ _ = s2 at h2 ⊢
  have h3 : InForm ((commitOrder s2 lid l).foldl (fun s x => commitOne s x.2) s2) := inForm_foldl (fun _ _ h => inForm_commitOne h) h2
  generalize List.foldl _ s2 _ = s3 at h3 ⊢
  have h4 := inForm_promoteCandidates (lid := lid) (inForm_completeCBars (lid := lid) (inForm_completeBars (lid := lid) h3))
  generalize promoteCandidates _ _ = s4 at h4 ⊢
  split
  · exact h4
  next l4 _ =>
    have h5 : InForm (putLaunch s4 lid { l4 with carried := [] }) := h4
    exact inForm_endQuantum (inForm_issueAll h5)

theorem inForm_startQuantum {s lid k} (h : InForm s) : InForm (startQuantum s lid k) := by
  unfold startQuantum
  dsimp only
  split <;> exact h

theorem inForm_commitDo {s lid l} (h : InForm s) : InForm (commitDo s lid l) :=
  inForm_setShown (inForm_foldl (fun _ _ h => inForm_sendBack h) (inForm_startQuantum
    (inForm_commitSteps (inForm_finishReady (inForm_leaveTiles (inForm_foldl (fun _ _ h => inForm_bringBack h) (inForm_setShown h)))))))

theorem keeps_execDetCommit {s launch} (h : InForm s) : Keeps (execDetCommit launch s) := by
  unfold execDetCommit
  split
  · exact keeps_ite (keeps_next (inForm_commitDo h)) h
  · exact h

/-! ### Far atomics and sibling operations -/

theorem effInForm_farIssue {s c f ctr vd} (h : InForm s) : (farIssue s c f ctr vd).InForm :=
  effInForm_withX (fun _ => effInForm_copyIssue h)

theorem gives_sendReq {s core home op cell} (h : InForm s) : Gives InForm (sendReq s core home op cell) :=
  gives_ite (gives_some h) (gives_ite (gives_some h) (gives_map (fun _ => h)))

theorem inForm_applied {s : State} {op cell : Nat} {o : EngineOp} {seen : Seen} {vals : List (Nat × DWord)} (h : InForm s) :
    InForm (applied s op cell o seen vals) :=
  h

theorem inForm_rejected {s : State} {op cell : Nat} {o : EngineOp} (h : InForm s) : InForm (rejected s op cell o) :=
  h

theorem inForm_farAtHome {s l op cell o x aop wide signed lanes} (h : InForm s) : InForm (farAtHome s l op cell o x aop wide signed lanes) := by
  unfold farAtHome
  dsimp only
  split
  · exact inForm_rejected h
  · exact inForm_ite (inForm_applied h) (inForm_applied (inForm_writePlain h))

theorem keeps_execFarAtomicAtHome {s op cell} (h : InForm s) : Keeps (execFarAtomicAtHome op cell s) := by
  unfold execFarAtomicAtHome
  split
  · split
    · dsimp only
      split
      · split
        next e2' => exact keeps_next (inForm_farAtHome (gives_sendReq h _ e2'))
        · exact h
      · exact h
    · exact h
  · exact h

theorem inForm_resendReq {s op cell o} (h : InForm s) : InForm (resendReq s op cell o) :=
  inForm_ite h h

theorem keeps_execFarAtomicResend {s op cell} (h : InForm s) : Keeps (execFarAtomicResend op cell s) := by
  unfold execFarAtomicResend
  split
  · split
    · split
      · exact h
      · split
        · exact keeps_ite h (keeps_next (inForm_getD (gives_sendReq h) h))
        · exact keeps_ite h (keeps_ite (keeps_next (inForm_resendReq h)) h)
    · exact h
  · exact h

theorem keeps_execSkGetAtHome {s op cell} (h : InForm s) : Keeps (execSkGetAtHome op cell s) := by
  unfold execSkGetAtHome
  split
  · split
    next x1 _ _ _ _ _ _ =>
      dsimp only
      split
      · split
        · exact keeps_next (inForm_rejected h)
        next e2' =>
          split
          · exact h
          next e2' => exact keeps_next (inForm_rejected (inForm_foldl (fun _ _ h => inForm_opWrite h) (gives_sendReq h _ e2')))
      · exact h
    · exact h
  · exact h

theorem keeps_execSkPutAtHome {s op lane} (h : InForm s) : Keeps (execSkPutAtHome op lane s) := by
  unfold execSkPutAtHome
  split
  · split
    · dsimp only
      split
      · split
        · split
          · exact keeps_next (inForm_rejected h)
          · split
            next e4 _ => exact keeps_next (inForm_applied (inForm_putCell (gives_sendReq h _ e4)))
            next e3 _ => exact keeps_next (inForm_applied (gives_sendReq h _ e3))
            · exact h
        · exact h
      · exact h
    · exact h
  · exact h

theorem keeps_execSkReconcileAtHome {s op cell} (h : InForm s) : Keeps (execSkReconcileAtHome op cell s) := by
  unfold execSkReconcileAtHome
  split
  · split
    · dsimp only
      split
      · split
        · exact keeps_next (inForm_rejected h)
        next e2' =>
          split
          · exact h
          next e2' => exact keeps_next (inForm_applied (inForm_putCell (gives_sendReq h _ e2')))
      · exact h
    · exact h
  · exact h

/-! ### Notification and migration -/

theorem inForm_putPending {s} (h : InForm s) : InForm (putPending s) :=
  inForm_memPut h

theorem inForm_drainPending {n : Nat} {s : State} (h : InForm s) : InForm (drainPending n s) := by
  induction n generalizing s with
  | zero => exact h
  | succ n ih =>
    unfold drainPending
    split
    · exact h
    · exact inForm_ite h (ih (inForm_putPending (inForm_ringPut h)))

theorem inForm_drainNotes {s} (h : InForm s) : InForm (drainNotes s) :=
  inForm_drainPending (inForm_drainKept h)

theorem inForm_report {s launch range e} (h : InForm s) : InForm (report s launch range e) :=
  inForm_ite (inForm_ringPut h) (inForm_ringBump (inForm_putPending h))

theorem inForm_judge {s launch range misses majdie} (h : InForm s) : InForm (judge s launch range misses majdie) := by
  unfold judge
  split
  · exact h
  · split
    · exact h
    · exact inForm_ite h (inForm_report (inForm_ite h h))

theorem inForm_moveBytes {s : State} {src dst n : Nat} (h : InForm s) : InForm (moveBytes s src dst n) := by
  obtain ⟨hm, hp, hk⟩ := h
  obtain ⟨hm1, hm2⟩ := movedRange_wf 0 s.mem src n dst hm
  obtain ⟨hp1, hp2⟩ := movedRange_wf false s.mpoison (src / 8) (n / 8) (dst / 8) hp
  exact ⟨replaceRange_wf 0 _ _ _ _ hm hm1 hm2, replaceRange_wf false _ _ _ _ hp hp1 hp2, hk⟩

theorem inForm_moveBramble {s n x n2} (h : InForm s) : InForm (moveBramble s n x n2) :=
  inForm_ite (inForm_memPut (inForm_moveBytes h)) h

/-- Putting new entries in place of a range of a table keeps its keys rising. -/
theorem tblWf_replaceRange {α : Type} {t new : Tbl α} {lo n : Nat} (ht : tblWf t = true) (hn : tblWf new = true)
    (hin : ∀ p ∈ new, lo ≤ p.1 ∧ p.1 < lo + n) : tblWf (replaceRange t lo n new) = true := by
  unfold replaceRange
  refine tblWf_append _ _ (tblWf_append _ _ (tblWf_filter _ _ ht) hn ?_) (tblWf_filter _ _ ht) ?_
  · intro p hp q hq
    have h1 := of_decide_eq_true (List.mem_filter.1 hp).2
    have h2 := (hin q hq).1
    omega
  · intro p hp q hq
    have h2 := of_decide_eq_true (List.mem_filter.1 hq).2
    rcases List.mem_append.1 hp with hp | hp
    · have h1 := of_decide_eq_true (List.mem_filter.1 hp).2
      omega
    · have h1 := (hin p hp).2
      omega

/-- Entries at consecutive keys have their keys rising. -/
theorem tblWf_consecutive {α : Type} (base : Nat) (f : Nat → α) (n : Nat) : tblWf ((List.range n).map (fun j => (base + j, f j))) = true := by
  have key : ∀ b, tblWf ((List.range' b n).map (fun j => (base + j, f j))) = true := by
    induction n with
    | zero => exact fun b => rfl
    | succ n ih =>
      intro b
      refine (tblWf_cons _ _ _).2 ⟨fun p hp => ?_, ih (b + 1)⟩
      obtain ⟨j, hj, rfl⟩ := List.mem_map.1 hp
      have := (List.mem_range'_1.1 hj).1
      simp only
      omega
  rw [List.range_eq_range']
  exact key 0

theorem inForm_movePage {s : State} {asid : Nat} {f : Leaf} {frame bramble : Nat} (h : InForm s) : InForm (movePage s asid f frame bramble) := by
  obtain ⟨hm, hp, -⟩ := inForm_moveBytes (src := f.pa) (dst := frame) (n := f.size) h
  obtain ⟨-, -, hk⟩ := h
  refine inForm_moveBramble (inForm_memPut ⟨hm, hp, tblWf_replaceRange (tblWf_replaceRange hk rfl (by simp)) ?_ ?_⟩)
  · split
    · exact tblWf_consecutive _ _ _
    · rfl
  · intro p hmem
    split at hmem
    · obtain ⟨j, hj, rfl⟩ := List.mem_map.1 hmem
      have := List.mem_range.1 hj
      simp only
      omega
    · cases hmem

theorem inForm_endUnit {s u e} (h : InForm s) : InForm (endUnit s u e) :=
  inForm_noteKept h

theorem inForm_abortUnit {s u pa reason} (h : InForm s) : InForm (abortUnit s u pa reason) :=
  inForm_endUnit h

theorem inForm_poisonLine {s : State} {ls : List Leaf} {page off : Nat} (h : InForm s) : InForm (poisonLine s ls page off) := by
  unfold poisonLine
  split
  · refine inForm_foldl (fun s j h => ?_) h
    split
    · exact inForm_putCell h
    · exact inForm_mark h
  · exact h

theorem gives_badCopy {s ls outcome} (h : InForm s) : Gives InForm (badCopy s ls outcome) := by
  unfold badCopy
  split
  · exact gives_some (inForm_poisonLine h)
  · exact gives_ite (gives_some h) gives_none

theorem keeps_execMigrationUnit {s asid va place outcome} (h : InForm s) : Keeps (execMigrationUnit asid va place outcome s) := by
  unfold execMigrationUnit
  split
  · exact h
  · split
    · exact h
    · split
      · exact h
      · split
        next e2' => exact keeps_next (inForm_abortUnit (gives_badCopy h _ e2'))
        · exact keeps_ite (keeps_ite h (keeps_next (inForm_abortUnit h)))
            (keeps_next (inForm_endUnit (inForm_foldl (fun _ _ h => inForm_movePage h) h)))

/-! ### Boot, hosts, links and errors -/

theorem inForm_barRead {s fn off n} (h : InForm s) : InForm (barRead s fn off n) :=
  inForm_ite h h

theorem inForm_hostCell {c : Nat × List PByte} {s fn} (h : InForm s) : InForm (hostCell fn s c) :=
  inForm_ite (inForm_raiseEvent h) (inForm_ite (inForm_raiseEvent h) (inForm_writeSk h))

theorem keeps_execHostCxlMemAccess {s fn access} (h : InForm s) : Keeps (execHostCxlMemAccess fn access s) := by
  unfold execHostCxlMemAccess
  split
  · exact keeps_next (inForm_barRead h)
  · exact keeps_next (inForm_ite h h)
  · exact keeps_next (inForm_ite h (inForm_foldl (fun _ _ h => inForm_ite (inForm_hostCell h) (inForm_writePlain h)) h))

theorem keeps_execHostSkAccess {s fn access} (h : InForm s) : Keeps (execHostSkAccess fn access s) := by
  unfold execHostSkAccess
  split
  · exact h
  · split
    · exact h
    · exact keeps_next (inForm_foldl (fun _ _ h => inForm_hostCell h) h)
    · exact h

theorem inForm_zeroTable {s : State} {qt : Nat} (h : InForm s) : InForm (zeroTable s qt) := by
  obtain ⟨hm, hp, hk⟩ := h
  exact ⟨replaceRange_wf 0 _ _ _ _ hm rfl (by simp), replaceRange_wf false _ _ _ _ hp rfl (by simp), tblWf_replaceRange hk rfl (by simp)⟩

theorem inForm_trainPort {s port trained farEnd} (h : InForm s) : InForm (trainPort s port trained farEnd) :=
  inForm_ite (inForm_memPut h) (inForm_ite (inForm_exclude (inForm_memPut h)) (inForm_memPut h))

theorem inForm_trainPorts {s ports} (h : InForm s) : InForm (trainPorts s ports) := by
  unfold trainPorts
  refine inForm_foldl ?_ h
  intro s x1 h
  split
  · exact inForm_trainPort h
  · exact inForm_trainPort (inForm_memPut h)

theorem keeps_execIoDieReset {choice : BootChoice} {s : State} (h : InForm s) : Keeps (execIoDieReset choice s) := by
  have h1 : InForm (afterReset s) := h
  have h2 := inForm_memWrite (pa := choice.logaddr.toNat) (bs := bootLog choice) (inForm_zeroTable (qt := choice.qtbase.toNat) h1)
  generalize hs2 : memWrite _ _ _ = s2 at h2
  have h3 := inForm_trainPorts (s := bootTables s2 choice) (ports := choice.ports) h2
  subst hs2
  exact keeps_ite h1 (keeps_ite h (keeps_next (inForm_keptCells (s := s) h3)))

theorem keeps_execAttestationRequest {s half} (h : InForm s) : Keeps (execAttestationRequest half s) := by
  unfold execAttestationRequest
  split
  · exact h
  · split
    · exact keeps_next (inForm_ite h h)
    · exact keeps_ite h (keeps_next (inForm_memWrite h))

theorem keeps_execFirmwareLaunchHalt {s launch} (h : InForm s) : Keeps (execFirmwareLaunchHalt launch s) := by
  unfold execFirmwareLaunchHalt
  split
  · exact keeps_next (inForm_ite (inForm_faultAndHalt h) h)
  · exact h

theorem inForm_junction {s tj} (h : InForm s) : InForm (junction s tj) :=
  inForm_ite h (inForm_ite (inForm_raiseEvent h) (inForm_foldl (fun _ _ h => inForm_haltLaunch h) (inForm_raiseEvent h)))

theorem inForm_descriptorLost {s q} (h : InForm s) : InForm (descriptorLost s q) :=
  inForm_ite (inForm_queueFault (inForm_lookQueue h)) h

theorem keeps_execEccUncorrectable {target : EccTarget} {s : State} (h : InForm s) : Keeps (execEccUncorrectable target s) := by
  unfold execEccUncorrectable
  split
  · split
    · exact keeps_next (inForm_putCell h)
    · refine keeps_next (inForm_mark ?_)
      split
      · exact inForm_descriptorLost h
      · exact h
  · split
    · exact keeps_next (inForm_ite h h)
    · exact h
  · split
    · exact keeps_next (inForm_ite h h)
    · exact h
  · exact keeps_next (inForm_putCell h)
  · split
    · exact keeps_next (inForm_faultAndHalt h)
    · exact h
  · exact keeps_next (inForm_ite (inForm_descriptorLost h) h)

/-! ### Tile operations -/

theorem gives_unallocated {c : Ctx} {ts : List (Nat × BitVec 4)} : Gives Eff.InForm (unallocated c ts) := by
  induction ts with
  | nil => exact gives_none
  | cons t ts ih => exact gives_ite ih (gives_some effInForm_operandTrap)

theorem effInForm_besideTiles {e} (h : e.InForm) : (besideTiles e).InForm := by
  unfold besideTiles
  split
  · exact h
  · exact effInForm_ite trivial h
  · exact h

theorem effInForm_tileIssue {named : List (Nat × BitVec 4)} {s c wr rd body} (hbody : body.InForm) :
    (tileIssue s c wr rd named body).InForm := by
  unfold tileIssue
  dsimp only
  split
  · exact trivial
  · split
    · refine effInForm_besideTiles ?_
      split
      next e2 => exact gives_unallocated _ e2
      · exact hbody
    · split
      next e2 => exact gives_unallocated _ e2
      · exact hbody

theorem effInForm_tileOp {s : State} {c : Ctx} {t : TileAct} {wr rd : List Nat} {spans : List Span} (h : InForm s) :
    (tileOp s c t wr rd spans).InForm := by
  unfold tileOp
  exact effInForm_issueOp (inForm_tileLeave h)

theorem keeps_execTcfg {s f} (h : InForm s) : Keeps (execTcfg f s) := by
  unfold execTcfg
  refine keeps_issue h ?_
  intro c
  dsimp only
  split
  · exact trivial
  · split
    · split
      · exact effInForm_operandTrap
      · split
        next e3 => exact effInForm_next (inForm_of_next (effInForm_tileOp (inForm_tileLeave h)) e3 :)
        · exact effInForm_tileOp (inForm_tileLeave h)
    · split
      · exact effInForm_operandTrap
      · split
        next e3 => exact effInForm_next (inForm_of_next (effInForm_tileOp (inForm_tileLeave h)) e3 :)
        · exact effInForm_tileOp (inForm_tileLeave h)

theorem effInForm_tileScratch {xs : List (Int × Int × Bool)} {body : List Span → Eff} {s c mis} (hb : ∀ x, (body x).InForm) :
    (tileScratch s c mis xs body).InForm := by
  unfold tileScratch
  split
  · exact effInForm_raise
  · split
    · exact trivial
    · dsimp only
      split
      · exact trivial
      · exact hb _

theorem keeps_execTld {s f} (h : InForm s) : Keeps (execTld f s) :=
  keeps_issue h (fun _ => effInForm_tileIssue (effInForm_ite effInForm_operandTrap
    (effInForm_ite effInForm_operandTrap (effInForm_tileScratch (fun _ => effInForm_tileOp h)))))

theorem keeps_execTldw {s f} (h : InForm s) : Keeps (execTldw f s) :=
  keeps_issue h (fun _ => effInForm_tileIssue (effInForm_ite effInForm_operandTrap
    (effInForm_ite effInForm_operandTrap (effInForm_tileScratch (fun _ => effInForm_tileOp h)))))

theorem keeps_execTst {s f} (h : InForm s) : Keeps (execTst f s) :=
  keeps_issue h (fun _ => effInForm_tileIssue (effInForm_ite effInForm_operandTrap
    (effInForm_ite effInForm_operandTrap (effInForm_tileScratch (fun _ => effInForm_tileOp h)))))

theorem effInForm_shapeTrap {reason field t} : (shapeTrap reason field t).InForm :=
  effInForm_raise

theorem gives_mmaShape {x x2 x3 x4 x5 n n2 n3} : Gives Eff.InForm (mmaShape x x2 x3 x4 x5 n n2 n3) :=
  gives_ite (gives_some effInForm_shapeTrap) (gives_ite (gives_some effInForm_shapeTrap)
    (gives_ite (gives_some effInForm_shapeTrap) (gives_ite (gives_some effInForm_shapeTrap)
      (gives_ite (gives_some effInForm_shapeTrap) (gives_ite (gives_some effInForm_shapeTrap)
        (gives_ite (gives_some effInForm_shapeTrap) (gives_ite (gives_some effInForm_shapeTrap) gives_none)))))))

theorem keeps_execTmma {s f} (h : InForm s) : Keeps (execTmma f s) := by
  unfold execTmma
  refine keeps_issue h ?_
  intro c
  refine effInForm_tileIssue ?_
  split
  · exact effInForm_operandTrap
  · split
    next e2 => exact gives_mmaShape _ e2
    · exact effInForm_tileOp h

theorem keeps_execTcomb {s f} (h : InForm s) : Keeps (execTcomb f s) :=
  keeps_issue h (fun _ => effInForm_tileIssue (effInForm_ite effInForm_operandTrap
    (effInForm_ite effInForm_operandTrap (effInForm_ite effInForm_operandTrap (effInForm_tileOp h)))))

theorem keeps_execTcvt {s f} (h : InForm s) : Keeps (execTcvt f s) :=
  keeps_issue h (fun _ => effInForm_tileIssue (effInForm_ite effInForm_operandTrap (effInForm_tileScratch (fun _ => effInForm_tileOp h))))

theorem inForm_tileStore {s x x2 n x3} (h : InForm s) : InForm (tileStore s x x2 n x3).1 := by
  unfold tileStore
  split
  · exact h
  · split <;> exact h

theorem inForm_storeRows {s x x2 x3 n n2} (h : InForm s) : InForm (storeRows s x x2 x3 n n2).1 :=
  inForm_foldl_fst (fun _ _ h => inForm_tileStore h) h

theorem inForm_cvtRows {s x x2 x3 n n2 n3 n4} (h : InForm s) : InForm (cvtRows s x x2 x3 n n2 n3 n4).1.1 :=
  inForm_foldl_fst_fst (fun _ _ h => inForm_tileStore h) h

theorem inForm_tilePerform {s g det t pal} (h : InForm s) : InForm (tilePerform s g det t pal).1.1 := by
  unfold tilePerform
  split
  · exact h
  · exact h
  · exact h
  · exact h
  · exact h
  · exact h
  · exact h
  · exact inForm_storeRows h
  · exact h
  · exact h
  · exact inForm_cvtRows h
  · exact h

theorem inForm_tileDone {s n o k g report} (h : InForm s) : InForm (tileDone s n o k g report) := by
  unfold tileDone
  split
  · exact inForm_ite h (inForm_performedOp h)
  · exact inForm_performedOp h

theorem keeps_execTileOpComplete {s op} (h : InForm s) : Keeps (execTileOpComplete op s) := by
  unfold execTileOpComplete
  split
  · split
    · exact keeps_ite (keeps_next (inForm_tileDone (inForm_tilePerform h))) h
    · exact h
  · exact h

/-! ### Vector moves -/

theorem effInForm_fpFinish {s c r g} (h : InForm s) : (fpFinish s c r g).InForm :=
  effInForm_ite trivial h

theorem effInForm_fpResult {rs : List (Nat × Flags)} {s c f w sn} (h : InForm s) : (fpResult s c f w rs sn).InForm :=
  effInForm_fpFinish h

theorem effInForm_redResult {r : List (DWord × Flags)} {s c f} (h : InForm s) : (redResult s c f r).InForm :=
  effInForm_fpResult h

/-! ### Vector floating point -/

theorem effInForm_fpOp1 {op : Nat → Nat × Flags} {s c f} (h : InForm s) : (fpOp1 s c f op).InForm :=
  effInForm_fpResult h

theorem effInForm_fpOp2 {op : Nat → Nat → Nat × Flags} {s c f} (h : InForm s) : (fpOp2 s c f op).InForm :=
  effInForm_fpResult h

/-! ### Every instruction and event -/

theorem keeps_exec {i s} (h : InForm s) : Keeps (exec i s) := by
  cases i with
  | nop => exact keeps_issue h (fun _ => h)
  | endg => exact keeps_execEndg h
  | trap => exact keeps_issue h (fun _ => h)
  | rft => exact keeps_execRft h
  | yield => exact keeps_issue h (fun _ => h)
  | clkr => exact keeps_issue h (fun _ => h)
  | idr => exact keeps_issue h (fun _ => h)
  | sysr => exact keeps_issue h (fun _ => effInForm_ite effInForm_privTrap h)
  | sysw => exact keeps_execSysw h
  | fence => exact keeps_issue h (fun _ => effInForm_ite h h)
  | ret => exact keeps_issue h (fun _ => effInForm_jumpTo h)
  | jmp => exact keeps_issue h (fun _ => effInForm_jumpTo h)
  | wait => exact keeps_execWait h
  | sadd => exact keeps_issue h (fun _ => effInForm_arith h)
  | ssub => exact keeps_issue h (fun _ => effInForm_arith h)
  | smul => exact keeps_issue h (fun _ => effInForm_arith h)
  | smulh => exact keeps_issue h (fun _ => effInForm_arith h)
  | sand => exact keeps_issue h (fun _ => effInForm_arith h)
  | sor => exact keeps_issue h (fun _ => effInForm_arith h)
  | sxor => exact keeps_issue h (fun _ => effInForm_arith h)
  | sandn => exact keeps_issue h (fun _ => effInForm_arith h)
  | sshl => exact keeps_issue h (fun _ => effInForm_arith h)
  | sshr => exact keeps_issue h (fun _ => effInForm_arith h)
  | ssra => exact keeps_issue h (fun _ => effInForm_arith h)
  | smin => exact keeps_issue h (fun _ => effInForm_arith h)
  | smax => exact keeps_issue h (fun _ => effInForm_arith h)
  | smov => exact keeps_issue h (fun _ => effInForm_arith h)
  | spopc => exact keeps_issue h (fun _ => effInForm_arith h)
  | sclz => exact keeps_issue h (fun _ => effInForm_arith h)
  | saddi => exact keeps_issue h (fun _ => h)
  | sli => exact keeps_issue h (fun _ => h)
  | sliLit => exact keeps_issue h (fun _ => h)
  | brc => exact keeps_issue h (fun _ => effInForm_ite h h)
  | call => exact keeps_issue h (fun _ => effInForm_ite h h)
  | scmp => exact keeps_issue h (fun _ => h)
  | ssel => exact keeps_issue h (fun _ => h)
  | sbfx => exact keeps_issue h (fun _ => h)
  | sbfi => exact keeps_issue h (fun _ => h)
  | sld => exact keeps_issue h (fun _ => effInForm_sldEff h)
  | sst => exact keeps_issue h (fun _ => effInForm_sstEff h)
  | slda => exact keeps_issue h (fun _ => effInForm_sldaEff h)
  | msplit => exact keeps_issue h (fun _ => h)
  | mopen => exact keeps_issue h (fun _ => h)
  | marrive => exact keeps_issue h (fun _ => effInForm_ite effInForm_operandTrap h)
  | mjoin => exact keeps_issue h (fun _ => effInForm_ite effInForm_operandTrap (effInForm_ite effInForm_raise h))
  | mmov => exact keeps_issue h (fun _ => h)
  | mpopc => exact keeps_issue h (fun _ => h)
  | palset => exact keeps_issue h (fun _ => effInForm_ite effInForm_operandTrap h)
  | palget => exact keeps_issue h (fun _ => h)
  | fpcset => exact keeps_issue h (fun _ => effInForm_ite effInForm_operandTrap h)
  | fpcget => exact keeps_issue h (fun _ => h)
  | fork => exact keeps_execFork h
  | vfork => exact keeps_execVfork h
  | join => exact keeps_execJoin h
  | taskend => exact keeps_execTaskend h
  | launch => exact keeps_issue h (fun _ => effInForm_orCommit h (effInForm_launchDo h))
  | waitw => exact keeps_execWaitw h
  | bara => exact keeps_issue h (fun _ => effInForm_orCommit h (effInForm_baraDo h))
  | barw => exact keeps_issue h (fun _ => effInForm_barwDo h)
  | baraw => exact keeps_issue h (fun _ => effInForm_orCommit h (effInForm_barawDo h))
  | vadd => exact keeps_issue h (fun _ => effInForm_intOp2 h)
  | vsub => exact keeps_issue h (fun _ => effInForm_intOp2 h)
  | vmul => exact keeps_issue h (fun _ => effInForm_intOp2 h)
  | vmulh => exact keeps_issue h (fun _ => effInForm_intOp2 h)
  | vmad => exact keeps_issue h (fun _ => effInForm_vecResult h)
  | vabs => exact keeps_issue h (fun _ => effInForm_intOp1 h)
  | vmin => exact keeps_issue h (fun _ => effInForm_intOp2 h)
  | vmax => exact keeps_issue h (fun _ => effInForm_intOp2 h)
  | vand => exact keeps_issue h (fun _ => effInForm_bitOp2 h)
  | vor => exact keeps_issue h (fun _ => effInForm_bitOp2 h)
  | vxor => exact keeps_issue h (fun _ => effInForm_bitOp2 h)
  | vandn => exact keeps_issue h (fun _ => effInForm_bitOp2 h)
  | vshl => exact keeps_issue h (fun _ => effInForm_shiftOp h)
  | vshr => exact keeps_issue h (fun _ => effInForm_shiftOp h)
  | vsra => exact keeps_issue h (fun _ => effInForm_shiftOp h)
  | vpopc => exact keeps_issue h (fun _ => effInForm_vecResult h)
  | vclz => exact keeps_issue h (fun _ => effInForm_vecResult h)
  | vbfx => exact keeps_issue h (fun _ => effInForm_vecResult h)
  | vbfi => exact keeps_issue h (fun _ => effInForm_vecResult h)
  | vcmp => exact keeps_issue h (fun _ => h)
  | vsel => exact keeps_issue h (fun _ => h)
  | vmov => exact keeps_issue h (fun _ => effInForm_vecResult h)
  | vlane => exact keeps_issue h (fun _ => effInForm_vecResult h)
  | vins => exact keeps_issue h (fun _ => h)
  | vfadd => exact keeps_issue h (fun _ => effInForm_fpOp2 h)
  | vfsub => exact keeps_issue h (fun _ => effInForm_fpOp2 h)
  | vfmul => exact keeps_issue h (fun _ => effInForm_fpOp2 h)
  | vfma => exact keeps_issue h (fun _ => effInForm_fpResult h)
  | vfdiv => exact keeps_issue h (fun _ => effInForm_fpOp2 h)
  | vfsqrt => exact keeps_issue h (fun _ => effInForm_fpOp1 h)
  | vfmin => exact keeps_issue h (fun _ => effInForm_fpOp2 h)
  | vfmax => exact keeps_issue h (fun _ => effInForm_fpOp2 h)
  | vfrcpa => exact keeps_issue h (fun _ => effInForm_fpOp1 h)
  | vfrsqa => exact keeps_issue h (fun _ => effInForm_fpOp1 h)
  | vfcmp => exact keeps_issue h (fun _ => effInForm_fpFinish h)
  | vfclass => exact keeps_issue h (fun _ => h)
  | vfrnd => exact keeps_issue h (fun _ => effInForm_fpOp1 h)
  | vfcvt => exact keeps_issue h (fun _ => effInForm_fpResult h)
  | vshuf => exact keeps_issue h (fun _ => effInForm_vecResult h)
  | vbcast => exact keeps_issue h (fun _ => effInForm_vecResult h)
  | vred => exact keeps_issue h (fun _ => effInForm_redResult h)
  | vscan => exact keeps_issue h (fun _ => effInForm_redResult h)
  | vld => exact keeps_issue h (fun _ => effInForm_vldEff h)
  | vst => exact keeps_issue h (fun _ => effInForm_vstEff h)
  | vldx => exact keeps_issue h (fun _ => effInForm_vldxEff h)
  | vstx => exact keeps_issue h (fun _ => effInForm_vstxEff h)
  | vatom => exact keeps_issue h (fun _ => effInForm_vatomEff h)
  | vslice => exact keeps_issue h (fun _ => effInForm_fpResult h)
  | vrand => exact keeps_issue h (fun _ => h)
  | tcfg => exact keeps_execTcfg h
  | tzero => exact keeps_issue h (fun _ => effInForm_tileIssue (effInForm_tileOp h))
  | tmov => exact keeps_issue h (fun _ => effInForm_tileIssue (effInForm_ite effInForm_operandTrap (effInForm_tileOp h)))
  | tflgGet => exact keeps_issue h (fun _ => effInForm_tileIssue (effInForm_tileOp h))
  | tflgSet => exact keeps_issue h (fun _ => effInForm_tileIssue (effInForm_ite effInForm_operandTrap (effInForm_tileOp h)))
  | tld => exact keeps_execTld h
  | tldw => exact keeps_execTldw h
  | tst => exact keeps_execTst h
  | tmma => exact keeps_execTmma h
  | tcomb => exact keeps_execTcomb h
  | tcvt => exact keeps_execTcvt h
  | tadd => exact keeps_issue h (fun _ => effInForm_tileIssue (effInForm_ite effInForm_operandTrap (effInForm_tileOp h)))
  | xset => exact keeps_issue h (fun _ => effInForm_ite effInForm_operandTrap (effInForm_ite trivial h))
  | xinv => exact keeps_issue h (fun _ => h)
  | grun => exact keeps_execGrun h
  | gsig => exact keeps_issue h (fun _ => effInForm_withX (fun _ => effInForm_ite effInForm_operandTrap (effInForm_copyIssue h)))
  | cfence => exact keeps_issue h (fun _ => h)
  | cpy => exact keeps_execCpy h
  | cpyx => exact keeps_issue h (fun _ => effInForm_dirX (fun _ => effInForm_copyIssue h))
  | cpyf => exact keeps_execCpyf h
  | fat => exact keeps_issue h (fun _ => effInForm_farIssue h)
  | fred => exact keeps_issue h (fun _ => effInForm_farIssue h)
  | skget => exact keeps_issue h (fun _ => effInForm_withX (fun _ => effInForm_ite effInForm_raise (effInForm_copyIssue h)))
  | skput => exact keeps_issue h (fun _ => effInForm_withX (fun _ => effInForm_copyIssue h))
  | skrec => exact keeps_issue h (fun _ => effInForm_withX (fun _ => effInForm_copyIssue h))
  | rst => exact keeps_execRst h
  | rsig => exact keeps_execRsig h
  | rwait => exact keeps_execRwait h
  | crun => exact keeps_execCrun h
  | cbar => exact keeps_execCbar h
  | ptime => exact keeps_issue h (fun _ => h)
  | submit => exact keeps_execSubmit h
  | operandLogTimeout => exact keeps_execOperandLogTimeout h
  | partitionIssueSelect => exact keeps_execPartitionIssueSelect h
  | timedHeartbeatTick => exact keeps_next (inForm_timedTicks h)
  | logicalHeartbeatTick => exact keeps_next (inForm_giveTick h)
  | waitwRecheck => exact keeps_execWaitwRecheck h
  | rwaitRecheck => exact keeps_execRwaitRecheck h
  | copyOpComplete => exact keeps_execCopyOpComplete h
  | tileOpComplete => exact keeps_execTileOpComplete h
  | collOpComplete => exact keeps_execCollOpComplete h
  | farAtomicAtHome => exact keeps_execFarAtomicAtHome h
  | farAtomicResend => exact keeps_execFarAtomicResend h
  | skGetAtHome => exact keeps_execSkGetAtHome h
  | skPutAtHome => exact keeps_execSkPutAtHome h
  | skReconcileAtHome => exact keeps_execSkReconcileAtHome h
  | graphNodeStart => exact keeps_execGraphNodeStart h
  | graphNodeFinish => exact keeps_execGraphNodeFinish h
  | graphLaunchRetry => exact keeps_execGraphLaunchRetry h
  | graphTimeout => exact keeps_execGraphTimeout h
  | stepNop => exact keeps_next (inForm_ite h (inForm_nopStep h))
  | stepPut => exact keeps_next (inForm_ite h (inForm_putStep h))
  | stepSig => exact keeps_next (inForm_ite h (inForm_sigStep h))
  | stepWait => exact keeps_next (inForm_ite h (inForm_waitStep h))
  | stepDone => exact keeps_next (inForm_ite h (inForm_doneStep h))
  | crunTimeout => exact keeps_execCrunTimeout h
  | beacon => exact keeps_next (inForm_ite (inForm_sendW h) h)
  | orderedPacketArrival => exact keeps_execOrderedPacketArrival h
  | orderedDelivery => exact keeps_next (inForm_ite h (inForm_getD (gives_deliverNext h) h))
  | unorderedDelivery => exact keeps_ite h (keeps_ite (keeps_next (inForm_discardRecord h)) (keeps_ite h (keeps_next (inForm_deliver h))))
  | remoteResend => exact keeps_execRemoteResend h
  | watermarkStall => exact keeps_execWatermarkStall h
  | sourceExclusion => exact keeps_next (inForm_exclude h)
  | podBarrierArrival => exact keeps_execPodBarrierArrival h
  | podBarrierRelease => exact keeps_execPodBarrierRelease h
  | podSyncChange => exact keeps_ite h (keeps_next (inForm_ite h (inForm_injectHeld h)))
  | tail => exact keeps_execTail h
  | reconcilePass => exact keeps_next (inForm_ite h (inForm_foldl (fun _ _ h => inForm_reconcileQueue h) h))
  | queueDeactivation => exact keeps_ite (keeps_next (inForm_putQ h)) h
  | workerQueueSelect => exact keeps_execWorkerQueueSelect h
  | sliceExpiry => exact keeps_execSliceExpiry h
  | nopPacket => exact keeps_execNopPacket h
  | launchPacket => exact keeps_execLaunchPacket h
  | writePacket => exact keeps_execWritePacket h
  | signalPacket => exact keeps_execSignalPacket h
  | wrsigPacket => exact keeps_execWrsigPacket h
  | waitsigPacket => exact keeps_execWaitsigPacket h
  | graphPacket => exact keeps_execGraphPacket h
  | fencePacket => exact keeps_execFencePacket h
  | leaseHold => exact keeps_execLeaseHold h
  | leaseDrop => exact keeps_execLeaseDrop h
  | copyPacket => exact keeps_execCopyPacket h
  | leaseWalkRetry => exact keeps_execLeaseWalkRetry h
  | launchEnd => exact keeps_execLaunchEnd h
  | workgroupPlace => exact keeps_execWorkgroupPlace h
  | workgroupResume => exact keeps_execWorkgroupResume h
  | preemptChoice => exact keeps_execPreemptChoice h
  | save => exact keeps_execSave h
  | flush => exact keeps_execFlush h
  | drainTimeout => exact keeps_execDrainTimeout h
  | forwardProgressSave => exact keeps_execForwardProgressSave h
  | quantumEnd => exact keeps_execQuantumEnd h
  | detCommit => exact keeps_execDetCommit h
  | notifyWindowClose => exact keeps_ite h (keeps_next (inForm_judge h))
  | notifyRdidxWrite => exact keeps_ite h (keeps_next (inForm_foldl (fun _ _ h => h) (inForm_drainNotes (inForm_memPut h))))
  | notifyEnable => exact keeps_next (inForm_ite h (inForm_drainNotes (inForm_memPut h)))
  | migrationUnit => exact keeps_execMigrationUnit h
  | hostSkAccess => exact keeps_execHostSkAccess h
  | hostFunctionFreeze => exact keeps_next (inForm_freezeFn h)
  | functionLevelReset => exact h
  | ioDieReset => exact keeps_execIoDieReset h
  | attestationRequest => exact keeps_execAttestationRequest h
  | lockstep => exact keeps_next (inForm_raiseEvent (inForm_foldl (fun _ _ h => inForm_haltLaunch (inForm_recordFault h)) h))
  | pwrlimWrite => exact keeps_next (inForm_ite h h)
  | infoBlockWrite => exact keeps_next (inForm_ite h h)
  | telemetryRefresh => exact keeps_next (inForm_junction h)
  | thermal => exact keeps_next (inForm_junction h)
  | linkTraining => exact keeps_next (inForm_ite h (inForm_noteAll (inForm_trainPort h)))
  | eccCorrected => exact keeps_next (inForm_ite (inForm_raiseEvent h) h)
  | eccUncorrectable => exact keeps_execEccUncorrectable h
  | scrubbing => exact h
  | hbmRowRepair => exact h
  | eventRecord => exact keeps_next (inForm_raiseEvent h)
  | eventRingRoom => exact keeps_next (inForm_ite h (inForm_drainEvents (inForm_memPut h)))
  | waitsigRecheck => exact keeps_execWaitsigRecheck h
  | hostCxlMemAccess => exact keeps_execHostCxlMemAccess h
  | notifyDisable => exact keeps_ite h (keeps_next (inForm_memPut h))
  | firmwareLaunchHalt => exact keeps_execFirmwareLaunchHalt h
  | activeSetRemoval => exact keeps_ite (keeps_next (inForm_noteAll (inForm_memPut h))) h

/-! ### One step -/

theorem keeps_step {s : State} (h : InForm s) : Keeps (step s) := by
  unfold step
  split
  next who _ =>
    have hf := fetchedInForm_fetched (who := who) h
    split
    · exact keeps_exec h
    next e => rw [e] at hf; exact hf
    · exact trivial
  · split
    · exact keeps_ite (keeps_exec h) trivial
    · exact h

/-- Settles O59: a step is one instruction or event of `exec`, and each of them keeps the forms. -/
theorem stepKeepsTheCanonicalForms : Obligations.StepKeepsTheCanonicalForms := by
  unfold Obligations.StepKeepsTheCanonicalForms
  intro s t hm hp hk e
  have h := keeps_step (s := s) ⟨hm, hp, hk⟩
  rw [e] at h
  exact h

end Sys2Proof.Machine
end

