-- ==== Sys2Proof/Proofs/ResetAndChecks.lean ====
section

/-! # The machine at reset and the checks of a lane access (O60, O8) -/

namespace Sys2Proof.Machine

/-! ## Reset -/

theorem memByte_reset (a : Nat) : memByte State.reset a = 0 := rfl

theorem ofBytes_replicate_zero (n : Nat) : ofBytes (List.replicate n 0) = 0 := by
  induction n with
  | zero => rfl
  | succ n ih =>
    show 0 + 256 * ofBytes (List.replicate n 0) = 0
    rw [ih]

theorem memBytes_reset (a n : Nat) : memBytes State.reset a n = List.replicate n 0 := by
  unfold memBytes
  induction n generalizing a with
  | zero => rfl
  | succ n ih => exact congrArg (0 :: ·) (ih (a + 1))

theorem memNat_reset (a n : Nat) : memNat State.reset a n = 0 := by
  rw [memNat, memBytes_reset, ofBytes_replicate_zero]

/-- With its control byte zero, a queue's descriptor is inactive. -/
theorem qDesc_active_of_ctl_zero {s : State} {q : Nat} (h : memNat s (qAddr s q + 10) 1 = 0) : (qDesc s q).active = false := by
  simp [qDesc, h]

theorem execMask_groupStart (launch wg gidx id part vbase tbase : Nat) (pc : DWord) :
    execMask (groupStart launch wg gidx id part vbase tbase pc) = BitVec.allOnes 128 := by
  show Mask.ofPair (BitVec.allOnes 64) (BitVec.allOnes 64) = BitVec.allOnes 128
  decide

theorem sreg_groupStart {launch wg gidx id part vbase tbase : Nat} {pc : DWord} {n : Nat} (hn : n < 158) :
    sreg (groupStart launch wg gidx id part vbase tbase pc) n = 0 := by
  have h1 : ¬ 158 = n := by omega
  have h2 : ¬ 159 = n := by omega
  simp [sreg, groupStart, mget, tget, h1, h2]

theorem vlane_groupStart (launch wg gidx id part vbase tbase : Nat) (pc : DWord) (n l : Nat) :
    vlane (groupStart launch wg gidx id part vbase tbase pc) n l = 0 := by
  show VReg.zero.getD l 0 = 0
  simp [VReg.zero]

/-- Settles O60: nothing is listed at reset, so every look-up gives its default. -/
theorem resetAndGroupStart : Obligations.ResetAndGroupStart := by
  unfold Obligations.ResetAndGroupStart
  refine ⟨⟨rfl, rfl, fun _ => ⟨rfl, rfl⟩, fun q => ⟨qDesc_active_of_ctl_zero (memNat_reset _ _), rfl, rfl, rfl, rfl⟩, rfl, rfl, rfl,
    memByte_reset, rfl, rfl, rfl⟩, ?_⟩
  intro launch wg gidx id part vbase tbase pc
  refine ⟨rfl, fun n hn => sreg_groupStart hn, execMask_groupStart .., rfl, fun _ _ => vlane_groupStart .., rfl, rfl, rfl, rfl, rfl, rfl, rfl, rfl,
    rfl, rfl, rfl, rfl, ?_⟩
  intro n hn
  match n, hn with
  | 0, _ | 1, _ | 2, _ | 3, _ | 5, _ | 7, _ | 8, _ | 9, _ | 10, _ | 11, _ | 12, _ | 13, _ => rfl
  | 4, _ | 6, _ => exact congrArg some (by decide : BitVec.extractLsb' 64 64 (0 : Mask) = 0)

/-! ## The checks of a lane access -/

/-- A workgroup whose core holds one tape entry, an empty one at byte 12: it begins where it ends. -/
def emptyEntryState : State :=
  { State.reset with cores := [(0, { Core.init with tape := [⟨0, 12, 12, true, none, none⟩] })] }

/-- A group of a workgroup at the base of core 0's scratchpad. -/
def emptyEntryCtx : Ctx :=
  ⟨0, groupStart 0 0 0 0 0 0 0 0, wgStart 0 0 0 0 0 0 0 0 [0] [] 0 0, bareLaunch probeKernel [], .nop {}, 4⟩

/-- The empty entry stops an access of the bytes 8 to 15, which lies around it. -/
theorem checkAcc_emptyEntry :
    (checkAcc emptyEntryState emptyEntryCtx true true false [⟨0, 8, 8⟩]).map (fun m => m.cause) = some cTAPE := by
  rfl

/-- Refutes O8: a tape entry with LO = HI covers no byte, and the statement lets an access around it pass; the model's `tapeStops`
compares the ends of the two ranges and does not ask that the entry's own range hold a byte, so it stops the access. -/
theorem not_accessChecksInOrder : ¬ Obligations.AccessChecksInOrder := by
  unfold Obligations.AccessChecksInOrder
  intro h
  obtain ⟨-, -, -, -, passes⟩ := h emptyEntryState emptyEntryCtx true false [⟨0, 8, 8⟩] (by decide)
  have none := congrArg (Option.map (fun m => m.cause)) (passes (by decide) (by decide) (by decide) (by decide))
  rw [checkAcc_emptyEntry] at none
  cases none

end Sys2Proof.Machine
end

