-- ==== Sys2Proof/Proofs/Boot.lean ====
section

/-! # Boot, attestation and lock-step (O52)

The lemmas on what a write of memory leaves alone (`Stored`), on numbers read back from memory and on tables with a range taken out serve
later proofs too. -/

namespace Sys2Proof.Machine

/-! ## What a write of memory leaves alone -/

/-- From `s` to `t` only memory has changed, and what stands beside it: poison marks, sibling cells, watched lines, the queues, the counts of
line requests, and event records that are held. -/
def Stored (s t : State) : Prop :=
  ∃ m p k l q w r e, t = { s with
    mem := m, mpoison := p, sk := k, lines := l, fe := { s.fe with queues := q, workers := w }, res := r, evHeld := e }

theorem Stored.refl (s : State) : Stored s s := ⟨_, _, _, _, _, _, _, _, rfl⟩

theorem Stored.trans {s t u : State} (h : Stored s t) (h' : Stored t u) : Stored s u := by
  obtain ⟨_, _, _, _, _, _, _, _, rfl⟩ := h
  obtain ⟨_, _, _, _, _, _, _, _, rfl⟩ := h'
  exact ⟨_, _, _, _, _, _, _, _, rfl⟩

theorem Stored.ite {p : Prop} [Decidable p] {s t u : State} (ht : Stored s t) (hu : Stored s u) : Stored s (if p then t else u) := by
  split <;> assumption

theorem Stored.foldl {α : Type} {f : State → α → State} (h : ∀ s x, Stored s (f s x)) (xs : List α) (s : State) : Stored s (xs.foldl f s) := by
  induction xs generalizing s with
  | nil => exact .refl s
  | cons x xs ih => exact (h s x).trans (ih _)

theorem Stored.groups {s t : State} (h : Stored s t) : t.groups = s.groups := by
  obtain ⟨_, _, _, _, _, _, _, _, rfl⟩ := h
  rfl

theorem Stored.launches {s t : State} (h : Stored s t) : t.launches = s.launches := by
  obtain ⟨_, _, _, _, _, _, _, _, rfl⟩ := h
  rfl

theorem Stored.stopped {s t : State} (h : Stored s t) : t.fe.stopped = s.fe.stopped := by
  obtain ⟨_, _, _, _, _, _, _, _, rfl⟩ := h
  rfl

theorem stored_memWrite (s : State) (a : Nat) (bs : List Byte) : Stored s (memWrite s a bs) := ⟨_, _, _, _, _, _, _, _, rfl⟩

theorem stored_memPut (s : State) (a n v : Nat) : Stored s (memPut s a n v) := stored_memWrite ..

theorem stored_putCell (s : State) (cell : Nat) (c : SkCell) : Stored s (putCell s cell c) := ⟨_, _, _, _, _, _, _, _, rfl⟩

/-- A queue that a write activates is looked at anew; nothing else follows. -/
theorem stored_activated (before after : State) (a n : Nat) : Stored after (activated before after a n) := by
  unfold activated
  dsimp only
  split
  · split
    · exact ⟨_, _, _, _, _, _, _, _, rfl⟩
    · exact .refl _
  · exact .refl _

theorem stored_writePlain (s : State) (a : Nat) (c : List PByte) : Stored s (writePlain s a c) :=
  Stored.trans (.ite ⟨_, _, _, _, _, _, _, _, rfl⟩ ⟨_, _, _, _, _, _, _, _, rfl⟩) (stored_activated ..)

theorem stored_writeSk (s : State) (a : Nat) (c : List PByte) : Stored s (writeSk s a c).1 := by
  unfold writeSk
  split
  · exact .refl s
  · split
    · exact .refl s
    · exact stored_putCell ..

theorem stored_homeWrite (s : State) (sk : Bool) (pa : Nat) (ds : List PByte) : Stored s (homeWrite s sk pa ds).1 := by
  have go : ∀ (cs : List (Nat × List PByte)) (p : State × Seen), Stored p.1 (cs.foldl
      (fun p ac => if sk then let r := writeSk p.1 ac.1 ac.2; (r.1, p.2 ||| r.2) else (writePlain p.1 ac.1 ac.2, p.2 ||| seenOK)) p).1 := by
    intro cs
    induction cs with
    | nil => exact fun p => .refl p.1
    | cons c cs ih =>
      intro p
      refine Stored.trans ?_ (ih _)
      cases sk
      · exact stored_writePlain ..
      · exact stored_writeSk ..
  exact go _ (s, 0)

theorem stored_countLine (s : State) (lid : Nat) (die : Option Nat) (va : Nat) : Stored s (countLine s lid die va) := by
  unfold countLine
  split
  · exact .refl s
  · split
    · exact .refl s
    · exact .ite ⟨_, _, _, _, _, _, _, _, rfl⟩ ⟨_, _, _, _, _, _, _, _, rfl⟩

theorem stored_countLines (s : State) (lid : Nat) (die : Option Nat) (va n : Nat) : Stored s (countLines s lid die va n) :=
  .foldl (fun s a => stored_countLine s lid die a) _ s

theorem stored_vaWrite (s : State) (lid asid va : Nat) (bs : List Byte) : Stored s (vaWrite s lid asid va bs) := by
  unfold vaWrite
  split
  · exact .ite ((stored_homeWrite ..).trans (stored_countLines ..)) (.refl s)
  · exact .refl s

theorem stored_ringPut (s : State) (hdr : Nat) (entry : List Byte) : Stored s (ringPut s hdr entry) :=
  (stored_memWrite ..).trans (stored_memPut ..)

theorem stored_raiseEvent (s : State) (r : EventRec) : Stored s (raiseEvent s r) :=
  .ite (.refl s) (.ite (stored_ringPut ..) (.ite ⟨_, _, _, _, _, _, _, _, rfl⟩ (stored_memPut ..)))

/-! ## Reading back a number -/

theorem memNat_congr {s t : State} {a n : Nat} (h : ∀ b, a ≤ b → b < a + n → memByte t b = memByte s b) : memNat t a n = memNat s a n :=
  congrArg ofBytes (mgetRun_congr 0 t.mem s.mem a n h)

theorem ofBytes_map_range (n v : Nat) : ofBytes ((List.range n).map (fun k => BitVec.ofNat 8 (v / 2 ^ (8 * k)))) = v % 2 ^ (8 * n) := by
  induction n generalizing v with
  | zero => simp [ofBytes, Nat.mod_one]
  | succ n ih =>
    have shift : ∀ k, v / 2 ^ (8 * (k + 1)) = v / 256 / 2 ^ (8 * k) := fun k => by
      rw [Nat.div_div_eq_div_mul]; congr 1; ring
    rw [List.range_succ_eq_map, List.map_cons, List.map_map]
    simp only [Function.comp_def, shift, ofBytes, ih, BitVec.toNat_ofNat]
    rw [show 2 ^ (8 * (n + 1)) = 256 * 2 ^ (8 * n) by ring, Nat.mod_mul]
    simp

theorem ofBytes_bytesOf (n v : Nat) : ofBytes (bytesOf n v) = v % 2 ^ (8 * n) := ofBytes_map_range n v

theorem mgetRun_eq_map {α : Type} (d : α) (t : Tbl α) (q n : Nat) : mgetRun d t q n = (List.range n).map (fun i => mget d t (q + i)) := by
  induction n generalizing q with
  | zero => rfl
  | succ n ih =>
    rw [mgetRun, ih, List.range_succ_eq_map, List.map_cons, List.map_map]
    simp [Function.comp_def, Nat.add_assoc, Nat.add_comm 1]

theorem memBytes_memWrite_same (s : State) (a : Nat) (bs : List Byte) : memBytes (memWrite s a bs) a bs.length = bs := by
  rw [memBytes, mgetRun_eq_map]
  refine List.ext_getElem (by simp) (fun i h1 h2 => ?_)
  rw [List.getElem_map, List.getElem_range]
  exact memByte_memWrite_in s a i bs h2

theorem memNat_memPut_same (s : State) (a n v : Nat) : memNat (memPut s a n v) a n = v % 2 ^ (8 * n) := by
  have h := memBytes_memWrite_same s a (bytesOf n v)
  rw [bytesOf_length] at h
  rw [memNat, memPut, h, ofBytes_bytesOf]

theorem memByte_memPut_out {s : State} {a n v b : Nat} (h : b < a ∨ a + n ≤ b) : memByte (memPut s a n v) b = memByte s b :=
  memByte_memWrite_out s a b _ (by rwa [bytesOf_length])

/-! ## Tables with a range taken out -/

theorem tget_append {α : Type} (t u : Tbl α) (k : Nat) : tget (t ++ u) k = (tget t k).or (tget u k) := by
  induction t with
  | nil => rfl
  | cons p t ih =>
    simp only [List.cons_append, tget]
    split
    · rfl
    · exact ih

theorem tget_filter_key {α : Type} (t : Tbl α) (p : Nat → Bool) (k : Nat) : tget (t.filter (fun e => p e.1)) k = if p k then tget t k else none := by
  induction t with
  | nil => simp [tget]
  | cons e t ih =>
    by_cases hp : p e.1 = true <;> by_cases hk : e.1 = k
    · subst hk; simp [hp, tget]
    · simp [hp, tget, hk, ih]
    · subst hk; simp [hp, ih]
    · simp [hp, tget, hk, ih]

theorem tget_replaceRange_nil {α : Type} (t : Tbl α) (lo n k : Nat) :
    tget (replaceRange t lo n []) k = if lo ≤ k ∧ k < lo + n then none else tget t k := by
  rw [replaceRange, List.append_nil, tget_append, tget_filter_key t (fun k => decide (k < lo)), tget_filter_key t (fun k => decide (lo + n ≤ k))]
  by_cases h1 : k < lo
  · have h2 : ¬lo + n ≤ k := by omega
    have h3 : ¬lo ≤ k := by omega
    simp [h1, h2, h3]
  · by_cases h2 : lo + n ≤ k
    · have h3 : ¬k < lo + n := by omega
      simp [h1, h2, h3]
    · have h3 : lo ≤ k ∧ k < lo + n := by omega
      simp [h1, h2, h3]

/-! ## Boot -/

/-- The word that the port table holds for a port's first training: zero for a link that has not trained. -/
def portWord : Option DWord → Nat
  | some far => 2 ^ 15 + farBits far
  | none => 0

/-- The first training of one port. -/
def firstTraining (s : State) (p : Nat) (o : Option DWord) : State :=
  match o with
  | some far => trainPort s p true far
  | none => trainPort (memPut s (portAddr s p) 8 0) p false 0

theorem portWord_lt (o : Option DWord) : portWord o < 2 ^ (8 * 8) := by
  cases o with
  | none => decide
  | some far =>
    show 2 ^ 15 + farBits far < 2 ^ 64
    unfold farBits
    split <;> omega

/-- What training one port does: memory becomes that of `t`, which differs in the port's word alone, and the active set `act`, which differs in
the port alone. A link that has not trained has the word zero, so it names no far end to exclude. -/
theorem firstTraining_eq (s : State) (p : Nat) (o : Option DWord) :
    ∃ t act, firstTraining s p o = { t with coll := { s.coll with active := act } } ∧
      (∃ m k l, t = { s with mem := m, mpoison := k, lines := l }) ∧
      memNat t (portAddr s p) 8 = portWord o ∧ (∀ b, b < portAddr s p ∨ portAddr s p + 8 ≤ b → memByte t b = memByte s b) ∧
      ∀ q, q ∈ act ↔ if q = p then o.isSome = true else q ∈ s.coll.active := by
  cases o with
  | none =>
    refine ⟨memPut (memPut s (portAddr s p) 8 0) (portAddr s p) 8 0, s.coll.active.filter (fun q => q != p), ?_, ⟨_, _, _, rfl⟩,
      memNat_memPut_same .., fun b hb => (memByte_memPut_out hb).trans (memByte_memPut_out hb), fun q => ?_⟩
    · have hz : memNat (memPut s (portAddr s p) 8 0) (portAddr (memPut s (portAddr s p) 8 0) p) 8 = 0 := memNat_memPut_same ..
      show trainPort (memPut s (portAddr s p) 8 0) p false 0 = _
      unfold trainPort
      dsimp only
      rw [hz]
      rfl
    · by_cases h : q = p <;> simp [h]
  | some far =>
    refine ⟨memPut s (portAddr s p) 8 (portWord (some far)), if s.coll.active.contains p then s.coll.active else s.coll.active ++ [p], rfl,
      ⟨_, _, _, rfl⟩, (memNat_memPut_same ..).trans (Nat.mod_eq_of_lt (portWord_lt _)), fun b hb => memByte_memPut_out hb, fun q => ?_⟩
    by_cases hp : p ∈ s.coll.active <;> by_cases h : q = p <;> simp [hp, h]

/-- The first `n` ports after their training: each one's word, its place in the active set, and memory outside their words. -/
structure PortsTrained (s t : State) (ports : List (Option DWord)) (n : Nat) : Prop where
  frame : ∃ m k l a, t = { s with mem := m, mpoison := k, lines := l, coll := { s.coll with active := a } }
  word : ∀ p, p < n → memNat t (portAddr s p) 8 = portWord (ports.getD p none)
  active : ∀ p, p < n → (p ∈ t.coll.active ↔ (ports.getD p none).isSome = true)
  out : ∀ b, b < portAddr s 0 ∨ portAddr s n ≤ b → memByte t b = memByte s b

theorem portsTrained_step {s t : State} {ports : List (Option DWord)} {n : Nat} (h : PortsTrained s t ports n) :
    PortsTrained s (firstTraining t n (ports.getD n none)) ports (n + 1) := by
  obtain ⟨⟨m, k, l, a, ht⟩, word, act, out⟩ := h
  obtain ⟨u, act', hu, ⟨m', k', l', hframe⟩, word', out', hact⟩ := firstTraining_eq t n (ports.getD n none)
  have hpa : ∀ p, portAddr t p = portAddr s 0 + 8 * p := fun p => by rw [ht]; rfl
  have hpa' : ∀ p, portAddr s p = portAddr s 0 + 8 * p := fun p => rfl
  rw [hpa] at word' out'
  refine hu ▸ ⟨⟨m', k', l', act', by rw [hframe, ht]⟩, fun p hp => ?_, fun p hp => ?_, fun b hb => ?_⟩
  · show memNat u (portAddr s p) 8 = _
    by_cases e : p = n
    · rw [e]
      exact word'
    · rw [← word p (by omega)]
      exact memNat_congr fun b h1 h2 => out' b (by rw [hpa'] at h2; omega)
  · show p ∈ act' ↔ _
    rw [hact]
    by_cases e : p = n
    · rw [if_pos e, e]
    · rw [if_neg e]
      exact act p (by omega)
  · show memByte u b = _
    rw [hpa' (n + 1)] at hb
    rw [out' b (by omega), out b (by rw [hpa' n]; omega)]

theorem portsTrained_trainPorts (s : State) (ports : List (Option DWord)) : PortsTrained s (trainPorts s ports) ports 16 := by
  have go : ∀ n, PortsTrained s ((List.range n).foldl (fun s p => firstTraining s p (ports.getD p none)) s) ports n := by
    intro n
    induction n with
    | zero => exact ⟨⟨_, _, _, _, rfl⟩, fun _ h => absurd h (by omega), fun _ h => absurd h (by omega), fun _ _ => rfl⟩
    | succ n ih =>
      rw [List.range_succ, List.foldl_append]
      exact portsTrained_step ih
  exact go 16

theorem memByte_zeroTable (s : State) (qt b : Nat) :
    memByte (zeroTable s qt) b = if qt ≤ b ∧ b < qt + 131072 then 0 else memByte s b := by
  show (tget (replaceRange s.mem qt 131072 []) b).getD 0 = _
  rw [tget_replaceRange_nil]
  split <;> rfl

theorem qtBytes_eq : qtBytes = 131072 := rfl

/-- The state of a boot before its links are trained: the descriptor table zero, the log written, firmware's tables chosen. -/
def bootBase (c : BootChoice) (s : State) : State :=
  bootTables (memWrite (zeroTable (afterReset s) c.qtbase.toNat) c.logaddr.toNat (bootLog c)) c

/-- A boot whose images pass and whose tables firmware may choose. -/
theorem execIoDieReset_ok {c : BootChoice} (s : State) (hi : (bootImages c).all imageOk = true) (hc : choiceOk c = true) :
    execIoDieReset c s = .next { trainPorts (bootBase c s) c.ports with
      sk := keptCells s (trainPorts (bootBase c s) c.ports),
      info := { (trainPorts (bootBase c s) c.ports).info with bootstate := 1 } } := by
  unfold execIoDieReset
  rw [hi, hc]
  rfl

/-- A boot an image of which fails. -/
theorem execIoDieReset_failed {c : BootChoice} (s : State) (hi : (bootImages c).all imageOk = false) :
    execIoDieReset c s = .next { afterReset s with info := { (afterReset s).info with bootstate := 2, bootlog := bootLog c } } := by
  unfold execIoDieReset
  rw [hi]
  rfl

/-! ## The information block -/

theorem padTo_of_length {n : Nat} {bs : List Byte} (h : bs.length = n) : padTo n bs = bs := by
  subst h
  simp [padTo]

theorem setAt_length {α : Type} (xs : List α) (n : Nat) (v : α) : (setAt xs n v).length = xs.length := by
  induction xs generalizing n with
  | nil => rfl
  | cons x xs ih => cases n <;> simp [setAt, ih]

theorem getD_setAt {α : Type} {xs : List α} {n j : Nat} {v d : α} (hn : n < xs.length) :
    (setAt xs n v).getD j d = if j = n then v else xs.getD j d := by
  induction xs generalizing n j with
  | nil => simp at hn
  | cons x xs ih =>
    cases n with
    | zero => cases j <;> simp [setAt]
    | succ n =>
      cases j with
      | zero => simp [setAt]
      | succ j => simpa [setAt] using ih (by simpa using hn)

theorem nonceByte_length (off : Nat) (nonce : List Byte) (p : Nat × Byte) : (nonceByte off nonce p).length = nonce.length := by
  unfold nonceByte
  split
  · exact setAt_length ..
  · rfl

/-- ATTNONCE after the bytes of a write from the `n`-th on: each byte that the write covers is as written. -/
theorem getD_foldl_nonceByte {off j : Nat} (hj : j < 32) (bytes : List Byte) (n : Nat) (nonce : List Byte) (hl : nonce.length = 32) :
    (((List.range' n bytes.length).zip bytes).foldl (nonceByte off) nonce).getD j 0 =
      if off + n ≤ 0x48 + j ∧ 0x48 + j < off + n + bytes.length then bytes.getD (0x48 + j - (off + n)) 0 else nonce.getD j 0 := by
  induction bytes generalizing n nonce with
  | nil => simp
  | cons b bs ih =>
    have hstep : (nonceByte off nonce (n, b)).getD j 0 = if off + n = 0x48 + j then b else nonce.getD j 0 := by
      unfold nonceByte
      dsimp only
      split
      · rw [getD_setAt (by omega)]
        exact if_congr (by omega) rfl rfl
      · rw [if_neg (by omega)]
    rw [List.length_cons, List.range'_succ, List.zip_cons_cons, List.foldl_cons, ih (n + 1) _ ((nonceByte_length ..).trans hl), hstep]
    by_cases h1 : off + n = 0x48 + j
    · rw [if_neg (by omega), if_pos h1, if_pos (by omega), show 0x48 + j - (off + n) = 0 by omega]
      rfl
    · by_cases h2 : off + (n + 1) ≤ 0x48 + j ∧ 0x48 + j < off + (n + 1) + bs.length
      · rw [if_pos h2, if_pos (by omega), show 0x48 + j - (off + n) = 0x48 + j - (off + (n + 1)) + 1 by omega]
        rfl
      · rw [if_neg h2, if_neg h1, if_neg (by omega)]

/-- The bytes of a write that cover a 4-byte field. -/
theorem take_drop_four {a off : Nat} {bytes : List Byte} (h : off ≤ a ∧ a + 4 ≤ off + bytes.length) :
    (bytes.drop (a - off)).take 4 = (List.range 4).map (fun j => bytes.getD (a - off + j) 0) := by
  refine List.ext_getElem (by simp; omega) (fun i h1 h2 => ?_)
  have : a - off + i < bytes.length := by simp at h1; omega
  simp [this]

/-! ## Halting a launch -/

/-- Nothing of a launch or of its groups has changed. -/
def Untouched (s t : State) (lid : Nat) : Prop :=
  tget t.launches lid = tget s.launches lid ∧ ∀ k g, tget s.groups k = some g → g.launch = lid → tget t.groups k = some g

theorem Halted.trans {s t u : State} {lid : Nat} (h : Halted s t lid) (h' : Halted t u lid) : Halted s u lid := by
  refine ⟨fun l hl => ?_, fun k g hg hk => h'.2 k { g with status := .frozen } (h.2 k g hg hk) hk⟩
  obtain ⟨l1, h1, e1⟩ := h.1 l hl
  obtain ⟨l2, h2, e2⟩ := h'.1 l1 h1
  refine ⟨l2, h2, ?_⟩
  rw [e2, e1]
  by_cases hr : l.status = .running ∨ l.status = .granting
  · rw [if_pos hr]; rfl
  · rw [if_neg hr, if_neg hr]

theorem Halted.trans_untouched {s t u : State} {lid : Nat} (h : Halted s t lid) (h' : Untouched t u lid) : Halted s u lid := by
  refine ⟨fun l hl => ?_, fun k g hg hk => h'.2 k { g with status := .frozen } (h.2 k g hg hk) hk⟩
  obtain ⟨l1, h1, e1⟩ := h.1 l hl
  exact ⟨l1, h'.1.trans h1, e1⟩

theorem Untouched.trans {s t u : State} {lid : Nat} (h : Untouched s t lid) (h' : Untouched t u lid) : Untouched s u lid :=
  ⟨h'.1.trans h.1, fun k g hg hk => h'.2 k g (h.2 k g hg hk) hk⟩

theorem Untouched.trans_halted {s t u : State} {lid : Nat} (h : Untouched s t lid) (h' : Halted t u lid) : Halted s u lid :=
  ⟨fun l hl => h'.1 l (h.1.trans hl), fun k g hg hk => h'.2 k g (h.2 k g hg hk) hk⟩

theorem Stored.untouched {s t : State} (h : Stored s t) (lid : Nat) : Untouched s t lid :=
  ⟨by rw [h.launches], fun k g hg _ => by rw [h.groups]; exact hg⟩

/-- A fault record changes of the launches only what the faulting one has of faults. -/
theorem recordFault_eq {s : State} {lid : Nat} {l : Launch} (f : FaultInfo) (hl : tget s.launches lid = some l) :
    ∃ l', l'.status = l.status ∧ Stored { s with launches := tput s.launches lid l' } (recordFault s lid f) := by
  unfold recordFault
  rw [hl]
  dsimp only
  split
  · exact ⟨{ l with faultCount := l.faultCount + 1 }, rfl, .ite (.refl _) (stored_vaWrite ..)⟩
  · exact ⟨{ l with faulted := true }, rfl, .ite (.refl _) (stored_vaWrite ..)⟩

theorem recordFault_none {s : State} {lid : Nat} (f : FaultInfo) (hl : tget s.launches lid = none) : recordFault s lid f = s := by
  unfold recordFault
  rw [hl]

theorem tget_freezeGroups (gs : Tbl Group) (lid k : Nat) :
    tget (freezeGroups gs lid) k = (tget gs k).map (fun g => if g.launch = lid then { g with status := .frozen } else g) := by
  induction gs with
  | nil => rfl
  | cons p gs ih =>
    by_cases hp : p.2.launch = lid <;> by_cases hk : p.1 = k
    all_goals
      simp only [freezeGroups, List.map_cons, hp, if_true, if_false, tget, hk, Option.map_some]
    all_goals exact ih

/-- A fault that halts a launch halts it. -/
theorem halted_haltLaunch {s : State} {lid : Nat} {l : Launch} (f : FaultInfo) (hl : tget s.launches lid = some l) :
    Halted s (haltLaunch (recordFault s lid f) lid) lid := by
  obtain ⟨l', hs, hst⟩ := recordFault_eq f hl
  have hl' : tget (recordFault s lid f).launches lid = some l' := by
    rw [hst.launches]
    exact tget_tput_same ..
  have hg : (recordFault s lid f).groups = s.groups := hst.groups
  unfold haltLaunch
  rw [hl']
  refine ⟨fun m hm => ⟨_, tget_tput_same _ _ _, ?_⟩, fun k g hk he => ?_⟩
  · obtain rfl : l = m := by rw [hl] at hm; exact Option.some.inj hm
    rw [← hs]
    split <;> rfl
  · show tget (freezeGroups (recordFault s lid f).groups lid) k = _
    rw [tget_freezeGroups, hg, hk]
    simp [he]

/-- It leaves every other launch alone. -/
theorem untouched_haltLaunch {s : State} {x lid : Nat} (f : FaultInfo) (hx : lid ≠ x) :
    Untouched s (haltLaunch (recordFault s x f) x) lid := by
  have halt : ∀ t : State, Untouched t (haltLaunch t x) lid := fun t => by
    unfold haltLaunch
    split
    · exact ⟨rfl, fun _ _ h _ => h⟩
    · refine ⟨tget_tput_ne _ _ hx, fun k g hk he => ?_⟩
      show tget (freezeGroups t.groups x) k = _
      rw [tget_freezeGroups, hk]
      simp [he, hx]
  refine Untouched.trans ?_ (halt _)
  cases hl : tget s.launches x with
  | none =>
    rw [recordFault_none f hl]
    exact ⟨rfl, fun _ _ h _ => h⟩
  | some l =>
    obtain ⟨l', -, hst⟩ := recordFault_eq f hl
    exact Untouched.trans (t := { s with launches := tput s.launches x l' }) ⟨tget_tput_ne _ _ hx, fun _ _ h _ => h⟩ (hst.untouched lid)

theorem stopped_haltLaunch (s : State) (x : Nat) (f : FaultInfo) : (haltLaunch (recordFault s x f) x).fe.stopped = s.fe.stopped := by
  have halt : ∀ t : State, (haltLaunch t x).fe = t.fe := fun t => by
    unfold haltLaunch
    split <;> rfl
  rw [halt]
  cases hl : tget s.launches x with
  | none => rw [recordFault_none f hl]
  | some l =>
    obtain ⟨l', -, hst⟩ := recordFault_eq f hl
    exact hst.stopped

/-- Halting launches one after the other halts each of them that there is, and no other. -/
theorem halted_foldl (f : FaultInfo) (lid : Nat) (xs : List Nat) (s : State) :
    let t := xs.foldl (fun s lid => haltLaunch (recordFault s lid f) lid) s
    (lid ∈ xs → (tget s.launches lid).isSome = true → Halted s t lid) ∧ (lid ∉ xs → Untouched s t lid) ∧ t.fe.stopped = s.fe.stopped := by
  induction xs generalizing s with
  | nil => exact ⟨fun h => absurd h (by simp), fun _ => ⟨rfl, fun _ _ h _ => h⟩, rfl⟩
  | cons x xs ih =>
    obtain ⟨ih1, ih2, ih3⟩ := ih (haltLaunch (recordFault s x f) x)
    refine ⟨fun hm hp => ?_, fun hm => ?_, ih3.trans (stopped_haltLaunch s x f)⟩
    · by_cases hx : lid = x
      · subst hx
        obtain ⟨l, hl⟩ := Option.isSome_iff_exists.1 hp
        have now := halted_haltLaunch f hl
        by_cases later : lid ∈ xs
        · obtain ⟨l', hl', -⟩ := now.1 l hl
          exact now.trans (ih1 later (by rw [hl']; rfl))
        · exact now.trans_untouched (ih2 later)
      · have now : Untouched s _ lid := untouched_haltLaunch f hx
        refine now.trans_halted (ih1 ?_ (by rw [now.1]; exact hp))
        simpa [hx] using hm
    · rw [List.mem_cons, not_or] at hm
      exact (untouched_haltLaunch f hm.1).trans (ih2 hm.2)

/-- A lock-step mismatch halts every launch that has not ended, and stops the package. -/
theorem execLockstep_halts (s : State) : ∃ t, execLockstep s = .next t ∧ t.fe.stopped = true ∧
    ∀ lid l, tget s.launches lid = some l → l.status ≠ .ended → Halted s t lid := by
  refine ⟨_, rfl, ?_, fun lid l hl hs => ?_⟩
  · exact (stored_raiseEvent ..).stopped.trans (halted_foldl _ 0 _ _).2.2
  · have hm : lid ∈ liveLaunches s := List.mem_map.2 ⟨(lid, l), List.mem_filter.2 ⟨tget_mem _ _ _ hl, by simpa using hs⟩, rfl⟩
    have hh := (halted_foldl (noGroup Config.lockstepCause.toNat) lid (liveLaunches s) { s with fe := { s.fe with stopped := true } }).1 hm
      (by rw [hl]; rfl)
    exact Halted.trans_untouched hh ((stored_raiseEvent ..).untouched lid)

/-! ## What the boot leaves -/

theorem memByte_bootBase (c : BootChoice) (s : State) {b : Nat} (h : b < c.logaddr.toNat ∨ c.logaddr.toNat + (bootLog c).length ≤ b) :
    memByte (bootBase c s) b = if c.qtbase.toNat ≤ b ∧ b < c.qtbase.toNat + 131072 then 0 else memByte s b :=
  (memByte_memWrite_out _ _ b _ h).trans (memByte_zeroTable ..)

theorem memByte_bootBase_log (c : BootChoice) (s : State) {j : Nat} {b : Byte} (h : (bootLog c)[j]? = some b) :
    memByte (bootBase c s) (c.logaddr.toNat + j) = b := by
  obtain ⟨hj, rfl⟩ := List.getElem?_eq_some_iff.1 h
  exact memByte_memWrite_in _ _ j _ hj

/-- The bytes of a list written to memory read as written. -/
theorem memByte_memWrite_get {s : State} {a j : Nat} {bs : List Byte} {b : Byte} (h : bs[j]? = some b) : memByte (memWrite s a bs) (a + j) = b := by
  obtain ⟨hj, rfl⟩ := List.getElem?_eq_some_iff.1 h
  exact memByte_memWrite_in _ _ j _ hj

theorem attestation_eq (s : State) (h : s.info.attnonce.length = 32) :
    attested s = s.info.attnonce ++ sha512 s.info.bootlog ++ s.info.bootlog ++ bytesOf 2 s.info.pkgnum.toNat := by
  rw [attested, padTo_of_length h]

/-- A host write to the information block, by a function that may. -/
theorem execInfoBlockWrite_eq (s : State) (off : Nat) (bytes : List Byte) (h : 0 ∉ s.frozenFns) :
    execInfoBlockWrite ⟨0, off⟩ bytes s = .next { s with info := { s.info with
      attnonce := ((List.range bytes.length).zip bytes).foldl (nonceByte off) (padTo 32 s.info.attnonce),
      pwrlim := limitOr s.info.pwrlim (wordOr s.info.pwrlim 0x30 off bytes), attctl := wordOr s.info.attctl 0x68 off bytes } } := by
  have hm : mayInfo s 0 = true := by simp [mayInfo, h]
  simp only [execInfoBlockWrite, hm, if_true]

theorem mayInfo_false {s : State} {fn : Nat} (h : fn ≠ 0 ∨ fn ∈ s.frozenFns) : mayInfo s fn = false := by
  rcases h with h | h <;> simp [mayInfo, h]

theorem limitOr_self (v : BitVec 32) : limitOr v v = v := by
  unfold limitOr
  split <;> rfl

/-- Settles O52: a boot step by step, and a lock-step mismatch by an induction over the launches it halts. -/
theorem bootAndTrust : Obligations.BootAndTrust := by
  unfold Obligations.BootAndTrust
  refine ⟨fun s c hi hc hapart => ?_, fun s c hbad => ?_, fun s hb hf => ?_, fun s hb hr hn => ?_, fun s off bytes hn hf => ?_,
    fun s fn off bytes limit h => ?_, execLockstep_halts⟩
  · have hall : (bootImages c).all imageOk = true :=
      List.all_eq_true.2 fun i hmem => by simp [imageOk, hi i hmem]
    have trained := portsTrained_trainPorts (bootBase c s) c.ports
    refine ⟨_, execIoDieReset_ok s hall hc, ?_⟩
    obtain ⟨⟨m, k, l, a, ht⟩, word, act, out⟩ := trained
    have hpa : ∀ p, portAddr (bootBase c s) p = c.porttab.toNat + 8 * p := fun p => rfl
    generalize trainPorts (bootBase c s) c.ports = t at ht word act out ⊢
    refine ⟨by rw [ht]; rfl, by rw [ht]; rfl, by rw [ht]; rfl, by rw [ht]; rfl, by rw [ht]; rfl, by rw [ht]; rfl, rfl, by rw [ht]; rfl,
      by rw [ht]; rfl, by rw [ht]; rfl, by rw [ht]; rfl, by rw [ht]; rfl, by rw [ht]; rfl, by rw [ht]; rfl, fun p hp => ?_, fun j b hj => ?_,
      fun b h1 h2 => ?_⟩
    · have hw := word p hp
      have ha := act p hp
      rw [hpa] at hw
      constructor
      · intro far e
        rw [e] at hw ha
        exact ⟨ha.2 rfl, hw⟩
      · intro e
        rw [e] at hw ha
        exact ⟨fun hmem => Bool.noConfusion (ha.1 hmem), hw⟩
    · obtain ⟨hlt, -⟩ := List.getElem?_eq_some_iff.1 hj
      exact (out _ (by rw [hpa, hpa]; omega)).trans (memByte_bootBase_log c s hj)
    · exact (out b (by rw [hpa, hpa]; omega)).trans (memByte_bootBase c s h1)
  · have hall : (bootImages c).all imageOk = false := by
      obtain ⟨i, hmem, hbad⟩ := hbad
      exact List.all_eq_false.2 ⟨i, hmem, by rcases hbad with h | h <;> simp [imageOk, h]⟩
    exact ⟨_, execIoDieReset_failed s hall, rfl, rfl, rfl, rfl⟩
  · have hm : mayInfo s 0 = true := by simp [mayInfo, hf]
    show execAttestationRequest (.request 0) s = _
    simp only [execAttestationRequest, hb, hm, ne_eq, not_true, if_false, if_true]
  · intro said
    have hs : attestation s = said ++ padTo 64 (Config.identitySign said) := by rw [attestation, attestation_eq s hn]
    refine ⟨{ memWrite s s.info.attreport.toNat (attestation s) with
      info := { (memWrite s s.info.attreport.toNat (attestation s)).info with attctl := 2 } }, ?_, rfl, fun j b hj => ?_⟩
    · show execAttestationRequest .answer s = _
      simp only [execAttestationRequest, hb, hr, ne_eq, not_true, if_false]
    · rw [← hs] at hj
      exact memByte_memWrite_get hj
  · intro word covers
    have hword : ∀ a old, wordOr old a off bytes = if covers a then word a else old := fun a old => by
      unfold wordOr
      split
      · next h => rw [take_drop_four h]
      · rfl
    refine ⟨_, execInfoBlockWrite_eq s off bytes hf, rfl, fun j hj => ?_, fun h1 h2 => ?_, fun h => ?_, fun h => ?_, fun h => ?_⟩
    · have := getD_foldl_nonceByte (off := off) hj bytes 0 (padTo 32 s.info.attnonce) (by rw [padTo_of_length hn, hn])
      rw [padTo_of_length hn, ← List.range_eq_range'] at this
      rw [padTo_of_length hn]
      exact this
    · show limitOr _ (wordOr _ _ _ _) = _
      rw [hword, if_pos h1, limitOr, if_pos h2]
    · show limitOr _ (wordOr _ _ _ _) = _
      rw [hword]
      by_cases hc : covers 0x30
      · rw [if_pos hc, limitOr, if_neg (by have := h.resolve_left (not_not.2 hc); omega)]
      · rw [if_neg hc, limitOr_self]
    · exact (hword 0x68 _).trans (if_pos h)
    · exact (hword 0x68 _).trans (if_neg h)
  · have hm := mayInfo_false h
    refine ⟨?_, ?_⟩
    · show execInfoBlockWrite ⟨fn, off⟩ bytes s = _
      simp only [execInfoBlockWrite, hm, Bool.false_eq_true, if_false]
    · show execPwrlimWrite ⟨fn, limit⟩ s = _
      simp only [execPwrlimWrite, hm, Bool.false_eq_true, if_false]

end Sys2Proof.Machine
end

