-- ==== Sys2Proof/Proofs/Completion.lean ====
section

/-! # How an operation ends, and the collective engine's completions (O41) -/

namespace Sys2Proof.Machine

/-! ## Tables whose values change key by key -/

theorem tget_map_val {α β : Type} (f : Nat → α → β) (t : Tbl α) (k : Nat) : tget (t.map (fun p => (p.1, f p.1 p.2))) k = (tget t k).map (f k) := by
  induction t with
  | nil => rfl
  | cons p t ih =>
    by_cases hk : p.1 = k
    · subst hk; simp [tget]
    · simp [tget, hk, ih]

/-! ## What more a write of memory leaves alone -/

theorem Stored.ops {s t : State} (h : Stored s t) : t.ops = s.ops := by
  obtain ⟨_, _, _, _, _, _, _, _, rfl⟩ := h
  rfl

theorem Stored.coll {s t : State} (h : Stored s t) : t.coll = s.coll := by
  obtain ⟨_, _, _, _, _, _, _, _, rfl⟩ := h
  rfl

/-! ## The end of an operation -/

theorem opWrite_ops (s : State) (o : EngineOp) (a : Nat) (bs : List PByte) : (opWrite s o a bs).ops = s.ops ∧ (opWrite s o a bs).coll = s.coll := by
  have saved : ∀ (t : State) (w : Workgroup), Stored t (writeSaved t w a bs) := fun t w => by
    unfold writeSaved
    split
    · exact stored_homeWrite ..
    · exact .refl t
  unfold opWrite
  split
  · exact ⟨(saved _ _).ops, (saved _ _).coll⟩
  · exact ⟨rfl, rfl⟩

theorem faultAndHalt_ops (s : State) (lid : Nat) (f : FaultInfo) (a b c : Nat) :
    (faultAndHalt s lid f a b c).ops = s.ops ∧ (faultAndHalt s lid f a b c).coll = s.coll := by
  have halt : ∀ t : State, (haltLaunch t lid).ops = t.ops ∧ (haltLaunch t lid).coll = t.coll := fun t => by
    unfold haltLaunch
    split <;> exact ⟨rfl, rfl⟩
  have record : (recordFault s lid f).ops = s.ops ∧ (recordFault s lid f).coll = s.coll := by
    cases hl : tget s.launches lid with
    | none => rw [recordFault_none f hl]; exact ⟨rfl, rfl⟩
    | some l =>
      obtain ⟨l', -, hst⟩ := recordFault_eq f hl
      exact ⟨hst.ops, hst.coll⟩
  have both : (haltLaunch (recordFault s lid f) lid).ops = s.ops ∧ (haltLaunch (recordFault s lid f) lid).coll = s.coll :=
    ⟨(halt _).1.trans record.1, (halt _).2.trans record.2⟩
  have step : Stored (haltLaunch (recordFault s lid f) lid) (faultAndHalt s lid f a b c) := .ite (stored_raiseEvent ..) (.refl _)
  exact ⟨step.ops.trans both.1, step.coll.trans both.2⟩

/-- The first stage of an operation's end: its status record. -/
def recordStage (s : State) (o : EngineOp) : State :=
  match o.record with
  | some r => opWrite s o r (clean (recordBytes s o))
  | none => s

/-- The second: it is no longer in flight, and its requests and tape entries are released. -/
def releaseStage (s : State) (n : Nat) : State :=
  dropTape { s with ops := tdel s.ops n, reqs := s.reqs.filter (fun e => e.op != n) } n

/-- The third: its group, if there still is one, has its results, and its counter. -/
def counterStage (s : State) (n : Nat) (o : EngineOp) (report : Option DWord) : State :=
  match opAt s o, o.ctr with
  | some (k, g), some ctr => putGroup s k (leaveCtr (deliverVals g o) ctr n report)
  | _, _ => s

/-- The last: groups stalled at issue try again. -/
def recheckStage (s : State) (o : EngineOp) : State :=
  match o.act with
  | .crun .. => recheckDie s (o.core / 48)
  | _ => recheckCore s o.core

/-- The state in which an operation has ended, before the fault of one that ends with FAULT. -/
def endedOp (s : State) (n : Nat) (o : EngineOp) (report : Option DWord) : State :=
  recheckStage (counterStage (releaseStage (recordStage s o) n) n o report) o

theorem finishOp_eq (s : State) (n : Nat) (o : EngineOp) (report : Option DWord) :
    finishOp s n o report =
      if statusOf o.seen = 4 then
        faultAndHalt (endedOp s n o report) o.launch (opFault (endedOp s n o report) o) (if copyOp o then 1 else 2) o.addr.toNat 0
      else endedOp s n o report := rfl

theorem recordStage_ops (s : State) (o : EngineOp) : (recordStage s o).ops = s.ops ∧ (recordStage s o).coll = s.coll := by
  unfold recordStage
  split
  · exact opWrite_ops ..
  · exact ⟨rfl, rfl⟩

/-- The third stage changes the groups alone. -/
theorem counterStage_eq (s : State) (n : Nat) (o : EngineOp) (report : Option DWord) :
    ∃ gs, counterStage s n o report = { s with groups := gs } := by
  unfold counterStage
  split <;> exact ⟨_, rfl⟩

/-- From `gs` to `gs'` groups have changed in their status alone. -/
def Restatused (gs gs' : Tbl Group) : Prop := ∀ j, ∃ st, tget gs' j = (tget gs j).map (fun g => { g with status := st })

/-- Trying again changes a group's status at most. -/
theorem recheck_eq (s : State) (g : Group) : ∃ st, recheck s g = { g with status := st } := by
  unfold recheck
  split
  · exact ⟨_, rfl⟩
  · exact ⟨g.status, rfl⟩

theorem restatused_recheck (s : State) (p : Nat → Bool) (gs : Tbl Group) :
    Restatused gs (gs.map (fun e => if p e.1 then (e.1, recheck s e.2) else e)) := by
  intro j
  have h : gs.map (fun e => if p e.1 then (e.1, recheck s e.2) else e) = gs.map (fun e => (e.1, if p e.1 then recheck s e.2 else e.2)) := by
    refine List.map_congr_left fun e _ => ?_
    split <;> rfl
  rw [h, tget_map_val (fun k g => if p k then recheck s g else g)]
  cases tget gs j with
  | none => exact ⟨.run, rfl⟩
  | some g =>
    by_cases hp : p j = true
    · obtain ⟨st, e⟩ := recheck_eq s g
      exact ⟨st, by simp [hp, e]⟩
    · exact ⟨g.status, by simp [hp]⟩

/-- The last stage changes the status of groups alone. -/
theorem recheckStage_eq (s : State) (o : EngineOp) : ∃ gs, recheckStage s o = { s with groups := gs } ∧ Restatused s.groups gs := by
  have die : ∃ gs, recheckDie s (o.core / 48) = { s with groups := gs } ∧ Restatused s.groups gs := by
    refine ⟨_, rfl, ?_⟩
    simpa using restatused_recheck s (fun k => decide (coreOf k / 48 = o.core / 48)) s.groups
  have core : ∃ gs, recheckCore s o.core = { s with groups := gs } ∧ Restatused s.groups gs := by
    refine ⟨_, rfl, ?_⟩
    simpa using restatused_recheck s (fun k => decide (coreOf k = o.core)) s.groups
  unfold recheckStage
  split
  · exact die
  · exact core

theorem endedOp_ops (s : State) (n : Nat) (o : EngineOp) (report : Option DWord) :
    (endedOp s n o report).ops = tdel s.ops n ∧ (endedOp s n o report).coll = s.coll := by
  obtain ⟨hops, hcoll⟩ := recordStage_ops s o
  obtain ⟨gs, hc⟩ := counterStage_eq (releaseStage (recordStage s o) n) n o report
  obtain ⟨gs', hr, -⟩ := recheckStage_eq (counterStage (releaseStage (recordStage s o) n) n o report) o
  rw [endedOp, hr, hc]
  exact ⟨congrArg (tdel · n) hops, hcoll⟩

/-- Whatever an operation ends with, it is no longer in flight, and the collective engine's packets are as before. -/
theorem finishOp_ops (s : State) (n : Nat) (o : EngineOp) (report : Option DWord) :
    (finishOp s n o report).ops = tdel s.ops n ∧ (finishOp s n o report).coll = s.coll := by
  obtain ⟨hops, hcoll⟩ := endedOp_ops s n o report
  rw [finishOp_eq]
  split
  · obtain ⟨fo, fc⟩ := faultAndHalt_ops (endedOp s n o report) o.launch (opFault (endedOp s n o report) o) (if copyOp o then 1 else 2) o.addr.toNat 0
    exact ⟨fo.trans hops, fc.trans hcoll⟩
  · exact ⟨hops, hcoll⟩

theorem stored_countOp (s : State) (o : EngineOp) : Stored s (countOp s o) :=
  .ite (.foldl (fun _ _ => stored_countLines ..) _ _) (.refl s)

/-- Outside the commits of a DET launch an operation that is performed ends. -/
theorem performedOp_eq (s : State) (n : Nat) {o : EngineOp} (report : Option DWord) (hq : o.quantum = none) :
    performedOp s n o report = finishOp (countOp s o) n { o with performed := true } report := by
  have h : atCommit (countOp s o) o = false := by simp [atCommit, hq]
  unfold performedOp
  dsimp only
  rw [h]
  rfl

theorem performedOp_ops (s : State) (n : Nat) {o : EngineOp} (report : Option DWord) (hq : o.quantum = none) :
    (performedOp s n o report).ops = tdel s.ops n ∧ (performedOp s n o report).coll = s.coll := by
  obtain ⟨ho, hc⟩ := finishOp_ops (countOp s o) n { o with performed := true } report
  rw [performedOp_eq s n report hq, ho, hc, (stored_countOp s o).ops, (stored_countOp s o).coll]
  exact ⟨rfl, rfl⟩

/-! ### An operation without a status record that ends well -/

/-- Leaving a counter changes nothing else of a group but what it reports. -/
theorem leaveCtr_eq (g : Group) (ctr : Ctr) (n : Nat) (report : Option DWord) :
    leaveCtr g ctr n report = { setPends g ctr (leave (markDone n report (pends g ctr))).1 with
      reports := g.reports ++ (leave (markDone n report (pends g ctr))).2 } := rfl

@[simp] theorem pends_setPends (g : Group) (ctr : Ctr) (ps : List Pend) : pends (setPends g ctr ps) ctr = ps := by
  cases ctr <;> rfl

theorem pends_leaveCtr (g : Group) (ctr : Ctr) (n : Nat) (report : Option DWord) :
    pends (leaveCtr g ctr n report) ctr = (leave (markDone n report (pends g ctr))).1 := by
  cases ctr <;> rfl

/-- The oldest operation of a counter leaves it when it is done, and those behind it that are not stay. -/
theorem leave_oldest {n : Nat} {rest : List Pend} (h : ∀ p ∈ rest, p.op ≠ n ∧ p.done = false) (report : Option DWord) :
    (leave (markDone n report (⟨n, false, none⟩ :: rest))).1 = rest := by
  have hmark : markDone n report rest = rest := by
    conv_rhs => rw [← List.map_id rest]
    exact List.map_congr_left fun p hp => if_neg (h p hp).1
  have hstay : leave rest = (rest, []) := by
    cases rest with
    | nil => rfl
    | cons p t => simp [leave, (h p (by simp)).2]
  have hcons : markDone n report (⟨n, false, none⟩ :: rest) = ⟨n, true, report⟩ :: markDone n report rest := by simp [markDone]
  rw [hcons, hmark]
  simp [leave, hstay]

theorem getCore_dropTape (s : State) (n c : Nat) : (getCore (dropTape s n) c).tape = (getCore s c).tape.filter (fun e => e.op != n) := by
  have h : tget (dropTape s n).cores c = (tget s.cores c).map (fun x => { x with tape := x.tape.filter (fun e => e.op != n) }) :=
    tget_map_val (fun _ (x : Core) => ({ x with tape := x.tape.filter (fun e => e.op != n) } : Core)) s.cores c
  rw [getCore, getCore, h]
  cases tget s.cores c <;> rfl

theorem opAt_congr {s t : State} (h : t.groups = s.groups) (o : EngineOp) : opAt t o = opAt s o := by
  unfold opAt
  rw [h]

/-- What is left when an operation without a status record ends well: its own entries are gone everywhere, its group has its results, and other
groups have changed in their status at most. -/
theorem finishOp_plain {s : State} {n k : Nat} {o : EngineOp} {g : Group} {ctr : Ctr} (report : Option DWord) (hr : o.record = none)
    (hs : statusOf o.seen ≠ 4) (hat : opAt s o = some (k, g)) (hc : o.ctr = some ctr) :
    ∃ gs, finishOp s n o report = { releaseStage s n with groups := gs } ∧
      Restatused (tput s.groups k (leaveCtr (deliverVals g o) ctr n report)) gs := by
  have h1 : recordStage s o = s := by unfold recordStage; rw [hr]
  have h2 : counterStage (releaseStage s n) n o report = putGroup (releaseStage s n) k (leaveCtr (deliverVals g o) ctr n report) := by
    unfold counterStage
    rw [opAt_congr (s := s) (t := releaseStage s n) rfl, hat, hc]
  obtain ⟨gs, hgs, hre⟩ := recheckStage_eq (putGroup (releaseStage s n) k (leaveCtr (deliverVals g o) ctr n report)) o
  refine ⟨gs, ?_, hre⟩
  rw [finishOp_eq, if_neg hs, endedOp, h1, h2, hgs]
  rfl

/-- What such an end leaves of the group. -/
theorem restatused_put {gs gs' : Tbl Group} {k : Nat} {g1 : Group} (h : Restatused (tput gs k g1) gs') :
    ∃ st, tget gs' k = some { g1 with status := st } := by
  obtain ⟨st, e⟩ := h k
  exact ⟨st, by rw [e, tget_tput_same]; rfl⟩

/-- An operation without a status record that ends well is complete: what state `s` was before its effects does not matter, so long as the
operations in flight, the tape tables and the group's counters were the same. -/
theorem completed_finishOp {s s1 : State} {n k : Nat} {o : EngineOp} {g g1 : Group} {ctr : Ctr} {report : Option DWord}
    (hops : s1.ops = s.ops) (htape : (getCore s1 o.core).tape = (getCore s o.core).tape) (hr : o.record = none)
    (hs : statusOf o.seen ≠ 4) (hat : opAt s1 o = some (k, g1)) (hc : o.ctr = some ctr)
    (hpc : (deliverVals g1 o).pc = g.pc) (hsregs : (deliverVals g1 o).sregs = g.sregs) (htiles : (deliverVals g1 o).tiles = g.tiles)
    (hpend : pends (deliverVals g1 o) ctr = pends g ctr) :
    Completed s (finishOp s1 n o report) n o k g ctr := by
  obtain ⟨gs, he, hre⟩ := finishOp_plain (n := n) report hr hs hat hc
  obtain ⟨st, hk⟩ := restatused_put hre
  rw [he]
  refine ⟨?_, fun m hm => ?_, ?_, _, hk, ?_, ?_, ?_, fun rest hp hrest => ?_⟩
  · show tget (tdel s1.ops n) n = none
    simp [tget_tdel]
  · show tget (tdel s1.ops n) m = tget s.ops m
    rw [tget_tdel, if_neg hm, hops]
  · show (getCore (releaseStage s1 n) o.core).tape = _
    rw [releaseStage, getCore_dropTape]
    exact congrArg _ htape
  · rw [← hpc]; cases ctr <;> rfl
  · rw [← hsregs]; cases ctr <;> rfl
  · rw [← htiles]; cases ctr <;> rfl
  · show pends { leaveCtr (deliverVals g1 o) ctr n report with status := st } ctr = rest
    rw [show pends { leaveCtr (deliverVals g1 o) ctr n report with status := st } ctr = pends (leaveCtr (deliverVals g1 o) ctr n report) ctr by
      cases ctr <;> rfl, pends_leaveCtr, hpend, hp]
    exact leave_oldest hrest report

/-! ## Answers to packets -/

/-- Only an RST of a DET launch has its source still to read. -/
theorem mayRead_of_quantum {s : State} {o : EngineOp} (h : o.quantum = none) : mayRead s o = false := by
  have : unread o = false := by
    unfold unread
    split <;> simp [h]
  simp [mayRead, this]

theorem filter_mayRead {s : State} {n : Nat} {o : EngineOp} (ho : tget s.ops n = some o) (h : o.quantum = none) :
    (tget s.ops n).filter (mayRead s) = none := by
  rw [ho, Option.filter_some, mayRead_of_quantum h]
  rfl

theorem opReply_quantum (o : EngineOp) (r : Reply) (addr : DWord) : (opReply o r addr).quantum = o.quantum := by
  unfold opReply opFail
  dsimp only
  split
  · split <;> rfl
  · rfl

/-- An answer ends its operation, and its packet is no longer awaited. -/
theorem answer_ops {s : State} {key n : Nat} {u : Unacked} {o : EngineOp} (r : Reply) (hu : u.op = some n) (ho : tget s.ops n = some o)
    (hq : o.quantum = none) :
    (answer s key u r).ops = tdel s.ops n ∧ (answer s key u r).coll.unacked = tdel s.coll.unacked key := by
  unfold answer
  rw [hu]
  dsimp only
  rw [ho]
  dsimp only
  obtain ⟨ho', hc'⟩ := performedOp_ops { s with coll := { s.coll with
    unacked := tdel s.coll.unacked key,
    replies := s.coll.replies.filter (fun e => !(e.2.1 == u.p.src && e.2.2.1 == u.p.reqId)) } } n (o := opReply o r u.p.addr) none
      ((opReply_quantum o r u.p.addr).trans hq)
  exact ⟨ho', by rw [hc']⟩

/-- Sending a packet changes the watermarks sent alone. -/
theorem noteSent_eq (s : State) (p : RemotePacket) : ∃ w, noteSent s p = { s with coll := { s.coll with sentW := w } } := by
  unfold noteSent
  split
  · exact ⟨s.coll.sentW, rfl⟩
  · split
    · unfold sendW
      split
      · exact ⟨_, rfl⟩
      · exact ⟨s.coll.sentW, rfl⟩
    · exact ⟨s.coll.sentW, rfl⟩

/-- Settles O41: the release of a barrier ends its operation by `completed_finishOp`, a reply or the last resend by `answer_ops`. -/
theorem collectiveOperationsComplete : Obligations.CollectiveOperationsComplete := by
  unfold Obligations.CollectiveOperationsComplete
  refine ⟨fun s n o k g pod b count root reply ho hact hperf hq hrec hctr hat haw hst => ?_,
    fun s n o key u reply r haw hheld hu ho hq hlocal hremote => ?_, fun s n id o key u hfind hheld hlate hu ho hq => ?_⟩
  · have hend : exec (.collOpComplete n reply) s = .next (finishOp s n o none) := by
      show execCollOpComplete n reply s = _
      rw [execCollOpComplete, filter_mayRead ho hq]
      simp [ho, haw, hperf, copyOp, tileOpB, hact, atCommit, hq]
    have hdel : deliverVals g o = g := by unfold deliverVals; rw [hact]
    obtain ⟨gs, he, -⟩ := finishOp_plain (n := n) none hrec (by rw [hst]; decide) hat hctr
    refine ⟨_, hend, completed_finishOp rfl rfl hrec (by rw [hst]; decide) hat hctr ?_ ?_ ?_ ?_, by rw [he]; rfl⟩ <;> rw [hdel]
  · have hans : exec (.collOpComplete n reply) s = .next (answer s key u r) := by
      show execCollOpComplete n reply s = _
      have hr : (if u.p.dest = s.info.pkgnum.toNat then localReply s u else reply) = some r := by
        split
        · next h => exact hlocal h
        · next h => exact hremote h
      rw [execCollOpComplete, filter_mayRead ho hq]
      simp [haw, hheld, hr]
    obtain ⟨hops, hunacked⟩ := answer_ops (key := key) r hu ho hq
    exact ⟨_, hans, by rw [hops]; simp [tget_tdel], by rw [hunacked]; simp [tget_tdel], fun k hk => by rw [hunacked, tget_tdel, if_neg hk]⟩
  · have hgo : ¬(u.held || decide (s.pt.toNat < u.sentAt.toNat + Config.resendTicks * (u.resends + 1))) = true := by
      rw [hheld, Bool.false_or, decide_eq_true_eq, show Config.resendTicks = 32000 from rfl]
      omega
    refine ⟨fun hre => ?_, fun hre => ?_⟩
    · obtain ⟨w, hw⟩ := noteSent_eq
        { s with coll := { s.coll with unacked := tput s.coll.unacked key { u with resends := u.resends + 1 } } } u.p
      refine ⟨w, ?_⟩
      show execRemoteResend n id s = _
      rw [execRemoteResend, hfind]
      dsimp only
      rw [if_neg hgo, if_pos (show u.resends < Config.resends from hre), hw]
    · have hans : exec (.remoteResend n id) s = .next (answer s key u (.fault (BitVec.ofNat 8 cTIMEOUT))) := by
        show execRemoteResend n id s = _
        rw [execRemoteResend, hfind]
        dsimp only
        rw [if_neg hgo, if_neg (show ¬u.resends < Config.resends from Nat.not_lt.2 hre)]
      obtain ⟨hops, hunacked⟩ := answer_ops (key := key) (.fault (BitVec.ofNat 8 cTIMEOUT)) hu ho hq
      exact ⟨_, hans, by rw [hops]; simp [tget_tdel], by rw [hunacked]; simp [tget_tdel]⟩

end Sys2Proof.Machine
end

