-- ==== Sys2Proof/Proofs/Issue.lean ====
section

/-! # The issue of operations, and copies (O29)

Room and waits (`issueWait_…`), what issue makes of an operation (`issueOp_of_room`), retirement of what has issued (`issued_retire`), and the
end of issue that the copy engine's instructions share (`issuesCopy_of_body`). -/

namespace Sys2Proof.Machine

/-! ## Workgroups named to the on-chip map -/

/-- Every workgroup keeps its scratchpad and its poison marks. -/
def SamePads (s t : State) : Prop :=
  ∀ key w, tget s.wgs key = some w → ∃ w', tget t.wgs key = some w' ∧ w'.scratch = w.scratch ∧ w'.spoison = w.spoison

theorem SamePads.refl (s : State) : SamePads s s := fun _ w h => ⟨w, h, rfl, rfl⟩

theorem SamePads.trans {s t u : State} (h : SamePads s t) (h' : SamePads t u) : SamePads s u := fun key w hw => by
  obtain ⟨w1, h1, e1, p1⟩ := h key w hw
  obtain ⟨w2, h2, e2, p2⟩ := h' key w1 h1
  exact ⟨w2, h2, e2.trans e1, p2.trans p1⟩

/-- One workgroup replaced by one with its scratchpad and poison marks. -/
theorem samePads_putWg {s : State} {key : Nat} {w w' : Workgroup} (h : tget s.wgs key = some w) (hs : w'.scratch = w.scratch)
    (hp : w'.spoison = w.spoison) : SamePads s (putWg s key w') := fun k x hx => by
  by_cases e : k = key
  · subst e
    obtain rfl : w = x := Option.some.inj (h.symm.trans hx)
    exact ⟨w', tget_tput_same .., hs, hp⟩
  · exact ⟨x, (tget_tput_ne _ _ e).trans hx, rfl, rfl⟩

/-- What naming a workgroup's part of the on-chip map leaves: the workgroups with their scratchpads, and all else. -/
def OnlyMarks (s t : State) : Prop := (∃ ws, t = { s with wgs := ws }) ∧ SamePads s t

theorem onlyMarks_exportWg (s : State) (key : Nat) : OnlyMarks s (exportWg s key) := by
  unfold exportWg
  split
  · next w h => exact ⟨⟨_, rfl⟩, samePads_putWg h rfl rfl⟩
  · exact ⟨⟨_, rfl⟩, .refl s⟩

theorem onlyMarks_exportAll (keys : List Nat) (s : State) : OnlyMarks s (exportAll s keys) := by
  unfold exportAll
  induction keys generalizing s with
  | nil => exact ⟨⟨_, rfl⟩, .refl s⟩
  | cons k ks ih =>
    obtain ⟨⟨ws, h⟩, hp⟩ := onlyMarks_exportWg s k
    obtain ⟨⟨ws', h'⟩, hp'⟩ := ih (exportWg s k)
    refine ⟨⟨ws', ?_⟩, hp.trans hp'⟩
    rw [List.foldl_cons, h', h]

theorem onlyMarks_exportNamed (s : State) (lid : Nat) (act : OpAct) : OnlyMarks s (exportNamed s lid act) := by
  unfold exportNamed
  split
  · exact ⟨⟨_, rfl⟩, .refl s⟩
  · exact onlyMarks_exportAll ..

/-! ## Room for an operation (R21, R26) -/

/-- What an operation comes to at issue outside DET launches: it waits for its counter and for the tape table. -/
theorem issueWait_free {s : State} {c : Ctx} (ctr : Ctr) (need : Nat) (hd : c.l.kern.det = false) :
    issueWait s c ctr need =
      if Config.counterMax ≤ count c.g ctr ∨ Config.tapeEntries < (tableUse s c).length + need then some .stall else none := by
  unfold issueWait
  dsimp only
  rw [if_pos (show (!c.det) = true by rw [Ctx.det, hd]; rfl)]
  exact if_congr (by rw [Bool.or_eq_true, decide_eq_true_eq, decide_eq_true_eq]; rfl) rfl rfl

/-- In a DET launch an operation of the copy or collective engine waits for its counter alone, parked until the commit. -/
theorem issueWait_det {s : State} {c : Ctx} {ctr : Ctr} (need : Nat) (hd : c.l.kern.det = true) (hc : ctr ≠ .tile) :
    issueWait s c ctr need = if Config.counterMax ≤ count c.g ctr then some (.park s c.g .commit) else none := by
  unfold issueWait
  dsimp only
  rw [if_neg (show ¬(!c.det) = true by rw [Ctx.det, hd]; decide), if_pos hc]
  exact if_congr (by rw [decide_eq_true_eq]; rfl) rfl rfl

/-- A tile operation of a DET launch waits for the commit where what lasts until then fills the table, else for its counter and the table. -/
theorem issueWait_tile_det {s : State} {c : Ctx} (need : Nat) (hd : c.l.kern.det = true) :
    issueWait s c .tile need =
      if Config.tapeEntries < ((tableUse s c).filter lasting).length + need then some (.park s c.g .commit)
      else if Config.counterMax ≤ count c.g .tile ∨
        Config.tapeEntries < ((tableUse s c).filter (fun e => lasting e || e.tileOf.isSome)).length + need then some .stall else none := by
  unfold issueWait
  dsimp only
  rw [if_neg (show ¬(!c.det) = true by rw [Ctx.det, hd]; decide), if_neg (by decide)]
  refine if_congr Iff.rfl rfl (if_congr ?_ rfl rfl)
  rw [Bool.or_eq_true, decide_eq_true_eq, decide_eq_true_eq]
  rfl

/-- With room an operation issues at once. -/
theorem issueWait_of_room {s : State} {c : Ctx} {ctr : Ctr} {need : Nat} (h : Room s c ctr need) : issueWait s c ctr need = none := by
  obtain ⟨hcount, hfree, hdet⟩ := h
  cases hd : c.l.kern.det with
  | false => rw [issueWait_free ctr need hd, if_neg (by have := hfree hd; omega)]
  | true =>
    by_cases hc : ctr = .tile
    · have hle : ((tableUse s c).filter lasting).length ≤ ((tableUse s c).filter (fun e => lasting e || e.tileOf.isSome)).length :=
        (List.monotone_filter_right _ (fun e h => by simp [h])).length_le
      have htab := hdet hd hc
      subst hc
      rw [issueWait_tile_det need hd, if_neg (by omega), if_neg (by omega)]
    · rw [issueWait_det need hd hc, if_neg (by omega)]

/-- Without room it waits: at issue outside DET launches. -/
theorem issueWait_of_no_room {s : State} {c : Ctx} {ctr : Ctr} {need : Nat} (h : ¬Room s c ctr need) (hd : c.l.kern.det = false) :
    issueWait s c ctr need = some .stall := by
  rw [issueWait_free ctr need hd, if_pos]
  by_contra hn
  exact h ⟨by omega, fun _ => by omega, fun e => by rw [hd] at e; cases e⟩

/-- Without room an operation of the copy or collective engine waits in a DET launch for the commit. -/
theorem issueWait_of_no_room_det {s : State} {c : Ctx} {ctr : Ctr} {need : Nat} (h : ¬Room s c ctr need) (hd : c.l.kern.det = true)
    (hc : ctr ≠ .tile) : issueWait s c ctr need = some (.park s c.g .commit) := by
  rw [issueWait_det need hd hc, if_pos]
  by_contra hn
  exact h ⟨by omega, fun e => (by rw [hd] at e; cases e), fun _ e => absurd e hc⟩

/-! ## Issue -/

/-- The ranges that an operation enters in the tape table: those of its spans that hold a byte, and its status record. -/
def entrySpans (spans : List Span) (record : Option Nat) : List Span :=
  spans.filter (fun x => decide (x.lo < x.hi)) ++ (match record with
    | some r => [⟨r, r + 16, true⟩]
    | none => [])

/-- The tape entries of the operation that issues next. -/
def entriesOf (s : State) (c : Ctx) (ctr : Ctr) (xs : List Span) : List TapeEntry :=
  xs.map (fun x =>
    ⟨s.opNo, c.w.sbase + x.lo, c.w.sbase + x.hi, x.write, if ctr = .tile then some c.k else none, if c.l.kern.det then some c.k else none⟩)

/-- Whether an operation waits for the commit of its quantum. -/
def defers (c : Ctx) (ctr : Ctr) : Bool := c.l.kern.det && decide (ctr ≠ .tile)

/-- The core's tape table and command tag once the operation has issued. -/
def issuedCore (s : State) (c : Ctx) (ctr : Ctr) (xs : List Span) : Core :=
  { getCore s c.w.core with
    tape := (getCore s c.w.core).tape ++ entriesOf s c ctr xs,
    tag := if defers c ctr then (getCore s c.w.core).tag else (getCore s c.w.core).tag + 1 }

/-- The state once the operation is in flight with its entries. -/
def placedOp (s : State) (c : Ctx) (ctr : Ctr) (o : EngineOp) (xs : List Span) : State :=
  { s with opNo := s.opNo + 1, ops := tput s.ops s.opNo { o with deferred := defers c ctr },
           cores := tput s.cores c.w.core (issuedCore s c ctr xs) }

/-- The group with the operation counted. -/
def countedOp (s : State) (c : Ctx) (ctr : Ctr) : Group := setPends c.g ctr (pends c.g ctr ++ [⟨s.opNo, false, none⟩])

/-- Issue, in the terms above. -/
theorem issueOp_eq (s : State) (c : Ctx) (ctr : Ctr) (o : EngineOp) (spans : List Span) :
    issueOp s c ctr o spans = match issueWait s c ctr (entrySpans spans o.record).length with
      | some e => e
      | none => if defers c ctr
          then .next (placedOp s c ctr o (entrySpans spans o.record)) { countedOp s c ctr with detOps := (countedOp s c ctr).detOps ++ [s.opNo] }
          else .next (exportNamed (placedOp s c ctr o (entrySpans spans o.record)) c.g.launch o.act) (countedOp s c ctr) := rfl

/-- Spans that all hold a byte are entered as they are. -/
theorem entrySpans_eq {spans : List Span} (record : Option Nat) (h : ∀ x ∈ spans, x.lo < x.hi) :
    entrySpans spans record = spans ++ (record.map (fun r => (⟨r, r + 16, true⟩ : Span))).toList := by
  unfold entrySpans
  rw [List.filter_eq_self.2 (fun x hx => decide_eq_true (h x hx))]
  cases record <;> rfl

theorem entrySpans_length {spans : List Span} (record : Option Nat) (h : ∀ x ∈ spans, x.lo < x.hi) :
    (entrySpans spans record).length = spans.length + record.toList.length := by
  rw [entrySpans_eq record h]
  cases record <;> simp

/-- A group once its operation has issued: counted, and in a DET launch listed for the commit. -/
def IssuedGroup (s : State) (c : Ctx) (ctr : Ctr) (g : Group) : Prop := ∃ ds, g = { countedOp s c ctr with detOps := ds }

/-- With room, what issue makes of an operation. -/
theorem issueOp_of_room {s : State} {c : Ctx} {ctr : Ctr} {o : EngineOp} {spans : List Span} (hne : ∀ x ∈ spans, x.lo < x.hi)
    (h : Room s c ctr (spans.length + o.record.toList.length)) :
    ∃ ws g, SamePads s { s with wgs := ws } ∧ IssuedGroup s c ctr g ∧
      issueOp s c ctr o spans = .next { placedOp s c ctr o (entrySpans spans o.record) with wgs := ws } g := by
  rw [issueOp_eq, entrySpans_length o.record hne, issueWait_of_room h]
  by_cases hd : defers c ctr = true
  · exact ⟨s.wgs, _, .refl s, ⟨_, rfl⟩, if_pos hd⟩
  · obtain ⟨⟨ws, hws⟩, hp⟩ := onlyMarks_exportNamed (placedOp s c ctr o (entrySpans spans o.record)) c.g.launch o.act
    refine ⟨ws, _, fun key w hw => ?_, ⟨(countedOp s c ctr).detOps, rfl⟩, (if_neg hd).trans (by rw [hws])⟩
    rw [hws] at hp
    exact hp key w hw

/-- Without room it waits. -/
theorem issueOp_of_no_room {s : State} {c : Ctx} {ctr : Ctr} {o : EngineOp} {spans : List Span} (hne : ∀ x ∈ spans, x.lo < x.hi)
    (h : ¬Room s c ctr (spans.length + o.record.toList.length)) :
    (c.l.kern.det = false → issueOp s c ctr o spans = .stall) ∧
    (c.l.kern.det = true → ctr ≠ .tile → issueOp s c ctr o spans = .park s c.g .commit) := by
  refine ⟨fun hd => ?_, fun hd hc => ?_⟩
  · rw [issueOp_eq, entrySpans_length o.record hne, issueWait_of_no_room h hd]
  · rw [issueOp_eq, entrySpans_length o.record hne, issueWait_of_no_room_det h hd hc]

/-! ## Retirement of what has issued -/

/-- What retirement leaves: the group counted, the retirement counted in its workgroup, and all else. -/
theorem retire_frame (s : State) (c : Ctx) (g : Group) (pc : DWord) :
    ∃ gs ws, retire s c g pc = { s with groups := gs, wgs := ws, cur := none } ∧ SamePads s { s with wgs := ws } ∧
      tget gs c.k = some (retiredGroup s c g pc) ∧ ∀ j, j ≠ c.k → tget gs j = tget s.groups j := by
  have hcount : ∃ ws, countWg s (countedGroup s c g pc) = { s with wgs := ws } ∧ SamePads s { s with wgs := ws } := by
    unfold countWg
    split
    · next w hw => exact ⟨_, rfl, samePads_putWg hw rfl rfl⟩
    · exact ⟨_, rfl, .refl s⟩
  obtain ⟨ws, hws, hp⟩ := hcount
  have hr : retire s c g pc = logicalTick { putGroup { s with wgs := ws } c.k (countedGroup s c g pc) with cur := none } c
      (countedGroup s c g pc) := by
    rw [← hws]
    rfl
  have ht : (c.l.kern.logical && (countedGroup s c g pc).sp.ric.toNat % c.l.kern.hbperiod == 0) = tickFollows c g := rfl
  rw [hr, logicalTick_eq, ht]
  unfold retiredGroup
  split
  · exact ⟨_, ws, rfl, hp, tget_tput_same .., fun j hj => (tget_tput_ne _ _ hj).trans (tget_tput_ne _ _ hj)⟩
  · exact ⟨_, ws, rfl, hp, tget_tput_same .., fun j hj => tget_tput_ne _ _ hj⟩

/-- A retired group differs from what it was in the counts of retirement alone. -/
theorem retiredGroup_eq (s : State) (c : Ctx) (g : Group) (pc : DWord) :
    ∃ sp u lr li w dc de td, retiredGroup s c g pc = { g with
      pc := pc, sp := sp, urg := u, lastRetire := lr, lastIssue := li, waited := w, detCount := dc, detEnded := de, tickDue := td,
      barw := none, since := none } := by
  unfold retiredGroup
  split <;> exact ⟨_, _, _, _, _, _, _, _, rfl⟩

/-- A group that has issued an operation on a counter: its counter has grown by one, and its registers and tiles are as before. -/
structure Counting (s : State) (c : Ctx) (ctr : Ctr) (g : Group) : Prop where
  pends : pends g ctr = pends c.g ctr ++ [⟨s.opNo, false, none⟩]
  sregs : g.sregs = c.g.sregs
  vregs : g.vregs = c.g.vregs
  scc : g.scc = c.g.scc
  xregs : g.xregs = c.g.xregs
  tiles : g.tiles = c.g.tiles

theorem IssuedGroup.counting {s : State} {c : Ctx} {ctr : Ctr} {g : Group} (h : IssuedGroup s c ctr g) : Counting s c ctr g := by
  obtain ⟨ds, rfl⟩ := h
  cases ctr <;> exact ⟨rfl, rfl, rfl, rfl, rfl, rfl⟩

/-- Retirement keeps what issue has made of the group. -/
theorem Counting.retired {s s' : State} {c : Ctx} {ctr : Ctr} {g : Group} {pc : DWord} (h : Counting s c ctr g) :
    Counting s c ctr (retiredGroup s' c g pc) := by
  obtain ⟨_, _, _, _, _, _, _, _, e⟩ := retiredGroup_eq s' c g pc
  obtain ⟨h1, h2, h3, h4, h5, h6⟩ := h
  rw [e]
  refine ⟨?_, h2, h3, h4, h5, h6⟩
  rw [← h1]
  cases ctr <;> rfl

/-- What has issued and retired, in a state where beside it graphs may have changed, is issued as the claims say. -/
theorem issued_retire {s : State} {c : Ctx} {i : Instr} {ctr : Ctr} {scope : BitVec 3} {ord : BitVec 2} {act : OpAct}
    {record : Option Nat} {spans : List Span} {ws : Tbl Workgroup} {gr : Tbl GraphRun} {g : Group} (hne : ∀ x ∈ spans, x.lo < x.hi)
    (hp : SamePads s { s with wgs := ws }) (hg : Counting s c ctr g) :
    Issued s (retire { placedOp s c ctr (newOp s c (some ctr) scope ord record act) (entrySpans spans record) with wgs := ws, graphs := gr }
      c g (after i c)) c i ctr act record spans := by
  obtain ⟨gs, ws', hr, hpads, hown, hothers⟩ := retire_frame
    { placedOp s c ctr (newOp s c (some ctr) scope ord record act) (entrySpans spans record) with wgs := ws, graphs := gr } c g (after i c)
  have hcore : getCore (retire { placedOp s c ctr (newOp s c (some ctr) scope ord record act) (entrySpans spans record) with
      wgs := ws, graphs := gr } c g (after i c)) c.w.core = issuedCore s c ctr (entrySpans spans record) := by
    rw [hr, getCore]
    show (tget (tput s.cores c.w.core (issuedCore s c ctr (entrySpans spans record))) c.w.core).getD Core.init = _
    rw [tget_tput_same]
    rfl
  have hops : (retire { placedOp s c ctr (newOp s c (some ctr) scope ord record act) (entrySpans spans record) with
      wgs := ws, graphs := gr } c g (after i c)).ops =
        tput s.ops s.opNo { newOp s c (some ctr) scope ord record act with deferred := defers c ctr } := by rw [hr]; rfl
  obtain ⟨h1, h2, h3, h4, h5, h6⟩ := hg.retired (s' := { placedOp s c ctr (newOp s c (some ctr) scope ord record act) (entrySpans spans record)
    with wgs := ws, graphs := gr }) (pc := after i c)
  constructor
  · refine ⟨_, by rw [hops, tget_tput_same], rfl, rfl, rfl, rfl, rfl, rfl, rfl, rfl, rfl, rfl, rfl, fun _ => rfl⟩
  · intro n hn
    rw [hops, tget_tput_ne _ _ hn]
  · rw [hr]; rfl
  · rw [hcore]
    refine if_congr ?_ rfl rfl
    simp [defers]
  · rw [hcore]
    show (getCore s c.w.core).tape ++ entriesOf s c ctr (entrySpans spans record) = _
    rw [entrySpans_eq record hne]
    rfl
  · exact ⟨_, by rw [hr]; exact hown, retiredGroup_pc .., h1, h2, h3, h4, h5, h6⟩
  · intro j hj
    rw [hr]
    exact hothers j hj
  · rw [hr]; exact ⟨rfl, rfl, rfl⟩
  · rw [hr]
    exact hp.trans hpads
  · rw [hr]; exact ⟨rfl, rfl, rfl, rfl⟩

/-- An instruction whose effect is an operation issued, beside which graphs may have changed, issues it. -/
theorem exec_issued {i : Instr} {s : State} {c : Ctx} {body : Ctx → Eff} {s2 : State} {g : Group} (he : exec i s = issue i s body)
    (h : Ready s i c) (hv : isVector i = false) (hb : body c = .next s2 g) : exec i s = .next (retire s2 c g (after i c)) := by
  have hlen := (ctxOf_some h.1).2.2.2.2.2
  rw [he, issue_ready body h (.inl hv), hb, after, ← hlen]
  rfl

/-! ## The shared end of a copy-engine instruction's issue (R253, R255) -/

/-- A status record that fits passes its check. -/
theorem recordCheck_fits {c : Ctx} {off : DWord} (h : RecordFits c off) : recordCheck c off = none := by
  obtain ⟨h1, h2, h3⟩ := h
  have hint : off.toInt = off.toNat := by rw [BitVec.toInt_eq_toNat_of_lt (by omega)]
  unfold recordCheck Ctx.size
  rw [hint, if_neg (by omega), if_neg (by omega)]

/-- One that lies wrong fails it: ALIGN before SCRATCH_BOUNDS. -/
theorem recordCheck_misaligned {c : Ctx} {off : DWord} (h : off.toNat % 16 ≠ 0) : recordCheck c off = some ⟨cALIGN, off, 0⟩ := by
  unfold recordCheck
  rw [if_pos (by rw [BitVec.toInt_eq_toNat_cond]; split <;> omega)]

theorem recordCheck_outside {c : Ctx} {off : DWord} (h : off.toNat % 16 = 0) (hf : ¬RecordFits c off) :
    recordCheck c off = some ⟨cBOUNDS, off, 0⟩ := by
  unfold recordCheck Ctx.size
  have hlt := off.isLt
  rw [if_neg (by rw [BitVec.toInt_eq_toNat_cond]; split <;> omega), if_pos]
  by_contra hn
  rw [BitVec.toInt_eq_toNat_cond] at hn
  refine hf ⟨h, ?_, ?_⟩
  all_goals split at hn <;> omega

/-- Of two effects the second is the first, but that beside an operation issued graphs may have changed. -/
def SameButGraphs : Eff → Eff → Prop
  | .next s g, e' => ∃ gr, e' = .next { s with graphs := gr } g
  | e, e' => e' = e

theorem SameButGraphs.refl (e : Eff) : SameButGraphs e e := by
  cases e with
  | next s g => exact ⟨s.graphs, rfl⟩
  | _ => rfl

/-- The operation that an instruction of the copy engine issues. -/
abbrev copyOpOf (s : State) (c : Ctx) (f : CX) (ctr : Ctr) (act : OpAct) : EngineOp :=
  newOp s c (some ctr) f.scope f.ord (recordOf c f) act

/-- With a sound footprint and record, the shared end of issue is the issue of the operation. -/
theorem copyIssue_sound {s : State} {c : Ctx} {f : CX} {ctr : Ctr} {act : OpAct} {foot : List (Int × Int)} {spans : List Span}
    (hfoot : spansOut c.size foot = none) (hrec : f.md2.getLsbD 0 = true → RecordFits c (sval c.g f.lit f.sd)) :
    copyIssue s c f ctr act foot spans = issueOp s c ctr (copyOpOf s c f ctr act) spans := by
  unfold copyIssue copyOpOf recordOf
  rw [hfoot]
  cases hr : f.md2.getLsbD 0 with
  | false => rfl
  | true =>
    dsimp only
    rw [recordCheck_fits (hrec hr)]
    rfl

/-- With a sound footprint, a record that fails its check traps. -/
theorem copyIssue_trap {s : State} {c : Ctx} {f : CX} {ctr : Ctr} {act : OpAct} {foot : List (Int × Int)} {spans : List Span} {m : Miss}
    (hfoot : spansOut c.size foot = none) (hr : f.md2.getLsbD 0 = true) (hm : recordCheck c (sval c.g f.lit f.sd) = some m) :
    copyIssue s c f ctr act foot spans = .trap m := by
  unfold copyIssue
  rw [hfoot, hr]
  dsimp only
  rw [hm]
  rfl

/-- An instruction whose effect is that of the shared end of issue, its footprint sound, issues its operation as the claims say. -/
theorem issuesCopy_of_body {i : CX → Instr} {f : CX} {s : State} {c : Ctx} {ctr : Ctr} {act : OpAct} {foot : List (Int × Int)}
    {spans : List Span} {body : Ctx → Eff} (he : exec (i f) s = issue (i f) s body) (h : Ready s (i f) c) (hv : isVector (i f) = false)
    (hctr : ctr ≠ .tile) (hne : ∀ x ∈ spans, x.lo < x.hi) (hfoot : spansOut c.size foot = none)
    (hbody : SameButGraphs (copyIssue s c f ctr act foot spans) (body c)) : IssuesCopy i f s c ctr act spans := by
  refine ⟨fun hrec => ⟨fun hroom => ?_, fun hroom => ?_⟩, fun hr hh => ⟨fun hmis => ?_, fun hal hout => ?_⟩⟩
  · obtain ⟨ws, g, hp, hg, hi⟩ := issueOp_of_room (o := copyOpOf s c f ctr act) hne hroom
    rw [copyIssue_sound hfoot hrec, hi] at hbody
    obtain ⟨gr, hb⟩ := hbody
    exact ⟨_, exec_issued he h hv hb, issued_retire hne hp hg.counting⟩
  · obtain ⟨hstall, hpark⟩ := issueOp_of_no_room (o := copyOpOf s c f ctr act) hne hroom
    rw [copyIssue_sound hfoot hrec] at hbody
    cases hd : c.l.kern.det with
    | false =>
      rw [hstall hd] at hbody
      exact stalls_of_body he h (.inl hv) hbody
    | true =>
      rw [hpark hd hctr] at hbody
      exact parks_of_body he h (.inl hv) hbody
  · rw [copyIssue_trap hfoot hr (recordCheck_misaligned hmis)] at hbody
    exact traps_of_body he h (.inl hv) hbody hh
  · rw [copyIssue_trap hfoot hr (recordCheck_outside hal hout)] at hbody
    exact traps_of_body he h (.inl hv) hbody hh

/-- An instruction whose effect is an OPERAND trap of its own entry takes it. -/
theorem traps_operand {i : Instr} {s : State} {c : Ctx} {body : Ctx → Eff} {code : Nat} (he : exec i s = issue i s body) (h : Ready s i c)
    (hv : isVector i = false) (hb : body c = operandTrap c code) (hh : Handled c) : Traps i s c 0x02 (operandTval i code) 0 c.g.pc := by
  have hi := (ctxOf_some h.1).2.2.2.2.1
  have ht := traps_of_body he h (.inl hv) hb hh
  rw [hi] at ht
  exact ht

/-! ## Footprints -/

/-- Intervals inside the allocation. -/
theorem spansOut_none {size : Nat} {xs : List (Int × Int)} (h : ∀ x ∈ xs, 0 ≤ x.1 ∧ x.2 ≤ size) : spansOut size xs = none := by
  have hf : xs.filterMap (fun x => spanOut size x.1 x.2) = [] := by
    refine List.filterMap_eq_nil_iff.2 fun x hx => ?_
    obtain ⟨h1, h2⟩ := h x hx
    unfold spanOut
    split
    · rfl
    · rw [if_neg (by omega), if_neg (by omega)]
  unfold spansOut
  rw [hf]
  rfl

/-- The lanes' indices, as the claims name them. -/
theorem laneIdx_eq (s : State) (c : Ctx) (f : CX) : laneIdx s c f = activeIndexes s c f := rfl

/-! ## CPY, CPYX and CPYF -/

theorem dirCtr_dirOf (m : Nat) : dirCtr (dirOf m) = if m = 0 then .ld else .st := by
  unfold dirCtr dirOf
  by_cases h0 : m = 0
  · simp [h0]
  · by_cases h1 : m = 1 <;> simp [h0, h1]

theorem dirOf_inn (m : Nat) : (dirOf m == .inn) = decide (m = 0) := by
  unfold dirOf
  by_cases h0 : m = 0
  · simp [h0]
  · by_cases h1 : m = 1 <;> simp [h0, h1]

/-- A copy names its translation register, which is valid, or none. -/
theorem dirX_named {c : Ctx} {f : CX} {m : Nat} (body : XReg → Eff) (h : m = 0 ∨ m = 1 → (xreg c.g f.xr.toNat).valid = true) :
    dirX c f (dirOf m) body = body (if m = 0 ∨ m = 1 then xreg c.g f.xr.toNat else XReg.invalid) := by
  unfold dirX
  by_cases hm : m = 0 ∨ m = 1
  · have hd : dirOf m ≠ .onchip := by rcases hm with rfl | rfl <;> decide
    rw [if_neg hd, if_pos hm, withX, if_pos (h hm)]
  · have hd : dirOf m = .onchip := by
      rw [not_or] at hm
      simp [dirOf, hm]
    rw [if_pos hd, if_neg hm]

/-- A copy through an invalid translation register raises OPERAND with code 20. -/
theorem dirX_invalid {c : Ctx} {f : CX} {m : Nat} (body : XReg → Eff) (hm : m = 0 ∨ m = 1) (h : (xreg c.g f.xr.toNat).valid = false) :
    dirX c f (dirOf m) body = operandTrap c 20 := by
  have hd : dirOf m ≠ .onchip := by rcases hm with rfl | rfl <;> decide
  rw [dirX, if_neg hd, withX, h]
  rfl

/-- The shape of a copy of one row. -/
theorem cpyShape_one {f : CX} {sc : DWord} (hf : f.md.getLsbD 2 = false) (h1 : 1 ≤ sc.toNat) (h2 : sc.toNat ≤ 2 ^ 20) :
    cpyShape f sc = some (sc.toNat, 1, 0) := by
  rw [cpyShape, hf, if_neg (by decide), if_neg (by omega)]

theorem cpyShape_bad {f : CX} {sc : DWord} (hf : f.md.getLsbD 2 = false) (h : sc.toNat = 0 ∨ 2 ^ 20 < sc.toNat) : cpyShape f sc = none := by
  rw [cpyShape, hf, if_neg (by decide), if_pos h]

/-- The shape of a copy of rows. -/
theorem cpyShape_rows {f : CX} {sc : DWord} (hf : f.md.getLsbD 2 = true) (h0 : sc.extractLsb' 52 12 = 0)
    (h1 : 1 ≤ (sc.extractLsb' 0 20).toNat) (h2 : 1 ≤ (sc.extractLsb' 20 12).toNat) :
    cpyShape f sc = some ((sc.extractLsb' 0 20).toNat, (sc.extractLsb' 20 12).toNat, (sc.extractLsb' 32 20).toNat) := by
  rw [cpyShape, hf, if_pos rfl]
  dsimp only [bits]
  rw [if_neg]
  rw [h0]
  simp only [BitVec.ofNat_eq_ofNat, BitVec.toNat_ofNat, Nat.zero_mod, ne_eq, not_true, false_or]
  omega

/-- CPY issues a copy of its shape. -/
theorem cpy_issues {f : CX} {s : State} {c : Ctx} {rowb rows sstr : Nat} (h : Ready s (.cpy f) c)
    (hx : (f.md.extractLsb' 0 2).toNat = 0 ∨ (f.md.extractLsb' 0 2).toNat = 1 → (xreg c.g f.xr.toNat).valid = true)
    (hshape : cpyShape f (sval c.g f.lit f.sc) = some (rowb, rows, sstr)) (hb : 1 ≤ rowb)
    (hin : 0 ≤ (sval c.g f.lit f.sa).toInt ∧ (sval c.g f.lit f.sa).toInt + ((rows - 1) * sstr + rowb : Nat) ≤ c.l.kern.scratch) :
    IssuesCopy .cpy f s c (if (f.md.extractLsb' 0 2).toNat = 0 then .ld else .st)
      (.cpy (dirOf (f.md.extractLsb' 0 2).toNat)
        (if (f.md.extractLsb' 0 2).toNat = 0 ∨ (f.md.extractLsb' 0 2).toNat = 1 then xreg c.g f.xr.toNat else XReg.invalid)
        (sval c.g f.lit f.sa).toInt.toNat (sval c.g f.lit f.sb) rowb rows sstr
        (if f.md.getLsbD 2 then (uniformVal c.g f.lit f.va.toNat 2).toInt else 0))
      [⟨(sval c.g f.lit f.sa).toInt.toNat, (sval c.g f.lit f.sa).toInt.toNat + ((rows - 1) * sstr + rowb),
        decide ((f.md.extractLsb' 0 2).toNat = 0)⟩] := by
  obtain ⟨hlo, hhi⟩ := hin
  have hspan : ((sval c.g f.lit f.sa).toInt + ((rows - 1) * sstr + rowb : Nat)).toNat =
      (sval c.g f.lit f.sa).toInt.toNat + ((rows - 1) * sstr + rowb) := by omega
  rw [← dirCtr_dirOf, ← dirOf_inn, ← hspan]
  refine issuesCopy_of_body (body := fun c => _) rfl h (isVector_cpy f) (by rw [dirCtr_dirOf]; split <;> decide) ?_
    (foot := (List.range rows).map (fun r => ((sval c.g f.lit f.sa).toInt + (r * sstr : Nat), (sval c.g f.lit f.sa).toInt + (r * sstr + rowb : Nat))))
    (spansOut_none ?_) ?_
  · intro x hmem
    rw [List.mem_singleton] at hmem
    subst hmem
    dsimp only
    rw [hspan]
    exact Nat.lt_add_of_pos_right (Nat.add_pos_right _ hb)
  · intro x hmem
    obtain ⟨r, hr, rfl⟩ := List.mem_map.1 hmem
    have hle : r * sstr ≤ (rows - 1) * sstr := Nat.mul_le_mul_right _ (by have := List.mem_range.1 hr; omega)
    exact ⟨by dsimp only; omega, by dsimp only [Ctx.size]; omega⟩
  · dsimp only
    rw [dirX_named _ hx, hshape]
    exact .refl _

/-- CPYX issues one copy for its active lanes. -/
theorem cpyx_issues {f : CX} {s : State} {c : Ctx} (h : Ready s (.cpyx f) c)
    (hx : (f.md.extractLsb' 0 2).toNat = 0 ∨ (f.md.extractLsb' 0 2).toNat = 1 → (xreg c.g f.xr.toNat).valid = true)
    (hin : 0 ≤ (sval c.g f.lit f.sa).toInt ∧
      (sval c.g f.lit f.sa).toInt + (128 * 2 ^ (f.md.extractLsb' 2 3).toNat : Nat) ≤ c.l.kern.scratch) :
    IssuesCopy .cpyx f s c (if (f.md.extractLsb' 0 2).toNat = 0 then .ld else .st)
      (.cpyx (dirOf (f.md.extractLsb' 0 2).toNat)
        (if (f.md.extractLsb' 0 2).toNat = 0 ∨ (f.md.extractLsb' 0 2).toNat = 1 then xreg c.g f.xr.toNat else XReg.invalid)
        (2 ^ (f.md.extractLsb' 2 3).toNat) (sval c.g f.lit f.sa).toInt.toNat (sval c.g f.lit f.sb) (activeIndexes s c f))
      [⟨(sval c.g f.lit f.sa).toInt.toNat, (sval c.g f.lit f.sa).toInt.toNat + 128 * 2 ^ (f.md.extractLsb' 2 3).toNat,
        decide ((f.md.extractLsb' 0 2).toNat = 0)⟩] := by
  obtain ⟨hlo, hhi⟩ := hin
  have hpos : 0 < 2 ^ (f.md.extractLsb' 2 3).toNat := Nat.two_pow_pos _
  have hspan : ((sval c.g f.lit f.sa).toInt + (128 * 2 ^ (f.md.extractLsb' 2 3).toNat : Nat)).toNat =
      (sval c.g f.lit f.sa).toInt.toNat + 128 * 2 ^ (f.md.extractLsb' 2 3).toNat := by omega
  rw [← dirCtr_dirOf, ← dirOf_inn, ← hspan]
  refine issuesCopy_of_body (body := fun c => _) rfl h (isVector_cpyx f) (by rw [dirCtr_dirOf]; split <;> decide) ?_
    (foot := [((sval c.g f.lit f.sa).toInt, (sval c.g f.lit f.sa).toInt + (128 * 2 ^ (f.md.extractLsb' 2 3).toNat : Nat))])
    (spansOut_none ?_) ?_
  · intro x hmem
    rw [List.mem_singleton] at hmem
    subst hmem
    dsimp only
    rw [hspan]
    omega
  · intro x hmem
    rw [List.mem_singleton] at hmem
    subst hmem
    exact ⟨hlo, hhi⟩
  · dsimp only
    rw [dirX_named _ hx, ← laneIdx_eq]
    exact .refl _

/-- CPYF issues a fill of global memory through a valid translation register. -/
theorem cpyf_issues_global {f : CX} {s : State} {c : Ctx} (h : Ready s (.cpyf f) c) (h1 : 1 ≤ (sval c.g f.lit f.sc).toNat)
    (h2 : (sval c.g f.lit f.sc).toNat ≤ 2 ^ 20) (hm : f.md.getLsbD 0 = true) (hx : (xreg c.g f.xr.toNat).valid = true) :
    IssuesCopy .cpyf f s c .st
      (.cpyf (some (xreg c.g f.xr.toNat)) (sval c.g f.lit f.sa) (sval c.g f.lit f.sb) (sval c.g f.lit f.sc).toNat) [] := by
  refine issuesCopy_of_body (body := fun c => _) rfl h (isVector_cpyf f) (by decide) (by simp) (foot := []) rfl ?_
  dsimp only
  rw [hm, if_pos rfl, withX, if_pos hx, if_neg (by omega), if_pos rfl]
  exact .refl _

/-- CPYF issues a fill of scratchpad. -/
theorem cpyf_issues_scratch {f : CX} {s : State} {c : Ctx} (h : Ready s (.cpyf f) c) (h1 : 1 ≤ (sval c.g f.lit f.sc).toNat)
    (h2 : (sval c.g f.lit f.sc).toNat ≤ 2 ^ 20) (hm : f.md.getLsbD 0 = false)
    (hin : 0 ≤ (sval c.g f.lit f.sa).toInt ∧ (sval c.g f.lit f.sa).toInt + (sval c.g f.lit f.sc).toNat ≤ c.l.kern.scratch) :
    IssuesCopy .cpyf f s c .ld (.cpyf none (sval c.g f.lit f.sa) (sval c.g f.lit f.sb) (sval c.g f.lit f.sc).toNat)
      [⟨(sval c.g f.lit f.sa).toInt.toNat, (sval c.g f.lit f.sa).toInt.toNat + (sval c.g f.lit f.sc).toNat, true⟩] := by
  obtain ⟨hlo, hhi⟩ := hin
  have hnat : (sval c.g f.lit f.sa).toInt.toNat = (sval c.g f.lit f.sa).toNat := by
    rw [BitVec.toInt_eq_toNat_cond] at hlo ⊢
    split at hlo <;> split <;> omega
  rw [hnat]
  refine issuesCopy_of_body (body := fun c => _) rfl h (isVector_cpyf f) (by decide) ?_
    (foot := [((sval c.g f.lit f.sa).toInt, (sval c.g f.lit f.sa).toInt + (sval c.g f.lit f.sc).toNat)]) (spansOut_none ?_) ?_
  · intro x hmem
    rw [List.mem_singleton] at hmem
    subst hmem
    dsimp only
    omega
  · intro x hmem
    rw [List.mem_singleton] at hmem
    subst hmem
    exact ⟨hlo, hhi⟩
  · dsimp only
    rw [hm, if_neg (by decide)]
    dsimp only
    rw [if_neg (by omega), if_neg (by decide)]
    exact .refl _

/-- Settles O29: each copy's checks pass or trap, and its issue is the shared one. -/
theorem copiesIssue : Obligations.CopiesIssue := by
  unfold Obligations.CopiesIssue
  intro f s c
  refine ⟨fun h hx => ⟨fun hm h1 h2 hin => ?_, fun hm h0 h1 h2 hin => ?_, fun hm hbad hh => ?_⟩, fun h hm hx hh => ?_,
    fun h hx hin => cpyx_issues h hx hin, fun h h1 h2 => ⟨fun hm hx => cpyf_issues_global h h1 h2 hm hx,
      fun hm hin => cpyf_issues_scratch h h1 h2 hm hin⟩⟩
  · have hi := cpy_issues h hx (cpyShape_one hm h1 h2) h1 (by simpa using hin)
    rw [hm, Nat.sub_self, Nat.zero_mul, Nat.zero_add] at hi
    exact hi
  · have hi := cpy_issues h hx (cpyShape_rows hm h0 h1 h2) h1 hin
    rw [hm] at hi
    exact hi
  · refine traps_operand (body := fun c => _) rfl h (isVector_cpy f) ?_ hh
    dsimp only
    rw [dirX_named _ hx, cpyShape_bad hm hbad]
  · refine traps_operand (body := fun c => _) rfl h (isVector_cpy f) ?_ hh
    exact dirX_invalid _ hm hx

end Sys2Proof.Machine
end

