-- ==== Sys2Proof/Proofs/FarIssue.lean ====
section

/-! # Far atomics, sibling cells, graph signals and graphs at issue (O30) -/

namespace Sys2Proof.Machine

/-! ## Lanes of far and sibling operations -/

theorem splat_getD (v : DWord) {l : Nat} (h : l < 128) : (splat v).getD l 0 = v := by
  show (List.replicate 128 v).getD l 0 = v
  rw [List.getD_eq_getElem?_getD, List.getElem?_replicate, if_pos h]
  rfl

/-- An active lane is one of the 128. -/
theorem activeIndexes_lt {s : State} {c : Ctx} {f : CX} {p : Nat × Nat} (h : p ∈ activeIndexes s c f) : p.1 < 128 := by
  obtain ⟨l, hl, rfl⟩ := List.mem_map.1 h
  exact List.mem_range.1 (List.mem_filter.1 hl).1

/-- The requests of a far atomic, as the claims name them: an operand that is not used reads as zero, a scalar stands in every lane. -/
theorem farLanes_eq (s : State) (c : Ctx) (f : CX) :
    farLanes s c f = (activeIndexes s c f).map (fun p =>
      ⟨p.1, (sval c.g f.lit f.sb).toNat + p.2,
        if (f.md.extractLsb' 0 4).toNat = 11 then 0
        else lane (srcLanes s c f.lit f.vb.toNat (if (f.md.extractLsb' 0 4).toNat = 9 then 6
          else if (f.md.extractLsb' 0 4).toNat = 10 then 7
          else (if f.md.getLsbD 4 then 2 else 0) + (if f.md.getLsbD 5 then 0 else 1))) p.1,
        if (f.md.extractLsb' 0 4).toNat = 8 then
          lane (regLanes c.g (f.vb.toNat + (if f.md.getLsbD 4 then 64 else 32) / 32) (if f.md.getLsbD 4 then 64 else 32)) p.1
        else BitVec.ofNat 64 ((sval c.g f.lit f.sc).toNat % 2 ^ (if f.md.getLsbD 4 then 64 else 32))⟩) := by
  unfold farLanes
  rw [laneIdx_eq]
  refine List.map_congr_left fun p hp => ?_
  have hl := activeIndexes_lt hp
  dsimp only [bits]
  congr 1
  · split
    · exact splat_getD 0 hl
    · rfl
  · split
    · rfl
    · exact splat_getD _ hl

/-- An instruction without a footprint and spans of its own. -/
theorem issuesCopy_plain {i : CX → Instr} {f : CX} {s : State} {c : Ctx} {ctr : Ctr} {act : OpAct} {body : Ctx → Eff}
    (he : exec (i f) s = issue (i f) s body) (h : Ready s (i f) c) (hv : isVector (i f) = false) (hctr : ctr ≠ .tile)
    (hbody : SameButGraphs (copyIssue s c f ctr act [] []) (body c)) : IssuesCopy i f s c ctr act [] :=
  issuesCopy_of_body he h hv hctr (by simp) rfl hbody

theorem withX_valid {c : Ctx} {f : CX} (body : XReg → Eff) (h : (xreg c.g f.xr.toNat).valid = true) : withX c f body = body (xreg c.g f.xr.toNat) :=
  if_pos h

/-! ## The issue of far atomics, sibling cells and graphs -/

/-- SKGET's footprint lies in the allocation. -/
theorem skget_issues {f : CX} {s : State} {c : Ctx} (hx : (xreg c.g f.xr.toNat).valid = true) (h : Ready s (.skget f) c)
    (h8 : (sval c.g f.lit f.sa).toNat % 8 = 0) (hin : (sval c.g f.lit f.sa).toNat + 6144 ≤ c.l.kern.scratch)
    (hlt : (sval c.g f.lit f.sa).toNat < 2 ^ 63) :
    IssuesCopy .skget f s c .ld (.skget (xreg c.g f.xr.toNat) (sval c.g f.lit f.sa).toNat (skLanes s c f))
      [⟨(sval c.g f.lit f.sa).toNat, (sval c.g f.lit f.sa).toNat + 6144, true⟩] := by
  have hint : (sval c.g f.lit f.sa).toInt = (sval c.g f.lit f.sa).toNat := BitVec.toInt_eq_toNat_of_lt (by omega)
  refine issuesCopy_of_body (body := fun c => _) rfl h (isVector_skget f) (by decide) ?_
    (foot := [((sval c.g f.lit f.sa).toInt, (sval c.g f.lit f.sa).toInt + 6144)]) (spansOut_none ?_) ?_
  · intro x hmem
    rw [List.mem_singleton] at hmem
    subst hmem
    dsimp only
    omega
  · intro x hmem
    rw [List.mem_singleton] at hmem
    subst hmem
    exact ⟨by dsimp only; omega, by dsimp only [Ctx.size]; omega⟩
  · dsimp only
    rw [withX_valid _ hx, if_neg (not_not.2 h8)]
    exact .refl _

/-- The beginning of a graph changes the graphs alone. -/
theorem startGraph_frame (s : State) (n : Nat) : ∃ gr, startGraph s n = { s with graphs := gr } := by
  unfold startGraph
  split
  · split
    · exact ⟨_, rfl⟩
    · exact ⟨s.graphs, rfl⟩
  · exact ⟨s.graphs, rfl⟩

/-- GRUN issues a graph, which outside DET launches begins at once. -/
theorem grun_issues {f : CX} {s : State} {c : Ctx} (hx : (xreg c.g f.xr.toNat).valid = true) (h : Ready s (.grun f) c)
    (h64 : (sval c.g f.lit f.sa).toNat % 64 = 0) (h1 : 1 ≤ (sval c.g f.lit f.sb).toNat) (h2 : (sval c.g f.lit f.sb).toNat ≤ 65535)
    (hfree : c.l.kern.det = true ∨ graphsOn s c.w.core < 16) :
    IssuesCopy .grun f s c .st (.grun (xreg c.g f.xr.toNat) (sval c.g f.lit f.sa).toNat (sval c.g f.lit f.sb).toNat
      (sval c.g f.lit f.sc).toNat) [] := by
  refine issuesCopy_plain (body := fun c => _) rfl h (isVector_grun f) (by decide) ?_
  have hno : ¬(!c.det && decide (Config.graphsPerCore ≤ graphsOn s c.w.core)) = true := by
    rcases hfree with hd | hg
    · simp [Ctx.det, hd]
    · have : ¬Config.graphsPerCore ≤ graphsOn s c.w.core := Nat.not_le.2 hg
      simp [this]
  dsimp only
  rw [withX_valid _ hx, if_neg (not_not.2 h64), if_neg (by omega), if_neg hno]
  cases copyIssue s c f .st (.grun (xreg c.g f.xr.toNat) (sval c.g f.lit f.sa).toNat (sval c.g f.lit f.sb).toNat
      (sval c.g f.lit f.sc).toNat) [] [] with
  | next s2 g2 =>
    dsimp only
    split
    · exact ⟨s2.graphs, rfl⟩
    · obtain ⟨gr, hgr⟩ := startGraph_frame s2 s.opNo
      exact ⟨gr, congrArg (Eff.next · g2) hgr⟩
  | _ => rfl

/-- A core's seventeenth graph waits at issue. -/
theorem grun_stalls {f : CX} {s : State} {c : Ctx} (hx : (xreg c.g f.xr.toNat).valid = true) (h : Ready s (.grun f) c)
    (h64 : (sval c.g f.lit f.sa).toNat % 64 = 0) (h1 : 1 ≤ (sval c.g f.lit f.sb).toNat) (h2 : (sval c.g f.lit f.sb).toNat ≤ 65535)
    (hd : c.l.kern.det = false) (hfull : 16 ≤ graphsOn s c.w.core) : Stalls (.grun f) s c := by
  refine stalls_of_body (body := fun c => _) rfl h (.inl (isVector_grun f)) ?_
  have hyes : (!c.det && decide (Config.graphsPerCore ≤ graphsOn s c.w.core)) = true := by
    have : Config.graphsPerCore ≤ graphsOn s c.w.core := hfull
    simp [Ctx.det, hd, this]
  dsimp only
  rw [withX_valid _ hx, if_neg (not_not.2 h64), if_neg (by omega), if_pos hyes]

/-- Settles O30: every one of them ends in the copy engine's shared end of issue. -/
theorem farAndGraphOperationsIssue : Obligations.FarAndGraphOperationsIssue := by
  unfold Obligations.FarAndGraphOperationsIssue
  intro f s c x sa sb aop wide signed width ty requests cells plain hx
  refine ⟨fun h => ?_, fun h => ?_, fun h => ⟨fun h8 hin hlt => skget_issues hx h h8 hin hlt, fun h8 hh => ?_⟩, fun h => ?_, fun h => ?_,
    fun h => ⟨fun hsb => ?_, fun hsb hh => ?_⟩, fun h h64 h1 h2 => ⟨fun hfree => grun_issues hx h h64 h1 h2 hfree,
      fun hd hfull => grun_stalls hx h h64 h1 h2 hd hfull⟩⟩
  · refine issuesCopy_plain (body := fun c => _) rfl h (isVector_fat f) (by decide) ?_
    rw [farIssue, withX_valid _ hx, farLanes_eq]
    exact .refl _
  · refine issuesCopy_plain (body := fun c => _) rfl h (isVector_fred f) (by decide) ?_
    rw [farIssue, withX_valid _ hx, farLanes_eq]
    exact .refl _
  · refine traps_of_body (body := fun c => _) rfl h (.inl (isVector_skget f)) ?_ hh (m := ⟨cALIGN, sa, 0⟩)
    dsimp only
    rw [withX_valid _ hx, if_pos h8]
    rfl
  · refine issuesCopy_plain (body := fun c => _) rfl h (isVector_skput f) (by decide) ?_
    dsimp only
    rw [withX_valid _ hx, skLanes, List.map_map]
    exact .refl _
  · refine issuesCopy_plain (body := fun c => _) rfl h (isVector_skrec f) (by decide) ?_
    rw [withX_valid _ hx]
    exact .refl _
  · refine issuesCopy_plain (body := fun c => _) rfl h (isVector_gsig f) (by decide) ?_
    dsimp only
    rw [withX_valid _ hx, if_neg (Nat.not_le.2 hsb)]
    exact .refl _
  · refine traps_operand (body := fun c => _) rfl h (isVector_gsig f) ?_ hh
    dsimp only
    rw [withX_valid _ hx, if_pos hsb]

end Sys2Proof.Machine
end

