-- ==== Sys2Proof/Proofs/TileIssue.lean ====
section

/-! # The tile instructions at issue (O26) -/

namespace Sys2Proof.Machine

/-! ## A tile operation at issue -/

/-- With no more than `n` operations on its tile counter a group need not let any leave. -/
theorem tileLeave_short {s : State} {g : Group} {n : Nat} (h : g.tile.length ≤ n) : tileLeave s g n = (s, g) := by
  unfold tileLeave
  split
  · rw [leaveDown_short n g.tile h]
    simp
  · rfl

/-- The DET bit of the issuing group's launch. -/
theorem launchDet_of_ctx {s : State} {i : Instr} {c : Ctx} (h : ctxOf s i = some c) : launchDet s c.g.launch = c.l.kern.det := by
  obtain ⟨-, -, -, hl, -, -⟩ := ctxOf_some h
  rw [launchDet, hl]

/-- The operation that a tile instruction issues. -/
abbrev tileOpOf (s : State) (c : Ctx) (act : TileAct) (wr rd : List Nat) : EngineOp :=
  newOp s c (some .tile) 0 0 none (tileAct c act wr rd)

/-- With its counter not full, a tile operation is issued as it stands. -/
theorem tileOp_of_count {s : State} {c : Ctx} {act : TileAct} {wr rd : List Nat} {spans : List Span} (h : c.g.tile.length < Config.counterMax) :
    tileOp s c act wr rd spans = issueOp s c .tile (tileOpOf s c act wr rd) spans := by
  unfold tileOp
  rw [tileLeave_short (by omega)]

/-- Outside DET launches too. -/
theorem tileOp_not_det {s : State} {c : Ctx} {act : TileAct} {wr rd : List Nat} {spans : List Span} (h : launchDet s c.g.launch = false) :
    tileOp s c act wr rd spans = issueOp s c .tile (tileOpOf s c act wr rd) spans := by
  unfold tileOp
  rw [tileLeave_not_det s c.g _ h]

/-- With room, what a tile instruction's own part comes to. -/
theorem tileOp_of_room {s : State} {c : Ctx} {act : TileAct} {wr rd : List Nat} {spans : List Span} (hne : ∀ x ∈ spans, x.lo < x.hi)
    (h : Room s c .tile spans.length) :
    ∃ ws g, SamePads s { s with wgs := ws } ∧ IssuedGroup s c .tile g ∧ tileOp s c act wr rd spans =
      .next { placedOp s c .tile (tileOpOf s c act wr rd) (entrySpans spans none) with wgs := ws } g := by
  rw [tileOp_of_count h.1]
  exact issueOp_of_room hne h

/-- A group whose status or tile controls alone have changed has issued what it had. -/
theorem Counting.congr {s : State} {c : Ctx} {ctr : Ctr} {g g' : Group} (h : Counting s c ctr g)
    (e : ∃ st tc, g' = { g with status := st, tc := tc }) : Counting s c ctr g' := by
  obtain ⟨st, tc, rfl⟩ := e
  obtain ⟨h1, h2, h3, h4, h5, h6⟩ := h
  refine ⟨?_, h2, h3, h4, h5, h6⟩
  rw [← h1]
  cases ctr <;> rfl

/-- Retirement keeps a group's status. -/
theorem retiredGroup_status (s : State) (c : Ctx) (g : Group) (pc : DWord) : (retiredGroup s c g pc).status = g.status := by
  obtain ⟨_, _, _, _, _, _, _, _, e⟩ := retiredGroup_eq s c g pc
  rw [e]

/-- It keeps its tile controls. -/
theorem retiredGroup_tc (s : State) (c : Ctx) (g : Group) (pc : DWord) : (retiredGroup s c g pc).tc = g.tc := by
  obtain ⟨_, _, _, _, _, _, _, _, e⟩ := retiredGroup_eq s c g pc
  rw [e]

/-- A tile instruction whose effect is an operation issued, its group left as `g`. -/
theorem tile_issued {i : Instr} {s : State} {c : Ctx} {act : TileAct} {wr rd : List Nat} {spans : List Span} {ws : Tbl Workgroup} {g : Group}
    {body : Ctx → Eff} (he : exec i s = issue i s body) (h : Ready s i c) (hv : isVector i = false) (hne : ∀ x ∈ spans, x.lo < x.hi)
    (hp : SamePads s { s with wgs := ws }) (hg : Counting s c .tile g)
    (hb : body c = .next { placedOp s c .tile (tileOpOf s c act wr rd) (entrySpans spans none) with wgs := ws } g) :
    ∃ t g', exec i s = .next t ∧ Issued s t c i .tile (tileAct c act wr rd) none spans ∧ tget t.groups c.k = some g' ∧
      g'.status = g.status ∧ g'.tc = g.tc := by
  obtain ⟨gs, ws', hr, -, hown, -⟩ := retire_frame
    { placedOp s c .tile (tileOpOf s c act wr rd) (entrySpans spans none) with wgs := ws } c g (after i c)
  exact ⟨_, _, exec_issued he h hv hb, issued_retire (gr := s.graphs) hne hp hg, by rw [hr]; exact hown, retiredGroup_status ..,
    retiredGroup_tc ..⟩

/-! ## What tile instructions share -/

theorem unallocated_none {c : Ctx} {named : List (Nat × BitVec 4)} (h : ∀ p ∈ named, tAlloc (tctl c.g p.2.toNat) = true) :
    unallocated c named = none := by
  induction named with
  | nil => rfl
  | cons p ps ih =>
    obtain ⟨code, t⟩ := p
    rw [unallocated, if_pos (h (code, t) (by simp))]
    exact ih (fun q hq => h q (by simp [hq]))

/-- The claims' word for a tile instruction that has passed its checks: it issues `act`, stalls behind an earlier operation that it meets, and waits
at issue behind a TFLG, or without room outside DET launches. -/
def TileIssues (s : State) (c : Ctx) (i : Instr) (act : TileAct) (wr rd : List Nat) (spans : List Span) : Prop :=
  ((∃ p ∈ tileOps s c.g, isTflg p.2 = true) → Stalls i s c) ∧
  ((∀ p ∈ tileOps s c.g, isTflg p.2 = false) →
    (Room s c .tile spans.length →
      ∃ t g', exec i s = .next t ∧ Issued s t c i .tile (tileAct c act wr rd) none spans ∧ tget t.groups c.k = some g' ∧
        ((∃ p ∈ tileOps s c.g, tileClash p.2 wr rd = true) → g'.status = .stalled) ∧
        ((∀ p ∈ tileOps s c.g, tileClash p.2 wr rd = false) → g'.status = c.g.status)) ∧
    (¬Room s c .tile spans.length → c.l.kern.det = false → Stalls i s c))

theorem tileIssues_of_body {i : Instr} {s : State} {c : Ctx} {act : TileAct} {wr rd : List Nat} {spans : List Span}
    {named : List (Nat × BitVec 4)} {body : Ctx → Eff} (he : exec i s = issue i s body) (h : Ready s i c) (hv : isVector i = false)
    (hne : ∀ x ∈ spans, x.lo < x.hi) (halloc : ∀ p ∈ named, tAlloc (tctl c.g p.2.toNat) = true)
    (hbody : body c = tileIssue s c wr rd named (tileOp s c act wr rd spans)) : TileIssues s c i act wr rd spans := by
  have hb : body c = if (tileOps s c.g).any (fun p => isTflg p.2) then .stall
      else if (tileOps s c.g).any (fun p => tileClash p.2 wr rd) then besideTiles (tileOp s c act wr rd spans)
      else tileOp s c act wr rd spans := by
    rw [hbody, tileIssue, unallocated_none halloc]
  refine ⟨fun hflg => ?_, fun hflg => ⟨fun hroom => ?_, fun hroom hd => ?_⟩⟩
  · refine stalls_of_body he h (.inl hv) ?_
    rw [hb, if_pos (List.any_eq_true.2 hflg)]
  · have hno : ¬(tileOps s c.g).any (fun p => isTflg p.2) = true := by
      rw [Bool.not_eq_true]
      exact List.any_eq_false.2 (fun p hp => by rw [hflg p hp]; decide)
    rw [if_neg hno] at hb
    obtain ⟨ws, g, hp, hg, hi⟩ := tileOp_of_room (act := act) (wr := wr) (rd := rd) hne hroom
    obtain ⟨ds, hds⟩ := hg
    by_cases hclash : (tileOps s c.g).any (fun p => tileClash p.2 wr rd) = true
    · rw [if_pos hclash, hi] at hb
      have hg' : Counting s c .tile { g with status := .stalled } := (IssuedGroup.counting ⟨ds, hds⟩).congr ⟨.stalled, g.tc, rfl⟩
      obtain ⟨t, g', h1, h2, h3, h4, -⟩ := tile_issued he h hv hne hp hg' hb
      refine ⟨t, g', h1, h2, h3, fun _ => h4, fun hnone => ?_⟩
      obtain ⟨p, hmem, hc⟩ := List.any_eq_true.1 hclash
      rw [hnone p hmem] at hc
      cases hc
    · rw [if_neg hclash, hi] at hb
      obtain ⟨t, g', h1, h2, h3, h4, -⟩ := tile_issued he h hv hne hp (IssuedGroup.counting ⟨ds, hds⟩) hb
      refine ⟨t, g', h1, h2, h3, fun hsome => absurd (List.any_eq_true.2 hsome) hclash, fun _ => ?_⟩
      rw [h4, hds]
      rfl
  · have hstall : tileOp s c act wr rd spans = .stall := by
      rw [tileOp_not_det ((launchDet_of_ctx h.1).trans hd)]
      exact (issueOp_of_no_room hne hroom).1 hd
    refine stalls_of_body he h (.inl hv) ?_
    rw [hb, hstall]
    split
    · rfl
    · split <;> rfl

/-! ## Tile instructions that name no scratchpad -/

/-- TZERO. -/
theorem tzero_issues {f : TX} {s : State} {c : Ctx} (h : Ready s (.tzero f) c) (hd : tAlloc (tctl c.g f.td.toNat) = true) :
    TileIssues s c (.tzero f) (.tzero (tctl c.g f.td.toNat)) [f.td.toNat] [] [] := by
  refine tileIssues_of_body (body := fun c => _) (named := [(16, f.td)]) rfl h (isVector_tzero f) (by simp) ?_ ?_
  · simpa using hd
  · rfl

/-- TMOV of a pair. -/
theorem tmov_issues {f : TX} {s : State} {c : Ctx} (h : Ready s (.tmov f) c) (hd : tAlloc (tctl c.g f.td.toNat) = true)
    (ha : tAlloc (tctl c.g f.ta.toNat) = true) (hp : movPair (tctl c.g f.td.toNat) (tctl c.g f.ta.toNat) = true)
    (ho : f.td = f.ta ∨ tOverlap (tctl c.g f.td.toNat) (tctl c.g f.ta.toNat) = false) :
    TileIssues s c (.tmov f) (.tmov (tctl c.g f.td.toNat) (tctl c.g f.ta.toNat)) [f.td.toNat] [f.ta.toNat] [] := by
  refine tileIssues_of_body (body := fun c => _) (named := [(16, f.td), (17, f.ta)]) rfl h (isVector_tmov f) (by simp) ?_ ?_
  · simpa using ⟨hd, ha⟩
  · rw [if_neg]
    rw [hp]
    obtain heq | hno := ho
    · simp [heq]
    · simp [hno]

/-- TFLG.GET. -/
theorem tflgGet_issues {f : TX} {s : State} {c : Ctx} (h : Ready s (.tflgGet f) c) :
    TileIssues s c (.tflgGet f) (.tflgGet f.sa.toNat) [] [] [] :=
  tileIssues_of_body (body := fun c => _) (named := []) rfl h (isVector_tflgGet f) (by simp) (by simp) rfl

/-- TFLG.SET with no reserved bit. -/
theorem tflgSet_issues {f : TX} {s : State} {c : Ctx} (h : Ready s (.tflgSet f) c) (h1 : (sval c.g f.lit f.sa).extractLsb' 14 50 = 0)
    (h2 : (sval c.g f.lit f.sa).extractLsb' 6 2 = 0) :
    TileIssues s c (.tflgSet f) (.tflgSet ((sval c.g f.lit f.sa).extractLsb' 0 32) ((sval c.g f.lit f.sb).extractLsb' 0 32)) [] [] [] := by
  refine tileIssues_of_body (body := fun c => _) (named := []) rfl h (isVector_tflgSet f) (by simp) (by simp) ?_
  have hr : tflagsReserved (sval c.g f.lit f.sa) = false := by
    rw [tflagsReserved, bits, bits, h1, h2]
    rfl
  rw [if_neg (by simp [hr]), ← BitVec.setWidth_eq_extractLsb' (by decide), ← BitVec.setWidth_eq_extractLsb' (by decide)]

/-- TMMA in a mode that fits its shapes. -/
theorem tmma_issues {f : TX} {s : State} {c : Ctx} {fa fb fd : Nat} (h : Ready s (.tmma f) c) (hd : tAlloc (tctl c.g f.td.toNat) = true)
    (ha : tAlloc (tctl c.g f.ta.toNat) = true) (hb : tAlloc (tctl c.g f.tb.toNat) = true) (hm : mmaMode c.g.pal = some (fa, fb, fd))
    (hs : mmaShape c.g.pal (tctl c.g f.td.toNat) (tctl c.g f.ta.toNat) (tctl c.g f.tb.toNat) f fa fb fd = none) :
    TileIssues s c (.tmma f) (.tmma (tctl c.g f.td.toNat) (tctl c.g f.ta.toNat) (tctl c.g f.tb.toNat) (f.md.getLsbD 0)) [f.td.toNat]
      [f.td.toNat, f.ta.toNat, f.tb.toNat] [] := by
  refine tileIssues_of_body (body := fun c => _) (named := [(16, f.td), (17, f.ta), (18, f.tb)]) rfl h (isVector_tmma f) (by simp) ?_ ?_
  · simpa using ⟨hd, ha, hb⟩
  · rw [hm]
    dsimp only
    rw [hs]

/-- TCOMB of sums into FX128, its counts within bounds. -/
theorem tcomb_issues {f : TX} {s : State} {c : Ctx} (h : Ready s (.tcomb f) c) (hd : tAlloc (tctl c.g f.td.toNat) = true)
    (ha : tAlloc (tctl c.g f.ta.toNat) = true) (hfd : tFmt (tctl c.g f.td.toNat) = 8) (hfa : tFmt (tctl c.g f.ta.toNat) = 7)
    (hr : tRows (tctl c.g f.ta.toNat) = tRows (tctl c.g f.td.toNat)) (hk : f.imm.toNat % 2 ^ 8 ≤ 16) (hi : f.imm.toNat < 2 ^ 14)
    (he : f.imm.toNat / 2 ^ 8 + tElems (tctl c.g f.td.toNat) ≤ tElems (tctl c.g f.ta.toNat)) :
    TileIssues s c (.tcomb f) (.tcomb (tctl c.g f.td.toNat) (tctl c.g f.ta.toNat) (f.imm.toNat % 2 ^ 8) (f.imm.toNat / 2 ^ 8))
      [f.td.toNat] [f.td.toNat, f.ta.toNat] [] := by
  have b0 : bits f.imm 0 5 = f.imm.toNat % 2 ^ 8 := by
    simp only [bits, BitVec.extractLsb'_toNat, Nat.shiftRight_zero]
    omega
  have b8 : bits f.imm 8 7 = f.imm.toNat / 2 ^ 8 := by
    simp only [bits, BitVec.extractLsb'_toNat, Nat.shiftRight_eq_div_pow]
    omega
  have b5 : bits f.imm 5 3 = 0 := by
    simp only [bits, BitVec.extractLsb'_toNat, Nat.shiftRight_eq_div_pow]
    omega
  have b15 : bits f.imm 15 17 = 0 := by
    simp only [bits, BitVec.extractLsb'_toNat, Nat.shiftRight_eq_div_pow]
    omega
  refine tileIssues_of_body (body := fun c => _) (named := [(16, f.td), (17, f.ta)]) rfl h (isVector_tcomb f) (by simp) ?_ ?_
  · simpa using ⟨hd, ha⟩
  · rw [b0, b8, b5, b15, if_neg (by simp [hfd]), if_neg (by simp [hfa]), if_neg (by omega)]

/-- TADD of three tiles of one shape. -/
theorem tadd_issues {f : TX} {s : State} {c : Ctx} (h : Ready s (.tadd f) c) (hd : tAlloc (tctl c.g f.td.toNat) = true)
    (ha : tAlloc (tctl c.g f.ta.toNat) = true) (hb : tAlloc (tctl c.g f.tb.toNat) = true) (hf : 6 ≤ tFmt (tctl c.g f.td.toNat))
    (hsame : ∀ t, t = f.ta ∨ t = f.tb → tFmt (tctl c.g t.toNat) = tFmt (tctl c.g f.td.toNat) ∧
      tRows (tctl c.g t.toNat) = tRows (tctl c.g f.td.toNat) ∧ tRowb (tctl c.g t.toNat) = tRowb (tctl c.g f.td.toNat)) :
    TileIssues s c (.tadd f) (.tadd (tctl c.g f.td.toNat) (tctl c.g f.ta.toNat) (tctl c.g f.tb.toNat)) [f.td.toNat]
      [f.ta.toNat, f.tb.toNat] [] := by
  obtain ⟨a1, a2, a3⟩ := hsame f.ta (.inl rfl)
  obtain ⟨b1, b2, b3⟩ := hsame f.tb (.inr rfl)
  refine tileIssues_of_body (body := fun c => _) (named := [(16, f.td), (17, f.ta), (18, f.tb)]) rfl h (isVector_tadd f) (by simp) ?_ ?_
  · simpa using ⟨hd, ha, hb⟩
  · dsimp only
    rw [if_neg]
    simp [a1, a2, a3, b1, b2, b3, hf]

/-- TCFG of a group with no tile operation in flight: its control is set at once. -/
theorem tcfg_issues {f : TX} {s : State} {c : Ctx} (h : Ready s (.tcfg f) c) (ht : c.g.tile = [])
    (hv : sval c.g f.lit f.sa = 0 ∨ (tAlloc (sval c.g f.lit f.sa) = true ∧ tcfgBad c f.td.toNat (sval c.g f.lit f.sa) = false))
    (hroom : Room s c .tile 0) :
    ∃ t, exec (.tcfg f) s = .next t ∧ Issued s t c (.tcfg f) .tile (tileAct c .tcfg [f.td.toNat] []) none [] ∧
      ∃ g', tget t.groups c.k = some g' ∧ tctl g' f.td.toNat = sval c.g f.lit f.sa ∧ ∀ n, n ≠ f.td.toNat → tctl g' n = tctl c.g n := by
  obtain ⟨ws, g, hp, hg, hi⟩ := tileOp_of_room (act := .tcfg) (wr := [f.td.toNat]) (rd := []) (spans := []) (by simp) hroom
  have hok : (if tAlloc (sval c.g f.lit f.sa) then tcfgBad c f.td.toNat (sval c.g f.lit f.sa) else sval c.g f.lit f.sa != 0) = false := by
    obtain h0 | ⟨h1, h2⟩ := hv
    · rw [h0]
      rfl
    · rw [if_pos h1, h2]
  obtain ⟨t, g', h1, h2, h3, -, h4⟩ := tile_issued (spans := []) (g := setTc g f.td.toNat (sval c.g f.lit f.sa)) (body := fun c => _) rfl h
    (isVector_tcfg f) (by simp) hp (hg.counting.congr ⟨g.status, _, rfl⟩) (by
      dsimp only
      rw [tileLeave_short (by rw [ht]; exact Nat.le_refl 0), if_neg (not_not_intro ht), if_neg (by rw [hok]; decide), hi])
  obtain ⟨ds, rfl⟩ := hg
  refine ⟨t, h1, h2, g', h3, ?_, fun n hn => ?_⟩
  · rw [tctl, h4, setTc, mget_mset_same]
  · rw [tctl, h4, setTc, mget_mset_ne _ _ _ hn]
    rfl

/-! ## Tile instructions that name scratchpad -/

/-- No offset of rows is misaligned. -/
theorem misRows_nil {base : Int} {stride k : Nat} (h1 : base % (k : Int) = 0) (h2 : stride % k = 0) : misRows base stride k = [] := by
  rw [misRows, if_neg (not_not_intro h1), if_neg (not_not_intro h2)]

/-- The end of rows that begin in scratchpad. -/
theorem rowsEnd_toNat {base : Int} (h : 0 ≤ base) (stride rows rowb : Nat) :
    (rowsEnd base stride rows rowb).toNat = base.toNat + (rows - 1) * stride + rowb := by
  rw [rowsEnd]
  omega

/-- Rows of something are an interval of something. -/
theorem rows_nonempty {lo rows stride rowb : Nat} (h : 1 ≤ rowb) : lo < lo + (rows - 1) * stride + rowb := by
  omega

/-- With nothing misaligned, out of bounds or on the tape, the checks of R292 pass. -/
theorem tileScratch_of_pass {s : State} {c : Ctx} {mis : List Int} {xs : List (Int × Int × Bool)} {sp : List Span} {body : List Span → Eff}
    (hmis : mis = []) (hin : ∀ x ∈ xs, 0 ≤ x.1 ∧ x.2.1 ≤ c.l.kern.scratch)
    (hsp : xs.map (fun x => (⟨x.1.toNat, x.2.1.toNat, x.2.2⟩ : Span)) = sp) (ht : spansTape s c sp = none) :
    tileScratch s c mis xs body = body sp := by
  subst hmis hsp
  rw [tileScratch]
  dsimp only [minInt]
  rw [spansOut_none (size := c.size)]
  · dsimp only
    rw [ht]
  · intro x hx
    obtain ⟨y, hy, rfl⟩ := List.mem_map.1 hx
    exact hin y hy

/-- TLD of a tile that holds no weights. -/
theorem tld_issues {f : TX} {s : State} {c : Ctx} {base : Int} (h : Ready s (.tld f) c)
    (hbase : (sval c.g f.lit f.sa).toInt + f.imm.toInt = base) (hd : tAlloc (tctl c.g f.td.toNat) = true)
    (hw : isWeight (tFmt (tctl c.g f.td.toNat)) = false) (hs : (sval c.g f.lit f.sb).toNat < 2 ^ 20) (hb4 : base % 4 = 0)
    (hs4 : (sval c.g f.lit f.sb).toNat % 4 = 0) {sp : Span}
    (hin : 0 ≤ base ∧ rowsEnd base (sval c.g f.lit f.sb).toNat (tRows (tctl c.g f.td.toNat)) (tRowb (tctl c.g f.td.toNat)) ≤ c.l.kern.scratch)
    (hsp : sp = ⟨base.toNat, base.toNat + (tRows (tctl c.g f.td.toNat) - 1) * (sval c.g f.lit f.sb).toNat + tRowb (tctl c.g f.td.toNat), false⟩)
    (hne : 1 ≤ tRowb (tctl c.g f.td.toNat)) (ht : spansTape s c [sp] = none) :
    TileIssues s c (.tld f) (.tld (tctl c.g f.td.toNat) base.toNat (sval c.g f.lit f.sb).toNat) [f.td.toNat] [] [sp] := by
  subst hbase
  refine tileIssues_of_body (body := fun c => _) (named := [(16, f.td)]) rfl h (isVector_tld f) ?_ ?_ ?_
  · intro x hx
    rw [List.mem_singleton.1 hx, hsp]
    exact rows_nonempty hne
  · simpa using hd
  · dsimp only [tileBase]
    rw [if_neg (by simp [hw]), if_neg (Nat.not_le.2 hs), tileScratch_of_pass (misRows_nil hb4 hs4) ?_ ?_ ht]
    · simpa using hin
    · rw [hsp, ← rowsEnd_toNat hin.1]
      rfl

/-- TST of a tile that holds no weights. -/
theorem tst_issues {f : TX} {s : State} {c : Ctx} {base : Int} (h : Ready s (.tst f) c)
    (hbase : (sval c.g f.lit f.sa).toInt + f.imm.toInt = base) (ha : tAlloc (tctl c.g f.ta.toNat) = true)
    (hw : isWeight (tFmt (tctl c.g f.ta.toNat)) = false) (hs : (sval c.g f.lit f.sb).toNat < 2 ^ 20) (hb4 : base % 4 = 0)
    (hs4 : (sval c.g f.lit f.sb).toNat % 4 = 0) {sp : Span}
    (hin : 0 ≤ base ∧ rowsEnd base (sval c.g f.lit f.sb).toNat (tRows (tctl c.g f.ta.toNat)) (tRowb (tctl c.g f.ta.toNat)) ≤ c.l.kern.scratch)
    (hsp : sp = ⟨base.toNat, base.toNat + (tRows (tctl c.g f.ta.toNat) - 1) * (sval c.g f.lit f.sb).toNat + tRowb (tctl c.g f.ta.toNat), true⟩)
    (hne : 1 ≤ tRowb (tctl c.g f.ta.toNat)) (ht : spansTape s c [sp] = none) :
    TileIssues s c (.tst f) (.tst (tctl c.g f.ta.toNat) base.toNat (sval c.g f.lit f.sb).toNat) [] [f.ta.toNat] [sp] := by
  subst hbase
  refine tileIssues_of_body (body := fun c => _) (named := [(17, f.ta)]) rfl h (isVector_tst f) ?_ ?_ ?_
  · intro x hx
    rw [List.mem_singleton.1 hx, hsp]
    exact rows_nonempty hne
  · simpa using ha
  · dsimp only [tileBase]
    rw [if_neg (by simp [hw]), if_neg (Nat.not_le.2 hs), tileScratch_of_pass (misRows_nil hb4 hs4) ?_ ?_ ht]
    · simpa using hin
    · rw [hsp, ← rowsEnd_toNat hin.1]
      rfl

/-- TLDW of weights and their scales. -/
theorem tldw_issues {f : TX} {s : State} {c : Ctx} {base sc : Int} (h : Ready s (.tldw f) c)
    (hbase : (sval c.g f.lit f.sa).toInt + f.imm.toInt = base) (hsc : (sval c.g f.lit f.sc).toInt = sc)
    (hd : tAlloc (tctl c.g f.td.toNat) = true) (hw : isWeight (tFmt (tctl c.g f.td.toNat)) = true)
    (hs : (sval c.g f.lit f.sb).toNat < 2 ^ 20) (hb4 : base % 4 = 0) (hs4 : (sval c.g f.lit f.sb).toNat % 4 = 0) (hc4 : sc % 4 = 0)
    {sp sp' : Span}
    (hin : 0 ≤ base ∧ rowsEnd base (sval c.g f.lit f.sb).toNat (tRows (tctl c.g f.td.toNat)) (tRowb (tctl c.g f.td.toNat)) ≤ c.l.kern.scratch)
    (hcin : 0 ≤ sc ∧ sc + (tScaleBytes (tctl c.g f.td.toNat) : Nat) ≤ c.l.kern.scratch)
    (hsp : sp = ⟨base.toNat, base.toNat + (tRows (tctl c.g f.td.toNat) - 1) * (sval c.g f.lit f.sb).toNat + tRowb (tctl c.g f.td.toNat), false⟩)
    (hsp' : sp' = ⟨sc.toNat, sc.toNat + tScaleBytes (tctl c.g f.td.toNat), false⟩)
    (hne : 1 ≤ tRowb (tctl c.g f.td.toNat)) (hne' : 1 ≤ tScaleBytes (tctl c.g f.td.toNat)) (ht : spansTape s c [sp, sp'] = none) :
    TileIssues s c (.tldw f) (.tldw (tctl c.g f.td.toNat) base.toNat (sval c.g f.lit f.sb).toNat sc.toNat) [f.td.toNat] [] [sp, sp'] := by
  subst hbase hsc
  refine tileIssues_of_body (body := fun c => _) (named := [(16, f.td)]) rfl h (isVector_tldw f) ?_ ?_ ?_
  · intro x hx
    obtain rfl | rfl : x = sp ∨ x = sp' := by simpa using hx
    · rw [hsp]
      exact rows_nonempty hne
    · rw [hsp']
      exact Nat.lt_add_of_pos_right hne'
  · simpa using hd
  · dsimp only [tileBase]
    rw [if_neg (by simp [hw]), if_neg (Nat.not_le.2 hs),
      tileScratch_of_pass (by rw [misRows_nil hb4 hs4, if_neg (not_not_intro hc4)]; rfl) ?_ ?_ ht]
    · simpa using ⟨hin, hcin⟩
    · rw [hsp, hsp', ← rowsEnd_toNat hin.1, ← Int.toNat_add_nat hcin.1]
      rfl

/-- TCVT of FX128 sums with their exponents. -/
theorem tcvt_issues {f : TX} {s : State} {c : Ctx} {dst re ce : Int} (h : Ready s (.tcvt f) c) (hdst : (sval c.g f.lit f.sa).toInt = dst)
    (hre : (sval c.g f.lit f.sb).toInt = re) (hce : (sval c.g f.lit f.sc).toInt = ce) (ha : tAlloc (tctl c.g f.ta.toNat) = true)
    (hf : tFmt (tctl c.g f.ta.toNat) = 8) (hd8 : dst % 8 = 0) (hi8 : f.imm.toNat % 8 = 0) (hr4 : re % 4 = 0) (hc4 : ce % 4 = 0)
    {sr sc sd : Span} (hrin : 0 ≤ re ∧ re + (4 * tRows (tctl c.g f.ta.toNat) : Nat) ≤ c.l.kern.scratch)
    (hcin : 0 ≤ ce ∧ ce + (4 * tElems (tctl c.g f.ta.toNat) : Nat) ≤ c.l.kern.scratch)
    (hdin : 0 ≤ dst ∧ rowsEnd dst f.imm.toNat (tRows (tctl c.g f.ta.toNat)) (8 * tElems (tctl c.g f.ta.toNat)) ≤ c.l.kern.scratch)
    (hsr : sr = ⟨re.toNat, re.toNat + 4 * tRows (tctl c.g f.ta.toNat), false⟩)
    (hsc : sc = ⟨ce.toNat, ce.toNat + 4 * tElems (tctl c.g f.ta.toNat), false⟩)
    (hsd : sd = ⟨dst.toNat, dst.toNat + (tRows (tctl c.g f.ta.toNat) - 1) * f.imm.toNat + 8 * tElems (tctl c.g f.ta.toNat), true⟩)
    (hr1 : 1 ≤ tRows (tctl c.g f.ta.toNat)) (he1 : 1 ≤ tElems (tctl c.g f.ta.toNat)) (ht : spansTape s c [sr, sc, sd] = none) :
    TileIssues s c (.tcvt f) (.tcvt (tctl c.g f.ta.toNat) dst.toNat re.toNat ce.toNat f.imm.toNat) [] [f.ta.toNat] [sr, sc, sd] := by
  subst hdst hre hce
  refine tileIssues_of_body (body := fun c => _) (named := [(17, f.ta)]) rfl h (isVector_tcvt f) ?_ ?_ ?_
  · intro x hx
    obtain rfl | rfl | rfl : x = sr ∨ x = sc ∨ x = sd := by simpa using hx
    · rw [hsr]
      exact Nat.lt_add_of_pos_right (by omega)
    · rw [hsc]
      exact Nat.lt_add_of_pos_right (by omega)
    · rw [hsd]
      exact rows_nonempty (by omega)
  · simpa using ha
  · rw [if_neg (not_not_intro hf), tileScratch_of_pass
      (by rw [misRows_nil hd8 hi8, if_neg (not_not_intro hr4), if_neg (not_not_intro hc4)]; rfl) ?_ ?_ ht]
    · simpa using ⟨hrin, hcin, hdin⟩
    · rw [hsr, hsc, hsd, ← rowsEnd_toNat hdin.1, ← Int.toNat_add_nat hcin.1, ← Int.toNat_add_nat hrin.1]
      rfl

/-- The end of rows that lie in an allocation. -/
theorem rowsEnd_le {base : Int} {stride rows rowb n : Nat} (h : 0 ≤ base ∧ base + ((rows - 1) * stride + rowb : Nat) ≤ n) :
    0 ≤ base ∧ rowsEnd base stride rows rowb ≤ n := h

/-- Settles O26: each tile instruction's checks pass, and its issue is the shared one. -/
theorem tileInstructionsIssue : Obligations.TileInstructionsIssue := by
  unfold Obligations.TileInstructionsIssue
  intro f s c
  refine ⟨tcfg_issues, tzero_issues, tmov_issues, tflgGet_issues, tflgSet_issues, ?_, ?_, ?_, ?_, tcomb_issues, ?_, ?_⟩
  · intro h hd hw hs hb hs4 hin _ hrb ht
    exact tld_issues h rfl hd hw hs hb hs4 (rowsEnd_le hin) rfl hrb ht
  · intro h hd hw hs hb hs4 hc4 hin hcin _ hrb hsb ht
    exact tldw_issues h rfl rfl hd hw hs hb hs4 hc4 (rowsEnd_le hin) hcin rfl rfl hrb hsb ht
  · intro h ha hw hs hb hs4 hin _ hrb ht
    exact tst_issues h rfl ha hw hs hb hs4 (rowsEnd_le hin) rfl hrb ht
  · intro fa fb fd
    exact tmma_issues
  · intro h ha hf hd8 hi8 hr4 hc4 hrin hcin hdin hr he spans ht
    exact tcvt_issues h rfl rfl rfl ha hf hd8 hi8 hr4 hc4 hrin hcin (rowsEnd_le hdin) rfl rfl rfl hr he ht
  · intro h hd ha hb hf haf hbf har hbr harb hbrb
    refine tadd_issues h hd ha hb hf (fun t ht => ?_)
    obtain rfl | rfl := ht
    · exact ⟨haf, har, harb⟩
    · exact ⟨hbf, hbr, hbrb⟩

end Sys2Proof.Machine
end

