-- ==== Sys2Proof/Proofs/RemoteIssue.lean ====
section

/-! # Remote operations and step tables at issue (O31) -/

namespace Sys2Proof.Machine

/-! ## The shared end of a collective instruction's issue (R326) -/

/-- The operation that an instruction of the collective engine issues. -/
abbrev collOpOf (s : State) (c : Ctx) (f : QX) (act : OpAct) : EngineOp := newOp s c (some .coll) f.scope f.ord (recordQ c f) act

/-- What follows the issue of a collective operation: outside DET launches its start. -/
def begunColl (s : State) (c : Ctx) (s1 : State) (g1 : Group) : State := if c.det then s1 else activate (putGroup s1 c.k g1) s.opNo

/-- With a sound record, a collective instruction's own part is the issue of its operation, and its start. -/
theorem collIssue_sound {s s1 : State} {c : Ctx} {f : QX} {act : OpAct} {spans : List Span} {g1 : Group}
    (hrec : f.md.getLsbD 2 = true → RecordFits c (sval c.g f.lit f.sd)) (hi : issueOp s c .coll (collOpOf s c f act) spans = .next s1 g1) :
    collIssue s c f act spans = .next (begunColl s c s1 g1) g1 := by
  unfold collIssue
  unfold collOpOf recordQ at hi
  cases hr : f.md.getLsbD 2 with
  | false =>
    rw [hr, if_neg (by decide)] at hi
    dsimp only
    rw [if_neg (by decide), hi]
    rfl
  | true =>
    rw [hr, if_pos rfl] at hi
    dsimp only
    rw [if_pos rfl, recordCheck_fits (hrec hr)]
    dsimp only
    rw [hi]
    rfl

/-- A state in which an operation on coll has been placed, and whatever of it may have begun. -/
structure CollPlaced (s : State) (c : Ctx) (xs : List Span) (u : State) : Prop where
  number : u.opNo = s.opNo + 1
  others : ∀ n, n ≠ s.opNo → tget u.ops n = tget s.ops n
  core : getCore u c.w.core = issuedCore s c .coll xs
  groups : ∀ j, j ≠ c.k → tget u.groups j = tget s.groups j
  memory : u.mem = s.mem ∧ u.mpoison = s.mpoison ∧ u.sk = s.sk
  front : u.launches = s.launches ∧ u.info = s.info ∧ u.pt = s.pt
  pads : SamePads s u

/-- An operation in flight on coll, as the claims name its fields. -/
def CollOp (s : State) (c : Ctx) (act : OpAct) (record : Option Nat) (o : EngineOp) : Prop :=
  o.act = act ∧ o.record = record ∧ o.group = c.k ∧ o.gidx = c.g.gidx ∧ o.launch = c.g.launch ∧ o.wg = c.g.wg ∧ o.core = c.w.core ∧
    o.pc = c.g.pc ∧ o.ctr = some .coll ∧ o.deferred = c.l.kern.det ∧ (o.deferred = false → o.tag = (getCore s c.w.core).tag + 1)

/-- The operation as it has been placed. -/
def placedCollOp (s : State) (c : Ctx) (f : QX) (act : OpAct) : EngineOp := { collOpOf s c f act with deferred := defers c .coll }

theorem collOp_placed (s : State) (c : Ctx) (f : QX) (act : OpAct) : CollOp s c act (recordQ c f) (placedCollOp s c f act) :=
  ⟨rfl, rfl, rfl, rfl, rfl, rfl, rfl, rfl, rfl, Bool.and_true _, fun _ => rfl⟩

/-- With room, what a collective instruction's own part leaves, before and after the start of its operation. -/
theorem collIssue_of_room {s : State} {c : Ctx} {f : QX} {act : OpAct} {spans : List Span} (hne : ∀ x ∈ spans, x.lo < x.hi)
    (h : CollRoom s c f spans.length) :
    ∃ s1 g1, collIssue s c f act spans = .next (begunColl s c s1 g1) g1 ∧ CollPlaced s c (entrySpans spans (recordQ c f)) s1 ∧
      tget s1.ops s.opNo = some (placedCollOp s c f act) ∧ s1.coll = s.coll ∧ s1.tables = s.tables ∧ Counting s c .coll g1 := by
  obtain ⟨hrec, hroom⟩ := h
  obtain ⟨ws, g, hp, hg, hi⟩ := issueOp_of_room (o := collOpOf s c f act) hne hroom
  refine ⟨_, g, collIssue_sound hrec hi, ⟨rfl, fun n hn => tget_tput_ne _ _ hn, ?_, fun _ _ => rfl, ⟨rfl, rfl, rfl⟩, ⟨rfl, rfl, rfl⟩, hp⟩,
    tget_tput_same .., rfl, rfl, hg.counting⟩
  show (tget (tput s.cores c.w.core _) c.w.core).getD Core.init = _
  rw [tget_tput_same]
  rfl

/-- What has been placed stays placed while the issuing group, the operation's own entry, the collective engine and the tables change. -/
theorem CollPlaced.begun {s u : State} {c : Ctx} {xs : List Span} {gs : Tbl Group} {os : Tbl EngineOp} (h : CollPlaced s c xs u)
    (hgs : ∀ j, j ≠ c.k → tget gs j = tget u.groups j) (hos : ∀ n, n ≠ s.opNo → tget os n = tget u.ops n) (cl : Coll) (tb : Tbl TableRun) :
    CollPlaced s c xs { u with groups := gs, ops := os, coll := cl, tables := tb } := by
  obtain ⟨h1, h2, h3, h4, h5, h6, h7⟩ := h
  exact ⟨h1, fun n hn => (hos n hn).trans (h2 n hn), h3, fun j hj => (hgs j hj).trans (h4 j hj), h5, h6, h7⟩

/-- What has been placed and retires has issued. -/
theorem issuedColl_retire {s u : State} {c : Ctx} {i : Instr} {act : OpAct} {record : Option Nat} {spans : List Span} {g : Group}
    {o : EngineOp} (hne : ∀ x ∈ spans, x.lo < x.hi) (h : CollPlaced s c (entrySpans spans record) u) (ho : tget u.ops s.opNo = some o)
    (hop : CollOp s c act record o) (hg : Counting s c .coll g) :
    IssuedColl s (retire u c g (after i c)) c i act record spans ∧ (retire u c g (after i c)).launches = s.launches ∧
      (∀ n, n ≠ s.opNo → tget (retire u c g (after i c)).ops n = tget s.ops n) ∧ (retire u c g (after i c)).coll = u.coll ∧
      (retire u c g (after i c)).tables = u.tables := by
  obtain ⟨gs, ws, hr, hpads, hown, hothers⟩ := retire_frame u c g (after i c)
  obtain ⟨h1, h2, h3, h4, h5, h6, h7⟩ := h
  obtain ⟨c1, c2, c3, c4, c5, c6⟩ := hg.retired (s' := u) (pc := after i c)
  have hcore : getCore (retire u c g (after i c)) c.w.core = getCore u c.w.core := by rw [hr]; rfl
  refine ⟨⟨⟨o, by rw [hr]; exact ho, hop⟩, by rw [hr]; exact h1, ?_,
    ⟨_, by rw [hr]; exact hown, retiredGroup_pc .., c1, c2, c3, c4, c5, c6⟩, fun j hj => ?_, by rw [hr]; exact h5, ?_⟩, ?_⟩
  · rw [hcore, h3]
    show (getCore s c.w.core).tape ++ entriesOf s c .coll (entrySpans spans record) = _
    rw [entrySpans_eq record hne]
    rfl
  · rw [hr]
    exact (hothers j hj).trans (h4 j hj)
  · rw [hr]
    exact h7.trans hpads
  · rw [hr]
    exact ⟨h6.1, h2, rfl, rfl⟩

/-- A collective instruction that passes its own checks issues its operation; in a DET launch that is all. -/
theorem collIssues_of_body {i : Instr} {f : QX} {s : State} {c : Ctx} {act : OpAct} {spans : List Span} {body : Ctx → Eff}
    {Q : OpAct → Prop} {now : State → Prop} (he : exec i s = issue i s body) (h : Ready s i c) (hv : isVector i = false)
    (hne : ∀ x ∈ spans, x.lo < x.hi) (hroom : CollRoom s c f spans.length) (hbody : body c = collIssue s c f act spans) (hQ : Q act)
    (hnow : ∀ s1 g1, CollPlaced s c (entrySpans spans (recordQ c f)) s1 → tget s1.ops s.opNo = some (placedCollOp s c f act) →
      s1.coll = s.coll → s1.tables = s.tables → c.l.kern.det = false →
      ∃ o u act', activate (putGroup s1 c.k g1) s.opNo = u ∧ CollPlaced s c (entrySpans spans (recordQ c f)) u ∧
        tget u.ops s.opNo = some o ∧ CollOp s c act' (recordQ c f) o ∧ Q act' ∧
        ∀ t : State, t.coll = u.coll → t.tables = u.tables → now t) :
    ∃ t act, exec i s = .next t ∧ Q act ∧ IssuedColl s t c i act (recordQ c f) spans ∧ t.launches = s.launches ∧
      (∀ n, n ≠ s.opNo → tget t.ops n = tget s.ops n) ∧
      (if c.l.kern.det then t.coll = s.coll ∧ t.tables = s.tables else now t) := by
  obtain ⟨s1, g1, hi, hplaced, ho, hcoll, htab, hg⟩ := collIssue_of_room (act := act) hne hroom
  have hex := exec_issued he h hv (hbody.trans hi)
  cases hd : c.l.kern.det with
  | true =>
    have hb : begunColl s c s1 g1 = s1 := if_pos hd
    rw [hb] at hex
    obtain ⟨h1, h2, h3, h4, h5⟩ := issuedColl_retire (i := i) hne hplaced ho (collOp_placed s c f act) hg
    exact ⟨_, act, hex, hQ, h1, h2, h3, by rw [if_pos rfl]; exact ⟨h4.trans hcoll, h5.trans htab⟩⟩
  | false =>
    obtain ⟨o, u, act', hact, hu, huo, hop, hQ', ht⟩ := hnow s1 g1 hplaced ho hcoll htab hd
    have hb : begunColl s c s1 g1 = u := (if_neg (by rw [Ctx.det, hd]; decide)).trans hact
    rw [hb] at hex
    obtain ⟨h1, h2, h3, h4, h5⟩ := issuedColl_retire (i := i) hne hu huo hop hg
    exact ⟨_, act', hex, hQ', h1, h2, h3, by rw [if_neg (by decide)]; exact ht _ h4 h5⟩

/-! ## A packet is sent (R314, R316, R322) -/

/-- A packet awaits its acknowledgment for an operation, its source, request and stamp given. -/
def Awaited (cl : Coll) (op : Option Nat) (p : RemotePacket) : Prop :=
  ∃ key u src id st, tget cl.unacked key = some u ∧ u.op = op ∧ u.p = { p with src := src, reqId := id, stamp := st }

/-- An ordered packet with its stamp. -/
def stamped (s : State) (u : Unacked) (base : BitVec 48) : RemotePacket := { u.p with stamp := nextStamp s (u.p.src % 4) u.p.domain base }

/-- The collective engine once an ordered packet has its stamp. -/
def stampedColl (s : State) (key : Nat) (u : Unacked) (base : BitVec 48) : Coll :=
  { s.coll with lastStamp := tput s.coll.lastStamp (u.p.src % 4 * 16 + u.p.domain) (nextStamp s (u.p.src % 4) u.p.domain base),
                unacked := tput s.coll.unacked key { u with p := stamped s u base, sentAt := s.pt, held := false } }

/-- Injection, in the terms above. -/
theorem inject_eq (s : State) (key : Nat) (u : Unacked) (base : BitVec 48) :
    inject s key u base =
      if u.p.dest ≠ s.info.pkgnum.toNat then noteSent { s with coll := stampedColl s key u base } (stamped s u base)
      else if s.coll.excluded.contains u.p.src then
        discardRecord { s with coll := stampedColl s key u base } (16 + u.p.src % 4) (stamped s u base)
      else enqueue { s with coll := stampedColl s key u base } (stamped s u base) := rfl

/-- A packet whose stamp has been given awaits its acknowledgment. -/
theorem awaited_stamped {s : State} {key : Nat} {u : Unacked} {base : BitVec 48} {cl : Coll}
    (h : cl.unacked = (stampedColl s key u base).unacked) : Awaited cl u.op u.p :=
  ⟨key, { u with p := stamped s u base, sentAt := s.pt, held := false }, u.p.src, u.p.reqId, _, by rw [h]; exact tget_tput_same .., rfl, rfl⟩

/-- Injection of a packet that its own package does not discard. -/
theorem inject_awaited {s : State} {key : Nat} {u : Unacked} {base : BitVec 48}
    (h : u.p.dest = s.info.pkgnum.toNat → u.p.src ∉ s.coll.excluded) :
    ∃ cl, inject s key u base = { s with coll := cl } ∧ Awaited cl u.op u.p := by
  rw [inject_eq]
  split
  · obtain ⟨sw, hsw⟩ := noteSent_eq { s with coll := stampedColl s key u base } (stamped s u base)
    exact ⟨_, hsw, awaited_stamped rfl⟩
  · next hself =>
    rw [if_neg (by simpa using h (not_not.1 hself))]
    exact ⟨_, rfl, awaited_stamped rfl⟩

/-- A packet as it leaves, its source and request identifier given. -/
def leaving (s : State) (die : Nat) (p : RemotePacket) : RemotePacket :=
  { p with src := sourceOf s die, reqId := freeReq s (sourceOf s die) die, stamp := 0 }

/-- Its entry among those that await an acknowledgment. -/
def entryOf (s : State) (die : Nat) (p : RemotePacket) (op table : Option Nat) : Unacked :=
  ⟨leaving s die p, op, table, s.pt, 0, p.ordered && syncHeld s, s.coll.sends⟩

/-- The key of that entry. -/
def entryKey (s : State) (die : Nat) : Nat := sourceOf s die * 65536 + (freeReq s (sourceOf s die) die).toNat

/-- The collective engine with that entry. -/
def enteredColl (s : State) (die : Nat) (p : RemotePacket) (op table : Option Nat) : Coll :=
  { s.coll with nextReq := tput s.coll.nextReq die (freeReq s (sourceOf s die) die + 1),
                unacked := tput s.coll.unacked (entryKey s die) (entryOf s die p op table), sends := s.coll.sends + 1 }

/-- The sending of a packet, in the terms above. -/
theorem sendPacket_eq (s : State) (die : Nat) (p : RemotePacket) (op table : Option Nat) (base : BitVec 48) :
    sendPacket s die p op table base =
      if !p.ordered then noteSent { s with coll := enteredColl s die p op table } (leaving s die p)
      else if !syncHeld s then inject { s with coll := enteredColl s die p op table } (entryKey s die) (entryOf s die p op table) base
      else { s with coll := enteredColl s die p op table } := rfl

/-- A packet sent that its own package does not discard awaits its acknowledgment. -/
theorem sendPacket_awaited {s : State} {die : Nat} {p : RemotePacket} {op table : Option Nat} {base : BitVec 48}
    (h : p.ordered = true → p.dest = s.info.pkgnum.toNat → sourceOf s die ∉ s.coll.excluded) :
    ∃ cl, sendPacket s die p op table base = { s with coll := cl } ∧ Awaited cl op p := by
  have entered : ∀ cl : Coll, cl.unacked = (enteredColl s die p op table).unacked → Awaited cl op p := fun cl hcl =>
    ⟨entryKey s die, _, sourceOf s die, freeReq s (sourceOf s die) die, 0, by rw [hcl]; exact tget_tput_same .., rfl, rfl⟩
  rw [sendPacket_eq]
  split
  · obtain ⟨sw, hsw⟩ := noteSent_eq { s with coll := enteredColl s die p op table } (leaving s die p)
    exact ⟨_, hsw, entered _ rfl⟩
  · next hord =>
    have hord' : p.ordered = true := by simpa using hord
    split
    · obtain ⟨cl, hcl, key, u, src, id, st, h1, h2, h3⟩ := inject_awaited (s := { s with coll := enteredColl s die p op table })
        (key := entryKey s die) (u := entryOf s die p op table) (base := base) (h hord')
      exact ⟨cl, hcl, key, u, src, id, st, h1, h2, h3⟩
    · exact ⟨_, rfl, entered _ rfl⟩

/-! ## The start of a remote operation and of a step table (R326, R334) -/

/-- An operation that reads its source carries what it read. -/
theorem readSource_eq {s : State} {o : EngineOp} {p : RemotePacket} {src n : Nat} (h : o.act = .remote p src n) :
    ∃ seen, readSource s o = { o with seen := seen, act := .remote { p with act := remoteAct s o p src n } src n } := by
  unfold readSource
  rw [h]
  exact ⟨_, rfl⟩

/-- A remote operation that begins outside a quantum sends its packet. -/
theorem activate_remote {s : State} {n : Nat} {o : EngineOp} {p : RemotePacket} {src k : Nat} (ho : tget s.ops n = some o)
    (hact : o.act = .remote p src k) (hq : o.quantum = none) :
    ∃ seen base, activate s n = sendPacket (putOp s n { o with seen := seen, act := .remote { p with act := remoteAct s o p src k } src k })
      (dieOf o.core) { p with act := remoteAct s o p src k } (some n) none base := by
  obtain ⟨seen, hread⟩ := readSource_eq (s := s) hact
  refine ⟨seen, stampBase s (tget s.launches o.launch) (opLcore s o), ?_⟩
  unfold activate
  rw [ho]
  dsimp only
  rw [hact]
  dsimp only
  rw [if_neg (by rw [hq]; decide), hread]

/-- A remote operation of the issuing group, outside DET launches, begins by sending its packet. -/
theorem activate_placed_remote {s s1 : State} {c : Ctx} {f : QX} {i : Instr} {p : RemotePacket} {src k : Nat} {xs : List Span} {g1 : Group}
    (h : Ready s i c) (hpl : CollPlaced s c xs s1) (ho : tget s1.ops s.opNo = some (placedCollOp s c f (.remote p src k)))
    (hcoll : s1.coll = s.coll)
    (hheard : p.ordered = true → p.dest = s.info.pkgnum.toNat → s.info.pkgnum.toNat * 4 + c.w.core / 48 ∉ s.coll.excluded) :
    ∃ o u act, activate (putGroup s1 c.k g1) s.opNo = u ∧ CollPlaced s c xs u ∧ tget u.ops s.opNo = some o ∧
      CollOp s c (.remote { p with act := act } src k) (recordQ c f) o ∧ Awaited u.coll (some s.opNo) { p with act := act } ∧
      ((∀ v, p.act = .add v → act = .add v) ∧ (∀ ds, p.act = .store ds → act = .store ((List.range k).map (fun j =>
        (padOf c.w (src + j), mget false c.w.spoison ((src + j) / 8)))))) := by
  obtain ⟨seen, base, hact⟩ := activate_remote (s := putGroup s1 c.k g1) (o := placedCollOp s c f (.remote p src k)) ho rfl rfl
  have hsource : opSource (putGroup s1 c.k g1) (placedCollOp s c f (.remote p src k)) = (c.w.scratch, c.w.spoison) := by
    obtain ⟨w', hw', hs', hp'⟩ := hpl.pads _ _ (ctxOf_some h.1).2.2.1
    have hget : tget (putGroup s1 c.k g1).wgs (wgKey (placedCollOp s c f (.remote p src k)).launch (placedCollOp s c f (.remote p src k)).wg) =
      some w' := hw'
    rw [opSource, hget, ← hs', ← hp']
    rfl
  generalize hra : remoteAct (putGroup s1 c.k g1) (placedCollOp s c f (.remote p src k)) p src k = act at hact
  obtain ⟨cl, hcl, haw⟩ := sendPacket_awaited (s := putOp (putGroup s1 c.k g1) s.opNo { placedCollOp s c f (.remote p src k) with
      seen := seen, act := .remote { p with act := act } src k }) (die := dieOf c.w.core) (p := { p with act := act }) (op := some s.opNo)
    (table := none) (base := base) (by
      show p.ordered = true → p.dest = s1.info.pkgnum.toNat → s1.info.pkgnum.toNat * 4 + c.w.core / 48 ∉ s1.coll.excluded
      rw [hcoll, hpl.front.2.1]
      exact hheard)
  refine ⟨{ placedCollOp s c f (.remote p src k) with seen := seen, act := .remote { p with act := act } src k }, _, act, hact.trans hcl,
    hpl.begun (fun j hj => tget_tput_ne _ _ hj) (fun n hn => tget_tput_ne _ _ hn) cl s1.tables, tget_tput_same ..,
    ⟨rfl, rfl, rfl, rfl, rfl, rfl, rfl, rfl, rfl, Bool.and_true _, fun _ => rfl⟩, haw, fun v hv => ?_, fun ds hds => ?_⟩
  · rw [← hra, remoteAct, hv]
  · rw [← hra, remoteAct, hds]
    dsimp only
    rw [opRead, hsource]
    rfl

/-- A step table of the issuing group, outside DET launches, begins. -/
theorem activate_placed_crun {s s1 : State} {c : Ctx} {f : QX} {x : XReg} {off count limit : Nat} {g1 : Group}
    (ho : tget s1.ops s.opNo = some (placedCollOp s c f (.crun x off count limit))) :
    ∃ r, activate (putGroup s1 c.k g1) s.opNo =
        { s1 with groups := tput s1.groups c.k g1, tables := tput s1.tables s.opNo r } ∧
      r.owner = .op s.opNo ∧ r.base = xVa x off ∧ r.count = count ∧ r.cur = 0 ∧ r.limit = limit ∧ r.start = s1.pt ∧ r.started = false := by
  have hget : tget (putGroup s1 c.k g1).ops s.opNo = some (placedCollOp s c f (.crun x off count limit)) := ho
  have hact : activate (putGroup s1 c.k g1) s.opNo =
      startTable (putGroup s1 c.k g1) s.opNo (placedCollOp s c f (.crun x off count limit)) x off count limit := by
    rw [activate, hget]
    rfl
  rw [hact, startTable]
  exact ⟨_, rfl, rfl, rfl, rfl, rfl, rfl, rfl, rfl⟩

/-! ## RST, RSIG and CRUN -/

/-- A destination that the launch may reach. -/
theorem destBad_reachable {s : State} {c : Ctx} {dest : DWord} (h1 : dest.toNat ≤ 1023)
    (h2 : dest.toNat = s.info.pkgnum.toNat ∨ c.l.job ≠ 0) : destBad s c dest = false := by
  unfold destBad
  obtain h | h := h2
  · rw [decide_eq_false (by omega), decide_eq_false (not_not_intro h)]
    rfl
  · rw [decide_eq_false (by omega), beq_false_of_ne h, Bool.and_false]
    rfl

/-- The claims' word for a remote operation issued: its packet, when sent, is as described. -/
theorem remote_issues {i : Instr} {f : QX} {s : State} {c : Ctx} {p : RemotePacket} {src k : Nat} {spans : List Span} {body : Ctx → Eff}
    {Q : RemotePacket → Prop} {R : RemotePacket → Prop} (he : exec i s = issue i s body) (h : Ready s i c) (hv : isVector i = false)
    (hne : ∀ x ∈ spans, x.lo < x.hi) (hroom : CollRoom s c f spans.length)
    (hbody : body c = collIssue s c f (.remote p src k) spans)
    (hheard : p.ordered = true → p.dest = s.info.pkgnum.toNat → s.info.pkgnum.toNat * 4 + c.w.core / 48 ∉ s.coll.excluded) (hQ : Q p)
    (hsent : ∀ act src' id st, (∀ v, p.act = .add v → act = .add v) → (∀ ds, p.act = .store ds → act = .store ((List.range k).map (fun j =>
        (padOf c.w (src + j), mget false c.w.spoison ((src + j) / 8))))) →
      Q { p with act := act } ∧ R { p with src := src', reqId := id, stamp := st, act := act }) :
    ∃ t act, exec i s = .next t ∧ (∃ p', act = .remote p' src k ∧ Q p') ∧ IssuedColl s t c i act (recordQ c f) spans ∧
      t.launches = s.launches ∧ (∀ n, n ≠ s.opNo → tget t.ops n = tget s.ops n) ∧
      (if c.l.kern.det then t.coll = s.coll else Sent t s.opNo R) := by
  obtain ⟨t, act, h1, h2, h3, h4, h5, h6⟩ := collIssues_of_body (now := fun t => Sent t s.opNo R)
    (Q := fun act => ∃ p', act = .remote p' src k ∧ Q p') he h hv hne hroom hbody ⟨p, rfl, hQ⟩ (fun s1 g1 hpl ho hcoll _ _ => by
      obtain ⟨o, w, act, hact, hw, how, hop, ⟨key, u, src', id, st, hu, huop, hup⟩, hadd, hstore⟩ :=
        activate_placed_remote (g1 := g1) h hpl ho hcoll hheard
      refine ⟨o, w, _, hact, hw, how, hop, ⟨_, rfl, (hsent act 0 0 0 hadd hstore).1⟩, fun t ht _ => ⟨key, u, by rw [ht]; exact hu, huop, ?_⟩⟩
      rw [hup]
      exact (hsent act src' id st hadd hstore).2)
  refine ⟨t, act, h1, h2, h3, h4, h5, ?_⟩
  split at h6
  · next hd => rw [if_pos hd]; exact h6.1
  · next hd => rw [if_neg hd]; exact h6

/-- A table of the issuing group is issued, and outside DET launches begins. -/
theorem crun_issues {f : QX} {s : State} {c : Ctx} (h : Ready s (.crun f) c) (hx : (xreg c.g f.xr.toNat).valid = true)
    (h1 : 1 ≤ (sval c.g f.lit f.sb).toNat) (h2 : (sval c.g f.lit f.sb).toNat ≤ 65535)
    (h64 : (xVa (xreg c.g f.xr.toNat) (sval c.g f.lit f.sa).toNat).toNat % 64 = 0)
    (hfree : c.l.kern.det = true ∨ tablesHeld s (c.w.core / 48) < 16) (hroom : CollRoom s c f 0) :
    ∃ t act, exec (.crun f) s = .next t ∧ act = .crun (xreg c.g f.xr.toNat) (sval c.g f.lit f.sa).toNat (sval c.g f.lit f.sb).toNat
        (sval c.g f.lit f.sc).toNat ∧ IssuedColl s t c (.crun f) act (recordQ c f) [] ∧ t.launches = s.launches ∧
      (∀ n, n ≠ s.opNo → tget t.ops n = tget s.ops n) ∧
      (if c.l.kern.det then t.tables = s.tables else
        (∃ r, tget t.tables s.opNo = some r ∧ r.owner = .op s.opNo ∧
          r.base = xVa (xreg c.g f.xr.toNat) (sval c.g f.lit f.sa).toNat ∧ r.count = (sval c.g f.lit f.sb).toNat ∧ r.cur = 0 ∧
          r.limit = (sval c.g f.lit f.sc).toNat ∧ r.start = s.pt ∧ r.started = false) ∧ ∀ n, n ≠ s.opNo → tget t.tables n = tget s.tables n) := by
  have hno : ¬(!c.det && decide (Config.tablesPerDie ≤ tablesHeld s (dieOf c.w.core))) = true := by
    rcases hfree with hd | hg
    · simp [Ctx.det, hd]
    · have : ¬Config.tablesPerDie ≤ tablesHeld s (dieOf c.w.core) := Nat.not_le.2 hg
      simp [this]
  obtain ⟨t, act, e1, e2, e3, e4, e5, e6⟩ := collIssues_of_body (body := fun c => _) (f := f) (spans := [])
    (act := .crun (xreg c.g f.xr.toNat) (sval c.g f.lit f.sa).toNat (sval c.g f.lit f.sb).toNat (sval c.g f.lit f.sc).toNat)
    (Q := fun act => act = .crun (xreg c.g f.xr.toNat) (sval c.g f.lit f.sa).toNat (sval c.g f.lit f.sb).toNat (sval c.g f.lit f.sc).toNat)
    (now := fun t => (∃ r, tget t.tables s.opNo = some r ∧ r.owner = .op s.opNo ∧
          r.base = xVa (xreg c.g f.xr.toNat) (sval c.g f.lit f.sa).toNat ∧ r.count = (sval c.g f.lit f.sb).toNat ∧ r.cur = 0 ∧
          r.limit = (sval c.g f.lit f.sc).toNat ∧ r.start = s.pt ∧ r.started = false) ∧ ∀ n, n ≠ s.opNo → tget t.tables n = tget s.tables n)
    rfl h (isVector_crun f) (by simp) hroom (by
      rw [hx, if_neg (by decide), if_neg (by omega), if_neg (not_not_intro h64), if_neg hno]) rfl (fun s1 g1 hpl ho hcoll htab _ => by
      obtain ⟨r, hact, hr1, hr2, hr3, hr4, hr5, hr6, hr7⟩ := activate_placed_crun (g1 := g1) ho
      refine ⟨_, _, _, hact, hpl.begun (fun j hj => tget_tput_ne _ _ hj) (fun _ _ => rfl) s1.coll (tput s1.tables s.opNo r), ho,
        collOp_placed s c f _, rfl, fun t _ ht => ?_⟩
      have ht : t.tables = tput s1.tables s.opNo r := ht
      rw [htab] at ht
      rw [ht]
      exact ⟨⟨r, tget_tput_same .., hr1, hr2, hr3, hr4, hr5, hr6.trans hpl.front.2.2, hr7⟩, fun n hn => tget_tput_ne _ _ hn⟩)
  refine ⟨t, act, e1, e2, e3, e4, e5, ?_⟩
  split at e6
  · next hd => rw [if_pos hd]; exact e6.2
  · next hd => rw [if_neg hd]; exact e6

/-- A sub-window's offset from a register, as the claims write it. -/
theorem xVa_toNat (x : XReg) (v : DWord) : xVa x v.toNat = x.vbase + v := by
  rw [xVa, dword, BitVec.ofInt_natCast, BitVec.ofNat_toNat, BitVec.setWidth_eq]

/-- An on-chip address within its range passes the check of R327. -/
theorem ocpm_inside {b : Bool} {v : DWord} (h : b = true → v.toNat < 2 ^ 40) : ¬(b && decide (v.toNat / 2 ^ 40 ≠ 0)) = true := by
  rw [Bool.and_eq_true, decide_eq_true_eq, not_and, not_not]
  exact fun hb => Nat.div_eq_of_lt (h hb)

/-- Settles O31: each instruction's checks pass or trap, and what it issues begins at once but in a DET launch. -/
theorem remoteOperationsIssue : Obligations.RemoteOperationsIssue := by
  unfold Obligations.RemoteOperationsIssue
  intro f s c x sa sb sc reachable heard addressed issues
  refine ⟨fun h ⟨hd1, hd2, hoc⟩ hheard h1 h2 hline hlt hin hroom => ?_, fun h ⟨hd1, hd2, hoc⟩ hheard h8 hroom => ?_,
    fun h ⟨hd1, hd2, hoc⟩ h8 hh => ?_, fun h hx h1 h2 h64 hh => ?_, fun h hx h1 h2 h64 => ⟨fun hfree hroom => ?_, fun hd hfull => ?_⟩⟩
  · have hint : sa.toInt = sa.toNat := BitVec.toInt_eq_toNat_of_lt (by omega)
    refine remote_issues (body := fun c => _) (p := packetOf c f sc sb (.store [])) (Q := addressed)
      (R := fun p => addressed p ∧ p.act = .store ((List.range f.imm.toNat).map (fun j =>
          (padOf c.w (sa.toNat + j), mget false c.w.spoison ((sa.toNat + j) / 8)))))
      rfl h (isVector_rst f) ?_ hroom ?_ (fun hord hself => hheard hord hself) ⟨rfl, rfl, rfl, rfl, rfl, rfl, rfl⟩ ?_
    · intro y hy
      rw [List.mem_singleton.1 hy]
      exact Nat.lt_add_of_pos_right h1
    · rw [if_neg (by omega), destBad_reachable hd1 hd2, if_neg (by decide), if_neg (not_not_intro hline), if_neg (ocpm_inside hoc), hint,
        spansOut_none (by simpa [Ctx.size] using by omega)]
      rfl
    · intro act src' id st _ hstore
      exact ⟨⟨rfl, rfl, rfl, rfl, rfl, rfl, rfl⟩, ⟨rfl, rfl, rfl, rfl, rfl, rfl, rfl⟩, hstore [] rfl⟩
  · refine remote_issues (body := fun c => _) (p := packetOf c f sc sb (.add sa)) (Q := fun p => addressed p ∧ p.act = .add sa)
      (R := fun p => addressed p ∧ p.act = .add sa) rfl h (isVector_rsig f) (by simp) hroom ?_ (fun hord hself => hheard hord hself)
      ⟨⟨rfl, rfl, rfl, rfl, rfl, rfl, rfl⟩, rfl⟩ ?_
    · rw [destBad_reachable hd1 hd2, if_neg (by decide), if_neg (ocpm_inside hoc), if_neg (not_not_intro h8)]
    · intro act src' id st hadd _
      exact ⟨⟨⟨rfl, rfl, rfl, rfl, rfl, rfl, rfl⟩, hadd sa rfl⟩, ⟨rfl, rfl, rfl, rfl, rfl, rfl, rfl⟩, hadd sa rfl⟩
  · refine traps_of_body (body := fun c => _) rfl h (.inl (isVector_rsig f)) ?_ hh (m := ⟨cALIGN, sb, 0⟩)
    rw [destBad_reachable hd1 hd2, if_neg (by decide), if_neg (ocpm_inside hoc), if_pos h8]
    rfl
  · refine traps_of_body (body := fun c => _) rfl h (.inl (isVector_crun f)) ?_ hh (m := ⟨cALIGN, x.vbase + sa, 0⟩)
    rw [hx, xVa_toNat, if_neg (by decide), if_neg (show ¬(sb.toNat = 0 ∨ 65535 < sb.toNat) by omega), if_pos h64]
    rfl
  · rw [← xVa_toNat] at h64
    have hi := crun_issues h hx h1 h2 h64 hfree hroom
    rw [xVa_toNat] at hi
    exact hi
  · refine stalls_of_body (body := fun c => _) rfl h (.inl (isVector_crun f)) ?_
    have hyes : (!c.det && decide (Config.tablesPerDie ≤ tablesHeld s (dieOf c.w.core))) = true := by
      have : Config.tablesPerDie ≤ tablesHeld s (dieOf c.w.core) := hfull
      simp [Ctx.det, hd, this]
    rw [hx, xVa_toNat, if_neg (by decide), if_neg (show ¬(sb.toNat = 0 ∨ 65535 < sb.toNat) by omega), if_neg (not_not_intro h64), if_pos hyes]

end Sys2Proof.Machine
end

