-- ==== Sys2Proof/Proofs/ByteRuns.lean ====
section

/-! # Runs of bytes cut, stored and read: scratchpads and memory -/

namespace Sys2Proof.Machine

/-! ## Runs of bytes stored -/

theorem storedAt_nil (a : Nat) (m : Nat → Byte) : storedAt a [] m = m := by
  funext b
  exact if_neg (by simp)

theorem storedAt_out {a b : Nat} {bs : List Byte} {m : Nat → Byte} (h : b < a ∨ a + bs.length ≤ b) : storedAt a bs m b = m b :=
  if_neg (by omega)

theorem storedAt_in {a j : Nat} {bs : List Byte} {m : Nat → Byte} (h : j < bs.length) : storedAt a bs m (a + j) = bs.getD j 0 := by
  rw [storedAt, if_pos (by omega), Nat.add_sub_cancel_left]

/-- Two runs that follow each other are one. -/
theorem storedAt_append (a : Nat) (bs cs : List Byte) (m : Nat → Byte) :
    storedAt (a + bs.length) cs (storedAt a bs m) = storedAt a (bs ++ cs) m := by
  funext b
  by_cases h1 : b < a
  · rw [storedAt_out (.inl (by omega)), storedAt_out (.inl h1), storedAt_out (.inl h1)]
  · obtain ⟨j, rfl⟩ := Nat.exists_eq_add_of_le (Nat.not_lt.1 h1)
    by_cases h2 : j < bs.length
    · rw [storedAt_out (.inl (by omega)), storedAt_in h2, storedAt_in (by simp; omega), List.getD_append _ _ _ _ h2]
    · by_cases h3 : j < bs.length + cs.length
      · have e : a + j = a + bs.length + (j - bs.length) := by omega
        rw [e, storedAt_in (by omega), ← e, storedAt_in (by simp; omega), List.getD_append_right _ _ _ _ (by omega)]
      · rw [storedAt_out (.inr (by omega)), storedAt_out (.inr (by omega)), storedAt_out (.inr (by simp; omega))]

/-- A table of bytes after a run has been set in it. -/
theorem mget_msetRun_storedAt (t : Tbl Byte) (a : Nat) (bs : List Byte) : mget 0 (msetRun 0 t a bs) = storedAt a bs (mget 0 t) := by
  funext b
  by_cases h : b < a ∨ a + bs.length ≤ b
  · rw [storedAt_out h, mget_msetRun_out 0 t a b bs h]
  · obtain ⟨j, rfl⟩ := Nat.exists_eq_add_of_le (Nat.not_lt.1 (fun hb => h (.inl hb)))
    have hj : j < bs.length := by omega
    rw [storedAt_in hj, mget_msetRun_in 0 t a j bs hj, List.getD_eq_getElem _ _ hj]

theorem memByte_memWrite (s : State) (a : Nat) (bs : List Byte) : memByte (memWrite s a bs) = storedAt a bs (memByte s) :=
  mget_msetRun_storedAt s.mem a bs

/-- The bytes of a run without their marks. -/
abbrev plainBytes (ds : List PByte) : List Byte := ds.map (fun b => b.1)

/-- A run of bytes cut into runs that follow each other. -/
inductive Cuts : Nat → List PByte → List (Nat × List PByte) → Prop
  | nil (a : Nat) : Cuts a [] []
  | cons {a : Nat} {c ds : List PByte} {cs : List (Nat × List PByte)} (hne : c ≠ []) (h : Cuts (a + c.length) ds cs) :
      Cuts a (c ++ ds) ((a, c) :: cs)

/-- The units of a run are such a cut. -/
theorem cuts_chunks (a : Nat) (ds : List PByte) : Cuts a ds (chunks a ds) := by
  induction ds generalizing a with
  | nil => exact .nil a
  | cons d ds ih =>
    have hrest := ih (a + 1)
    unfold chunks
    generalize hcs : chunks (a + 1) ds = cs at hrest
    cases hrest with
    | nil => exact .cons (c := [d]) (by simp) (.nil _)
    | @cons _ c es ts hne h =>
      dsimp only
      split
      · exact .cons (c := d :: c) (by simp) (by rw [List.length_cons, show a + (c.length + 1) = a + 1 + c.length by omega]; exact h)
      · exact .cons (c := [d]) (by simp) (.cons hne h)

/-- What is stored run by run is stored whole: `obs` is what can be read, and `f` stores one run. -/
theorem cuts_foldl {α : Type} {obs : α → Nat → Byte} {ok : α → Prop} {f : α → Nat × List PByte → α} {a : Nat} {ds : List PByte}
    {cs : List (Nat × List PByte)} (h : Cuts a ds cs)
    (hf : ∀ x c, ok x → c ∈ cs → c.2 ≠ [] → ok (f x c) ∧ obs (f x c) = storedAt c.1 (plainBytes c.2) (obs x)) (x : α) (hx : ok x) :
    ok (cs.foldl f x) ∧ obs (cs.foldl f x) = storedAt a (plainBytes ds) (obs x) := by
  induction h generalizing x with
  | nil a => exact ⟨hx, (storedAt_nil a _).symm⟩
  | @cons a c ds cs hne _ ih =>
    obtain ⟨h1, h2⟩ := hf x (a, c) hx (by simp) hne
    obtain ⟨h3, h4⟩ := ih (fun x c hx hc => hf x c hx (by simp [hc])) (f x (a, c)) h1
    rw [List.foldl_cons]
    refine ⟨h3, ?_⟩
    rw [h4, h2, plainBytes, plainBytes, plainBytes, List.map_append, ← storedAt_append, List.length_map]

/-- A write into a scratchpad stores its bytes. -/
theorem padOf_wgWriteP (w : Workgroup) (a : Nat) (ds : List PByte) :
    padOf (wgWriteP w a ds) = storedAt a (plainBytes ds) (padOf w) ∧
      ∃ sc sp wa, wgWriteP w a ds = { w with scratch := sc, spoison := sp, watch := wa } := by
  have h := cuts_foldl (obs := padOf) (ok := fun x => ∃ sc sp wa, x = { w with scratch := sc, spoison := sp, watch := wa }) (cuts_chunks a ds)
    (f := fun w ac =>
      let w1 := wgWrite w ac.1 (ac.2.map (fun b => b.1))
      if ac.2.any (fun b => b.2) then { w1 with spoison := markWord w1.spoison (ac.1 / 8) true } else w1) ?_ w ⟨_, _, _, rfl⟩
  · exact ⟨h.2, h.1⟩
  · intro x c hx _ _
    obtain ⟨sc, sp, wa, rfl⟩ := hx
    dsimp only
    split
    · exact ⟨⟨_, _, _, rfl⟩, mget_msetRun_storedAt sc c.1 (plainBytes c.2)⟩
    · exact ⟨⟨_, _, _, rfl⟩, mget_msetRun_storedAt sc c.1 (plainBytes c.2)⟩

/-- A plain write to memory stores its bytes. -/
theorem memByte_writePlain (s : State) (a : Nat) (c : List PByte) : memByte (writePlain s a c) = storedAt a (plainBytes c) (memByte s) := by
  have hact : ∀ b u : State, memByte (activated b u a c.length) = memByte u := fun b u => by
    unfold activated
    dsimp only
    split
    · split <;> rfl
    · rfl
  unfold writePlain
  dsimp only
  rw [hact]
  split <;> exact memByte_memWrite s a (plainBytes c)

/-- A write at a home, on a page without sibling keeping, stores its bytes, and meets no fault. -/
theorem homeWrite_plain (s : State) (pa : Nat) (ds : List PByte) :
    memByte (homeWrite s false pa ds).1 = storedAt pa (plainBytes ds) (memByte s) ∧ (homeWrite s false pa ds).2.testBit 4 = false := by
  have h := cuts_foldl (α := State × Seen) (obs := fun p => memByte p.1) (ok := fun p => p.2.testBit 4 = false) (cuts_chunks pa ds)
    (f := fun p ac => if false then let r := writeSk p.1 ac.1 ac.2; (r.1, p.2 ||| r.2) else (writePlain p.1 ac.1 ac.2, p.2 ||| seenOK)) ?_
    (s, 0) (Nat.zero_testBit 4)
  · exact ⟨h.2, h.1⟩
  · intro p c hp _ _
    exact ⟨by show (p.2 ||| seenOK).testBit 4 = false; rw [Nat.testBit_or, hp]; rfl, memByte_writePlain ..⟩

/-- A list all of whose bytes are present is one run. -/
theorem runsOf_present (i : Nat) (ds : List PByte) : runsOf i (ds.map some) = if ds = [] then [] else [(i, ds)] := by
  induction ds generalizing i with
  | nil => rfl
  | cons d ds ih =>
    rw [List.map_cons, runsOf, ih, if_neg (List.cons_ne_nil d ds)]
    cases ds with
    | nil => rfl
    | cons e es => simp

end Sys2Proof.Machine
end

