-- ==== Sys2Proof/Proofs/CopyEnd.lean ====
section

/-! # The end of a copy-engine operation, and what copies read and write -/

namespace Sys2Proof.Machine

/-! ## The end of a copy-engine operation -/

/-- Of an operation only what it has met has changed, and it has met no fault. -/
def Met (o o' : EngineOp) : Prop := ∃ seen, seen.testBit 4 = false ∧ o' = { o with seen := seen }

theorem Met.refl {o : EngineOp} (h : o.seen.testBit 4 = false) : Met o o := ⟨o.seen, h, rfl⟩

theorem Met.opMeet {o o' : EngineOp} {seen : Seen} (h : Met o o') (hs : seen.testBit 4 = false) : Met o (opMeet o' seen) := by
  obtain ⟨x, hx, rfl⟩ := h
  exact ⟨x ||| seen, by rw [Nat.testBit_or, hx, hs]; rfl, rfl⟩

/-- Counting the lines of an operation changes the counts alone. -/
theorem countOp_eq (s : State) (o : EngineOp) : ∃ r, countOp s o = { s with res := r } := by
  have line : ∀ (s : State) (lid : Nat) (die : Option Nat) (va : Nat), ∃ r, countLine s lid die va = { s with res := r } := by
    intro s lid die va
    unfold countLine
    split
    · exact ⟨s.res, rfl⟩
    · split
      · exact ⟨s.res, rfl⟩
      · dsimp only
        split <;> exact ⟨_, rfl⟩
  have fold : ∀ {α : Type} (f : State → α → State) (_ : ∀ s x, ∃ r, f s x = { s with res := r }) (xs : List α) (s : State),
      ∃ r, xs.foldl f s = { s with res := r } := by
    intro α f hf xs
    induction xs with
    | nil => exact fun s => ⟨s.res, rfl⟩
    | cons x xs ih =>
      intro s
      obtain ⟨r, hr⟩ := hf s x
      obtain ⟨r', hr'⟩ := ih (f s x)
      exact ⟨r', by rw [List.foldl_cons, hr', hr]⟩
  unfold countOp
  split
  · exact fold _ (fun s x => fold _ (fun s a => line ..) _ s) _ s
  · exact ⟨s.res, rfl⟩

/-- A copy-engine operation whose effects can be performed is performed. -/
theorem copyOpComplete_of_perform {s s1 : State} {n : Nat} {o o1 : EngineOp} (ho : tget s.ops n = some o) (hm : mayPerform s n o = true)
    (hp : copyPerform s o = some (s1, o1)) : exec (.copyOpComplete n) s = .next (performedOp s1 n o1 none) := by
  show execCopyOpComplete n s = _
  unfold execCopyOpComplete
  rw [ho]
  dsimp only
  rw [if_pos hm]
  split
  · next x off node hact =>
    unfold copyPerform at hp
    rw [hact] at hp
    split at hp <;> simp at hp
  · rw [hp]

/-- Results delivered change a group's vector registers alone. -/
theorem deliverVals_eq (g : Group) (o : EngineOp) : ∃ vs, deliverVals g o = { g with vregs := vs } := by
  unfold deliverVals
  split
  · dsimp only
    split <;> exact ⟨_, rfl⟩
  · exact ⟨_, rfl⟩

/-- No fault among what an operation has met: its status is not FAULT. -/
theorem statusOf_ne_fault {seen : Seen} (h : seen.testBit 4 = false) : statusOf seen ≠ 4 := by
  unfold statusOf
  rw [h, if_neg (by decide)]
  split
  · decide
  · split
    · decide
    · split <;> decide

/-- A frame for the effects of an operation: operations in flight, groups and cores are as before. -/
def CopyFrame (s t : State) : Prop := t.ops = s.ops ∧ t.groups = s.groups ∧ t.cores = s.cores

/-- An operation whose effects have been performed without a fault is complete; memory and workgroups are as its effects left them. -/
theorem performs_complete {s s1 : State} {n k : Nat} {o o1 : EngineOp} {g : Group} {w : Workgroup} {l : Launch} {ctr : Ctr}
    (h : Performs s n o k g w l ctr) (hp : copyPerform s o = some (s1, o1)) (hmet : Met o o1) (hf : CopyFrame s s1) :
    ∃ t g', exec (.copyOpComplete n) s = .next t ∧ Completed s t n o k g ctr ∧ t.mem = s1.mem ∧ t.wgs = s1.wgs ∧
      tget t.groups k = some g' ∧ g'.vregs = (deliverVals g o).vregs := by
  obtain ⟨seen, hseen, rfl⟩ := hmet
  obtain ⟨hops, hgroups, hcores⟩ := hf
  obtain ⟨hrec, hq, -, hctr, -, -, -⟩ := h.plain
  obtain ⟨r, hr⟩ := countOp_eq s1 { o with seen := seen }
  obtain ⟨vs, hvs⟩ := deliverVals_eq g o
  have hat : opAt { s1 with res := r } { o with seen := seen, performed := true } = some (k, g) :=
    (opAt_congr (s := s) hgroups _).trans h.group
  have hvs' : deliverVals g { o with seen := seen, performed := true } = { g with vregs := vs } := hvs
  have hstatus := statusOf_ne_fault hseen
  have hdone := completed_finishOp (s := s) (s1 := { s1 with res := r }) (n := n) (o := { o with seen := seen, performed := true })
    (g := g) (report := none) hops (by rw [getCore, getCore]; exact congrArg (fun cs => ((tget cs o.core).getD Core.init).tape) hcores)
    hrec hstatus hat hctr (by rw [hvs']) (by rw [hvs']) (by rw [hvs']) (by rw [hvs']; cases ctr <;> rfl)
  obtain ⟨gs, hfin, hre⟩ := finishOp_plain (s := { s1 with res := r }) (n := n) (o := { o with seen := seen, performed := true }) none hrec
    hstatus hat hctr
  obtain ⟨st, hg'⟩ := restatused_put hre
  have hexec := copyOpComplete_of_perform h.op h.may hp
  rw [performedOp_eq s1 n (o := { o with seen := seen }) none hq, hr] at hexec
  refine ⟨_, _, hexec, ?_, by rw [hfin]; rfl, by rw [hfin]; rfl, by rw [hfin]; exact hg', ?_⟩
  · obtain ⟨c1, c2, c3, c4⟩ := hdone
    exact ⟨c1, c2, c3, c4⟩
  · rw [hvs', hvs]
    cases ctr <;> rfl

/-! ## Bytes read and written by copies -/

/-- A byte of a page without sibling keeping, as a copy reads it. -/
def homeByte (s : State) (pa : Nat) : PByte := (memByte s pa, mget false s.mpoison (pa / 8))

/-- Reading a byte at its home meets no fault. -/
theorem homeRead_one (s : State) (pa : Nat) : (homeRead s false pa 1).1 = [homeByte s pa] ∧ (homeRead s false pa 1).2.testBit 4 = false := by
  refine ⟨rfl, ?_⟩
  rw [homeRead]
  dsimp only
  rw [Bool.false_and]
  split <;> decide

/-- Bytes that all may be read are all present. -/
theorem gRead_present {s : State} {l : Launch} {o0 o : EngineOp} {x : XReg} {off : Int} {lane n q : Nat} (ho : Met o0 o)
    (h : ∀ j : Nat, j < n → xPa l x (off + j) false = some (q + j, false)) :
    ∃ o', gRead s l o x off lane n = (((List.range n).map (fun j => homeByte s (q + j))).map some, o') ∧ Met o0 o' := by
  induction n generalizing o off q with
  | zero => exact ⟨o, rfl, ho⟩
  | succ n ih =>
    have h0 : xPa l x off false = some (q, false) := by simpa using h 0 (by omega)
    obtain ⟨hb, hs⟩ := homeRead_one s q
    obtain ⟨o', hr, ho'⟩ := ih (off := off + 1) (q := q + 1) (ho.opMeet hs) (fun j hj => by
      have := h (j + 1) (by omega)
      rw [show off + 1 + (j : Int) = off + ((j + 1 : Nat) : Int) by omega, this, show q + (j + 1) = q + 1 + j by omega])
    refine ⟨o', ?_, ho'⟩
    unfold gRead
    rw [h0]
    dsimp only
    rw [hr, hb]
    have hmap : (List.range (n + 1)).map (fun j => homeByte s (q + j)) =
        homeByte s q :: (List.range n).map (fun j => homeByte s (q + 1 + j)) := by
      rw [List.range_succ_eq_map, List.map_cons, List.map_map]
      exact congrArg (List.cons _) (List.map_congr_left fun j _ => congrArg (homeByte s) (by omega))
    rw [hmap]
    rfl

/-- The scratchpad that a resident operation writes. -/
structure PadOpen (s : State) (o : EngineOp) (w : Workgroup) : Prop where
  wg : tget s.wgs (wgKey o.launch o.wg) = some w
  resident : w.status = .resident
  lost : o.lost = false

/-- A write of a resident operation stores its bytes in its scratchpad, and changes nothing else but the workgroup. -/
theorem opWrite_resident {s : State} {o : EngineOp} {w : Workgroup} (h : PadOpen s o w) (a : Nat) (ds : List PByte) :
    ∃ w', opWrite s o a ds = putWg s (wgKey o.launch o.wg) w' ∧ PadOpen (putWg s (wgKey o.launch o.wg) w') o w' ∧
      padOf w' = storedAt a (plainBytes ds) (padOf w) := by
  obtain ⟨hw, hres, hlost⟩ := h
  obtain ⟨hpad, sc, sp, wa, hw'⟩ := padOf_wgWriteP w a ds
  have hscratch : opScratch s o = some w := by
    unfold opScratch
    rw [hw]
    dsimp only
    rw [hres]
    dsimp only
    rw [hlost]
    rfl
  refine ⟨wgWriteP w a ds, ?_, ⟨tget_tput_same .., by rw [hw']; exact hres, hlost⟩, hpad⟩
  unfold opWrite
  rw [hscratch]
  dsimp only
  unfold writeSaved
  rw [hres]

/-- The bytes that arrive from a source all of which is present are stored as one run. -/
theorem putRuns_present {s : State} {o : EngineOp} {w : Workgroup} (h : PadOpen s o w) (a : Nat) (ds : List PByte) :
    ∃ ws w', putRuns s o a (ds.map some) = { s with wgs := ws } ∧ PadOpen { s with wgs := ws } o w' ∧
      padOf w' = storedAt a (plainBytes ds) (padOf w) := by
  unfold putRuns
  rw [runsOf_present]
  split
  · next he =>
    subst he
    exact ⟨s.wgs, w, rfl, h, (storedAt_nil a _).symm⟩
  · obtain ⟨w', h1, h2, h3⟩ := opWrite_resident h a ds
    exact ⟨_, w', h1, h2, h3⟩

end Sys2Proof.Machine
end

