-- ==== Sys2Proof/Proofs/CopyIn.lean ====
section

/-! # Copies inwards, fills and far atomics performed (O36) -/

namespace Sys2Proof.Machine

/-! ## Runs stored one after the other -/

/-- Bytes after runs have been stored in them, one after the other. -/
def overlay (ws : List (Nat × List Byte)) (m : Nat → Byte) : Nat → Byte := ws.foldl (fun m x => storedAt x.1 x.2 m) m

theorem overlay_snoc (ws : List (Nat × List Byte)) (x : Nat × List Byte) (m : Nat → Byte) :
    overlay (ws ++ [x]) m = storedAt x.1 x.2 (overlay ws m) := by
  unfold overlay
  rw [List.foldl_append]
  rfl

/-- Runs that agree on what they store leave it wherever one of them lies, in whatever order they are stored. -/
theorem overlay_agree {ws : List (Nat × List Byte)} {m T : Nat → Byte}
    (h : ∀ x ∈ ws, ∀ j, j < x.2.length → x.2.getD j 0 = T (x.1 + j)) (b : Nat) :
    ((∃ x ∈ ws, x.1 ≤ b ∧ b < x.1 + x.2.length) → overlay ws m b = T b) ∧
    ((∀ x ∈ ws, b < x.1 ∨ x.1 + x.2.length ≤ b) → overlay ws m b = m b) := by
  induction ws using List.reverseRecOn with
  | nil => exact ⟨fun ⟨x, hx, _⟩ => absurd hx (by simp), fun _ => rfl⟩
  | append_singleton ws x ih =>
    obtain ⟨ih1, ih2⟩ := ih (fun y hy => h y (by simp [hy]))
    rw [overlay_snoc]
    by_cases hb : x.1 ≤ b ∧ b < x.1 + x.2.length
    · have hT : storedAt x.1 x.2 (overlay ws m) b = T b := by
        obtain ⟨j, rfl⟩ := Nat.exists_eq_add_of_le hb.1
        rw [storedAt_in (by omega), h x (by simp) j (by omega)]
      exact ⟨fun _ => hT, fun hout => absurd (hout x (by simp)) (by omega)⟩
    · rw [storedAt_out (by omega)]
      refine ⟨fun ⟨y, hy, hyb⟩ => ih1 ⟨y, ?_, hyb⟩, fun hout => ih2 (fun y hy => hout y (by simp [hy]))⟩
      obtain hy | hy := List.mem_append.1 hy
      · exact hy
      · exact absurd (List.mem_singleton.1 hy ▸ hyb) hb

/-- Rows stored in ascending order: the last that holds an address gives its byte. -/
theorem overlay_rows (base stride len rows : Nat) (f : Nat → List Byte) (hf : ∀ r, (f r).length = len) (m : Nat → Byte) (a : Nat) :
    (∀ r, lastRow rows base stride len a = some r → overlay ((List.range rows).map (fun r => (base + r * stride, f r))) m a =
      (f r).getD (a - (base + r * stride)) 0) ∧
    (lastRow rows base stride len a = none → overlay ((List.range rows).map (fun r => (base + r * stride, f r))) m a = m a) := by
  induction rows with
  | zero => exact ⟨fun r h => by simp [lastRow] at h, fun _ => rfl⟩
  | succ n ih =>
    have hlast : lastRow (n + 1) base stride len a =
        if base + n * stride ≤ a ∧ a < base + n * stride + len then some n else lastRow n base stride len a := by
      unfold lastRow
      rw [List.range_succ, List.reverse_append, List.reverse_singleton, List.singleton_append, List.find?_cons]
      by_cases h : base + n * stride ≤ a ∧ a < base + n * stride + len
      · rw [if_pos h, ← Bool.decide_and, decide_eq_true h]
      · rw [if_neg h, ← Bool.decide_and, decide_eq_false h]
    rw [List.range_succ, List.map_append, List.map_singleton, overlay_snoc, hlast]
    dsimp only
    by_cases h : base + n * stride ≤ a ∧ a < base + n * stride + len
    · rw [if_pos h]
      refine ⟨fun r hr => ?_, fun hr => by cases hr⟩
      obtain rfl := Option.some.inj hr
      rw [storedAt, if_pos (by rw [hf]; exact h)]
    · rw [if_neg h, storedAt_out (by rw [hf]; omega)]
      exact ih

/-! ## Where the pieces of a copy lie -/

/-- Every byte of a piece may be reached, and they lie together on pages without sibling keeping. -/
def Reaches (l : Launch) (x : XReg) (write : Bool) (q : Nat) (e : Piece) : Prop :=
  ∀ j : Nat, j < e.n → xPa l x (e.off + j) write = some (q + j, false)

/-- The physical address of a piece. -/
def pieceAt (l : Launch) (x : XReg) (write : Bool) (e : Piece) : Nat := ((xPa l x e.off write).map (fun p => p.1)).getD 0

theorem pieceAt_eq {l : Launch} {x : XReg} {write : Bool} {q : Nat} {e : Piece} (h : Reaches l x write q e) (hn : 0 < e.n) :
    pieceAt l x write e = q := by
  have h0 := h 0 hn
  rw [Nat.cast_zero, add_zero] at h0
  rw [pieceAt, h0]
  rfl

theorem reaches_pieceAt {l : Launch} {x : XReg} {write : Bool} {q : Nat} {e : Piece} (h : Reaches l x write q e) :
    Reaches l x write (pieceAt l x write e) e := by
  intro j hj
  rw [pieceAt_eq h (by omega)]
  exact h j hj

/-! ## Copies inwards -/

/-- The source bytes of a piece. -/
def sourceBytes (s : State) (q n : Nat) : List Byte := (List.range n).map (fun j => memByte s (q + j))

@[simp] theorem sourceBytes_length (s : State) (q n : Nat) : (sourceBytes s q n).length = n := by simp [sourceBytes]

theorem sourceBytes_getD (s : State) (q n : Nat) {j : Nat} (h : j < n) : (sourceBytes s q n).getD j 0 = memByte s (q + j) := by
  rw [List.getD_eq_getElem _ _ (by simpa using h)]
  simp [sourceBytes]

/-- A piece copied inwards stores its source's bytes in the scratchpad. -/
theorem copyRun_in {s : State} {o o' : EngineOp} {l : Launch} {x : XReg} {ws : Tbl Workgroup} {w : Workgroup} {e : Piece} {q : Nat}
    (h : PadOpen { s with wgs := ws } o w) (hm : Met o o') (hx : Reaches l x false q e) :
    ∃ ws' w' o'', copyRun l .inn x e.lane ({ s with wgs := ws }, o') e.a e.off e.n = ({ s with wgs := ws' }, o'') ∧
      PadOpen { s with wgs := ws' } o w' ∧ Met o o'' ∧ padOf w' = storedAt e.a (sourceBytes s q e.n) (padOf w) := by
  obtain ⟨o'', hr, ho''⟩ := gRead_present (s := { s with wgs := ws }) (lane := e.lane) hm hx
  have hopen : PadOpen { s with wgs := ws } o' w := by
    obtain ⟨_, _, rfl⟩ := hm
    exact ⟨h.wg, h.resident, h.lost⟩
  obtain ⟨ws', w', h1, h2, h3⟩ := putRuns_present hopen e.a ((List.range e.n).map (fun j => homeByte { s with wgs := ws } (q + j)))
  refine ⟨ws', w', o'', ?_, ?_, ho'', ?_⟩
  · unfold copyRun
    dsimp only
    rw [hr, h1]
  · obtain ⟨_, _, rfl⟩ := hm
    exact ⟨h2.wg, h2.resident, h2.lost⟩
  · rw [h3, plainBytes, List.map_map]
    rfl

/-- The runs that pieces copied inwards store. -/
def inRuns (s : State) (l : Launch) (x : XReg) (es : List Piece) : List (Nat × List Byte) :=
  es.map (fun e => (e.a, sourceBytes s (pieceAt l x false e) e.n))

/-- What pieces copied inwards one after the other leave. -/
theorem foldl_copyRun_in {s : State} {o : EngineOp} {l : Launch} {x : XReg} (es : List Piece) (hx : ∀ e ∈ es, ∃ q, Reaches l x false q e)
    {ws : Tbl Workgroup} {w : Workgroup} {o' : EngineOp} (h : PadOpen { s with wgs := ws } o w) (hm : Met o o') :
    ∃ ws' w' o'', es.foldl (fun p e => copyRun l .inn x e.lane p e.a e.off e.n) ({ s with wgs := ws }, o') = ({ s with wgs := ws' }, o'') ∧
      PadOpen { s with wgs := ws' } o w' ∧ Met o o'' ∧ padOf w' = overlay (inRuns s l x es) (padOf w) := by
  induction es generalizing ws w o' with
  | nil => exact ⟨ws, w, o', rfl, h, hm, rfl⟩
  | cons e es ih =>
    obtain ⟨q, hq⟩ := hx e (by simp)
    obtain ⟨ws1, w1, o1, e1, h1, hm1, hp1⟩ := copyRun_in h hm (reaches_pieceAt hq)
    obtain ⟨ws2, w2, o2, e2, h2, hm2, hp2⟩ := ih (fun e he => hx e (by simp [he])) h1 hm1
    refine ⟨ws2, w2, o2, ?_, h2, hm2, ?_⟩
    · rw [List.foldl_cons, e1, e2]
    · rw [hp2, hp1]
      rfl

/-- An operation of the issuing group has its workgroup's scratchpad open. -/
theorem Performs.padOpen {s : State} {n k : Nat} {o : EngineOp} {g : Group} {w : Workgroup} {l : Launch} {ctr : Ctr}
    (h : Performs s n o k g w l ctr) : gWg g = wgKey o.launch o.wg ∧ PadOpen s o w := by
  obtain ⟨-, -, -, -, -, hlost, -⟩ := h.plain
  have own : ∀ x : Group, (x.launch == o.launch && x.wg == o.wg && x.gidx == o.gidx && !o.lost) = true → gWg x = wgKey o.launch o.wg := by
    intro x hx
    simp only [Bool.and_eq_true, beq_iff_eq] at hx
    rw [gWg, hx.1.1.1, hx.1.1.2]
  have hkey : gWg g = wgKey o.launch o.wg := by
    have hg := h.group
    unfold opAt at hg
    dsimp only at hg
    split at hg
    · split at hg
      · next hown =>
        obtain ⟨-, rfl⟩ := Prod.mk.inj (Option.some.inj hg)
        exact own _ hown
      · have hfound := List.find?_some hg
        exact own g hfound
    · have hfound := List.find?_some hg
      exact own g hfound
  exact ⟨hkey, ⟨hkey ▸ h.wg, h.resident, hlost⟩⟩

/-- The rows of a copy. -/
def rowPieces (sa sstr rowb rows : Nat) (sb : DWord) (gstr : Int) : List Piece :=
  (List.range rows).map (fun (r : Nat) => (⟨255, sa + r * sstr, (sb.toNat : Int) + (r : Int) * gstr, rowb⟩ : Piece))

/-- A copy of rows from global memory. -/
theorem cpyIn_completes {s : State} {n k : Nat} {o : EngineOp} {g : Group} {w : Workgroup} {l : Launch} {x : XReg} {sa rowb rows sstr : Nat}
    {sb : DWord} {gstr : Int} {pa : Nat → Nat} (h : Performs s n o k g w l .ld) (hact : o.act = .cpy .inn x sa sb rowb rows sstr gstr)
    (hpa : ∀ r j, r < rows → j < rowb → xPa l x ((sb.toNat : Int) + (r : Int) * gstr + j) false = some (pa r + j, false)) :
    ∃ t, exec (.copyOpComplete n) s = .next t ∧ Completed s t n o k g .ld ∧ t.mem = s.mem ∧
      PadIs t (gWg g) (fun a => match lastRow rows sa sstr rowb a with
        | some r => memByte s (pa r + (a - (sa + r * sstr)))
        | none => padOf w a) := by
  obtain ⟨hkey, hopen⟩ := h.padOpen
  have hreach : ∀ r, r < rows → Reaches l x false (pa r) ⟨255, sa + r * sstr, (sb.toNat : Int) + (r : Int) * gstr, rowb⟩ :=
    fun r hr j hj => hpa r j hr hj
  obtain ⟨ws, w', o1, hfold, hopen', hmet, hpad⟩ := foldl_copyRun_in (s := s) (ws := s.wgs) (rowPieces sa sstr rowb rows sb gstr)
    (l := l) (x := x) (fun e he => by
      obtain ⟨r, hr, rfl⟩ := List.mem_map.1 he
      exact ⟨pa r, hreach r (List.mem_range.1 hr)⟩) hopen (Met.refl h.plain.2.2.1)
  have hperf : copyPerform s o = some ({ s with wgs := ws }, o1) := by
    unfold copyPerform
    rw [h.launch]
    dsimp only
    rw [hact]
    dsimp only
    unfold cpyPerform
    rw [← hfold]
    rfl
  obtain ⟨t, g', h1, h2, h3, h4, -⟩ := performs_complete h hperf hmet ⟨rfl, rfl, rfl⟩
  refine ⟨t, h1, h2, h3, w', by rw [h4, hkey]; exact hopen'.wg, fun a => ?_⟩
  have hrows : inRuns s l x (rowPieces sa sstr rowb rows sb gstr) = (List.range rows).map (fun r => (sa + r * sstr, sourceBytes s
      (pieceAt l x false ⟨255, sa + r * sstr, (sb.toNat : Int) + (r : Int) * gstr, rowb⟩) rowb)) := by
    rw [inRuns, rowPieces, List.map_map]
    rfl
  obtain ⟨hsome, hnone⟩ := overlay_rows sa sstr rowb rows (fun r => sourceBytes s
      (pieceAt l x false ⟨255, sa + r * sstr, (sb.toNat : Int) + (r : Int) * gstr, rowb⟩) rowb) (fun r => sourceBytes_length ..) (padOf w) a
  rw [hpad, hrows]
  dsimp only
  split
  · next r hr =>
    have hmem := List.mem_of_find?_eq_some hr
    have hin := List.find?_some hr
    simp only [List.mem_reverse, List.mem_range, Bool.and_eq_true, decide_eq_true_eq] at hmem hin
    rw [hsome r hr, sourceBytes_getD _ _ _ (by omega), pieceAt_eq (hreach r hmem) (by show 0 < rowb; omega)]
  · next hr => exact hnone hr

/-! ## Elements copied inwards (R258) -/

/-- An element all of whose bytes may be read may be performed. -/
theorem elemOk_in {s : State} {lid : Nat} {l : Launch} {x : XReg} {q : Nat} {e : Piece} (h : Reaches l x false q e) :
    elemOk s lid l .inn x e.off e.n = .ok () := by
  unfold elemOk
  rw [if_neg (by decide)]
  dsimp only
  rw [if_neg]
  · rfl
  · rw [Bool.not_eq_true, List.any_eq_false]
    intro y hy
    obtain ⟨j, hj, rfl⟩ := List.mem_map.1 hy
    rw [show (Dir.inn == Dir.out) = false from rfl, h j (List.mem_range.1 hj)]
    exact Bool.false_ne_true

/-- No lane has met a fault. -/
def NoFault (tbl : Tbl Nat) : Prop := ∀ m ∈ tbl, m.2.testBit 4 = false

/-- What elements copied inwards one after the other leave. -/
theorem foldl_elemPiece_in {s : State} {o : EngineOp} {l : Launch} {x : XReg} (es : List Piece) (hx : ∀ e ∈ es, ∃ q, Reaches l x false q e)
    {ws : Tbl Workgroup} {w : Workgroup} {o' : EngineOp} {tbl : Tbl Nat} (h : PadOpen { s with wgs := ws } o w) (hm : Met o o')
    (ht : NoFault tbl) :
    ∃ ws' w' o'' tbl', es.foldl (elemPiece l .inn x) (({ s with wgs := ws }, o'), tbl) = (({ s with wgs := ws' }, o''), tbl') ∧
      PadOpen { s with wgs := ws' } o w' ∧ Met o o'' ∧ NoFault tbl' ∧ padOf w' = overlay (inRuns s l x es) (padOf w) := by
  induction es generalizing ws w o' tbl with
  | nil => exact ⟨ws, w, o', tbl, rfl, h, hm, ht, rfl⟩
  | cons e es ih =>
    obtain ⟨q, hq⟩ := hx e (by simp)
    obtain ⟨seen, hseen, rfl⟩ := hm
    obtain ⟨ws1, w1, o1, e1, h1, ⟨seen1, hseen1, ho1⟩, hp1⟩ := copyRun_in (o' := { o with seen := 0 }) h ⟨0, Nat.zero_testBit 4, rfl⟩
      (reaches_pieceAt hq)
    have hold : ((tget tbl e.lane).getD 0).testBit 4 = false := by
      cases hg : tget tbl e.lane with
      | none => exact Nat.zero_testBit 4
      | some v => exact ht (e.lane, v) (tget_mem tbl e.lane v hg)
    have ht1 : NoFault (tput tbl e.lane ((tget tbl e.lane).getD 0 ||| seen1)) := fun m hm => by
      obtain rfl | hm := mem_tput tbl e.lane _ m hm
      · rw [Nat.testBit_or, hold, hseen1]
        rfl
      · exact ht m hm
    obtain ⟨ws2, w2, o2, tbl2, e2, h2, hm2, ht2, hp2⟩ := ih (fun e he => hx e (by simp [he])) h1
      (o' := { o with seen := seen }) ⟨seen, hseen, rfl⟩ ht1
    refine ⟨ws2, w2, o2, tbl2, ?_, h2, hm2, ht2, ?_⟩
    · rw [List.foldl_cons, ← e2]
      refine congrArg (fun p => es.foldl (elemPiece l .inn x) p) ?_
      unfold elemPiece
      dsimp only
      rw [e1, ho1]
    · rw [hp2, hp1]
      rfl

/-- What lanes without a fault have met is met without a fault. -/
theorem met_foldl_elemSeen {o o' : EngineOp} {tbl : Tbl Nat} (hm : Met o o') (ht : NoFault tbl) :
    Met o (tbl.foldl (fun o m => if m.2 = 0 then o else opMeet o (elemSeen m.2)) o') := by
  induction tbl generalizing o' with
  | nil => exact hm
  | cons m tbl ih =>
    refine ih ?_ (fun x hx => ht x (by simp [hx]))
    have hbit := ht m (by simp)
    dsimp only
    split
    · exact hm
    · refine hm.opMeet ?_
      unfold elemSeen
      split
      · decide
      · rw [Nat.mul_comm, show (2 : Nat) = 2 ^ 1 from rfl, Nat.testBit_two_pow_mul, Nat.testBit_div_two_pow]
        simpa using hbit

/-- The elements of CPYX. -/
def elemPieces (e sa : Nat) (sb : DWord) (idx : List (Nat × Nat)) : List Piece :=
  idx.map (fun i => (⟨i.1, sa + i.1 * e, (sb.toNat : Int) + (i.2 * e : Nat), e⟩ : Piece))

/-- The byte that elements copied inwards leave at an address of the scratchpad. -/
def laneByte (s : State) (pa : Nat → Nat) (sa e a : Nat) : Byte := memByte s (pa ((a - sa) / e) + (a - sa) % e)

theorem laneByte_at (s : State) (pa : Nat → Nat) (sa lane : Nat) {e j : Nat} (h : j < e) :
    laneByte s pa sa e (sa + lane * e + j) = memByte s (pa lane + j) := by
  have he : sa + lane * e + j - sa = j + lane * e := by omega
  rw [laneByte, he, Nat.add_mul_div_right _ _ (by omega), Nat.add_mul_mod_self_right, Nat.div_eq_of_lt h, Nat.mod_eq_of_lt h, Nat.zero_add]

/-- A copy of elements from global memory. -/
theorem cpyxIn_completes {s : State} {n k : Nat} {o : EngineOp} {g : Group} {w : Workgroup} {l : Launch} {x : XReg} {e sa : Nat}
    {sb : DWord} {idx : List (Nat × Nat)} {pa : Nat → Nat} (h : Performs s n o k g w l .ld) (hact : o.act = .cpyx .inn x e sa sb idx)
    (hpa : ∀ lane i j, (lane, i) ∈ idx → j < e → xPa l x ((sb.toNat : Int) + (i * e : Nat) + j) false = some (pa lane + j, false)) :
    ∃ t, exec (.copyOpComplete n) s = .next t ∧ Completed s t n o k g .ld ∧ t.mem = s.mem ∧
      ∃ w', tget t.wgs (gWg g) = some w' ∧
        (∀ lane i j, (lane, i) ∈ idx → j < e → padOf w' (sa + lane * e + j) = memByte s (pa lane + j)) ∧
        ∀ a, (∀ lane i, (lane, i) ∈ idx → a < sa + lane * e ∨ sa + lane * e + e ≤ a) → padOf w' a = padOf w a := by
  obtain ⟨hkey, hopen⟩ := h.padOpen
  have hreach : ∀ p ∈ elemPieces e sa sb idx, ∃ lane, p.a = sa + lane * e ∧ p.n = e ∧ Reaches l x false (pa lane) p := fun p hp => by
    obtain ⟨⟨lane, i⟩, hmem, rfl⟩ := List.mem_map.1 hp
    exact ⟨lane, rfl, rfl, fun j hj => hpa lane i j hmem hj⟩
  have hreach' : ∀ p ∈ elemPieces e sa sb idx, ∃ q, Reaches l x false q p := fun p hp => by
    obtain ⟨lane, -, -, hr⟩ := hreach p hp
    exact ⟨pa lane, hr⟩
  obtain ⟨ws, w', o1, tbl, hfold, hopen', hmet, hnf, hpad⟩ := foldl_elemPiece_in (s := s) (ws := s.wgs) (elemPieces e sa sb idx) hreach' hopen
    (Met.refl h.plain.2.2.1) (tbl := []) (fun m hm => absurd hm (by simp))
  have hok : ∀ p ∈ elemPieces e sa sb idx, (elemOk s o.launch l .inn x p.off e).isOk = true := fun p hp => by
    obtain ⟨lane, -, hn, hr⟩ := hreach p hp
    rw [← hn, elemOk_in hr]
    rfl
  have hall : (elemPieces e sa sb idx).filter (fun p => (elemOk s o.launch l .inn x p.off e).isOk) = elemPieces e sa sb idx :=
    List.filter_eq_self.2 hok
  have hnone : (elemPieces e sa sb idx).filter (fun p => !(elemOk s o.launch l .inn x p.off e).isOk) = [] :=
    List.filter_eq_nil_iff.2 (fun p hp => by rw [hok p hp]; decide)
  have hperf : copyPerform s o = some ({ s with wgs := ws },
      tbl.foldl (fun o m => if m.2 = 0 then o else opMeet o (elemSeen m.2)) o1) := by
    unfold copyPerform
    rw [h.launch]
    dsimp only
    rw [hact]
    dsimp only
    unfold cpyxPerform
    dsimp only
    rw [show idx.map (fun i => (⟨i.1, sa + i.1 * e, (sb.toNat : Int) + (i.2 * e : Nat), e⟩ : Piece)) = elemPieces e sa sb idx from rfl,
      hall, hnone]
    unfold pieceOrder
    rw [if_neg (by decide)]
    rw [List.foldl_nil, hfold]
  obtain ⟨t, g', h1, h2, h3, h4, -⟩ := performs_complete h hperf (met_foldl_elemSeen hmet hnf) ⟨rfl, rfl, rfl⟩
  have hruns : ∀ y ∈ inRuns s l x (elemPieces e sa sb idx), ∀ j, j < y.2.length → y.2.getD j 0 = laneByte s pa sa e (y.1 + j) :=
      fun y hy j hj => by
    obtain ⟨p, hp, rfl⟩ := List.mem_map.1 hy
    obtain ⟨lane, ha, hn, hr⟩ := hreach p hp
    simp only [sourceBytes_length] at hj
    dsimp only
    rw [sourceBytes_getD _ _ _ hj, pieceAt_eq hr (by omega), ha, laneByte_at s pa sa lane (by omega)]
  refine ⟨t, h1, h2, h3, w', by rw [h4, hkey]; exact hopen'.wg, fun lane i j hmem hj => ?_, fun a hout => ?_⟩
  · have hp : (⟨lane, sa + lane * e, (sb.toNat : Int) + (i * e : Nat), e⟩ : Piece) ∈ elemPieces e sa sb idx :=
      List.mem_map.2 ⟨(lane, i), hmem, rfl⟩
    have hrun : (sa + lane * e, sourceBytes s (pieceAt l x false ⟨lane, sa + lane * e, (sb.toNat : Int) + (i * e : Nat), e⟩) e) ∈
      inRuns s l x (elemPieces e sa sb idx) := List.mem_map.2 ⟨_, hp, rfl⟩
    rw [hpad, (overlay_agree (T := laneByte s pa sa e) hruns _).1 ⟨_, hrun, by dsimp only; omega,
      by dsimp only; rw [sourceBytes_length]; omega⟩, laneByte_at s pa sa lane hj]
  · rw [hpad, (overlay_agree (T := laneByte s pa sa e) hruns a).2]
    intro y hy
    obtain ⟨p, hp, rfl⟩ := List.mem_map.1 hy
    obtain ⟨⟨lane, i⟩, hmem, rfl⟩ := List.mem_map.1 hp
    simpa using hout lane i hmem

/-! ## Fills (R259) -/

/-- The bytes of a fill follow the pattern. -/
theorem fillBytes_getD (pattern : DWord) (a n : Nat) {j : Nat} (h : j < n) :
    (plainBytes (fillBytes pattern a n)).getD j 0 = (bytesOf 8 pattern.toNat).getD ((a + j) % 8) 0 := by
  rw [List.getD_eq_getElem _ _ (by simpa [fillBytes] using h), List.getD_eq_getElem _ _ (by simpa using Nat.mod_lt _ (by decide))]
  simp [fillBytes, bytesOf]

/-- A fill of scratchpad. -/
theorem cpyfScratch_completes {s : State} {n k : Nat} {o : EngineOp} {g : Group} {w : Workgroup} {l : Launch} {sa pattern : DWord} {len : Nat}
    (h : Performs s n o k g w l .ld) (hact : o.act = .cpyf none sa pattern len) :
    ∃ t, exec (.copyOpComplete n) s = .next t ∧ Completed s t n o k g .ld ∧ t.mem = s.mem ∧
      PadIs t (gWg g) (fun a => if sa.toNat ≤ a ∧ a < sa.toNat + len then (bytesOf 8 pattern.toNat).getD (a % 8) 0 else padOf w a) := by
  obtain ⟨hkey, hopen⟩ := h.padOpen
  obtain ⟨w', hw, hopen', hpad⟩ := opWrite_resident hopen sa.toNat (fillBytes pattern sa.toNat len)
  have hperf : copyPerform s o = some (putWg s (wgKey o.launch o.wg) w', opMeet o seenOK) := by
    unfold copyPerform
    rw [h.launch]
    dsimp only
    rw [hact]
    dsimp only
    unfold cpyfPerform
    dsimp only
    rw [hw]
  obtain ⟨t, g', h1, h2, h3, h4, -⟩ := performs_complete h hperf ((Met.refl h.plain.2.2.1).opMeet (by decide)) ⟨rfl, rfl, rfl⟩
  refine ⟨t, h1, h2, h3, w', by rw [h4, hkey]; exact hopen'.wg, fun a => ?_⟩
  have hlen : (plainBytes (fillBytes pattern sa.toNat len)).length = len := by simp [fillBytes]
  rw [hpad]
  dsimp only
  split
  · next hin =>
    obtain ⟨j, rfl⟩ := Nat.exists_eq_add_of_le hin.1
    rw [storedAt_in (by omega), fillBytes_getD _ _ _ (by omega)]
  · next hout => rw [storedAt_out (by omega)]

/-! ## Far atomics (R261) -/

/-- Values set in turn, each at its own lane and through `f`. -/
def setLanes (f : DWord → Word) (vals : List (Nat × DWord)) (xs : VReg) : VReg := vals.foldl (fun v p => setAt v p.1 (f p.2)) xs

theorem setLanes_length (f : DWord → Word) (vals : List (Nat × DWord)) (xs : VReg) : (setLanes f vals xs).length = xs.length := by
  induction vals generalizing xs with
  | nil => rfl
  | cons p vals ih => exact (ih _).trans (setAt_length ..)

/-- A lane that no value names is as before. -/
theorem setLanes_other {f : DWord → Word} {vals : List (Nat × DWord)} {xs : VReg} {lane : Nat} (h : ∀ v, (lane, v) ∉ vals)
    (hl : ∀ p ∈ vals, p.1 < xs.length) : (setLanes f vals xs).getD lane 0 = xs.getD lane 0 := by
  induction vals generalizing xs with
  | nil => rfl
  | cons p vals ih =>
    have hne : lane ≠ p.1 := fun e => h p.2 (by simp [e])
    refine (ih (fun v hv => h v (by simp [hv])) (fun q hq => ?_)).trans ?_
    · rw [setAt_length]
      exact hl q (by simp [hq])
    · rw [getD_setAt (hl p (by simp)), if_neg hne]

/-- A lane that one value names has it. -/
theorem setLanes_named {f : DWord → Word} {vals : List (Nat × DWord)} {xs : VReg} {lane : Nat} {v : DWord} (h : (lane, v) ∈ vals)
    (hd : (vals.map (fun p => p.1)).Nodup) (hl : ∀ p ∈ vals, p.1 < xs.length) : (setLanes f vals xs).getD lane 0 = f v := by
  induction vals generalizing xs with
  | nil => simp at h
  | cons p vals ih =>
    rw [List.map_cons, List.nodup_cons] at hd
    have hl' : ∀ q ∈ vals, q.1 < (setAt xs p.1 (f p.2)).length := fun q hq => by
      rw [setAt_length]
      exact hl q (by simp [hq])
    obtain rfl | hmem := List.mem_cons.1 h
    · have hout : ∀ u, (lane, u) ∉ vals := fun u hu => hd.1 (List.mem_map.2 ⟨_, hu, rfl⟩)
      refine (setLanes_other hout hl').trans ?_
      rw [getD_setAt (hl (lane, v) (by simp)), if_pos rfl]
    · exact ih hmem hd.2 hl'

/-- Registers as far atomics leave them. -/
theorem vreg_setV (g : Group) (r q : Nat) (v : VReg) : vreg (setV g r v) q = if q = r then v else vreg g q := mget_mset ..

/-- What a far atomic delivers: its values' low halves, and where they are wide their high halves beside them. -/
theorem vreg_deliverVals {g : Group} {o : EngineOp} {x : XReg} {aop : Nat} {wide signed : Bool} {sb : DWord} {vd : Nat} {lanes : List FarLane}
    (hact : o.act = .far x aop wide signed sb (some vd) lanes) (r : Nat) :
    vreg (deliverVals g o) r = if r = vd + 1 ∧ wide = true then setLanes (fun v => v.extractLsb' 32 32) o.vals (vreg g (vd + 1))
      else if r = vd then setLanes (fun v => v.setWidth 32) o.vals (vreg g vd) else vreg g r := by
  unfold deliverVals
  rw [hact]
  dsimp only
  cases wide with
  | false =>
    rw [if_neg (by decide), vreg_setV, if_neg (show ¬(r = vd + 1 ∧ false = true) from fun h => Bool.false_ne_true h.2)]
    rfl
  | true =>
    rw [if_pos rfl, vreg_setV, vreg_setV, vreg_setV, if_neg (Nat.succ_ne_self vd)]
    by_cases h : r = vd + 1
    · rw [if_pos h, if_pos ⟨h, rfl⟩]
      rfl
    · rw [if_neg h, if_neg (show ¬(r = vd + 1 ∧ true = true) from fun e => h e.1)]
      rfl

/-- A far atomic all of whose cells have been performed. -/
theorem far_completes {s : State} {n k : Nat} {o : EngineOp} {g : Group} {w : Workgroup} {l : Launch} {x : XReg} {aop : Nat}
    {wide signed : Bool} {sb : DWord} {vd : Nat} {lanes : List FarLane} (h : Performs s n o k g w l .ld)
    (hact : o.act = .far x aop wide signed sb (some vd) lanes) (hcells : ∀ e ∈ lanes, e.off ∈ o.cells)
    (hd : (o.vals.map (fun p => p.1)).Nodup) (h0 : (vreg g vd).length = 128) (h1 : (vreg g (vd + 1)).length = 128)
    (hl : ∀ p ∈ o.vals, p.1 < 128) :
    ∃ t g', exec (.copyOpComplete n) s = .next t ∧ Completed s t n o k g .ld ∧ t.mem = s.mem ∧ tget t.groups k = some g' ∧
      (∀ lane v, (lane, v) ∈ o.vals → vlane g' vd lane = v.setWidth 32 ∧ (wide = true → vlane g' (vd + 1) lane = v.extractLsb' 32 32)) ∧
      (∀ lane, (∀ v, (lane, v) ∉ o.vals) → vlane g' vd lane = vlane g vd lane) ∧
      ∀ r, r ≠ vd → (wide = true → r ≠ vd + 1) → vreg g' r = vreg g r := by
  obtain ⟨-, -, hseen, -, -, -, hcs⟩ := h.plain
  have hperf : copyPerform s o = some (s, opMeet o 0) := by
    have hdone : cellsDone o = true := by
      unfold cellsDone
      rw [hact]
      exact List.all_eq_true.2 (fun e he => List.contains_iff_mem.2 (hcells e he))
    unfold copyPerform
    rw [h.launch]
    dsimp only
    rw [hact]
    dsimp only
    rw [if_pos hdone, hcs]
    rfl
  obtain ⟨t, g', e1, e2, e3, -, e4, e5⟩ := performs_complete h hperf ((Met.refl hseen).opMeet (Nat.zero_testBit 4)) ⟨rfl, rfl, rfl⟩
  have hreg : ∀ r, vreg g' r = vreg (deliverVals g o) r := fun r => by rw [vreg, vreg, e5]
  have hvd : vreg g' vd = setLanes (fun v => v.setWidth 32) o.vals (vreg g vd) := by
    rw [hreg, vreg_deliverVals hact, if_neg (fun e => Nat.succ_ne_self vd e.1.symm), if_pos rfl]
  refine ⟨t, g', e1, e2, e3, e4, fun lane v hv => ⟨?_, fun hw => ?_⟩, fun lane hout => ?_, fun r hr hr' => ?_⟩
  · rw [vlane, hvd, setLanes_named hv hd (by rw [h0]; exact hl)]
  · rw [vlane, hreg, vreg_deliverVals hact, if_pos ⟨rfl, hw⟩, setLanes_named hv hd (by rw [h1]; exact hl)]
  · rw [vlane, vlane, hvd, setLanes_other hout (by rw [h0]; exact hl)]
  · rw [hreg, vreg_deliverVals hact, if_neg (fun e => hr' e.2 e.1), if_neg hr]

end Sys2Proof.Machine
end

