-- ==== Sys2Proof/Proofs/CopyOut.lean ====
section

/-! # Copies outwards performed (O36) -/

namespace Sys2Proof.Machine

/-! ## The order of the pieces of a copy outwards (R49, R53, R257) -/

theorem mem_insertBy {α : Type} (key : α → Int) (x y : α) (xs : List α) : y ∈ insertBy key x xs ↔ y = x ∨ y ∈ xs := by
  induction xs with
  | nil => simp [insertBy]
  | cons z xs ih =>
    unfold insertBy
    split
    · simp
    · rw [List.mem_cons, ih, List.mem_cons]
      tauto

/-- Sorting keeps the members of a list. -/
theorem mem_sortBy {α : Type} (key : α → Int) (y : α) (xs : List α) : y ∈ sortBy key xs ↔ y ∈ xs := by
  have fold : ∀ (xs t : List α), y ∈ xs.foldl (fun t x => insertBy key x t) t ↔ y ∈ xs ∨ y ∈ t := by
    intro xs
    induction xs with
    | nil => simp
    | cons x xs ih =>
      intro t
      rw [List.foldl_cons, ih, mem_insertBy, List.mem_cons]
      tauto
  rw [sortBy, fold]
  simp

/-- Whatever their order, the pieces of a copy outwards are its runs cut at pages. -/
theorem mem_pieceOrder_out {s : State} {o : EngineOp} {x : XReg} {ps : List Piece} {e : Piece} :
    e ∈ pieceOrder s o .out x ps ↔ ∃ p ∈ ps, e ∈ cutPages x (p.n / 65536 + 2) p := by
  unfold pieceOrder
  rw [if_pos rfl]
  dsimp only
  rw [List.mem_append, mem_sortBy, List.mem_filter, List.mem_filter, List.mem_flatMap]
  cases devAt s o.launch (xVa x e.off).toNat <;> simp

/-- A piece is the part of a run from byte `d` on. -/
def PartOf (p : Piece) (d : Nat) (e : Piece) : Prop := e.a = p.a + d ∧ e.off = p.off + d ∧ d + e.n ≤ p.n

/-- Cut at pages, a run falls into parts of it, and every byte of it into one. -/
theorem cutPages_parts (x : XReg) (fuel : Nat) (p : Piece) :
    (∀ e ∈ cutPages x fuel p, ∃ d, PartOf p d e) ∧ ∀ j, j < p.n → ∃ e ∈ cutPages x fuel p, ∃ d, PartOf p d e ∧ d ≤ j ∧ j < d + e.n := by
  have whole : (∀ e ∈ [p], ∃ d, PartOf p d e) ∧ ∀ j, j < p.n → ∃ e ∈ [p], ∃ d, PartOf p d e ∧ d ≤ j ∧ j < d + e.n := by
    have self : PartOf p 0 p := ⟨rfl, (add_zero _).symm, by omega⟩
    exact ⟨fun e he => ⟨0, List.mem_singleton.1 he ▸ self⟩, fun j hj => ⟨p, by simp, 0, self, by omega, by omega⟩⟩
  induction fuel generalizing p with
  | zero => exact whole
  | succ fuel ih =>
    unfold cutPages
    dsimp only
    generalize (65536 - ((x.vbase.toNat : Int) + p.off) % 65536).toNat = room
    split
    · exact whole
    · next hroom =>
      have first : PartOf p 0 { p with n := room } := ⟨rfl, (add_zero _).symm, by dsimp only; omega⟩
      have rest : ∀ d e, PartOf { p with a := p.a + room, off := p.off + room, n := p.n - room } d e → PartOf p (room + d) e :=
        fun d e ⟨h1, h2, h3⟩ => ⟨by rw [h1]; dsimp only; omega, by rw [h2]; dsimp only; push_cast; omega, by dsimp only at h3; omega⟩
      have hrest := ih { p with a := p.a + room, off := p.off + room, n := p.n - room } ⟨fun e he => ⟨0, List.mem_singleton.1 he ▸
        ⟨rfl, (add_zero _).symm, by omega⟩⟩, fun j hj => ⟨_, List.mem_singleton.2 rfl, 0, ⟨rfl, (add_zero _).symm, by omega⟩, by omega, by omega⟩⟩
      refine ⟨fun e he => ?_, fun j hj => ?_⟩
      · obtain rfl | he := List.mem_cons.1 he
        · exact ⟨0, first⟩
        · obtain ⟨d, hd⟩ := hrest.1 e he
          exact ⟨room + d, rest d e hd⟩
      · by_cases hjr : j < room
        · exact ⟨_, List.mem_cons_self, 0, first, by omega, by dsimp only; omega⟩
        · obtain ⟨e, he, d, hd, h1, h2⟩ := hrest.2 (j - room) (by dsimp only; omega)
          exact ⟨e, List.mem_cons_of_mem _ he, room + d, rest d e hd, by omega, by omega⟩

/-! ## A piece copied outwards -/

/-- Bytes within one unit, all of which may be written, are stored. -/
theorem gWriteUnit_reaches {o : EngineOp} {l : Launch} {x : XReg} {lane q : Nat} {p : State × EngineOp} {off : Int} {ds : List PByte}
    (hm : Met o p.2) (h : ∀ j : Nat, j < ds.length → xPa l x (off + j) true = some (q + j, false)) :
    Stored p.1 (gWriteUnit l x lane p off ds).1 ∧ Met o (gWriteUnit l x lane p off ds).2 ∧
      memByte (gWriteUnit l x lane p off ds).1 = storedAt q (plainBytes ds) (memByte p.1) := by
  have hfind : (List.range ds.length).find? (fun (j : Nat) => (xPa l x (off + (j : Int)) true).isNone) = none :=
    List.find?_eq_none.2 (fun j hj => by rw [h j (List.mem_range.1 hj)]; exact Bool.false_ne_true)
  have hok : (List.range ds.length).map (fun (j : Nat) => if (xPa l x (off + (j : Int)) true).isSome then ds[j]? else none) = ds.map some := by
    refine List.ext_getElem (by simp) (fun j hj _ => ?_)
    have hlt : j < ds.length := by simpa using hj
    rw [List.getElem_map, List.getElem_map, List.getElem_range, h j hlt]
    exact List.getElem?_eq_getElem hlt
  unfold gWriteUnit
  dsimp only
  rw [hfind, hok, runsOf_present]
  by_cases he : ds = []
  · subst he
    exact ⟨.refl _, hm, (storedAt_nil q _).symm⟩
  · have h0 := h 0 (List.length_pos_iff.2 he)
    rw [add_zero] at h0
    rw [if_neg he, List.foldl_cons, List.foldl_nil]
    dsimp only
    rw [h0]
    obtain ⟨hmem, hbit⟩ := homeWrite_plain p.1 q ds
    dsimp only
    rw [hbit, if_neg Bool.false_ne_true]
    refine ⟨stored_homeWrite .., hm.opMeet ?_, hmem⟩
    split
    · decide
    · unfold wroteSeen
      split <;> split <;> decide

/-- Bytes all of which may be written are stored. -/
theorem gWrite_reaches {o : EngineOp} {l : Launch} {x : XReg} {lane q : Nat} {p : State × EngineOp} {off : Int} {ds : List PByte}
    (hm : Met o p.2) (h : ∀ j : Nat, j < ds.length → xPa l x (off + j) true = some (q + j, false)) :
    Stored p.1 (gWrite l x lane p off ds).1 ∧ Met o (gWrite l x lane p off ds).2 ∧
      memByte (gWrite l x lane p off ds).1 = storedAt q (plainBytes ds) (memByte p.1) := by
  have cuts : ∀ (va : Int) (a : Nat) (ds : List PByte) (cs : List (Nat × List PByte)), Cuts a ds cs → ∀ (p : State × EngineOp) (q : Nat),
      Met o p.2 → (∀ j : Nat, j < ds.length → xPa l x (off + ((a : Int) - va) + j) true = some (q + j, false)) →
      Stored p.1 (cs.foldl (fun p c => gWriteUnit l x lane p (off + ((c.1 : Int) - va)) c.2) p).1 ∧
      Met o (cs.foldl (fun p c => gWriteUnit l x lane p (off + ((c.1 : Int) - va)) c.2) p).2 ∧
      memByte (cs.foldl (fun p c => gWriteUnit l x lane p (off + ((c.1 : Int) - va)) c.2) p).1 = storedAt q (plainBytes ds) (memByte p.1) := by
    intro va a ds cs hcuts
    induction hcuts with
    | nil a => exact fun p q hm _ => ⟨.refl _, hm, (storedAt_nil q _).symm⟩
    | @cons a c ds cs hne _ ih =>
      intro p q hm hx
      obtain ⟨s1, m1, b1⟩ := gWriteUnit_reaches (lane := lane) (ds := c) hm (fun j hj => hx j (by rw [List.length_append]; omega))
      obtain ⟨s2, m2, b2⟩ := ih _ (q + c.length) m1 (fun j hj => by
        have := hx (c.length + j) (by rw [List.length_append]; omega)
        rw [show off + (((a + c.length : Nat) : Int) - va) + (j : Int) = off + ((a : Int) - va) + ((c.length + j : Nat) : Int) by
          push_cast; omega, this, Nat.add_assoc])
      rw [List.foldl_cons]
      refine ⟨s1.trans s2, m2, ?_⟩
      rw [b2, b1, plainBytes, plainBytes, plainBytes, List.map_append, ← storedAt_append, List.length_map]
  unfold gWrite
  dsimp only
  have hva : 0 ≤ (x.vbase.toInt + off) % 2 ^ 64 := Int.emod_nonneg _ (by decide)
  generalize (x.vbase.toInt + off) % 2 ^ 64 = va at hva ⊢
  refine cuts va va.toNat ds _ (cuts_chunks _ ds) p q hm (fun j hj => ?_)
  rw [show off + ((va.toNat : Int) - va) + (j : Int) = off + j by omega]
  exact h j hj

/-- The bytes of a run of scratchpad. -/
def padBytes (w : Workgroup) (a n : Nat) : List Byte := (List.range n).map (fun j => padOf w (a + j))

@[simp] theorem padBytes_length (w : Workgroup) (a n : Nat) : (padBytes w a n).length = n := by simp [padBytes]

theorem padBytes_getD (w : Workgroup) (a n : Nat) {j : Nat} (h : j < n) : (padBytes w a n).getD j 0 = padOf w (a + j) := by
  rw [List.getD_eq_getElem _ _ (by simpa using h)]
  simp [padBytes]

/-- The runs that pieces copied outwards store. -/
def outRuns (w : Workgroup) (l : Launch) (x : XReg) (es : List Piece) : List (Nat × List Byte) :=
  es.map (fun e => (pieceAt l x true e, padBytes w e.a e.n))

theorem Stored.frame {s t : State} (h : Stored s t) : CopyFrame s t ∧ t.wgs = s.wgs := by
  obtain ⟨_, _, _, _, _, _, _, _, rfl⟩ := h
  exact ⟨⟨rfl, rfl, rfl⟩, rfl⟩

/-- What pieces copied outwards one after the other leave. -/
theorem foldl_copyRun_out {s : State} {o : EngineOp} {l : Launch} {x : XReg} {w : Workgroup} (hw : tget s.wgs (wgKey o.launch o.wg) = some w)
    (hsrc : o.src = none) (es : List Piece) (hx : ∀ e ∈ es, ∃ q, Reaches l x true q e) {p : State × EngineOp} (hs : Stored s p.1)
    (hm : Met o p.2) :
    let r := es.foldl (fun p e => copyRun l .out x e.lane p e.a e.off e.n) p
    Stored s r.1 ∧ Met o r.2 ∧ memByte r.1 = overlay (outRuns w l x es) (memByte p.1) := by
  induction es generalizing p with
  | nil => exact ⟨hs, hm, rfl⟩
  | cons e es ih =>
    obtain ⟨q, hq⟩ := hx e (by simp)
    have hread : plainBytes (opRead p.1 p.2 e.a e.n) = padBytes w e.a e.n := by
      have hsource : opSource p.1 p.2 = (w.scratch, w.spoison) := by
        obtain ⟨_, _, hp⟩ := hm
        rw [opSource, hs.frame.2, hp]
        dsimp only
        rw [hsrc, hw]
      rw [opRead, hsource, plainBytes, List.map_map]
      rfl
    have hlen : (opRead p.1 p.2 e.a e.n).length = e.n := by simp [opRead]
    obtain ⟨s1, m1, b1⟩ := gWrite_reaches (lane := e.lane) (ds := opRead p.1 p.2 e.a e.n) hm
      (fun j hj => reaches_pieceAt hq j (by rw [hlen] at hj; exact hj))
    obtain ⟨s2, m2, b2⟩ := ih (fun e he => hx e (by simp [he])) (hs.trans s1) m1
    refine ⟨s2, m2, ?_⟩
    rw [hread] at b1
    exact b2.trans (congrArg (overlay (outRuns w l x es)) b1)

/-- The byte that rows copied outwards leave at an address of memory. -/
def rowByte (w : Workgroup) (pa : Nat → Nat) (rows sa sstr rowb b : Nat) : Byte :=
  match (List.range rows).find? (fun r => decide (pa r ≤ b) && decide (b < pa r + rowb)) with
  | some r => padOf w (sa + r * sstr + (b - pa r))
  | none => 0

/-- Rows whose destinations do not meet have one byte for each address. -/
theorem rowByte_at {w : Workgroup} {pa : Nat → Nat} {rows rowb : Nat} (sa sstr : Nat)
    (hd : ∀ r q, r < rows → q < rows → r ≠ q → pa r + rowb ≤ pa q ∨ pa q + rowb ≤ pa r) {r j : Nat} (hr : r < rows) (hj : j < rowb) :
    rowByte w pa rows sa sstr rowb (pa r + j) = padOf w (sa + r * sstr + j) := by
  unfold rowByte
  cases hf : (List.range rows).find? (fun q => decide (pa q ≤ pa r + j) && decide (pa r + j < pa q + rowb)) with
  | none =>
    have := List.find?_eq_none.1 hf r (List.mem_range.2 hr)
    simp [hj] at this
  | some q =>
    have hin := List.find?_some hf
    have hq := List.mem_range.1 (List.mem_of_find?_eq_some hf)
    simp only [Bool.and_eq_true, decide_eq_true_eq] at hin
    obtain rfl : r = q := by
      by_contra hne
      have := hd r q hr hq hne
      omega
    dsimp only
    rw [Nat.add_sub_cancel_left]

/-- A copy of rows to global memory. -/
theorem cpyOut_completes {s : State} {n k : Nat} {o : EngineOp} {g : Group} {w : Workgroup} {l : Launch} {x : XReg} {sa rowb rows sstr : Nat}
    {sb : DWord} {gstr : Int} {pa : Nat → Nat} (h : Performs s n o k g w l .st) (hact : o.act = .cpy .out x sa sb rowb rows sstr gstr)
    (hpa : ∀ r j, r < rows → j < rowb → xPa l x ((sb.toNat : Int) + (r : Int) * gstr + j) true = some (pa r + j, false))
    (hd : ∀ r q, r < rows → q < rows → r ≠ q → pa r + rowb ≤ pa q ∨ pa q + rowb ≤ pa r) :
    ∃ t, exec (.copyOpComplete n) s = .next t ∧ Completed s t n o k g .st ∧
      (∀ r j, r < rows → j < rowb → memByte t (pa r + j) = padOf w (sa + r * sstr + j)) ∧
      (∀ b, (∀ r, r < rows → b < pa r ∨ pa r + rowb ≤ b) → memByte t b = memByte s b) := by
  obtain ⟨-, hopen⟩ := h.padOpen
  obtain ⟨-, -, hseen, -, hsrc, -, -⟩ := h.plain
  have hpart : ∀ r d e, r < rows → PartOf ⟨255, sa + r * sstr, (sb.toNat : Int) + (r : Int) * gstr, rowb⟩ d e →
      Reaches l x true (pa r + d) e := fun r d e hr ⟨_, hoff, hn⟩ j hj => by
    have := hpa r (d + j) hr (by dsimp only at hn; omega)
    rw [hoff, Nat.add_assoc, ← this]
    dsimp only
    rw [Nat.cast_add, add_assoc]
  have hpiece : ∀ e ∈ pieceOrder s o .out x (rowPieces sa sstr rowb rows sb gstr), ∃ r d, r < rows ∧
      PartOf ⟨255, sa + r * sstr, (sb.toNat : Int) + (r : Int) * gstr, rowb⟩ d e := fun e he => by
    obtain ⟨p, hp, hcut⟩ := mem_pieceOrder_out.1 he
    obtain ⟨r, hr, rfl⟩ := List.mem_map.1 hp
    obtain ⟨d, hpar⟩ := (cutPages_parts x _ _).1 e hcut
    exact ⟨r, d, List.mem_range.1 hr, hpar⟩
  have hcover : ∀ r j, r < rows → j < rowb → ∃ e ∈ pieceOrder s o .out x (rowPieces sa sstr rowb rows sb gstr), ∃ d,
      PartOf ⟨255, sa + r * sstr, (sb.toNat : Int) + (r : Int) * gstr, rowb⟩ d e ∧ d ≤ j ∧ j < d + e.n := fun r j hr hj => by
    obtain ⟨e, hcut, hpar⟩ := (cutPages_parts x (rowb / 65536 + 2) ⟨255, sa + r * sstr, (sb.toNat : Int) + (r : Int) * gstr, rowb⟩).2 j hj
    exact ⟨e, mem_pieceOrder_out.2 ⟨_, List.mem_map.2 ⟨r, List.mem_range.2 hr, rfl⟩, hcut⟩, hpar⟩
  generalize hes : pieceOrder s o .out x (rowPieces sa sstr rowb rows sb gstr) = es at hpiece hcover
  obtain ⟨hst, hmet, hmem⟩ := foldl_copyRun_out (w := w) hopen.wg hsrc es
    (fun e he => by
      obtain ⟨r, d, hr, hpar⟩ := hpiece e he
      exact ⟨_, hpart r d e hr hpar⟩) (p := (s, o)) (.refl s) (Met.refl hseen)
  have hperf : copyPerform s o = some (es.foldl (fun p e => copyRun l .out x e.lane p e.a e.off e.n) (s, o)) := by
    unfold copyPerform
    rw [h.launch]
    dsimp only
    rw [hact]
    dsimp only
    unfold cpyPerform
    rw [← hes]
    rfl
  obtain ⟨t, g', h1, h2, h3, -⟩ := performs_complete h hperf hmet hst.frame.1
  have htm : memByte t = overlay (outRuns w l x es) (memByte s) := by
    rw [← hmem]
    funext b
    rw [memByte, memByte, h3]
  have hagree : ∀ y ∈ outRuns w l x es, ∀ j, j < y.2.length → y.2.getD j 0 = rowByte w pa rows sa sstr rowb (y.1 + j) := fun y hy j hj => by
    obtain ⟨e, he, rfl⟩ := List.mem_map.1 hy
    obtain ⟨r, d, hr, hpar⟩ := hpiece e he
    dsimp only at hj ⊢
    rw [padBytes_length] at hj
    rw [padBytes_getD _ _ _ hj, pieceAt_eq (hpart r d e hr hpar) (by omega)]
    obtain ⟨ha, -, hn⟩ := hpar
    dsimp only at ha hn
    rw [Nat.add_assoc (pa r), rowByte_at sa sstr hd hr (by omega), ha, Nat.add_assoc]
  refine ⟨t, h1, h2, fun r j hr hj => ?_, fun b hout => ?_⟩
  · obtain ⟨e, he, d, hpar, hd1, hd2⟩ := hcover r j hr hj
    have hrun : (pa r + d, padBytes w e.a e.n) ∈ outRuns w l x es :=
      List.mem_map.2 ⟨e, he, by rw [pieceAt_eq (hpart r d e hr hpar) (by omega)]⟩
    rw [htm, (overlay_agree hagree _).1 ⟨_, hrun, by dsimp only; omega, by dsimp only; rw [padBytes_length]; omega⟩,
      rowByte_at sa sstr hd hr hj]
  · rw [htm, (overlay_agree hagree b).2]
    intro y hy
    obtain ⟨e, he, rfl⟩ := List.mem_map.1 hy
    obtain ⟨r, d, hr, hpar⟩ := hpiece e he
    obtain hn0 | hn0 := Nat.eq_zero_or_pos e.n
    · dsimp only
      rw [padBytes_length, hn0]
      omega
    · dsimp only
      rw [padBytes_length, pieceAt_eq (hpart r d e hr hpar) hn0]
      obtain ⟨-, -, hn⟩ := hpar
      dsimp only at hn
      have := hout r hr
      omega

end Sys2Proof.Machine
end

