-- ==== Sys2Proof/Proofs/TaskEnd.lean ====
section

/-! # The end of a task, and O36 -/

namespace Sys2Proof.Machine

/-! ## A workgroup replaced by one that stands in its place (R29) -/

/-- The first of a key's entries that a test passes is the one the table gives. -/
theorem find?_of_tget {α : Type} {t : Tbl α} {key : Nat} {w : α} {R : α → Bool} {p : Nat × α} (hw : tget t key = some w) (hR : R w = true)
    (hp : t.find? (fun p => R p.2) = some p) (hk : p.1 = key) : p = (key, w) := by
  induction t with
  | nil => cases hw
  | cons e t ih =>
    obtain ⟨k, v⟩ := e
    rw [tget] at hw
    rw [List.find?_cons] at hp
    by_cases hkey : k = key
    · rw [if_pos hkey] at hw
      obtain rfl := Option.some.inj hw
      dsimp only at hp
      rw [hR] at hp
      rw [← Option.some.inj hp, hkey]
    · rw [if_neg hkey] at hw
      cases hv : R v with
      | true =>
        dsimp only at hp
        rw [hv] at hp
        exact absurd (by rw [← hk, ← Option.some.inj hp]) hkey
      | false =>
        dsimp only at hp
        rw [hv] at hp
        exact ih hw hp

/-- Where a test that does not tell two values apart finds a key first, it does so after one has been put in place of the other. -/
theorem find?_tput {α : Type} {t : Tbl α} {key : Nat} {w w' : α} {R : α → Bool} {p : Nat × α} (hw : tget t key = some w) (hR : R w' = R w)
    (hp : t.find? (fun p => R p.2) = some p) (hk : p.1 = key) :
    ∃ v, (tput t key w').find? (fun p => R p.2) = some (key, v) ∧ (v = p.2 ∨ p.2 = w ∧ v = w') := by
  induction t with
  | nil => cases hw
  | cons e t ih =>
    obtain ⟨k, v⟩ := e
    rw [tput]
    by_cases hlt : key < k
    · rw [if_pos hlt, List.find?_cons]
      dsimp only
      cases h' : R w' with
      | true => exact ⟨w', rfl, .inr ⟨by rw [find?_of_tget hw (hR ▸ h') hp hk], rfl⟩⟩
      | false => exact ⟨p.2, by rw [← hk]; exact hp, .inl rfl⟩
    · rw [if_neg hlt]
      by_cases hkey : key = k
      · subst hkey
        rw [if_pos rfl, List.find?_cons]
        rw [tget, if_pos rfl] at hw
        obtain rfl := Option.some.inj hw
        rw [List.find?_cons] at hp
        dsimp only at hp ⊢
        cases h' : R w' with
        | true =>
          rw [← hR, h'] at hp
          exact ⟨w', rfl, .inr ⟨by rw [← Option.some.inj hp], rfl⟩⟩
        | false =>
          rw [← hR, h'] at hp
          exact ⟨p.2, by rw [← hk]; exact hp, .inl rfl⟩
      · rw [if_neg hkey, List.find?_cons]
        rw [tget, if_neg (fun e => hkey e.symm)] at hw
        rw [List.find?_cons] at hp
        dsimp only at hp ⊢
        cases hv : R v with
        | true =>
          rw [hv] at hp
          exact absurd (by rw [← hk, ← Option.some.inj hp]) hkey
        | false =>
          rw [hv] at hp
          exact ih hw hp

/-- A workgroup that stands where another stands: what the on-chip map asks of the two is the same. -/
def InPlace (w w' : Workgroup) : Prop := w'.launch = w.launch ∧ w'.lcore = w.lcore ∧ w'.status = w.status ∧ w'.sbase = w.sbase

/-- The bytes that the on-chip map finds in a workgroup's scratchpad it finds there in one that stands in its place. -/
theorem ocpmByte_putWg {s : State} {lid addr key off : Nat} {w w' : Workgroup} (h : ocpmByte s lid addr = some (.scratch key off))
    (hw : tget s.wgs key = some w) (hp : InPlace w w') : ocpmByte (putWg s key w') lid addr = some (.scratch key off) := by
  obtain ⟨p1, p2, p3, p4⟩ := hp
  unfold ocpmByte at h ⊢
  rw [show (putWg s key w').launches = s.launches from rfl]
  cases hl : tget s.launches lid with
  | none => rw [hl] at h; cases h
  | some l =>
    rw [hl] at h
    dsimp only at h ⊢
    by_cases hout : 2 ^ 40 ≤ addr ∨ 48 ≤ addr / 2 ^ 32 % 64
    · rw [if_pos hout] at h
      cases h
    · rw [if_neg hout] at h ⊢
      by_cases h0 : addr / 2 ^ 29 % 8 = 0
      · rw [if_pos h0] at h ⊢
        obtain ⟨p, hfind, hval⟩ := Option.map_eq_some_iff.1 h
        unfold wgsOn at hfind ⊢
        rw [List.find?_filter] at hfind ⊢
        obtain ⟨hk, hoff⟩ := OcpmByte.scratch.inj hval
        obtain ⟨v, hv, hsame⟩ := find?_tput (w' := w') (R := fun w => decide ((w.launch == lid && w.lcore == ocpmCore addr && wgResident w) = true ∧
            (decide (w.sbase ≤ addr % 2 ^ 29) && decide (addr % 2 ^ 29 < w.sbase + l.kern.scratch)) = true)) hw
          (by unfold wgResident; rw [p1, p2, p3, p4]) hfind hk
        refine (congrArg _ hv).trans ?_
        have hs : v.sbase = p.2.sbase := by
          obtain rfl | ⟨e, rfl⟩ := hsame
          · rfl
          · rw [e, p4]
        rw [Option.map_some, hs, hoff]
      · rw [if_neg h0] at h
        exfalso
        split at h
        · split at h
          · cases h
          · simp at h
        · split at h
          · split at h
            · cases h
            · simp at h
          · cases h

/-! ## The words of a task's end (R223) -/

/-- A state in which a workgroup's scratchpad holds `m`, and the on-chip map still finds it where it did; only workgroups have changed. -/
structure TaskPad (s t : State) (lid key : Nat) (w : Workgroup) (m : Nat → Byte) : Prop where
  frame : ∃ ws, t = { s with wgs := ws }
  pad : ∃ w', tget t.wgs key = some w' ∧ InPlace w w' ∧ padOf w' = m
  found : ∀ addr off, ocpmByte s lid addr = some (.scratch key off) → ocpmByte t lid addr = some (.scratch key off)

/-- A workgroup that stands in its place put there. -/
theorem TaskPad.put {s t : State} {lid key : Nat} {w w1 w2 : Workgroup} {m m' : Nat → Byte} (h : TaskPad s t lid key w m)
    (h1 : tget t.wgs key = some w1) (h2 : ∃ sc sp wa ex, w2 = { w1 with scratch := sc, spoison := sp, watch := wa, exported := ex })
    (hm : padOf w2 = m') : TaskPad s (putWg t key w2) lid key w m' := by
  obtain ⟨⟨ws, hws⟩, ⟨w', hw', ⟨p1, p2, p3, p4⟩, -⟩, hfound⟩ := h
  obtain rfl := Option.some.inj (h1.symm.trans hw')
  obtain ⟨sc, sp, wa, ex, rfl⟩ := h2
  refine ⟨⟨_, by rw [hws]; rfl⟩, ⟨_, tget_tput_same .., ⟨p1, p2, p3, p4⟩, hm⟩, fun addr off ha => ?_⟩
  exact ocpmByte_putWg (hfound addr off ha) h1 ⟨rfl, rfl, rfl, rfl⟩

/-- Marking it exported keeps what it holds. -/
theorem TaskPad.exported {s t : State} {lid key : Nat} {w : Workgroup} {m : Nat → Byte} (h : TaskPad s t lid key w m) {keys : List Nat}
    (hk : ∀ k ∈ keys, k = key) : TaskPad s (exportAll t keys) lid key w m := by
  unfold exportAll
  induction keys generalizing t with
  | nil => exact h
  | cons k ks ih =>
    obtain rfl := hk k (by simp)
    refine ih ?_ (fun j hj => hk j (by simp [hj]))
    obtain ⟨w1, hw1, -, hm⟩ := h.pad
    unfold exportWg
    rw [hw1]
    exact h.put hw1 ⟨_, _, _, _, rfl⟩ hm

theorem mapM_of_some {α β : Type} {f : α → Option β} {g : α → β} {xs : List α} (h : ∀ x ∈ xs, f x = some (g x)) :
    xs.mapM f = some (xs.map g) := by
  induction xs with
  | nil => rfl
  | cons x xs ih =>
    rw [List.mapM_cons, h x (by simp), ih (fun y hy => h y (by simp [hy]))]
    rfl

/-- A run of bytes that the map finds in the scratchpad. -/
theorem ocpmRun_found {t : State} {lid key a q n : Nat} (h : ∀ j, j < n → ocpmByte t lid (a + j) = some (.scratch key (q + j))) :
    ocpmRun t lid a n = some ((List.range n).map (fun j => .scratch key (q + j))) :=
  mapM_of_some (fun j hj => h j (List.mem_range.1 hj))

/-- A unit of bytes put there through the map. -/
theorem TaskPad.putRun {s t : State} {lid key a q : Nat} {w : Workgroup} {m : Nat → Byte} {ds : List PByte} (h : TaskPad s t lid key w m)
    (hne : ds ≠ []) (hb : ∀ j, j < ds.length → ocpmByte s lid (a + j) = some (.scratch key (q + j))) :
    ∃ t', ocpmPut t lid a ds = some t' ∧ TaskPad s t' lid key w (storedAt q (plainBytes ds) m) := by
  have hrun := ocpmRun_found (fun j hj => h.found _ _ (hb j hj))
  obtain ⟨n, hn⟩ : ∃ n, ds.length = n + 1 := Nat.exists_eq_succ_of_ne_zero (fun e => hne (List.length_eq_zero_iff.1 e))
  have hkeys : ∀ k ∈ ((List.range ds.length).map (fun j => OcpmByte.scratch key (q + j))).filterMap (ocpmWg t), k = key := fun k hk => by
    obtain ⟨b, hb, hbk⟩ := List.mem_filterMap.1 hk
    obtain ⟨j, -, rfl⟩ := List.mem_map.1 hb
    exact (Option.some.inj hbk).symm
  have hexp := h.exported hkeys
  obtain ⟨w1, hw1, -, hm1⟩ := hexp.pad
  obtain ⟨hpad, sc, sp, wa, hw2⟩ := padOf_wgWriteP w1 q ds
  refine ⟨_, ?_, hexp.put hw1 ⟨sc, sp, wa, w1.exported, hw2⟩ (by rw [hpad, hm1])⟩
  unfold ocpmPut
  rw [hrun]
  dsimp only
  rw [show (List.range ds.length).map (fun j => OcpmByte.scratch key (q + j)) =
    .scratch key q :: (List.range n).map (fun j => .scratch key (q + (j + 1))) by rw [hn, List.range_succ_eq_map]; simp] at hw1 ⊢
  dsimp only
  rw [hw1]

/-- The eight bytes of a word that the map finds in the scratchpad. -/
def WordFound (s : State) (lid key a q : Nat) : Prop := ∀ j, j < 8 → ocpmByte s lid (a + j) = some (.scratch key (q + j))

/-- A word put there through the map. -/
theorem TaskPad.putWord {s t : State} {lid key a q : Nat} {w : Workgroup} {m : Nat → Byte} (h : TaskPad s t lid key w m)
    (hb : WordFound s lid key a q) (v : Nat) :
    ∃ t', ocpmPut8 t lid a v = some t' ∧ TaskPad s t' lid key w (storedAt q (bytesOf 8 v) m) := by
  have cuts : ∀ (a : Nat) (ds : List PByte) (cs : List (Nat × List PByte)), Cuts a ds cs → ∀ (t : State) (q : Nat) (m : Nat → Byte),
      TaskPad s t lid key w m → (∀ j, j < ds.length → ocpmByte s lid (a + j) = some (.scratch key (q + j))) →
      TaskPad s (cs.foldl (fun s c => (ocpmPut s lid c.1 c.2).getD s) t) lid key w (storedAt q (plainBytes ds) m) := by
    intro a ds cs hcuts
    induction hcuts with
    | nil a =>
      intro t q m h _
      rw [plainBytes, List.map_nil, storedAt_nil]
      exact h
    | @cons a c ds cs hne _ ih =>
      intro t q m h hb
      obtain ⟨t', ht', h'⟩ := h.putRun (q := q) hne (fun j hj => hb j (by rw [List.length_append]; omega))
      rw [List.foldl_cons, ht', plainBytes, List.map_append, ← storedAt_append, List.length_map]
      refine ih t' (q + c.length) _ h' (fun j hj => ?_)
      have := hb (c.length + j) (by rw [List.length_append]; omega)
      rw [Nat.add_assoc, this, Nat.add_assoc]
  have hrun := ocpmRun_found (fun j hj => h.found _ _ (hb j hj))
  unfold ocpmPut8
  rw [hrun]
  refine ⟨_, rfl, ?_⟩
  have hplain : plainBytes (clean (bytesOf 8 v)) = bytesOf 8 v := by
    rw [clean, plainBytes, List.map_map]
    exact List.map_id _
  have := cuts a _ _ (cuts_chunks a (clean (bytesOf 8 v))) t q m h (fun j hj => hb j (by simpa [clean] using hj))
  rw [hplain] at this
  exact this

/-- The word that the map finds there. -/
theorem TaskPad.wordAt {s t : State} {lid key a q : Nat} {w : Workgroup} {m : Nat → Byte} (h : TaskPad s t lid key w m)
    (hb : WordFound s lid key a q) : ocpmWord t lid a = some (numAt m q 8) := by
  obtain ⟨w', hw', -, rfl⟩ := h.pad
  unfold ocpmWord
  rw [show ocpmByte t lid a = some (.scratch key q) from h.found _ _ (hb 0 (by decide)), h.found _ _ (hb 7 (by decide))]
  dsimp only
  rw [hw', Option.map_some, mgetRun_eq_map]
  rfl

/-- A step of a task's end changes its word, and meets OK. -/
theorem TaskPad.step {s t : State} {key off : Nat} {w : Workgroup} {m : Nat → Byte} {o o' : EngineOp}
    (h : TaskPad s t o.launch key w m) (hm : Met o o') (hb : WordFound s o.launch key (ocpmScratch w off) off) (f : Nat → Nat) :
    ∃ t' o'', taskendStep w off f (t, o') = (t', o'') ∧ Met o o'' ∧
      TaskPad s t' o.launch key w (storedAt off (bytesOf 8 (f (numAt m off 8))) m) := by
  obtain ⟨seen, hseen, rfl⟩ := hm
  obtain ⟨t', ht', h'⟩ := h.putWord hb (f (numAt m off 8))
  refine ⟨t', opMeet { o with seen := seen } seenOK, ?_, Met.opMeet ⟨seen, hseen, rfl⟩ (by decide), h'⟩
  unfold taskendStep
  dsimp only
  rw [hseen, if_neg Bool.false_ne_true, h.wordAt hb, Option.bind_some, ht']

/-- An operation on no counter, without a status record and a fault, ends with memory and workgroups as its effects left them. -/
theorem uncounted_completes {s s1 : State} {n : Nat} {o o1 : EngineOp} (ho : tget s.ops n = some o) (hmay : mayPerform s n o = true)
    (hp : copyPerform s o = some (s1, o1)) (hmet : Met o o1) (hr : o.record = none) (hq : o.quantum = none) (hc : o.ctr = none) :
    ∃ t, exec (.copyOpComplete n) s = .next t ∧ tget t.ops n = none ∧ t.mem = s1.mem ∧ t.wgs = s1.wgs := by
  obtain ⟨seen, hseen, rfl⟩ := hmet
  have hexec := copyOpComplete_of_perform ho hmay hp
  obtain ⟨r, hcount⟩ := countOp_eq s1 { o with seen := seen }
  rw [performedOp_eq s1 n (o := { o with seen := seen }) none hq, hcount] at hexec
  have hctr : ∀ u : State, counterStage u n { o with seen := seen, performed := true } none = u := fun u => by
    unfold counterStage
    dsimp only
    rw [hc]
    split
    · next h => cases h
    · rfl
  have hrec : recordStage { s1 with res := r } { o with seen := seen, performed := true } = { s1 with res := r } := by
    unfold recordStage
    dsimp only
    rw [hr]
  obtain ⟨gs, hgs, -⟩ := recheckStage_eq (releaseStage { s1 with res := r } n) { o with seen := seen, performed := true }
  have hfin : finishOp { s1 with res := r } n { o with seen := seen, performed := true } none =
      { releaseStage { s1 with res := r } n with groups := gs } := by
    rw [finishOp_eq, if_neg (statusOf_ne_fault hseen), endedOp, hrec, hctr, hgs]
  refine ⟨_, hexec, ?_, by rw [hfin]; rfl, by rw [hfin]; rfl⟩
  rw [hfin]
  show tget (tdel s1.ops n) n = none
  simp [tget_tdel]

/-- Only the low bits of a number are stored. -/
theorem bytesOf_mod (v : Nat) : bytesOf 8 (v % 2 ^ 64) = bytesOf 8 v := by
  refine List.map_congr_left fun k hk => BitVec.eq_of_toNat_eq ?_
  have hk := List.mem_range.1 hk
  rw [BitVec.toNat_ofNat, BitVec.toNat_ofNat, show 2 ^ 64 = 2 ^ (8 * k) * 2 ^ (64 - 8 * k) by rw [← Nat.pow_add]; congr 1; omega,
    Nat.mod_mul_right_div_self]
  exact Nat.mod_mod_of_dvd _ (Nat.pow_dvd_pow 2 (by omega))

/-- The store of a task's result. -/
def resultStep (w : Workgroup) (off : Nat) (result : Option DWord) (p : State × EngineOp) : State × EngineOp :=
  match result with
  | some v => taskendStep w off (fun _ => v.toNat) p
  | none => p

/-- A task's end, step by step: its result, the DONE mark, the join word. -/
theorem taskendPerform_eq {link : TaskLink} (result : Option DWord) {p : State × EngineOp} {w : Workgroup}
    (hw : tget p.1.wgs (wgKey p.2.launch link.wg) = some w) :
    taskendPerform link result p =
      taskendStep w (ofBytes (mgetRun 0 w.scratch (link.frame + 8) 8) % 2 ^ 20) (fun v => (v + (2 ^ 64 - 1)) % 2 ^ 64)
        (taskendStep w link.frame (fun v => v ||| 2 ^ 35)
          (resultStep w (ofBytes (mgetRun 0 w.scratch (link.frame + 8) 8) / 2 ^ 20 % 2 ^ 20) result p)) := by
  unfold taskendPerform
  rw [hw]
  exact rfl

/-- A task's end whose words the map finds in the owner's scratchpad. -/
theorem taskend_completes {s : State} {n : Nat} {o : EngineOp} {link : TaskLink} {result : Option DWord} {w : Workgroup} {l : Launch}
    {m1 : Nat → Byte} (ho : tget s.ops n = some o) (hmay : mayPerform s n o = true) (hact : o.act = .taskend link result)
    (hr : o.record = none) (hq : o.quantum = none) (hc : o.ctr = none) (hseen : o.seen.testBit 4 = false)
    (hl : tget s.launches o.launch = some l) (hw : tget s.wgs (wgKey o.launch link.wg) = some w)
    (hfound : ∀ off, off = link.frame ∨ off = numAt (padOf w) (link.frame + 8) 8 % 2 ^ 20 ∨
        (off = numAt (padOf w) (link.frame + 8) 8 / 2 ^ 20 % 2 ^ 20 ∧ result.isSome = true) →
      WordFound s o.launch (wgKey o.launch link.wg) (ocpmScratch w off) off)
    (hsome : ∀ v, result = some v → m1 = storedAt (numAt (padOf w) (link.frame + 8) 8 / 2 ^ 20 % 2 ^ 20) (bytesOf 8 v.toNat) (padOf w))
    (hnone : result = none → m1 = padOf w) :
    let m2 := storedAt link.frame (bytesOf 8 (numAt m1 link.frame 8 ||| 2 ^ 35)) m1
    let join := numAt (padOf w) (link.frame + 8) 8 % 2 ^ 20
    ∃ t, exec (.copyOpComplete n) s = .next t ∧ tget t.ops n = none ∧ t.mem = s.mem ∧
      PadIs t (wgKey o.launch link.wg) (storedAt join (bytesOf 8 (numAt m2 join 8 + (2 ^ 64 - 1))) m2) := by
  intro m2 join
  have start : TaskPad s s o.launch (wgKey o.launch link.wg) w (padOf w) :=
    ⟨⟨s.wgs, rfl⟩, ⟨w, hw, ⟨rfl, rfl, rfl, rfl⟩, rfl⟩, fun _ _ h => h⟩
  have hword : ofBytes (mgetRun 0 w.scratch (link.frame + 8) 8) = numAt (padOf w) (link.frame + 8) 8 := by
    rw [mgetRun_eq_map]
    rfl
  obtain ⟨t1, o1, hstep1, hmet1, h1⟩ : ∃ t1 o1,
      resultStep w (numAt (padOf w) (link.frame + 8) 8 / 2 ^ 20 % 2 ^ 20) result (s, o) = (t1, o1) ∧ Met o o1 ∧
      TaskPad s t1 o.launch (wgKey o.launch link.wg) w m1 := by
    cases result with
    | none => exact ⟨s, o, rfl, Met.refl hseen, by rw [hnone rfl]; exact start⟩
    | some v =>
      rw [hsome v rfl]
      exact start.step (Met.refl hseen) (hfound _ (.inr (.inr ⟨rfl, rfl⟩))) (fun _ => v.toNat)
  obtain ⟨t2, o2, hstep2, hmet2, h2⟩ := h1.step hmet1 (hfound _ (.inl rfl)) (fun v => v ||| 2 ^ 35)
  obtain ⟨t3, o3, hstep3, hmet3, h3⟩ := h2.step hmet2 (hfound join (.inr (.inl rfl))) (fun v => (v + (2 ^ 64 - 1)) % 2 ^ 64)
  have hperf : copyPerform s o = some (t3, o3) := by
    unfold copyPerform
    rw [hl]
    dsimp only
    rw [hact]
    dsimp only
    rw [taskendPerform_eq result hw, hword, hstep1, hstep2, hstep3]
  obtain ⟨ws, hws⟩ := h3.frame
  obtain ⟨w', hw', -, hpad⟩ := h3.pad
  obtain ⟨t, e1, e2, e3, e4⟩ := uncounted_completes ho hmay hperf hmet3 hr hq hc
  refine ⟨t, e1, e2, by rw [e3, hws], w', by rw [e4]; exact hw', fun a => ?_⟩
  rw [hpad, bytesOf_mod]

/-- Settles O36: what each operation's effects store, and the shared end of operations without a status record. -/
theorem copyOperationsComplete : Obligations.CopyOperationsComplete := by
  unfold Obligations.CopyOperationsComplete
  intro s n o
  refine ⟨fun k g w l x sa sb rowb rows sstr gstr pa h hact hpa => cpyIn_completes h hact hpa,
    fun k g w l x sa sb rowb rows sstr gstr pa h hact hpa hd => cpyOut_completes h hact hpa hd,
    fun k g w l x e sa sb idx pa h hact _ hpa => cpyxIn_completes h hact hpa,
    fun k g w l sa pattern len h hact => cpyfScratch_completes h hact,
    fun k g w l x aop wide signed sb vd lanes h hact hcells hd h0 h1 hl => far_completes h hact hcells hd h0 h1 hl,
    fun l link result w ho hmay hact hr hq hc hseen hl hw _ => ?_⟩
  intro res join hfound m1 m2
  exact taskend_completes ho hmay hact hr hq hc hseen hl hw (fun off hoff j hj => hfound off j hoff hj) (m1 := m1)
    (fun v hv => by subst hv; rfl) (fun hv => by subst hv; rfl)

end Sys2Proof.Machine
end

