-- ==== Sys2Proof/Proofs/WordFormats.lean ====
section

/-! # The words of each format (O54, O55)

A parser gives back the fields that its encoder put in the words, and an encoder puts together again what its parser took
apart. For the six 96-bit formats both are one predicate, `WideCodec`, so that what the decoder makes of such a word is said once. -/

namespace Sys2Proof.Machine

/-! ## Slices of a word -/

/-- The lowest field of a word. -/
theorem slice_low {v w : Nat} {x : BitVec v} {y : BitVec w} : (x ++ y).extractLsb' 0 w = y := by
  rw [BitVec.extractLsb'_append_eq_of_add_le (by omega), BitVec.extractLsb'_eq_self]

/-- A field above the lowest is a field of the word without it. -/
theorem slice_above {v w s len : Nat} {x : BitVec v} {y : BitVec w} {z : BitVec len} (h : x.extractLsb' s len = z) :
    (x ++ y).extractLsb' (s + w) len = z := by
  rw [BitVec.extractLsb'_append_eq_of_le (by omega), Nat.add_sub_cancel, h]

/-- The highest field, once those below it are gone. -/
theorem slice_all {w : Nat} {x : BitVec w} : x.extractLsb' 0 w = x := BitVec.extractLsb'_eq_self

/-- A literal cut into two words and put together again (R56). -/
theorem literalOf_slices (v : DWord) : literalOf (v.extractLsb' 0 32) (v.extractLsb' 32 32) = v :=
  (BitVec.extractLsb'_append_extractLsb'_eq_extractLsb' (by omega)).trans slice_all

/-- Two words put together as a literal and cut again. -/
theorem encLit_literalOf (l h : Word) : encLit (some (literalOf l h)) = [l, h] := by
  simp only [encLit, literalOf, List.cons.injEq, and_true]
  exact ⟨slice_low, slice_above slice_all⟩

/-! ## The 96-bit formats (R67-R70) -/

/-- Encoder and parser of a 96-bit format undo each other, and MAJ, FN and LEN of word 0 stand where the decoder looks for them. -/
structure WideCodec {F : Type} (enc : BitVec 6 → BitVec 8 → F → List Word) (parse : Word → Word → Word → Lit → F) : Prop where
  parse_enc : ∀ maj fn f, ∃ w0 w1 w2 lit, enc maj fn f = w0 :: w1 :: w2 :: encLit lit ∧ parse w0 w1 w2 lit = f ∧
    w0.extractLsb' 24 6 = maj ∧ w0.extractLsb' 16 8 = fn ∧ w0.extractLsb' 30 2 = len1 lit
  enc_parse : ∀ (w0 w1 w2 : Word) lit, w0.extractLsb' 30 2 = len1 lit →
    enc (w0.extractLsb' 24 6) (w0.extractLsb' 16 8) (parse w0 w1 w2 lit) = w0 :: w1 :: w2 :: encLit lit

theorem wideCodec_SX : WideCodec encSX parseSX where
  parse_enc maj fn f := by
    refine ⟨_, _, _, f.lit, rfl, ?_, major_SX maj fn f, slice_above (slice_above slice_low), Laws.Length.len_SX maj fn f⟩
    obtain ⟨sd, md, sa, sb, sc, md2, imm, lit⟩ := f
    simp only [parseSX, SX.mk.injEq, and_true]
    exact ⟨slice_above slice_low, slice_low, slice_above (slice_above (slice_above slice_all)), slice_above (slice_above slice_low),
      slice_above slice_low, slice_low⟩
  enc_parse w0 w1 w2 lit hl := by
    simp only [encSX, parseSX, ← hl, BitVec.extractLsb'_append_extractLsb'_eq_extractLsb']
    simp

theorem wideCodec_VX : WideCodec encVX parseVX where
  parse_enc maj fn f := by
    refine ⟨_, _, _, f.lit, rfl, ?_, major_VX maj fn f, slice_above (slice_above (slice_above slice_low)), Laws.Length.len_VX maj fn f⟩
    obtain ⟨ty, ret, md, vd, va, vb, md2, vc, sp, imm, lit⟩ := f
    simp only [parseVX, VX.mk.injEq, and_true]
    exact ⟨slice_above (slice_above slice_low), slice_above slice_low, slice_low,
      slice_above (slice_above (slice_above slice_all)), slice_above (slice_above slice_low), slice_above slice_low, slice_low,
      slice_above (slice_above slice_all), slice_above slice_low, slice_low⟩
  enc_parse w0 w1 w2 lit hl := by
    simp only [encVX, parseVX, ← hl, BitVec.extractLsb'_append_extractLsb'_eq_extractLsb']
    simp

theorem wideCodec_TX : WideCodec encTX parseTX where
  parse_enc maj fn f := by
    refine ⟨_, _, _, f.lit, rfl, ?_, major_TX maj fn f, slice_above (slice_above (slice_above (slice_above slice_low))),
      Laws.Length.len_TX maj fn f⟩
    obtain ⟨td, ta, tb, tc, sa, sb, sc, md, imm, lit⟩ := f
    simp only [parseTX, TX.mk.injEq, and_true]
    exact ⟨slice_above (slice_above (slice_above slice_low)), slice_above (slice_above slice_low), slice_above slice_low, slice_low,
      slice_above (slice_above (slice_above slice_all)), slice_above (slice_above slice_low), slice_above slice_low, slice_low⟩
  enc_parse w0 w1 w2 lit hl := by
    simp only [encTX, parseTX, ← hl, BitVec.extractLsb'_append_extractLsb'_eq_extractLsb']
    simp

theorem wideCodec_CX : WideCodec encCX parseCX where
  parse_enc maj fn f := by
    refine ⟨_, _, _, f.lit, rfl, ?_, major_CX maj fn f, slice_above (slice_above (slice_above (slice_above slice_low))),
      Laws.Length.len_CX maj fn f⟩
    obtain ⟨xr, scope, ord, md, vd, va, vb, md2, sa, sb, sc, sd, lit⟩ := f
    simp only [parseCX, CX.mk.injEq, and_true]
    exact ⟨slice_above (slice_above (slice_above slice_low)), slice_above (slice_above slice_low), slice_above slice_low, slice_low,
      slice_above (slice_above (slice_above slice_all)), slice_above (slice_above slice_low), slice_above slice_low, slice_low,
      slice_above (slice_above (slice_above slice_all)), slice_above (slice_above slice_low), slice_above slice_low, slice_low⟩
  enc_parse w0 w1 w2 lit hl := by
    simp only [encCX, parseCX, ← hl, BitVec.extractLsb'_append_extractLsb'_eq_extractLsb']
    simp

theorem wideCodec_QX : WideCodec encQX parseQX where
  parse_enc maj fn f := by
    refine ⟨_, _, _, f.lit, rfl, ?_, major_QX maj fn f, slice_above (slice_above (slice_above (slice_above slice_low))),
      Laws.Length.len_QX maj fn f⟩
    obtain ⟨xr, scope, ord, md, sa, sb, sc, sd, imm, lit⟩ := f
    simp only [parseQX, QX.mk.injEq, and_true]
    exact ⟨slice_above (slice_above (slice_above slice_low)), slice_above (slice_above slice_low), slice_above slice_low, slice_low,
      slice_above (slice_above (slice_above slice_all)), slice_above (slice_above slice_low), slice_above slice_low, slice_low⟩
  enc_parse w0 w1 w2 lit hl := by
    simp only [encQX, parseQX, ← hl, BitVec.extractLsb'_append_extractLsb'_eq_extractLsb']
    simp

/-! ## The 32-bit formats (R62-R66) -/

theorem parseS2_encS2 (maj : BitVec 6) (fn : BitVec 4) (f : S2) : parseS2 ((encS2 maj fn f).headD 0) f.lit = f := by
  obtain ⟨sd, sa, md, lit⟩ := f
  simp only [parseS2, S2.mk.injEq, and_true]
  exact ⟨slice_above (slice_above slice_low), slice_above slice_low, slice_low⟩

theorem encS2_parseS2 (w0 : Word) (lit : Lit) (hl : w0.extractLsb' 30 2 = len0 lit) :
    encS2 (w0.extractLsb' 24 6) (w0.extractLsb' 20 4) (parseS2 w0 lit) = w0 :: encLit lit := by
  simp only [encS2, parseS2, ← hl, BitVec.extractLsb'_append_extractLsb'_eq_extractLsb']
  simp

theorem parseSI_encSI (maj : BitVec 6) (f : SI) : parseSI ((encSI maj f).headD 0) = f := by
  obtain ⟨sd, imm⟩ := f
  simp only [parseSI, SI.mk.injEq]
  exact ⟨slice_above slice_low, slice_low⟩

theorem encSI_parseSI (w0 : Word) (hl : w0.extractLsb' 30 2 = 0) : encSI (w0.extractLsb' 24 6) (parseSI w0) = [w0] := by
  simp only [encSI, parseSI, ← hl, BitVec.extractLsb'_append_extractLsb'_eq_extractLsb']
  simp

theorem parseSIL_encSIL (maj : BitVec 6) (f : SIL) : parseSIL ((encSIL maj f).headD 0) f.lit = f := by
  obtain ⟨sd, imm, lit⟩ := f
  simp only [parseSIL, SIL.mk.injEq, and_true]
  exact ⟨slice_above slice_low, slice_low⟩

theorem encSIL_parseSIL (w0 l h : Word) (hl : w0.extractLsb' 30 2 = 2) :
    encSIL (w0.extractLsb' 24 6) (parseSIL w0 (literalOf l h)) = [w0, l, h] := by
  simp only [encSIL, parseSIL, ← hl, BitVec.extractLsb'_append_extractLsb'_eq_extractLsb', encLit_literalOf]
  simp

theorem parseSB_encSB (maj : BitVec 6) (f : SB) : parseSB ((encSB maj f).headD 0) = f := by
  obtain ⟨cond, off⟩ := f
  simp only [parseSB, SB.mk.injEq]
  exact ⟨slice_above slice_low, slice_low⟩

theorem encSB_parseSB (w0 : Word) (hl : w0.extractLsb' 30 2 = 0) : encSB (w0.extractLsb' 24 6) (parseSB w0) = [w0] := by
  simp only [encSB, parseSB, ← hl, BitVec.extractLsb'_append_extractLsb'_eq_extractLsb']
  simp

theorem parseWF_encWF (maj : BitVec 6) (f : WF) : parseWF ((encWF maj f).headD 0) = f := by
  obtain ⟨ld, st, tile, coll⟩ := f
  simp only [parseWF, WF.mk.injEq]
  exact ⟨slice_above (slice_above (slice_above slice_low)), slice_above (slice_above slice_low), slice_above slice_low, slice_low⟩

theorem encWF_parseWF (w0 : Word) (hl : w0.extractLsb' 30 2 = 0) : encWF (w0.extractLsb' 24 6) (parseWF w0) = [w0] := by
  simp only [encWF, parseWF, ← hl, BitVec.extractLsb'_append_extractLsb'_eq_extractLsb']
  simp

/-! ## SUBMIT (R77) -/

theorem decodeSubmit_encode (f : RT) : decodeSubmit ((encode (.submit f)).headD 0) = some f := by
  obtain ⟨rd, rs1, rs2⟩ := f
  rw [decodeSubmit, if_pos ⟨slice_low, slice_above (slice_above slice_low),
    slice_above (slice_above (slice_above (slice_above (slice_above slice_all))))⟩]
  simp only [Option.some.injEq, RT.mk.injEq]
  exact ⟨slice_above slice_low, slice_above (slice_above (slice_above slice_low)),
    slice_above (slice_above (slice_above (slice_above slice_low)))⟩

theorem encode_of_decodeSubmit {w : Word} {f : RT} (h : decodeSubmit w = some f) : encode (.submit f) = [w] := by
  unfold decodeSubmit at h
  split at h
  · next hfix =>
    obtain ⟨hop, hf3, hf7⟩ := hfix
    cases h
    simp only [encode, ← hop, ← hf3, ← hf7, BitVec.extractLsb'_append_extractLsb'_eq_extractLsb']
    simp
  · cases h

end Sys2Proof.Machine
end

