-- ==== Sys2Proof/Proofs/InstructionWord.lean ====
section

/-! # Decoding and encoding undo each other (O54, O55, O56)

The decoder looks up a constructor in the table of its major and hands it the parsed fields; `Entries` says that the encoder
gives each constructor of a table the major and the place it stands at there. With the formats' own facts (`WideCodec`, `encX_parseX`) the two
directions are: what is encoded is looked up again, and what was looked up is encoded again. -/

namespace Sys2Proof.Machine

/-! ## The checks of R80 -/

theorem accept_of_check {v : Nat} {w0 : Word} {i : Instr} (h : check v i = none) : accept v w0 i = .ok i := by simp [accept, h]

theorem accept_ok {v : Nat} {w0 : Word} {i j : Instr} (h : accept v w0 i = .ok j) : j = i ∧ check v i = none := by
  unfold accept at h
  split at h
  · next hc => cases h; exact ⟨rfl, hc⟩
  · cases h

theorem wellFormed_iff {v : Nat} {i : Instr} : i.wellFormed v = true ↔ i.isWord = true ∧ check v i = none := by
  simp [Instr.wellFormed]

/-! ## The opcode map (R76) -/

/-- The constructors of a table, the first of which has number `n`, make instruction words, which `enc` encodes under their numbers. -/
def Entries {F : Type} (enc : Nat → F → List Word) : Nat → List (F → Instr) → Prop
  | _, [] => True
  | n, c :: cs => (∀ f, (c f).isWord = true ∧ encode (c f) = enc n f) ∧ Entries enc (n + 1) cs

theorem Entries.get {F : Type} {enc : Nat → F → List Word} {ops : List (F → Instr)} {n k : Nat} {c : F → Instr}
    (h : Entries enc n ops) (hk : ops[k]? = some c) (f : F) : (c f).isWord = true ∧ encode (c f) = enc (n + k) f := by
  induction ops generalizing n k with
  | nil => simp at hk
  | cons d ds ih =>
    cases k with
    | zero => cases hk; exact h.1 f
    | succ k => rw [← Nat.succ_add_eq_add_succ]; exact ih h.2 hk

/-- The constructor at FN, by number. -/
theorem Entries.at_fn {F : Type} {w : Nat} {enc : BitVec w → F → List Word} {ops : List (F → Instr)} {fn : BitVec w} {c : F → Instr}
    (h : Entries (fun n => enc (BitVec.ofNat w n)) 0 ops) (hf : ops[fn.toNat]? = some c) (f : F) :
    (c f).isWord = true ∧ encode (c f) = enc fn f := by
  have hget := h.get hf f
  rwa [Nat.zero_add, BitVec.ofNat_toNat, BitVec.setWidth_eq] at hget

theorem tflgOf_word (f : TX) : (tflgOf f).isWord = true ∧ encode (tflgOf f) = encTX 0x28 3 f := by
  unfold tflgOf
  split <;> exact ⟨rfl, rfl⟩

theorem entries_s2 {maj : BitVec 6} {ops : List (S2 → Instr)} (h : s2Ops maj = some ops) :
    Entries (fun n => encS2 maj (BitVec.ofNat 4 n)) 0 ops := by
  unfold s2Ops at h
  split_ifs at h
  all_goals
    cases h; subst maj
    simp only [ops00, ops02, Entries, and_true]
    and_intros <;> exact fun _ => ⟨rfl, rfl⟩

theorem entries_sx {maj : BitVec 6} {ops : List (SX → Instr)} (h : sxOps maj = some ops) :
    Entries (fun n => encSX maj (BitVec.ofNat 8 n)) 0 ops := by
  unfold sxOps at h
  split_ifs at h
  all_goals
    cases h; subst maj
    simp only [ops07, ops08, ops09, ops0A, ops0B, ops0C, Entries, and_true]
    and_intros <;> exact fun _ => ⟨rfl, rfl⟩

theorem entries_vx {maj : BitVec 6} {ops : List (VX → Instr)} (h : vxOps maj = some ops) :
    Entries (fun n => encVX maj (BitVec.ofNat 8 n)) 0 ops := by
  unfold vxOps at h
  split_ifs at h
  all_goals
    cases h; subst maj
    simp only [ops14, ops15, ops16, ops17, ops18, ops19, ops1A, ops1B, Entries, and_true]
    and_intros <;> exact fun _ => ⟨rfl, rfl⟩

theorem entries_tx {maj : BitVec 6} {ops : List (TX → Instr)} (h : txOps maj = some ops) :
    Entries (fun n => encTX maj (BitVec.ofNat 8 n)) 0 ops := by
  unfold txOps at h
  split_ifs at h
  · cases h; subst maj
    exact ⟨fun _ => ⟨rfl, rfl⟩, fun _ => ⟨rfl, rfl⟩, fun _ => ⟨rfl, rfl⟩, tflgOf_word, trivial⟩
  all_goals
    cases h; subst maj
    simp only [ops29, ops2A, Entries, and_true]
    and_intros <;> exact fun _ => ⟨rfl, rfl⟩

theorem entries_cx {maj : BitVec 6} {ops : List (CX → Instr)} (h : cxOps maj = some ops) :
    Entries (fun n => encCX maj (BitVec.ofNat 8 n)) 0 ops := by
  unfold cxOps at h
  split_ifs at h
  all_goals
    cases h; subst maj
    simp only [ops2E, ops2F, ops30, ops31, Entries, and_true]
    and_intros <;> exact fun _ => ⟨rfl, rfl⟩

theorem entries_qx {maj : BitVec 6} {ops : List (QX → Instr)} (h : qxOps maj = some ops) :
    Entries (fun n => encQX maj (BitVec.ofNat 8 n)) 0 ops := by
  unfold qxOps at h
  split_ifs at h
  all_goals
    cases h; subst maj
    simp only [ops36, Entries, and_true]
    and_intros <;> exact fun _ => ⟨rfl, rfl⟩

/-! ## What the decoder makes of a word of each format -/

section wide
variable {F : Type} {enc : BitVec 6 → BitVec 8 → F → List Word} {parse : Word → Word → Word → Lit → F} {v : Nat}
  {ops : List (F → Instr)}

/-- The words of a 96-bit format decode to the constructor at their FN with the fields encoded. -/
theorem decodeWide_enc (hc : WideCodec enc parse) {maj : BitVec 6} {fn : BitVec 8} {c : F → Instr} {f : F}
    (hf : ops[fn.toNat]? = some c) (h : check v (c f) = none) :
    ∃ w0 rest, enc maj fn f = w0 :: rest ∧ w0.extractLsb' 24 6 = maj ∧ decodeWide v w0 rest ops parse = .ok (c f) := by
  obtain ⟨w0, w1, w2, lit, he, hp, hm, hn, hl⟩ := hc.parse_enc maj fn f
  refine ⟨w0, _, he, hm, ?_⟩
  cases lit with
  | none => simp [decodeWide, hn, hf, hl, len1, hp, accept_of_check h]
  | some d => simp [decodeWide, hn, hf, hl, len1, encLit, literalOf_slices, hp, accept_of_check h]

/-- What decodes as a word of a 96-bit format is sound, and its encoding begins the words. -/
theorem decodeWide_ok (hc : WideCodec enc parse) {w0 : Word} {rest : List Word} {i : Instr}
    (hops : Entries (fun n => enc (w0.extractLsb' 24 6) (BitVec.ofNat 8 n)) 0 ops) (h : decodeWide v w0 rest ops parse = .ok i) :
    i.isWord = true ∧ check v i = none ∧ ∃ tail, w0 :: rest = encode i ++ tail := by
  unfold decodeWide at h
  split at h
  · cases h
  · next c hcon =>
    split at h
    · next hlen =>
      split at h
      · next w1 w2 tail =>
        obtain ⟨rfl, hk⟩ := accept_ok h
        obtain ⟨hw, he⟩ := hops.at_fn hcon (parse w0 w1 w2 none)
        exact ⟨hw, hk, tail, by rw [he, hc.enc_parse w0 w1 w2 none hlen]; rfl⟩
      · cases h
    · split at h
      · next hlen =>
        split at h
        · next w1 w2 l u tail =>
          obtain ⟨rfl, hk⟩ := accept_ok h
          obtain ⟨hw, he⟩ := hops.at_fn hcon (parse w0 w1 w2 (some (literalOf l u)))
          exact ⟨hw, hk, tail, by rw [he, hc.enc_parse w0 w1 w2 (some (literalOf l u)) hlen, encLit_literalOf]; rfl⟩
        · cases h
      · cases h

end wide

theorem decodeS2_enc {v : Nat} {maj : BitVec 6} {fn : BitVec 4} {ops : List (S2 → Instr)} {c : S2 → Instr} {f : S2}
    (hf : ops[fn.toNat]? = some c) (h : check v (c f) = none) :
    decodeS2 v ((encS2 maj fn f).headD 0) (encLit f.lit) ops = .ok (c f) := by
  have hn : ((encS2 maj fn f).headD 0).extractLsb' 20 4 = fn := slice_above (slice_above (slice_above slice_low))
  have hl := Laws.Length.len_S2 maj fn f
  have hp := parseS2_encS2 maj fn f
  cases hlit : f.lit with
  | none =>
    rw [hlit] at hl hp
    simp only [decodeS2, hn, hf, hl, len0, hp, accept_of_check h]
    rfl
  | some d =>
    rw [hlit] at hl hp
    simp only [decodeS2, hn, hf, hl, len0, encLit, literalOf_slices, hp, accept_of_check h]
    rfl

theorem decodeS2_ok {v : Nat} {w0 : Word} {rest : List Word} {ops : List (S2 → Instr)} {i : Instr}
    (hops : Entries (fun n => encS2 (w0.extractLsb' 24 6) (BitVec.ofNat 4 n)) 0 ops) (h : decodeS2 v w0 rest ops = .ok i) :
    i.isWord = true ∧ check v i = none ∧ ∃ tail, w0 :: rest = encode i ++ tail := by
  unfold decodeS2 at h
  split at h
  · cases h
  · next c hcon =>
    split at h
    · next hlen =>
      obtain ⟨rfl, hk⟩ := accept_ok h
      obtain ⟨hw, he⟩ := hops.at_fn hcon (parseS2 w0 none)
      exact ⟨hw, hk, rest, by rw [he, encS2_parseS2 w0 none hlen]; rfl⟩
    · split at h
      · next hlen =>
        split at h
        · next l u tail =>
          obtain ⟨rfl, hk⟩ := accept_ok h
          obtain ⟨hw, he⟩ := hops.at_fn hcon (parseS2 w0 (some (literalOf l u)))
          exact ⟨hw, hk, tail, by rw [he, encS2_parseS2 w0 (some (literalOf l u)) hlen, encLit_literalOf]; rfl⟩
        · cases h
      · cases h

/-! ## Which format a major has (R76) -/

theorem decode_s2 {v : Nat} {w0 : Word} {rest : List Word} {ops : List (S2 → Instr)} (h : s2Ops (w0.extractLsb' 24 6) = some ops) :
    decode v (w0 :: rest) = decodeS2 v w0 rest ops := by
  unfold decode
  dsimp only
  generalize w0.extractLsb' 24 6 = maj at h
  unfold s2Ops at h
  split_ifs at h <;> (cases h; subst maj; rfl)

theorem decode_sx {v : Nat} {w0 : Word} {rest : List Word} {ops : List (SX → Instr)} (h : sxOps (w0.extractLsb' 24 6) = some ops) :
    decode v (w0 :: rest) = decodeWide v w0 rest ops parseSX := by
  unfold decode
  dsimp only
  generalize w0.extractLsb' 24 6 = maj at h
  unfold sxOps at h
  split_ifs at h <;> (cases h; subst maj; rfl)

theorem decode_vx {v : Nat} {w0 : Word} {rest : List Word} {ops : List (VX → Instr)} (h : vxOps (w0.extractLsb' 24 6) = some ops) :
    decode v (w0 :: rest) = decodeWide v w0 rest ops parseVX := by
  unfold decode
  dsimp only
  generalize w0.extractLsb' 24 6 = maj at h
  unfold vxOps at h
  split_ifs at h <;> (cases h; subst maj; rfl)

theorem decode_tx {v : Nat} {w0 : Word} {rest : List Word} {ops : List (TX → Instr)} (h : txOps (w0.extractLsb' 24 6) = some ops) :
    decode v (w0 :: rest) = decodeWide v w0 rest ops parseTX := by
  unfold decode
  dsimp only
  generalize w0.extractLsb' 24 6 = maj at h
  unfold txOps at h
  split_ifs at h <;> (cases h; subst maj; rfl)

theorem decode_cx {v : Nat} {w0 : Word} {rest : List Word} {ops : List (CX → Instr)} (h : cxOps (w0.extractLsb' 24 6) = some ops) :
    decode v (w0 :: rest) = decodeWide v w0 rest ops parseCX := by
  unfold decode
  dsimp only
  generalize w0.extractLsb' 24 6 = maj at h
  unfold cxOps at h
  split_ifs at h <;> (cases h; subst maj; rfl)

theorem decode_qx {v : Nat} {w0 : Word} {rest : List Word} {ops : List (QX → Instr)} (h : qxOps (w0.extractLsb' 24 6) = some ops) :
    decode v (w0 :: rest) = decodeWide v w0 rest ops parseQX := by
  unfold decode
  dsimp only
  generalize w0.extractLsb' 24 6 = maj at h
  unfold qxOps at h
  split_ifs at h; cases h; subst maj; rfl

/-! ## The formats without FN (R63, R64, R66) -/

/-- A word that decodes to a sound instruction of the formats SI, SB and W, LEN 10 of SLI included. -/
theorem decodeNarrow_ok {v : Nat} {w0 : Word} {rest : List Word} {i : Instr} (h : decodeNarrow v w0 rest = .ok i) :
    i.isWord = true ∧ check v i = none ∧ ∃ tail, w0 :: rest = encode i ++ tail := by
  unfold decodeNarrow at h
  dsimp only at h
  split_ifs at h with hlen h1 h3 h4 h5 h6 hlit
  · obtain ⟨rfl, hk⟩ := accept_ok h
    exact ⟨rfl, hk, rest, by rw [encode, ← h1, encWF_parseWF w0 hlen]; rfl⟩
  · obtain ⟨rfl, hk⟩ := accept_ok h
    exact ⟨rfl, hk, rest, by rw [encode, ← h3, encSI_parseSI w0 hlen]; rfl⟩
  · obtain ⟨rfl, hk⟩ := accept_ok h
    exact ⟨rfl, hk, rest, by rw [encode, ← h4, encSI_parseSI w0 hlen]; rfl⟩
  · obtain ⟨rfl, hk⟩ := accept_ok h
    exact ⟨rfl, hk, rest, by rw [encode, ← h5, encSB_parseSB w0 hlen]; rfl⟩
  · obtain ⟨rfl, hk⟩ := accept_ok h
    exact ⟨rfl, hk, rest, by rw [encode, ← h6, encSB_parseSB w0 hlen]; rfl⟩
  · obtain ⟨hlen, h4⟩ := hlit
    split at h
    · next l u tail =>
      obtain ⟨rfl, hk⟩ := accept_ok h
      exact ⟨rfl, hk, tail, by rw [encode, ← h4, encSIL_parseSIL w0 l u hlen]; rfl⟩
    · cases h

/-! ## Decoding what is encoded -/

theorem decode_encS2 {v : Nat} {maj : BitVec 6} {fn : BitVec 4} {f : S2} {ops : List (S2 → Instr)} {c : S2 → Instr}
    (hm : s2Ops maj = some ops) (hf : ops[fn.toNat]? = some c) (h : check v (c f) = none) : decode v (encS2 maj fn f) = .ok (c f) := by
  rw [← major_S2 maj fn f] at hm
  exact (decode_s2 hm).trans (decodeS2_enc hf h)

theorem decode_encSX {v : Nat} {maj : BitVec 6} {fn : BitVec 8} {f : SX} {ops : List (SX → Instr)} {c : SX → Instr}
    (hm : sxOps maj = some ops) (hf : ops[fn.toNat]? = some c) (h : check v (c f) = none) : decode v (encSX maj fn f) = .ok (c f) := by
  obtain ⟨w0, rest, he, rfl, hd⟩ := decodeWide_enc wideCodec_SX (maj := maj) hf h
  rw [he, decode_sx hm, hd]

theorem decode_encVX {v : Nat} {maj : BitVec 6} {fn : BitVec 8} {f : VX} {ops : List (VX → Instr)} {c : VX → Instr}
    (hm : vxOps maj = some ops) (hf : ops[fn.toNat]? = some c) (h : check v (c f) = none) : decode v (encVX maj fn f) = .ok (c f) := by
  obtain ⟨w0, rest, he, rfl, hd⟩ := decodeWide_enc wideCodec_VX (maj := maj) hf h
  rw [he, decode_vx hm, hd]

theorem decode_encTX {v : Nat} {maj : BitVec 6} {fn : BitVec 8} {f : TX} {ops : List (TX → Instr)} {c : TX → Instr}
    (hm : txOps maj = some ops) (hf : ops[fn.toNat]? = some c) (h : check v (c f) = none) : decode v (encTX maj fn f) = .ok (c f) := by
  obtain ⟨w0, rest, he, rfl, hd⟩ := decodeWide_enc wideCodec_TX (maj := maj) hf h
  rw [he, decode_tx hm, hd]

theorem decode_encCX {v : Nat} {maj : BitVec 6} {fn : BitVec 8} {f : CX} {ops : List (CX → Instr)} {c : CX → Instr}
    (hm : cxOps maj = some ops) (hf : ops[fn.toNat]? = some c) (h : check v (c f) = none) : decode v (encCX maj fn f) = .ok (c f) := by
  obtain ⟨w0, rest, he, rfl, hd⟩ := decodeWide_enc wideCodec_CX (maj := maj) hf h
  rw [he, decode_cx hm, hd]

theorem decode_encQX {v : Nat} {maj : BitVec 6} {fn : BitVec 8} {f : QX} {ops : List (QX → Instr)} {c : QX → Instr}
    (hm : qxOps maj = some ops) (hf : ops[fn.toNat]? = some c) (h : check v (c f) = none) : decode v (encQX maj fn f) = .ok (c f) := by
  obtain ⟨w0, rest, he, rfl, hd⟩ := decodeWide_enc wideCodec_QX (maj := maj) hf h
  rw [he, decode_qx hm, hd]

/-- A major without FN is decoded by `decodeNarrow`. -/
theorem decode_narrow {v : Nat} {w0 : Word} {rest : List Word} {maj : BitVec 6} (hm : w0.extractLsb' 24 6 = maj)
    (h : 0x01 ≤ maj ∧ maj ≤ 0x06 ∧ maj ≠ 0x02) : decode v (w0 :: rest) = decodeNarrow v w0 rest := by
  subst hm
  exact if_pos h

theorem decode_wait {v : Nat} {f : WF} (h : check v (.wait f) = none) : decode v (encode (.wait f)) = .ok (.wait f) := by
  obtain ⟨w0, he⟩ : ∃ w0, encWF 0x01 f = [w0] := ⟨_, rfl⟩
  have hm := major_WF 0x01 f
  have hl := Laws.Length.len_WF 0x01 f
  have hp := parseWF_encWF 0x01 f
  rw [he, List.headD_cons] at hm hl hp
  rw [encode, he, decode_narrow hm (by decide)]
  simp [decodeNarrow, hm, hl, hp, accept_of_check h]

theorem decode_saddi {v : Nat} {f : SI} (h : check v (.saddi f) = none) : decode v (encode (.saddi f)) = .ok (.saddi f) := by
  obtain ⟨w0, he⟩ : ∃ w0, encSI 0x03 f = [w0] := ⟨_, rfl⟩
  have hm := major_SI 0x03 f
  have hl := Laws.Length.len_SI 0x03 f
  have hp := parseSI_encSI 0x03 f
  rw [he, List.headD_cons] at hm hl hp
  rw [encode, he, decode_narrow hm (by decide)]
  simp [decodeNarrow, hm, hl, hp, accept_of_check h]

theorem decode_sli {v : Nat} {f : SI} (h : check v (.sli f) = none) : decode v (encode (.sli f)) = .ok (.sli f) := by
  obtain ⟨w0, he⟩ : ∃ w0, encSI 0x04 f = [w0] := ⟨_, rfl⟩
  have hm := major_SI 0x04 f
  have hl := Laws.Length.len_SI 0x04 f
  have hp := parseSI_encSI 0x04 f
  rw [he, List.headD_cons] at hm hl hp
  rw [encode, he, decode_narrow hm (by decide)]
  simp [decodeNarrow, hm, hl, hp, accept_of_check h]

theorem decode_brc {v : Nat} {f : SB} (h : check v (.brc f) = none) : decode v (encode (.brc f)) = .ok (.brc f) := by
  obtain ⟨w0, he⟩ : ∃ w0, encSB 0x05 f = [w0] := ⟨_, rfl⟩
  have hm := major_SB 0x05 f
  have hl := Laws.Length.len_SB 0x05 f
  have hp := parseSB_encSB 0x05 f
  rw [he, List.headD_cons] at hm hl hp
  rw [encode, he, decode_narrow hm (by decide)]
  simp [decodeNarrow, hm, hl, hp, accept_of_check h]

theorem decode_call {v : Nat} {f : SB} (h : check v (.call f) = none) : decode v (encode (.call f)) = .ok (.call f) := by
  obtain ⟨w0, he⟩ : ∃ w0, encSB 0x06 f = [w0] := ⟨_, rfl⟩
  have hm := major_SB 0x06 f
  have hl := Laws.Length.len_SB 0x06 f
  have hp := parseSB_encSB 0x06 f
  rw [he, List.headD_cons] at hm hl hp
  rw [encode, he, decode_narrow hm (by decide)]
  simp [decodeNarrow, hm, hl, hp, accept_of_check h]

theorem decode_sliLit {v : Nat} {f : SIL} (h : check v (.sliLit f) = none) : decode v (encode (.sliLit f)) = .ok (.sliLit f) := by
  obtain ⟨w0, he⟩ : ∃ w0, encSIL 0x04 f = w0 :: encLit (some f.lit) := ⟨_, rfl⟩
  have hm := major_SIL 0x04 f
  have hl := Laws.Length.len_SIL 0x04 f
  have hp := parseSIL_encSIL 0x04 f
  rw [he, List.headD_cons] at hm hl hp
  rw [encode, he, decode_narrow hm (by decide)]
  simp [decodeNarrow, hm, hl, encLit, literalOf_slices, hp, accept_of_check h]

/-! ## TFLG: one place of the map for two constructors (R296) -/

/-- A MOD the checks find neither reserved nor wrong is the code the entry asks for. -/
theorem modIll_of_check {u : Use} {v : Nat} {lit : Bool} {fs : List (Fld × Nat)} {m : Nat} (hm : (Fld.md, m) ∈ fs)
    (h : checkUse u v lit fs = none) : u.modIll = false := by
  unfold checkUse at h
  split at h
  · cases h
  · next hr =>
    have hmd := List.findSome?_eq_none_iff.1 hr _ hm
    simp only [badReserved] at hmd
    split_ifs at hmd with h1 h2
    exact Bool.eq_false_iff.2 h2

theorem tflgOf_get {v : Nat} {f : TX} (h : check v (.tflgGet f) = none) : tflgOf f = .tflgGet f := by
  have hm : (f.md != 0) = false := modIll_of_check (m := f.md.toNat) (by simp [txFields]) h
  have h0 : f.md = 0 := by simpa using hm
  simp [tflgOf, h0]

theorem tflgOf_set {v : Nat} {f : TX} (h : check v (.tflgSet f) = none) : tflgOf f = .tflgSet f := by
  have hm : (f.md != 1) = false := modIll_of_check (m := f.md.toNat) (by simp [txFields]) h
  have h1 : f.md = 1 := by simpa using hm
  simp [tflgOf, h1]

theorem decode_tflgOf {v : Nat} {f : TX} (h : check v (tflgOf f) = none) : decode v (encode (tflgOf f)) = .ok (tflgOf f) := by
  rw [(tflgOf_word f).2]
  exact decode_encTX rfl rfl h

/-! ## The two directions -/

/-- A sound instruction of a compute core is what its words decode to. -/
theorem decode_encode {v : Nat} {i : Instr} (hw : i.isWord = true) (h : check v i = none) : decode v (encode i) = .ok i := by
  cases i with
  | nop f | endg f | trap f | rft f | yield f | clkr f | idr f | sysr f | sysw f | fence f | ret f | jmp f | sadd f | ssub f | smul f
    | smulh f | sand f | sor f | sxor f | sandn f | sshl f | sshr f | ssra f | smin f | smax f | smov f | spopc f | sclz f =>
    exact decode_encS2 rfl rfl h
  | scmp f | ssel f | sbfx f | sbfi f | sld f | sst f | slda f | msplit f | mopen f | marrive f | mjoin f | mmov f | mpopc f | palset f
    | palget f | fpcset f | fpcget f | fork f | vfork f | join f | taskend f | launch f | waitw f | bara f | barw f | baraw f =>
    exact decode_encSX rfl rfl h
  | vadd f | vsub f | vmul f | vmulh f | vmad f | vabs f | vmin f | vmax f | vand f | vor f | vxor f | vandn f | vshl f | vshr f | vsra f
    | vpopc f | vclz f | vbfx f | vbfi f | vcmp f | vsel f | vmov f | vlane f | vins f | vfadd f | vfsub f | vfmul f | vfma f | vfdiv f
    | vfsqrt f | vfmin f | vfmax f | vfrcpa f | vfrsqa f | vfcmp f | vfclass f | vfrnd f | vfcvt f | vshuf f | vbcast f | vred f | vscan f
    | vld f | vst f | vldx f | vstx f | vatom f | vslice f | vrand f => exact decode_encVX rfl rfl h
  | tcfg f | tzero f | tmov f | tld f | tldw f | tst f | tmma f | tcomb f | tcvt f | tadd f => exact decode_encTX rfl rfl h
  | xset f | xinv f | grun f | gsig f | cfence f | cpy f | cpyx f | cpyf f | fat f | fred f | skget f | skput f | skrec f =>
    exact decode_encCX rfl rfl h
  | rst f | rsig f | rwait f | crun f | cbar f | ptime f => exact decode_encQX rfl rfl h
  | tflgGet f =>
    have hf := tflgOf_get h
    rw [← hf] at h ⊢
    exact decode_tflgOf h
  | tflgSet f =>
    have hf := tflgOf_set h
    rw [← hf] at h ⊢
    exact decode_tflgOf h
  | wait f => exact decode_wait h
  | saddi f => exact decode_saddi h
  | sli f => exact decode_sli h
  | sliLit f => exact decode_sliLit h
  | brc f => exact decode_brc h
  | call f => exact decode_call h
  | _ => cases hw

/-- What decodes is a sound instruction of a compute core, and its words begin those it was read from. -/
theorem decode_ok {v : Nat} {ws : List Word} {i : Instr} (h : decode v ws = .ok i) :
    i.isWord = true ∧ check v i = none ∧ ∃ tail, ws = encode i ++ tail := by
  unfold decode at h
  split at h
  · cases h
  next w0 rest =>
  dsimp only at h
  split at h
  · exact decodeNarrow_ok h
  split at h
  · next ops hops => exact decodeS2_ok (entries_s2 hops) h
  split at h
  · next ops hops => exact decodeWide_ok wideCodec_SX (entries_sx hops) h
  split at h
  · next ops hops => exact decodeWide_ok wideCodec_VX (entries_vx hops) h
  split at h
  · next ops hops => exact decodeWide_ok wideCodec_TX (entries_tx hops) h
  split at h
  · next ops hops => exact decodeWide_ok wideCodec_CX (entries_cx hops) h
  split at h
  · next ops hops => exact decodeWide_ok wideCodec_QX (entries_qx hops) h
  · cases h

/-- Settles O54: the constructor's place in the opcode map, and the format's parser on the format's encoding. -/
theorem decodeOfEncode : Obligations.DecodeOfEncode := by
  unfold Obligations.DecodeOfEncode
  refine ⟨fun vregs i h => ?_, decodeSubmit_encode⟩
  obtain ⟨hw, hc⟩ := wellFormed_iff.1 h
  exact decode_encode hw hc

/-- Settles O55: every branch of the decoder hands on what it looked up after the checks, and the encoder gives that the words read. -/
theorem encodeOfDecode : Obligations.EncodeOfDecode := by
  unfold Obligations.EncodeOfDecode
  refine ⟨fun vregs ws i h => ?_, fun w f h => encode_of_decodeSubmit h⟩
  obtain ⟨hw, hc, hws⟩ := decode_ok h
  exact ⟨wellFormed_iff.2 ⟨hw, hc⟩, hws⟩

/-- Settles O56: each word, decoded. -/
theorem wordsDecode : Obligations.WordsDecode := by
  unfold Obligations.WordsDecode
  decide +kernel

end Sys2Proof.Machine
end

