-- ==== Sys2Proof/Proofs/Jumps.lean ====
section

/-! # Branches, calls, returns and jumps (O3) -/

namespace Sys2Proof.Machine

/-! ## Conditions and targets (R57, R64, R65) -/

/-- A pair of registers is the empty mask exactly when both are zero (R7). -/
theorem spair_eq_zero_iff (g : Group) (n : Nat) : spair g n = 0 ↔ sreg g n = 0 ∧ sreg g (n + 1) = 0 := by
  constructor
  · intro h
    have hlo : (spair g n).lo = sreg g n := slice_low
    have hhi : (spair g n).hi = sreg g (n + 1) := slice_above slice_all
    rw [← hlo, ← hhi, h]
    exact ⟨rfl, rfl⟩
  · rintro ⟨h0, h1⟩
    rw [spair, h0, h1]
    rfl

/-- COND by its table (R65). -/
theorem condHolds_iff (g : Group) {cond : BitVec 4} (h : cond.toNat ≤ 6) :
    condHolds g cond = true ↔
      cond = 0 ∨ (cond = 1 ∧ g.scc = true) ∨ (cond = 2 ∧ g.scc = false) ∨
      (cond = 3 ∧ sreg g 158 = 0 ∧ sreg g 159 = 0) ∨ (cond = 4 ∧ ¬(sreg g 158 = 0 ∧ sreg g 159 = 0)) ∨
      (cond = 5 ∧ sreg g 156 = 0 ∧ sreg g 157 = 0) ∨ (cond = 6 ∧ ¬(sreg g 156 = 0 ∧ sreg g 157 = 0)) := by
  have hexec : execMask g = 0 ↔ sreg g 158 = 0 ∧ sreg g 159 = 0 := spair_eq_zero_iff g 158
  have hvcc : vccMask g = 0 ↔ sreg g 156 = 0 ∧ sreg g 157 = 0 := spair_eq_zero_iff g 156
  have hcases : cond = 0 ∨ cond = 1 ∨ cond = 2 ∨ cond = 3 ∨ cond = 4 ∨ cond = 5 ∨ cond = 6 := by bv_omega
  rw [← hexec, ← hvcc]
  rcases hcases with rfl | rfl | rfl | rfl | rfl | rfl | rfl <;> simp [condHolds]

/-- The target of a branch in integers. -/
theorem branchTarget_eq (pc : DWord) (off : BitVec 20) : branchTarget pc off = BitVec.ofInt 64 (pc.toNat + 4 * off.toInt) := by
  rw [branchTarget, BitVec.signExtend, BitVec.ofInt_add, BitVec.ofInt_mul, BitVec.ofInt_natCast, BitVec.ofNat_toNat, BitVec.setWidth_eq]
  rfl

/-- A target is aligned when its two low bits are zero (R57). -/
theorem lowTwo_eq_zero_iff (target : DWord) : target.extractLsb' 0 2 = 0 ↔ target.toNat % 4 = 0 := by
  rw [← BitVec.toNat_inj]
  simp [BitVec.extractLsb'_toNat]

theorem jumpTo_aligned (s : State) (g : Group) {target : DWord} (h : target.toNat % 4 = 0) : jumpTo s g target = .goto s g target := by
  simp [jumpTo, (lowTwo_eq_zero_iff target).2 h]

theorem jumpTo_misaligned (s : State) (g : Group) {target : DWord} (h : target.toNat % 4 ≠ 0) :
    jumpTo s g target = .trap ⟨0x05, target, 0⟩ := by
  rw [jumpTo, if_pos (fun h0 => h ((lowTwo_eq_zero_iff target).1 h0))]
  rfl

/-! ## Where the next instruction stands (R56) -/

theorem after_SB {i : Instr} {c : Ctx} (h : (encode i).length = 1) : after i c = c.g.pc + 4 := by
  rw [after, instBytes, h]; rfl

theorem after_jmp (f : S2) (c : Ctx) : after (.jmp f) c = c.g.pc + (if f.lit.isSome then 12 else 4) := by
  obtain ⟨sd, sa, md, lit⟩ := f
  cases lit <;> rfl

/-! ## LINK -/

/-- A group that retires after a scalar was written: the register holds the value, and the others are as they were. -/
theorem counted_setS {g g' : Group} {n : Nat} {v : DWord} (h : Counted (setS g n v) g') :
    Counted { g with sregs := g'.sregs } g' ∧ sreg g' n = v ∧ ∀ m, m ≠ n → sreg g' m = sreg g m := by
  have e : g'.sregs = (setS g n v).sregs := by rw [h]
  refine ⟨?_, ?_, fun m hm => ?_⟩
  · rw [e]; exact h
  · simp only [sreg, e]; exact sreg_setS_same _ _ _
  · simp only [sreg, e]; exact sreg_setS_ne _ _ hm

/-! ## The instructions (R196, R197) -/

section
variable {s : State} {c : Ctx}

theorem brc_retires {f : SB} (h : Ready s (.brc f) c) :
    Retires (.brc f) s c (if condHolds c.g f.cond then branchTarget c.g.pc f.off else c.g.pc + 4) (fun g' => Counted c.g g') := by
  split
  · next ht => exact retires_goto rfl h (.inl (isVector_brc f)) (if_pos ht) rfl rfl fun _ hg => hg
  · next ht =>
    rw [← after_SB (i := .brc f) rfl]
    exact retires_next rfl h (.inl (isVector_brc f)) (if_neg ht) rfl rfl fun _ hg => hg

theorem call_retires {f : SB} (h : Ready s (.call f) c) :
    Retires (.call f) s c (if condHolds c.g f.cond then branchTarget c.g.pc f.off else c.g.pc + 4) (fun g' =>
      if condHolds c.g f.cond then
        Counted { c.g with sregs := g'.sregs } g' ∧ sreg g' 155 = c.g.pc + 4 ∧ ∀ n, n ≠ 155 → sreg g' n = sreg c.g n
      else Counted c.g g') := by
  by_cases ht : condHolds c.g f.cond
  · simp only [ht, if_true]
    exact retires_goto rfl h (.inl (isVector_call f)) (if_pos ht) rfl rfl fun _ hg => counted_setS hg
  · simp only [ht]
    rw [← after_SB (i := .call f) rfl]
    exact retires_next rfl h (.inl (isVector_call f)) (if_neg ht) rfl rfl fun _ hg => hg

theorem ret_retires {f : S2} (h : Ready s (.ret f) c) (ha : (sreg c.g 155).toNat % 4 = 0) :
    Retires (.ret f) s c (sreg c.g 155) (fun g' => Counted c.g g') :=
  retires_goto rfl h (.inl (isVector_ret f)) (jumpTo_aligned s c.g ha) rfl rfl fun _ hg => hg

theorem ret_traps {f : S2} (h : Ready s (.ret f) c) (ha : (sreg c.g 155).toNat % 4 ≠ 0) (hh : Handled c) :
    Traps (.ret f) s c 0x05 (sreg c.g 155) 0 c.g.pc :=
  traps_of_body rfl h (.inl (isVector_ret f)) (jumpTo_misaligned s c.g ha) hh

theorem jmp_retires {f : S2} (h : Ready s (.jmp f) c) (ha : (sval c.g f.lit f.sa).toNat % 4 = 0) :
    Retires (.jmp f) s c (sval c.g f.lit f.sa) (fun g' =>
      if f.md.getLsbD 0 then
        Counted { c.g with sregs := g'.sregs } g' ∧ sreg g' 155 = c.g.pc + (if f.lit.isSome then 12 else 4) ∧
          ∀ n, n ≠ 155 → sreg g' n = sreg c.g n
      else Counted c.g g') := by
  have hlink : c.g.pc + BitVec.ofNat 64 c.len = c.g.pc + (if f.lit.isSome then 12 else 4) := by
    obtain ⟨-, -, -, -, -, hlen⟩ := ctxOf_some h.1
    rw [hlen, ← after_jmp, after]
  refine retires_goto rfl h (.inl (isVector_jmp f)) (jumpTo_aligned s _ ha) ?_ ?_ fun g' hg => ?_
  · split <;> rfl
  · split <;> rfl
  · by_cases hm : f.md.getLsbD 0
    · rw [if_pos hm] at hg ⊢
      rw [hlink] at hg
      exact counted_setS hg
    · rw [if_neg hm] at hg ⊢
      exact hg

theorem jmp_traps {f : S2} (h : Ready s (.jmp f) c) (ha : (sval c.g f.lit f.sa).toNat % 4 ≠ 0) (hh : Handled c) :
    Traps (.jmp f) s c 0x05 (sval c.g f.lit f.sa) 0 c.g.pc :=
  traps_of_body rfl h (.inl (isVector_jmp f)) (jumpTo_misaligned s _ ha) hh

end

/-- Settles O3: the condition's table for BRC and CALL, and the alignment of the target for RET and JMP. -/
theorem jumpsCallsAndReturns : Obligations.JumpsCallsAndReturns := by
  unfold Obligations.JumpsCallsAndReturns
  refine ⟨fun f s c taken htaken hcond => ?_, fun f s c h => ⟨ret_retires h, ret_traps h⟩, fun f s c h => ⟨jmp_retires h, jmp_traps h⟩⟩
  obtain rfl : taken = condHolds c.g f.cond := Bool.eq_iff_iff.2 (htaken.trans (condHolds_iff c.g hcond).symm)
  rw [← branchTarget_eq]
  exact ⟨brc_retires, call_retires⟩

end Sys2Proof.Machine
end

