-- ==== Sys2Proof/Proofs/VectorOperands.lean ====
section

/-! # What an operand index reads, and the skip of a vector instruction (O17) -/

namespace Sys2Proof.Machine

/-! ## Widths and types (R71, R75) -/

theorem typeBits_le (t : Nat) : typeBits t ≤ 64 := by
  unfold typeBits
  split_ifs <;> decide

theorem typeBits_pos (t : Nat) : 0 < typeBits t := by
  unfold typeBits
  split_ifs <;> decide

/-- The low bits of a number that a 64-bit value has already cut. -/
theorem lowBits_ofNat {w : Nat} (h : w ≤ 64) (n : Nat) : lowBits w (BitVec.ofNat 64 n) = BitVec.ofNat 64 (n % 2 ^ w) := by
  rw [lowBits, BitVec.toNat_ofNat, Nat.mod_mod_of_dvd _ (pow_dvd_pow 2 h)]

theorem lowBits_setWidth (w : Nat) (v : Word) : lowBits w (v.setWidth 64) = BitVec.ofNat 64 (v.toNat % 2 ^ w) := by
  rw [lowBits, BitVec.toNat_setWidth_of_le (by decide)]

/-! ## Inline constants (R72) -/

/-- The integer constants by index. -/
theorem inlineConst_int {t idx : Nat} {v : Int} (hf : floatType t = false) (hlo : 449 ≤ idx) (hhi : idx ≤ 463)
    (hv : ([1, 2, 3, 4, 8, -1, -2, 16, 32, 64, 127, 128, if signedType t then 2 ^ (typeBits t - 1) - 1 else 2 ^ typeBits t - 1,
            if signedType t then -(2 ^ (typeBits t - 1)) else 0, typeBits t] : List Int)[idx - 449]? = some v) :
    inlineConst t idx = BitVec.ofNat 64 (v % 2 ^ typeBits t).toNat := by
  have hcast : ((2 ^ typeBits t : Nat) : Int) = 2 ^ typeBits t := by push_cast; rfl
  have hhalf : (2 : Int) ^ typeBits t = 2 ^ (typeBits t - 1) + 2 ^ (typeBits t - 1) := by
    rw [← two_mul, ← pow_succ', Nat.sub_add_cancel (typeBits_pos t)]
  have hgreatest : (2 ^ typeBits t - 1 : Int) % 2 ^ typeBits t = -1 % 2 ^ typeBits t := by
    rw [sub_eq_neg_add, Int.add_emod_right]
  have hleast : (-(2 ^ (typeBits t - 1)) : Int) % 2 ^ typeBits t = 2 ^ (typeBits t - 1) % 2 ^ typeBits t := by
    rw [← Int.add_emod_right, hhalf, neg_add_cancel_left]
  simp only [inlineConst, hf, hcast, Bool.false_eq_true, if_false]
  have hidx : idx ≤ 460 ∨ idx = 461 ∨ idx = 462 ∨ idx = 463 := by omega
  rcases hidx with hle | rfl | rfl | rfl
  · interval_cases idx <;> (cases hv; rfl)
  · cases hv
    cases hs : signedType t with
    | true => rfl
    | false => exact (congrArg (fun n : Int => BitVec.ofNat 64 n.toNat) hgreatest).symm
  · cases hv
    cases hs : signedType t with
    | true => exact (congrArg (fun n : Int => BitVec.ofNat 64 n.toNat) hleast).symm
    | false => rfl
  · cases hv
    rfl

/-- Whether the bits of a format stand for `v` eighths exactly. -/
def isEighths (k : FFmt) (b : Nat) (v : Int) : Bool :=
  match decodeF k b with
  | .fin neg m ex => (if neg then -(m : Int) else m) * 2 ^ (ex + 1100).toNat == v * 2 ^ 1097
  | _ => false

/-- The floating-point TYPE codes. -/
theorem floatType_cases {t : Nat} (h : floatType t = true) : t ∈ [4, 5, 6, 7, 10, 11] := by
  simp only [floatType, Bool.or_eq_true, Bool.and_eq_true, decide_eq_true_eq, beq_iff_eq] at h
  simp only [List.mem_cons, List.not_mem_nil, or_false]
  omega

/-- The floating-point constants by index, in eighths: each is a number of every format. -/
theorem inlineConst_eighths : ∀ t ∈ [4, 5, 6, 7, 10, 11], ∀ i, i < 10 → ∀ v,
    ([8, 16, 24, 32, 64, -8, -16, 4, 2, 1] : List Int)[i]? = some v →    isEighths (fmtOf t) (inlineConst t (449 + i)).toNat v = true := by
  intro t ht i hi v hv
  interval_cases i <;> cases hv <;> (revert t; decide +kernel)

/-- The constants of a floating-point TYPE that are not finite numbers, its greatest magnitudes, and its NaN. -/
theorem inlineConst_bounds : ∀ t ∈ [4, 5, 6, 7, 10, 11],
    (inlineConst t 459).toNat = infBits (fmtOf t) false ∧ (inlineConst t 460).toNat = infBits (fmtOf t) true ∧
    (inlineConst t 461).toNat = maxFinite (fmtOf t) ∧ (inlineConst t 462).toNat = withSign (fmtOf t) true (maxFinite (fmtOf t)) ∧
    (inlineConst t 463).toNat = canonNaN (fmtOf t) := by
  decide +kernel

/-! ## A lane of an operand (R71, R73) -/

section
variable {s : State} {c : Ctx} {lit : Lit} {idx t l : Nat}

theorem lane_reg_pair (hl : l < 128) (h : idx < 384) (hw : typeBits t = 64) :
    lane (srcLanes s c lit idx t) l = vlane c.g (idx + 1) l ++ vlane c.g idx l := by
  rw [srcLanes, if_pos h, regLanes, lane, laneAt_map _ hl, if_pos hw]

theorem lane_reg (hl : l < 128) (h : idx < 384) (hw : typeBits t ≠ 64) :
    lane (srcLanes s c lit idx t) l = BitVec.ofNat 64 ((vlane c.g idx l).toNat % 2 ^ typeBits t) := by
  rw [srcLanes, if_pos h, regLanes, lane, laneAt_map _ hl, if_neg hw, lowBits_setWidth]

/-- A uniform operand reads the same in every lane. -/
theorem lane_uniform (hl : l < 128) (h : 384 ≤ idx) (hs : ¬(464 ≤ idx ∧ idx ≤ 476)) :
    lane (srcLanes s c lit idx t) l = uniformVal c.g lit idx t := by
  rw [srcLanes, if_neg (Nat.not_lt.2 h), if_neg hs, lane, laneAt, splat_getD _ hl]

theorem lane_scalar (hl : l < 128) (h : 384 ≤ idx) (h' : idx < 448) :
    lane (srcLanes s c lit idx t) l = BitVec.ofNat 64 ((sreg c.g (idx - 384)).toNat % 2 ^ typeBits t) := by
  rw [lane_uniform hl h (by omega), uniformVal, if_pos h', lowBits]

theorem lane_zero (hl : l < 128) : lane (srcLanes s c lit 448 t) l = 0 := by
  rw [lane_uniform hl (by decide) (by decide)]
  rfl

theorem lane_inline (hl : l < 128) (h : 449 ≤ idx) (h' : idx ≤ 463) : lane (srcLanes s c lit idx t) l = inlineConst t idx := by
  rw [lane_uniform hl (by omega) (by omega), uniformVal, if_neg (by omega), if_neg (by omega), if_pos (by omega)]

theorem lane_literal (hl : l < 128) :
    lane (srcLanes s c lit 511 t) l = BitVec.ofNat 64 ((lit.getD 0).toNat % 2 ^ typeBits t) := by
  rw [lane_uniform hl (by decide) (by decide)]
  rfl

theorem laneSpecial_eq {v : Nat} (h : 464 ≤ idx) (h' : idx ≤ 476)
    (hv : [l, 128 * c.g.gidx + l, c.g.gidx, c.l.kern.groups, c.w.x, c.w.y, c.w.z, c.l.gx, c.l.gy, c.l.gz,
      c.w.lcore, c.g.sp.tdepth.toNat, 2 ^ (l % 32)][idx - 464]? = some v) : laneSpecial c idx l = v := by
  interval_cases idx <;> (cases hv; rfl)

theorem lane_special (hl : l < 128) (h : 464 ≤ idx) (h' : idx ≤ 476) :
    lane (srcLanes s c lit idx t) l = BitVec.ofNat 64 (laneSpecial c idx l % 2 ^ typeBits t) := by
  rw [srcLanes, if_neg (by omega), if_pos ⟨h, h'⟩, lane, laneAt_map _ hl, lowBits_ofNat (typeBits_le t)]

end

/-! ## Vector instructions (R81) -/

/-- SUBMIT is none: bits 25 and up of its word are zero, so its bits 29 to 24 are no vector major. -/
@[simp] theorem isVector_submit (f : RT) : isVector (.submit f) = false := by
  have hm : ((encode (.submit f)).headD 0).extractLsb' 25 7 = 0 :=
    slice_above (slice_above (slice_above (slice_above (slice_above slice_all))))
  rw [isVector_of_major _ _ _ rfl _ rfl, Bool.and_eq_false_iff, decide_eq_false_iff_not]
  refine .inl ?_
  generalize (encode (.submit f)).headD 0 = w at hm
  have hhigh : w.toNat / 2 ^ 25 % 2 ^ 7 = 0 := by
    simpa [BitVec.extractLsb'_toNat, Nat.shiftRight_eq_div_pow] using congrArg BitVec.toNat hm
  rw [BitVec.extractLsb'_toNat, Nat.shiftRight_eq_div_pow]
  omega

/-- Every vector instruction goes through issue. -/
theorem exec_vector {i : Instr} (h : isVector i = true) : ∃ body : State → Ctx → Eff, ∀ s, exec i s = issue i s (body s) := by
  have hw : encode i ≠ [] := by
    intro he
    simp [isVector, he] at h
  cases i with
  | vadd f | vsub f | vmul f | vmulh f | vmad f | vabs f | vmin f | vmax f | vand f | vor f | vxor f | vandn f | vshl f | vshr f | vsra f
    | vpopc f | vclz f | vbfx f | vbfi f | vcmp f | vsel f | vmov f | vlane f | vins f | vfadd f | vfsub f | vfmul f | vfma f | vfdiv f
    | vfsqrt f | vfmin f | vfmax f | vfrcpa f | vfrsqa f | vfcmp f | vfclass f | vfrnd f | vfcvt f | vshuf f | vbcast f | vred f | vscan f
    | vld f | vst f | vldx f | vstx f | vatom f | vslice f | vrand f => exact ⟨_, fun _ => rfl⟩
  | _ => simp [encode] at h hw

/-- A vector instruction with EXEC zero retires, and nothing of its group changes but the counts. -/
theorem vector_skipped {i : Instr} {s : State} {c : Ctx} (h : Ready s i c) (hv : isVector i = true) (h0 : execMask c.g = 0) :
    Retires i s c (after i c) (fun g' => Counted c.g g') := by
  obtain ⟨body, hbody⟩ := exec_vector hv
  obtain ⟨hout, hg⟩ := retire_spec h.1 c.g (after i c) rfl rfl
  obtain ⟨-, -, -, -, -, hlen⟩ := ctxOf_some h.1
  refine ⟨_, _, ?_, hout, hg, retiredGroup_pc .., retiredGroup_counted ..⟩
  rw [hbody, issue_skip (body s) h hv h0, settle, hlen]
  rfl

/-- Settles O17: an operand by the range of its index, and the skip at issue. -/
theorem vectorOperandsAndEmptyExec : Obligations.VectorOperandsAndEmptyExec := by
  unfold Obligations.VectorOperandsAndEmptyExec
  refine ⟨fun s c lit idx t l hl _ => ?_, fun i s c h hv h0 => vector_skipped h hv h0⟩
  intro w x
  refine ⟨lane_reg_pair hl, lane_reg hl, lane_scalar hl, ?_, fun h h' hf v hv => ?_, fun h h' hf v hv => ?_, fun hf => ?_,
    fun h h' v hv => ?_, ?_⟩
  · rintro rfl
    exact lane_zero hl
  · exact (lane_inline hl h h').trans (inlineConst_int hf h h' hv)
  · have hconst := inlineConst_eighths t (floatType_cases hf) (idx - 449) (by omega) v hv
    rw [Nat.add_sub_cancel' h, ← lane_inline (s := s) (c := c) (lit := lit) hl h (by omega), isEighths] at hconst
    split at hconst
    · next neg m ex hd =>
      rw [hd]
      exact eq_of_beq hconst
    · cases hconst
  · obtain ⟨hinf, hninf, hmax, hnmax, hnan⟩ := inlineConst_bounds t (floatType_cases hf)
    refine ⟨?_, ?_, ?_, ?_, ?_⟩
    all_goals
      rintro rfl
      refine (congrArg BitVec.toNat (lane_inline hl (by decide) (by decide))).trans ?_
      assumption
  · rw [← laneSpecial_eq h h' hv]
    exact lane_special hl h h'
  · rintro rfl
    exact lane_literal hl

end Sys2Proof.Machine
end

