-- ==== Sys2Proof/Proofs/Submit.lean ====
section

/-! # What SUBMIT answers and writes (O33) -/

namespace Sys2Proof.Machine

/-! ## What the front end's accesses to descriptors leave alone -/

/-- Keeping a queue's fields writes its descriptor in memory; of the front end only that queue changes, and no hart does. -/
theorem putQ_frame (s : State) (q : Nat) (x : Queue) (also : List Nat) :
    (putQ s q x also).harts = s.harts ∧ (putQ s q x also).fe = { s.fe with queues := tput s.fe.queues q x } := by
  unfold putQ
  generalize hu : List.foldl _ s _ = u
  have hfold : u.harts = s.harts ∧ u.fe = s.fe := by
    rw [← hu]
    refine List.foldlRecOn (motive := fun (v : State) => v.harts = s.harts ∧ v.fe = s.fe) _ _ ⟨rfl, rfl⟩ fun v hv p _ => ?_
    split
    · exact hv
    · exact hv
  obtain ⟨hharts, hfe⟩ := hfold
  exact ⟨hharts, by rw [keepQ, hfe]⟩

theorem lookQueue_harts (s : State) (q : Nat) : (lookQueue s q).harts = s.harts := by
  unfold lookQueue
  dsimp only
  split
  · rfl
  · split
    · rfl
    · split
      · split
        · rfl
        · exact (putQ_frame _ q _ _).1
      · rfl

theorem getQ_putQ (s : State) (q k : Nat) (x : Queue) (also : List Nat) : getQ (putQ s q x also) k = if k = q then x else getQ s k := by
  unfold getQ
  rw [(putQ_frame s q x also).2, tget_tput]
  split <;> rfl

/-! ## The answers (R350, R353) -/

/-- Why SUBMIT is denied (R353): a number too wide, or a queue that is not this hart's in SUBMIT mode. -/
def SubmitDenied (d : QDesc) (asid : Nat) (a b : DWord) : Prop :=
  2 ^ 10 ≤ a.toNat ∨ 2 ^ 32 ≤ b.toNat ∨ d.active = false ∨ d.submit = false ∨ d.asid ≠ asid

/-- A write index that the ring has no room for, or that goes back (R350). -/
def SubmitStale (d : QDesc) (x : Queue) (w : Word) : Prop := 2 ^ d.logsize < (w - x.rdidx).toNat ∨ 2 ^ d.logsize < (w - x.wridx).toNat

theorem wrOk_eq_false_iff (d : QDesc) (x : Queue) (w : Word) : wrOk d x w = false ↔ SubmitStale d x w := by
  simp only [wrOk, SubmitStale, Bool.and_eq_false_iff, decide_eq_false_iff_not, Nat.not_le]

section
variable {s : State} {asid : Nat} {a b : DWord}

theorem submitDo_stopped (h : feStopped s = true) : submitDo s asid a b = (s, 2) := by
  rw [submitDo, if_pos h]

/-- SUBMIT in a package that runs, by its conditions. -/
theorem submitDo_running (h : feStopped s = false) :
    let q := a.toNat % 2 ^ 10
    let s1 := lookQueue s q
    let d := qDesc s1 q
    let w : Word := b.setWidth 32
    (SubmitDenied d asid a b → submitDo s asid a b = (s1, 2)) ∧
    (¬SubmitDenied d asid a b → SubmitStale d (getQ s1 q) w → submitDo s asid a b = (s1, 1)) ∧
    (¬SubmitDenied d asid a b → ¬SubmitStale d (getQ s1 q) w →
      submitDo s asid a b = (putQ s1 q { (getQ s1 q) with wridx := w } [28], 0)) := by
  intro q s1 d w
  have hq : bits a 0 10 = q := by simp [bits, BitVec.extractLsb'_toNat, q]
  have hw : b.extractLsb' 0 32 = w := by simp [w, BitVec.setWidth_eq_extractLsb']
  have hden : (a.toNat / 2 ^ 10 ≠ 0 ∨ b.toNat / 2 ^ 32 ≠ 0 ∨ !d.active ∨ !d.submit ∨ d.asid ≠ asid) ↔ SubmitDenied d asid a b := by
    have ha : a.toNat / 2 ^ 10 ≠ 0 ↔ 2 ^ 10 ≤ a.toNat := by omega
    have hb : b.toNat / 2 ^ 32 ≠ 0 ↔ 2 ^ 32 ≤ b.toNat := by omega
    rw [ha, hb, SubmitDenied, Bool.not_eq_true', Bool.not_eq_true']
  unfold submitDo
  rw [h, if_neg (by decide), hq, hw]
  refine ⟨fun hd => if_pos (hden.2 hd), fun hd hs => ?_, fun hd hs => ?_⟩
  · have hok : wrOk d (getQ s1 q) w = false := (wrOk_eq_false_iff ..).2 hs
    exact (if_neg (mt hden.1 hd)).trans (if_pos (by rw [hok]; rfl))
  · have hok : wrOk d (getQ s1 q) w = true := Bool.eq_true_of_not_eq_false (mt (wrOk_eq_false_iff ..).1 hs)
    exact (if_neg (mt hden.1 hd)).trans (if_neg (by rw [hok]; decide))

end

/-! ## The hart (R77, log 5) -/

/-- What SUBMIT on hart `h` leaves when it answers `n`: rd, the PC and the issuer. -/
def HartAnswers (f : RT) (s t : State) (h n : Nat) : Prop :=
  exec (.submit f) s = .next t ∧ t.cur = none ∧ (getHart t h).pc = (getHart s h).pc + 4 ∧ (∀ k, k ≠ h → getHart t k = getHart s k) ∧
    ∀ r : BitVec 5, mget 0 (getHart t h).regs r.toNat = if r = f.rd ∧ r ≠ 0 then BitVec.ofNat 64 n else mget 0 (getHart s h).regs r.toNat

theorem regs_setHreg (x : Hart) (rd r : BitVec 5) (v : DWord) :
    mget 0 (setHreg x rd v).regs r.toNat = if r = rd ∧ r ≠ 0 then v else mget 0 x.regs r.toNat := by
  by_cases h0 : rd = 0
  · rw [setHreg, if_pos h0, if_neg (by rintro ⟨rfl, hr⟩; exact hr h0)]
  · rw [setHreg, if_neg h0, mget_mset]
    refine if_congr ⟨fun e => ?_, fun e => congrArg _ e.1⟩ rfl rfl
    have e' := BitVec.eq_of_toNat_eq e
    exact ⟨e', e' ▸ h0⟩

theorem pc_setHreg (x : Hart) (rd : BitVec 5) (v : DWord) : (setHreg x rd v).pc = x.pc := by
  unfold setHreg
  split <;> rfl

theorem getHart_putHart (s : State) (h k : Nat) (x : Hart) : getHart (putHart s h x) k = if k = h then x else getHart s k := by
  unfold getHart putHart
  rw [tget_tput]
  split <;> rfl

/-- A hart after SUBMIT has answered `n`. -/
def answeredHart (x : Hart) (f : RT) (n : Nat) : Hart := { setHreg x f.rd (BitVec.ofNat 64 n) with pc := x.pc + 4 }

/-- From the state that SUBMIT's operation leaves with its answer, the hart goes on with the answer in rd. -/
theorem submit_answers {f : RT} {s u : State} {h n : Nat} (hc : s.cur = some (.hart h)) (hh : h < 16) (hu : u.harts = s.harts)
    (hd : submitDo s (getHart s h).asid (hreg (getHart s h) f.rs1) (hreg (getHart s h) f.rs2) = (u, n)) :
    ∃ t, HartAnswers f s t h n ∧ t.fe = u.fe := by
  have hget : ∀ k, getHart { putHart u h (answeredHart (getHart s h) f n) with cur := none } k =
      if k = h then answeredHart (getHart s h) f n else getHart s k := fun k => by
    rw [show getHart s k = getHart u k by rw [getHart, getHart, hu]]
    exact getHart_putHart ..
  refine ⟨{ putHart u h (answeredHart (getHart s h) f n) with cur := none }, ⟨?_, rfl, ?_, fun k hk => ?_, fun r => ?_⟩, rfl⟩
  · have hle : ¬Config.staithCores ≤ h := Nat.not_le.2 hh
    simp only [exec, execSubmit, hc, if_neg hle, hd, pc_setHreg]
    rfl
  · rw [hget, if_pos rfl]; rfl
  · rw [hget, if_neg hk]
  · rw [hget, if_pos rfl, ← regs_setHreg]; rfl

/-- Settles O33: SUBMIT's operation by its conditions, and the hart that hands the answer on. -/
theorem submitAnswers : Obligations.SubmitAnswers := by
  unfold Obligations.SubmitAnswers
  intro f s h hc hh x a b q d y w denied stale answers
  refine ⟨fun hs => ?_, fun hs hd => ?_, fun hs hd hst => ?_, fun hs hd hst => ?_⟩
  · exact submit_answers hc hh rfl (submitDo_stopped hs)
  · obtain ⟨hdo, -, -⟩ := submitDo_running (asid := x.asid) (a := a) (b := b) hs
    exact submit_answers hc hh (lookQueue_harts s q) (hdo hd)
  · obtain ⟨-, hdo, -⟩ := submitDo_running (asid := x.asid) (a := a) (b := b) hs
    exact submit_answers hc hh (lookQueue_harts s q) (hdo hd hst)
  · obtain ⟨-, -, hdo⟩ := submitDo_running (asid := x.asid) (a := a) (b := b) hs
    obtain ⟨t, ht, hfe⟩ := submit_answers hc hh ((putQ_frame ..).1.trans (lookQueue_harts s q)) (hdo hd hst)
    have hq : ∀ k, getQ t k = if k = q then { y with wridx := w } else getQ (lookQueue s q) k := fun k =>
      (by rw [getQ, getQ, hfe] : getQ t k = getQ (putQ (lookQueue s q) q { y with wridx := w } [28]) k).trans (getQ_putQ ..)
    exact ⟨t, ht, (hq q).trans (if_pos rfl), fun k hk => (hq k).trans (if_neg hk)⟩

end Sys2Proof.Machine
end

