-- ==== Sys2Proof/Proofs/StepOfHart.lean ====
section

/-! # A step of a hart that is not there (O57)

A package has 16 service cores (R77, R353). The step of a package whose issuer is set to a hart past the last one only clears the issuer,
while SUBMIT on it answers the fault `noIssuer`: the statement asks that the two agree and does not bound the hart's number. -/

namespace Sys2Proof.Machine

/-- The step of an issuer that is no hart of the package: nobody issues from then on. -/
theorem step_of_absent_hart {s : State} {h : Nat} (hc : s.cur = some (.hart h)) (hh : Config.staithCores ≤ h) :
    step s = .next { s with cur := none } := by
  simp only [step, hc, fetched, if_neg (Nat.not_lt.2 hh)]

/-- SUBMIT on such an issuer. -/
theorem exec_submit_of_absent_hart {s : State} {h : Nat} (f : RT) (hc : s.cur = some (.hart h)) (hh : Config.staithCores ≤ h) :
    exec (.submit f) s = .fault .noIssuer := by
  simp only [exec, execSubmit, hc, if_pos hh]

/-- Refutes O57: its clause on Staith cores does not bound the hart by the 16 there are. With hart 16 as the issuer, its PC zero as at reset, and
the word of SUBMIT at address 0, the step clears the issuer, where SUBMIT faults with `noIssuer`. -/
theorem not_stepRunsTheDecodedInstruction : ¬Obligations.StepRunsTheDecodedInstruction := by
  unfold Obligations.StepRunsTheDecodedInstruction
  rintro ⟨-, hhart, -⟩
  have heq := hhart { memPut State.reset 0 4 0x00C5850B with cur := some (.hart 16) } 16 { rd := 10, rs1 := 11, rs2 := 12 } rfl
    (by decide +kernel)
  rw [step_of_absent_hart rfl (by decide), exec_submit_of_absent_hart _ rfl (by decide)] at heq
  cases heq

end Sys2Proof.Machine
end

