-- ==== Sys2Proof/Proofs/FloatResults.lean ====
section

/-! # The end of a floating-point instruction (R135)

Every list of lanes is brought to the form `laneIds.map f`. In that form `raisedBy` says lane by lane what the statements say, and one lemma
(`floatEnds_of_body`) gives the two ends of a floating-point instruction, the trap and the retirement. -/

namespace Sys2Proof.Machine

/-! ## Lists of lanes -/

/-- A list with an element for each lane, as a map over the lanes. -/
theorem lanes_eq_map {x : Lanes} (h : x.length = 128) : x = laneIds.map (lane x) := by
  refine List.ext_getElem (by simp [h]) fun l hl _ => ?_
  simp [laneIds, laneAt, hl]

theorem zipWith_laneIds_map {α β γ : Type} (op : α → β → γ) (f : Nat → α) (g : Nat → β) :
    List.zipWith op (laneIds.map f) (laneIds.map g) = laneIds.map (fun l => op (f l) (g l)) := by
  rw [List.zipWith_map, List.zipWith_self]

theorem srcLanes_eq_map (s : State) (c : Ctx) (lit : Lit) (idx t : Nat) :
    srcLanes s c lit idx t = laneIds.map (lane (srcLanes s c lit idx t)) :=
  lanes_eq_map (srcLanes_length ..)

theorem opA_eq_map (s : State) (c : Ctx) (f : VX) : opA s c f = laneIds.map (lane (opA s c f)) := srcLanes_eq_map ..
theorem opB_eq_map (s : State) (c : Ctx) (f : VX) : opB s c f = laneIds.map (lane (opB s c f)) := srcLanes_eq_map ..
theorem opC_eq_map (s : State) (c : Ctx) (f : VX) : opC s c f = laneIds.map (lane (opC s c f)) := srcLanes_eq_map ..

/-- The lanes of an operand that signal (R126). -/
theorem sigLanes_eq_map (t : Nat) {x : Lanes} (h : x.length = 128) : sigLanes t x = laneIds.map (signals t x) := by
  rw [sigLanes]
  conv_lhs => rw [lanes_eq_map h]
  exact List.map_map

theorem sigLanes_srcLanes (s : State) (c : Ctx) (lit : Lit) (idx t u : Nat) :
    sigLanes u (srcLanes s c lit idx t) = laneIds.map (signals u (srcLanes s c lit idx t)) :=
  sigLanes_eq_map u (srcLanes_length ..)

theorem sigLanes_opA (u : Nat) (s : State) (c : Ctx) (f : VX) : sigLanes u (opA s c f) = laneIds.map (signals u (opA s c f)) :=
  sigLanes_srcLanes ..
theorem sigLanes_opB (u : Nat) (s : State) (c : Ctx) (f : VX) : sigLanes u (opB s c f) = laneIds.map (signals u (opB s c f)) :=
  sigLanes_srcLanes ..
theorem sigLanes_opC (u : Nat) (s : State) (c : Ctx) (f : VX) : sigLanes u (opC s c f) = laneIds.map (signals u (opC s c f)) :=
  sigLanes_srcLanes ..

theorem orLanes_laneIds_map (p q : Nat → Bool) :
    orLanes (laneIds.map p) (laneIds.map q) = laneIds.map (fun l => p l || q l) := zipWith_laneIds_map ..

/-! ## Masks -/

/-- The number of which a mask is made has a bit for each lane. -/
theorem testBit_foldr_lanes (bs : List Bool) (l : Nat) :
    (bs.foldr (fun (b : Bool) (a : Nat) => (if b then 1 else 0) + 2 * a) 0).testBit l = bs.getD l false := by
  induction bs generalizing l with
  | nil => simp
  | cons b bs ih =>
    cases l with
    | zero => cases b <;> simp [Nat.testBit_zero]
    | succ l =>
      have hhalf (a : Nat) : ((if b then 1 else 0) + 2 * a) / 2 = a := by cases b <;> simp; omega
      rw [List.foldr_cons, Nat.testBit_succ, hhalf, ih, List.getD_cons_succ]

theorem lanesMask_getLsbD (bs : List Bool) {l : Nat} (h : l < 128) : (lanesMask bs).getLsbD l = bs.getD l false := by
  rw [lanesMask, BitVec.getLsbD_ofNat, testBit_foldr_lanes, decide_eq_true h, Bool.true_and]

/-- The mask whose lanes are those of a predicate. -/
theorem lanesMask_eq_iff (m : Mask) (p : Nat → Bool) :
    lanesMask (laneIds.map p) = m ↔ ∀ l, l < 128 → m.getLsbD l = p l := by
  have hget {l : Nat} (h : l < 128) : (lanesMask (laneIds.map p)).getLsbD l = p l := by
    rw [lanesMask_getLsbD _ h, getD_laneIds_map _ _ h]
  constructor
  · rintro rfl l h
    exact hget h
  · intro hm
    exact BitVec.eq_of_getLsbD_eq fun l h => (hget h).trans (hm l h).symm

/-! ## What the lanes raise -/

/-- Flags joined have the bits that some of them has. -/
theorem getLsbD_foldl_or (j : Nat) (a : Nat → Bool) (r : Nat → Flags) (ls : List Nat) (z : Flags) :
    (ls.foldl (fun x l => x ||| (if a l then r l else 0)) z).getLsbD j = (z.getLsbD j || ls.any (fun l => a l && (r l).getLsbD j)) := by
  induction ls generalizing z with
  | nil => simp
  | cons l ls ih =>
    rw [List.foldl_cons, ih, List.any_cons, BitVec.getLsbD_or, Bool.or_assoc]
    cases a l <;> simp

/-- The flags of `FlagsOf` are these alone. -/
theorem flagsOf_iff (a : Nat → Bool) (r : Nat → Flags) (fl : Flags) :
    FlagsOf a r fl ↔ fl = laneIds.foldl (fun x l => x ||| (if a l then r l else 0)) 0 := by
  have hbits (j : Nat) : (laneIds.foldl (fun x l => x ||| (if a l then r l else 0)) 0).getLsbD j =
      laneIds.any (fun l => a l && (r l).getLsbD j) := (getLsbD_foldl_or ..).trans (by simp)
  constructor
  · exact fun h => BitVec.eq_of_getLsbD_eq fun j hj => (h j hj).trans (hbits j).symm
  · rintro rfl j -
    exact hbits j

/-- R135's loop over the active lanes, lane by lane. -/
theorem raisedBy_lanes {fpc : Word} {a : Nat → Bool} {r : Nat → Flags} {sg : Nat → Bool} {fl : Flags} (hfl : FlagsOf a r fl) :
    raisedBy fpc true (laneIds.map a) (laneIds.map r) (laneIds.map sg) =
      ⟨fl, laneIds.any (fun l => a l && sg l), lanesMask (laneIds.map (laneTraps fpc a r sg))⟩ := by
  rw [(flagsOf_iff a r fl).1 hfl]
  have hlane : List.zipWith (fun a p => if a then p else (0, false)) (laneIds.map a) (List.zip (laneIds.map r) (laneIds.map sg)) =
      laneIds.map (fun l => if a l then (r l, sg l) else (0, false)) := by
    rw [List.zip, zipWith_laneIds_map, zipWith_laneIds_map]
  simp only [raisedBy, hlane, List.foldl_map, List.any_map, List.map_map, Raised.mk.injEq]
  refine ⟨?_, ?_, ?_⟩
  · refine congrArg (fun step => laneIds.foldl step (0 : Flags)) (funext₂ fun x l => ?_)
    cases a l <;> rfl
  · refine congrArg (List.any laneIds) (funext fun l => ?_)
    cases ha : a l <;> simp [ha]
  · refine congrArg (fun p => lanesMask (laneIds.map p)) (funext fun l => ?_)
    cases ha : a l <;> simp [laneTraps, ha]

/-! ## The two ends (R135) -/

/-- The end of a floating-point instruction whose effect is `fpFinish` of what its lanes raise and of the group `g1` with its results. -/
theorem floatEnds_of_body {i : Instr} {s : State} {c : Ctx} {body : Ctx → Eff} {g1 : Group} {a : Nat → Bool} {r : Nat → Flags}
    {sg : Nat → Bool} {done : Flags → Prop} (he : exec i s = issue i s body) (h : ReadyLanes s i c)
    (hb : body c = fpFinish s c (raisedBy c.g.fpc true (laneIds.map a) (laneIds.map r) (laneIds.map sg)) g1)
    (hd : ∀ fl, body c = .next s { g1 with fpc := fpcRaise c.g.fpc fl } → done fl) : FloatEnds i s c a r sg done := by
  intro fl hfl
  have htraps := lanesMask_eq_iff (p := laneTraps c.g.fpc a r sg)
  rw [raisedBy_lanes hfl, fpFinish] at hb
  refine ⟨fun hnone => hd fl ?_, fun ⟨l, hl, htrap⟩ hh m hm => ?_⟩
  · rw [hb, if_neg]
    refine not_not.2 ((htraps 0).2 fun l hl => ?_)
    rw [hnone l hl]
    exact BitVec.getLsbD_zero
  · have hmask := (htraps m).2 hm
    have hne : m ≠ 0 := by
      intro h0
      have hbit := (hm l hl).trans htrap
      rw [h0] at hbit
      exact Bool.false_ne_true (BitVec.getLsbD_zero.symm.trans hbit)
    simp only [hmask, if_pos hne] at hb
    exact traps_of_body he h.1 (.inr h.2) hb hh

/-- A floating-point instruction that ends with `fpResult`: `rs` are the results and flags of its lanes, `sn` the lanes that signal. -/
theorem floatEnds_of_fpResult {i : Instr} {s : State} {c : Ctx} {body : Ctx → Eff} {f : VX} {w : Nat} {r : Nat → Nat × Flags}
    {sg : Nat → Bool} {rs : List (Nat × Flags)} {sn : List Bool} (he : exec i s = issue i s body) (h : ReadyLanes s i c)
    (hb : body c = fpResult s c f w rs sn) (hr : rs = laneIds.map r) (hs : sn = laneIds.map sg) :
    FloatEnds i s c (active c f.sp) (fun l => (r l).2) sg (fun fl =>
      WritesLanes i s c f.vd.toNat w (active c f.sp) (fpcRaise c.g.fpc fl) (fun l => BitVec.ofNat 64 (r l).1)) := by
  subst hr hs
  simp only [fpResult, List.map_map] at hb
  refine floatEnds_of_body he h hb fun fl hnext => ?_
  refine writesLanes_of_body he h hnext (fun l hl => actLanes_getD c f hl) fun l hl _ => ?_
  exact laneAt_map _ hl

theorem floatOp_of_op1 {i : VX → Instr} {op : VX → Ctx → Nat → Nat × Flags}
    (he : ∀ f s, exec (i f) s = issue (i f) s (fun c => fpOp1 s c f (op f c))) :
    FloatOp i (fun f => typeBits f.ty.toNat) (fun f s c l => op f c (lane (opA s c f) l).toNat)
      (fun f s c l => signals f.ty.toNat (opA s c f) l) := by
  intro f s c h
  refine floatEnds_of_fpResult (he f s) h rfl ?_ (sigLanes_opA ..)
  conv_lhs => rw [opA_eq_map]
  exact List.map_map

theorem floatOp_of_op2 {i : VX → Instr} {op : VX → Ctx → Nat → Nat → Nat × Flags}
    (he : ∀ f s, exec (i f) s = issue (i f) s (fun c => fpOp2 s c f (op f c))) :
    FloatOp i (fun f => typeBits f.ty.toNat) (fun f s c l => op f c (lane (opA s c f) l).toNat (lane (opB s c f) l).toNat)
      (fun f s c l => signals f.ty.toNat (opA s c f) l || signals f.ty.toNat (opB s c f) l) := by
  intro f s c h
  refine floatEnds_of_fpResult (he f s) h rfl ?_ ?_
  · conv_lhs => rw [opA_eq_map, opB_eq_map]
    exact zipWith_laneIds_map ..
  · rw [sigLanes_opA, sigLanes_opB, orLanes_laneIds_map]

end Sys2Proof.Machine
end

