-- ==== Sys2Proof/Proofs/FloatArithmetic.lean ====
section

/-! # Floating-point arithmetic: exact results, rounded once (O21) -/

namespace Sys2Proof.Machine

/-! ## Sums (R149) -/

/-- (−1)^n · m. -/
def signedMag (n : Bool) (m : Nat) : Int := if n then -(m : Int) else m

/-- The sum of (−1)^na · ma · 2^ea and (−1)^nb · mb · 2^eb in units of 2 to the smaller exponent. -/
def dyadicSum (na : Bool) (ma : Nat) (ea : Int) (nb : Bool) (mb : Nat) (eb : Int) : Int :=
  signedMag na (ma * 2 ^ (ea - min ea eb).toNat) + signedMag nb (mb * 2 ^ (eb - min ea eb).toNat)

theorem addF_fin (k : FFmt) (rm : RM) (sat na : Bool) (ma : Nat) (ea : Int) (nb : Bool) (mb : Nat) (eb : Int) :
    addF k rm sat (.fin na ma ea) (.fin nb mb eb) =
      if dyadicSum na ma ea nb mb eb = 0 then (withSign k (if na = nb then na else rm == .rdn) 0, 0)
      else roundF k rm sat (decide (dyadicSum na ma ea nb mb eb < 0)) (dyadicSum na ma ea nb mb eb).natAbs (min ea eb) := by
  have hsum : addDyadic rm na ma ea nb mb eb = if dyadicSum na ma ea nb mb eb = 0 then (if na = nb then na else rm == .rdn, 0, min ea eb)
      else (decide (dyadicSum na ma ea nb mb eb < 0), (dyadicSum na ma ea nb mb eb).natAbs, min ea eb) := rfl
  rw [addF, hsum]
  split <;> rfl

/-! ## Products -/

/-- Of finite operands the product raises what its rounding raises. -/
theorem mulF_fin (k : FFmt) (rm : RM) (na : Bool) (ma : Nat) (ea : Int) (nb : Bool) (mb : Nat) (eb : Int) :
    mulF k rm (.fin na ma ea) (.fin nb mb eb) = roundF k rm false (na != nb) (ma * mb) (ea + eb) :=
  Prod.ext rfl (BitVec.zero_or)

theorem fmaF_fin (k : FFmt) (rm : RM) (na : Bool) (ma : Nat) (ea : Int) (nb : Bool) (mb : Nat) (eb : Int) (z : FVal) :
    fmaF k rm (.fin na ma ea) (.fin nb mb eb) z = addF k rm false (.fin (na != nb) (ma * mb) (ea + eb)) z :=
  Prod.ext rfl (BitVec.zero_or)

/-! ## Quotients -/

/-- A quotient's bits are those of the whole quotient, and its last bit tells whether a remainder is left. -/
theorem divF_fin {k : FFmt} {rm : RM} {na nb : Bool} {ma mb sh q : Nat} {ea eb : Int} (hmb : mb ≠ 0) (hsh : sh = k.f + 4 + bitLen mb)
    (hle : q * mb ≤ ma * 2 ^ sh) (hlt : ma * 2 ^ sh < (q + 1) * mb) :
    divF k rm (.fin na ma ea) (.fin nb mb eb) =
      roundF k rm false (na != nb) (2 * q + (if q * mb = ma * 2 ^ sh then 0 else 1)) (ea - eb - sh - 1) := by
  subst hsh
  have hq := Nat.div_eq_of_lt_le hle hlt
  have hrem : ma * 2 ^ (k.f + 4 + bitLen mb) % mb = 0 ↔ q * mb = ma * 2 ^ (k.f + 4 + bitLen mb) := by
    have hsplit := Nat.div_add_mod' (ma * 2 ^ (k.f + 4 + bitLen mb)) mb
    rw [hq] at hsplit
    omega
  simp only [divF, if_neg hmb, hq, hrem]

/-! ## Roots -/

theorem lt_two_pow_bitLen (n : Nat) : n < 2 ^ bitLen n := by
  unfold bitLen
  split
  · next h => simp [h]
  · exact Nat.lt_log2_self

/-- The loop keeps r² ≤ n < (r + 2^i)². -/
theorem isqrtGo_bounds {n i r : Nat} (hlo : r * r ≤ n) (hhi : n < (r + 2 ^ i) * (r + 2 ^ i)) :
    isqrtGo n i r * isqrtGo n i r ≤ n ∧ n < (isqrtGo n i r + 1) * (isqrtGo n i r + 1) := by
  induction i generalizing r with
  | zero => exact ⟨hlo, hhi⟩
  | succ i ih =>
    rw [isqrtGo]
    split
    · next hbit =>
      refine ih hbit ?_
      rwa [add_assoc, ← two_mul, ← pow_succ']
    · next hbit => exact ih hlo (Nat.not_le.1 hbit)

theorem isqrt_eq_sqrt (n : Nat) : isqrt n = Nat.sqrt n := by
  refine Nat.eq_sqrt.2 (isqrtGo_bounds (Nat.zero_le n) ?_)
  rw [Nat.zero_add, ← pow_add]
  exact (lt_two_pow_bitLen n).trans_le (Nat.pow_le_pow_right (by decide) (by omega))

/-- A root's bits are those of the whole root of m · 4^p at an even exponent, and its last bit tells whether a remainder is left. -/
theorem sqrtDyadic_eq {p m m' r : Nat} {ex h : Int} (hm : (m' = m ∧ ex = 2 * h) ∨ (m' = 2 * m ∧ ex = 2 * h + 1))
    (hle : r * r ≤ m' * 4 ^ p) (hlt : m' * 4 ^ p < (r + 1) * (r + 1)) :
    sqrtDyadic p m ex = (2 * r + (if r * r = m' * 4 ^ p then 0 else 1), h - p - 1) := by
  have hroot : isqrt (m' * 4 ^ p) = r := (isqrt_eq_sqrt _).trans (Nat.eq_sqrt.2 ⟨hle, hlt⟩).symm
  have hfour : 2 ^ (2 * p) = 4 ^ p := pow_mul 2 2 p
  rcases hm with ⟨rfl, rfl⟩ | ⟨rfl, rfl⟩
  · have heven : (2 * h % 2 != 0) = false := by simp
    have hhalf : 2 * h / 2 = h := by omega
    simp only [sqrtDyadic, heven, Bool.false_eq_true, if_false, hfour, hroot, hhalf]
  · have hodd : ((2 * h + 1) % 2 != 0) = true := by rw [bne_iff_ne]; omega
    have hhalf : (2 * h + 1 - 1) / 2 = h := by omega
    simp only [sqrtDyadic, hodd, if_true, hfour, hroot, hhalf]

theorem sqrtF_fin {k : FFmt} {rm : RM} {ma : Nat} {ea : Int} (h : ma ≠ 0) :
    sqrtF k rm (.fin false ma ea) = roundF k rm false false (sqrtDyadic (k.f + 4) ma ea).1 (sqrtDyadic (k.f + 4) ma ea).2 := by
  simp [sqrtF, h]

/-! ## The instructions (R149, R150, R151) -/

theorem vfma_floatOp :
    FloatOp .vfma (fun f => typeBits f.ty.toNat)
      (fun f s c l => fmaF (vxFmt f) (fpcRM c) (decodeF (vxFmt f) (lane (opA s c f) l).toNat) (decodeF (vxFmt f) (lane (opB s c f) l).toNat)
        (decodeF (vxFmt f) (lane (opC s c f) l).toNat))
      (fun f s c l => (signals f.ty.toNat (opA s c f) l || signals f.ty.toNat (opB s c f) l) || signals f.ty.toNat (opC s c f) l) := by
  intro f s c h
  refine floatEnds_of_fpResult rfl h rfl ?_ ?_
  · conv_lhs => rw [opA_eq_map, opB_eq_map, opC_eq_map, List.zip, zipWith_laneIds_map]
    exact zipWith_laneIds_map ..
  · rw [sigLanes_opA, sigLanes_opB, sigLanes_opC, orLanes_laneIds_map, orLanes_laneIds_map]

/-- Settles O21: each instruction is one of the shapes of `FloatOp`, and of finite operands each operation rounds the exact result. -/
theorem floatArithmetic : Obligations.FloatArithmetic := by
  unfold Obligations.FloatArithmetic
  intro k a b d w sigA sigAB
  refine ⟨?_, ?_, ?_, vfma_floatOp, ?_, ?_, ?_, ?_, ?_, ?_, ?_⟩
  · exact floatOp_of_op2 (op := fun f c => onVals2 (vxFmt f) (addF (vxFmt f) (fpcRM c) false)) fun _ _ => rfl
  · exact floatOp_of_op2 (op := fun f c => onVals2 (vxFmt f) (fun a b => addF (vxFmt f) (fpcRM c) false a (negF b))) fun _ _ => rfl
  · exact floatOp_of_op2 (op := fun f c => onVals2 (vxFmt f) (mulF (vxFmt f) (fpcRM c))) fun _ _ => rfl
  · exact floatOp_of_op2 (op := fun f c => onVals2 (vxFmt f) (divF (vxFmt f) (fpcRM c))) fun _ _ => rfl
  · exact floatOp_of_op1 (op := fun f c a => sqrtF (vxFmt f) (fpcRM c) (decodeF (vxFmt f) a)) fun _ _ => rfl
  · exact floatOp_of_op2 (op := fun f _ => minMaxF (vxFmt f) false) fun _ _ => rfl
  · exact floatOp_of_op2 (op := fun f _ => minMaxF (vxFmt f) true) fun _ _ => rfl
  · exact floatOp_of_op1 (op := fun f _ a => rcpaF (vxFmt f) (decodeF (vxFmt f) a)) fun _ _ => rfl
  · exact floatOp_of_op1 (op := fun f _ a => rsqaF (vxFmt f) (decodeF (vxFmt f) a)) fun _ _ => rfl
  · intro k rm na nb nc ma mb mc ea eb ec signed sum
    refine ⟨addF_fin .., mulF_fin .., (fmaF_fin ..).trans (addF_fin ..), fun sh q hmb hsh hle hlt => divF_fin hmb hsh hle hlt,
      fun m h r hma hm hle hlt => ?_⟩
    rw [sqrtF_fin hma, sqrtDyadic_eq hm hle hlt]

end Sys2Proof.Machine
end

