-- ==== Sys2Proof/Proofs/FloatRounding.lean ====
section

/-! # Rounding in each direction, invalid operations and special values (O22) -/

namespace Sys2Proof.Machine

/-! ## Rounding (R129) -/

/-- Whether m / 2^d is rounded to the next whole number above it in magnitude. -/
def roundsUp (rm : RM) (neg : Bool) (m d : Nat) : Bool :=
  match rm with
  | .rne => decide (2 ^ d < 2 * (m % 2 ^ d)) || (2 * (m % 2 ^ d) == 2 ^ d && m / 2 ^ d % 2 == 1)
  | .rtz => false
  | .rup => !neg && m % 2 ^ d != 0
  | .rdn => neg && m % 2 ^ d != 0

/-- What divides is not rounded. -/
theorem roundsUp_of_rem_zero {rm : RM} {neg : Bool} {m d : Nat} (h : m % 2 ^ d = 0) : roundsUp rm neg m d = false := by
  have hpos : 0 < 2 ^ d := by positivity
  cases rm with
  | rne => simp [roundsUp, h, hpos.ne]
  | rtz => rfl
  | rup | rdn => simp [roundsUp, h]

/-- Rounding by a quotient and a remainder. -/
theorem roundTo_eq {rm : RM} {neg : Bool} {m d : Nat} {ex q : Int} (hd : (d : Int) = q - ex) :
    roundTo rm neg m ex q = (if roundsUp rm neg m d then m / 2 ^ d + 1 else m / 2 ^ d, m % 2 ^ d != 0) := by
  have hdist : (q - ex).toNat = d := by omega
  rw [roundTo]
  split
  · next hle =>
    obtain rfl : d = 0 := by omega
    obtain rfl : q = ex := by omega
    rw [roundsUp_of_rem_zero (Nat.mod_one m)]
    simp [Nat.mod_one]
  · rw [hdist]
    cases rm <;> rfl

section
variable {neg : Bool} {m d : Nat} {ex q : Int} (hd : (d : Int) = q - ex)
include hd

theorem roundTo_inexact_iff (rm : RM) : (roundTo rm neg m ex q).2 = true ↔ ¬2 ^ d ∣ m := by
  rw [roundTo_eq hd, bne_iff_ne, ne_eq, Nat.dvd_iff_mod_eq_zero]

theorem roundTo_of_dvd (rm : RM) (h : 2 ^ d ∣ m) : (roundTo rm neg m ex q).1 * 2 ^ d = m := by
  rw [roundTo_eq hd, roundsUp_of_rem_zero (Nat.mod_eq_zero_of_dvd h)]
  exact Nat.div_mul_cancel h

theorem roundTo_rtz : (roundTo .rtz neg m ex q).1 = m / 2 ^ d := by
  rw [roundTo_eq hd]
  rfl

/-- The direction that a sign turns toward zero. -/
theorem roundTo_toward_zero {rm : RM} (h : (rm = .rup ∧ neg = true) ∨ (rm = .rdn ∧ neg = false)) :
    (roundTo rm neg m ex q).1 = m / 2 ^ d := by
  rw [roundTo_eq hd]
  rcases h with ⟨rfl, rfl⟩ | ⟨rfl, rfl⟩ <;> rfl

/-- The direction that a sign turns away from zero: the least multiple from m on. -/
theorem roundTo_away {rm : RM} (h : (rm = .rdn ∧ neg = true) ∨ (rm = .rup ∧ neg = false)) :
    m ≤ (roundTo rm neg m ex q).1 * 2 ^ d ∧ (roundTo rm neg m ex q).1 * 2 ^ d < m + 2 ^ d := by
  have hup : roundsUp rm neg m d = (m % 2 ^ d != 0) := by rcases h with ⟨rfl, rfl⟩ | ⟨rfl, rfl⟩ <;> rfl
  have hpos : 0 < 2 ^ d := by positivity
  have hrem := Nat.mod_lt m hpos
  have hsplit := Nat.div_add_mod' m (2 ^ d)
  rw [roundTo_eq hd, hup]
  by_cases hz : m % 2 ^ d = 0
  · simp only [hz, bne_self_eq_false, Bool.false_eq_true, if_false]
    omega
  · simp only [bne_iff_ne.2 hz, if_true, add_one_mul]
    omega

/-- To the nearest: no further from m than half a unit. -/
theorem roundTo_rne_near : 2 * ((roundTo .rne neg m ex q).1 * 2 ^ d) ≤ 2 * m + 2 ^ d ∧
    2 * m ≤ 2 * ((roundTo .rne neg m ex q).1 * 2 ^ d) + 2 ^ d := by
  have hrem := Nat.mod_lt m (show 0 < 2 ^ d by positivity)
  have hsplit := Nat.div_add_mod' m (2 ^ d)
  rw [roundTo_eq hd]
  cases hup : roundsUp .rne neg m d with
  | true =>
    have hhalf : 2 ^ d ≤ 2 * (m % 2 ^ d) := by
      simp only [roundsUp, Bool.or_eq_true, decide_eq_true_eq, Bool.and_eq_true, beq_iff_eq] at hup
      omega
    simp only [if_true, add_one_mul]
    omega
  | false =>
    have hhalf : 2 * (m % 2 ^ d) ≤ 2 ^ d := by
      simp only [roundsUp, Bool.or_eq_false_iff, decide_eq_false_iff_not] at hup
      omega
    simp only [Bool.false_eq_true, if_false]
    omega

/-- A tie goes to the even multiple. -/
theorem roundTo_rne_tie (h : 2 * (m % 2 ^ d) = 2 ^ d) : (roundTo .rne neg m ex q).1 % 2 = 0 := by
  have hup : roundsUp .rne neg m d = (m / 2 ^ d % 2 == 1) := by simp [roundsUp, h]
  rw [roundTo_eq hd, hup]
  rcases Nat.mod_two_eq_zero_or_one (m / 2 ^ d) with hpar | hpar
  · simp [hpar]
  · simp only [hpar, beq_self_eq_true, if_true]
    omega

end

/-! ## NaN operands (R126, R134) -/

/-- An operation with a NaN among its operands answers by whether one of them signals. -/
theorem op_of_nan {α : Type} {op : FVal → FVal → α} {answer : Bool → α} (hl : ∀ a y, op (.nan a) y = answer (a || y.isSig))
    (hr : ∀ x b, op x (.nan b) = answer (x.isSig || b)) {x y : FVal} (h : x.isNaN = true ∨ y.isNaN = true) :
    op x y = answer (x.isSig || y.isSig) := by
  cases x with
  | nan a => exact hl a y
  | inf n | fin n m e =>
    cases y with
    | nan b => exact hr _ b
    | inf | fin => simp [FVal.isNaN] at h

section
variable (k : FFmt) (rm : RM) {x y : FVal} (h : x.isNaN = true ∨ y.isNaN = true)
include h

theorem addF_nan (sat : Bool) : addF k rm sat x y = (canonNaN k, ivIf (x.isSig || y.isSig)) := by
  refine op_of_nan (answer := fun b => (canonNaN k, ivIf b)) (fun a y => ?_) (fun x b => ?_) h
  · cases y <;> simp [addF, FVal.isSig]
  · cases x <;> simp [addF, FVal.isSig]

theorem mulExact_nan : mulExact x y = (.nan false, ivIf (x.isSig || y.isSig)) := by
  refine op_of_nan (answer := fun b => (FVal.nan false, ivIf b)) (fun a y => ?_) (fun x b => ?_) h
  · cases y <;> simp [mulExact, FVal.isSig]
  · cases x <;> simp [mulExact, FVal.isSig]

theorem mulF_nan : mulF k rm x y = (canonNaN k, ivIf (x.isSig || y.isSig)) := by
  rw [mulF, mulExact_nan h]
  exact Prod.ext rfl BitVec.or_zero

theorem divF_nan : divF k rm x y = (canonNaN k, ivIf (x.isSig || y.isSig)) := by
  refine op_of_nan (answer := fun b => (canonNaN k, ivIf b)) (fun a y => ?_) (fun x b => ?_) h
  · cases y <;> simp [divF, FVal.isSig]
  · cases x <;> simp [divF, FVal.isSig]

end

/-! ## Invalid operations (R134) -/

/-- 0 × ∞ is invalid whatever is added. -/
theorem fmaF_zero_inf (k : FFmt) (rm : RM) (n p : Bool) (e : Int) (z : FVal) :
    fmaF k rm (.fin n 0 e) (.inf p) z = (canonNaN k, fIV) := by
  have hprod : mulExact (.fin n 0 e) (.inf p) = (.nan false, fIV) := rfl
  have hiv (b : Bool) : fIV ||| ivIf b = fIV := by cases b <;> decide
  rw [fmaF, hprod, addF_nan k rm (.inl rfl)]
  exact Prod.ext rfl (hiv _)

/-- x − x is a zero, of sign minus only toward −infinity. -/
theorem addF_cancel (k : FFmt) (rm : RM) (sat : Bool) (m : Nat) (e : Int) :
    addF k rm sat (.fin false m e) (.fin true m e) = (withSign k (rm == .rdn) 0, 0) := by
  rw [addF_fin, if_pos]
  · rfl
  · simp [dyadicSum, signedMag]

theorem sqrtF_negative (k : FFmt) (rm : RM) {m : Nat} (e : Int) (h : m ≠ 0) : sqrtF k rm (.fin true m e) = (canonNaN k, fIV) := by
  simp [sqrtF, h]

theorem divF_by_zero (k : FFmt) (rm : RM) (n p : Bool) {m : Nat} (e : Int) (h : m ≠ 0) :
    divF k rm (.fin n m e) (.fin p 0 e) = (infBits k (n != p), fDZ) := by
  simp [divF, h]

/-- Settles O22: rounding by quotient and remainder, NaN operands by `op_of_nan`, and the other special values case by case. -/
theorem floatRoundingAndSpecialValues : Obligations.FloatRoundingAndSpecialValues := by
  unfold Obligations.FloatRoundingAndSpecialValues
  refine ⟨?_, fun k rm x y z n p m e => ?_⟩
  · intro neg m ex q d hd n
    have hpos : 0 < 2 ^ d := by positivity
    refine ⟨roundTo_inexact_iff hd, fun rm => roundTo_of_dvd hd rm, ?_, ?_, ?_, roundTo_rne_near hd, roundTo_rne_tie hd⟩
    · simp only [n, roundTo_rtz hd]
      exact ⟨Nat.div_mul_le_self m _, mul_comm (2 ^ d) _ ▸ Nat.lt_mul_div_succ m hpos⟩
    · rintro rfl
      exact ⟨(roundTo_toward_zero hd (.inl ⟨rfl, rfl⟩)).trans (roundTo_rtz hd).symm, roundTo_away hd (.inl ⟨rfl, rfl⟩)⟩
    · rintro rfl
      exact ⟨(roundTo_toward_zero hd (.inr ⟨rfl, rfl⟩)).trans (roundTo_rtz hd).symm, roundTo_away hd (.inr ⟨rfl, rfl⟩)⟩
  · refine ⟨fun h => ?_, ?_, ?_, ?_, ?_, ?_, ?_, rfl, ?_, divF_by_zero k rm n p e, sqrtF_negative k rm e, rfl, rfl, ?_⟩
    · rw [addF_nan k rm h, mulF_nan k rm h, divF_nan k rm h]
      exact ⟨rfl, rfl, rfl, rfl, rfl, rfl⟩
    · simp [addF]
    · simp [addF]
    · simp [mulF, mulExact, packF, ivIf]
    · simp [mulF, mulExact, packF, ivIf]
    · rw [fmaF_zero_inf]
    · rw [fmaF_zero_inf]
    · rfl
    · rw [addF_cancel]

end Sys2Proof.Machine
end

