-- ==== Sys2Proof/Proofs/FloatConversions.lean ====
section

/-! # Floating-point compares, classes, rounding to integral values, conversions and slices (O23) -/

namespace Sys2Proof.Machine

/-! ## Compares (R152) -/

theorem ivIf_eq_fIV_iff (b : Bool) : ivIf b = fIV ↔ b = true := by cases b <;> decide

theorem ivIf_cases (b : Bool) : ivIf b = fIV ∨ ivIf b = 0 := by cases b <;> decide

/-- A compare raises IV for a signalling operand, and under the four signalling predicates for every NaN. -/
theorem cmpPredF_flags {n : Nat} (a b : FVal) (h : n ≤ 11) :
    (cmpPredF n a b).2 = ivIf (a.isSig || b.isSig || (decide (2 ≤ n ∧ n ≤ 5) && (a.isNaN || b.isNaN))) := by
  interval_cases n <;> simp [cmpPredF]

/-- R152: some operand is a NaN. -/
def Unordered (a b : FVal) : Prop := a.isNaN = true ∨ b.isNaN = true

/-- The predicates by number. -/
theorem cmpPredF_outcome {n : Nat} (a b : FVal) (h : n ≤ 11) :
    (cmpPredF n a b).1 = true ↔
      (n = 6 ∧ Unordered a b) ∨ (n = 7 ∧ ¬Unordered a b) ∨ (n = 1 ∧ (Unordered a b ∨ cmpF a b ≠ 0)) ∨
      (n = 0 ∧ ¬Unordered a b ∧ cmpF a b = 0) ∨
      ((n = 2 ∨ n = 8) ∧ ¬Unordered a b ∧ cmpF a b < 0) ∨ ((n = 3 ∨ n = 9) ∧ ¬Unordered a b ∧ cmpF a b ≤ 0) ∨
      ((n = 4 ∨ n = 10) ∧ ¬Unordered a b ∧ 0 < cmpF a b) ∨ ((n = 5 ∨ n = 11) ∧ ¬Unordered a b ∧ 0 ≤ cmpF a b) := by
  interval_cases n <;> simp [cmpPredF, Unordered]

/-! ## The order of values -/

/-- (−1)^n · m · 2^ex in units of 2^e. -/
def inUnits (e : Int) (n : Bool) (m : Nat) (ex : Int) : Int := (if n then -1 else 1) * (m * 2 ^ (ex - e).toNat : Nat)

/-- A finer unit scales the number of units. -/
theorem inUnits_refine {e e' ex : Int} (n : Bool) (m : Nat) (h : e ≤ e') (h' : e' ≤ ex) :
    inUnits e n m ex = signedMag n (m * 2 ^ (ex - e').toNat) * 2 ^ (e' - e).toNat := by
  have hexp : (ex - e).toNat = (ex - e').toNat + (e' - e).toNat := by omega
  rw [inUnits, hexp, pow_add, ← mul_assoc]
  cases n <;> simp [signedMag]

section
variable {na nb : Bool} {ma mb : Nat} {ea eb e : Int} (ha : e ≤ ea) (hb : e ≤ eb)
include ha hb

/-- A comparison has the sign of the difference in any unit of which both values are multiples. -/
theorem inUnits_sub : inUnits e na ma ea - inUnits e nb mb eb = cmpF (.fin na ma ea) (.fin nb mb eb) * 2 ^ (min ea eb - e).toNat := by
  rw [inUnits_refine na ma (le_min ha hb) (min_le_left ea eb), inUnits_refine nb mb (le_min ha hb) (min_le_right ea eb), ← sub_mul]
  rfl

theorem cmpF_fin_lt_iff : cmpF (.fin na ma ea) (.fin nb mb eb) < 0 ↔ inUnits e na ma ea < inUnits e nb mb eb := by
  have hpos : (0 : Int) < 2 ^ (min ea eb - e).toNat := by positivity
  rw [← sub_neg (a := inUnits ..), inUnits_sub ha hb, ← not_le, ← not_le, mul_nonneg_iff_of_pos_right hpos]

theorem cmpF_fin_eq_iff : cmpF (.fin na ma ea) (.fin nb mb eb) = 0 ↔ inUnits e na ma ea = inUnits e nb mb eb := by
  have hne : (2 : Int) ^ (min ea eb - e).toNat ≠ 0 := by positivity
  rw [← sub_eq_zero (a := inUnits ..), inUnits_sub ha hb, mul_eq_zero, or_iff_left hne]

end

/-! ## Masks and vector results -/

/-- VFCMP's mask: the outcome in the lanes of EXEC. -/
theorem maskResult_eq {c : Ctx} {f : VX} {p : Nat → Bool} {m : Mask}
    (h : ∀ l, l < 128 → m.getLsbD l = ((execMask c.g).getLsbD l && p l)) :
    maskResult c f (laneIds.map p) = setPair c.g (spOr f.sp 156) m := by
  rw [maskResult, maskLanes, zipWith_laneIds_map, (lanesMask_eq_iff m _).2 h]

theorem writeLanes_keeps_fpc (g : Group) (vd w : Nat) (act : List Bool) (r : Lanes) :
    { writeLanes g vd w act r with fpc := g.fpc } = writeLanes g vd w act r := by
  rw [writeLanes_eq]

/-- A vector instruction whose effect is a mask and FPC writes them. -/
theorem retires_pair_fpc {i : Instr} {s : State} {c : Ctx} {body : Ctx → Eff} {sd : Nat} {m : Mask} {fpc : Word}
    (he : exec i s = issue i s body) (h : ReadyLanes s i c) (hb : body c = .next s { setPair c.g sd m with fpc := fpc }) :
    Retires i s c (after i c) (fun g' => Counted { c.g with sregs := g'.sregs, fpc := fpc } g' ∧ spair g' sd = m ∧
      ∀ n, n ≠ sd → n ≠ sd + 1 → sreg g' n = sreg c.g n) := by
  refine retires_next he h.1 (.inr h.2) hb rfl rfl fun g' hg => ?_
  have hregs : g'.sregs = (setPair c.g sd m).sregs := by rw [hg]
  refine ⟨?_, ?_, fun n hn hn1 => ?_⟩
  · rw [hregs]
    exact hg
  · simp only [spair, sreg, hregs]
    exact spair_setPair_same ..
  · simp only [sreg, hregs]
    exact sreg_setPair_ne _ _ hn hn1

/-! ## Slices (R165) -/

theorem sextI_eq_toInt (x : DWord) : sextI 32 x.toNat = (x.extractLsb' 0 32).toInt := by
  rw [BitVec.toInt_eq_toNat_cond, BitVec.extractLsb'_toNat, Nat.shiftRight_zero, sextI]
  split_ifs <;> omega

/-- trunc(m · 2^x). -/
def scaledTrunc (m : Nat) (x : Int) : Nat := if 0 ≤ x then m * 2 ^ x.toNat else m / 2 ^ (-x).toNat

/-- The model's cut at 2^−64 loses nothing of a magnitude below 2^64. -/
theorem truncScaled_eq {m : Nat} (h : m < 2 ^ 64) (x : Int) : truncScaled m x = scaledTrunc m x := by
  unfold truncScaled scaledTrunc
  split
  · rfl
  · split
    · next hx =>
      refine (Nat.div_eq_of_lt (h.trans_le ?_)).symm
      exact Nat.pow_le_pow_right (by decide) (by omega)
    · rfl

/-- With all digits kept that a scale of 2^−k needs, a truncation is one division. -/
theorem scaledTrunc_eq_div (m : Nat) {x : Int} {k : Nat} (h : 0 ≤ x + k) : scaledTrunc m x = m * 2 ^ (x + k).toNat / 2 ^ k := by
  unfold scaledTrunc
  split
  · have hexp : (x + k).toNat = x.toNat + k := by omega
    rw [hexp, pow_add, ← mul_assoc, Nat.mul_div_cancel _ (by positivity)]
  · have hexp : k = (-x).toNat + (x + k).toNat := by omega
    conv_rhs => rw [hexp, pow_add]
    rw [← hexp, Nat.mul_div_mul_right _ _ (by positivity)]

/-- Seven more digits: 128 times what there was, and a digit below 128. -/
theorem scaledTrunc_seven (m : Nat) (x : Int) :
    128 * scaledTrunc m x ≤ scaledTrunc m (x + 7) ∧ scaledTrunc m (x + 7) < 128 * scaledTrunc m x + 128 := by
  have hpos : 0 < 2 ^ x.natAbs := by positivity
  have hexp : (x + 7 + x.natAbs).toNat = (x + x.natAbs).toNat + 7 := by omega
  rw [scaledTrunc_eq_div m (x := x) (k := x.natAbs) (by omega), scaledTrunc_eq_div m (x := x + 7) (k := x.natAbs) (by omega), hexp, pow_add,
    ← mul_assoc]
  generalize m * 2 ^ (x + x.natAbs).toNat = y
  generalize 2 ^ x.natAbs = p at hpos ⊢
  have hsplit := Nat.div_add_mod' y p
  have hrem := Nat.mod_lt y hpos
  rw [Nat.le_div_iff_mul_le hpos, Nat.div_lt_iff_lt_mul hpos, add_mul, mul_assoc]
  omega

/-- A decoded magnitude has at most f + 1 bits (R124). -/
theorem decodeF_mag_lt {k : FFmt} {b : Nat} {n : Bool} {m : Nat} {e : Int} (h : decodeF k b = .fin n m e) : m < 2 ^ (k.f + 1) := by
  have hfrac : b % 2 ^ k.f < 2 ^ k.f := Nat.mod_lt _ (by positivity)
  unfold decodeF at h
  rw [pow_succ]
  simp only at h
  split_ifs at h <;> (cases h; omega)

/-- The digit of weight 2^(e − 7i) in m · 2^ex (R165). -/
def sliceDigit (m : Nat) (ex e : Int) (i : Nat) : Int :=
  (scaledTrunc m (ex + 7 * i - e) : Int) - 128 * scaledTrunc m (ex + 7 * (i - 1 : Nat) - e)

/-- A slice of a finite operand whose value lies within the grid is its digit with its sign. -/
theorem sliceElem_fin {i : Nat} {a : DWord} {e : Int} {neg : Bool} {m : Nat} {ex : Int} (hi : 1 ≤ i)
    (hd : decodeF f64 a.toNat = .fin neg m ex) (hin : ¬(m ≠ 0 ∧ e < (bitLen m : Int) + ex)) :
    sliceElem i a e = (((if neg then -sliceDigit m ex e i else sliceDigit m ex e i) % 256).toNat, 0) := by
  have hm : m < 2 ^ 64 := (decodeF_mag_lt hd).trans (by decide)
  have hx : ex + 7 * (i : Int) - e = ex + 7 * (i - 1 : Nat) - e + 7 := by omega
  obtain ⟨hlo, hhi⟩ := scaledTrunc_seven m (ex + 7 * (i - 1 : Nat) - e)
  simp only [sliceElem, hd, if_neg hin, truncScaled_eq hm, sliceDigit, hx]
  refine Prod.ext ?_ rfl
  cases neg <;> simp only [Bool.false_eq_true, if_true, if_false] <;> omega

theorem sliceElem_invalid {i : Nat} {a : DWord} {e : Int} {neg : Bool} {m : Nat} {ex : Int}
    (hd : decodeF f64 a.toNat = .fin neg m ex) (hout : m ≠ 0 ∧ e < (bitLen m : Int) + ex) : sliceElem i a e = (0, fIV) := by
  simp only [sliceElem, hd, if_pos hout]

/-! ## Rounding to integral values and conversions (R132, R154, R155) -/

theorem rndF_fin {k : FFmt} {rm : RM} {exact : Bool} {b : Nat} {n : Bool} {m : Nat} {e : Int} (hd : decodeF k b = .fin n m e) :
    rndF k rm exact b = ((roundF k rm false n (roundTo rm n m e 0).1 0).1,
      if exact = true ∧ (roundTo rm n m e 0).2 = true then fNX else 0) := by
  simp only [rndF, hd, Bool.and_eq_true]

theorem convert_float_int {src dst : Nat} (rm : RM) (sat : Bool) (x : DWord) (hs : floatType src = true) (hd : floatType dst = false) :
    convert src dst rm sat x = cvtFI (fmtOf src) rm (signedType dst) (typeBits dst) x.toNat := by
  simp [convert, hs, hd]

theorem convert_float_float {src dst : Nat} (rm : RM) (sat : Bool) (x : DWord) (hs : floatType src = true) (hd : floatType dst = true) :
    convert src dst rm sat x = cvtFF (fmtOf src) (fmtOf dst) rm sat x.toNat := by
  simp [convert, hs, hd]

theorem convert_int_float {src dst : Nat} (rm : RM) (sat : Bool) (x : DWord) (hs : floatType src = false) (hd : floatType dst = true) :
    convert src dst rm sat x = roundF (fmtOf dst) rm sat (decide (elemInt src x < 0)) (elemInt src x).natAbs 0 := by
  simp [convert, cvtIF, hs, hd]

/-- An integer modulo 2^w fits a doubleword. -/
theorem elemOf_toNat (t : Nat) (x : Int) : (elemOf t x).toNat = (x % 2 ^ typeBits t).toNat := by
  have hlt : x % (2 ^ typeBits t : Nat) < (2 ^ typeBits t : Nat) := Int.emod_lt_of_pos _ (by positivity)
  have hle : 2 ^ typeBits t ≤ 2 ^ 64 := Nat.pow_le_pow_right (by decide) (typeBits_le t)
  rw [elemOf, BitVec.toNat_ofNat, Nat.mod_eq_of_lt (by omega), Nat.cast_pow, Nat.cast_ofNat]

theorem convert_int_int {src dst : Nat} (rm : RM) (sat : Bool) (x : DWord) (hs : floatType src = false) (hd : floatType dst = false) :
    convert src dst rm sat x = ((elemInt src x % 2 ^ typeBits dst).toNat, 0) := by
  simp [convert, hs, hd, elemOf_toNat]

/-! ## The instructions -/

/-- VFCMP ends as R152 and R146 say. -/
theorem vfcmp_ends {f : VX} {s : State} {c : Ctx} (h : ReadyLanes s (.vfcmp f) c) {r : Nat → Bool × Flags}
    (hr : ∀ l, r l = cmpPredF (f.md.extractLsb' 0 4).toNat (decodeF (fmtOf f.ty.toNat) (lane (opA s c f) l).toNat)
      (decodeF (fmtOf f.ty.toNat) (lane (opB s c f) l).toNat)) :
    FloatEnds (.vfcmp f) s c (execMask c.g).getLsbD (fun l => (r l).2)
      (fun l => signals f.ty.toNat (opA s c f) l || signals f.ty.toNat (opB s c f) l)
      (fun fl => ∀ m : Mask, (∀ l, l < 128 → m.getLsbD l = ((execMask c.g).getLsbD l && (r l).1)) →
        Retires (.vfcmp f) s c (after (.vfcmp f) c) (fun g' => Counted { c.g with sregs := g'.sregs, fpc := fpcRaise c.g.fpc fl } g' ∧
          spair g' (spOr f.sp 156) = m ∧ ∀ n, n ≠ spOr f.sp 156 → n ≠ spOr f.sp 156 + 1 → sreg g' n = sreg c.g n)) := by
  have hlanes : List.zipWith (fun x y => cmpPredF (bits f.md 0 4) (decodeF (vxFmt f) x.toNat) (decodeF (vxFmt f) y.toNat)) (opA s c f)
      (opB s c f) = laneIds.map r := by
    rw [opA_eq_map, opB_eq_map, zipWith_laneIds_map]
    exact List.map_congr_left fun l _ => (hr l).symm
  refine floatEnds_of_body (g1 := maskResult c f (laneIds.map fun l => (r l).1)) rfl h ?_ fun fl hnext m hm => ?_
  · simp only [hlanes, List.map_map, sigLanes_opA, sigLanes_opB, orLanes_laneIds_map]
    rfl
  · rw [maskResult_eq hm] at hnext
    exact retires_pair_fpc rfl h hnext

/-- Settles O23: the instructions by the ends of R135, then the predicates, the order, the roundings, conversions and slices they use. -/
theorem floatComparesAndConversions : Obligations.FloatComparesAndConversions := by
  unfold Obligations.FloatComparesAndConversions
  refine ⟨fun f s c h => vfcmp_ends h fun _ => rfl, fun f s c h => ?_, ?_, fun f s c h => ?_, fun f s c h => ?_,
    fun n a b hn => ?_, fun na nb ma mb ea eb e ha hb => ?_, fun k rm exact b => ?_, fun src dst rm sat x => ?_, fun i a e hi => ?_⟩
  · refine writesLanes_of_body rfl h (congrArg _ (writeLanes_keeps_fpc ..).symm) (fun l hl => actLanes_getD c f hl) fun l hl _ => ?_
    refine (laneAt_map_of_length _ _ (srcLanes_length ..) hl).trans (congrArg (fun n => BitVec.ofNat 64 (2 ^ n)) ?_)
    show classF (fmtOf f.ty.toNat) (lane (opA s c f) l).toNat = _
    rw [classF]
    cases decodeF (fmtOf f.ty.toNat) (lane (opA s c f) l).toNat with
    | nan sn => cases sn <;> rfl
    | inf n => cases n <;> rfl
    | fin => rfl
  · exact floatOp_of_op1 (op := fun f c => rndF (vxFmt f) (rmOverride c f) (f.md.getLsbD 3)) fun _ _ => rfl
  · refine floatEnds_of_fpResult rfl h rfl ?_ (sigLanes_srcLanes ..)
    conv_lhs => rw [srcLanes_eq_map]
    exact List.map_map
  · refine floatEnds_of_fpResult rfl h rfl ?_ (sigLanes_opA ..)
    conv_lhs => rw [opA_eq_map, srcLanes_eq_map, List.map_map, zipWith_laneIds_map]
    exact List.map_congr_left fun l _ => congrArg _ (sextI_eq_toInt _)
  · refine ⟨cmpPredF_outcome a b hn, ?_, ?_⟩
    · rw [cmpPredF_flags a b hn]
      exact ivIf_cases _
    · rw [cmpPredF_flags a b hn, ivIf_eq_fIV_iff]
      simp [or_assoc, and_assoc]
  · exact ⟨cmpF_fin_lt_iff ha hb, cmpF_fin_eq_iff ha hb, neg_one_lt_zero, Int.one_pos, Int.one_pos, neg_one_lt_zero, if_pos rfl,
      by decide, by decide⟩
  · cases hd : decodeF k b with
    | nan | inf => simp only [rndF, hd, ivIf]
    | fin n m e => exact rndF_fin hd
  · intro r k w hi lo
    refine ⟨fun hs hd => ?_, fun hs hd => ?_, convert_int_float rm sat x, convert_int_int rm sat x⟩
    · simp only [r, convert_float_float rm sat x hs hd, cvtFF]
      cases decodeF (fmtOf src) x.toNat <;> rfl
    · simp only [r, convert_float_int rm sat x hs hd, cvtFI, Nat.cast_pow, Nat.cast_ofNat]
      cases decodeF (fmtOf src) x.toNat <;> rfl
  · cases hd : decodeF f64 a.toNat with
    | nan | inf => simp only [sliceElem, hd]
    | fin neg m ex =>
      have hcut (j : Nat) : (if 0 ≤ ex + 7 * (j : Int) - e then m * 2 ^ (ex + 7 * (j : Int) - e).toNat
          else m / 2 ^ (e - ex - 7 * (j : Int)).toNat) = scaledTrunc m (ex + 7 * j - e) := by
        rw [scaledTrunc, show -(ex + 7 * (j : Int) - e) = e - ex - 7 * j by ring]
      simp only [hcut]
      exact ⟨sliceElem_invalid hd, sliceElem_fin hi hd⟩

end Sys2Proof.Machine
end

