-- ==== Sys2Proof/Proofs/ReductionTree.lean ====
section

/-! # The tree and the blocks of a reduction are left folds (R137) -/

namespace Sys2Proof.Machine

section
variable {α : Type} {op : α → α → α} [Std.Associative op]

theorem foldl_pairUp (z : α) : ∀ x : List α, (pairUp op x).foldl op z = x.foldl op z
  | [] => rfl
  | [_] => rfl
  | a :: b :: t => by
    rw [pairUp, List.foldl_cons, foldl_pairUp _ t, List.foldl_cons, List.foldl_cons, Std.Associative.assoc (op := op)]

omit [Std.Associative op] in
theorem length_pairUp : ∀ (n : Nat) (x : List α), x.length = 2 * n → (pairUp op x).length = n
  | 0, [], _ => rfl
  | n + 1, a :: b :: t, h => by
    rw [List.length_cons, List.length_cons] at h
    rw [pairUp, List.length_cons, length_pairUp n t (by omega)]

/-- The tree over 2^k values is their left fold. -/
theorem treeFold_cons (d : α) {k : Nat} {a : α} {t : List α} (h : (a :: t).length = 2 ^ k) :
    treeFold op d k (a :: t) = t.foldl op a := by
  induction k generalizing a t with
  | zero =>
    obtain rfl : t = [] := List.eq_nil_of_length_eq_zero (by simpa using h)
    rfl
  | succ k ih =>
    have hlen := length_pairUp (op := op) (2 ^ k) (a :: t) (by rw [h, pow_succ'])
    cases t with
    | nil =>
      have hodd : 1 = 2 * 2 ^ k := h.trans (pow_succ' ..)
      omega
    | cons b t =>
      rw [pairUp] at hlen
      rw [treeFold, pairUp, ih hlen, foldl_pairUp]
      rfl

/-- The blocks that follow a first one go on with the fold from it. -/
theorem scanBlocks_some (d : α) {k : Nat} {c : α} {x : List α} (h : x.length < 2 ^ (k + 1)) :
    scanBlocks op d k (some c) x = x.foldl op c := by
  induction k generalizing c x with
  | zero =>
    match x, h with
    | [], _ => rfl
    | [_], _ => rfl
    | _ :: _ :: _, h => simp at h
  | succ k ih =>
    rw [scanBlocks]
    split
    · next hle =>
      have hlen : (x.take (2 ^ (k + 1))).length = 2 ^ (k + 1) := by rw [List.length_take, min_eq_left hle]
      have hblock : op c (treeFold op d (k + 1) (x.take (2 ^ (k + 1)))) = (x.take (2 ^ (k + 1))).foldl op c := by
        cases htake : x.take (2 ^ (k + 1)) with
        | nil =>
          rw [htake] at hlen
          exact absurd hlen (pow_pos two_pos _).ne
        | cons a t =>
          rw [htake] at hlen
          rw [treeFold_cons d hlen, List.foldl_cons, List.foldl_assoc]
      rw [pow_succ] at h
      refine (ih (by rw [List.length_drop]; omega)).trans ?_
      simp only [hblock, ← List.foldl_append, List.take_append_drop]
    · next hlt => exact ih (Nat.not_le.1 hlt)

/-- A scan is a left fold. -/
theorem scanBlocks_none (d : α) {k : Nat} {a : α} {t : List α} (h : (a :: t).length < 2 ^ (k + 1)) :
    scanBlocks op d k none (a :: t) = t.foldl op a := by
  induction k with
  | zero =>
    obtain rfl : t = [] := by simpa using h
    rfl
  | succ k ih =>
    rw [scanBlocks]
    split
    · next hle =>
      obtain ⟨n, hn⟩ : ∃ n, 2 ^ (k + 1) = n + 1 := ⟨_, (Nat.sub_add_cancel Nat.one_le_two_pow).symm⟩
      have hlen : (a :: t.take n).length = 2 ^ (k + 1) := by
        rw [hn, List.length_cons, Nat.add_le_add_iff_right] at hle
        rw [hn, List.length_cons, List.length_take, min_eq_left hle]
      rw [pow_succ] at h
      rw [scanBlocks_some d (by rw [List.length_drop]; omega)]
      rw [hn, List.take_succ_cons, List.drop_succ_cons]
      simp only [treeFold_cons d hlen, ← List.foldl_append, List.take_append_drop]
    · next hlt => exact ih (Nat.not_le.1 hlt)

end

end Sys2Proof.Machine
end

