-- ==== Sys2Proof/Proofs/IntegerReductions.lean ====
section

/-! # Integer elements and the operations that reduce them (R121, R157)

Each operation of R157 is associative on the elements of an integer TYPE and has `redIdentity` as its unit (`ReducesInt`), and its left fold is
what `Combines` names (`Combines.eq_foldl`). -/

namespace Sys2Proof.Machine

/-! ## Elements and integers (R121) -/

/-- The least integer of a TYPE. -/
def leastInt (t : Nat) : Int := if signedType t then -(2 ^ (typeBits t - 1)) else 0
/-- The greatest integer of a TYPE. -/
def greatestInt (t : Nat) : Int := if signedType t then 2 ^ (typeBits t - 1) - 1 else 2 ^ typeBits t - 1

/-- Whether an integer lies in the range of a TYPE. -/
def InRange (t : Nat) (z : Int) : Prop := leastInt t ≤ z ∧ z ≤ greatestInt t

/-- Whether a value has no bit above TYPE's width. -/
def Fits (t : Nat) (x : DWord) : Prop := x.toNat < 2 ^ typeBits t

theorem two_pow_typeBits (t : Nat) : 2 ^ typeBits t = 2 * 2 ^ (typeBits t - 1) := by
  rw [← pow_succ', Nat.sub_add_cancel (typeBits_pos t)]

theorem cast_two_pow (n : Nat) : ((2 ^ n : Nat) : Int) = 2 ^ n := by simp

theorem elemInt_range (t : Nat) (x : DWord) : InRange t (elemInt t x) := by
  have hw := two_pow_typeBits t
  have hlt := Nat.mod_lt x.toNat (show 0 < 2 ^ typeBits t by positivity)
  unfold InRange leastInt greatestInt elemInt
  rw [← cast_two_pow, ← cast_two_pow]
  split
  · rw [sextI]
    split_ifs <;> omega
  · omega

theorem greatestInt_sub_leastInt (t : Nat) : greatestInt t - leastInt t < (2 ^ typeBits t : Nat) := by
  have hw := two_pow_typeBits t
  unfold leastInt greatestInt
  rw [← cast_two_pow, ← cast_two_pow]
  split <;> omega

/-- The integer of an element agrees with its bits modulo 2^w. -/
theorem elemInt_modEq (t : Nat) (x : DWord) : elemInt t x ≡ x.toNat [ZMOD (2 ^ typeBits t : Nat)] := by
  have hmod : ((x.toNat % 2 ^ typeBits t : Nat) : Int) ≡ x.toNat [ZMOD (2 ^ typeBits t : Nat)] := by
    rw [Int.natCast_mod]
    exact Int.mod_modEq ..
  unfold elemInt
  split
  · rw [sextI]
    split
    · exact (Int.modEq_sub_modulus_iff.2 hmod.symm).symm
    · exact hmod
  · exact hmod

theorem elemOf_toNat_modEq (t : Nat) (z : Int) : ((elemOf t z).toNat : Int) ≡ z [ZMOD (2 ^ typeBits t : Nat)] := by
  rw [elemOf_toNat, Int.toNat_of_nonneg (Int.emod_nonneg _ (by positivity)), Nat.cast_pow, Nat.cast_ofNat]
  exact Int.mod_modEq ..

theorem elemInt_elemOf_modEq (t : Nat) (z : Int) : elemInt t (elemOf t z) ≡ z [ZMOD (2 ^ typeBits t : Nat)] :=
  (elemInt_modEq t _).trans (elemOf_toNat_modEq t z)

theorem elemOf_congr {t : Nat} {x y : Int} (h : x ≡ y [ZMOD (2 ^ typeBits t : Nat)]) : elemOf t x = elemOf t y :=
  congrArg (fun n : Int => BitVec.ofNat 64 n.toNat) h

/-- An integer of TYPE's range is kept. -/
theorem elemInt_elemOf {t : Nat} {z : Int} (h : InRange t z) : elemInt t (elemOf t z) = z := by
  obtain ⟨hzlo, hzhi⟩ := h
  obtain ⟨hlo, hhi⟩ := elemInt_range t (elemOf t z)
  have hspan := greatestInt_sub_leastInt t
  refine (sub_eq_zero.1 (Int.eq_zero_of_abs_lt_dvd (elemInt_elemOf_modEq t z).dvd ?_)).symm
  rw [abs_lt]
  omega

theorem fits_elemOf (t : Nat) (z : Int) : Fits t (elemOf t z) := by
  have hlt : z % (2 ^ typeBits t : Nat) < (2 ^ typeBits t : Nat) := Int.emod_lt_of_pos _ (by positivity)
  rw [Fits, elemOf, BitVec.toNat_ofNat]
  exact (Nat.mod_le ..).trans_lt (by omega)

/-- An element is the one of its integer. -/
theorem elemOf_elemInt {t : Nat} {x : DWord} (h : Fits t x) : elemOf t (elemInt t x) = x := by
  rw [elemOf_congr (elemInt_modEq t x), elemOf, ← Int.natCast_mod, Int.toNat_natCast, Nat.mod_eq_of_lt h, BitVec.ofNat_toNat,
    BitVec.setWidth_eq]

theorem fits_lowBits (t : Nat) (x : DWord) : Fits t (lowBits (typeBits t) x) := by
  rw [Fits, lowBits, BitVec.toNat_ofNat]
  exact (Nat.mod_le ..).trans_lt (Nat.mod_lt _ (by positivity))

theorem fits_zero (t : Nat) : Fits t 0 := show 0 < 2 ^ typeBits t by positivity

theorem fits_ite {t : Nat} {p : Prop} [Decidable p] {x y : DWord} (hx : Fits t x) (hy : Fits t y) : Fits t (if p then x else y) := by
  split
  · exact hx
  · exact hy

theorem fits_inlineConst {t : Nat} (idx : Nat) (h : floatType t = false) : Fits t (inlineConst t idx) := by
  unfold inlineConst
  simp only [h, Bool.false_eq_true, if_false]
  repeat' apply fits_ite
  all_goals exact fits_elemOf t _

/-- A lane of an operand has no bit above the width of an integer TYPE (R71). -/
theorem fits_lane {s : State} {c : Ctx} {lit : Lit} {idx t l : Nat} (hf : floatType t = false) (hl : l < 128) :
    Fits t (lane (srcLanes s c lit idx t) l) := by
  by_cases hreg : idx < 384
  · by_cases hw : typeBits t = 64
    · rw [Fits, hw]
      exact BitVec.isLt _
    · rw [lane_reg hl hreg hw, ← lowBits_setWidth]
      exact fits_lowBits ..
  · by_cases hs : 464 ≤ idx ∧ idx ≤ 476
    · rw [lane_special hl hs.1 hs.2, ← lowBits_ofNat (typeBits_le t)]
      exact fits_lowBits ..
    · rw [lane_uniform hl (Nat.not_lt.1 hreg) hs, uniformVal]
      split_ifs
      · exact fits_lowBits ..
      · exact fits_zero t
      · exact fits_inlineConst _ hf
      · exact fits_lowBits ..

/-! ## The integer operations of R157 -/

/-- An operation on elements of TYPE `t` that folds: associative, with a unit. -/
structure ReducesInt (t : Nat) (node : DWord → DWord → DWord) (one : DWord) : Prop where
  assoc : ∀ x y z, node (node x y) z = node x (node y z)
  fits : ∀ x y, Fits t x → Fits t y → Fits t (node x y)
  one_fits : Fits t one
  one_node : ∀ x, Fits t x → node one x = x
  node_one : ∀ x, Fits t x → node x one = x

/-- Addition modulo 2^w. -/
theorem reducesInt_add (t : Nat) : ReducesInt t (fun x y => elemOf t (elemInt t x + elemInt t y)) 0 := by
  have hzero : elemInt t 0 = 0 := by simp [elemInt, sextI]
  refine ⟨fun x y z => elemOf_congr ?_, fun _ _ _ _ => fits_elemOf .., fits_zero t, fun x hx => ?_, fun x hx => ?_⟩
  · calc elemInt t (elemOf t (elemInt t x + elemInt t y)) + elemInt t z
        ≡ elemInt t x + elemInt t y + elemInt t z [ZMOD (2 ^ typeBits t : Nat)] := (elemInt_elemOf_modEq ..).add_right _
      _ = elemInt t x + (elemInt t y + elemInt t z) := add_assoc ..
      _ ≡ elemInt t x + elemInt t (elemOf t (elemInt t y + elemInt t z)) [ZMOD (2 ^ typeBits t : Nat)] :=
        (elemInt_elemOf_modEq ..).symm.add_left _
  · rw [hzero, zero_add, elemOf_elemInt hx]
  · rw [hzero, add_zero, elemOf_elemInt hx]

/-- An associative operation on integers that keeps TYPE's range, with a unit `one` there. -/
structure KeepsRange (t : Nat) (g : Int → Int → Int) (one : Int) : Prop where
  assoc : ∀ x y z, g (g x y) z = g x (g y z)
  range : ∀ x y, InRange t x → InRange t y → InRange t (g x y)
  one_range : InRange t one
  one_op : ∀ x, InRange t x → g one x = x
  op_one : ∀ x, InRange t x → g x one = x

theorem leastInt_le_greatestInt (t : Nat) : leastInt t ≤ greatestInt t :=
  (elemInt_range t 0).1.trans (elemInt_range t 0).2

theorem keepsRange_min (t : Nat) : KeepsRange t min (greatestInt t) :=
  ⟨min_assoc, fun _ _ hx hy => ⟨le_min hx.1 hy.1, min_le_of_left_le hx.2⟩, ⟨leastInt_le_greatestInt t, le_rfl⟩,
    fun _ hx => min_eq_right hx.2, fun _ hx => min_eq_left hx.2⟩

theorem keepsRange_max (t : Nat) : KeepsRange t max (leastInt t) :=
  ⟨max_assoc, fun _ _ hx hy => ⟨le_max_of_le_left hx.1, max_le hx.2 hy.2⟩, ⟨le_rfl, leastInt_le_greatestInt t⟩,
    fun _ hx => max_eq_right hx.1, fun _ hx => max_eq_left hx.1⟩

theorem KeepsRange.reducesInt {t : Nat} {g : Int → Int → Int} {one : Int} (h : KeepsRange t g one) :
    ReducesInt t (fun x y => elemOf t (g (elemInt t x) (elemInt t y))) (elemOf t one) := by
  have hkeep (x y : DWord) := elemInt_elemOf (h.range _ _ (elemInt_range t x) (elemInt_range t y))
  refine ⟨fun x y z => ?_, fun _ _ _ _ => fits_elemOf .., fits_elemOf .., fun x hx => ?_, fun x hx => ?_⟩
  · rw [hkeep, hkeep, h.assoc]
  · rw [elemInt_elemOf h.one_range, h.one_op _ (elemInt_range t x), elemOf_elemInt hx]
  · rw [elemInt_elemOf h.one_range, h.op_one _ (elemInt_range t x), elemOf_elemInt hx]

theorem reducesInt_and (t : Nat) : ReducesInt t (fun x y => x &&& y) (BitVec.ofNat 64 (2 ^ typeBits t - 1)) := by
  have hpos : 0 < 2 ^ typeBits t := by positivity
  have hle : 2 ^ typeBits t ≤ 2 ^ 64 := Nat.pow_le_pow_right (by decide) (typeBits_le t)
  have hones : (BitVec.ofNat 64 (2 ^ typeBits t - 1)).toNat = 2 ^ typeBits t - 1 := by
    rw [BitVec.toNat_ofNat, Nat.mod_eq_of_lt (by omega)]
  have hunit (x : DWord) (hx : Fits t x) : x &&& BitVec.ofNat 64 (2 ^ typeBits t - 1) = x := by
    apply BitVec.eq_of_toNat_eq
    rw [BitVec.toNat_and, hones, Nat.and_two_pow_sub_one_eq_mod, Nat.mod_eq_of_lt hx]
  refine ⟨BitVec.and_assoc, fun x y _ hy => ?_, ?_, fun x hx => ?_, hunit⟩
  · rw [Fits, BitVec.toNat_and]
    exact Nat.and_lt_two_pow _ hy
  · rw [Fits, hones]
    omega
  · rw [BitVec.and_comm]
    exact hunit x hx

theorem reducesInt_or (t : Nat) : ReducesInt t (fun x y => x ||| y) 0 := by
  refine ⟨BitVec.or_assoc, fun x y hx hy => ?_, fits_zero t, fun _ _ => BitVec.zero_or, fun _ _ => BitVec.or_zero⟩
  rw [Fits, BitVec.toNat_or]
  exact Nat.or_lt_two_pow hx hy

theorem reducesInt_xor (t : Nat) : ReducesInt t (fun x y => x ^^^ y) 0 := by
  refine ⟨BitVec.xor_assoc, fun x y hx hy => ?_, fits_zero t, fun _ _ => BitVec.zero_xor, fun _ _ => BitVec.xor_zero⟩
  rw [Fits, BitVec.toNat_xor]
  exact Nat.xor_lt_two_pow hx hy

/-! ## The nodes of an integer TYPE -/

/-- The value of a node under an integer TYPE. -/
def intNode (op t : Nat) (x y : DWord) : DWord := (redNode .rne op t (x, 0) (y, 0)).1

/-- A node under an integer TYPE raises nothing, and no rounding mode matters to it. -/
theorem redNode_int {t : Nat} (h : floatType t = false) (rm : RM) (op : Nat) (a b : DWord × Flags) :
    redNode rm op t a b = (intNode op t a.1 b.1, 0) := by
  simp [redNode, intNode, h]

section
variable {t : Nat} (h : floatType t = false)
include h

theorem intNode_add : intNode 0 t = fun x y => elemOf t (elemInt t x + elemInt t y) := funext₂ fun x y => by simp [intNode, redNode, h]
theorem intNode_min : intNode 1 t = fun x y => elemOf t (min (elemInt t x) (elemInt t y)) := funext₂ fun x y => by simp [intNode, redNode, h]
theorem intNode_max : intNode 2 t = fun x y => elemOf t (max (elemInt t x) (elemInt t y)) := funext₂ fun x y => by simp [intNode, redNode, h]
theorem intNode_and : intNode 3 t = fun x y => x &&& y := funext₂ fun x y => by simp [intNode, redNode, h]
theorem intNode_or : intNode 4 t = fun x y => x ||| y := funext₂ fun x y => by simp [intNode, redNode, h]
theorem intNode_xor : intNode 5 t = fun x y => x ^^^ y := funext₂ fun x y => by simp [intNode, redNode, h]

theorem redIdentity_zero {op : Nat} (hop : op = 0 ∨ op = 4 ∨ op = 5) : redIdentity op t = 0 := by
  rcases hop with rfl | rfl | rfl <;> simp [redIdentity, h]

theorem redIdentity_min : redIdentity 1 t = elemOf t (greatestInt t) := by simp [redIdentity, h, greatestInt]

theorem redIdentity_max : redIdentity 2 t = elemOf t (leastInt t) := by
  simp only [redIdentity, h, leastInt, Bool.false_eq_true, if_false, OfNat.ofNat_ne_zero, OfNat.ofNat_ne_one, if_true]
  refine elemOf_congr (Int.modEq_iff_dvd.2 ?_)
  have hw := two_pow_typeBits t
  split
  · refine ⟨-1, ?_⟩
    rw [← cast_two_pow]
    omega
  · exact ⟨0, by omega⟩

theorem redIdentity_and : redIdentity 3 t = BitVec.ofNat 64 (2 ^ typeBits t - 1) := by
  have hpos : 0 < 2 ^ typeBits t := by positivity
  have hneg : (-1 % (2 ^ typeBits t : Nat) : Int) = (2 ^ typeBits t - 1 : Nat) := by
    rw [← Int.add_emod_right, Int.emod_eq_of_lt] <;> omega
  simp only [redIdentity, h, elemOf, hneg]
  rfl

end

/-! ## What `Combines` names is the fold of the nodes -/

/-- Elements folded are the element of the integers folded, where a step on an element is a step on its integer. -/
theorem foldl_elemOf {t : Nat} {g : Int → Int → Int} {R : Int → Prop}
    (hstep : ∀ z x, R z → elemOf t (g (elemInt t (elemOf t z)) (elemInt t x)) = elemOf t (g z (elemInt t x)) ∧ R (g z (elemInt t x)))
    (xs : List DWord) {z : Int} (hz : R z) :
    xs.foldl (fun x y => elemOf t (g (elemInt t x) (elemInt t y))) (elemOf t z) = elemOf t ((xs.map (elemInt t)).foldl g z) := by
  induction xs generalizing z with
  | nil => rfl
  | cons x xs ih =>
    obtain ⟨heq, hR⟩ := hstep z x hz
    rw [List.foldl_cons, heq, ih hR]
    rfl

theorem foldl_elemOf_add (t : Nat) (xs : List DWord) :
    xs.foldl (fun x y => elemOf t (elemInt t x + elemInt t y)) 0 = elemOf t ((xs.map (elemInt t)).foldl (fun x y => x + y) 0) := by
  have hzero : elemOf t 0 = 0 := by simp [elemOf]
  rw [← hzero]
  exact foldl_elemOf (R := fun _ => True) (fun z x _ => ⟨elemOf_congr ((elemInt_elemOf_modEq t z).add_right _), trivial⟩) xs trivial

theorem KeepsRange.foldl_elemOf {t : Nat} {g : Int → Int → Int} {one : Int} (h : KeepsRange t g one) (xs : List DWord) :
    xs.foldl (fun x y => elemOf t (g (elemInt t x) (elemInt t y))) (elemOf t one) = elemOf t ((xs.map (elemInt t)).foldl g one) :=
  Machine.foldl_elemOf (R := InRange t)
    (fun z x hz => ⟨by rw [elemInt_elemOf hz], h.range _ _ hz (elemInt_range t x)⟩) xs h.one_range

/-- A reduction's operation folds, and the value `Combines` names is the fold over the active lanes picked, from the unit. -/
theorem Combines.eq_foldl {c : Ctx} {f : VX} {s : State} {p : Nat → Bool} {r : DWord} (hf : floatType f.ty.toNat = false)
    (h : Combines c f s p r) :
    ReducesInt f.ty.toNat (intNode (bits f.md 0 3) f.ty.toNat) (redIdentity (bits f.md 0 3) f.ty.toNat) ∧
    r = (((List.range 128).filter (fun l => active c f.sp l && p l)).map (lane (opA s c f))).foldl
      (intNode (bits f.md 0 3) f.ty.toNat) (redIdentity (bits f.md 0 3) f.ty.toNat) := by
  unfold Combines at h
  simp only [bits]
  have hints (ls : List Nat) : ls.map (fun l => laneInt f.ty.toNat (opA s c f) l) = (ls.map (lane (opA s c f))).map (elemInt f.ty.toNat) :=
    List.map_map.symm
  rcases h with ⟨hop, rfl⟩ | ⟨hop, rfl⟩ | ⟨hop, rfl⟩ | ⟨hop, rfl⟩ | ⟨hop, rfl⟩ | ⟨hop, rfl⟩
  · rw [hop, intNode_add hf, redIdentity_zero hf (.inl rfl), foldl_elemOf_add, hints]
    exact ⟨reducesInt_add _, rfl⟩
  · rw [hop, intNode_min hf, redIdentity_min hf, (keepsRange_min _).foldl_elemOf, hints]
    exact ⟨(keepsRange_min _).reducesInt, rfl⟩
  · rw [hop, intNode_max hf, redIdentity_max hf, (keepsRange_max _).foldl_elemOf, hints]
    exact ⟨(keepsRange_max _).reducesInt, rfl⟩
  · rw [hop, intNode_and hf, redIdentity_and hf]
    exact ⟨reducesInt_and _, rfl⟩
  · rw [hop, intNode_or hf, redIdentity_zero hf (.inr (.inl rfl))]
    exact ⟨reducesInt_or _, rfl⟩
  · rw [hop, intNode_xor hf, redIdentity_zero hf (.inr (.inr rfl))]
    exact ⟨reducesInt_xor _, rfl⟩

end Sys2Proof.Machine
end

