-- ==== Sys2Proof/Proofs/Reductions.lean ====
section

/-! # Reductions, scans and VRAND (O24)

Under an integer TYPE a lane that is not active contributes the unit, which leaves the fold of the lanes as it is. -/

namespace Sys2Proof.Machine

/-! ## Reductions and scans of an integer TYPE (R157) -/

/-- A lane that is not active leaves the fold as it is. -/
theorem ReducesInt.foldl_active {t : Nat} {node : DWord → DWord → DWord} {one : DWord} (h : ReducesInt t node one) (a : Nat → Bool)
    (v : Nat → DWord) (ls : List Nat) (hv : ∀ l ∈ ls, Fits t (v l)) {z : DWord} (hz : Fits t z) :
    (ls.map (fun l => if a l then v l else one)).foldl node z = ((ls.filter a).map v).foldl node z := by
  induction ls generalizing z with
  | nil => rfl
  | cons l ls ih =>
    have hl := hv l List.mem_cons_self
    have hls : ∀ j ∈ ls, Fits t (v j) := fun j hj => hv j (List.mem_cons_of_mem _ hj)
    cases ha : a l with
    | true => simp only [List.map_cons, List.foldl_cons, List.filter_cons, ha, if_true, ih hls (h.fits z _ hz hl)]
    | false => simp only [List.map_cons, List.foldl_cons, List.filter_cons, ha, Bool.false_eq_true, if_false, h.node_one z hz, ih hls hz]

section
variable {t op : Nat} (hf : floatType t = false) (h : ReducesInt t (intNode op t) (redIdentity op t))
include hf

/-- Nodes folded: the values fold, and no flag is raised. -/
theorem foldl_redNode_int (rm : RM) (xs : List DWord) (z : DWord) :
    (xs.map (fun x => (x, (0 : Flags)))).foldl (redNode rm op t) (z, 0) = (xs.foldl (intNode op t) z, 0) := by
  induction xs generalizing z with
  | nil => rfl
  | cons x xs ih => rw [List.map_cons, List.foldl_cons, redNode_int hf, ih, List.foldl_cons]

include h

theorem assoc_redNode_int (rm : RM) : Std.Associative (redNode rm op t) :=
  ⟨fun a b c => by simp only [redNode_int hf, h.assoc]⟩

/-- A fold from the first of some values is one from the unit. -/
theorem foldl_redNode_cons (rm : RM) {x : DWord} (xs : List DWord) (hx : Fits t x) :
    (xs.map (fun x => (x, (0 : Flags)))).foldl (redNode rm op t) (x, 0) = ((x :: xs).foldl (intNode op t) (redIdentity op t), 0) := by
  rw [foldl_redNode_int hf, List.foldl_cons, h.one_node x hx]

theorem treeFold_int (rm : RM) (d : DWord × Flags) {k : Nat} (xs : List DWord) (hlen : xs.length = 2 ^ k) (hx : ∀ x ∈ xs, Fits t x) :
    treeFold (redNode rm op t) d k (xs.map (fun x => (x, 0))) = (xs.foldl (intNode op t) (redIdentity op t), 0) := by
  have hassoc := assoc_redNode_int hf h rm
  cases xs with
  | nil => exact absurd hlen (pow_pos two_pos _).ne
  | cons x xs =>
    rw [List.map_cons, treeFold_cons d (by simpa using hlen)]
    exact foldl_redNode_cons hf h rm xs (hx x List.mem_cons_self)

theorem scanBlocks_int (rm : RM) (d : DWord × Flags) {k : Nat} (xs : List DWord) (hne : xs ≠ []) (hlen : xs.length < 2 ^ (k + 1))
    (hx : ∀ x ∈ xs, Fits t x) :
    scanBlocks (redNode rm op t) d k none (xs.map (fun x => (x, 0))) = (xs.foldl (intNode op t) (redIdentity op t), 0) := by
  have hassoc := assoc_redNode_int hf h rm
  cases xs with
  | nil => exact absurd rfl hne
  | cons x xs =>
    rw [List.map_cons, scanBlocks_none d (by simpa using hlen)]
    exact foldl_redNode_cons hf h rm xs (hx x List.mem_cons_self)

end

/-- What a lane contributes: its element when active, the unit otherwise. -/
def contribution (s : State) (c : Ctx) (f : VX) (op l : Nat) : DWord :=
  if active c f.sp l then lane (opA s c f) l else redIdentity op f.ty.toNat

theorem redInputs_eq_map (s : State) (c : Ctx) (f : VX) (op : Nat) :
    redInputs s c f op = (laneIds.map (contribution s c f op)).map (fun x => (x, 0)) := by
  rw [redInputs, opA_eq_map, List.map_map]
  exact zipWith_laneIds_map ..

theorem take_laneIds {n : Nat} (h : n ≤ 128) : laneIds.take n = List.range n := by
  rw [laneIds, List.take_range, Config.lanes, min_eq_left h]

theorem take_redInputs (s : State) (c : Ctx) (f : VX) (op : Nat) {n : Nat} (h : n ≤ 128) :
    (redInputs s c f op).take n = ((List.range n).map (contribution s c f op)).map (fun x => (x, 0)) := by
  rw [redInputs_eq_map, ← List.map_take, ← List.map_take, take_laneIds h]

theorem filter_range_lt (a : Nat → Bool) {n m : Nat} (h : n ≤ m) :
    (List.range m).filter (fun l => a l && decide (l < n)) = (List.range n).filter a := by
  rw [← List.filter_filter, ← List.Ico.zero_bot, List.Ico.filter_lt, min_eq_right h, List.Ico.zero_bot]

section
variable {s : State} {c : Ctx} {f : VX} {op : Nat} (hf : floatType f.ty.toNat = false)
  (h : ReducesInt f.ty.toNat (intNode op f.ty.toNat) (redIdentity op f.ty.toNat))
include hf h

theorem fits_contribution {l : Nat} (hl : l < 128) : Fits f.ty.toNat (contribution s c f op l) :=
  fits_ite (fits_lane hf hl) h.one_fits

/-- What the first `n` lanes contribute folds as the active ones among them do. -/
theorem foldl_contribution {n : Nat} (hn : n ≤ 128) :
    ((List.range n).map (contribution s c f op)).foldl (intNode op f.ty.toNat) (redIdentity op f.ty.toNat) =
      (((List.range 128).filter (fun l => active c f.sp l && decide (l < n))).map (lane (opA s c f))).foldl (intNode op f.ty.toNat)
        (redIdentity op f.ty.toNat) := by
  rw [filter_range_lt _ hn]
  exact h.foldl_active _ _ _ (fun l hl => fits_lane hf (by have := List.mem_range.1 hl; omega)) h.one_fits

theorem fits_contributions {n : Nat} (hn : n ≤ 128) : ∀ x ∈ (List.range n).map (contribution s c f op), Fits f.ty.toNat x := by
  intro x hx
  obtain ⟨l, hl, rfl⟩ := List.mem_map.1 hx
  exact fits_contribution hf h (by have := List.mem_range.1 hl; omega)

/-- The tree over all lanes (R137). -/
theorem treeFold_redInputs (rm : RM) (d : DWord × Flags) :
    treeFold (redNode rm op f.ty.toNat) d 7 (redInputs s c f op) =
      ((((List.range 128).filter (fun l => active c f.sp l && true)).map (lane (opA s c f))).foldl (intNode op f.ty.toNat)
        (redIdentity op f.ty.toNat), 0) := by
  have hall := filter_range_lt (active c f.sp) (le_refl 128)
  have hfold := foldl_contribution hf h (s := s) (c := c) (le_refl 128)
  rw [redInputs_eq_map, laneIds, Config.lanes, treeFold_int hf h rm d _ (by simp) (fits_contributions hf h le_rfl), hfold, hall]
  simp only [Bool.and_true]

/-- A scan of the first `n` lanes (R137). -/
theorem scanBlocks_redInputs (rm : RM) (d : DWord × Flags) {n : Nat} (h0 : n ≠ 0) (hn : n ≤ 128) :
    scanBlocks (redNode rm op f.ty.toNat) d 7 none ((redInputs s c f op).take n) =
      ((((List.range 128).filter (fun l => active c f.sp l && decide (l < n))).map (lane (opA s c f))).foldl (intNode op f.ty.toNat)
        (redIdentity op f.ty.toNat), 0) := by
  rw [take_redInputs s c f op hn, ← foldl_contribution hf h hn]
  refine scanBlocks_int hf h rm d _ (by simpa using h0) ?_ (fits_contributions hf h hn)
  rw [List.length_map, List.length_range]
  omega

end

/-! ## VRED and VSCAN -/

/-- The value and flags of a lane of VSCAN. -/
def scanLane (s : State) (c : Ctx) (f : VX) (l : Nat) : DWord × Flags :=
  let n := if f.md.getLsbD 3 then l else l + 1
  if n = 0 then (redIdentity (bits f.md 0 3) f.ty.toNat, 0)
  else scanOut f.ty.toNat (scanBlocks (redNode (fpcRM c) (bits f.md 0 3) f.ty.toNat) (0, 0) 7 none ((redInputs s c f (bits f.md 0 3)).take n))

/-- The value and flags of every lane of VRED. -/
def redLane (s : State) (c : Ctx) (f : VX) : DWord × Flags :=
  treeFold (redNode (fpcRM c) (bits f.md 0 3) f.ty.toNat) (0, 0) 7 (redInputs s c f (bits f.md 0 3))

/-- An instruction that ends with `redResult`. -/
theorem floatEnds_of_redResult {i : Instr} {s : State} {c : Ctx} {body : Ctx → Eff} {f : VX} {r : Nat → DWord × Flags}
    (he : exec i s = issue i s body) (h : ReadyLanes s i c) (hb : body c = redResult s c f (laneIds.map r)) :
    FloatEnds i s c (active c f.sp) (fun l => (r l).2) (signals f.ty.toNat (opA s c f)) (fun fl =>
      WritesLanes i s c f.vd.toNat (typeBits f.ty.toNat) (active c f.sp) (fpcRaise c.g.fpc fl) (fun l => (r l).1)) := by
  have hends := floatEnds_of_fpResult (r := fun l => ((r l).1.toNat, (r l).2)) he h hb List.map_map (sigLanes_opA ..)
  simpa only [BitVec.ofNat_toNat, BitVec.setWidth_eq] using hends

theorem vred_ends {s : State} {c : Ctx} {f : VX} (h : ReadyLanes s (.vred f) c) :
    FloatEnds (.vred f) s c (active c f.sp) (fun _ => (redLane s c f).2) (signals f.ty.toNat (opA s c f)) (fun fl =>
      WritesLanes (.vred f) s c f.vd.toNat (typeBits f.ty.toNat) (active c f.sp) (fpcRaise c.g.fpc fl) (fun _ => (redLane s c f).1)) := by
  refine floatEnds_of_redResult (r := fun _ => redLane s c f) rfl h ?_
  rw [List.map_const', laneIds_length]
  rfl

theorem vscan_ends {s : State} {c : Ctx} {f : VX} (h : ReadyLanes s (.vscan f) c) :
    FloatEnds (.vscan f) s c (active c f.sp) (fun l => (scanLane s c f l).2) (signals f.ty.toNat (opA s c f)) (fun fl =>
      WritesLanes (.vscan f) s c f.vd.toNat (typeBits f.ty.toNat) (active c f.sp) (fpcRaise c.g.fpc fl) (fun l => (scanLane s c f l).1)) :=
  floatEnds_of_redResult rfl h rfl

theorem fpcRaise_zero (fpc : Word) : fpcRaise fpc 0 = fpc := by
  have hnone : (rev5 0).setWidth 32 <<< 2 = (0 : Word) := by decide
  rw [fpcRaise, hnone]
  exact BitVec.or_zero

theorem WritesLanes.congr {i : Instr} {s : State} {c : Ctx} {vd w : Nat} {a : Nat → Bool} {fpc : Word} {r v : Nat → DWord}
    (h : WritesLanes i s c vd w a fpc r) (hr : ∀ l, l < 128 → r l = v l) : WritesLanes i s c vd w a fpc v := by
  obtain ⟨t, g', hexec, hout, hgroup, hpc, hcounted, hlanes⟩ := h
  exact ⟨t, g', hexec, hout, hgroup, hpc, hcounted, hlanes.congr (fun _ _ => rfl) fun l hl _ => hr l hl⟩

/-- An instruction that ends so retires where no lane raises a flag, under an integer TYPE, where nothing signals. -/
theorem writesLanes_of_int {i : Instr} {s : State} {c : Ctx} {t vd w : Nat} {x : Lanes} {a : Nat → Bool} {r : Nat → DWord × Flags}
    {v : Nat → DWord} (hf : floatType t = false) (hr : ∀ l, l < 128 → r l = (v l, 0))
    (h : FloatEnds i s c a (fun l => (r l).2) (signals t x) (fun fl => WritesLanes i s c vd w a (fpcRaise c.g.fpc fl) (fun l => (r l).1))) :
    WritesLanes i s c vd w a c.g.fpc v := by
  have hflags : FlagsOf a (fun l => (r l).2) 0 := by
    intro j _
    refine BitVec.getLsbD_zero.trans (List.any_eq_false.2 fun l hl => ?_).symm
    have hl' : l < 128 := by simpa [laneIds, Config.lanes] using hl
    simp [hr l hl']
  have hquiet (l : Nat) (hl : l < 128) : laneTraps c.g.fpc a (fun l => (r l).2) (signals t x) l = false := by
    simp [laneTraps, signals, hf, hr l hl]
  have hwrites := (h 0 hflags).1 hquiet
  simp only [fpcRaise_zero] at hwrites
  exact hwrites.congr fun l hl => congrArg Prod.fst (hr l hl)

theorem vred_int {s : State} {c : Ctx} {f : VX} (h : ReadyLanes s (.vred f) c) (hf : floatType f.ty.toNat = false) {r : DWord}
    (hr : Combines c f s (fun _ => true) r) :
    WritesLanes (.vred f) s c f.vd.toNat (typeBits f.ty.toNat) (active c f.sp) c.g.fpc (fun _ => r) := by
  obtain ⟨hred, rfl⟩ := hr.eq_foldl hf
  exact writesLanes_of_int hf (fun _ _ => treeFold_redInputs hf hred _ _) (vred_ends h)

/-- The lanes of VSCAN under an integer TYPE: a fold of no lane is the unit. -/
theorem scanLane_int {s : State} {c : Ctx} {f : VX} (hf : floatType f.ty.toNat = false)
    (h : ReducesInt f.ty.toNat (intNode (bits f.md 0 3) f.ty.toNat) (redIdentity (bits f.md 0 3) f.ty.toNat)) {l : Nat} (hl : l < 128) :
    scanLane s c f l = ((((List.range 128).filter (fun j => active c f.sp j && decide (j < if f.md.getLsbD 3 then l else l + 1))).map
      (lane (opA s c f))).foldl (intNode (bits f.md 0 3) f.ty.toNat) (redIdentity (bits f.md 0 3) f.ty.toNat), 0) := by
  have hn : (if f.md.getLsbD 3 then l else l + 1) ≤ 128 := by split <;> omega
  simp only [scanLane]
  generalize (if f.md.getLsbD 3 then l else l + 1) = n at hn ⊢
  split
  · next h0 => rw [h0, filter_range_lt _ (Nat.zero_le _)]; rfl
  · next h0 =>
    rw [scanOut, hf, Bool.false_and, if_neg Bool.false_ne_true]
    exact scanBlocks_redInputs hf h _ _ h0 hn

theorem vscan_int {s : State} {c : Ctx} {f : VX} (h : ReadyLanes s (.vscan f) c) (hf : floatType f.ty.toNat = false) {r : Nat → DWord}
    (hr : ∀ l, l < 128 → Combines c f s (fun j => if f.md.getLsbD 3 then decide (j < l) else decide (j ≤ l)) (r l)) :
    WritesLanes (.vscan f) s c f.vd.toNat (typeBits f.ty.toNat) (active c f.sp) c.g.fpc r := by
  refine writesLanes_of_int hf (fun l hl => ?_) (vscan_ends h)
  have hpick : (fun j => if f.md.getLsbD 3 then decide (j < l) else decide (j ≤ l)) =
      fun j => decide (j < if f.md.getLsbD 3 then l else l + 1) := by
    funext j
    split
    · rfl
    · exact decide_eq_decide.2 Nat.lt_succ_iff.symm
  obtain ⟨hred, heq⟩ := (hpick ▸ hr l hl).eq_foldl hf
  rw [heq]
  exact scanLane_int hf hred hl

/-! ## VRAND (R166) -/

/-- Four registers written one after the other. -/
def setFour (g : Group) (vd : Nat) (v : Nat → VReg) : Group :=
  setV (setV (setV (setV g (vd + 0) (v 0)) (vd + 1) (v 1)) (vd + 2) (v 2)) (vd + 3) (v 3)

theorem setFour_eq (g : Group) (vd : Nat) (v : Nat → VReg) : setFour g vd v = { g with vregs := (setFour g vd v).vregs } := rfl
@[simp] theorem setFour_launch (g : Group) (vd : Nat) (v : Nat → VReg) : (setFour g vd v).launch = g.launch := rfl
@[simp] theorem setFour_wg (g : Group) (vd : Nat) (v : Nat → VReg) : (setFour g vd v).wg = g.wg := rfl

theorem vreg_setFour_same (g : Group) (vd : Nat) (v : Nat → VReg) {j : Nat} (h : j < 4) : vreg (setFour g vd v) (vd + j) = v j := by
  unfold setFour
  have hj : j = 0 ∨ j = 1 ∨ j = 2 ∨ j = 3 := by omega
  rcases hj with rfl | rfl | rfl | rfl <;> simp [vreg_setV_ne]

theorem vreg_setFour_ne (g : Group) (vd : Nat) (v : Nat → VReg) {n : Nat} (h : n < vd ∨ vd + 4 ≤ n) :
    vreg (setFour g vd v) n = vreg g n := by
  unfold setFour
  rw [vreg_setV_ne _ _ (by omega), vreg_setV_ne _ _ (by omega), vreg_setV_ne _ _ (by omega), vreg_setV_ne _ _ (by omega)]

/-- The four words of a lane's block (R166). -/
def blockOf (c : Ctx) (f : VX) (l : Nat) : Word × Word × Word × Word :=
  philox 10 (vlane c.g f.va.toNat l) (vlane c.g (f.va.toNat + 1) l) (vlane c.g (f.va.toNat + 2) l) (vlane c.g (f.va.toNat + 3) l)
    ((uniformVal c.g f.lit f.vb.toNat 3).extractLsb' 0 32) ((uniformVal c.g f.lit f.vb.toNat 3).extractLsb' 32 32)

/-- Register `vd + j` as VRAND writes it: word `j` of each active lane's block. -/
def randReg (c : Ctx) (f : VX) (j : Nat) : VReg :=
  mergeLanes (actLanes c f) (vreg c.g (f.vd.toNat + j)) ((laneIds.map (blockOf c f)).map (philoxWord j))

theorem randReg_getD (c : Ctx) (f : VX) (j : Nat) {l : Nat} (h : l < 128) :
    (randReg c f j).getD l 0 = if active c f.sp l then philoxWord j (blockOf c f l) else vlane c.g (f.vd.toNat + j) l := by
  rw [randReg, mergeLanes_getD _ _ _ h, actLanes_getD c f h, List.map_map, getD_laneIds_map _ _ h]
  rfl

theorem vrand_retires {s : State} {c : Ctx} {f : VX} (h : ReadyLanes s (.vrand f) c) :
    Retires (.vrand f) s c (after (.vrand f) c) (fun g' => Counted { c.g with vregs := g'.vregs } g' ∧
      (∀ l, l < 128 → ∀ j, j < 4 → vlane g' (f.vd.toNat + j) l =
        if active c f.sp l then philoxWord j (blockOf c f l) else vlane c.g (f.vd.toNat + j) l) ∧
      ∀ n, n < f.vd.toNat ∨ f.vd.toNat + 4 ≤ n → vreg g' n = vreg c.g n) := by
  refine retires_next (g1 := setFour c.g f.vd.toNat (randReg c f)) rfl h.1 (.inr h.2) ?_ (setFour_launch ..) (setFour_wg ..) fun g' hg => ?_
  · simp only [BitVec.setWidth_eq_extractLsb' (show 32 ≤ 64 by decide)]
    rfl
  · have hv : g'.vregs = (setFour c.g f.vd.toNat (randReg c f)).vregs := by rw [hg]
    have hreg (n : Nat) : vreg g' n = vreg (setFour c.g f.vd.toNat (randReg c f)) n := by rw [vreg, hv, vreg]
    refine ⟨?_, fun l hl j hj => ?_, fun n hn => (hreg n).trans (vreg_setFour_ne _ _ _ hn)⟩
    · rw [hv]
      rwa [setFour_eq] at hg
    · rw [vlane, hreg, vreg_setFour_same _ _ _ hj, randReg_getD c f j hl]

/-- Settles O24: integer reductions and scans as folds, floating-point ones by the ends of R135, and VRAND by the registers it writes. -/
theorem reductionsScansAndRandom : Obligations.ReductionsScansAndRandom := by
  unfold Obligations.ReductionsScansAndRandom
  refine ⟨⟨fun f s c h hf r hr => vred_int h hf hr, fun f s c h hf r hr => vscan_int h hf hr, fun f s c h hf => ?_, fun f s c h hf => ?_⟩,
    fun f s c h => vrand_retires h⟩
  · exact vred_ends h
  · simpa only [scanLane, scanOut, hf, Bool.true_and] using vscan_ends h

end Sys2Proof.Machine
end

