-- ==== Sys2Proof/Proofs/ReservedFields.lean ====
section

/-! # Reserved and unused fields of a word (R78, R80) -/

namespace Sys2Proof.Machine

/-- The first field with a reserved value decides. -/
theorem check_of_reserved {v : Nat} {i : Instr} {u : Use} {lit : Bool} {fs : List (Fld × Nat)} {b : Bad} (hu : useOf v i = some (u, lit, fs))
    (hb : fs.findSome? (badReserved u) = some b) : check v i = some b := by
  rw [check, hu]
  simp only [checkUse, hb]

/-- A word in which some field holds a reserved value is ILLEGAL. -/
theorem check_illegal {v : Nat} {i : Instr} {u : Use} {lit : Bool} {fs : List (Fld × Nat)} (hu : useOf v i = some (u, lit, fs))
    (hb : ∃ p ∈ fs, (badReserved u p).isSome) : ∃ n, check v i = some (.illegal n) := by
  have hill : ∀ p b, badReserved u p = some b → ∃ n, b = .illegal n := by
    intro p b h
    unfold badReserved at h
    split at h <;> split_ifs at h <;> exact ⟨_, (Option.some.inj h).symm⟩
  obtain ⟨b, hfind⟩ := Option.isSome_iff_exists.1 (List.findSome?_isSome_iff.2 hb)
  obtain ⟨-, p, -, -, hp, -⟩ := List.findSome?_eq_some_iff.1 hfind
  obtain ⟨n, rfl⟩ := hill p b hp
  exact ⟨n, check_of_reserved hu hfind⟩

theorem toNat_ne_zero {w : Nat} {x : BitVec w} : x.toNat ≠ 0 ↔ x ≠ 0 := (BitVec.toNat_ne (y := 0)).symm

/-- Of a word of format SX whose SD is no reserved value, MOD decides before the other fields. -/
theorem check_sx_mod {v : Nat} {i : Instr} {f : SX} {u : Use} {lit : Bool} {b : Bad} (hu : useOf v i = some (u, lit, sxFields f))
    (hsd : badReserved u (.sd, f.sd.toNat) = none) (hmd : badReserved u (.md, f.md.toNat) = some b) : check v i = some b := by
  refine check_of_reserved hu ?_
  simp only [sxFields, List.findSome?_cons, hsd, hmd]

end Sys2Proof.Machine
end

