-- ==== Sys2Proof/Proofs/ScalarArithmetic.lean ====
section

/-! # Scalar arithmetic (O1) -/

namespace Sys2Proof.Machine

/-! ## Values (R187) -/

theorem shiftRight_eq_div (d : DWord) (n : Nat) : d >>> n = BitVec.ofNat 64 (d.toNat / 2 ^ n) := by
  apply BitVec.eq_of_toNat_eq
  have hlt : d.toNat / 2 ^ n < 2 ^ 64 := (Nat.div_le_self ..).trans_lt d.isLt
  rw [BitVec.toNat_ushiftRight, Nat.shiftRight_eq_div_pow, BitVec.toNat_ofNat, Nat.mod_eq_of_lt hlt]

theorem shiftLeft_eq_mul (d : DWord) (n : Nat) : d <<< n = BitVec.ofNat 64 (d.toNat * 2 ^ n) := by
  apply BitVec.eq_of_toNat_eq
  simp [BitVec.toNat_shiftLeft, Nat.shiftLeft_eq]

theorem sshiftRight_eq_div (d : DWord) (n : Nat) : d.sshiftRight n = BitVec.ofInt 64 (d.toInt / 2 ^ n) := by
  rw [BitVec.sshiftRight, Int.shiftRight_eq_div_pow]
  norm_cast

theorem mul_eq_ofNat (d a : DWord) : d * a = BitVec.ofNat 64 (d.toNat * a.toNat) := by
  apply BitVec.eq_of_toNat_eq
  simp

theorem minBy_eq (u : Bool) (d a : DWord) :
    minBy u d a = if u then BitVec.ofNat 64 (min d.toNat a.toNat) else BitVec.ofInt 64 (min d.toInt a.toInt) := by
  cases u
  · by_cases h : a.toInt < d.toInt
    · simp [minBy, h, min_eq_right h.le]
    · simp [minBy, h, min_eq_left (not_lt.1 h)]
  · by_cases h : a.toNat < d.toNat
    · simp [minBy, h, min_eq_right h.le]
    · simp [minBy, h, min_eq_left (not_lt.1 h)]

theorem maxBy_eq (u : Bool) (d a : DWord) :
    maxBy u d a = if u then BitVec.ofNat 64 (max d.toNat a.toNat) else BitVec.ofInt 64 (max d.toInt a.toInt) := by
  cases u
  · by_cases h : d.toInt < a.toInt
    · simp [maxBy, h, max_eq_right h.le]
    · simp [maxBy, h, max_eq_left (not_lt.1 h)]
  · by_cases h : d.toNat < a.toNat
    · simp [maxBy, h, max_eq_right h.le]
    · simp [maxBy, h, max_eq_left (not_lt.1 h)]

/-- The set bits of a number, bit by bit. -/
theorem popcount_eq_length (w x : Nat) : popcount w x = ((List.range w).filter x.testBit).length := by
  induction w generalizing x with
  | zero => rfl
  | succ w ih =>
    have hrest : ((List.range w).map Nat.succ).filter x.testBit = ((List.range w).filter (x / 2).testBit).map Nat.succ := by
      rw [List.filter_map]
      exact congrArg _ (List.filter_congr fun j _ => Nat.testBit_succ x j)
    rw [popcount, ih, List.range_succ_eq_map, List.filter_cons, hrest, Nat.testBit_zero]
    by_cases h : x % 2 = 1
    · simp [h, Nat.add_comm]
    · simp [h]; omega

/-- Leading zeros by the logarithm. -/
theorem clz_eq (a : DWord) : clz 64 a.toNat = if a = 0 then 64 else 63 - Nat.log2 a.toNat := by
  rw [clz, Nat.mod_eq_of_lt a.isLt, bitLen]
  by_cases h : a = 0
  · subst h; rfl
  · have h0 : a.toNat ≠ 0 := fun h' => h (BitVec.eq_of_toNat_eq h')
    rw [if_neg h0, if_neg h]
    omega

/-! ## The instructions -/

/-- A MOD bit that R187 does not define: bits 3 and 2, and bit 0 (.U) where it is not legal. -/
theorem check_arith_reserved {v : Nat} {i : Instr} {f : S2} {uOk rd : Bool} (hu : useOf v i = some (useArith uOk rd, f.lit.isSome, s2Fields f))
    (h : f.md &&& (if uOk then 12 else 13) ≠ 0) : check v i = some (.illegal 3) := by
  refine check_of_reserved hu ?_
  have hmd : f.md.toNat &&& (if uOk then 3 else 2) ≠ f.md.toNat := by
    generalize f.md = m at h
    revert m
    cases uOk <;> decide
  simp [s2Fields, badReserved, useArith, hmd]

/-- Settles O1: the model's operations are those of R187 in integers, and a reserved bit of MOD is the first value the checks refuse. -/
theorem scalarArithmeticResults : Obligations.ScalarArithmeticResults := by
  unfold Obligations.ScalarArithmeticResults
  refine ⟨scalarOp_of_arith (fun _ _ => rfl) isVector_sadd fun _ _ _ => rfl, scalarOp_of_arith (fun _ _ => rfl) isVector_ssub fun _ _ _ => rfl,
    scalarOp_of_arith (fun _ _ => rfl) isVector_smul fun _ => mul_eq_ofNat, scalarOp_of_arith (fun _ _ => rfl) isVector_smulh fun _ _ _ => rfl,
    scalarOp_of_arith (fun _ _ => rfl) isVector_sand fun _ _ _ => rfl, scalarOp_of_arith (fun _ _ => rfl) isVector_sor fun _ _ _ => rfl,
    scalarOp_of_arith (fun _ _ => rfl) isVector_sxor fun _ _ _ => rfl, scalarOp_of_arith (fun _ _ => rfl) isVector_sandn fun _ _ _ => rfl,
    scalarOp_of_arith (fun _ _ => rfl) isVector_sshl fun _ d a => shiftLeft_eq_mul d _,
    scalarOp_of_arith (fun _ _ => rfl) isVector_sshr fun _ d a => shiftRight_eq_div d _,
    scalarOp_of_arith (fun _ _ => rfl) isVector_ssra fun _ d a => sshiftRight_eq_div d _,
    scalarOp_of_arith (fun _ _ => rfl) isVector_smin fun f => minBy_eq (f.md.getLsbD 0),
    scalarOp_of_arith (fun _ _ => rfl) isVector_smax fun f => maxBy_eq (f.md.getLsbD 0),
    scalarOp_of_arith (fun _ _ => rfl) isVector_smov fun _ _ _ => rfl,
    scalarOp_of_arith (fun _ _ => rfl) isVector_spopc fun _ _ a => congrArg (BitVec.ofNat 64) (popcount_eq_length 64 a.toNat),
    scalarOp_of_arith (fun _ _ => rfl) isVector_sclz fun _ _ a => congrArg (BitVec.ofNat 64) (clz_eq a), ?_, ?_, rfl⟩
  all_goals
    simp only [List.forall_mem_cons, List.not_mem_nil, false_imp_iff, implies_true, and_true]
    and_intros <;> exact fun f v h => check_arith_reserved rfl h

end Sys2Proof.Machine
end

