-- ==== Sys2Proof/Proofs/ScalarImmediates.lean ====
section

/-! # Scalar immediates, the compare, the select and the bitfields (O2) -/

namespace Sys2Proof.Machine

/-! ## Immediates, compares and selects (R188-R191) -/

theorem add_signExtend (d : DWord) (imm : BitVec 16) : d + imm.signExtend 64 = BitVec.ofInt 64 (d.toInt + imm.toInt) := by
  rw [BitVec.ofInt_add, BitVec.ofInt_toInt, BitVec.signExtend]

/-- A relation by its number (R190). -/
theorem eq_relation {p : BitVec 3} {x y : Int} {r : Bool}
    (h : (p = 0 ∧ (r = true ↔ x = y)) ∨ (p = 1 ∧ (r = true ↔ x ≠ y)) ∨ (p = 2 ∧ (r = true ↔ x < y)) ∨ (p = 3 ∧ (r = true ↔ x ≤ y)) ∨
      (p = 4 ∧ (r = true ↔ x > y)) ∨ (p = 5 ∧ (r = true ↔ x ≥ y))) : r = relation p.toNat x y := by
  rw [Bool.eq_iff_iff]
  rcases h with ⟨rfl, h⟩ | ⟨rfl, h⟩ | ⟨rfl, h⟩ | ⟨rfl, h⟩ | ⟨rfl, h⟩ | ⟨rfl, h⟩ <;> simp [relation, h]

theorem scmpResult_eq (f : SX) (a b : DWord) :
    scmpResult f a b = relation (f.md.extractLsb' 0 3).toNat (if f.md.getLsbD 3 then (a.toNat : Int) else a.toInt)
      (if f.md.getLsbD 3 then (b.toNat : Int) else b.toInt) := by
  unfold scmpResult
  split <;> rfl

/-! ## Bitfields (R192) -/

/-- The low `n` bits read as a two's-complement number. -/
theorem sextI_of_lt {n x : Nat} (hn : n ≠ 0) (hx : x < 2 ^ n) : sextI n x = if 2 ^ (n - 1) ≤ x then (x : Int) - 2 ^ n else x := by
  obtain ⟨k, rfl⟩ := Nat.exists_eq_succ_of_ne_zero hn
  have hpos : 0 < 2 ^ k := by positivity
  have hsplit : 2 ^ (k + 1) ≤ 2 * x ∧ x ≠ 0 ↔ 2 ^ k ≤ x := by rw [pow_succ]; omega
  rw [sextI, Nat.mod_eq_of_lt hx]
  simp only [Nat.succ_eq_add_one, hsplit, Nat.add_sub_cancel]
  push_cast
  rfl

theorem extractField_eq (signed : Bool) (a : DWord) (pos len : Nat) :
    extractField signed a pos len = if min len 64 = 0 then 0
      else if signed then BitVec.ofInt 64 (if 2 ^ (min len 64 - 1) ≤ a.toNat / 2 ^ pos % 2 ^ min len 64
        then (↑(a.toNat / 2 ^ pos % 2 ^ min len 64) : Int) - 2 ^ min len 64 else ↑(a.toNat / 2 ^ pos % 2 ^ min len 64))
      else BitVec.ofNat 64 (a.toNat / 2 ^ pos % 2 ^ min len 64) := by
  unfold extractField
  dsimp only
  split
  · rfl
  · next hn => rw [sextI_of_lt hn (Nat.mod_lt _ (by positivity)), dword]

/-- An insertion by its parts: the bits below, the field, the bits above. -/
theorem insertField_eq {w pos : Nat} (d a len : Nat) (h : pos < w) :
    insertField w d a pos len =
      2 ^ pos * (2 ^ min len (w - pos) * (d / 2 ^ pos / 2 ^ min len (w - pos)) + a % 2 ^ min len (w - pos)) + d % 2 ^ pos := by
  rw [insertField, if_neg (by omega)]
  generalize min len (w - pos) = m
  have hd := Nat.div_add_mod d (2 ^ pos)
  have hq := Nat.div_add_mod (d / 2 ^ pos) (2 ^ m)
  generalize d / 2 ^ pos / 2 ^ m = hi at hq ⊢
  generalize d / 2 ^ pos % 2 ^ m = mid at hq ⊢
  rw [← hq] at hd
  rw [Nat.mul_comm mid, Nat.mul_comm (a % 2 ^ m), Nat.mul_add]
  rw [Nat.mul_add] at hd
  omega

/-- A bit of an insertion: from the field within it, else as it was. -/
theorem insertField_testBit {w : Nat} (d a pos len : Nat) {j : Nat} (hj : j < w) :
    (insertField w d a pos len).testBit j = if pos ≤ j ∧ j < pos + len then a.testBit (j - pos) else d.testBit j := by
  by_cases hpos : pos < w
  · rw [insertField_eq d a len hpos]
    rw [Nat.testBit_two_pow_mul_add _ (Nat.mod_lt _ (by positivity))]
    by_cases hlow : j < pos
    · rw [if_pos hlow, if_neg (by omega), Nat.testBit_mod_two_pow]; simp [hlow]
    · rw [if_neg hlow, Nat.testBit_two_pow_mul_add _ (Nat.mod_lt _ (by positivity))]
      by_cases hin : j < pos + len
      · rw [if_pos (by omega), if_pos (by omega), Nat.testBit_mod_two_pow]
        simp only [Bool.and_eq_right_iff_imp, decide_eq_true_eq]
        omega
      · rw [if_neg (by omega), if_neg (by omega), Nat.testBit_div_two_pow, Nat.testBit_div_two_pow]
        congr 1
        omega
  · rw [if_neg (by omega), insertField, if_pos (by omega)]
    simp [Nat.mod_one]

/-- An insertion is the doubleword that has its bits. -/
theorem insertField_ofNat_eq {d a r : DWord} {pos len : Nat}
    (h : ∀ j, j < 64 → r.getLsbD j = if pos ≤ j ∧ j < pos + len then a.getLsbD (j - pos) else d.getLsbD j) :
    BitVec.ofNat 64 (insertField 64 d.toNat a.toNat pos len) = r := by
  refine BitVec.eq_of_getLsbD_eq fun j hj => ?_
  rw [h j hj, BitVec.getLsbD_ofNat, insertField_testBit _ _ _ _ hj, decide_eq_true hj, Bool.true_and]
  rfl

theorem fieldPosLen_eq (c : Ctx) (f : SX) : fieldPosLen c f = (if f.md.getLsbD 1
    then (((sval c.g f.lit f.sb).extractLsb' 0 8).toNat, ((sval c.g f.lit f.sb).extractLsb' 8 8).toNat)
    else ((f.imm.extractLsb' 0 8).toNat, (f.imm.extractLsb' 8 8).toNat)) := rfl

/-! ## The instructions -/

section
variable {s : State} {c : Ctx}

/-- An instruction whose effect is on its group alone retires with that effect. -/
theorem retires_of_group {i : Instr} {body : Ctx → Eff} {g1 : Group} (he : exec i s = issue i s body) (h : Ready s i c)
    (hv : isVector i = false) (hb : body c = .next s g1) (hl : g1.launch = c.g.launch) (hw : g1.wg = c.g.wg) :
    Retires i s c (after i c) (fun g' => Counted g1 g') :=
  retires_next he h (.inl hv) hb hl hw fun _ hg => hg

/-- An instruction whose effect is a write of one scalar register writes it, and SCC is as before. -/
theorem writesScalar_of_setS {i : Instr} {body : Ctx → Eff} {sd : Nat} {v v' : DWord} (he : exec i s = issue i s body) (h : Ready s i c)
    (hv : isVector i = false) (hb : body c = .next s (setS c.g sd v')) (hval : v' = v) : WritesScalar i s c sd v c.g.scc :=
  writesScalar_of_body he h hv (hval ▸ hb)

theorem scmp_retires {f : SX} {r : Bool} (h : Ready s (.scmp f) c) (hr : r = scmpResult f (sval c.g f.lit f.sa) (sval c.g f.lit f.sb)) :
    Retires (.scmp f) s c (after (.scmp f) c) (fun g' => Counted { c.g with scc := r } g') := by
  subst hr
  exact retires_of_group rfl h (isVector_scmp f) rfl rfl rfl

end

/-! ## Reserved and unused fields -/

theorem check_scmp_mod {f : SX} (v : Nat) (hsd : f.sd = 0) (h : 5 < (f.md.extractLsb' 0 3).toNat ∨ f.md.extractLsb' 4 4 ≠ 0) :
    check v (.scmp f) = some (.illegal 3) := by
  refine check_sx_mod rfl (by rw [hsd]; rfl) ?_
  by_cases hm : f.md.toNat &&& 15 = f.md.toNat
  · have hhigh : f.md.extractLsb' 4 4 = 0 := by
      generalize f.md = m at hm
      revert m
      decide
    exact (if_neg (not_not_intro hm)).trans (if_pos (decide_eq_true (h.resolve_right (not_not_intro hhigh))))
  · exact if_pos hm

theorem check_scmp_unused {f : SX} (v : Nat) (h : f.sd ≠ 0 ∨ f.sc ≠ 0 ∨ f.md2 ≠ 0 ∨ f.imm ≠ 0) :
    ∃ n, check v (.scmp f) = some (.illegal n) := by
  simp only [← toNat_ne_zero] at h
  refine check_illegal rfl ?_
  simp [sxFields, badReserved]
  omega

theorem check_ssel_unused {f : SX} (v : Nat) (h : f.sc ≠ 0 ∨ f.md ≠ 0 ∨ f.md2 ≠ 0 ∨ f.imm ≠ 0) :
    ∃ n, check v (.ssel f) = some (.illegal n) := by
  simp only [← toNat_ne_zero] at h
  refine check_illegal rfl ?_
  simp [sxFields, badReserved]
  omega

/-- What SBFX and SBFI make of their fields, but for MOD and the old value of SD (R192). -/
def useField (f : SX) (mods : Nat) (rmw : List Fld) : Use :=
  { used := [.sd, .sa] ++ (if f.md.getLsbD 1 then [.sb] else [.imm]), mods := mods, dests := [.sd], rmw := rmw, lits := [.sa, .sb],
    combo := !f.md.getLsbD 1 && bits f.imm 16 16 != 0 }

section
variable {v : Nat} {f : SX} {mk : SX → Instr} {mods : Nat} {rmw : List Fld}

theorem check_field_mod (hu : ∀ f, useOf v (mk f) = some (useField f mods rmw, f.lit.isSome, sxFields f)) (hm : f.md.toNat &&& mods ≠ f.md.toNat) :
    check v (mk f) = some (.illegal 3) :=
  check_sx_mod (hu f) (by simp [badReserved, useField]) (if_pos hm)

theorem check_field_unused (hu : ∀ f, useOf v (mk f) = some (useField f mods rmw, f.lit.isSome, sxFields f))
    (h : f.sc ≠ 0 ∨ f.md2 ≠ 0 ∨ f.md.getLsbD 1 = false ∧ f.sb ≠ 0) : ∃ n, check v (mk f) = some (.illegal n) := by
  simp only [← toNat_ne_zero] at h
  refine check_illegal (hu f) ?_
  cases hr : f.md[1]
  all_goals
    simp [sxFields, badReserved, useField, hr] at h ⊢
    omega

/-- The fields of a word of format SX before IMM32. -/
def sxBeforeImm (f : SX) : List (Fld × Nat) :=
  [(.sd, f.sd.toNat), (.md, f.md.toNat), (.sa, f.sa.toNat), (.sb, f.sb.toNat), (.sc, f.sc.toNat), (.md2, f.md2.toNat)]

theorem sxFields_eq (f : SX) : sxFields f = sxBeforeImm f ++ [(.imm, f.imm.toNat)] := rfl

/-- IMM32 names no literal. -/
theorem badLiteral_sxFields (u : Use) (lit : Bool) (f : SX) : badLiteral u lit (sxFields f) = badLiteral u lit (sxBeforeImm f) := by
  have hfind : (sxFields f).find? (fun p => u.reads p.1 && namesLit p) = (sxBeforeImm f).find? (fun p => u.reads p.1 && namesLit p) := by
    rw [sxFields_eq, List.find?_append]
    simp [namesLit, Fld.isScalar, Fld.isVec]
  rw [badLiteral, hfind]
  rfl

/-- What the checks say of the fields before IMM32 when the word passes them all with IMM32 zero. -/
theorem beforeImm_sound (hu : ∀ f, useOf v (mk f) = some (useField f mods rmw, f.lit.isSome, sxFields f))
    (h : check v (mk { f with imm := 0 }) = none) :
    (sxBeforeImm f).findSome? (badReserved (useField f mods rmw)) = none ∧
      badLiteral (useField f mods rmw) f.lit.isSome (sxBeforeImm f) = none ∧
      (sxBeforeImm f).findSome? (badOperand (useField f mods rmw) v) = none := by
  rw [check, hu] at h
  dsimp only at h
  unfold checkUse at h
  split at h
  · cases h
  · next hres =>
    split at h
    · cases h
    · next hlit =>
      split at h
      · cases h
      · next hop =>
        rw [badLiteral_sxFields] at hlit
        rw [sxFields_eq, List.findSome?_append, Option.or_eq_none_iff] at hres hop
        exact ⟨hres.1, hlit, hop.1⟩

theorem check_field_imm (hu : ∀ f, useOf v (mk f) = some (useField f mods rmw, f.lit.isSome, sxFields f))
    (h : check v (mk { f with imm := 0 }) = none) :
    (f.md.getLsbD 1 = true → f.imm ≠ 0 → check v (mk f) = some (.illegal 5)) ∧
      (f.md.getLsbD 1 = false → f.imm.extractLsb' 16 16 ≠ 0 → check v (mk f) = some (.operand 23)) := by
  obtain ⟨hres, hlit, hop⟩ := beforeImm_sound hu h
  constructor
  · intro hr himm
    have hr' : f.md[1] = true := hr
    rw [← toNat_ne_zero] at himm
    refine check_of_reserved (hu f) ?_
    rw [sxFields_eq, List.findSome?_append, hres]
    simp [badReserved, useField, hr', himm]
  · intro hr himm
    have hr' : f.md[1] = false := hr
    have hhigh : bits f.imm 16 16 ≠ 0 := toNat_ne_zero.2 himm
    have hres' : (sxFields f).findSome? (badReserved (useField f mods rmw)) = none := by
      rw [sxFields_eq, List.findSome?_append, hres]
      simp [badReserved, useField, hr']
    have hop' : (sxFields f).findSome? (badOperand (useField f mods rmw) v) = none := by
      rw [sxFields_eq, List.findSome?_append, hop]
      simp [badOperand, useField, Fld.isScalar, Fld.isVec]
    have hcombo : (useField f mods rmw).combo = true := by
      simp only [useField, hr, Bool.not_false, Bool.true_and, bne_iff_ne]
      exact hhigh
    rw [check, hu]
    simp only [checkUse, hres', badLiteral_sxFields, hlit, hop', hcombo, if_true]

/-- The reserved and unused fields of SBFX and SBFI. -/
theorem check_field (hu : ∀ f, useOf v (mk f) = some (useField f mods rmw, f.lit.isSome, sxFields f))
    (hm : ∀ m : BitVec 8, m.extractLsb' 2 6 ≠ 0 → m.toNat &&& mods ≠ m.toNat) :
    (f.md.extractLsb' 2 6 ≠ 0 → check v (mk f) = some (.illegal 3)) ∧
    (f.sc ≠ 0 ∨ f.md2 ≠ 0 ∨ f.md.getLsbD 1 = false ∧ f.sb ≠ 0 → ∃ n, check v (mk f) = some (.illegal n)) ∧
    (check v (mk { f with imm := 0 }) = none → f.md.getLsbD 1 = true → f.imm ≠ 0 → check v (mk f) = some (.illegal 5)) ∧
    (check v (mk { f with imm := 0 }) = none → f.md.getLsbD 1 = false → f.imm.extractLsb' 16 16 ≠ 0 → check v (mk f) = some (.operand 23)) :=
  ⟨fun h => check_field_mod hu (hm _ h), check_field_unused hu, fun h => (check_field_imm hu h).1, fun h => (check_field_imm hu h).2⟩

end

/-- Settles O2: values, then the checks of each word's fields in their order. -/
theorem scalarImmediateCompareBitfield : Obligations.ScalarImmediateCompareBitfield := by
  unfold Obligations.ScalarImmediateCompareBitfield
  refine ⟨⟨fun f s c h => writesScalar_of_setS rfl h (isVector_saddi f) rfl (add_signExtend _ _),
      fun f s c h => writesScalar_of_setS rfl h (isVector_sli f) rfl rfl, fun f s c h => writesScalar_of_setS rfl h (isVector_sliLit f) rfl rfl⟩,
    ⟨fun f s c h r hr => scmp_retires h ((eq_relation hr).trans (scmpResult_eq f _ _).symm),
      fun f s c h => writesScalar_of_setS rfl h (isVector_ssel f) rfl rfl⟩,
    fun f s c pos len hp => ?_, fun w a b hlen hmaj => ⟨decodeTval w 0, ?_⟩, rfl, fun f v h => check_of_reserved rfl ?_,
    fun f v => check_scmp_mod v, fun f v => check_scmp_unused v, fun f v => check_ssel_unused v, ?_, fun f v h => ?_⟩
  · rw [← fieldPosLen_eq] at hp
    refine ⟨fun h => writesScalar_of_setS rfl h (isVector_sbfx f) rfl ?_, fun h r hr => writesScalar_of_setS rfl h (isVector_sbfi f) rfl ?_⟩
    · rw [← hp]
      exact extractField_eq ..
    · rw [← hp]
      exact insertField_ofNat_eq hr
  · rw [decode]
    simp [hmaj, decodeNarrow, hlen]
  · simpa [silFields, badReserved] using h
  · simp only [List.forall_mem_cons, List.not_mem_nil, false_imp_iff, implies_true, and_true]
    exact ⟨fun f v => check_field (mods := 3) (fun _ => rfl) (by decide), fun f v => check_field (mods := 2) (fun _ => rfl) (by decide)⟩
  · have hm2 : ∀ m : BitVec 8, m.getLsbD 0 = true → m.toNat &&& 2 ≠ m.toNat := by decide
    exact check_field_mod (mods := 2) (fun _ => rfl) (hm2 _ h)

end Sys2Proof.Machine
end

