-- ==== Sys2Proof/Proofs/PaletteAndFpc.lean ====
section

/-! # NOP, fences, YIELD, PAL and FPC (O4) -/

namespace Sys2Proof.Machine

section
variable {s : State} {c : Ctx}

/-- A release FENCE of a scope past the group's own, in a DET launch with stores of the group still in its buffer (log 6). -/
def fenceWaits (c : Ctx) (f : S2) : Bool := c.det && f.md.getLsbD 1 && f.sa.toNat % 8 != 0 && !c.g.detBuf.isEmpty

theorem fenceWaits_iff (c : Ctx) (f : S2) :
    fenceWaits c f = true ↔ c.l.kern.det = true ∧ f.md.getLsbD 1 = true ∧ f.sa.toNat % 8 ≠ 0 ∧ c.g.detBuf ≠ [] := by
  simp only [fenceWaits, Bool.and_eq_true, and_assoc, bne_iff_ne, Bool.not_eq_true', List.isEmpty_eq_false_iff]
  rfl

theorem palReserved_iff (v : DWord) : palReserved v = true ↔ ¬PalSound v := by
  unfold palReserved PalSound
  simp only [Bool.or_eq_true, bne_iff_ne, beq_iff_eq, decide_eq_true_eq, bits, ne_eq, ← BitVec.toNat_inj, BitVec.ofNat_eq_ofNat, BitVec.toNat_ofNat]
  omega

/-- The bits of FPC that R133 reserves are those from 13 on. -/
theorem fpcWide_iff (n : DWord) : bits n 13 51 ≠ 0 ↔ 2 ^ 13 ≤ n.toNat := by
  have hlt := n.isLt
  rw [bits, BitVec.extractLsb'_toNat, Nat.shiftRight_eq_div_pow]
  omega

theorem fence_ends {f : S2} (h : Ready s (.fence f) c) :
    (¬fenceWaits c f = true → Retires (.fence f) s c (after (.fence f) c) (fun g' => Counted c.g g')) ∧
      (fenceWaits c f = true → Parks (.fence f) s c .commit) :=
  ⟨fun hw => retires_of_group rfl h (isVector_fence f) (if_neg hw) rfl rfl,
    fun hw => parks_of_body rfl h (.inl (isVector_fence f)) (if_pos hw)⟩

theorem palset_ends {f : SX} (h : Ready s (.palset f) c) :
    (PalSound (maskedSet c f c.g.pal) →
      Retires (.palset f) s c (after (.palset f) c) (fun g' => Counted { c.g with pal := maskedSet c f c.g.pal } g')) ∧
    (¬PalSound (maskedSet c f c.g.pal) → Handled c → Traps (.palset f) s c 0x02 (operandTval (.palset f) 23) 0 c.g.pc) :=
  ⟨fun hs => retires_of_group rfl h (isVector_palset f) (if_neg fun hr => (palReserved_iff _).1 hr hs) rfl rfl,
    fun hs => traps_operand rfl h (isVector_palset f) (if_pos ((palReserved_iff _).2 hs))⟩

theorem fpcset_ends {f : SX} (h : Ready s (.fpcset f) c) :
    ((maskedSet c f (c.g.fpc.setWidth 64)).toNat < 2 ^ 13 → Retires (.fpcset f) s c (after (.fpcset f) c) (fun g' =>
      Counted { c.g with fpc := (maskedSet c f (c.g.fpc.setWidth 64)).setWidth 32 } g')) ∧
    (2 ^ 13 ≤ (maskedSet c f (c.g.fpc.setWidth 64)).toNat → Handled c →
      Traps (.fpcset f) s c 0x02 (operandTval (.fpcset f) 23) 0 c.g.pc) :=
  ⟨fun hn => retires_of_group rfl h (isVector_fpcset f) (if_neg fun hw => Nat.not_le_of_lt hn ((fpcWide_iff _).1 hw)) rfl rfl,
    fun hn => traps_operand rfl h (isVector_fpcset f) (if_pos ((fpcWide_iff _).2 hn))⟩

end

/-- An unused field of PALSET and FPCSET that is not zero, SB without .M among them. -/
theorem check_masked_unused {v : Nat} {f : SX} {i : Instr}
    (hu : useOf v i = some ({ used := [.sa] ++ (if f.md.getLsbD 0 then [.sb] else []), mods := 1, lits := [.sa, .sb] }, f.lit.isSome, sxFields f))
    (h : f.sd ≠ 0 ∨ f.sc ≠ 0 ∨ f.imm ≠ 0 ∨ f.md.getLsbD 0 = false ∧ f.sb ≠ 0) : ∃ n, check v i = some (.illegal n) := by
  simp only [← toNat_ne_zero] at h
  refine check_illegal hu ?_
  cases hm : f.md[0]
  all_goals
    simp [sxFields, badReserved, hm] at h ⊢
    omega

/-- An unused field of PALGET and FPCGET that is not zero. -/
theorem check_get_unused {v : Nat} {f : SX} {i : Instr} (hu : useOf v i = some ({ used := [.sd], mods := 1, dests := [.sd] }, f.lit.isSome, sxFields f))
    (h : f.sa ≠ 0 ∨ f.sb ≠ 0 ∨ f.sc ≠ 0 ∨ f.imm ≠ 0) : ∃ n, check v i = some (.illegal n) := by
  simp only [← toNat_ne_zero] at h
  refine check_illegal hu ?_
  simp [sxFields, badReserved]
  omega

theorem check_nop {v : Nat} {f : S2} (h : f.sd ≠ 0 ∨ f.sa ≠ 0 ∨ f.md ≠ 0) : check v (.nop f) = some (.illegal 5) := by
  simp only [← toNat_ne_zero] at h
  refine check_of_reserved rfl ?_
  by_cases hsd : f.sd.toNat = 0
  · by_cases hsa : f.sa.toNat = 0
    · have hmd : f.md.toNat ≠ 0 := by omega
      simp [s2Fields, badReserved, hsd, hsa, hmd.symm]
    · simp [s2Fields, badReserved, hsd, hsa]
  · simp [s2Fields, badReserved, hsd]

/-- Settles O4: each effect is on the group alone but for a FENCE that waits; then the checks of unused fields. -/
theorem pcOnlyPaletteAndFpc : Obligations.PcOnlyPaletteAndFpc := by
  unfold Obligations.PcOnlyPaletteAndFpc
  refine ⟨⟨fun f s c h => retires_of_group rfl h (isVector_nop f) rfl rfl rfl, fun f s c h => ?_, fun f s c h => ?_,
      fun f s c h => retires_of_group rfl h (isVector_cfence f) rfl rfl rfl⟩,
    ⟨fun f s c h => palset_ends h, fun f s c h => fpcset_ends h, fun f s c h => writesScalar_of_setS rfl h (isVector_palget f) rfl rfl,
      fun f s c h => writesScalar_of_setS rfl h (isVector_fpcget f) rfl rfl⟩,
    fun f v => check_nop, rfl, ?_, ?_⟩
  · rw [← fenceWaits_iff]
    exact fence_ends h
  · exact retires_next rfl h (.inl (isVector_yield f)) rfl rfl rfl fun _ hg => ⟨_, hg⟩
  · simp only [List.forall_mem_cons, List.not_mem_nil, false_imp_iff, implies_true, and_true]
    exact ⟨fun f v => check_masked_unused rfl, fun f v => check_masked_unused rfl⟩
  · simp only [List.forall_mem_cons, List.not_mem_nil, false_imp_iff, implies_true, and_true]
    exact ⟨fun f v => check_get_unused rfl, fun f v => check_get_unused rfl⟩

end Sys2Proof.Machine
end

