-- ==== Sys2Proof/Proofs/CommitOfStaleShown.lean ====
section

/-! # A commit for a workgroup listed under another launch (O49)

A group finds its workgroup under its own launch's key. `ParkedAlone` does not say that the workgroup so found names that launch too, and a
commit clears what groups see of a scratchpad (`setShown`) only in the workgroups that name the launch. Where it names another one, the commit's
read-modify-write takes its old value from the bytes shown since an earlier commit and not from the scratchpad, as the statement has it. -/

namespace Sys2Proof.Machine

/-- SLDA s1 of 8 bytes: it adds s0, zero, to the word at byte 0 of the scratchpad. -/
def parkedSlda : SX := { sd := 1, md := 3 }

/-- The workgroup under key (0, 0): its scratchpad is zero, it shows a byte 1 at 0, and it names launch 1. -/
def staleWg : Workgroup := { wgStart 1 0 0 0 0 0 0 0 [0] [] 0 0 with shown := some ([(0, 1)], []) }

/-- The only group of launch 0, parked at the SLDA until the commit. -/
def staleGroup : Group := { groupStart 0 0 0 0 0 0 0 probeKernel.entry with status := .parked .commit }

/-- The DET launch 0, its code the SLDA. -/
def staleLaunch : Launch :=
  bareLaunch { probeKernel with det := true } (msetRun 0 [] probeKernel.entry.toNat (wordsBytes (encode (.slda parkedSlda))))

/-- A package with that launch, that workgroup and that group. -/
def staleState : State :=
  { State.reset with
    launches := [(0, staleLaunch)], wgs := [(wgKey 0 0, staleWg)], groups := [(0, staleGroup)], cores := [(0, getCore State.reset 0)] }

/-- The group as the SLDA runs at the commit; launch 0 then shows memory as it stands, the workgroup still its stale bytes. -/
def staleCtx : Ctx := ⟨0, { staleGroup with status := .run }, staleWg, staleLaunch, .slda parkedSlda, 12⟩

theorem parkedAlone_staleState : ParkedAlone staleState 0 0 (.slda parkedSlda) staleCtx staleGroup staleLaunch where
  launch := rfl
  ready := by decide +kernel
  alone := rfl
  own := rfl
  parked := rfl
  noWork := by decide +kernel
  bare := by decide +kernel
  here := by decide +kernel
  fetched := by decide +kernel
  runs := by decide +kernel

/-- The SLDA passes its checks, made at the commit. -/
theorem checkAcc_staleState :
    checkAcc (atCommitOf staleState 0 0 staleGroup) staleCtx false true true [⟨0, 0, 8⟩] = none := by decide +kernel

/-- The commit answers the SLDA with the shown byte 1. -/
theorem detCommit_staleState : ∀ t g', exec (.detCommit 0) staleState = .next t → tget t.groups 0 = some g' → sreg g' 1 = 1 := by
  have h : (match exec (.detCommit 0) staleState with
    | .next t => (tget t.groups 0).map (fun g => sreg g 1)
    | _ => none) = some 1 := by decide +kernel
  intro t g' ht hg
  rw [ht] at h
  simpa [hg] using h

/-- Refutes O49, in its clause on SLDA: the statement's old value is the word of the scratchpad, zero here, and the commit answers 1. The
statement lacks the hypothesis that the workgroup a group stands in names the group's launch. -/
theorem not_launchesCommitAndEnd : ¬ Obligations.LaunchesCommitAndEnd := by
  unfold Obligations.LaunchesCommitAndEnd
  rintro ⟨-, -, parked, -, -⟩
  obtain ⟨slda, -⟩ := parked staleState 0 0 staleGroup staleLaunch staleCtx
  obtain ⟨t, g', ht, hg, -, -, -, hsd, -⟩ := slda parkedSlda parkedAlone_staleState checkAcc_staleState
  have hzero : sreg g' 1 = 0 := hsd.trans (by decide +kernel)
  rw [detCommit_staleState t g' ht hg] at hzero
  cases hzero

end Sys2Proof.Machine
end

