-- ==== Sys2Proof/Proofs/ScratchWrites.lean ====
section

/-! # What an instruction that writes scratchpad leaves (O9, O10) -/

namespace Sys2Proof.Machine

/-! ## Numbers in bytes -/

theorem ofBytes_lt (bs : List Byte) : ofBytes bs < 2 ^ (8 * bs.length) := by
  induction bs with
  | nil => exact Nat.one_pos
  | cons b bs ih =>
    have hb := b.isLt
    rw [ofBytes, List.length_cons, Nat.mul_succ, pow_add]
    omega

/-- A loaded value by its top bit (R194). -/
theorem extendTo64_of_lt {signed : Bool} {w x : Nat} (hw : w ≠ 0) (hx : x < 2 ^ (8 * w)) :
    extendTo64 signed w x = if signed ∧ 2 ^ (8 * w - 1) ≤ x then BitVec.ofInt 64 ((x : Int) - 2 ^ (8 * w)) else BitVec.ofNat 64 x := by
  unfold extendTo64
  cases signed with
  | false => simp
  | true =>
    rw [sextI_of_lt (by omega) hx, if_pos rfl, dword]
    by_cases h : 2 ^ (8 * w - 1) ≤ x
    · simp only [h, and_self, if_true]
    · simp only [h, and_false, if_false, BitVec.ofInt_natCast]

/-! ## A workgroup whose scratchpad has been written -/

theorem padOf_wgWrite (w : Workgroup) (a : Nat) (bs : List Byte) : padOf (wgWrite w a bs) = storedAt a bs (padOf w) :=
  mget_msetRun_storedAt w.scratch a bs

/-- A write clears the marks of the words that it covers whole, and no other (R160). -/
theorem mget_spoison_wgWrite (w : Workgroup) (a : Nat) (bs : List Byte) (n : Nat) :
    mget false (wgWrite w a bs).spoison n = if wholeIn a bs.length n then false else mget false w.spoison n := by
  have hmark : tget (wgWrite w a bs).spoison n = if !wholeIn a bs.length n then tget w.spoison n else none :=
    tget_filter_key w.spoison (fun n => !wholeIn a bs.length n) n
  rw [mget, hmark]
  cases wholeIn a bs.length n <;> rfl

theorem sameWatches_hitUnits (ws : List Watch) (a n : Nat) : SameWatches (hitUnits ws a n) ws := by
  simp [SameWatches, hitUnits]

/-- From `s` to `s1` only the workgroup at `key` has changed, from `w` to `w1`, in its scratchpad, its marks, and the hits of its watches. -/
structure ScratchWritten (s s1 : State) (key : Nat) (w w1 : Workgroup) : Prop where
  rest : s1 = { s with wgs := s1.wgs }
  own : tget s1.wgs key = some w1
  others : ∀ k, k ≠ key → tget s1.wgs k = tget s.wgs k
  kept : w1 = { w with scratch := w1.scratch, spoison := w1.spoison, watch := w1.watch }
  watches : SameWatches w1.watch w.watch

theorem ScratchWritten.refl {s : State} {key : Nat} {w : Workgroup} (h : tget s.wgs key = some w) : ScratchWritten s s key w w :=
  ⟨rfl, h, fun _ _ => rfl, rfl, rfl⟩

/-- One more write. -/
theorem ScratchWritten.put {s s1 : State} {key : Nat} {w w1 : Workgroup} (h : ScratchWritten s s1 key w w1) (a : Nat) (bs : List Byte) :
    ScratchWritten s (scratchPut s1 key a bs) key w (wgWrite w1 a bs) := by
  obtain ⟨rest, own, others, kept, watches⟩ := h
  have hput : scratchPut s1 key a bs = putWg s1 key (wgWrite w1 a bs) := by rw [scratchPut, own]
  rw [hput]
  refine ⟨?_, tget_tput_same .., fun k hk => (tget_tput_ne _ _ hk).trans (others k hk), ?_, (sameWatches_hitUnits ..).trans watches⟩
  · rw [rest]; rfl
  · rw [kept]; rfl

/-- One write of scratchpad. -/
theorem scratchWritten_scratchPut {s : State} {key : Nat} {w : Workgroup} (h : tget s.wgs key = some w) (a : Nat) (bs : List Byte) :
    ScratchWritten s (scratchPut s key a bs) key w (wgWrite w a bs) := (ScratchWritten.refl h).put a bs

section
variable {i : Instr} {s s1 : State} {c : Ctx} {w1 : Workgroup}

/-- The issuing group's context after scratchpad was written. -/
theorem ScratchWritten.ctxOf_eq (h : ScratchWritten s s1 (gWg c.g) c.w w1) (hc : ctxOf s i = some c) : ctxOf s1 i = some { c with w := w1 } := by
  obtain ⟨hcur, hg, -, hl, hi, hlen⟩ := ctxOf_some hc
  obtain ⟨rest, own, -, -, -⟩ := h
  have hcur1 : s1.cur = some (.group c.k) := by rw [rest]; exact hcur
  have hg1 : tget s1.groups c.k = some c.g := by rw [rest]; exact hg
  have hl1 : tget s1.launches c.g.launch = some c.l := by rw [rest]; exact hl
  simp only [ctxOf, hcur1, groupCtx, hg1, own, hl1]
  rw [← hlen, ← hi]

/-- Retirement does not look at a workgroup's scratchpad. -/
theorem retire_of_scratchWritten (h : ScratchWritten s s1 (gWg c.g) c.w w1) (g : Group) (pc : DWord) :
    retire s1 c g pc = retire s1 { c with w := w1 } g pc := by
  have hcore : w1.core = c.w.core := by rw [h.kept]
  simp only [retire, countRetired, hcore]
  rfl

/-- An instruction whose effect writes its workgroup's scratchpad and changes its group retires with both done. -/
theorem storesScratch_of_body {body : Ctx → Eff} {g1 : Group} {bytes : Nat → Byte} {mark : Nat → Bool} {P : Group → Prop}
    (he : exec i s = issue i s body) (h : Ready s i c) (hv : isVector i = false ∨ execMask c.g ≠ 0) (hb : body c = .next s1 g1)
    (hl : g1.launch = c.g.launch) (hw : g1.wg = c.g.wg) (hs : ScratchWritten s s1 (gWg c.g) c.w w1) (hbytes : ∀ a, padOf w1 a = bytes a)
    (hmark : ∀ n, mget false w1.spoison n = mark n) (hP : ∀ g', Counted g1 g' → P g') : StoresScratch i s c c.w bytes mark P := by
  have hlen : c.g.pc + BitVec.ofNat 64 c.len = after i c := by rw [(ctxOf_some h.1).2.2.2.2.2, after]
  have hc1 := hs.ctxOf_eq h.1
  obtain ⟨⟨groups, wgs, own, rest⟩, hg'⟩ := retire_spec hc1 g1 (after i c) hl hw
  have hexec : exec i s = .next (retire s1 { c with w := w1 } g1 (after i c)) := by
    rw [he, issue_ready body h hv, hb, ← retire_of_scratchWritten hs, ← hlen]; rfl
  refine ⟨_, _, _, hexec, hg', retiredGroup_pc .., hP _ (retiredGroup_counted ..), own, ?_, hs.watches, hbytes, hmark, fun j hj => ?_,
    fun key hkey => (wgs key hkey).trans (hs.others key hkey), rest.trans ?_⟩
  · rw [hs.kept]
  · rw [groups j hj, hs.rest]
  · rw [hs.rest]

/-- An instruction of a lane access whose check meets the tape table in user mode becomes entry 0 of the operand log (R241). -/
theorem logs_of_body {body : Ctx → Eff} {m : Miss} (he : exec i s = issue i s body) (h : Ready s i c)
    (hv : isVector i = false ∨ execMask c.g ≠ 0) (hb : body c = .tape m) (hh : c.g.handler = false) : Logs i s c m := by
  obtain ⟨-, -, -, -, hi, hlen⟩ := ctxOf_some h.1
  rw [Logs, he, issue_ready body h hv, hb, settle, hh, after, hi, hlen]
  rfl

/-- What becomes of an access whose check fails with `m`: it traps, or in user mode a tape hit is logged (R241). -/
theorem traps_of_missEff {body : Ctx → Eff} {m : Miss} (he : exec i s = issue i s body) (h : Ready s i c)
    (hv : isVector i = false ∨ execMask c.g ≠ 0) (hb : body c = missEff m) (hm : m.cause ≠ 0x06) (hh : Handled c) :
    Traps i s c m.cause m.tval m.lanes c.g.pc :=
  traps_of_body he h hv (hb.trans (if_neg hm)) hh

theorem logs_of_missEff {body : Ctx → Eff} {m : Miss} (he : exec i s = issue i s body) (h : Ready s i c)
    (hv : isVector i = false ∨ execMask c.g ≠ 0) (hb : body c = missEff m) (hm : m.cause = 0x06) (hh : c.g.handler = false) : Logs i s c m :=
  logs_of_body he h hv (hb.trans (if_pos hm)) hh

end

end Sys2Proof.Machine
end

