-- ==== Sys2Proof/Proofs/ScalarAccess.lean ====
section

/-! # SLD and SST (O9) -/

namespace Sys2Proof.Machine

theorem scalarW_ne_zero (f : SX) : scalarW f ≠ 0 := Nat.two_pow_pos _ |>.ne'

section
variable {s : State} {c : Ctx} {i : Instr} {f : SX}

/-- What the issuing group reads of its scratchpad, by bytes. -/
theorem scratchNat_eq (hc : ctxOf s i = some c) (a n : Nat) :
    scratchNat s c.g a n = ofBytes ((List.range n).map fun j => (scratchByte c.w c.g (a + j)).1) := by
  rw [scratchNat, scratchRead, (ctxOf_some hc).2.2.1]
  simp only [List.map_map, Function.comp_def]

theorem scratchNat_lt (hc : ctxOf s i = some c) (a n : Nat) : scratchNat s c.g a n < 2 ^ (8 * n) := by
  rw [scratchNat_eq hc]
  exact (ofBytes_lt _).trans_eq (by rw [List.length_map, List.length_range])

/-- A scalar load's value (R194). -/
theorem extendTo64_scratchNat (hc : ctxOf s i = some c) (signed : Bool) (a : Nat) :
    extendTo64 signed (scalarW f) (scratchNat s c.g a (scalarW f)) =
      if signed ∧ 2 ^ (8 * scalarW f - 1) ≤ scratchNat s c.g a (scalarW f)
      then BitVec.ofInt 64 ((scratchNat s c.g a (scalarW f) : Int) - 2 ^ (8 * scalarW f))
      else BitVec.ofNat 64 (scratchNat s c.g a (scalarW f)) :=
  extendTo64_of_lt (scalarW_ne_zero f) (scratchNat_lt hc ..)

/-! ## The effects by their check -/

theorem sldEff_fails {m : Miss} (h : checkAcc s c false true false [⟨0, scalarOff c f, scalarW f⟩] = some m) : sldEff f s c = missEff m := by
  simp only [sldEff, h]

theorem sldEff_passes (h : checkAcc s c false true false [⟨0, scalarOff c f, scalarW f⟩] = none) :
    sldEff f s c = .next s (setS c.g f.sd.toNat (extendTo64 (f.md.getLsbD 2) (scalarW f) (scratchNat s c.g (scalarOff c f).toNat (scalarW f)))) := by
  simp only [sldEff, h]

theorem sstEff_fails {m : Miss} (h : checkAcc s c false false true [⟨0, scalarOff c f, scalarW f⟩] = some m) : sstEff f s c = missEff m := by
  simp only [sstEff, h]

/-- The bytes that SST stores. -/
abbrev sstBytes (c : Ctx) (f : SX) : List Byte := bytesOf (scalarW f) (sval c.g f.lit f.sb).toNat

theorem sstEff_stores (hdet : c.l.kern.det = false) (h : checkAcc s c false false true [⟨0, scalarOff c f, scalarW f⟩] = none) :
    sstEff f s c = .next (scratchPut s (gWg c.g) (scalarOff c f).toNat (sstBytes c f)) c.g := by
  simp only [sstEff, h, threadStore, Ctx.det, hdet, Bool.false_eq_true, if_false]

theorem sstEff_buffers (hdet : c.l.kern.det = true) (h : checkAcc s c false false true [⟨0, scalarOff c f, scalarW f⟩] = none) :
    sstEff f s c = .next s { c.g with detBuf := c.g.detBuf ++ [((scalarOff c f).toNat, clean (sstBytes c f))] } := by
  simp only [sstEff, h, threadStore, Ctx.det, hdet, if_true]

/-! ## The instructions -/

theorem sld_loads (h : Ready s (.sld f) c) (hok : checkAcc s c false true false [⟨0, scalarOff c f, scalarW f⟩] = none) :
    WritesScalar (.sld f) s c f.sd.toNat (extendTo64 (f.md.getLsbD 2) (scalarW f) (scratchNat s c.g (scalarOff c f).toNat (scalarW f))) c.g.scc :=
  writesScalar_of_setS rfl h (isVector_sld f) (sldEff_passes hok) rfl

theorem sst_stores (h : Ready s (.sst f) c) (hdet : c.l.kern.det = false)
    (hok : checkAcc s c false false true [⟨0, scalarOff c f, scalarW f⟩] = none) :
    StoresScratch (.sst f) s c c.w (storedAt (scalarOff c f).toNat (sstBytes c f) (padOf c.w))
      (fun n => if wholeIn (scalarOff c f).toNat (scalarW f) n then false else mget false c.w.spoison n) (fun g' => Counted c.g g') := by
  refine storesScratch_of_body rfl h (.inl (isVector_sst f)) (sstEff_stores hdet hok) rfl rfl
    (scratchWritten_scratchPut (ctxOf_some h.1).2.2.1 _ _) (fun a => by rw [padOf_wgWrite]) (fun n => ?_) fun _ hg => hg
  rw [mget_spoison_wgWrite, bytesOf_length]

theorem sst_buffers (h : Ready s (.sst f) c) (hdet : c.l.kern.det = true)
    (hok : checkAcc s c false false true [⟨0, scalarOff c f, scalarW f⟩] = none) :
    Retires (.sst f) s c (after (.sst f) c) (fun g' =>
      Counted { c.g with detBuf := c.g.detBuf ++ [((scalarOff c f).toNat, clean (sstBytes c f))] } g') :=
  retires_of_group rfl h (isVector_sst f) (sstEff_buffers hdet hok) rfl rfl

end

/-- Settles O9: each instruction by what its check finds. -/
theorem scalarLoadsAndStores : Obligations.ScalarLoadsAndStores := by
  unfold Obligations.ScalarLoadsAndStores
  intro f s c off w data
  refine ⟨fun h => ⟨fun hok => ?_, fun m hm hc hh => ?_, fun m hm hc hh => ?_⟩, fun h => ⟨fun hok => ⟨fun hdet => ?_, fun hdet => ?_⟩,
    fun m hm hc hh => ?_, fun m hm hc hh => ?_⟩⟩
  · have hload := sld_loads h hok
    rw [extendTo64_scratchNat h.1, scratchNat_eq h.1] at hload
    exact hload
  · exact traps_of_missEff rfl h (.inl (isVector_sld f)) (sldEff_fails hm) hc hh
  · exact logs_of_missEff rfl h (.inl (isVector_sld f)) (sldEff_fails hm) hc hh
  · exact sst_stores h hdet hok
  · exact sst_buffers h hdet hok
  · exact traps_of_missEff rfl h (.inl (isVector_sst f)) (sstEff_fails hm) hc hh
  · exact logs_of_missEff rfl h (.inl (isVector_sst f)) (sstEff_fails hm) hc hh

end Sys2Proof.Machine
end

