-- ==== Sys2Proof/Proofs/AtomicValues.lean ====
section

/-! # The values of atomics modulo 2^w (O10)

The statement on VATOM lets the lanes at one address act on a number, of which memory holds the low `w` bits; the model reads those bits back
between the lanes. Both come to the same bits: each operation but two depends on its old value modulo 2^w alone, and the two, the compare and the
addition of F64 on words of 32 bits, meet no number for which it matters. -/

namespace Sys2Proof.Machine

/-! ## Floating-point additions -/

/-- A format with infinities reads no bit past its width. -/
theorem decodeF_mod {k : FFmt} {b n : Nat} (hk : k.hasInf = true) (hn : k.f + k.e < n) (hw : k.width = k.f + k.e + 1) :
    decodeF k (b % 2 ^ n) = decodeF k b := by
  have hsign : (b % 2 ^ n).testBit (k.width - 1) = b.testBit (k.width - 1) := by
    rw [Nat.testBit_mod_two_pow, decide_eq_true (by omega), Bool.true_and]
  have hexp : b % 2 ^ n / 2 ^ k.f % 2 ^ k.e = b / 2 ^ k.f % 2 ^ k.e := by
    refine Nat.eq_of_testBit_eq fun j => ?_
    simp only [Nat.testBit_mod_two_pow, Nat.testBit_div_two_pow]
    by_cases hj : j < k.e
    · rw [decide_eq_true (by omega : j + k.f < n), Bool.true_and]
    · rw [decide_eq_false hj, Bool.false_and, Bool.false_and]
  have hfrac : b % 2 ^ n % 2 ^ k.f = b % 2 ^ k.f := Nat.mod_mod_of_dvd _ (pow_dvd_pow 2 (by omega))
  simp only [decodeF, hsign, hexp, hfrac, hk, Bool.not_true, Bool.false_eq_true, false_and, if_false]

theorem atomAddF_mod {k : FFmt} {x v n : Nat} (hk : k.hasInf = true) (hn : k.f + k.e < n) (hw : k.width = k.f + k.e + 1) :
    atomAddF k (x % 2 ^ n) v = atomAddF k x v := by
  rw [atomAddF, atomAddF, decodeF_mod hk hn hw]

theorem decodeF_f64_subnormal {x : Nat} (h : x < 2 ^ 52) : decodeF f64 x = .fin false x (-1074) := by
  have hsign : x.testBit (f64.width - 1) = false := Nat.testBit_lt_two_pow (h.trans (by decide))
  have hexp : x / 2 ^ f64.f = 0 := Nat.div_eq_of_lt h
  have hfrac : x % 2 ^ f64.f = x := Nat.mod_eq_of_lt h
  simp only [decodeF, hsign, hexp, hfrac]
  rfl

theorem bitLen_le {m n : Nat} (h : m < 2 ^ n) : bitLen m ≤ n := by
  unfold bitLen
  split
  · exact Nat.zero_le n
  · next h0 => exact (Nat.log2_lt h0).2 h

theorem exceedsMax_f64 {n : Nat} {q : Int} (hn : n < 2 ^ 53) (hq : q ≤ -1074) : exceedsMax f64 n q = false := by
  have hmax : decodeF f64 (maxFinite f64) = .fin false (2 ^ 53 - 1) 971 := by decide +kernel
  have hpow : 2 ≤ 2 ^ (971 - q).toNat := by
    calc 2 = 2 ^ 1 := rfl
      _ ≤ 2 ^ (971 - q).toNat := Nat.pow_le_pow_right (by norm_num) (by omega)
  have hle := Nat.mul_le_mul_left (2 ^ 53 - 1) hpow
  rw [exceedsMax, hmax]
  simp only [if_neg (show ¬(971 : Int) ≤ q by omega), decide_eq_false_iff_not]
  omega

/-- A subnormal value of F64 is its own bits. -/
theorem roundF_f64_subnormal {m : Nat} (h : m < 2 ^ 52) : (roundF f64 .rne false false m (-1074)).1 = m := by
  have hlen := bitLen_le h
  unfold roundF
  split
  · next h0 => rw [h0]; rfl
  · generalize hq : (-1074 : Int) + (bitLen m : Int) - 1 - f64.f = q0
    have hf : (f64.f : Int) = 52 := rfl
    have hq0 : q0 ≤ -1074 := by omega
    have hround : ∀ q : Int, q ≤ -1074 → (roundTo .rne false m (-1074) q).1 = m * 2 ^ (-1074 - q).toNat := fun q hle => by
      rw [roundTo, if_pos hle]
    have hbits : m * 2 ^ (-1074 - q0).toNat < 2 ^ 53 :=
      calc m * 2 ^ (-1074 - q0).toNat < 2 ^ bitLen m * 2 ^ (-1074 - q0).toNat :=
            Nat.mul_lt_mul_of_pos_right (lt_two_pow_bitLen m) (by positivity)
        _ = 2 ^ 53 := by rw [← pow_add]; congr 1; omega
    have hmin : max q0 (minQuantum f64) = -1074 := max_eq_right hq0
    simp only [hround q0 hq0, exceedsMax_f64 hbits hq0, hmin, Bool.false_eq_true, if_false]
    rw [hround _ le_rfl, sub_self, Int.toNat_zero, pow_zero, Nat.mul_one, packMag, if_pos (show m < 2 ^ f64.f from h)]
    rfl

/-- F64 adds subnormal values as it adds their bits. -/
theorem atomAddF_f64_subnormal {x v : Nat} (h : x + v < 2 ^ 52) : atomAddF f64 x v = x + v := by
  have hsum : addDyadic .rne false x (-1074) false v (-1074) = (false, x + v, -1074) := by
    simp only [addDyadic, min_self, sub_self, Int.toNat_zero, pow_zero, Nat.mul_one, Bool.false_eq_true, if_false, if_true]
    split
    · next h0 => simp only [show x + v = 0 by omega]
    · simp only [show ¬((x : Int) + v < 0) by omega, decide_false, show ((x : Int) + v).natAbs = x + v by omega]
  rw [atomAddF, decodeF_f64_subnormal (by omega), decodeF_f64_subnormal (by omega)]
  simp only [addF, hsum]
  exact roundF_f64_subnormal h

/-! ## One operation -/

theorem sextI_mod (w x : Nat) : sextI w (x % 2 ^ w) = sextI w x := by simp only [sextI, Nat.mod_mod]

/-- What keeps the `n`-th old value `y` of lanes that act one after the other on a word of `w` bits from mattering beyond its low bits. -/
structure AtomBound (aop w n y : Nat) : Prop where
  compare : aop = 8 → y < 2 ^ w
  float : aop = 10 → w = 32 → y < (n + 1) * 2 ^ 32

theorem atomBound_zero {aop w y : Nat} (h : y < 2 ^ w) : AtomBound aop w 0 y :=
  ⟨fun _ => h, fun _ hw => by rw [hw] at h; omega⟩

section
variable {w y v : Nat}

/-- The operations and their old value. -/
theorem atomNew_mod {aop n : Nat} (sg : Bool) (b : Nat) (hw : w = 32 ∨ w = 64) (hv : v < 2 ^ w) (hn : n < 128) (hy : AtomBound aop w n y) :
    atomNew aop w sg y v b % 2 ^ w = atomNew aop w sg (y % 2 ^ w) v b % 2 ^ w := by
  have hrd : (if sg then sextI w (y % 2 ^ w) else ((y % 2 ^ w % 2 ^ w : Nat) : Int)) = if sg then sextI w y else ((y % 2 ^ w : Nat) : Int) := by
    rw [sextI_mod, Nat.mod_mod]
  have hthen (p : Prop) [Decidable p] (z : Nat) : (if p then y else z) % 2 ^ w = (if p then y % 2 ^ w else z) % 2 ^ w := by
    split <;> simp only [Nat.mod_mod]
  have helse (p : Prop) [Decidable p] (z : Nat) : (if p then z else y) % 2 ^ w = (if p then z else y % 2 ^ w) % 2 ^ w := by
    split <;> simp only [Nat.mod_mod]
  have hmid : ∀ x, x + 2 ^ w - v % 2 ^ w = x + (2 ^ w - v % 2 ^ w) := fun x => Nat.add_sub_assoc (Nat.mod_lt _ (by positivity)).le x
  unfold atomNew
  simp only [hrd]
  match aop, hy with
  | 0, _ | 7, _ | 11, _ => simp
  | 1, _ => simp [hmid]
  | 2, _ | 3, _ => simp [helse]
  | 4, _ => simp [Nat.and_mod_two_pow]
  | 5, _ => simp [Nat.or_mod_two_pow]
  | 6, _ => simp [Nat.xor_mod_two_pow]
  | 8, hy => simp [Nat.mod_eq_of_lt (hy.compare rfl)]
  | 9, _ => exact congrArg (· % 2 ^ w) (atomAddF_mod rfl (by rcases hw with rfl | rfl <;> decide) rfl).symm
  | 10, hy =>
    rcases hw with rfl | rfl
    · have hlt := hy.float rfl rfl
      show atomAddF f64 y v % 2 ^ 32 = atomAddF f64 (y % 2 ^ 32) v % 2 ^ 32
      rw [atomAddF_f64_subnormal (by omega), atomAddF_f64_subnormal (by omega), Nat.mod_add_mod]
    · exact congrArg (· % 2 ^ 64) (atomAddF_mod rfl (by decide) rfl).symm
  | k + 12, _ => simp [hthen]

theorem atomBound_succ {aop n : Nat} (sg : Bool) (b : Nat) (hv : v < 2 ^ w) (hn : n < 128) (hy : AtomBound aop w n y) :
    AtomBound aop w (n + 1) (atomNew aop w sg y v b) := by
  refine ⟨?_, ?_⟩
  · rintro rfl
    show (if y = b then v else y) < 2 ^ w
    split
    · exact hv
    · exact hy.compare rfl
  · rintro rfl rfl
    have hlt := hy.float rfl rfl
    show atomAddF f64 y v < _
    rw [atomAddF_f64_subnormal (by omega)]
    omega

/-- Lanes that act one after the other, on the whole number or on its low bits each time. -/
theorem foldl_atomNew_mod {aop n : Nat} {sg : Bool} {ls : List Nat} {v b : Nat → Nat} (hw : w = 32 ∨ w = 64) (hv : ∀ l ∈ ls, v l < 2 ^ w)
    (hn : n + ls.length ≤ 128) (hy : AtomBound aop w n y) :
    ls.foldl (fun x l => atomNew aop w sg x (v l) (b l)) y % 2 ^ w =
      ls.foldl (fun x l => atomNew aop w sg x (v l) (b l) % 2 ^ w) (y % 2 ^ w) := by
  induction ls generalizing n y with
  | nil => rfl
  | cons l ls ih =>
    rw [List.length_cons] at hn
    have hl : v l < 2 ^ w := hv l List.mem_cons_self
    rw [List.foldl_cons, List.foldl_cons, ih (fun k hk => hv k (List.mem_cons_of_mem _ hk)) (n := n + 1) (by omega)
      (atomBound_succ sg _ hl (by omega) hy), atomNew_mod sg _ hw hl (by omega) hy]

end

end Sys2Proof.Machine
end

