-- ==== Sys2Proof/Proofs/ScalarAtomic.lean ====
section

/-! # SLDA (O10) -/

namespace Sys2Proof.Machine

section
variable {s : State} {c : Ctx} {f : SX}

/-- The word that SLDA meets. -/
abbrev sldaOld (s : State) (c : Ctx) (f : SX) : Nat := scratchNat s c.g (scalarOff c f).toNat (scalarW f)

/-- The bytes that SLDA leaves (R195). -/
abbrev sldaBytes (s : State) (c : Ctx) (f : SX) : List Byte :=
  bytesOf (scalarW f) (atomNew (bits f.md 4 4) (8 * scalarW f) (f.md.getLsbD 2) (sldaOld s c f)
    ((sval c.g f.lit f.sb).toNat % 2 ^ (8 * scalarW f)) ((sval c.g f.lit f.sc).toNat % 2 ^ (8 * scalarW f)))

theorem sldaEff_det (h : c.l.kern.det = true) : sldaEff f s c = .park s c.g .commit := if_pos h

theorem sldaEff_not_det (h : c.l.kern.det = false) : sldaEff f s c = sldaDo f s c := if_neg (Bool.eq_false_iff.1 h)

theorem sldaDo_fails {m : Miss} (h : checkAcc s c false true true [⟨0, scalarOff c f, scalarW f⟩] = some m) : sldaDo f s c = missEff m := by
  simp only [sldaDo, h]

theorem sldaDo_passes (h : checkAcc s c false true true [⟨0, scalarOff c f, scalarW f⟩] = none) :
    sldaDo f s c = .next (scratchPut s (gWg c.g) (scalarOff c f).toNat (sldaBytes s c f))
      (setS c.g f.sd.toNat (extendTo64 (f.md.getLsbD 2) (scalarW f) (sldaOld s c f))) := by
  simp only [sldaDo, h]

theorem slda_parks (h : Ready s (.slda f) c) (hdet : c.l.kern.det = true) : Parks (.slda f) s c .commit :=
  parks_of_body rfl h (.inl (isVector_slda f)) (sldaEff_det hdet)

theorem slda_stores (h : Ready s (.slda f) c) (hdet : c.l.kern.det = false)
    (hok : checkAcc s c false true true [⟨0, scalarOff c f, scalarW f⟩] = none) :
    StoresScratch (.slda f) s c c.w (storedAt (scalarOff c f).toNat (sldaBytes s c f) (padOf c.w))
      (fun n => if wholeIn (scalarOff c f).toNat (scalarW f) n then false else mget false c.w.spoison n)
      (fun g' => Counted { c.g with sregs := g'.sregs } g' ∧
        sreg g' f.sd.toNat = extendTo64 (f.md.getLsbD 2) (scalarW f) (sldaOld s c f) ∧ ∀ n, n ≠ f.sd.toNat → sreg g' n = sreg c.g n) := by
  refine storesScratch_of_body rfl h (.inl (isVector_slda f)) ((sldaEff_not_det hdet).trans (sldaDo_passes hok)) rfl rfl
    (scratchWritten_scratchPut (ctxOf_some h.1).2.2.1 _ _) (fun a => by rw [padOf_wgWrite]) (fun n => ?_) fun _ hg => counted_setS hg
  rw [mget_spoison_wgWrite, bytesOf_length]

end

end Sys2Proof.Machine
end

