-- ==== Sys2Proof/Proofs/LaneAtomics.lean ====
section

/-! # VATOM (O10)

The lanes act in turn on the bytes of the scratchpad (`rmwBytes`). The number at an aligned word after them is a fold over the lanes that name
the word alone (`numAt_foldl_rmwBytes`), and the numbers at aligned words give every byte (`byte_of_numAt`). -/

namespace Sys2Proof.Machine

/-! ## Numbers at aligned words -/

theorem bytesOf_ofBytes (bs : List Byte) : bytesOf bs.length (ofBytes bs) = bs := by
  induction bs with
  | nil => rfl
  | cons b bs ih =>
    have hb := b.isLt
    have hhead : BitVec.ofNat 8 (b.toNat + 256 * ofBytes bs) = b := by
      rw [← BitVec.toNat_inj, BitVec.toNat_ofNat]
      omega
    have htail : ∀ k, (b.toNat + 256 * ofBytes bs) / 2 ^ (8 * (k + 1)) = ofBytes bs / 2 ^ (8 * k) := fun k => by
      rw [show 2 ^ (8 * (k + 1)) = 256 * 2 ^ (8 * k) by ring, ← Nat.div_div_eq_div_mul]
      congr 1
      omega
    rw [ofBytes, bytesOf, List.length_cons, List.range_succ_eq_map, List.map_cons, List.map_map]
    simp only [Function.comp_def, Nat.succ_eq_add_one, htail, Nat.mul_zero, pow_zero, Nat.div_one, hhead]
    exact congrArg (b :: ·) ih

theorem bytesOf_low (w x : Nat) : bytesOf w (x % 2 ^ (8 * w)) = bytesOf w x := by
  have h := bytesOf_ofBytes (bytesOf w x)
  rwa [bytesOf_length, ofBytes_bytesOf] at h

section
variable {m : Nat → Byte} {w a off : Nat}

theorem numAt_lt (m : Nat → Byte) (a w : Nat) : numAt m a w < 2 ^ (8 * w) :=
  (ofBytes_lt _).trans_eq (by rw [List.length_map, List.length_range])

theorem bytesOf_numAt (m : Nat → Byte) (a w : Nat) : bytesOf w (numAt m a w) = (List.range w).map fun j => m (a + j) := by
  have h := bytesOf_ofBytes ((List.range w).map fun j => m (a + j))
  rwa [List.length_map, List.length_range] at h

/-- Each byte from the number of the word it stands in. -/
theorem byte_of_numAt (hw : 0 < w) : (bytesOf w (numAt m (a / w * w) w)).getD (a % w) 0 = m a := by
  have hlt := Nat.mod_lt a hw
  have hsum : a / w * w + a % w = a := Nat.div_add_mod' a w
  rw [bytesOf_numAt, List.getD_eq_getElem _ _ (by rwa [List.length_map, List.length_range]), List.getElem_map, List.getElem_range, hsum]

theorem numAt_storedAt_same (m : Nat → Byte) (a w x : Nat) : numAt (storedAt a (bytesOf w x) m) a w = x % 2 ^ (8 * w) := by
  have hbytes : ((List.range w).map fun j => storedAt a (bytesOf w x) m (a + j)) = bytesOf w x := by
    refine List.ext_getElem (by simp) fun j hj hj' => ?_
    rw [List.getElem_map, List.getElem_range, storedAt_in hj', List.getD_eq_getElem _ _ hj']
  rw [numAt, hbytes, ofBytes_bytesOf]

/-- A store of one aligned word leaves the others. -/
theorem numAt_storedAt_of_ne {bs : List Byte} (hbs : bs.length = w) (hoff : off % w = 0) (ha : a % w = 0) (hne : off ≠ a) :
    numAt (storedAt off bs m) a w = numAt m a w := by
  obtain ⟨p, rfl⟩ := Nat.dvd_of_mod_eq_zero hoff
  obtain ⟨q, rfl⟩ := Nat.dvd_of_mod_eq_zero ha
  refine congrArg ofBytes (List.map_congr_left fun j hj => storedAt_out ?_)
  have hjw := List.mem_range.1 hj
  rw [hbs, ← Nat.mul_succ]
  rcases Nat.lt_or_gt_of_ne (fun e : p = q => hne (congrArg _ e)) with h | h
  · exact .inr ((Nat.mul_le_mul_left w h).trans (Nat.le_add_right ..))
  · have hle := Nat.mul_le_mul_left w h
    rw [Nat.mul_succ] at hle
    exact .inl (by omega)

end

/-! ## Lanes that act in turn -/

/-- One lane's read-modify-write on bytes. -/
def rmwBytes (w : Nat) (off : Nat → Nat) (rmw : Nat → Nat → Nat) (m : Nat → Byte) (l : Nat) : Nat → Byte :=
  storedAt (off l) (bytesOf w (rmw (numAt m (off l) w) l)) m

/-- The number at an aligned word after the lanes. -/
theorem numAt_foldl_rmwBytes {w a : Nat} {off : Nat → Nat} {rmw : Nat → Nat → Nat} {ls : List Nat} {m : Nat → Byte} (ha : a % w = 0)
    (hoff : ∀ l ∈ ls, off l % w = 0) :
    numAt (ls.foldl (rmwBytes w off rmw) m) a w =
      (ls.filter fun l => decide (off l = a)).foldl (fun x l => rmw x l % 2 ^ (8 * w)) (numAt m a w) := by
  induction ls generalizing m with
  | nil => rfl
  | cons l ls ih =>
    rw [List.foldl_cons, ih fun k hk => hoff k (List.mem_cons_of_mem _ hk)]
    by_cases h : off l = a
    · rw [List.filter_cons_of_pos (by rwa [decide_eq_true_eq]), List.foldl_cons, rmwBytes, h, numAt_storedAt_same]
    · rw [List.filter_cons_of_neg (by rwa [decide_eq_true_eq]), rmwBytes,
        numAt_storedAt_of_ne (bytesOf_length ..) (hoff l List.mem_cons_self) ha h]

/-- The lanes that act on a word before lane `upTo`, on the number they find there. -/
def metAt (act : Nat → Bool) (off : Nat → Nat) (rmw : Nat → Nat → Nat) (w : Nat) (m : Nat → Byte) (a upTo : Nat) : Nat :=
  (((List.range 128).filter act).filter fun l => decide (off l = a) && decide (l < upTo)).foldl rmw (numAt m a w)

section
variable {aop w : Nat} {sg : Bool} {act : Nat → Bool} {off v b : Nat → Nat} {m : Nat → Byte}

/-- The number that the lanes before `upTo` leave at an aligned word. -/
theorem metAt_mod (hw : w = 4 ∨ w = 8) (hv : ∀ l, l < 128 → v l < 2 ^ (8 * w))
    (hoff : ∀ l, l < 128 → act l = true → off l % w = 0) {a upTo : Nat} (ha : a % w = 0) (hup : upTo ≤ 128) :
    metAt act off (fun x l => atomNew aop (8 * w) sg x (v l) (b l)) w m a upTo % 2 ^ (8 * w) =
      numAt (((List.range upTo).filter act).foldl (rmwBytes w off (fun x l => atomNew aop (8 * w) sg x (v l) (b l))) m) a w := by
  have hlanes : ((List.range 128).filter act).filter (fun l => decide (off l = a) && decide (l < upTo)) =
      ((List.range upTo).filter act).filter fun l => decide (off l = a) := by
    rw [List.filter_filter, List.filter_filter, ← filter_range_lt _ hup]
    refine List.filter_congr fun l _ => ?_
    rw [Bool.and_right_comm]
  have hmem : ∀ l, l ∈ (List.range upTo).filter act → l < 128 ∧ act l = true := fun l hl => by
    obtain ⟨hl, hact⟩ := List.mem_filter.1 hl
    exact ⟨(List.mem_range.1 hl).trans_le hup, hact⟩
  have hlen : (((List.range upTo).filter act).filter fun l => decide (off l = a)).length ≤ 128 :=
    ((List.length_filter_le ..).trans (List.length_filter_le ..)).trans ((List.length_range).trans_le hup)
  rw [numAt_foldl_rmwBytes ha fun l hl => hoff l (hmem l hl).1 (hmem l hl).2, metAt, hlanes,
    foldl_atomNew_mod (by omega) (fun l hl => hv l (hmem l (List.mem_filter.1 hl).1).1) (by omega) (atomBound_zero (numAt_lt m a w)),
    Nat.mod_eq_of_lt (numAt_lt m a w)]

/-- The bytes that all the lanes leave. -/
theorem rmwBytes_lanes (hw : w = 4 ∨ w = 8) (hv : ∀ l, l < 128 → v l < 2 ^ (8 * w))
    (hoff : ∀ l, l < 128 → act l = true → off l % w = 0) (a : Nat) :
    ((List.range 128).filter act).foldl (rmwBytes w off (fun x l => atomNew aop (8 * w) sg x (v l) (b l))) m a =
      if ((List.range 128).filter act).any (fun l => decide (off l = a / w * w))
      then (bytesOf w (metAt act off (fun x l => atomNew aop (8 * w) sg x (v l) (b l)) w m (a / w * w) 128)).getD (a % w) 0 else m a := by
  have hpos : 0 < w := by omega
  have hmet := metAt_mod (aop := aop) (sg := sg) (b := b) (m := m) hw hv hoff (Nat.mul_mod_left (a / w) w) le_rfl
  rw [← byte_of_numAt (m := List.foldl _ m _) (a := a) hpos, ← hmet, bytesOf_low]
  split
  · rfl
  · next hnone =>
    have hempty : (((List.range 128).filter act).filter fun l => decide (off l = a / w * w) && decide (l < 128)) = [] :=
      List.filter_eq_nil_iff.2 fun l hl hp => hnone (List.any_eq_true.2 ⟨l, hl, (Bool.and_eq_true _ _ ▸ hp).1⟩)
    rw [metAt, hempty, List.foldl_nil, byte_of_numAt hpos]

end

/-! ## The model's lanes -/

section
variable {s s0 : State} {c : Ctx} {f : VX} {w0 : Workgroup} {act : Nat → Bool} {off : Nat → Nat} {v b : Nat → DWord}

/-- What the model's loop is given for a lane. -/
def atomArg (act : Nat → Bool) (off : Nat → Nat) (v b : Nat → DWord) (l : Nat) : Option Nat × DWord × DWord :=
  (if act l then some (off l) else none, v l, b l)

/-- One lane's operation on a number. -/
abbrev atomOn (f : VX) (v b : Nat → DWord) (x l : Nat) : Nat :=
  atomNew (bits f.md 5 4) (8 * elemBytes f) (signedType f.ty.toNat) x (v l).toNat (b l).toNat

/-- With nothing uncommitted, the group reads the scratchpad itself. -/
theorem scratchNat_of_committed (hc : AllCommitted c) (h : ScratchWritten s s0 (gWg c.g) c.w w0) (a n : Nat) :
    scratchNat s0 c.g a n = numAt (padOf w0) a n := by
  obtain ⟨hbuf, hshown⟩ := hc
  have hshown0 : w0.shown = none := by rw [h.kept]; exact hshown
  rw [scratchNat, scratchRead, h.own]
  simp only [List.map_map, Function.comp_def, scratchByte, hbuf, seenScratch, hshown0, Option.getD_none]
  rfl

theorem atomLanes_cons_active {l : Nat} {ls : List Nat} (h : act l = true) :
    atomLanes f c ((l :: ls).map (atomArg act off v b)) s0 =
      let p := atomLane f s0 c (off l) (v l) (b l)
      let r := atomLanes f c (ls.map (atomArg act off v b)) p.1
      (r.1, p.2 :: r.2) := by
  rw [List.map_cons, show atomArg act off v b l = (some (off l), v l, b l) by rw [atomArg, if_pos h]]
  rfl

theorem atomLanes_cons_inactive {l : Nat} {ls : List Nat} (h : act l = false) :
    atomLanes f c ((l :: ls).map (atomArg act off v b)) s0 =
      let r := atomLanes f c (ls.map (atomArg act off v b)) s0
      (r.1, 0 :: r.2) := by
  rw [List.map_cons, show atomArg act off v b l = (none, v l, b l) by rw [atomArg, h]; rfl]
  rfl

/-- The scratchpad and its marks after the lanes. -/
theorem atomLanes_written (hc : AllCommitted c) (ls : List Nat) (h : ScratchWritten s s0 (gWg c.g) c.w w0) :
    ∃ w1, ScratchWritten s (atomLanes f c (ls.map (atomArg act off v b)) s0).1 (gWg c.g) c.w w1 ∧
      padOf w1 = (ls.filter act).foldl (rmwBytes (elemBytes f) off (atomOn f v b)) (padOf w0) ∧
      ∀ n, mget false w1.spoison n =
        if (ls.filter act).any (fun l => wholeIn (off l) (elemBytes f) n) then false else mget false w0.spoison n := by
  induction ls generalizing s0 w0 with
  | nil => exact ⟨w0, h, rfl, fun _ => rfl⟩
  | cons l ls ih =>
    cases hl : act l with
    | false =>
      rw [atomLanes_cons_inactive hl, List.filter_cons_of_neg (by simp [hl])]
      exact ih h
    | true =>
      rw [atomLanes_cons_active hl, List.filter_cons_of_pos hl]
      obtain ⟨w1, hw1, hpad, hmark⟩ := ih (h.put (off l) (bytesOf (elemBytes f) (atomOn f v b (numAt (padOf w0) (off l) (elemBytes f)) l)))
      refine ⟨w1, ?_, ?_, fun n => ?_⟩
      · rw [← scratchNat_of_committed hc h] at hw1
        exact hw1
      · rw [hpad, padOf_wgWrite, List.foldl_cons, rmwBytes]
      · rw [hmark n, mget_spoison_wgWrite, bytesOf_length, List.any_cons]
        cases wholeIn (off l) (elemBytes f) n <;> simp

/-- An active lane's answer: what it reads after the lanes before it. -/
theorem laneAt_atomLanes {ls : List Nat} {j l : Nat} (hj : ls[j]? = some l) (hl : act l = true) :
    laneAt (atomLanes f c (ls.map (atomArg act off v b)) s0).2 j =
      BitVec.ofNat 64 (scratchNat (atomLanes f c ((ls.take j).map (atomArg act off v b)) s0).1 c.g (off l) (elemBytes f)) := by
  induction ls generalizing j s0 with
  | nil => cases hj
  | cons k ls ih =>
    cases j with
    | zero =>
      obtain rfl : k = l := Option.some.inj hj
      rw [atomLanes_cons_active hl]
      rfl
    | succ j =>
      rw [List.take_succ_cons]
      cases hk : act k with
      | false =>
        rw [atomLanes_cons_inactive hk, atomLanes_cons_inactive hk]
        exact ih hj
      | true =>
        rw [atomLanes_cons_active hk, atomLanes_cons_active hk]
        exact ih hj

end

end Sys2Proof.Machine
end

