-- ==== Sys2Proof/Proofs/AtomicInstructions.lean ====
section

/-! # SLDA and VATOM by their checks (O10) -/

namespace Sys2Proof.Machine

/-! ## Operands and results of 32 and 64 bits -/

/-- The inline constants of F32 (R72). -/
theorem inlineConst_f32_lt {idx : Nat} (hlo : 449 ≤ idx) (hhi : idx < 464) : (inlineConst 6 idx).toNat < 2 ^ 32 := by
  have htable : ∀ k < 15, (inlineConst 6 (449 + k)).toNat < 2 ^ 32 := by decide +kernel
  have h := htable (idx - 449) (by omega)
  rwa [Nat.add_sub_cancel' hlo] at h

/-- Only an inline constant tells F32 from N32 in an operand. -/
theorem srcLanes_f32_eq {idx : Nat} (s : State) (c : Ctx) (lit : Lit) (h : ¬(449 ≤ idx ∧ idx < 464)) :
    srcLanes s c lit idx 6 = srcLanes s c lit idx 1 := by
  have huniform : uniformVal c.g lit idx 6 = uniformVal c.g lit idx 1 := by
    unfold uniformVal
    split
    · rfl
    · split
      · rfl
      · rw [if_neg (by omega), if_neg (by omega)]
        rfl
  rw [srcLanes, srcLanes, huniform]
  rfl

theorem typeBits_eq_32 {t : Nat} (h : typeBits t = 32) : t = 0 ∨ t = 1 ∨ t = 6 := by
  unfold typeBits at h
  split_ifs at h <;> omega

/-- Elements of 4 or 8 bytes have 32 or 64 bits. -/
theorem typeBits_of_elemBytes {f : VX} (h : elemBytes f = 4 ∨ elemBytes f = 8) :
    8 * elemBytes f = typeBits f.ty.toNat ∧ (typeBits f.ty.toNat = 32 ∨ typeBits f.ty.toNat = 64) := by
  unfold elemBytes typeBits at h ⊢
  split_ifs at h ⊢ <;> omega

/-- A lane of an operand of 32 or 64 bits has no bit above its width (R71). -/
theorem toNat_lane_lt {s : State} {c : Ctx} {lit : Lit} {idx t l : Nat} (ht : typeBits t = 32 ∨ typeBits t = 64) (hl : l < 128) :
    (lane (srcLanes s c lit idx t) l).toNat < 2 ^ typeBits t := by
  rcases ht with ht | ht
  · obtain rfl | rfl | rfl := typeBits_eq_32 ht
    · exact fits_lane (t := 0) rfl hl
    · exact fits_lane (t := 1) rfl hl
    · by_cases hidx : 449 ≤ idx ∧ idx < 464
      · rw [lane_uniform hl (by omega) (by omega), uniformVal, if_neg (by omega), if_neg (by omega), if_pos hidx.2]
        exact inlineConst_f32_lt hidx.1 hidx.2
      · rw [srcLanes_f32_eq s c lit hidx]
        exact fits_lane (t := 1) rfl hl
  · rw [ht]
    exact BitVec.isLt _

/-- A result is written by its low bits. -/
theorem lanesWritten_of_mod {g g' : Group} {vd w : Nat} {act : Nat → Bool} {x y : Nat → Nat} (hw : w = 32 ∨ w = 64)
    (h : LanesWritten g g' vd w act fun l => BitVec.ofNat 64 (x l)) (hxy : ∀ l, l < 128 → act l = true → x l % 2 ^ w = y l % 2 ^ w) :
    LanesWritten g g' vd w act fun l => BitVec.ofNat 64 (y l) := by
  rcases hw with rfl | rfl
  · unfold LanesWritten at *
    split
    · next hv => rwa [if_pos hv] at h
    · next hv =>
      rw [if_neg hv] at h
      obtain ⟨hlow, -, hrest⟩ := h
      refine ⟨fun l hl => (hlow l hl).trans ?_, fun h64 => absurd h64 (by decide), hrest⟩
      split
      · next hact =>
        have hmod := hxy l hl hact
        rw [← BitVec.toNat_inj]
        simp only [BitVec.toNat_setWidth, BitVec.toNat_ofNat]
        omega
      · rfl
  · exact h.congr (fun _ _ => rfl) fun l hl hact => BitVec.eq_of_toNat_eq (by simpa using hxy l hl hact)

/-- An access that passes its checks is aligned (R160). -/
theorem aligned_of_checkAcc {s : State} {c : Ctx} {vector read write : Bool} {accs : List Acc} (h : checkAcc s c vector read write accs = none) :
    ∀ a ∈ accs, a.off % (a.w : Int) = 0 := by
  intro a ha
  have hmal : accs.filter (fun a => a.off % (a.w : Int) != 0) = [] := by
    cases hf : accs.filter (fun a => a.off % (a.w : Int) != 0) with
    | nil => rfl
    | cons x xs => simp only [checkAcc, hf, missOf] at h; cases h
  simpa using List.filter_eq_nil_iff.1 hmal a ha

section
variable {s : State} {c : Ctx} {f : VX}

theorem vatomEff_det (h : c.l.kern.det = true) : vatomEff f s c = .park s c.g .commit := if_pos h

theorem vatomEff_not_det (h : c.l.kern.det = false) : vatomEff f s c = vatomDo f s c := if_neg (Bool.eq_false_iff.1 h)

theorem vatomDo_fails {m : Miss} (h : checkAcc s c true true true (idxAccs s c f) = some m) : vatomDo f s c = missEff m := by
  simp only [vatomDo, h]

/-- Where lane `l` of an indexed form accesses, as an integer. -/
abbrev idxAt (s : State) (c : Ctx) (f : VX) (l : Nat) : Int := ((lane (srcLanes s c f.lit f.va.toNat 1) l).toNat : Int) + f.imm.toInt

theorem idxOffs_eq_map (s : State) (c : Ctx) (f : VX) : idxOffs s c f = laneIds.map (idxAt s c f) := by
  rw [idxOffs, srcLanes_eq_map, List.map_map]
  rfl

theorem idxAccs_eq (s : State) (c : Ctx) (f : VX) :
    idxAccs s c f = ((List.range 128).filter (active c f.sp)).map fun l => ⟨l, idxAt s c f l, elemBytes f⟩ := by
  refine List.map_congr_left fun l hl => ?_
  have hlt : l < 128 := List.mem_range.1 (List.mem_filter.1 hl).1
  rw [idxOffs_eq_map, getD_laneIds_map _ _ hlt]

/-- The loop's lanes. -/
abbrev vatomArg (s : State) (c : Ctx) (f : VX) : Nat → Option Nat × DWord × DWord :=
  atomArg (active c f.sp) (fun l => (idxAt s c f l).toNat) (lane (opB s c f)) (lane (opC s c f))

theorem vatomDo_passes (h : checkAcc s c true true true (idxAccs s c f) = none) :
    vatomDo f s c = vecResult (atomLanes f c (laneIds.map (vatomArg s c f)) s).1 c f (atomLanes f c (laneIds.map (vatomArg s c f)) s).2 := by
  have hargs : List.zip (List.zipWith (fun a o => if a then some o.toNat else none) (actLanes c f) (idxOffs s c f))
      (List.zip (opB s c f) (opC s c f)) = laneIds.map (vatomArg s c f) := by
    rw [idxOffs_eq_map, actLanes, maskLanes, opB_eq_map, opC_eq_map, List.zip, List.zip, zipWith_laneIds_map, zipWith_laneIds_map,
      zipWith_laneIds_map]
    rfl
  simp only [vatomDo, h, hargs]

/-- With its checks passed each active lane accesses an aligned word. -/
theorem idxAt_aligned (h : checkAcc s c true true true (idxAccs s c f) = none) {l : Nat} (hl : l < 128) (hact : active c f.sp l = true) :
    (idxAt s c f l).toNat % elemBytes f = 0 := by
  rw [idxAccs_eq] at h
  have hmem : l ∈ (List.range 128).filter (active c f.sp) := List.mem_filter.2 ⟨List.mem_range.2 hl, hact⟩
  have halign := aligned_of_checkAcc h _ (List.mem_map_of_mem hmem)
  dsimp only at halign
  by_cases h0 : 0 ≤ idxAt s c f l
  · obtain ⟨n, hn⟩ := Int.eq_ofNat_of_zero_le h0
    rw [hn] at halign ⊢
    exact_mod_cast halign
  · rw [Int.toNat_of_nonpos (by omega), Nat.zero_mod]

theorem vatom_parks (h : ReadyLanes s (.vatom f) c) (hdet : c.l.kern.det = true) : Parks (.vatom f) s c .commit :=
  parks_of_body rfl h.1 (.inr h.2) (vatomEff_det hdet)

theorem vatom_stores (h : ReadyLanes s (.vatom f) c) (hdet : c.l.kern.det = false) (hw : elemBytes f = 4 ∨ elemBytes f = 8)
    (hc : AllCommitted c) (hok : checkAcc s c true true true (idxAccs s c f) = none) :
    let off (l : Nat) : Nat := (idxAt s c f l).toNat
    let met := metAt (active c f.sp) off (atomOn f (lane (opB s c f)) (lane (opC s c f))) (elemBytes f) (padOf c.w)
    let lanes := (List.range 128).filter (active c f.sp)
    StoresScratch (.vatom f) s c c.w
      (fun a => if lanes.any (fun l => decide (off l = a / elemBytes f * elemBytes f))
        then (bytesOf (elemBytes f) (met (a / elemBytes f * elemBytes f) 128)).getD (a % elemBytes f) 0 else padOf c.w a)
      (fun n => if lanes.any (fun l => wholeIn (off l) (elemBytes f) n) then false else mget false c.w.spoison n)
      (fun g' => Counted { c.g with vregs := g'.vregs } g' ∧
        LanesWritten c.g g' f.vd.toNat (typeBits f.ty.toNat) (active c f.sp) (fun l => BitVec.ofNat 64 (met (off l) l))) := by
  intro off met lanes
  obtain ⟨hbits, hwide⟩ := typeBits_of_elemBytes hw
  have hv : ∀ l, l < 128 → (lane (opB s c f) l).toNat < 2 ^ (8 * elemBytes f) := fun l hl => by
    rw [hbits]
    exact toNat_lane_lt hwide hl
  have hoff : ∀ l, l < 128 → active c f.sp l = true → off l % elemBytes f = 0 := fun l hl hact => idxAt_aligned hok hl hact
  have hlanes (ls : List Nat) := atomLanes_written (f := f) (act := active c f.sp) (off := off) (v := lane (opB s c f)) (b := lane (opC s c f))
    hc ls (ScratchWritten.refl (ctxOf_some h.1.1).2.2.1)
  have hold : ∀ l, l < 128 → active c f.sp l = true →
      laneAt (atomLanes f c (laneIds.map (vatomArg s c f)) s).2 l = BitVec.ofNat 64 (met (off l) l % 2 ^ typeBits f.ty.toNat) := fun l hl hact => by
    obtain ⟨w1, hw1, hpad, -⟩ := hlanes (List.range l)
    rw [laneAt_atomLanes (laneIds_get hl) hact, take_laneIds hl.le, scratchNat_of_committed hc hw1, hpad, ← hbits]
    exact congrArg _ (metAt_mod hw hv hoff (hoff l hl hact) hl.le).symm
  obtain ⟨w1, hw1, hpad, hmark⟩ := hlanes laneIds
  have hgroup := writeLanes_eq c.g f.vd.toNat (typeBits f.ty.toNat) (actLanes c f) (atomLanes f c (laneIds.map (vatomArg s c f)) s).2
  refine storesScratch_of_body rfl h.1 (.inr h.2) ((vatomEff_not_det hdet).trans (vatomDo_passes hok)) (by rw [hgroup]) (by rw [hgroup]) hw1
    (fun a => ?_) hmark fun g' hg => ?_
  · rw [hpad]
    exact rmwBytes_lanes hw hv hoff a
  · have hvregs : g'.vregs = (writeLanes c.g f.vd.toNat (typeBits f.ty.toNat) (actLanes c f)
        (atomLanes f c (laneIds.map (vatomArg s c f)) s).2).vregs := by rw [hg]
    refine ⟨?_, lanesWritten_of_mod hwide (((writeLanes_written ..).congr (fun l hl => actLanes_getD c f hl) hold).of_vregs hvregs)
      fun l _ _ => Nat.mod_mod ..⟩
    rw [hvregs]
    rw [hgroup] at hg
    exact hg

end

/-- Settles O10: each instruction by what its check finds. -/
theorem scalarAndLaneAtomics : Obligations.ScalarAndLaneAtomics := by
  unfold Obligations.ScalarAndLaneAtomics
  refine ⟨fun f s c h => ?_, fun f s c h => ?_⟩
  · intro off w old v b
    refine ⟨fun hdet hok => ?_, fun m hdet hm hc hh => ?_, fun m hdet hm hc hh => ?_, slda_parks h⟩
    · have hstore := slda_stores h hdet hok
      rw [sldaBytes, sldaOld, extendTo64_scratchNat h.1, scratchNat_eq h.1] at hstore
      exact hstore
    · exact traps_of_missEff rfl h (.inl (isVector_slda f)) ((sldaEff_not_det hdet).trans (sldaDo_fails hm)) hc hh
    · exact logs_of_missEff rfl h (.inl (isVector_slda f)) ((sldaEff_not_det hdet).trans (sldaDo_fails hm)) hc hh
  · intro w off lanes accs rmw met
    have haccs : accs = idxAccs s c f := (idxAccs_eq s c f).symm
    refine ⟨fun hdet hw hcom hok => ?_, fun m hdet hm hc hh => ?_, fun m hdet hm hc hh => ?_, vatom_parks h⟩
    · exact vatom_stores h hdet hw hcom (haccs ▸ hok)
    · exact traps_of_missEff rfl h.1 (.inr h.2) ((vatomEff_not_det hdet).trans (vatomDo_fails (haccs ▸ hm))) hc hh
    · exact logs_of_missEff rfl h.1 (.inr h.2) ((vatomEff_not_det hdet).trans (vatomDo_fails (haccs ▸ hm))) hc hh

end Sys2Proof.Machine
end

