-- ==== Sys2Proof/Proofs/PromotionAtEmptyEntry.lean ====
section

/-! # A promotion that an empty tape entry stops (O35) -/

namespace Sys2Proof.Machine

/-- A kernel with one spare slot; a frame of zeros passes its checks. -/
def spareKernel : Kernel := { probeKernel with spare := 1 }

/-- A workgroup of one group whose spare slot is free. -/
def spareWg : Workgroup := wgStart 0 0 0 0 0 0 0 0 [0, 1] [(0, 0)] 0 0

/-- Its group, whose scratchpad is zero, on the core that holds the empty tape entry at byte 12. -/
def emptyEntryPromotion : State :=
  { emptyEntryState with
    launches := [(0, bareLaunch spareKernel [])], wgs := [(0, spareWg)], groups := [(0, groupStart 0 0 0 0 0 0 0 0)] }

/-- The frame at byte 0 meets the entry, and is not promoted. -/
theorem promote_emptyEntry : (promote emptyEntryPromotion 0 0).isSome = false := by decide

/-- The entry begins where it ends. -/
theorem emptyEntryPromotion_tape : ∀ e ∈ (getCore emptyEntryPromotion spareWg.core).tape, ¬e.lo < e.hi := by
  intro e he
  obtain rfl := List.mem_singleton.1 he
  exact Nat.lt_irrefl 12

/-- Refutes O35: a write-locked tape entry with LO = HI covers no byte, and the statement asks nothing of it; the model's `tapeStops` compares
the ends of the two ranges alone, so such an entry inside a frame that passes every check, with a slot free, stops its promotion. -/
theorem not_heartbeatTicks : ¬ Obligations.HeartbeatTicks := by
  unfold Obligations.HeartbeatTicks
  intro h
  obtain ⟨-, -, promotes, -⟩ := h
  have hsome := (promotes emptyEntryPromotion 0 (groupStart 0 0 0 0 0 0 0 0) spareWg (bareLaunch spareKernel []) 0 ⟨rfl, by decide, rfl⟩).2
    ⟨rfl, by decide, by decide, by decide, by decide, by decide, by decide, by decide, by decide, by decide, by decide,
      fun e he _ hlt => absurd hlt (emptyEntryPromotion_tape e he), .inl ⟨.inl rfl, (1, 0, 0), by decide, rfl⟩⟩
  rw [promote_emptyEntry] at hsome
  cases hsome

end Sys2Proof.Machine
end

