-- ==== Sys2Proof/Proofs/GroupEnds.lean ====
section

/-! # What the end of a group leaves alone (R200, R224)

A group's end takes it out of the table, may complete phases of barriers, and may end its workgroup. `Closing` says what all of that keeps. -/

namespace Sys2Proof.Machine

/-! ## What a group's end keeps -/

theorem SameButUrgency.refl (o : Option Group) : SameButUrgency o o := .inl rfl

theorem SameButUrgency.trans {a b c : Option Group} (h : SameButUrgency a b) (h' : SameButUrgency b c) : SameButUrgency a c := by
  obtain rfl | rfl := h
  · exact h'
  · obtain rfl | rfl := h'
    · exact .inr rfl
    · exact .inr (by rw [Option.map_map]; rfl)

theorem SameButUrgency.of_none {b : Option Group} (h : SameButUrgency none b) : b = none := by
  obtain h | h := h <;> exact h

/-- An operation that may have been released, put to a later quantum, or have lost its group; what it was issued as is as before. -/
def Released (o o' : EngineOp) : Prop := ∃ p se ca q ex, o' = { o with performed := p, seen := se, cause := ca, quantum := q, exited := ex }

theorem Released.refl (o : EngineOp) : Released o o := ⟨_, _, _, _, _, rfl⟩

theorem Released.trans {o o' o'' : EngineOp} (h : Released o o') (h' : Released o' o'') : Released o o'' := by
  obtain ⟨_, _, _, _, _, rfl⟩ := h
  obtain ⟨_, _, _, _, _, rfl⟩ := h'
  exact ⟨_, _, _, _, _, rfl⟩

/-- From `s` to `t` what may follow on a group's end has happened: groups keep all but their urgency, scratchpads their bytes and marks,
operations what they were issued as, and the rest of the state but launches, the agenda and the collective engines is as before. -/
structure Closing (s t : State) : Prop where
  rest : ∃ gs ws ls os ag co, t = { s with groups := gs, wgs := ws, launches := ls, ops := os, agenda := ag, coll := co }
  groups : ∀ j, SameButUrgency (tget s.groups j) (tget t.groups j)
  pads : SamePads s t
  ops : ∀ n o, tget s.ops n = some o → ∃ o', tget t.ops n = some o' ∧ Released o o'

theorem Closing.of_eq {s t : State} (h : ∃ ls ag co, t = { s with launches := ls, agenda := ag, coll := co }) : Closing s t := by
  obtain ⟨_, _, _, rfl⟩ := h
  exact ⟨⟨_, _, _, _, _, _, rfl⟩, fun _ => .refl _, .refl _, fun _ o ho => ⟨o, ho, .refl o⟩⟩

theorem Closing.refl (s : State) : Closing s s := .of_eq ⟨_, _, _, rfl⟩

theorem Closing.trans {s t u : State} (h : Closing s t) (h' : Closing t u) : Closing s u := by
  obtain ⟨⟨_, _, _, _, _, _, hst⟩, hg, hp, ho⟩ := h
  obtain ⟨⟨_, _, _, _, _, _, htu⟩, hg', hp', ho'⟩ := h'
  refine ⟨⟨_, _, _, _, _, _, by rw [htu, hst]⟩, fun j => (hg j).trans (hg' j), hp.trans hp', fun n o h => ?_⟩
  obtain ⟨o1, h1, r1⟩ := ho n o h
  obtain ⟨o2, h2, r2⟩ := ho' n o1 h1
  exact ⟨o2, h2, r1.trans r2⟩

theorem Closing.foldl {α : Type} {f : State → α → State} (h : ∀ s x, Closing s (f s x)) (xs : List α) (s : State) : Closing s (xs.foldl f s) := by
  induction xs generalizing s with
  | nil => exact .refl s
  | cons x xs ih => exact (h s x).trans (ih _)

/-- A change of operations in what their release may change. -/
theorem Closing.of_ops {s : State} {f : Nat → EngineOp → EngineOp} (hf : ∀ n o, Released o (f n o)) :
    Closing s { s with ops := s.ops.map (fun p => (p.1, f p.1 p.2)) } := by
  refine ⟨⟨_, _, _, _, _, _, rfl⟩, fun _ => .refl _, .refl _, fun n o ho => ⟨f n o, ?_, hf n o⟩⟩
  rw [tget_map_val, ho]
  rfl

/-- A change of one workgroup that keeps its scratchpad. -/
theorem Closing.of_wg {s : State} {key : Nat} {w w' : Workgroup} (h : tget s.wgs key = some w) (hs : w'.scratch = w.scratch)
    (hm : w'.spoison = w.spoison) : Closing s (putWg s key w') :=
  ⟨⟨_, _, _, _, _, _, rfl⟩, fun _ => .refl _, samePads_putWg h hs hm, fun _ o ho => ⟨o, ho, .refl o⟩⟩

/-! ## The phases of barriers (R233, R245, R336) -/

theorem closing_resetUrgency (s : State) (keys : List Nat) : Closing s (resetUrgency s keys) := by
  refine ⟨⟨_, _, _, _, _, _, rfl⟩, fun j => ?_, .refl _, fun _ o ho => ⟨o, ho, .refl o⟩⟩
  have hmap : (resetUrgency s keys).groups = s.groups.map (fun p => (p.1, if keys.contains (gWg p.2) then { p.2 with urg := 0 } else p.2)) :=
    List.map_congr_left fun p _ => by split <;> rfl
  rw [hmap, tget_map_val (fun _ g => if keys.contains (gWg g) then { g with urg := 0 } else g)]
  cases tget s.groups j with
  | none => exact .refl none
  | some g =>
    rw [Option.map_some]
    split
    · exact .inr rfl
    · exact .refl _

theorem closing_markPerformed (s : State) (ns : List Nat) (cause : Nat) : Closing s (markPerformed s ns cause) := by
  have hmap : markPerformed s ns cause = { s with ops := s.ops.map (fun p => (p.1, if ns.contains p.1 then { p.2 with
      performed := true, seen := p.2.seen ||| (if cause = 0 then seenOK else seenFAULT), cause := BitVec.ofNat 8 cause } else p.2)) } := by
    unfold markPerformed
    congr 1
    exact List.map_congr_left fun p _ => by split <;> rfl
  rw [hmap]
  refine .of_ops (f := fun n o => if ns.contains n then { o with
    performed := true, seen := o.seen ||| (if cause = 0 then seenOK else seenFAULT), cause := BitVec.ofNat 8 cause } else o) fun n o => ?_
  split
  · exact ⟨_, _, _, _, _, rfl⟩
  · exact .refl o

theorem closing_recount (s : State) (ns : List Nat) (k : Nat) : Closing s (recount s ns k) := by
  have hmap : recount s ns k =
      { s with ops := s.ops.map (fun p => (p.1, if ns.contains p.1 then { p.2 with quantum := p.2.quantum.map (fun _ => k) } else p.2)) } := by
    unfold recount
    congr 1
    exact List.map_congr_left fun p _ => by split <;> rfl
  rw [hmap]
  refine .of_ops (f := fun n o => if ns.contains n then { o with quantum := o.quantum.map (fun _ => k) } else o) fun n o => ?_
  split
  · exact ⟨_, _, _, _, _, rfl⟩
  · exact .refl o

theorem closing_putLaunch (s : State) (lid : Nat) (l : Launch) : Closing s (putLaunch s lid l) := .of_eq ⟨_, _, _, rfl⟩

theorem closing_completeBar (s : State) (lid : Nat) (x : BarInst) : Closing s (completeBar s lid x) := by
  unfold completeBar
  split
  · exact .refl s
  · split
    · exact (closing_putLaunch ..).trans (closing_resetUrgency ..)
    · exact .refl s

theorem closing_completeBars (s : State) (lid : Nat) : Closing s (completeBars s lid) := by
  unfold completeBars
  split
  · exact .refl s
  · exact .foldl (fun s x => closing_completeBar s lid x) _ s

theorem closing_completeCBar (s : State) (lid : Nat) (x : CBarInst) : Closing s (completeCBar s lid x) := by
  unfold completeCBar
  split
  · exact .refl s
  · split
    · dsimp only
      split
      · exact (closing_putLaunch ..).trans (closing_markPerformed ..)
      · split
        · split
          · exact ((closing_putLaunch ..).trans (closing_recount ..)).trans (.of_eq ⟨_, _, _, rfl⟩)
          · exact ((closing_putLaunch ..).trans (closing_recount ..)).trans (.of_eq ⟨_, _, _, rfl⟩)
        · exact (closing_putLaunch ..).trans (closing_markPerformed ..)
    · exact .refl s

theorem closing_completeCBars (s : State) (lid : Nat) : Closing s (completeCBars s lid) := by
  unfold completeCBars
  split
  · exact .refl s
  · exact .foldl (fun s x => closing_completeCBar s lid x) _ s

/-! ## The group and its workgroup -/

theorem closing_countWg (s : State) (g : Group) : Closing s (countWg s g) := by
  unfold countWg
  split
  · next w hw => exact .of_wg hw rfl rfl
  · exact .refl s

theorem closing_endWg (s : State) (key : Nat) : Closing s (endWg s key) := by
  unfold endWg
  split
  · exact .refl s
  · next w hw =>
    split
    · exact .refl s
    · exact .of_wg hw rfl rfl

theorem closing_freeSlot (s : State) (g : Group) (k : Nat) : Closing s (freeSlot s g k) := by
  unfold freeSlot
  split
  · exact .refl s
  · split
    · exact .refl s
    · next w hw => exact .of_wg hw rfl rfl

theorem closing_leaveBehind (s : State) (g : Group) : Closing s (leaveBehind s g) := by
  unfold leaveBehind
  split
  · exact closing_putLaunch ..
  · exact .refl s

theorem closing_markExited (s : State) (g : Group) : Closing s { s with ops := markExited s.ops g } := by
  have hmap : markExited s.ops g = s.ops.map (fun p =>
      (p.1, if p.2.launch = g.launch ∧ p.2.wg = g.wg ∧ p.2.gidx = g.gidx ∧ !p.2.lost then { p.2 with exited := true } else p.2)) :=
    List.map_congr_left fun p _ => by split <;> rfl
  rw [hmap]
  refine .of_ops (f := fun _ o => if o.launch = g.launch ∧ o.wg = g.wg ∧ o.gidx = g.gidx ∧ !o.lost then { o with exited := true } else o)
    fun _ o => ?_
  split
  · exact ⟨_, _, _, _, _, rfl⟩
  · exact .refl o

/-- Once the group is out of the table, its end closes. -/
theorem closing_endGroup (s : State) (k : Nat) (g : Group) : Closing { s with groups := tdel s.groups k } (endGroup s k g) := by
  have freed := (closing_markExited { s with groups := tdel s.groups k } g).trans (closing_freeSlot _ g k)
  unfold endGroup
  dsimp only
  split
  · exact freed.trans (closing_leaveBehind ..)
  · exact freed.trans (((closing_completeBars ..).trans (closing_completeCBars ..)).trans (closing_endWg ..))

/-- From `s` to `t` group `k` has ended, and what may follow has happened. -/
def GroupGone (s t : State) (k : Nat) : Prop := Closing { s with groups := tdel s.groups k } t

theorem groupGone_endGroup (s : State) (g g' : Group) (k : Nat) : GroupGone s (endGroup (countWg s g') k g) k := by
  have hcount : { countWg s g' with groups := tdel (countWg s g').groups k } = countWg { s with groups := tdel s.groups k } g' := by
    unfold countWg
    dsimp only
    split <;> rfl
  have counted := closing_countWg { s with groups := tdel s.groups k } g'
  rw [← hcount] at counted
  exact counted.trans (closing_endGroup ..)

section
variable {s t : State} {k : Nat}

theorem GroupGone.own (h : GroupGone s t k) : tget t.groups k = none := by
  have hk := Closing.groups h k
  rw [tget_tdel, if_pos rfl] at hk
  exact hk.of_none

theorem GroupGone.others (h : GroupGone s t k) {j : Nat} (hj : j ≠ k) : SameButUrgency (tget s.groups j) (tget t.groups j) := by
  have hgroup := Closing.groups h j
  rwa [tget_tdel, if_neg hj] at hgroup

theorem GroupGone.pads (h : GroupGone s t k) : SamePads s t :=
  show SamePads { s with groups := tdel s.groups k } t from Closing.pads h

theorem GroupGone.mem (h : GroupGone s t k) : t.mem = s.mem := by
  obtain ⟨_, _, _, _, _, _, rfl⟩ := Closing.rest h
  rfl

theorem GroupGone.opNo (h : GroupGone s t k) : t.opNo = s.opNo := by
  obtain ⟨_, _, _, _, _, _, rfl⟩ := Closing.rest h
  rfl

theorem GroupGone.op (h : GroupGone s t k) {n : Nat} {o : EngineOp} (ho : tget s.ops n = some o) : ∃ o', tget t.ops n = some o' ∧ Released o o' :=
  Closing.ops h n o ho

end

end Sys2Proof.Machine
end

