-- ==== Sys2Proof/Proofs/JoinsAndTaskEnds.lean ====
section

/-! # JOIN, TASKEND and ENDG (O13) -/

namespace Sys2Proof.Machine

/-! ## The arguments of a popped frame (R222) -/

/-- Consecutive scalar registers written from `b` on. -/
def setRegs (g : Group) (b n : Nat) (v : Nat → DWord) : Group := (List.range n).foldl (fun g j => setS g (b + j) (v j)) g

theorem setRegs_succ (g : Group) (b n : Nat) (v : Nat → DWord) : setRegs g b (n + 1) v = setS (setRegs g b n v) (b + n) (v n) := by
  rw [setRegs, List.range_succ, List.foldl_append]
  rfl

theorem setRegs_eq (g : Group) (b n : Nat) (v : Nat → DWord) : setRegs g b n v = { g with sregs := (setRegs g b n v).sregs } := by
  induction n with
  | zero => rfl
  | succ n ih => rw [setRegs_succ, ih]; rfl

theorem sreg_setRegs_in (g : Group) (b : Nat) {n j : Nat} (v : Nat → DWord) (h : j < n) : sreg (setRegs g b n v) (b + j) = v j := by
  induction n with
  | zero => omega
  | succ n ih =>
    rw [setRegs_succ]
    by_cases hj : j = n
    · rw [hj, sreg_setS_same]
    · rw [sreg_setS_ne _ _ (by omega), ih (by omega)]

theorem sreg_setRegs_out (g : Group) {b n m : Nat} (v : Nat → DWord) (h : m < b ∨ b + n ≤ m) : sreg (setRegs g b n v) m = sreg g m := by
  induction n with
  | zero => rfl
  | succ n ih => rw [setRegs_succ, sreg_setS_ne _ _ (by omega), ih (by omega)]

theorem takeArgs_kept {f : SX} (g : Group) (fr : Frame) (h : f.md.getLsbD 0 = true) : takeArgs g f fr = g := if_pos h

theorem takeArgs_taken {f : SX} (g : Group) (fr : Frame) (h : f.md.getLsbD 0 = false) :
    takeArgs g f fr = setRegs g f.sd.toNat 6 (fun j => fr.args.getD j 0) := if_neg (Bool.eq_false_iff.1 h)

theorem takeArgs_eq (g : Group) (f : SX) (fr : Frame) : takeArgs g f fr = { g with sregs := (takeArgs g f fr).sregs } := by
  cases h : f.md.getLsbD 0 with
  | true => rw [takeArgs_kept g fr h]
  | false => rw [takeArgs_taken g fr h]; exact setRegs_eq ..

theorem readFrame_arg (s : State) (g : Group) (off : Nat) {j : Nat} (h : j < 6) :
    (readFrame s g off).args.getD j 0 = BitVec.ofNat 64 (scratchNat s g (off + 16 + 8 * j) 8) := by
  simp [readFrame, List.getD, h]

/-! ## JOIN (R222) -/

/-- The offset of the youngest frame of a group. -/
abbrev topFrame (c : Ctx) : Nat := c.g.sp.fsp.toNat - 64

/-- The group with that frame popped. -/
abbrev poppedGroup (c : Ctx) : Group := { c.g with sp := { c.g.sp with fsp := BitVec.ofNat 21 (topFrame c) } }

/-- What JOIN comes to. -/
def joinEff (f : SX) (s : State) (c : Ctx) : Eff :=
  if c.g.sp.fsp = c.g.sp.fbase then .raise cFRAME (BitVec.ofNat 64 c.g.sp.fsp.toNat)
  else
    match checkAcc s c false true false [⟨0, (topFrame c : Nat), 64⟩] with
    | some m => .trap m
    | none =>
      if !frameOk c.l (readFrame s c.g (topFrame c)) then .raise cFRAME (BitVec.ofNat 64 (topFrame c))
      else if c.g.candidates.any (fun x => x.1 == topFrame c) then .park s c.g .join
      else if !(readFrame s c.g (topFrame c)).prom then .next s { takeArgs (poppedGroup c) f (readFrame s c.g (topFrame c)) with scc := true }
      else match checkAcc s c false true false [⟨0, (readFrame s c.g (topFrame c)).joinOff, 8⟩] with
        | some m => .trap m
        | none =>
          if scratchNat s c.g (readFrame s c.g (topFrame c)).joinOff 8 ≠ 0 then .park s c.g .join
          else .next s { poppedGroup c with scc := false, promo := tdel c.g.promo (topFrame c) }

theorem exec_join (f : SX) (s : State) : exec (.join f) s = issue (.join f) s (joinEff f s) := by
  show execJoin f s = _
  unfold execJoin joinEff
  rfl

section
variable {s : State} {c : Ctx} {f : SX}

theorem joinEff_empty (h : c.g.sp.fsp = c.g.sp.fbase) : joinEff f s c = .trap ⟨0x0B, c.g.sp.fsp.setWidth 64, 0⟩ := by
  rw [joinEff, if_pos h, ← BitVec.ofNat_toNat]
  rfl

section
variable (there : c.g.sp.fsp ≠ c.g.sp.fbase)
include there

theorem joinEff_unreadable {m : Miss} (h : checkAcc s c false true false [⟨0, (topFrame c : Nat), 64⟩] = some m) :
    joinEff f s c = .trap m := by
  simp only [joinEff, if_neg there, h]

variable (readable : checkAcc s c false true false [⟨0, (topFrame c : Nat), 64⟩] = none)
include readable

theorem joinEff_unsound (h : frameOk c.l (readFrame s c.g (topFrame c)) = false) :
    joinEff f s c = .trap ⟨0x0B, BitVec.ofNat 64 (topFrame c), 0⟩ := by
  simp only [joinEff, if_neg there, readable, h, Bool.not_false, if_true]
  rfl

variable (sound : frameOk c.l (readFrame s c.g (topFrame c)) = true)
include sound

theorem joinEff_candidate (h : c.g.candidates.any (fun x => x.1 == topFrame c) = true) : joinEff f s c = .park s c.g .join := by
  simp only [joinEff, if_neg there, readable, sound, h, Bool.not_true, Bool.false_eq_true, if_false, if_true]

variable (free : c.g.candidates.any (fun x => x.1 == topFrame c) = false)
include free

theorem joinEff_unpromoted (h : (readFrame s c.g (topFrame c)).prom = false) :
    joinEff f s c = .next s { takeArgs (poppedGroup c) f (readFrame s c.g (topFrame c)) with scc := true } := by
  simp only [joinEff, if_neg there, readable, sound, free, h, Bool.not_true, Bool.not_false, Bool.false_eq_true, if_false, if_true]

variable (promoted : (readFrame s c.g (topFrame c)).prom = true)
include promoted

theorem joinEff_joinUnreadable {m : Miss}
    (h : checkAcc s c false true false [⟨0, (readFrame s c.g (topFrame c)).joinOff, 8⟩] = some m) : joinEff f s c = .trap m := by
  simp only [joinEff, if_neg there, readable, sound, free, promoted, h, Bool.not_true, Bool.false_eq_true, if_false]

variable (joinReadable : checkAcc s c false true false [⟨0, (readFrame s c.g (topFrame c)).joinOff, 8⟩] = none)
include joinReadable

theorem joinEff_waits (h : scratchNat s c.g (readFrame s c.g (topFrame c)).joinOff 8 ≠ 0) : joinEff f s c = .park s c.g .join := by
  simp only [joinEff, if_neg there, readable, sound, free, promoted, joinReadable, if_pos h, Bool.not_true, Bool.false_eq_true, if_false]

theorem joinEff_joined (h : scratchNat s c.g (readFrame s c.g (topFrame c)).joinOff 8 = 0) :
    joinEff f s c = .next s { poppedGroup c with scc := false, promo := tdel c.g.promo (topFrame c) } := by
  simp only [joinEff, if_neg there, readable, sound, free, promoted, joinReadable, if_neg (not_not_intro h), Bool.not_true,
    Bool.false_eq_true, if_false]

end

/-- An unpromoted frame is popped with its arguments. -/
theorem join_takes (h : Ready s (.join f) c)
    (hb : joinEff f s c = .next s { takeArgs (poppedGroup c) f (readFrame s c.g (topFrame c)) with scc := true }) :
    Retires (.join f) s c (after (.join f) c) (fun g' =>
      Counted { c.g with sregs := g'.sregs, sp := { c.g.sp with fsp := BitVec.ofNat 21 (topFrame c) }, scc := true } g' ∧
      (f.md.getLsbD 0 = true → ∀ n, sreg g' n = sreg c.g n) ∧
      (f.md.getLsbD 0 = false →
        (∀ j, j < 6 → sreg g' (f.sd.toNat + j) = BitVec.ofNat 64 (scratchNat s c.g (topFrame c + 16 + 8 * j) 8)) ∧
        ∀ n, n < f.sd.toNat ∨ f.sd.toNat + 6 ≤ n → sreg g' n = sreg c.g n)) := by
  have htake := takeArgs_eq (poppedGroup c) f (readFrame s c.g (topFrame c))
  refine retires_next (exec_join f s) h (.inl (isVector_join f)) hb (by rw [htake]) (by rw [htake]) fun g' hg => ?_
  have hregs : g'.sregs = (takeArgs (poppedGroup c) f (readFrame s c.g (topFrame c))).sregs := by rw [hg]
  have hsreg : ∀ n, sreg g' n = sreg (takeArgs (poppedGroup c) f (readFrame s c.g (topFrame c))) n := fun n => by rw [sreg, sreg, hregs]
  refine ⟨?_, fun hmd n => ?_, fun hmd => ⟨fun j hj => ?_, fun n hn => ?_⟩⟩
  · rw [hregs]
    rw [htake] at hg
    exact hg
  · rw [hsreg, takeArgs_kept _ _ hmd]
    rfl
  · rw [hsreg, takeArgs_taken _ _ hmd, sreg_setRegs_in _ _ _ hj, readFrame_arg _ _ _ hj]
  · rw [hsreg, takeArgs_taken _ _ hmd, sreg_setRegs_out _ _ hn]
    rfl

theorem join_parks (h : Ready s (.join f) c) (hb : joinEff f s c = .park s c.g .join) : Parks (.join f) s c .join :=
  parks_of_body (exec_join f s) h (.inl (isVector_join f)) hb

theorem join_traps {m : Miss} (h : Ready s (.join f) c) (hh : Handled c) (hb : joinEff f s c = .trap m) :
    Traps (.join f) s c m.cause m.tval m.lanes c.g.pc :=
  traps_of_body (exec_join f s) h (.inl (isVector_join f)) hb hh

end

/-! ## The end of a local task (R210, R223) -/

/-- Only the owner's groups forget the task. -/
theorem tget_forgetTask (s : State) (key frame j : Nat) : tget (forgetTask s key frame).groups j = (tget s.groups j).map (without key frame) := by
  have hmap : (forgetTask s key frame).groups = s.groups.map (fun p => (p.1, without key frame p.2)) :=
    List.map_congr_left fun p _ => by
      unfold without
      split <;> rfl
  rw [hmap, tget_map_val (fun _ g => without key frame g)]

/-- The word at an offset of a workgroup's scratchpad. -/
def padWord (s : State) (key o : Nat) : Nat :=
  match tget s.wgs key with
  | some w => ofBytes (mgetRun 0 w.scratch o 8)
  | none => 0

/-- The result of a task written where its frame says. -/
def putResult (s : State) (key resOff : Nat) : Option DWord → State
  | some v => scratchPut s key resOff (bytesOf 8 v.toNat)
  | none => s

/-- A word of a scratchpad changed. -/
def changeWord (s : State) (key o : Nat) (f : Nat → Nat) : State := scratchPut s key o (bytesOf 8 (f (padWord s key o)))

/-- The frame of a task, as its owner's scratchpad holds it. -/
abbrev taskFrame (s : State) (c : Ctx) (link : TaskLink) : Frame := readFrame s { c.g with wg := link.wg, detBuf := [] } link.frame

/-- The owner's scratchpad after a local task's end: the result, DONE, and the join word. -/
def taskWrites (s : State) (c : Ctx) (link : TaskLink) (result : Option DWord) : State :=
  let key := wgKey c.g.launch link.wg
  changeWord (changeWord (putResult s key (taskFrame s c link).resOff result) key link.frame (fun v => v ||| 2 ^ 35)) key
    (taskFrame s c link).joinOff (fun v => v + (2 ^ 64 - 1))

theorem taskendLocal_eq (s : State) (c : Ctx) (link : TaskLink) (result : Option DWord) :
    taskendLocal s c link result =
      endGroup (countWg (forgetTask (taskWrites s c link result) (wgKey c.g.launch link.wg) link.frame) c.g) c.k c.g := by
  cases result <;> rfl

/-- The bytes with a task's result stored. -/
def storedResult (resOff : Nat) (m : Nat → Byte) : Option DWord → Nat → Byte
  | some v => storedAt resOff (bytesOf 8 v.toNat) m
  | none => m

/-- The bytes with a word changed. -/
def changedWord (o : Nat) (f : Nat → Nat) (m : Nat → Byte) : Nat → Byte := storedAt o (bytesOf 8 (f (numAt m o 8))) m

section
variable {s s1 : State} {key : Nat} {w w1 : Workgroup}

theorem ScratchWritten.putResult (h : ScratchWritten s s1 key w w1) (resOff : Nat) (result : Option DWord) :
    ∃ w2, ScratchWritten s (putResult s1 key resOff result) key w w2 ∧ padOf w2 = storedResult resOff (padOf w1) result := by
  cases result with
  | none => exact ⟨w1, h, rfl⟩
  | some v => exact ⟨_, h.put .., padOf_wgWrite ..⟩

theorem ScratchWritten.padWord (h : ScratchWritten s s1 key w w1) (o : Nat) : padWord s1 key o = numAt (padOf w1) o 8 := by
  rw [Machine.padWord, h.own]
  dsimp only
  rw [mgetRun_eq_map]
  rfl

theorem ScratchWritten.changeWord (h : ScratchWritten s s1 key w w1) (o : Nat) (f : Nat → Nat) :
    ∃ w2, ScratchWritten s (changeWord s1 key o f) key w w2 ∧ padOf w2 = changedWord o f (padOf w1) := by
  refine ⟨_, h.put .., ?_⟩
  rw [padOf_wgWrite, h.padWord]
  rfl

end

section
variable {s : State} {c : Ctx} {link : TaskLink} {result : Option DWord} {pw : Workgroup}

/-- What the end of a local task leaves in its owner's scratchpad. -/
def endedPad (fr : Frame) (frame : Nat) (result : Option DWord) (m : Nat → Byte) : Nat → Byte :=
  changedWord fr.joinOff (fun v => v + (2 ^ 64 - 1)) (changedWord frame (fun v => v ||| 2 ^ 35) (storedResult fr.resOff m result))

theorem taskWrites_written (h : tget s.wgs (wgKey c.g.launch link.wg) = some pw) :
    ∃ w1, ScratchWritten s (taskWrites s c link result) (wgKey c.g.launch link.wg) pw w1 ∧
      padOf w1 = endedPad (taskFrame s c link) link.frame result (padOf pw) := by
  obtain ⟨w1, h1, e1⟩ := (ScratchWritten.refl h).putResult (taskFrame s c link).resOff result
  obtain ⟨w2, h2, e2⟩ := h1.changeWord link.frame (fun v => v ||| 2 ^ 35)
  obtain ⟨w3, h3, e3⟩ := h2.changeWord (taskFrame s c link).joinOff (fun v => v + (2 ^ 64 - 1))
  exact ⟨w3, h3, by rw [e3, e2, e1]; rfl⟩

/-- A local task's end: its slot is free, its owner's scratchpad holds the three writes, and the other groups have forgotten it. -/
theorem taskendLocal_ends (h : tget s.wgs (wgKey c.g.launch link.wg) = some pw) :
    let t := taskendLocal s c link result
    tget t.groups c.k = none ∧
      (∃ pw', tget t.wgs (wgKey c.g.launch link.wg) = some pw' ∧
        ∀ a, padOf pw' a = endedPad (taskFrame s c link) link.frame result (padOf pw) a) ∧
      t.mem = s.mem ∧
      ∀ j, j ≠ c.k → SameButUrgency ((tget s.groups j).map (without (wgKey c.g.launch link.wg) link.frame)) (tget t.groups j) := by
  intro t
  obtain ⟨w1, hwritten, hpad⟩ := taskWrites_written (c := c) (result := result) h
  have gone : GroupGone (forgetTask (taskWrites s c link result) (wgKey c.g.launch link.wg) link.frame) t c.k := by
    show GroupGone _ (taskendLocal s c link result) c.k
    rw [taskendLocal_eq]
    exact groupGone_endGroup ..
  obtain ⟨pw', hpw, hscratch, -⟩ := gone.pads _ w1 hwritten.own
  refine ⟨gone.own, ⟨pw', hpw, fun a => ?_⟩, ?_, fun j hj => ?_⟩
  · rw [padOf, hscratch, ← hpad]
    rfl
  · rw [gone.mem]
    show (taskWrites s c link result).mem = s.mem
    rw [hwritten.rest]
  · have hgroups : (taskWrites s c link result).groups = s.groups := by rw [hwritten.rest]
    rw [← hgroups, ← tget_forgetTask]
    exact gone.others hj

/-- A task of another core's frame leaves its last writes to an operation (R223). -/
theorem taskendGlobal_ends :
    let t := taskendGlobal s c link result
    tget t.groups c.k = none ∧ t.opNo = s.opNo + 1 ∧ t.mem = s.mem ∧
      ∃ o, tget t.ops s.opNo = some o ∧ o.ctr = none ∧ o.launch = c.g.launch ∧ o.act = .taskend link result := by
  intro t
  have gone : ∃ u o, GroupGone u t c.k ∧ u.opNo = s.opNo + 1 ∧ u.mem = s.mem ∧ tget u.ops s.opNo = some o ∧ o.ctr = none ∧
      o.launch = c.g.launch ∧ o.act = .taskend link result := by
    refine ⟨_, _, groupGone_endGroup .., rfl, rfl, tget_tput_same .., rfl, rfl, rfl⟩
  obtain ⟨u, o, gone, hno, hmem, ho, hctr, hlaunch, hact⟩ := gone
  obtain ⟨o', ho', _, _, _, _, _, rfl⟩ := gone.op ho
  exact ⟨gone.own, gone.opNo.trans hno, gone.mem.trans hmem, _, ho', hctr, hlaunch, hact⟩

end

/-! ## TASKEND (R223) -/

/-- The result TASKEND gives. -/
abbrev taskResult (f : SX) (c : Ctx) : Option DWord := if f.md.getLsbD 0 then some (sval c.g f.lit f.sa) else none

/-- What TASKEND comes to. -/
def taskendEff (f : SX) (s : State) (c : Ctx) : Eff :=
  match c.g.task with
  | none => operandTrap c 23
  | some link =>
    if c.g.sp.fsp ≠ c.g.sp.fbase then operandTrap c 23
    else if c.g.ld ≠ [] ∨ c.g.tile ≠ [] then .park s c.g .drain
    else if c.det then .park s c.g .commit
    else taskendDo f s c link

theorem exec_taskend (f : SX) (s : State) : exec (.taskend f) s = issue (.taskend f) s (taskendEff f s) := by
  show execTaskend f s = _
  unfold execTaskend taskendEff
  rfl

/-- An instruction whose effect ends its group leaves what the end leaves, and nobody issues. -/
theorem exec_gone {i : Instr} {s s1 : State} {c : Ctx} {body : Ctx → Eff} (he : exec i s = issue i s body) (h : Ready s i c)
    (hv : isVector i = false) (hb : body c = .gone s1) : exec i s = .next { s1 with cur := none } := by
  rw [he, issue_ready body h (.inl hv), hb]
  rfl

section
variable {s : State} {c : Ctx} {f : SX} {link : TaskLink}

theorem taskendEff_launched (h : c.g.task = none) : taskendEff f s c = operandTrap c 23 := by
  rw [taskendEff, h]

section
variable (task : c.g.task = some link) (empty : c.g.sp.fsp = c.g.sp.fbase)
include task empty

theorem taskendEff_outstanding (h : c.g.ld ≠ [] ∨ c.g.tile ≠ []) : taskendEff f s c = .park s c.g .drain := by
  rw [taskendEff, task]
  dsimp only
  rw [if_neg (not_not_intro empty), if_pos h]

variable (ld : c.g.ld = []) (tile : c.g.tile = [])
include ld tile

theorem taskendEff_drained : taskendEff f s c = if c.det then .park s c.g .commit else taskendDo f s c link := by
  rw [taskendEff, task]
  dsimp only
  rw [if_neg (not_not_intro empty), if_neg (by simp [ld, tile])]

theorem taskendEff_det (h : c.l.kern.det = true) : taskendEff f s c = .park s c.g .commit :=
  (taskendEff_drained task empty ld tile).trans (if_pos h)

variable (free : c.l.kern.det = false)
include free

theorem taskendEff_ends : taskendEff f s c = taskendDo f s c link :=
  (taskendEff_drained task empty ld tile).trans (if_neg (Bool.eq_false_iff.1 free))

theorem taskendEff_global (h : link.global = true) : taskendEff f s c = .gone (taskendGlobal s c link (taskResult f c)) := by
  rw [taskendEff_ends task empty ld tile free]
  simp only [taskendDo, h, if_true]

section
variable (owned : link.global = false)
include owned

theorem taskendEff_localTraps {m : Miss} (h : taskendCheck s c link (taskResult f c) = some m) : taskendEff f s c = .trap m := by
  rw [taskendEff_ends task empty ld tile free]
  simp only [taskendDo, owned, h, Bool.false_eq_true, if_false]

theorem taskendEff_localEnds (h : taskendCheck s c link (taskResult f c) = none) :
    taskendEff f s c = .gone (taskendLocal s c link (taskResult f c)) := by
  rw [taskendEff_ends task empty ld tile free]
  simp only [taskendDo, owned, h, Bool.false_eq_true, if_false]

end

end

end

/-! ## ENDG (R200) -/

section
variable {s : State} {c : Ctx} {f : S2}

/-- What ENDG comes to. -/
def endgEff (s : State) (c : Ctx) : Eff :=
  if c.g.task.isSome then operandTrap c 23
  else if c.g.sp.fsp ≠ c.g.sp.fbase then operandTrap c 23
  else if c.g.ld ≠ [] ∨ c.g.tile ≠ [] then .park s c.g .drain
  else .gone (endGroup (countWg s c.g) c.k c.g)

theorem exec_endg (f : S2) (s : State) : exec (.endg f) s = issue (.endg f) s (endgEff s) := rfl

theorem endgEff_refused (h : c.g.task ≠ none ∨ c.g.sp.fsp ≠ c.g.sp.fbase) : endgEff s c = operandTrap c 23 := by
  unfold endgEff
  split
  · rfl
  · next ht => exact if_pos (h.resolve_left fun hn => ht (Option.isSome_iff_ne_none.2 hn))

theorem endgEff_accepted (task : c.g.task = none) (empty : c.g.sp.fsp = c.g.sp.fbase) :
    endgEff s c = if c.g.ld ≠ [] ∨ c.g.tile ≠ [] then .park s c.g .drain else .gone (endGroup (countWg s c.g) c.k c.g) := by
  rw [endgEff, task, if_neg (by decide), if_neg (not_not_intro empty)]

end

/-- Settles O13: each instruction by what it finds, and the end of a group as what may follow it keeps. -/
theorem joinsAndTaskEnds : Obligations.JoinsAndTaskEnds := by
  unfold Obligations.JoinsAndTaskEnds
  refine ⟨fun f s c h => ?_, fun f s c h => ?_, fun f s c h => ?_⟩
  · intro off fr there readable candidate ok joinRead
    refine ⟨?_, ?_, ?_, fun h1 h2 h3 h4 => join_parks h (joinEff_candidate h1 h2 h3 h4), fun hh => ⟨fun h1 => ?_, fun m h1 h2 => ?_,
      fun h1 h2 h3 => ?_, ?_⟩⟩
    · rintro ⟨h1, h2, h3, h4⟩ hp
      exact join_takes h (joinEff_unpromoted h1 h2 h3 h4 hp)
    · rintro ⟨h1, h2, h3, h4⟩ hp hr h0
      exact retires_of_group (exec_join f s) h (isVector_join f) (joinEff_joined h1 h2 h3 h4 hp hr h0) rfl rfl
    · rintro ⟨h1, h2, h3, h4⟩ hp hr h0
      exact join_parks h (joinEff_waits h1 h2 h3 h4 hp hr h0)
    · exact join_traps h hh (joinEff_empty (not_not.1 h1))
    · exact join_traps h hh (joinEff_unreadable h1 h2)
    · exact join_traps h hh (joinEff_unsound h1 h2 h3)
    · rintro m ⟨h1, h2, h3, h4⟩ hp hr
      exact join_traps h hh (joinEff_joinUnreadable h1 h2 h3 h4 hp hr)
  · intro result
    have hv := isVector_taskend f
    refine ⟨fun link ht he ho => ?_, fun link ht he hl htl hd => ?_, fun link m ht he hl htl hd hloc hm hh => ?_,
      fun link pw ht he hl htl hd => ⟨fun hloc hm hpw => ?_, fun hglob => ?_⟩, fun ht hh => ?_⟩
    · exact parks_of_body (exec_taskend f s) h (.inl hv) (taskendEff_outstanding ht he ho)
    · exact parks_of_body (exec_taskend f s) h (.inl hv) (taskendEff_det ht he hl htl hd)
    · exact traps_of_body (exec_taskend f s) h (.inl hv) (taskendEff_localTraps ht he hl htl hd hloc hm) hh
    · intro fr m1 m2 m3
      have hexec := exec_gone (exec_taskend f s) h hv (taskendEff_localEnds ht he hl htl hd hloc hm)
      obtain ⟨hown, ⟨pw', hpw', hpad⟩, hmem, hothers⟩ := taskendLocal_ends (c := c) (result := result) hpw
      refine ⟨_, pw', hexec, hown, hpw', fun a => (hpad a).trans ?_, hmem, hothers⟩
      have hm1 : storedResult fr.resOff (padOf pw) result = m1 := by
        show storedResult fr.resOff (padOf pw) (if f.md.getLsbD 0 then some (sval c.g f.lit f.sa) else none) =
          if f.md.getLsbD 0 then storedAt fr.resOff (bytesOf 8 (sval c.g f.lit f.sa).toNat) (padOf pw) else padOf pw
        split <;> rfl
      rw [endedPad, hm1]
      rfl
    · have hexec := exec_gone (exec_taskend f s) h hv (taskendEff_global ht he hl htl hd hglob)
      obtain ⟨hown, hno, hmem, o, ho, hctr, hlaunch, hact⟩ := taskendGlobal_ends (s := s) (c := c) (link := link) (result := result)
      exact ⟨_, o, hexec, hown, hno, ho, hctr, hlaunch, hact, hmem⟩
    · exact traps_operand (exec_taskend f s) h hv (taskendEff_launched ht) hh
  · have hv := isVector_endg f
    refine ⟨fun ht he hl htl => ?_, fun ht he ho => ?_, fun hbad hh => ?_⟩
    · have hexec := exec_gone (exec_endg f s) h hv ((endgEff_accepted ht he).trans (if_neg (by simp [hl, htl])))
      have gone := groupGone_endGroup s c.g c.g c.k
      refine ⟨_, hexec, gone.own, rfl, gone.mem, fun j hj => gone.others hj, fun key w hw => ?_⟩
      obtain ⟨w', hw', hscratch, -⟩ := gone.pads key w hw
      exact ⟨w', hw', hscratch⟩
    · exact parks_of_body (exec_endg f s) h (.inl hv) ((endgEff_accepted ht he).trans (if_pos ho))
    · exact traps_operand (exec_endg f s) h hv (endgEff_refused hbad) hh

end Sys2Proof.Machine
end

