-- ==== Sys2Proof/Proofs/FramesPushed.lean ====
section

/-! # FORK and VFORK (O14) -/

namespace Sys2Proof.Machine

/-! ## Frames stored at FSP (R213, R206) -/

/-- Runs of bytes stored in a scratchpad, one after the other. -/
def storeRuns (s : State) (key : Nat) (rs : List (Nat × List Byte)) : State := rs.foldl (fun s r => scratchPut s key r.1 r.2) s

theorem threadStores_committed (s : State) (g : Group) (rs : List (Nat × List Byte)) :
    rs.foldl (fun p r => threadStore p.1 p.2 false r.1 r.2) (s, g) = (storeRuns s (gWg g) rs, g) := by
  induction rs generalizing s with
  | nil => rfl
  | cons r rs ih => exact ih _

theorem threadStores_buffered (s : State) (g : Group) (rs : List (Nat × List Byte)) :
    rs.foldl (fun p r => threadStore p.1 p.2 true r.1 r.2) (s, g) =
      (s, { g with detBuf := g.detBuf ++ rs.map (fun r => (r.1, clean r.2)) }) := by
  induction rs generalizing g with
  | nil => rw [List.map_nil, List.append_nil]; rfl
  | cons r rs ih => exact (ih _).trans (by simp)

/-- Frames of 64 bytes with the offsets they are pushed at, from `fsp` up. -/
def frameRuns (fsp n : Nat) (frame : Nat → List Byte) : List (Nat × List Byte) := (List.range n).map fun k => (fsp + 64 * k, frame k)

theorem frameRuns_succ (fsp n : Nat) (frame : Nat → List Byte) :
    frameRuns fsp (n + 1) frame = frameRuns fsp n frame ++ [(fsp + 64 * n, frame n)] := by
  rw [frameRuns, List.range_succ, List.map_append]
  rfl

theorem storeRuns_concat (s : State) (key : Nat) (rs : List (Nat × List Byte)) (r : Nat × List Byte) :
    storeRuns s key (rs ++ [r]) = scratchPut (storeRuns s key rs) key r.1 r.2 := List.foldl_append

theorem length_flatMap_frames {frame : Nat → List Byte} (hframe : ∀ k, (frame k).length = 64) (n : Nat) :
    ((List.range n).flatMap frame).length = 64 * n := by
  simp [List.length_flatMap, hframe, Nat.mul_comm]

/-- A scratchpad after frames were stored in it: their bytes stand one after the other and the words they cover are fresh. -/
theorem storeRuns_frameRuns {s : State} {key : Nat} {w : Workgroup} (h : tget s.wgs key = some w) (fsp : Nat) {frame : Nat → List Byte}
    (hframe : ∀ k, (frame k).length = 64) (n : Nat) :
    ∃ w1, ScratchWritten s (storeRuns s key (frameRuns fsp n frame)) key w w1 ∧
      padOf w1 = storedAt fsp ((List.range n).flatMap frame) (padOf w) ∧
      ∀ word, mget false w1.spoison word =
        if (List.range n).any (fun k => wholeIn (fsp + 64 * k) 64 word) then false else mget false w.spoison word := by
  induction n with
  | zero => exact ⟨w, .refl h, (storedAt_nil ..).symm, fun _ => rfl⟩
  | succ n ih =>
    obtain ⟨w1, hwritten, hpad, hmark⟩ := ih
    rw [frameRuns_succ, storeRuns_concat]
    refine ⟨_, hwritten.put .., ?_, fun word => ?_⟩
    · rw [padOf_wgWrite, hpad, ← length_flatMap_frames hframe n, storedAt_append, List.range_succ, List.flatMap_append,
        List.flatMap_singleton]
    · rw [mget_spoison_wgWrite, hmark, hframe, List.range_succ, List.any_append]
      cases hw : wholeIn (fsp + 64 * n) 64 word <;> simp [hw]

/-! ## A workgroup that becomes exported (R366) -/

/-- A workgroup exported where a G frame was pushed. -/
def exportIf (b : Bool) (s : State) (key : Nat) : State := if b then exportWg s key else s

/-- A workgroup whose scratchpad was written and that was exported where a G frame was pushed. -/
theorem exportIf_scratchWritten {s s1 : State} {key : Nat} {w w1 : Workgroup} (h : ScratchWritten s s1 key w w1) (b : Bool) :
    ∃ ws w2, exportIf b s1 key = { s with wgs := ws } ∧ tget ws key = some w2 ∧
      w2 = { w with scratch := w1.scratch, spoison := w1.spoison, watch := w1.watch, exported := b || w.exported } ∧
      ∀ j, j ≠ key → tget ws j = tget s.wgs j := by
  obtain ⟨rest, own, others, kept, -⟩ := h
  cases b with
  | false => exact ⟨s1.wgs, w1, rest, own, kept, others⟩
  | true =>
    refine ⟨tput s1.wgs key { w1 with exported := true }, _, ?_, tget_tput_same .., ?_,
      fun j hj => (tget_tput_ne _ _ hj).trans (others j hj)⟩
    · rw [exportIf, if_pos rfl, exportWg, own, rest]
      rfl
    · rw [kept]; rfl

/-- Retirement of a group whose workgroup is not as its context says, on the same core. -/
theorem retire_of_wg (s : State) (c : Ctx) {w : Workgroup} (hcore : w.core = c.w.core) (g : Group) (pc : DWord) :
    retire s c g pc = retire s { c with w := w } g pc := by
  simp only [retire, countRetired, hcore]
  rfl

/-- An instruction whose effect writes its workgroup's scratchpad, exports the workgroup where it says so and changes its group
retires with that done. -/
theorem storesScratch_of_export {i : Instr} {s s1 : State} {c : Ctx} {w1 : Workgroup} {body : Ctx → Eff} {g1 : Group} {b : Bool}
    {bytes : Nat → Byte} {mark : Nat → Bool} {P : Group → Prop} (he : exec i s = issue i s body) (h : Ready s i c)
    (hv : isVector i = false) (hb : body c = .next (exportIf b s1 (gWg c.g)) g1)
    (hl : g1.launch = c.g.launch) (hw : g1.wg = c.g.wg) (hs : ScratchWritten s s1 (gWg c.g) c.w w1) (hbytes : padOf w1 = bytes)
    (hmark : ∀ n, mget false w1.spoison n = mark n) (hP : ∀ g', Counted g1 g' → P g') :
    StoresScratch i s c { c.w with exported := b || c.w.exported } bytes mark P := by
  obtain ⟨ws, w2, hexp, hown, hw2, hothers⟩ := exportIf_scratchWritten hs b
  obtain ⟨hcur, hg, -, hcl, hi, hlen⟩ := ctxOf_some h.1
  have hc2 : ctxOf (exportIf b s1 (gWg c.g)) i = some { c with w := w2 } := by
    rw [hexp]
    simp only [ctxOf, hcur, groupCtx, hg, hown, hcl]
    rw [← hlen, ← hi]
  have hcore : w2.core = c.w.core := by rw [hw2]
  have hafter : c.g.pc + BitVec.ofNat 64 c.len = after i c := by rw [hlen, after]
  obtain ⟨⟨groups, wgs, own, rest⟩, hg'⟩ := retire_spec hc2 g1 (after i c) hl hw
  have hexec : exec i s = .next (retire (exportIf b s1 (gWg c.g)) { c with w := w2 } g1 (after i c)) := by
    rw [he, issue_ready body h (.inl hv), hb, ← retire_of_wg _ c hcore, ← hafter]; rfl
  refine ⟨_, _, _, hexec, hg', retiredGroup_pc .., hP _ (retiredGroup_counted ..), own, ?_, ?_, fun a => ?_, fun n => ?_,
    fun j hj => ?_, fun key hkey => (wgs key hkey).trans ?_, rest.trans ?_⟩
  · rw [hw2]
  · rw [hw2]; exact hs.watches
  · rw [hw2]; exact congrFun hbytes a
  · rw [hw2]; exact hmark n
  · rw [groups j hj, hexp]
  · rw [hexp]; exact hothers key hkey
  · rw [hexp]

end Sys2Proof.Machine
end

