-- ==== Sys2Proof/Proofs/ForkChecks.lean ====
section

/-! # The checks of FORK and VFORK on their offsets operand (O14) -/

namespace Sys2Proof.Machine

/-- The join word's offset that FORK and VFORK name. -/
abbrev forkJoin (c : Ctx) (f : SX) : Nat := bits (sval c.g f.lit f.sb) 0 20

/-- The first result slot's offset that FORK and VFORK name. -/
abbrev forkRes (c : Ctx) (f : SX) : Nat := bits (sval c.g f.lit f.sb) 20 20

/-- The words that the pushed frames name. -/
abbrev forkWords (c : Ctx) (f : SX) (n : Nat) : List Nat := forkJoin c f :: (List.range n).map (fun k => forkRes c f + 8 * k)

/-- An operand with its upper bits clear and an entry in the code. -/
abbrev ForkEntry (c : Ctx) (f : SX) : Prop :=
  (sval c.g f.lit f.sb).extractLsb' 40 24 = 0 ∧ f.imm.toNat % 4 = 0 ∧ f.imm.toNat < c.l.kern.codesize

section
variable {c : Ctx} {f : SX} {n : Nat}

theorem forkCheck_badEntry (h : ¬ForkEntry c f) : forkCheck c f n = some (operandTrap c 23) := by
  unfold forkCheck
  dsimp only
  by_cases hb : bits (sval c.g f.lit f.sb) 40 24 ≠ 0
  · rw [if_pos hb]
  · have hzero : (sval c.g f.lit f.sb).extractLsb' 40 24 = 0 := BitVec.eq_of_toNat_eq (not_not.1 hb)
    have hcode : ¬(f.imm.toNat % 4 = 0 ∧ f.imm.toNat < c.l.kern.codesize) := fun hc => h ⟨hzero, hc⟩
    rw [if_neg hb, if_pos (by omega)]

variable (entry : ForkEntry c f)
include entry

/-- With a sound entry the words decide: the first that is misaligned, else the first that is out of bounds. -/
theorem forkCheck_words : forkCheck c f n =
    (((forkWords c f n).find? (fun o => o % 8 != 0)).map fun o => .trap ⟨0x05, BitVec.ofNat 64 o, 0⟩).or
      (((forkWords c f n).find? (fun o => decide (c.size < o + 8))).map fun o => .trap ⟨0x04, BitVec.ofNat 64 o, 0⟩) := by
  obtain ⟨hzero, halign, hcode⟩ := entry
  have hbits : ¬bits (sval c.g f.lit f.sb) 40 24 ≠ 0 := by
    rw [bits, hzero]
    exact fun h => h rfl
  unfold forkCheck
  dsimp only
  rw [if_neg hbits, if_neg (by omega)]
  cases (forkWords c f n).find? (fun o => o % 8 != 0) with
  | some o => rfl
  | none => cases (forkWords c f n).find? (fun o => decide (c.size < o + 8)) <;> rfl

theorem forkCheck_joinMisaligned (h : forkJoin c f % 8 ≠ 0) :
    forkCheck c f n = some (.trap ⟨0x05, BitVec.ofNat 64 (forkJoin c f), 0⟩) := by
  rw [forkCheck_words entry, List.find?_cons_of_pos (p := fun o => o % 8 != 0) (bne_iff_ne.2 h)]
  rfl

variable (join : forkJoin c f % 8 = 0)
include join

theorem forkCheck_resMisaligned (hn : n ≠ 0) (h : forkRes c f % 8 ≠ 0) :
    forkCheck c f n = some (.trap ⟨0x05, BitVec.ofNat 64 (forkRes c f), 0⟩) := by
  obtain ⟨m, rfl⟩ := Nat.exists_eq_succ_of_ne_zero hn
  have hfind : (forkWords c f m.succ).find? (fun o => o % 8 != 0) = some (forkRes c f) := by
    rw [List.find?_cons_of_neg (p := fun o => o % 8 != 0) fun h => bne_iff_ne.1 h join, List.range_succ_eq_map, List.map_cons]
    exact List.find?_cons_of_pos (bne_iff_ne.2 h)
  rw [forkCheck_words entry, hfind]
  rfl

variable (res : n ≠ 0 → forkRes c f % 8 = 0)
include res

theorem forkCheck_aligned : forkCheck c f n =
    ((forkWords c f n).find? (fun o => decide (c.size < o + 8))).map fun o => .trap ⟨0x04, BitVec.ofNat 64 o, 0⟩ := by
  have hfind : (forkWords c f n).find? (fun o => o % 8 != 0) = none := by
    rw [List.find?_cons_of_neg (p := fun o => o % 8 != 0) fun h => bne_iff_ne.1 h join, List.find?_map, Option.map_eq_none_iff, List.find?_range_eq_none]
    intro k hk
    have := res (by omega)
    have hk8 : (forkRes c f + 8 * k) % 8 = 0 := by omega
    rw [Function.comp_apply, hk8]
    rfl
  rw [forkCheck_words entry, hfind]
  rfl

theorem forkCheck_joinOutside (h : c.size < forkJoin c f + 8) :
    forkCheck c f n = some (.trap ⟨0x04, BitVec.ofNat 64 (forkJoin c f), 0⟩) := by
  rw [forkCheck_aligned entry join res, List.find?_cons_of_pos (p := fun o => decide (c.size < o + 8)) (decide_eq_true h)]
  rfl

variable (joinIn : forkJoin c f + 8 ≤ c.size)
include joinIn

theorem forkCheck_resOutside {k : Nat} (hk : k < n) (h : c.size < forkRes c f + 8 * k + 8)
    (before : ∀ j, j < k → forkRes c f + 8 * j + 8 ≤ c.size) :
    forkCheck c f n = some (.trap ⟨0x04, BitVec.ofNat 64 (forkRes c f + 8 * k), 0⟩) := by
  have hfind : (List.range n).find? ((fun o => decide (c.size < o + 8)) ∘ fun k => forkRes c f + 8 * k) = some k :=
    List.find?_range_eq_some.2 ⟨decide_eq_true h, List.mem_range.2 hk, fun j hj => by
      rw [Function.comp_apply, decide_eq_false (Nat.not_lt.2 (before j hj))]; rfl⟩
  rw [forkCheck_aligned entry join res, List.find?_cons_of_neg (p := fun o => decide (c.size < o + 8)) fun h => Nat.not_lt.2 joinIn (of_decide_eq_true h), List.find?_map, hfind]
  rfl

theorem forkCheck_sound (resIn : ∀ k, k < n → forkRes c f + 8 * k + 8 ≤ c.size) : forkCheck c f n = none := by
  have hfind : (List.range n).find? ((fun o => decide (c.size < o + 8)) ∘ fun k => forkRes c f + 8 * k) = none :=
    List.find?_range_eq_none.2 fun k hk => by
      rw [Function.comp_apply, decide_eq_false (Nat.not_lt.2 (resIn k hk))]; rfl
  rw [forkCheck_aligned entry join res, List.find?_cons_of_neg (p := fun o => decide (c.size < o + 8)) fun h => Nat.not_lt.2 joinIn (of_decide_eq_true h), List.find?_map, hfind]
  rfl

end

end Sys2Proof.Machine
end

