-- ==== Sys2Proof/Proofs/ForksPushFrames.lean ====
section

/-! # FORK and VFORK push frames (O14) -/

namespace Sys2Proof.Machine

/-! ## Frames pushed at FSP -/

/-- Whether a frame pushed at an offset meets the tape table. -/
abbrev offsetHit (s : State) (c : Ctx) (o : Nat) : Bool :=
  tapeHit (getCore s c.w.core) c.k (c.w.sbase + o) (c.w.sbase + o + 64) true false

/-- Whether the frame `k` above FSP meets it. -/
abbrev frameHit (s : State) (c : Ctx) (k : Nat) : Bool := offsetHit s c (c.g.sp.fsp.toNat + 64 * k)

/-- A group with `n` frames more on its stack, and what it has buffered. -/
abbrev pushedGroup (c : Ctx) (n : Nat) (buf : List (Nat × List PByte)) : Group :=
  { c.g with sp := { c.g.sp with fsp := BitVec.ofNat 21 (c.g.sp.fsp.toNat + 64 * n) }, scc := true, detBuf := buf }

section
variable {s : State} {c : Ctx} {f : SX} {n : Nat} {frame : Nat → List Byte}

theorem pushFrames_hit {k : Nat} (hk : k < n) (h : frameHit s c k = true) (before : ∀ j, j < k → frameHit s c j = false) :
    pushFrames s c f ((List.range n).map frame) = .trap ⟨0x06, BitVec.ofNat 64 (c.g.sp.fsp.toNat + 64 * k), 0⟩ := by
  have hrange : (List.range n).find? (offsetHit s c ∘ fun k => c.g.sp.fsp.toNat + 64 * k) = some k :=
    List.find?_range_eq_some.2 ⟨h, List.mem_range.2 hk, fun j hj => congrArg (!·) (before j hj)⟩
  have hfind : ((List.range n).map fun k => c.g.sp.fsp.toNat + 64 * k).find? (offsetHit s c) = some (c.g.sp.fsp.toNat + 64 * k) := by
    rw [List.find?_map, hrange]
    rfl
  unfold pushFrames
  dsimp only
  rw [List.length_map, List.length_range, hfind]
  rfl

/-- The frames pushed, each stored at once or buffered as the launch says. -/
theorem pushFrames_clear (clear : ∀ k, k < n → frameHit s c k = false) :
    pushFrames s c f ((List.range n).map frame) =
      if c.det then .next (exportIf (f.md.getLsbD 0) s (gWg c.g))
        (pushedGroup c n (c.g.detBuf ++ (frameRuns c.g.sp.fsp.toNat n frame).map (fun r => (r.1, clean r.2))))
      else .next (exportIf (f.md.getLsbD 0) (storeRuns s (gWg c.g) (frameRuns c.g.sp.fsp.toNat n frame)) (gWg c.g))
        (pushedGroup c n c.g.detBuf) := by
  have hfind : ((List.range n).map fun k => c.g.sp.fsp.toNat + 64 * k).find? (offsetHit s c) = none := by
    rw [List.find?_map, Option.map_eq_none_iff, List.find?_range_eq_none]
    exact fun k hk => congrArg (!·) (clear k hk)
  have hzip : (((List.range n).map fun k => c.g.sp.fsp.toNat + 64 * k).zip ((List.range n).map frame)) = frameRuns c.g.sp.fsp.toNat n frame := by
    rw [List.zip_map']
    rfl
  unfold pushFrames
  dsimp only
  rw [List.length_map, List.length_range, hfind, hzip]
  cases c.det with
  | true => rw [threadStores_buffered]; rfl
  | false => rw [threadStores_committed]; rfl

theorem pushFrames_stores (det : c.l.kern.det = false) (clear : ∀ k, k < n → frameHit s c k = false) :
    pushFrames s c f ((List.range n).map frame) =
      .next (exportIf (f.md.getLsbD 0) (storeRuns s (gWg c.g) (frameRuns c.g.sp.fsp.toNat n frame)) (gWg c.g))
        (pushedGroup c n c.g.detBuf) := (pushFrames_clear clear).trans (if_neg (Bool.eq_false_iff.1 det))

theorem pushFrames_buffers (det : c.l.kern.det = true) (clear : ∀ k, k < n → frameHit s c k = false) :
    pushFrames s c f ((List.range n).map frame) =
      .next (exportIf (f.md.getLsbD 0) s (gWg c.g))
        (pushedGroup c n (c.g.detBuf ++ (List.range n).map fun k => (c.g.sp.fsp.toNat + 64 * k, (frame k).map fun x => (x, false)))) := by
  rw [pushFrames_clear clear, frameRuns, List.map_map]
  exact if_pos det

variable {i : Instr} {body : Ctx → Eff} {g1 : Group} {b : Bool} {P : Group → Prop}

/-- An instruction whose effect stores frames at FSP. -/
theorem storesScratch_of_frames (he : exec i s = issue i s body) (h : Ready s i c) (hv : isVector i = false)
    (hframe : ∀ k, (frame k).length = 64)
    (hb : body c = .next (exportIf b (storeRuns s (gWg c.g) (frameRuns c.g.sp.fsp.toNat n frame)) (gWg c.g)) g1)
    (hl : g1.launch = c.g.launch) (hw : g1.wg = c.g.wg) (hP : ∀ g', Counted g1 g' → P g') :
    StoresScratch i s c { c.w with exported := b || c.w.exported }
      (storedAt c.g.sp.fsp.toNat ((List.range n).flatMap frame) (padOf c.w))
      (fun word => if (List.range n).any (fun k => wholeIn (c.g.sp.fsp.toNat + 64 * k) 64 word) then false else mget false c.w.spoison word)
      P := by
  obtain ⟨w1, hwritten, hpad, hmark⟩ := storeRuns_frameRuns (ctxOf_some h.1).2.2.1 c.g.sp.fsp.toNat hframe n
  exact storesScratch_of_export he h hv hb hl hw hwritten hpad hmark hP

/-- An instruction whose effect buffers frames: the scratchpad is as before. -/
theorem storesScratch_of_buffered (he : exec i s = issue i s body) (h : Ready s i c) (hv : isVector i = false)
    (hb : body c = .next (exportIf b s (gWg c.g)) g1)
    (hl : g1.launch = c.g.launch) (hw : g1.wg = c.g.wg) (hP : ∀ g', Counted g1 g' → P g') :
    StoresScratch i s c { c.w with exported := b || c.w.exported } (padOf c.w) (mget false c.w.spoison) P :=
  storesScratch_of_export he h hv hb hl hw (.refl (ctxOf_some h.1).2.2.1) rfl (fun _ => rfl) hP

end

/-! ## Frames (R207, R211) -/

theorem frameBytes_length (head res join : Nat) (args : List DWord) : (frameBytes head res join args).length = 64 := by
  simp [frameBytes, List.length_flatMap]

/-- The six argument dwords of a frame that has `n` arguments. -/
theorem flatMap_frameArgs (n : Nat) (v : Nat → DWord) :
    (List.range 6).flatMap (fun j => bytesOf 8 (((List.range n).map v).getD j 0).toNat) =
      (List.range 6).flatMap (fun j => bytesOf 8 (if j < n then (v j).toNat else 0)) := by
  congr 1
  funext j
  by_cases hj : j < n
  · simp [List.getD, hj]
  · simp [List.getD, hj]

/-! ## FORK (R213) -/

/-- The frame that FORK pushes. -/
def forkFrame (f : SX) (c : Ctx) : List Byte :=
  frameBytes (frameHead (forkN f) (c.g.sp.tdepth.toNat + 1) 0 false (f.md.getLsbD 0) f.imm.toNat) (forkRes c f) (forkJoin c f)
    ((List.range (forkN f)).map fun j => sreg c.g (f.sa.toNat + j))

theorem forkFrame_length (f : SX) (c : Ctx) : (forkFrame f c).length = 64 := frameBytes_length ..

theorem frameHead_scalar (argc depth : Nat) (glob : Bool) (entry : Nat) : frameHead argc depth 0 false glob entry =
    argc * 2 ^ 56 + depth % 256 * 2 ^ 48 + (if glob then 2 ^ 32 else 0) + entry := by
  have hzeros (x y z : Nat) : x + 0 + 0 + y + z = x + y + z := rfl
  rw [frameHead, if_neg Bool.false_ne_true, Nat.zero_mul, hzeros]

theorem forkFrame_eq (f : SX) (c : Ctx) : forkFrame f c =
    bytesOf 8 (forkN f * 2 ^ 56 + (c.g.sp.tdepth.toNat + 1) % 256 * 2 ^ 48 + (if f.md.getLsbD 0 then 2 ^ 32 else 0) + f.imm.toNat) ++
      bytesOf 8 (forkRes c f * 2 ^ 20 + forkJoin c f) ++
      (List.range 6).flatMap (fun j => bytesOf 8 (if j < forkN f then (sreg c.g (f.sa.toNat + j)).toNat else 0)) := by
  rw [forkFrame, frameBytes, flatMap_frameArgs, frameHead_scalar]

/-- What FORK comes to. -/
def forkEff (f : SX) (s : State) (c : Ctx) : Eff :=
  match forkCheck c f 1 with
  | some e => e
  | none =>
    if c.g.sp.flim.toNat < c.g.sp.fsp.toNat + 64 then .next s { c.g with scc := false }
    else pushFrames s c f [forkFrame f c]

theorem exec_fork (f : SX) (s : State) : exec (.fork f) s = issue (.fork f) s (forkEff f s) := by
  show execFork f s = _
  unfold execFork forkEff
  rfl

section
variable {s : State} {c : Ctx} {f : SX}

theorem forkEff_refused {e : Eff} (h : forkCheck c f 1 = some e) : forkEff f s c = e := by
  rw [forkEff, h]

variable (sound : forkCheck c f 1 = none)
include sound

theorem forkEff_full (h : c.g.sp.flim.toNat < c.g.sp.fsp.toNat + 64) : forkEff f s c = .next s { c.g with scc := false } := by
  rw [forkEff, sound]
  exact if_pos h

theorem forkEff_pushes (h : c.g.sp.fsp.toNat + 64 ≤ c.g.sp.flim.toNat) :
    forkEff f s c = pushFrames s c f ((List.range 1).map fun _ => forkFrame f c) := by
  rw [forkEff, sound]
  exact if_neg (Nat.not_lt.2 h)

end

/-! ## VFORK (R214) -/

/-- The frame that VFORK pushes for its live lane number `k`. -/
def vforkFrame (f : SX) (c : Ctx) (k : Nat) : List Byte :=
  let lane := (activeLanes (execMask c.g)).getD k 0
  frameBytes (frameHead (forkN f) (c.g.sp.tdepth.toNat + 1) lane true (f.md.getLsbD 0) f.imm.toNat) (forkRes c f + 8 * k) (forkJoin c f)
    ((List.range (forkN f)).map fun j => (regLanes c.g (2 * f.md2.toNat + 2 * j) 64).getD lane 0)

theorem vforkFrame_length (f : SX) (c : Ctx) (k : Nat) : (vforkFrame f c k).length = 64 := frameBytes_length ..

theorem regLanes_pair (g : Group) (n : Nat) {l : Nat} (h : l < 128) : (regLanes g n 64).getD l 0 = (vlane g (n + 1) l ++ vlane g n l : BitVec 64) := by
  have hlane : laneIds[l]? = some l := List.getElem?_range h
  rw [regLanes, List.getD, List.getElem?_map, hlane]
  rfl

theorem activeLane_lt (m : Mask) (k : Nat) : (activeLanes m).getD k 0 < 128 := by
  rw [List.getD]
  cases h : (activeLanes m)[k]? with
  | none => exact Nat.zero_lt_succ _
  | some l => exact List.mem_range.1 (List.mem_of_mem_filter (List.mem_of_getElem? h))

theorem vforkFrame_eq (f : SX) (c : Ctx) (k : Nat) :
    let lane := (activeLanes (execMask c.g)).getD k 0
    vforkFrame f c k =
      bytesOf 8 (forkN f * 2 ^ 56 + (c.g.sp.tdepth.toNat + 1) % 256 * 2 ^ 48 + lane * 2 ^ 40 + 2 ^ 33 +
        (if f.md.getLsbD 0 then 2 ^ 32 else 0) + f.imm.toNat) ++
      bytesOf 8 ((forkRes c f + 8 * k) * 2 ^ 20 + forkJoin c f) ++
      (List.range 6).flatMap (fun j => bytesOf 8 (if j < forkN f then
        (vlane c.g (2 * f.md2.toNat + 2 * j + 1) lane ++ vlane c.g (2 * f.md2.toNat + 2 * j) lane : BitVec 64).toNat else 0)) := by
  intro lane
  have hargs : (fun j => (regLanes c.g (2 * f.md2.toNat + 2 * j) 64).getD lane 0) =
      fun j => (vlane c.g (2 * f.md2.toNat + 2 * j + 1) lane ++ vlane c.g (2 * f.md2.toNat + 2 * j) lane : BitVec 64) :=
    funext fun j => regLanes_pair _ _ (activeLane_lt _ _)
  rw [vforkFrame, hargs, frameBytes, flatMap_frameArgs]
  rfl

/-- VFORK's frames pushed, with their number written to SD. -/
def countPushed (f : SX) (n : Nat) : Eff → Eff
  | .next s1 g1 => .next s1 (setS g1 f.sd.toNat (BitVec.ofNat 64 n))
  | e => e

/-- What VFORK comes to. -/
def vforkEff (f : SX) (s : State) (c : Ctx) : Eff :=
  let lanes := activeLanes (execMask c.g)
  match forkCheck c f lanes.length with
  | some e => e
  | none =>
    if lanes = [] then .next s { setS c.g f.sd.toNat 0 with scc := true }
    else if c.g.sp.flim.toNat < c.g.sp.fsp.toNat + 64 * lanes.length then .next s { setS c.g f.sd.toNat 0 with scc := false }
    else countPushed f lanes.length (pushFrames s c f ((List.range lanes.length).map (vforkFrame f c)))

theorem zip_range_map {α : Type} (ls : List Nat) (F : Nat × Nat → α) :
    (ls.zip (List.range ls.length)).map F = (List.range ls.length).map fun k => F (ls.getD k 0, k) := by
  refine List.ext_getElem (by simp) fun k h1 h2 => ?_
  simp only [List.length_map, List.length_range] at h2
  simp [List.getD, h2]

theorem exec_vfork (f : SX) (s : State) : exec (.vfork f) s = issue (.vfork f) s (vforkEff f s) := by
  show execVfork f s = _
  unfold execVfork vforkEff
  simp only [zip_range_map, List.map_map]
  rfl

section
variable {s : State} {c : Ctx} {f : SX}

theorem vforkEff_refused {e : Eff} (h : forkCheck c f (activeLanes (execMask c.g)).length = some e) : vforkEff f s c = e := by
  simp only [vforkEff, h]

variable (sound : forkCheck c f (activeLanes (execMask c.g)).length = none)
include sound

theorem vforkEff_noLane (h : activeLanes (execMask c.g) = []) : vforkEff f s c = .next s { setS c.g f.sd.toNat 0 with scc := true } := by
  simp only [vforkEff, sound, if_pos h]

variable (live : activeLanes (execMask c.g) ≠ [])
include live

theorem vforkEff_full (h : c.g.sp.flim.toNat < c.g.sp.fsp.toNat + 64 * (activeLanes (execMask c.g)).length) :
    vforkEff f s c = .next s { setS c.g f.sd.toNat 0 with scc := false } := by
  simp only [vforkEff, sound, if_neg live, if_pos h]

theorem vforkEff_pushes (h : c.g.sp.fsp.toNat + 64 * (activeLanes (execMask c.g)).length ≤ c.g.sp.flim.toNat) :
    vforkEff f s c = countPushed f (activeLanes (execMask c.g)).length
      (pushFrames s c f ((List.range (activeLanes (execMask c.g)).length).map (vforkFrame f c))) := by
  simp only [vforkEff, sound, if_neg live, if_neg (Nat.not_lt.2 h)]

end

/-! ## The obligation -/

theorem any_range_one (p : Nat → Bool) : (List.range 1).any p = p 0 := Bool.or_false _

/-- Settles O14: the checks of the operand, then the frames stored or buffered one after the other. -/
theorem forksPushFrames : Obligations.ForksPushFrames := by
  unfold Obligations.ForksPushFrames
  refine ⟨fun f s c h => ?_, fun f s c h => ?_⟩
  · have hv := isVector_fork f
    have he := exec_fork f s
    intro b join res n fsp entryOk frame w fits
    have hframe : forkFrame f c = frame := forkFrame_eq f c
    have hone : (List.range 1).flatMap (fun _ => forkFrame f c) = frame := by rw [← hframe]; exact List.append_nil _
    have sound : entryOk → fits → forkCheck c f 1 = none := fun entry ⟨h1, h2, h3, h4⟩ =>
      forkCheck_sound entry h1 (fun _ => h2) h3 fun k hk => by rw [Nat.lt_one_iff.1 hk]; exact h4
    have clear : tapeHit (getCore s c.w.core) c.k (c.w.sbase + fsp) (c.w.sbase + fsp + 64) true false = false →
        ∀ k, k < 1 → frameHit s c k = false := fun hclear k hk => by rw [Nat.lt_one_iff.1 hk]; exact hclear
    refine ⟨fun entry hfits hfull => ?_, fun entry hfits hroom hclear => ⟨fun hdet => ?_, fun hdet => ?_⟩,
      fun hh => ⟨fun entry hfits hroom hhit => ?_, fun entry => ?_, fun entry hj => ?_, fun entry hj hr => ?_,
        fun entry hj hr hout => ?_, fun entry hj hr hin hout => ?_⟩⟩
    · exact retires_of_group he h hv (forkEff_full (sound entry hfits) hfull) rfl rfl
    · have hstores := storesScratch_of_frames he h hv (fun _ => forkFrame_length f c)
        ((forkEff_pushes (sound entry hfits) hroom).trans (pushFrames_stores hdet (clear hclear))) rfl rfl (fun _ hg => hg)
      rw [hone] at hstores
      simp only [any_range_one] at hstores
      exact hstores
    · have hstores := storesScratch_of_buffered he h hv
        ((forkEff_pushes (sound entry hfits) hroom).trans (pushFrames_buffers hdet (clear hclear))) rfl rfl (fun _ hg => hg)
      rw [hframe] at hstores
      exact hstores
    · exact traps_of_body he h (.inl hv) ((forkEff_pushes (sound entry hfits) hroom).trans
        (pushFrames_hit Nat.zero_lt_one hhit fun j hj => absurd hj (Nat.not_lt_zero j))) hh
    · exact traps_operand he h hv (forkEff_refused (forkCheck_badEntry entry)) hh
    · exact traps_of_body he h (.inl hv) (forkEff_refused (forkCheck_joinMisaligned entry hj)) hh
    · exact traps_of_body he h (.inl hv) (forkEff_refused (forkCheck_resMisaligned entry hj Nat.one_ne_zero hr)) hh
    · exact traps_of_body he h (.inl hv) (forkEff_refused (forkCheck_joinOutside entry hj (fun _ => hr) hout)) hh
    · exact traps_of_body he h (.inl hv) (forkEff_refused (forkCheck_resOutside entry hj (fun _ => hr) hin Nat.zero_lt_one hout
        fun j hj => absurd hj (Nat.not_lt_zero j))) hh
  · have hv := isVector_vfork f
    have he := exec_vfork f s
    intro b join res n fsp lanes arg frame entryOk aligned fits room hit w pushed
    have hframe : vforkFrame f c = frame := funext (vforkFrame_eq f c)
    have slots : (lanes ≠ [] → res % 8 = 0) → lanes.length ≠ 0 → res % 8 = 0 := fun h1 h2 => h1 (mt List.length_eq_zero_iff.2 h2)
    have sound : entryOk → aligned → fits → forkCheck c f lanes.length = none := fun entry ⟨h1, h2⟩ ⟨h3, h4⟩ =>
      forkCheck_sound entry h1 (slots h2) h3 h4
    refine ⟨fun entry hal hfits => ⟨fun hnone => ?_, fun hlive hfull => ?_, fun ⟨hlive, hroom⟩ hclear => ⟨fun hdet => ?_, fun hdet => ?_⟩⟩,
      fun hh => ⟨fun k entry hal hfits ⟨hlive, hroom⟩ hk hhit hbefore => ?_, fun entry => ?_, fun entry hj => ?_, fun entry hj hlive hr => ?_,
        fun entry hal hout => ?_, fun k entry hal hin hk hout hbefore => ?_⟩⟩
    · exact writesScalar_of_body he h hv (vforkEff_noLane (sound entry hal hfits) hnone)
    · exact writesScalar_of_body he h hv (vforkEff_full (sound entry hal hfits) hlive hfull)
    · have hstores := storesScratch_of_frames he h hv (vforkFrame_length f c)
        ((vforkEff_pushes (sound entry hal hfits) hlive hroom).trans (congrArg _ (pushFrames_stores hdet hclear))) rfl rfl
        (fun _ hg => counted_setS hg)
      rw [hframe] at hstores
      exact hstores
    · have hstores := storesScratch_of_buffered he h hv
        ((vforkEff_pushes (sound entry hal hfits) hlive hroom).trans (congrArg _ (pushFrames_buffers hdet hclear))) rfl rfl
        (fun _ hg => counted_setS hg)
      rw [hframe] at hstores
      exact hstores
    · exact traps_of_body he h (.inl hv) ((vforkEff_pushes (sound entry hal hfits) hlive hroom).trans
        (congrArg _ (pushFrames_hit hk hhit hbefore))) hh
    · exact traps_operand he h hv (vforkEff_refused (forkCheck_badEntry entry)) hh
    · exact traps_of_body he h (.inl hv) (vforkEff_refused (forkCheck_joinMisaligned entry hj)) hh
    · exact traps_of_body he h (.inl hv) (vforkEff_refused (forkCheck_resMisaligned entry hj (mt List.length_eq_zero_iff.1 hlive) hr)) hh
    · exact traps_of_body he h (.inl hv) (vforkEff_refused (forkCheck_joinOutside entry hal.1 (slots hal.2) hout)) hh
    · exact traps_of_body he h (.inl hv) (vforkEff_refused (forkCheck_resOutside entry hal.1 (slots hal.2) hin hk hout hbefore)) hh

end Sys2Proof.Machine
end

