-- ==== Sys2Proof/Proofs/LaunchAppendsPacket.lean ====
section

/-! # LAUNCH (O15) -/

namespace Sys2Proof.Machine

/-! ## A queue's fields and its ring change no group -/

theorem stored_keepQ (s : State) (q : Nat) (x : Queue) : Stored s (keepQ s q x) := ⟨_, _, _, _, _, _, _, _, rfl⟩

theorem stored_putQ (s : State) (q : Nat) (x : Queue) (also : List Nat) : Stored s (putQ s q x also) :=
  (Stored.foldl (fun _ _ => .ite (.refl _) (stored_memPut ..)) _ s).trans (stored_keepQ ..)

theorem stored_lookQueue (s : State) (q : Nat) : Stored s (lookQueue s q) := by
  unfold lookQueue
  dsimp only
  refine .ite (.refl s) (.ite (stored_keepQ ..) (.ite ?_ (.refl s)))
  exact .ite (stored_keepQ ..) ((stored_keepQ ..).trans (stored_putQ ..))

theorem stored_foldl_fst {α β : Type} {f : State × β → α → State × β} (hf : ∀ p x, Stored p.1 (f p x).1) (xs : List α) (p : State × β) :
    Stored p.1 (xs.foldl f p).1 := by
  induction xs generalizing p with
  | nil => exact .refl _
  | cons x xs ih => exact (hf p x).trans (ih _)

theorem stored_spWrite {s s' : State} {sp : Space} {va : Nat} {ds : List PByte} {seen : Seen} (h : spWrite s sp va ds = .ok (s', seen)) :
    Stored s s' := by
  unfold spWrite at h
  split at h
  · cases h
  · split at h
    · cases h
    · have hfst : _ = s' := congrArg Prod.fst (Except.ok.inj h)
      rw [← hfst]
      refine stored_foldl_fst (fun p x => ?_) _ (s, 0)
      split
      · exact stored_homeWrite ..
      · exact .refl _

/-! ## The queue's answer (R225) -/

section
variable {s : State} {q asid : Nat} {packet : List Byte}

theorem appendLaunch_refused (h : (qDesc (lookQueue s q) q).active = false ∨ (qDesc (lookQueue s q) q).submit = true ∨
    (qDesc (lookQueue s q) q).asid ≠ asid) : appendLaunch s q asid packet = (lookQueue s q, 2) := by
  unfold appendLaunch
  dsimp only
  rw [if_pos (h.imp_left fun ha => by rw [ha]; rfl)]

section
variable (active : (qDesc (lookQueue s q) q).active = true) (packets : (qDesc (lookQueue s q) q).submit = false)
  (own : (qDesc (lookQueue s q) q).asid = asid)
include active packets own

theorem appendLaunch_accepted : ¬((!(qDesc (lookQueue s q) q).active) = true ∨ (qDesc (lookQueue s q) q).submit = true ∨
    (qDesc (lookQueue s q) q).asid ≠ asid) := by
  rw [active, packets]
  exact fun h => h.elim Bool.noConfusion fun h => h.elim Bool.noConfusion fun h => h own

theorem appendLaunch_full
    (full : ((getQ (lookQueue s q) q).wridx - (getQ (lookQueue s q) q).rdidx).toNat = 2 ^ (qDesc (lookQueue s q) q).logsize) :
    appendLaunch s q asid packet = (lookQueue s q, 1) := by
  unfold appendLaunch
  dsimp only
  rw [if_neg (appendLaunch_accepted active packets own), if_pos full]

theorem appendLaunch_appended {ds : List PByte} {seen seen2 : Seen} {s2 : State}
    (room : ((getQ (lookQueue s q) q).wridx - (getQ (lookQueue s q) q).rdidx).toNat ≠ 2 ^ (qDesc (lookQueue s q) q).logsize)
    (read : spRead (lookQueue s q) (.asid (qDesc (lookQueue s q) q).asid)
      ((qDesc (lookQueue s q) q).rbase + 64 * ((getQ (lookQueue s q) q).wridx.toNat % 2 ^ (qDesc (lookQueue s q) q).logsize)) 64 = .ok (ds, seen))
    (sound : ∀ b ∈ ds, b.2 = false)
    (written : spWrite (lookQueue s q) (.asid (qDesc (lookQueue s q) q).asid)
      ((qDesc (lookQueue s q) q).rbase + 64 * ((getQ (lookQueue s q) q).wridx.toNat % 2 ^ (qDesc (lookQueue s q) q).logsize)) (clean packet) =
        .ok (s2, seen2)) (taken : seen2.testBit 3 = false) :
    appendLaunch s q asid packet = (putQ s2 q { getQ (lookQueue s q) q with wridx := (getQ (lookQueue s q) q).wridx + 1 }, 0) := by
  have hsound : ds.any (fun b => b.2) = false := List.any_eq_false.2 fun b hb => by rw [sound b hb]; exact Bool.false_ne_true
  unfold appendLaunch
  dsimp only
  rw [if_neg (appendLaunch_accepted active packets own), if_neg room, read]
  refine (if_neg (Bool.eq_false_iff.1 hsound)).trans ?_
  rw [written]
  dsimp only
  rw [taken, if_neg Bool.false_ne_true]

end

end

/-! ## The instruction -/

/-- The 64 bytes that LAUNCH copies. -/
abbrev launchImage (f : SX) (s : State) (c : Ctx) : List Byte := (scratchRead s c.g (sval c.g f.lit f.sb).toNat 64).map (fun b => b.1)

/-- The check of R160 on them. -/
abbrev launchCheck (f : SX) (s : State) (c : Ctx) : Option Miss :=
  checkAcc s c false true false ((List.range 8).map (fun (j : Nat) => ⟨0, (sval c.g f.lit f.sb).toInt + 8 * (j : Int), 8⟩))

section
variable {f : SX} {s : State} {c : Ctx}

theorem launchDo_badQueue (h : 1023 < (sval c.g f.lit f.sa).toNat) : launchDo f s c = operandTrap c 23 := if_pos h

variable (queue : (sval c.g f.lit f.sa).toNat ≤ 1023)
include queue

theorem launchDo_misaligned (h : (sval c.g f.lit f.sb).toInt % 64 ≠ 0) : launchDo f s c = .trap ⟨0x05, sval c.g f.lit f.sb, 0⟩ :=
  (if_neg (Nat.not_lt.2 queue)).trans (if_pos h)

variable (aligned : (sval c.g f.lit f.sb).toInt % 64 = 0)
include aligned

theorem launchDo_unreadable {m : Miss} (h : launchCheck f s c = some m) : launchDo f s c = .trap { m with tval := sval c.g f.lit f.sb } := by
  simp only [launchDo, if_neg (Nat.not_lt.2 queue), if_neg (not_not_intro aligned), h]

variable (readable : launchCheck f s c = none)
include readable

theorem launchDo_noPacket (h : (launchImage f s c).headD 0 ≠ 1) : launchDo f s c = operandTrap c 23 := by
  simp only [launchDo, if_neg (Nat.not_lt.2 queue), if_neg (not_not_intro aligned), readable, if_pos h]

theorem launchDo_appends (h : (launchImage f s c).headD 0 = 1) : launchDo f s c =
    .next (appendLaunch s (sval c.g f.lit f.sa).toNat c.l.asid (launchImage f s c)).1
      (setS c.g f.sd.toNat (BitVec.ofNat 64 (appendLaunch s (sval c.g f.lit f.sa).toNat c.l.asid (launchImage f s c)).2)) := by
  simp only [launchDo, if_neg (Nat.not_lt.2 queue), if_neg (not_not_intro aligned), readable, if_neg (not_not_intro h)]

end

theorem exec_launch (f : SX) (s : State) : exec (.launch f) s = issue (.launch f) s (fun c => orCommit s c (launchDo f s c)) := rfl

theorem orCommit_free {s : State} {c : Ctx} (e : Eff) (h : c.l.kern.det = false) : orCommit s c e = e := by
  rw [orCommit, Ctx.det, h]
  rfl

theorem orCommit_det {s : State} {c : Ctx} (e : Eff) (h : c.l.kern.det = true) (hb : c.g.barw = none) :
    orCommit s c e = .park s c.g .commit := by
  rw [orCommit, Ctx.det, h, hb]
  rfl

/-- An instruction whose effect writes one scalar register and changes no group retires with both done. -/
theorem setsScalar_of_body {i : Instr} {s s1 : State} {c : Ctx} {body : Ctx → Eff} {sd : Nat} {v : DWord}
    (he : exec i s = issue i s body) (h : Ready s i c) (hv : isVector i = false) (hb : body c = .next s1 (setS c.g sd v))
    (hgroups : s1.groups = s.groups) : ∃ t, exec i s = .next t ∧ SetsScalar t s c sd v ∧ t.mem = s1.mem ∧ t.fe = s1.fe := by
  obtain ⟨gs, ws, ht, -, hown, hothers⟩ := retire_frame s1 c (setS c.g sd v) (c.g.pc + BitVec.ofNat 64 c.len)
  have hexec : exec i s = .next { s1 with groups := gs, wgs := ws, cur := none } := by
    rw [he, issue_ready body h (.inl hv), hb, ← ht]; rfl
  obtain ⟨hcounted, hsd, hregs⟩ := counted_setS (retiredGroup_counted s1 c (setS c.g sd v) (c.g.pc + BitVec.ofNat 64 c.len))
  exact ⟨_, hexec, ⟨_, hown, retiredGroup_pc .., hcounted, hsd, hregs, fun j hj => (hothers j hj).trans (by rw [hgroups])⟩, rfl, rfl⟩

/-- Settles O15: what LAUNCH checks, then what the queue answers. -/
theorem launchAppendsPacket : Obligations.LaunchAppendsPacket := by
  unfold Obligations.LaunchAppendsPacket
  refine ⟨fun f s c h hdet hb => ?_, fun f s c h hdet => ?_⟩
  · exact parks_of_body (exec_launch f s) h (.inl (isVector_launch f)) (orCommit_det _ hdet hb)
  · intro q o img s1 d x checked
    have hv := isVector_launch f
    have he : exec (.launch f) s = issue (.launch f) s (fun c => orCommit s c (launchDo f s c)) := exec_launch f s
    have hdo {e : Eff} (hb : launchDo f s c = e) : orCommit s c (launchDo f s c) = e := (orCommit_free _ hdet).trans hb
    refine ⟨fun hq hh => ?_, fun hq ho hh => ?_, fun hq ho hc hp hh => ?_, fun m hq ho hc hh => ?_, fun hq ho hc hp => ?_⟩
    · exact traps_operand he h hv (hdo (launchDo_badQueue hq)) hh
    · exact traps_of_body he h (.inl hv) (hdo (launchDo_misaligned hq ho)) hh
    · exact traps_operand he h hv (hdo (launchDo_noPacket hq ho hc hp)) hh
    · exact traps_of_body he h (.inl hv) (hdo (launchDo_unreadable hq ho hc)) hh
    · have hgroups := (stored_lookQueue s q).groups
      have happend {s' : State} {n : Nat} (ha : appendLaunch s q c.l.asid img = (s', n)) :
          orCommit s c (launchDo f s c) = .next s' (setS c.g f.sd.toNat (BitVec.ofNat 64 n)) := by
        rw [hdo (launchDo_appends hq ho hc hp)]
        show Eff.next (appendLaunch s q c.l.asid img).1 (setS c.g f.sd.toNat (BitVec.ofNat 64 (appendLaunch s q c.l.asid img).2)) = _
        rw [ha]
      refine ⟨fun hbad => ?_, fun ha hs hown hfull => ?_, fun ha hs hown hroom ds seen s2 seen2 hread hsound hwrite htaken => ?_⟩
      · exact setsScalar_of_body he h hv (happend (appendLaunch_refused hbad)) hgroups
      · exact setsScalar_of_body he h hv (happend (appendLaunch_full ha hs hown hfull)) hgroups
      · have hchanged := (stored_spWrite hwrite).trans (stored_putQ s2 q { x with wridx := x.wridx + 1 } [])
        obtain ⟨t, hexec, hsets, hmem, hfe⟩ := setsScalar_of_body he h hv
          (happend (appendLaunch_appended ha hs hown hroom hread hsound hwrite htaken)) (hchanged.groups.trans hgroups)
        have hq' : getQ t q = getQ (putQ s2 q { x with wridx := x.wridx + 1 }) q := by rw [getQ, hfe]; rfl
        exact ⟨t, hexec, hsets, hmem, hq'.trans ((getQ_putQ ..).trans (if_pos rfl))⟩

end Sys2Proof.Machine
end
